-- ==== Sys2Proof/Word.lean ====
section
/-! DEFINITION. The words of the machine (R6, R41): plain bit vectors. Addresses and register
contents are bit vectors; counts, indices and cycle numbers are natural numbers. -/

namespace Sys2Proof

/-- A byte of memory. -/
abbrev Byte := BitVec 8
/-- A scalar register, a virtual or physical address while it is computed. -/
abbrev Word := BitVec 64
/-- An instruction-word register field (R52, R53). -/
abbrev Reg := BitVec 5
/-- A predicate or mask index. -/
abbrev PReg := BitVec 3
/-- The contents of a vector register, 4,096 bytes; byte i is bits [8i+7:8i] (R41, R44). -/
abbrev VWord := BitVec 32768
/-- The contents of a mask, bit i for element i (R44). -/
abbrev MWord := BitVec 4096

end Sys2Proof
end

