-- ==== Sys2Proof/Config.lean ====
section
/-! DEFINITION. What is fixed for every A9 (R1, R2) and the FREE VALUES: opaque constants without a
body, one for each value the manual leaves open after which the machine goes on. Nothing can be
proved about a free value beyond what its use here imposes. -/

namespace Sys2Proof.Config

/-- Global cores of the module (R1). -/
def numCores : Nat := 192
/-- Context slots of a core (R2). -/
def numSlots : Nat := 8
/-- Partitions (R3). -/
def numParts : Nat := 20
/-- Functions: the PF (0) and 128 VFs (R3). -/
def numFuncs : Nat := 129

/-- FREE VALUE (notes/assumptions/3.md). Which of the values within the bound of R317 a special
function delivers: `fn` is the fn field, `fmt` the format code, `a` the operand's bits. R317 makes the
result a fixed function of the operand's bits and gives only a bound. -/
opaque ulpChoice (fn fmt a : Nat) : Nat

/-- FREE VALUE (notes/assumptions/4.md). The device identity key and the verifying key fused into the boot ROM (R470, R474). -/
opaque identityKey : List Byte
opaque bootKey : List Byte
/-- FREE VALUE (notes/assumptions/4.md). The boot ROM and the image that the factory put into flash (R470, R474). -/
opaque bootRom : List Byte
opaque factoryImage : List Byte
/-- Uninterpreted (notes/assumptions/4.md): SHA-512, and whether an ECDSA P-521 signature of a digest holds under a key. -/
opaque sha512 (l : List Byte) : List Byte
opaque signatureHolds (key digest sig : List Byte) : Bool
/-- FREE VALUE (notes/assumptions/4.md). The bytes the trust processor, which holds a key, answers to an SPDM request
(R474): the n-th answer, to the request's bytes. -/
opaque spdmAnswer (key : List Byte) (n : Nat) (req : List Byte) : List Byte

/-- FREE VALUE (notes/assumptions/7.md). The byte at a physical address of HBM after the n-th reset of the module (R464). -/
opaque hbmAfterReset (n a : Nat) : Byte

/-- FREE VALUE (notes/assumptions/5.md). A word of the working buffer that a command leaves behind
where the manual says that units above the progress index "may have been performed" (R240): whether
burst `b` beyond a failing element was performed. -/
opaque burstPerformed (n b : Nat) : Bool

/-- FREE VALUE (notes/assumptions/12.md, notes/assumptions/13.md). What another module answers at the n-th move: whether it
admits the sender of a message and its slot holds a task, and the messages left in its inbox (R410, R412); whether a tile of
it is valid, ready or free, its size, and what a publication there comes to (R243, R248). -/
opaque peerAnswer (n : Nat) : Nat

/-- FREE VALUE (notes/assumptions/12.md). Byte i of the tile of another module that a copy took at the n-th move (R243). -/
opaque peerByte (n i : Nat) : Byte

/-- FREE VALUE (notes/assumptions/43.md). Whether the stores of `VACST` to the element at address `a` that come after unit
`prog` of the M command with push number `no`, in the run of a task that began at move `run`, fall within the step that unit
was (R328). -/
opaque vacstLost (run no prog a : Nat) : Bool

/-- FREE VALUE (notes/assumptions/26.md). How many events 0x11 to 0x14 a core's requests to the die caches make in a core
cycle of themselves (R462): what a cache holds and how long it takes are not architected (R227). -/
opaque dieCacheEvents (core event cycle : Nat) : Nat

/-- FREE VALUE (notes/assumptions/46.md). Whether the host answers a `PUBH`'s FetchAdd, at the n-th move, with Unsupported
Request (R382). -/
opaque fetchAddRefused (n : Nat) : Bool

/-- FREE VALUE (notes/assumptions/16.md). The page of host memory that the host gives, at the n-th move, for a 64 KiB page of a
function's I/O virtual addresses (R467). -/
opaque atsResult (fn page n : Nat) : Nat

/-- FREE VALUE (notes/assumptions/26.md). How many events 0x13 and 0x14 of a core in a core cycle another partition's
allocations and requests make, where the two share ways (R227). -/
opaque dieCacheForeign (core event cycle : Nat) : Nat

end Sys2Proof.Config
end

