-- ==== Sys2Proof/Syntax.lean ====
section
/-! DEFINITION. The instructions, engine commands and events of spec/opcode_table.json, one
constructor a row. Instruction operands are the fields of R52 and R53 that the instruction's entry
uses; an engine command carries its fields; an event carries what names it (the core, slot, ring,
function, partition) and what the outside world supplies (a written value, a packet). -/

namespace Sys2Proof

/-- The p and pn fields (R55): a predicate in the C stream, a mask in the V stream. -/
structure Pred where
  p : PReg
  pn : Bool
  deriving DecidableEq, Repr

/-- An immediate that K64 carries in imm16 and K96 in LIT (R53, R57). -/
inductive Imm where
  | i16 (v : BitVec 16)
  | i32 (v : BitVec 32)
  deriving DecidableEq, Repr

/-- An operand that K64 takes from a register and K96 from LIT (R158, R193, R217). -/
inductive RegLit where
  | reg (a : Reg)
  | lit (v : BitVec 32)
  deriving DecidableEq, Repr

/-- The scope code of R61. -/
abbrev Scope := BitVec 3

/-! ### Operand shapes of C- and V-stream instructions -/

structure RRR where
  pr : Pred
  d : Reg
  a : Reg
  b : Reg
  deriving DecidableEq, Repr

structure RRI where
  pr : Pred
  d : Reg
  a : Reg
  imm : Imm
  deriving DecidableEq, Repr

structure RR where
  pr : Pred
  d : Reg
  a : Reg
  deriving DecidableEq, Repr

structure RRRR where
  pr : Pred
  d : Reg
  a : Reg
  b : Reg
  c : Reg
  deriving DecidableEq, Repr

/-- The field row (R168). -/
structure FieldOp where
  pr : Pred
  d : Reg
  a : Reg
  pos : BitVec 6
  len : BitVec 7
  deriving DecidableEq, Repr

structure Li16 where
  pr : Pred
  d : Reg
  imm : BitVec 16
  deriving DecidableEq, Repr

structure Li32 where
  pr : Pred
  d : Reg
  lit : BitVec 32
  deriving DecidableEq, Repr

structure CmpR where
  pr : Pred
  d : PReg
  a : Reg
  b : Reg
  deriving DecidableEq, Repr

structure CmpI where
  pr : Pred
  d : PReg
  a : Reg
  imm : Imm
  deriving DecidableEq, Repr

structure PRRR where
  pr : Pred
  d : PReg
  a : PReg
  b : PReg
  deriving DecidableEq, Repr

structure PRR where
  pr : Pred
  d : PReg
  a : PReg
  deriving DecidableEq, Repr

/-- Rounded floating point, two sources (R176, R315). -/
structure FpRRR where
  pr : Pred
  d : Reg
  a : Reg
  b : Reg
  fmt : BitVec 5
  rm : BitVec 2
  ovf : Bool
  deriving DecidableEq, Repr

/-- Floating point without rounding, two sources (R178, R182). -/
structure FpRRRx where
  pr : Pred
  d : Reg
  a : Reg
  b : Reg
  fmt : BitVec 5
  deriving DecidableEq, Repr

structure FpRR where
  pr : Pred
  d : Reg
  a : Reg
  fmt : BitVec 5
  rm : BitVec 2
  ovf : Bool
  deriving DecidableEq, Repr

structure FpRRx where
  pr : Pred
  d : Reg
  a : Reg
  fmt : BitVec 5
  deriving DecidableEq, Repr

structure FpRRRR where
  pr : Pred
  d : Reg
  a : Reg
  b : Reg
  c : Reg
  fmt : BitVec 5
  rm : BitVec 2
  ovf : Bool
  deriving DecidableEq, Repr

structure FcmpOp where
  pr : Pred
  d : PReg
  a : Reg
  b : Reg
  fmt : BitVec 5
  deriving DecidableEq, Repr

/-- FCVT.FF (R181): g is the source format. -/
structure FcvtFF where
  pr : Pred
  d : Reg
  a : Reg
  g : BitVec 5
  fmt : BitVec 5
  rm : BitVec 2
  ovf : Bool
  deriving DecidableEq, Repr

structure BpOp where
  pr : Pred
  off : Imm
  deriving DecidableEq, Repr

structure JrOp where
  pr : Pred
  a : Reg
  deriving DecidableEq, Repr

structure CallOp where
  pr : Pred
  d : Reg
  off : Imm
  deriving DecidableEq, Repr

/-- HLOOP (R185): the count is a register in K64, LIT in K96. -/
structure HloopOp where
  id : Reg
  cnt : RegLit
  b : Reg
  c : Reg
  len : BitVec 16
  deriving DecidableEq, Repr

/-- HLOOP in the V stream, both function values (R206). -/
structure HloopVOp where
  np : Bool
  h : HloopOp
  deriving DecidableEq, Repr

structure LdOp where
  pr : Pred
  d : Reg
  a : Reg
  ord : BitVec 2
  scope : Scope
  off : Imm
  deriving DecidableEq, Repr

structure StOp where
  pr : Pred
  a : Reg
  b : Reg
  ord : BitVec 2
  scope : Scope
  off : Imm
  deriving DecidableEq, Repr

structure LdxOp where
  pr : Pred
  d : Reg
  a : Reg
  imm : BitVec 16
  deriving DecidableEq, Repr

structure StxOp where
  pr : Pred
  a : Reg
  b : Reg
  imm : BitVec 16
  deriving DecidableEq, Repr

structure AmoOp where
  pr : Pred
  d : Reg
  a : Reg
  b : Reg
  ord : BitVec 2
  dbl : Bool
  scope : Scope
  imm : BitVec 16
  deriving DecidableEq, Repr

structure CasOp where
  pr : Pred
  d : Reg
  a : Reg
  b : Reg
  c : Reg
  ord : BitVec 2
  dbl : Bool
  scope : Scope
  deriving DecidableEq, Repr

structure FenceOp where
  pr : Pred
  scope : Scope
  deriving DecidableEq, Repr

structure AcqOp where
  pr : Pred
  d : Reg
  a : Reg
  scope : Scope
  imm : BitVec 16
  deriving DecidableEq, Repr

structure MonOp where
  pr : Pred
  a : Reg
  imm : BitVec 16
  deriving DecidableEq, Repr

structure BarOp where
  pr : Pred
  d : Reg
  a : Reg
  scope : Scope
  b : BitVec 8
  deriving DecidableEq, Repr

structure MsetOp where
  pr : Pred
  set : BitVec 1
  row : BitVec 3
  val : RegLit
  deriving DecidableEq, Repr

structure MsetGOp where
  pr : Pred
  g : BitVec 4
  w : BitVec 2
  val : RegLit
  deriving DecidableEq, Repr

structure PushRR where
  pr : Pred
  a : Reg
  b : Reg
  deriving DecidableEq, Repr

/-- XPSH and VGO: K96 carries a literal (R196, R197). -/
structure PushRRL where
  pr : Pred
  a : Reg
  b : Reg
  lit : Option (BitVec 32)
  deriving DecidableEq, Repr

/-- NOTE (R141): w awaited, r raised, X[a] the count. -/
structure NoteOp where
  pr : Pred
  a : Reg
  w : BitVec 6
  r : BitVec 6
  deriving DecidableEq, Repr

structure SemrOp where
  pr : Pred
  s : BitVec 6
  deriving DecidableEq, Repr

structure SemwOp where
  pr : Pred
  d : Reg
  a : Reg
  s : BitVec 6
  deriving DecidableEq, Repr

structure GsetPOp where
  pr : Pred
  b : PReg
  g : BitVec 6
  deriving DecidableEq, Repr

structure GsetXOp where
  pr : Pred
  a : Reg
  g : BitVec 6
  deriving DecidableEq, Repr

structure GsetCOp where
  pr : Pred
  g : BitVec 6
  deriving DecidableEq, Repr

structure TileDA where
  pr : Pred
  d : Reg
  a : Reg
  t : BitVec 9
  deriving DecidableEq, Repr

structure TileA where
  pr : Pred
  a : Reg
  t : BitVec 9
  deriving DecidableEq, Repr

structure TbindOp where
  pr : Pred
  d : Reg
  a : Reg
  b : Reg
  o : BitVec 16
  deriving DecidableEq, Repr

structure CbdefOp where
  pr : Pred
  n : BitVec 4
  t : BitVec 6
  depth : BitVec 6
  deriving DecidableEq, Repr

structure CbdefTOp where
  pr : Pred
  t : BitVec 6
  cnt : BitVec 6
  val : RegLit
  deriving DecidableEq, Repr

structure CbadvOp where
  pr : Pred
  a : Reg
  n : BitVec 4
  add : BitVec 8
  deriving DecidableEq, Repr

structure CbqryOp where
  pr : Pred
  d : Reg
  n : BitVec 4
  deriving DecidableEq, Repr

structure DTile where
  pr : Pred
  d : Reg
  t : BitVec 6
  deriving DecidableEq, Repr

structure DCap where
  pr : Pred
  d : Reg
  c : Reg
  deriving DecidableEq, Repr

structure TasteOp where
  pr : Pred
  d : Reg
  a : Reg
  b : Reg
  t : BitVec 6
  e : BitVec 3
  fin : Bool
  deriving DecidableEq, Repr

structure TasteROp where
  pr : Pred
  d : Reg
  a : Reg
  b : Reg
  c : Reg
  e : BitVec 3
  fin : Bool
  deriving DecidableEq, Repr

structure VnqEOp where
  pr : Pred
  d : Reg
  e : BitVec 3
  deriving DecidableEq, Repr

structure SetdefOp where
  pr : Pred
  d : Reg
  a : Reg
  b : Reg
  g : BitVec 6
  deriving DecidableEq, Repr

structure SetlwOp where
  pr : Pred
  d : Reg
  a : Reg
  g : BitVec 6
  deriving DecidableEq, Repr

structure SkinitOp where
  pr : Pred
  a : Reg
  kind : BitVec 2
  top : BitVec 12
  deriving DecidableEq, Repr

structure SkmrgOp where
  pr : Pred
  a : Reg
  top : BitVec 12
  deriving DecidableEq, Repr

structure SkmrgROp where
  pr : Pred
  c : Reg
  top : BitVec 12
  deriving DecidableEq, Repr

structure SkqOp where
  pr : Pred
  d : Reg
  a : Reg
  top : BitVec 12
  deriving DecidableEq, Repr

structure SkestOp where
  pr : Pred
  d : Reg
  top : BitVec 12
  deriving DecidableEq, Repr

structure TksetOp where
  pr : Pred
  amt : RegLit
  b : Reg
  deriving DecidableEq, Repr

structure TksetTOp where
  pr : Pred
  amt : RegLit
  b : Reg
  t : BitVec 9
  deriving DecidableEq, Repr

structure TkgetOp where
  pr : Pred
  d : Reg
  a : Reg
  sel : BitVec 4
  wide : Bool
  deriving DecidableEq, Repr

structure YieldOp where
  pr : Pred
  mask : BitVec 4
  wide : Bool
  deriving DecidableEq, Repr

/-- The seed of DRSEED: X[a] + imm16 in K64, LIT in K96 (R161). -/
inductive SeedSrc where
  | sum (a : Reg) (imm : BitVec 16)
  | lit (v : BitVec 32)
  deriving DecidableEq, Repr

structure DrseedOp where
  pr : Pred
  src : SeedSrc
  deriving DecidableEq, Repr

structure DrnextOp where
  pr : Pred
  d : Reg
  e : BitVec 3
  wide : Bool
  deriving DecidableEq, Repr

structure CursetOp where
  pr : Pred
  amt : RegLit
  b : Reg
  k : BitVec 8
  deriving DecidableEq, Repr

structure CurissOp where
  pr : Pred
  amt : RegLit
  k : BitVec 8
  deriving DecidableEq, Repr

structure LarmOp where
  pr : Pred
  d : Reg
  a : Reg
  imm : BitVec 16
  wide : Bool
  deriving DecidableEq, Repr

structure LpatchOp where
  pr : Pred
  d : Reg
  a : Reg
  sel : Reg
  val : RegLit
  imm : BitVec 16
  deriving DecidableEq, Repr

structure LsendOp where
  pr : Pred
  d : Reg
  a : Reg
  c : Reg
  wide : Bool
  deriving DecidableEq, Repr

structure ChsndOp where
  pr : Pred
  d : Reg
  a : Reg
  c : Reg
  scope : Scope
  imm : BitVec 16
  deriving DecidableEq, Repr

structure ChrcvOp where
  pr : Pred
  d : Reg
  a : Reg
  b : Reg
  c : Reg
  scope : Scope
  imm : BitVec 16
  deriving DecidableEq, Repr

structure ChcapRdOp where
  pr : Pred
  d : Reg
  c : Reg
  w : Bool
  deriving DecidableEq, Repr

structure ChcapClrOp where
  pr : Pred
  c : Reg
  deriving DecidableEq, Repr

structure PubhOp where
  pr : Pred
  d : Reg
  a : Reg
  imm : BitVec 16
  irq : Bool
  deriving DecidableEq, Repr

structure CollOp where
  pr : Pred
  d : Reg
  a : Reg
  off : Imm
  deriving DecidableEq, Repr

structure TrapOp where
  pr : Pred
  imm : BitVec 16
  deriving DecidableEq, Repr

structure SysrdOp where
  pr : Pred
  d : Reg
  num : BitVec 16
  deriving DecidableEq, Repr

structure SyswrOp where
  pr : Pred
  a : Reg
  num : BitVec 16
  deriving DecidableEq, Repr

structure DOp where
  pr : Pred
  d : Reg
  deriving DecidableEq, Repr

structure WaitOp where
  pr : Pred
  d : Reg
  a : Reg
  imm : BitVec 16
  deriving DecidableEq, Repr

/-! ### V-stream shapes -/

structure VmovOp where
  pr : Pred
  d : Reg
  a : Reg
  wide : Bool
  deriving DecidableEq, Repr

structure VbcstOp where
  pr : Pred
  d : Reg
  imm : Imm
  deriving DecidableEq, Repr

structure VbcstEOp where
  pr : Pred
  d : Reg
  a : Reg
  k : BitVec 16
  deriving DecidableEq, Repr

structure MLog where
  d : PReg
  a : PReg
  b : PReg
  deriving DecidableEq, Repr

structure MLogV where
  d : Reg
  a : PReg
  deriving DecidableEq, Repr

structure MLogN where
  d : PReg
  a : PReg
  deriving DecidableEq, Repr

structure VspecOp where
  pr : Pred
  d : Reg
  a : Reg
  fmt : BitVec 5
  ovf : Bool
  deriving DecidableEq, Repr

structure VcvtOp where
  pr : Pred
  d : Reg
  a : Reg
  c : Reg
  fmt : BitVec 5
  rm : BitVec 2
  ovf : Bool
  imm : BitVec 16
  deriving DecidableEq, Repr

structure VredsOp where
  pr : Pred
  d : Reg
  a : Reg
  fmt : BitVec 5
  rm : BitVec 2
  ovf : Bool
  row : Bool
  deriving DecidableEq, Repr

structure VredsIOp where
  pr : Pred
  d : Reg
  a : Reg
  ovf : Bool
  row : Bool
  deriving DecidableEq, Repr

structure VredxOp where
  pr : Pred
  d : Reg
  a : Reg
  fmt : BitVec 5
  row : Bool
  deriving DecidableEq, Repr

structure VredxIOp where
  pr : Pred
  d : Reg
  a : Reg
  row : Bool
  deriving DecidableEq, Repr

structure VldOp where
  pr : Pred
  d : Reg
  top : BitVec 12
  off : Option (BitVec 32)
  deriving DecidableEq, Repr

structure VldXOp where
  pr : Pred
  d : Reg
  a : Reg
  top : BitVec 12
  off : Option (BitVec 32)
  deriving DecidableEq, Repr

structure VstOp where
  pr : Pred
  b : Reg
  top : BitVec 12
  off : Option (BitVec 32)
  deriving DecidableEq, Repr

structure VstXOp where
  pr : Pred
  a : Reg
  b : Reg
  top : BitVec 12
  off : Option (BitVec 32)
  deriving DecidableEq, Repr

structure VgathOp where
  pr : Pred
  d : Reg
  b : Reg
  top : BitVec 12
  deriving DecidableEq, Repr

structure VscatOp where
  pr : Pred
  a : Reg
  b : Reg
  top : BitVec 12
  deriving DecidableEq, Repr

/-- VACLD (r = d) and VACST (r = b), R326. -/
structure VacOp where
  pr : Pred
  r : Reg
  cg : Reg
  view : BitVec 3
  afmt : BitVec 2
  r0 : BitVec 7
  fmt : BitVec 5
  rm : BitVec 2
  ovf : Bool
  deriving DecidableEq, Repr

/-- The distance of VSLUP and VSLDN (R330). -/
inductive SlideDist where
  | reg (b : Reg) (imm : BitVec 16)
  | imm (imm : BitVec 16)
  deriving DecidableEq, Repr

structure VslideOp where
  pr : Pred
  d : Reg
  a : Reg
  dist : SlideDist
  deriving DecidableEq, Repr

structure VtrgOp where
  w : BitVec 2
  a : Reg
  deriving DecidableEq, Repr

structure VqpshOp where
  pr : Pred
  a : Reg
  c : Reg
  q : BitVec 2
  deriving DecidableEq, Repr

structure VqpopOp where
  d : Reg
  b : PReg
  c : Reg
  q : BitVec 2
  deriving DecidableEq, Repr

structure VrbalOp where
  d : Reg
  q : BitVec 2
  deriving DecidableEq, Repr

structure VskqOp where
  pr : Pred
  a : Reg
  fmt : BitVec 5
  top : BitVec 12
  deriving DecidableEq, Repr

structure VskOp where
  pr : Pred
  a : Reg
  top : BitVec 12
  deriving DecidableEq, Repr

structure VclipqOp where
  pr : Pred
  d : Reg
  a : Reg
  c : Reg
  fmt : BitVec 5
  top : BitVec 12
  mode : BitVec 2
  deriving DecidableEq, Repr

/-! ### Engine commands (R70, R71) -/

/-- The command head of R70 less COP, with the await count of R71 (16 bits in the S ring). -/
structure CmdHead where
  aws : BitVec 6
  rss : BitVec 6
  gds : BitVec 6
  gsn : Bool
  shd : Bool
  awc : BitVec 32
  deriving DecidableEq, Repr

/-- MMA and MMAS (R289). -/
structure MmaCmd where
  h : CmdHead
  nset : BitVec 1
  gs : BitVec 4
  gb : BitVec 4
  accv : BitVec 3
  nl : BitVec 3
  za : Bool
  afmt : BitVec 2
  ovf : Bool
  pv : BitVec 6
  vt : BitVec 12
  ks : BitVec 16
  mq : BitVec 2
  vfmt : BitVec 5
  vrdg : BitVec 2
  vrm : BitVec 2
  vovf : Bool
  ctag : BitVec 4
  deriving DecidableEq, Repr

/-- MZERO (R299), less ZV. -/
structure MzeroCmd where
  h : CmdHead
  accv : BitVec 3
  afmt : BitVec 2
  view : BitVec 32
  deriving DecidableEq, Repr

/-- MEXP and MIMP (R300). -/
structure MxfCmd where
  h : CmdHead
  accv : BitVec 3
  afmt : BitVec 2
  top : BitVec 12
  fmt : BitVec 5
  rdg : BitVec 2
  rm : BitVec 2
  ovf : Bool
  raw : Bool
  pl : Bool
  off : BitVec 18
  deriving DecidableEq, Repr

/-- An X command's fields (R235), less COP and the low bits of XFN that choose the row. -/
structure XCmd where
  h : CmdHead
  hold : Bool
  dt : BitVec 12
  st : BitVec 12
  desc : BitVec 12
  opnd : BitVec 32
  deriving DecidableEq, Repr

/-- An S command (R254). -/
structure SCmd where
  h : CmdHead
  src : BitVec 12
  oq : BitVec 1
  rate : BitVec 5
  wid : BitVec 2
  deriving DecidableEq, Repr

/-! ### Names used by events -/

/-- The rings whose heads pass R137: M, X, S and the V kernel queue (R197). -/
inductive RingId where
  | m | x | s | k
  deriving DecidableEq, Repr

/-- The engines that hold draws (R143, R144). -/
inductive Engine where
  | mxe | vxe | cpe | sie
  deriving DecidableEq, Repr

/-- The streams, numbered as in R47. -/
inductive Strm where
  | c | v | m | x | s
  deriving DecidableEq, Repr

/-- A slot of a core: global core number and context slot. -/
structure SlotId where
  core : Nat
  slot : Nat
  deriving DecidableEq, Repr

/-- A ring head. -/
structure HeadRef where
  core : Nat
  slot : Nat
  ring : RingId
  deriving DecidableEq, Repr

/-- A stream of a slot. -/
structure StrmRef where
  core : Nat
  slot : Nat
  strm : Strm
  deriving DecidableEq, Repr

/-- An engine of a core. -/
structure EngRef where
  core : Nat
  eng : Engine
  deriving DecidableEq, Repr

/-- A trap to be taken (R428). -/
structure TrapArgs where
  core : Nat
  slot : Nat
  code : BitVec 8
  strm : Strm
  epc : Word
  eva : Word
  deriving DecidableEq, Repr

/-- A launch queue of a function (R90). -/
structure QueueRef where
  fn : Nat
  q : Nat
  deriving DecidableEq, Repr

/-- A write to a launch-queue register. -/
structure QueueWrite where
  fn : Nat
  q : Nat
  v : Word
  deriving DecidableEq, Repr

/-- A peer launch packet with its fabric header (R100). -/
structure PeerPacket where
  sdev : Nat
  spart : Nat
  fn : Nat
  q : Nat
  pkt : BitVec 512
  deriving DecidableEq, Repr

structure PartRec where
  part : Nat
  idx : Nat
  deriving DecidableEq, Repr

structure PartDie where
  part : Nat
  die : Nat
  deriving DecidableEq, Repr

/-- A cask of a core, by core-wide number (R215). -/
structure CaskRef where
  core : Nat
  cask : Nat
  deriving DecidableEq, Repr

/-- A storage error (R226): 0 scratchpad, 1 ACS, 2 vector register file, 3 tile or ring table,
4 HBM or die cache; word is the 64-bit word index, or the granule in HBM. -/
structure EccArgs where
  core : Nat
  store : Nat
  word : Nat
  deriving DecidableEq, Repr

/-- A co-operative group (R296): the member cores in position order, with the slot of each. -/
structure GroupArgs where
  members : List SlotId
  deriving DecidableEq, Repr

/-- A collective packet at a member (R415): header flit and data bytes, arriving for a function. -/
structure CollPacket where
  fn : Nat
  hdr : BitVec 256
  data : List Byte
  deriving DecidableEq, Repr

/-- A collective of a function, by CID. -/
structure CollRef where
  fn : Nat
  cid : Nat
  deriving DecidableEq, Repr

/-- A port of the module. -/
structure PortFn where
  port : Nat
  fn : Nat
  deriving DecidableEq, Repr

/-- A host write at a byte offset of a function's BAR0 (R465); the PF is function 0. -/
structure BarWrite where
  fn : Nat
  off : Nat
  v : Word
  deriving DecidableEq, Repr

/-- A host access through BAR2 (R467): offset and length in bytes, and what is written. -/
structure WinRead where
  fn : Nat
  off : Nat
  len : Nat
  deriving DecidableEq, Repr

structure WinWrite where
  fn : Nat
  off : Nat
  data : List Byte
  deriving DecidableEq, Repr

/-- A 4 KiB chunk at the recovery mailbox (R472). -/
structure ChunkWrite where
  data : List Byte
  deriving DecidableEq, Repr

/-- What the sensors show at a throttle tick (R475): tenths of a watt and of a degree Celsius. -/
structure Sensors where
  power : Nat
  temp : Nat
  deriving DecidableEq, Repr

/-- An SPDM request (R474): the request bytes. -/
structure SpdmReq where
  body : List Byte
  deriving DecidableEq, Repr

/-- Why a waiting MWAIT returns (R383). -/
inductive WakeCause where
  | written | spurious | deadline
  deriving DecidableEq, Repr

structure MwaitWakeArgs where
  core : Nat
  slot : Nat
  cause : WakeCause
  deriving DecidableEq, Repr

/-- A remote seal on its way to a tile (R393). -/
structure TileRef where
  core : Nat
  abs : Nat
  deriving DecidableEq, Repr

structure PartGroup where
  part : Nat
  group : Nat
  deriving DecidableEq, Repr

/-- What bring-up meets (R464): the step that fails (0: none) and the time of the fabric domain in
ns that SYS_TIME is synchronised to. -/
structure BringUpArgs where
  fail : Nat
  timeNs : Nat
  deriving DecidableEq, Repr

/-- The instructions, commands and events of spec/opcode_table.json, in its order. -/
inductive Instr where
  | add (o : RRR)
  | sub (o : RRR)
  | and (o : RRR)
  | or (o : RRR)
  | xor (o : RRR)
  | andn (o : RRR)
  | orn (o : RRR)
  | shl (o : RRR)
  | shr (o : RRR)
  | sra (o : RRR)
  | rol (o : RRR)
  | min (o : RRR)
  | max (o : RRR)
  | minu (o : RRR)
  | maxu (o : RRR)
  | addImm (o : RRI)
  | subImm (o : RRI)
  | andImm (o : RRI)
  | orImm (o : RRI)
  | xorImm (o : RRI)
  | andnImm (o : RRI)
  | ornImm (o : RRI)
  | shlImm (o : RRI)
  | shrImm (o : RRI)
  | sraImm (o : RRI)
  | rolImm (o : RRI)
  | minImm (o : RRI)
  | maxImm (o : RRI)
  | minuImm (o : RRI)
  | maxuImm (o : RRI)
  | mul (o : RRR)
  | mulh (o : RRR)
  | mulhu (o : RRR)
  | div (o : RRR)
  | divu (o : RRR)
  | rem (o : RRR)
  | remu (o : RRR)
  | mulImm (o : RRI)
  | mulhImm (o : RRI)
  | mulhuImm (o : RRI)
  | divImm (o : RRI)
  | divuImm (o : RRI)
  | remImm (o : RRI)
  | remuImm (o : RRI)
  | clz (o : RR)
  | ctz (o : RR)
  | popc (o : RR)
  | brev (o : RR)
  | mov (o : RR)
  | sext (o : FieldOp)
  | zext (o : FieldOp)
  | bext (o : FieldOp)
  | bins (o : FieldOp)
  | li (o : Li16)
  | liK96 (o : Li32)
  | liHi (o : Li32)
  | sel (o : RRR)
  | lea (o : RRR)
  | leaImm (o : RRI)
  | cmpEq (o : CmpR)
  | cmpNe (o : CmpR)
  | cmpLt (o : CmpR)
  | cmpGe (o : CmpR)
  | cmpLtu (o : CmpR)
  | cmpGeu (o : CmpR)
  | cmpEqImm (o : CmpI)
  | cmpNeImm (o : CmpI)
  | cmpLtImm (o : CmpI)
  | cmpGeImm (o : CmpI)
  | cmpLtuImm (o : CmpI)
  | cmpGeuImm (o : CmpI)
  | pand (o : PRRR)
  | por (o : PRRR)
  | pxor (o : PRRR)
  | pnot (o : PRR)
  | fadd (o : FpRRR)
  | fsub (o : FpRRR)
  | fmul (o : FpRRR)
  | fdiv (o : FpRRR)
  | fmin (o : FpRRRx)
  | fmax (o : FpRRRx)
  | fsqrt (o : FpRR)
  | ffma (o : FpRRRR)
  | fcmpEq (o : FcmpOp)
  | fcmpNe (o : FcmpOp)
  | fcmpLt (o : FcmpOp)
  | fcmpLe (o : FcmpOp)
  | fcmpUn (o : FcmpOp)
  | fcvtFf (o : FcvtFF)
  | fcvtFi (o : FpRR)
  | fcvtFu (o : FpRR)
  | fcvtIf (o : FpRR)
  | fcvtUf (o : FpRR)
  | fclass (o : FpRRx)
  | fsgn (o : FpRRRx)
  | fsgnN (o : FpRRRx)
  | fsgnX (o : FpRRRx)
  | bp (o : BpOp)
  | jr (o : JrOp)
  | call (o : CallOp)
  | callr (o : RR)
  | ret (o : JrOp)
  | hloop (o : HloopOp)
  | hloopNp (o : HloopOp)
  | ldB (o : LdOp)
  | ldH (o : LdOp)
  | ldW (o : LdOp)
  | ldD (o : LdOp)
  | ldBu (o : LdOp)
  | ldHu (o : LdOp)
  | ldWu (o : LdOp)
  | stB (o : StOp)
  | stH (o : StOp)
  | stW (o : StOp)
  | stD (o : StOp)
  | ldxB (o : LdxOp)
  | ldxH (o : LdxOp)
  | ldxW (o : LdxOp)
  | ldxD (o : LdxOp)
  | stxB (o : StxOp)
  | stxH (o : StxOp)
  | stxW (o : StxOp)
  | stxD (o : StxOp)
  | amoAdd (o : AmoOp)
  | amoAnd (o : AmoOp)
  | amoOr (o : AmoOp)
  | amoXor (o : AmoOp)
  | amoMin (o : AmoOp)
  | amoMax (o : AmoOp)
  | amoMinu (o : AmoOp)
  | amoMaxu (o : AmoOp)
  | amoXchg (o : AmoOp)
  | cas (o : CasOp)
  | fenceAq (o : FenceOp)
  | fenceRl (o : FenceOp)
  | fenceAr (o : FenceOp)
  | fenceSc (o : FenceOp)
  | acq (o : AcqOp)
  | rel (o : AcqOp)
  | tryacq (o : AcqOp)
  | mon (o : MonOp)
  | mwait (o : RR)
  | mwaitWake (o : MwaitWakeArgs)
  | bar (o : BarOp)
  | mset (o : MsetOp)
  | msetG (o : MsetGOp)
  | mgo (o : PushRR)
  | xpsh (o : PushRRL)
  | vgo (o : PushRRL)
  | sgo (o : JrOp)
  | noteC (o : NoteOp)
  | noteM (o : NoteOp)
  | noteX (o : NoteOp)
  | noteS (o : NoteOp)
  | semr (o : SemrOp)
  | semw (o : SemwOp)
  | gset (o : GsetPOp)
  | gsetN (o : GsetPOp)
  | gsetX (o : GsetXOp)
  | gsetClr (o : GsetCOp)
  | tstat (o : TileDA)
  | tfree (o : TileA)
  | tfreeU (o : TileA)
  | tbind (o : TbindOp)
  | cbdef (o : CbdefOp)
  | cbdefT (o : CbdefTOp)
  | cbadvP (o : CbadvOp)
  | cbadvC (o : CbadvOp)
  | cbqry (o : CbqryOp)
  | ckpin (o : TileA)
  | ckpinClr (o : TileA)
  | cktkt (o : TileDA)
  | pubv (o : DTile)
  | seal (o : DTile)
  | sealR (o : DCap)
  | remoteSealArrival (o : TileRef)
  | taste (o : TasteOp)
  | tasteR (o : TasteROp)
  | vnq (o : DTile)
  | vnqR (o : DCap)
  | vnqE (o : VnqEOp)
  | setdef (o : SetdefOp)
  | setlw (o : SetlwOp)
  | settlement (o : PartGroup)
  | skinit (o : SkinitOp)
  | skmrg (o : SkmrgOp)
  | skmrgR (o : SkmrgROp)
  | skqnt (o : SkqOp)
  | skest (o : SkestOp)
  | skestX (o : SkestOp)
  | sktop (o : SkqOp)
  | sktopC (o : SkqOp)
  | tkset (o : TksetOp)
  | tksetT (o : TksetTOp)
  | tkget (o : TkgetOp)
  | yield (o : YieldOp)
  | drseed (o : DrseedOp)
  | drnext (o : DrnextOp)
  | curset (o : CursetOp)
  | cursetClr (o : CursetOp)
  | curiss (o : CurissOp)
  | larm (o : LarmOp)
  | lpatch (o : LpatchOp)
  | lsend (o : LsendOp)
  | lqry (o : LarmOp)
  | chsnd (o : ChsndOp)
  | chrcv (o : ChrcvOp)
  | chcapRd (o : ChcapRdOp)
  | chcapNar (o : RRRR)
  | chcapClr (o : ChcapClrOp)
  | pubh (o : PubhOp)
  | coll (o : CollOp)
  | collAbt (o : RR)
  | trap (o : TrapOp)
  | eret (o : Pred)
  | sysrd (o : SysrdOp)
  | syswr (o : SyswrOp)
  | tfence (o : Pred)
  | flags (o : DOp)
  | brk (o : Pred)
  | halt (o : Pred)
  | nop (o : Pred)
  | wait (o : WaitOp)
  | viadd (o : RRR)
  | visub (o : RRR)
  | vimul (o : RRR)
  | vand (o : RRR)
  | vor (o : RRR)
  | vxor (o : RRR)
  | vshl (o : RRR)
  | vshr (o : RRR)
  | vsra (o : RRR)
  | viaddImm (o : RRI)
  | visubImm (o : RRI)
  | vimulImm (o : RRI)
  | vandImm (o : RRI)
  | vorImm (o : RRI)
  | vxorImm (o : RRI)
  | vshlImm (o : RRI)
  | vshrImm (o : RRI)
  | vsraImm (o : RRI)
  | vimad (o : RRRR)
  | vcmpEqF (o : FcmpOp)
  | vcmpNeF (o : FcmpOp)
  | vcmpLtF (o : FcmpOp)
  | vcmpLeF (o : FcmpOp)
  | vcmpUnF (o : FcmpOp)
  | vcmpEq (o : CmpR)
  | vcmpNe (o : CmpR)
  | vcmpLt (o : CmpR)
  | vcmpGe (o : CmpR)
  | vcmpLtu (o : CmpR)
  | vcmpGeu (o : CmpR)
  | vsel (o : RRR)
  | vmov (o : VmovOp)
  | vbcst (o : VbcstOp)
  | vbcstE (o : VbcstEOp)
  | viota (o : VbcstOp)
  | vshp (o : Reg)
  | vshpK96 (o : BitVec 32)
  | vmlogAnd (o : MLog)
  | vmlogOr (o : MLog)
  | vmlogXor (o : MLog)
  | vmlogAndn (o : MLog)
  | vmlogNot (o : MLogN)
  | vmlogCnt (o : MLogV)
  | vmlogFst (o : MLogV)
  | vadd (o : FpRRR)
  | vsub (o : FpRRR)
  | vmul (o : FpRRR)
  | vdiv (o : FpRRR)
  | vmin (o : FpRRRx)
  | vmax (o : FpRRRx)
  | vsqrt (o : FpRR)
  | vabs (o : FpRRx)
  | vneg (o : FpRRx)
  | vfma (o : FpRRRR)
  | vfms (o : FpRRRR)
  | vrcp (o : VspecOp)
  | vrsq (o : VspecOp)
  | vexp2 (o : VspecOp)
  | vlog2 (o : VspecOp)
  | vsin (o : VspecOp)
  | vcos (o : VspecOp)
  | vsigm (o : VspecOp)
  | vtanh (o : VspecOp)
  | vcvtFf (o : VcvtOp)
  | vcvtFpToElem (o : VcvtOp)
  | vcvtElemToFp (o : VcvtOp)
  | vcvtFpToIntfmt (o : VcvtOp)
  | vcvtIntfmtToFp (o : VcvtOp)
  | vcvtElemToElem (o : VcvtOp)
  | vredsF (o : VredsOp)
  | vredsSq (o : VredsOp)
  | vredsI (o : VredsIOp)
  | vredxMax (o : VredxOp)
  | vredxMin (o : VredxOp)
  | vredxImax (o : VredxIOp)
  | vredxImin (o : VredxIOp)
  | vredxUmax (o : VredxIOp)
  | vredxUmin (o : VredxIOp)
  | vredxArg (o : FpRRx)
  | bV (o : Imm)
  | hloopV (o : HloopVOp)
  | vld (o : VldOp)
  | vldX (o : VldXOp)
  | vst (o : VstOp)
  | vstX (o : VstXOp)
  | vgath (o : VgathOp)
  | vgathQ (o : VgathOp)
  | vscat (o : VscatOp)
  | vacld (o : VacOp)
  | vacst (o : VacOp)
  | vcmpr (o : RR)
  | vexpd (o : RR)
  | vslup (o : VslideOp)
  | vsldn (o : VslideOp)
  | vtrg (o : VtrgOp)
  | vqpsh (o : VqpshOp)
  | vqpop (o : VqpopOp)
  | vrbal (o : VrbalOp)
  | vrbalClr (o : VrbalOp)
  | vskq (o : VskqOp)
  | vskh (o : VskOp)
  | vskd (o : VskOp)
  | vclipq (o : VclipqOp)
  | noteV (o : Pred)
  | haltV (o : Pred)
  | flagsV (o : DOp)
  | tfenceV (o : Pred)
  | kernelStart (o : SlotId)
  | mma (o : MmaCmd)
  | mmas (o : MmaCmd)
  | mmaStepEnd (o : SlotId)
  | coOperativeGroupForm (o : GroupArgs)
  | mzero (o : MzeroCmd)
  | mzeroSet (o : MzeroCmd)
  | mzeroSetz (o : MzeroCmd)
  | mexp (o : MxfCmd)
  | mimp (o : MxfCmd)
  | mnote (o : CmdHead)
  | xcpyL (o : XCmd)
  | xcpyS (o : XCmd)
  | xcpyT (o : XCmd)
  | xcpyR (o : XCmd)
  | xfil (o : XCmd)
  | xfilM (o : XCmd)
  | xgth (o : XCmd)
  | xsct (o : XCmd)
  | xmeta (o : XCmd)
  | xmetaT (o : XCmd)
  | xrack (o : XCmd)
  | xfetch (o : XCmd)
  | xpub (o : XCmd)
  | xpubM (o : XCmd)
  | xsend (o : XCmd)
  | xhost (o : XCmd)
  | xnote (o : CmdHead)
  | cpeBurstComplete (o : SlotId)
  | sbmp (o : SCmd)
  | srle (o : SCmd)
  | sidx (o : SCmd)
  | snote (o : CmdHead)
  | headDecide (o : HeadRef)
  | commandComplete (o : HeadRef)
  | draw (o : EngRef)
  | quantumExpiry (o : EngRef)
  | trapEntry (o : TrapArgs)
  | drainEnd (o : StrmRef)
  | refireRestart (o : SlotId)
  | taskStop (o : SlotId)
  | taskRetire (o : SlotId)
  | packetNop (o : QueueRef)
  | packetArm (o : QueueRef)
  | packetDec (o : QueueRef)
  | packetPatch (o : QueueRef)
  | packetPatcharm (o : QueueRef)
  | peerPacketArrival (o : PeerPacket)
  | qtailWrite (o : QueueWrite)
  | qcfgWrite (o : QueueWrite)
  | timeTrigger (o : PartRec)
  | gateOpen (o : Nat)
  | chunkCut (o : PartDie)
  | seatTask (o : PartDie)
  | gangSeat (o : PartDie)
  | taskLaunch (o : SlotId)
  | balanceExchange (o : Nat)
  | balanceArrival (o : PartDie)
  | rackComplete (o : CaskRef)
  | fetchBackComplete (o : CaskRef)
  | eccCorrectable (o : EccArgs)
  | freezeEnd (o : Nat)
  | eccUncorrectable (o : EccArgs)
  | collAdd (o : CollPacket)
  | collAddw (o : CollPacket)
  | collWfwd (o : CollPacket)
  | collMrg (o : CollPacket)
  | collCut (o : CollPacket)
  | collFwd (o : CollPacket)
  | collAbortPacket (o : CollPacket)
  | collSlotSend (o : CollRef)
  | collMemberDone (o : CollRef)
  | drrVisit (o : PortFn)
  | switchOut (o : Nat)
  | switchOutComplete (o : Nat)
  | switchIn (o : Nat)
  | tlbinvWrite (o : BarWrite)
  | tlbInvalidationComplete (o : Nat)
  | dbgHalt (o : Nat)
  | dbgHalted (o : SlotId)
  | dbgResume (o : Nat)
  | dbgStep (o : Nat)
  | dbgStepEnd (o : SlotId)
  | dbgDump (o : Nat)
  | dbgSample (o : Nat)
  | cntClaim (o : BarWrite)
  | cntRelease (o : Nat)
  | cntClear (o : Nat)
  | traceClaim (o : BarWrite)
  | poolbaseWrite (o : BarWrite)
  | pcfgMaskWrite (o : BarWrite)
  | registerWrite (o : BarWrite)
  | recoveryErase
  | recoveryWriteChunk (o : ChunkWrite)
  | recoveryCommit (o : Bool)
  | recoveryCommandDone
  | interruptCoalesceTimeout (o : QueueRef)
  | msixUnmask (o : QueueRef)
  | bringUp (o : BringUpArgs)
  | functionReset (o : Nat)
  | throttleTick (o : Sensors)
  | throttleShutdown
  | mgcSetPowerLimit (o : Nat)
  | mgcSetScrub (o : Bool)
  | mgcReadSensors
  | getVersion (o : SpdmReq)
  | getCapabilities (o : SpdmReq)
  | negotiateAlgorithms (o : SpdmReq)
  | getDigests (o : SpdmReq)
  | getCertificate (o : SpdmReq)
  | challenge (o : SpdmReq)
  | getMeasurements (o : SpdmReq)
  | hostWindowRead (o : WinRead)
  | hostWindowWrite (o : WinWrite)
  | atsInvalidation (o : Nat)
  | waitTargetReached (o : SlotId)
  | setlwDeadline (o : SlotId)
  | chrcvDeadline (o : SlotId)
  deriving DecidableEq, Repr

end Sys2Proof
end

