-- ==== Sys2Proof/Machine/State.lean ====
section
/-! DEFINITION. Everything the manual gives the machine, as plain data. A sparse map (a list of
index and value, strictly rising, no entry equal to the default) holds each register file, table and
store, so that the state after reset lists nothing. The sections of INVENTORY.md '## State' name the
rule of each field. -/

namespace Sys2Proof.Machine

/-- A finite map with a default: entries in rising key order, none equal to the default. -/
abbrev Sparse (α : Type) := List (Nat × α)

/-- Memory: listed bytes; an unlisted byte reads as 0 (notes/assumptions/1.md). -/
abbrev Mem := List Host.Cell

/-! ### Registers and queues of a slot -/

/-- A semaphore's pushed and done counts (R135). -/
structure Sem where
  pushed : BitVec 32
  done : BitVec 32
  deriving DecidableEq, Repr

/-- A circular-buffer handle (R212). -/
structure CbHandle where
  valid : Bool
  role : BitVec 2
  rcore : Nat
  ring : Nat
  deriving DecidableEq, Repr

/-- A conditional-stream queue (R332): records of fields, with the shape while it is not empty. -/
structure CondQueue where
  recs : List (List Word)
  fld : Nat
  ew : Nat
  deriving DecidableEq, Repr

/-- A 64-byte message with its sender (R409, R412). -/
structure Message where
  data : List Byte
  sdev : Nat
  score : Nat
  sslot : Nat
  /-- MODEL: its number, and the scope of its `CHSND`: what its receipt acquires (R365). -/
  no : Nat
  scope : Nat
  deriving DecidableEq, Repr

/-- A hardware loop (R186, R440), with the sums of the bank-conflict matrix at its HLOOP (R460). -/
structure HwLoop where
  id : Nat
  start : Word
  stop : Word
  stages : Nat
  base : Nat
  np : Bool
  total : Nat
  limit : Nat
  pass : Nat
  remain : Nat
  cut : Bool
  iters : Nat
  rowSums : List Nat
  colSums : List Nat
  deriving DecidableEq, Repr

/-- What an instruction that is waiting waits for (R154, R426). -/
inductive WaitFor where
  | sem (s n : Nat)
  | guard
  | ringRoom (r : RingId)
  | nestSet
  | streamReg
  | tile
  | cbuf (n : Nat) (reading : Bool)
  | pool
  | queue
  | remoteTile (core abs : Nat)
  | store (core abs : Nat)
  | object (o : Nat) (d : Reg) (scope : Nat)
  | barrier (b : Nat) (ph : Nat)
  | monitor (d : Reg) (deadline : Nat)
  | time (target : Word)
  | settle (g deadline : Nat)
  | inbox (core slot ib : Nat) (lends : Bool)
  | message (ib deadline : Nat)
  | taste (e : Nat)
  | notes
  | kernel
  | sent (no cap len : Nat) (d : Reg) (v : Word)
  | flow
  deriving DecidableEq, Repr

/-- Where the head of a ring stands on its way through R137. -/
inductive HeadPhase where
  | fresh      -- before the guard: undecided
  | awaitRun   -- decided to run, awaiting its semaphore
  | awaitDrop  -- decided to be discarded, awaiting its semaphore
  | decided    -- awaited; its checks and operands come next
  | ready      -- checked, its operands taken: a candidate
  | active     -- begun at the engine
  | finished   -- all its work done, about to complete
  deriving DecidableEq, Repr

/-- A tile a command or instruction is reading: where, and the buffer it started on (R391). -/
structure ReadRef where
  core : Nat
  abs : Nat
  buf : Nat
  deriving DecidableEq, Repr

/-- An operand of a head command, resolved (R213): its tile, whether the command has it, and the first granule of
the buffer it reads or writes. -/
structure OpRef where
  core : Nat
  abs : Nat
  buf : Nat
  taken : Bool
  deriving DecidableEq, Repr

/-- The progress of a ring's head command. -/
structure HeadSt where
  phase : HeadPhase
  /-- Held at a fault (HELD of R428). -/
  held : Option (BitVec 8)
  /-- What holds it at its present stage (R154). -/
  waitFor : Option WaitFor
  /-- Units completed (R240, R256); of an `MMA`, its passes' zeroings, steps and ends in order (R292). -/
  prog : Nat
  /-- The command has begun at least once (R459). -/
  begun : Bool
  /-- A seal ended it or it was decided on a sealed destination (R390, R393). -/
  sealCut : Bool
  /-- It stopped for want of a queue, ring, cask or remote tile (R250). -/
  stalled : Bool
  reads : List ReadRef
  dst : Option ReadRef
  /-- Its destination is a shadow. -/
  dshd : Bool
  /-- Its tile operands in their order, none while one is not resolved. -/
  ops : List (Option OpRef)
  /-- The copy descriptor (R234) or codebook (R266) that it read when it was decided to run. -/
  desc : BitVec 1024
  /-- `XHOST`: its copy of the consumer count, once loaded. -/
  hostC : Option Nat
  /-- Its bits and push number, once a push has taken the entry that its decision freed (R132). -/
  moved : Option (BitVec 128 × Nat)
  deriving DecidableEq, Repr

/-- A command ring (R45) or the V kernel queue (R197). -/
structure Ring where
  present : Bool
  closed : Bool
  rp : BitVec 9
  wp : BitVec 9
  entries : Sparse (BitVec 128)
  /-- The slot's push number of each entry: the order of R154's 'earliest-pushed'. -/
  order : Sparse Nat
  head : HeadSt
  /-- The stream has ended (R444). -/
  ended : Bool
  /-- Commands completed or discarded since launch (R449). -/
  doneCnt : Nat
  /-- Commands that the image put into the ring (R290). -/
  img : Nat
  deriving DecidableEq, Repr

/-- A taste entry's state (R395). -/
inductive TasteSt where
  | free | wait | tasted | pending
  deriving DecidableEq, Repr

/-- A taste entry TE0–TE7 (R394). -/
structure Taste where
  st : TasteSt
  core : Nat
  abs : Nat
  fin : Bool
  minv : Nat
  lcValid : Bool
  lc : Nat
  tv : Nat
  deriving DecidableEq, Repr

/-- Why a stream was asked to stop, weakest last (R425). -/
inductive StopCause where
  | fault | refire | switchOut | halt | preempt | yield | seal
  deriving DecidableEq, Repr

/-- What a C or V stream is doing. -/
structure StreamSt where
  pc : Word
  /-- The instruction at pc is waiting. -/
  waiting : Option WaitFor
  /-- The circular-buffer references that the waiting instruction has resolved: operand bits with bit 12 for a written one,
  core, tile (R213, R323). -/
  resolved : List (Nat × Nat × Nat)
  /-- A stop has been requested and its drain is under way (R425). -/
  stopReq : Option StopCause
  /-- Stopped: issues nothing (R427). -/
  stopped : Bool
  ended : Bool
  /-- Held at a fault until HM returns to 0 (R428). -/
  heldAt : Option (BitVec 8)
  loops : List HwLoop
  /-- The stream stands at the stop point at which a requested stop ends (R188, R496). -/
  atStop : Bool
  /-- The C stream's next word has been fetched and waits for the CP (R133). -/
  fetched : Bool
  deriving DecidableEq, Repr

/-- The monitor (R383, R384): RECHECK is pending after a restore. -/
structure Monitor where
  armed : Bool
  /-- The device virtual granule (address ÷ 64) and the physical granule it named when armed. -/
  granule : Nat
  pa : Nat
  written : Bool
  recheck : Bool
  deriving DecidableEq, Repr

/-- A ticket holding (R152). -/
structure Holding where
  cur : Nat
  amt : Nat
  deriving DecidableEq, Repr

/-- The task seated in a slot (R13, R16). -/
structure Task where
  part : Nat
  recIdx : Nat
  gen : BitVec 32
  fn : Nat
  card : Word
  entry : Word
  x1 : Word
  x2 : Word
  x3 : Word
  x5 : Word
  refire : Nat
  caps : Nat
  captab : Word
  /-- The members of its gang instance, itself included; only itself without a gang. -/
  mates : List SlotId
  member : Nat
  /-- Launched: TASK_LAUNCH has run since it was seated. -/
  launched : Bool
  /-- Sequence number of the launch or restart that began its current run (R389). -/
  runStart : Nat
  /-- V section of the image, for R197's check. -/
  vbase : Nat
  vsize : Nat
  refcnt : Nat
  /-- A stop with this code is under way (R429), with the faulting stream (7: none) and EVA. -/
  stopping : Option (BitVec 8)
  stopStrm : Nat
  stopEva : Word
  /-- A re-fire is under way (R397). -/
  refiring : Bool
  /-- A write may have been performed (R450 PART). -/
  wrote : Bool
  /-- CALL and CALLR less RET (R452). -/
  depth : Nat
  /-- Collectives whose COLL it executed and that have not set DONE (R444). -/
  colls : List Nat
  /-- Circular-buffer handles bound to gang pipes at launch (R38). -/
  binds : List (Nat × CbHandle)
  deriving DecidableEq, Repr

/-- What a debugger sees of a slot (R452–R455). -/
inductive DbgSt where
  | running | halting | halted | stepping
  deriving DecidableEq, Repr

structure SlotDbg where
  st : DbgSt
  reason : Nat
  lid : Nat
  lact : Bool
  stage : Nat
  iter : Nat
  /-- The stream that steps, or that stopped last; the ring pointer at which a step began; the step's instruction
  has completed. -/
  stepStrm : Nat
  stepRp : BitVec 9
  stepDone : Bool
  brken : Bool
  deriving DecidableEq, Repr

/-- The register state of a slot (R41, R46). -/
structure Slot where
  x : Sparse Word
  p : BitVec 8
  v : Sparse VWord
  vpoison : List Nat
  vshape : BitVec 32
  m : Sparse MWord
  g : Sparse (BitVec 256)
  acc : Sparse (BitVec 32)
  nest : Sparse Word
  sems : Sparse Sem
  gd : Sparse (BitVec 2)
  cb : Sparse CbHandle
  ch : Sparse (BitVec 128)
  mq : Sparse (List (BitVec 16))
  oq : Sparse (List (BitVec 32))
  /-- The offsets of a queue that a restore left poisoned, by place from its head (R438). -/
  oqPoison : Sparse (List Nat)
  q : Sparse CondQueue
  inbox : Sparse (List Message)
  mring : Ring
  xring : Ring
  sring : Ring
  kring : Ring
  flags : Word
  fen : Word
  cause : Word
  epc : Word
  eva : Word
  tvec : Word
  scr : Word
  sysId : Word
  priv : Word
  cs : StreamSt
  vs : StreamSt
  /-- Handler mode, resume address, BAR wait at entry, suspended loops (R428). -/
  hm : Bool
  cra : Word
  /-- WBAR, with the arrival of the `BAR` wait that the trap suspended. -/
  wbar : Option (Nat × Nat)
  susp : List HwLoop
  /-- The barrier arrival of a BAR wait: object and phase (R386). -/
  barWait : Option (Nat × Nat)
  mon : Monitor
  taste : Sparse Taste
  /-- Kernel entry the V stream runs (R198), with its queue pointer. -/
  kernel : Option (BitVec 128)
  kernelPtr : Nat
  kernelNo : Nat
  /-- Commands pushed by the slot since launch. -/
  pushNo : Nat
  /-- Tiles an instruction of the V stream has reserved or reads. -/
  vreads : List ReadRef
  hold : Holding
  /-- Used cycles of the last short tenure per engine, 0 for factor 1 (R148, R439). -/
  comp : Sparse Nat
  /-- Stop requests and stopped flags of the M, X and S streams, by stream number 2 to 4. -/
  estop : Sparse (Option StopCause)
  estopped : Sparse Bool
  dbg : SlotDbg
  task : Option Task
  /-- Raises of collectives held while the function is out (R442): the semaphore, and the place and value of the
  completion status to write first. And a held re-fire. -/
  heldRaises : List (Nat × Nat × Nat)
  heldRefire : Bool
  /-- SMU and ring events held. -/
  out : Bool
  deriving DecidableEq, Repr

/-! ### A core -/

inductive TileState where
  | empty | filling | ready | draining
  deriving DecidableEq, Repr

/-- A tile-table entry (R209), with its ticket holding and what R389 to R391 need. -/
structure Tile where
  valid : Bool
  st : TileState
  racked : Bool
  rdyr : Bool
  sealed : Bool
  pin : Bool
  shd : Bool
  sfill : Bool
  /-- SFILL was set by a command, not by a V-stream store or a summary (R323, R354). -/
  sfillCmd : Bool
  home : Bool
  super : Bool
  spent : Bool
  vint : Nat
  addr : Nat
  saddr : Nat
  size : Nat
  cask : Nat
  readers : Nat
  /-- Readers still on the buffer that is now the shadow (R391). -/
  oldReaders : Nat
  cell : Nat
  /-- The buffers that copies of other devices are reading, among the readers (R243). -/
  peers : List Nat
  /-- Sequence number of the seal (R389). -/
  sealAt : Nat
  hold : Holding
  deriving DecidableEq, Repr

/-- A ring record (R212). -/
structure RingRec where
  ft : Nat
  depth : Nat
  pptr : Nat
  cptr : Nat
  pipe : Bool
  /-- The gang instance that a pipe's ring belongs to: partition, record, first record index (R38). -/
  inst : List Nat
  deriving DecidableEq, Repr

/-- A residency copy under way for a cask (R216). -/
inductive CaskCopy where
  | none | racking | fetching
  deriving DecidableEq, Repr

/-- A cask (R214), by core-wide number 16 × slot + cask. -/
structure Cask where
  racked : Bool
  pin : Bool
  copy : CaskCopy
  pipe : Bool
  deriving DecidableEq, Repr

/-- A registration at the tile's owner core (R394). -/
structure Registration where
  abs : Nat
  ccore : Nat
  cslot : Nat
  e : Nat
  tv : Nat
  deriving DecidableEq, Repr

/-- An engine's draw unit and tenure (R134, R144–R148). -/
structure EngineSt where
  holder : Option Nat
  tenureStart : Nat
  quantumStart : Nat
  /-- The holder is draining; the slot that won or asked for the next tenure. -/
  draining : Bool
  next : Option Nat
  /-- Slot excluded from the draw a YIELD causes (R160). -/
  exclude : Option Nat
  /-- For each slot, the cycle since which its head has been ready (R146). -/
  readySince : Sparse Nat
  deriving DecidableEq, Repr

/-- A counter bank (R461, R463): the holder, its configuration and counters, the claims pending, what a function
that neither holds it nor waits wrote with EN = 0, and the guest frozen: its configuration, counts, OVF and SHARED. -/
structure CounterBank where
  holder : Option Nat
  /-- The function whose time the counts cover: the last holder. -/
  last : Option Nat
  cfg : Word
  counts : List (BitVec 48)
  ovf : BitVec 4
  shared : Bool
  pending : Sparse Word
  kept : Sparse Word
  frozen : Option (Nat × Word × List (BitVec 48) × BitVec 4 × Bool)
  deriving DecidableEq, Repr

/-- A core (R2). -/
structure Core where
  slots : Sparse Slot
  scratch : Mem
  scratchPoison : List Nat
  acs : Mem
  acsPoison : List Nat
  ttb : Sparse Tile
  rings : Sparse RingRec
  casks : Sparse Cask
  regs : List Registration
  /-- Remote seals under way: the tile's absolute index and the cycle of the `SEAL.R` (R393). -/
  sealsIn : List (Nat × Nat)
  gens : Sparse (BitVec 32)
  seed : BitVec 32
  mxe : EngineSt
  vxe : EngineSt
  cpe : EngineSt
  sie : EngineSt
  /-- The co-operative group that has formed (R296): its members in position order. -/
  group : List SlotId
  /-- The CP has issued in this cycle, and the slot at which its round robin goes on (R133). -/
  issued : Bool
  cpNext : Nat
  /-- Cycle until which the core is frozen (R226). -/
  freezeUntil : Nat
  frozen : Bool
  eccLog : Word
  /-- The bank-conflict matrix, cell r × 32 + b (R460). -/
  matrix : Sparse (BitVec 32)
  banks : Sparse CounterBank
  deriving DecidableEq, Repr

/-! ### Queue engine, partitions and functions -/

inductive RecState where
  | idle | armed | ready | running | done | stopped
  deriving DecidableEq, Repr

/-- What the QE keeps of a launch record (R27, R29, R102, R113). -/
structure Record where
  st : RecState
  count : Nat
  gen : BitVec 32
  stopc : BitVec 8
  /-- The held copy of the RW fields, the 512 bits read at the arm (R29). -/
  held : BitVec 512
  owner : Option Nat
  armPseq : Nat
  stamp : BitVec 32
  eligible : Bool
  late : Bool
  /-- The record ends in STOPPED without a FAULT entry (R33). -/
  depunder : Bool
  deriving DecidableEq, Repr

/-- A 128-byte job card or gang descriptor (R18, R37). -/
abbrev Card := BitVec 1024

/-- A job whose gate has opened (R30, R103): its cards, the records not yet cut on each of the
partition's dies as a list of runs (first, count), and its live tasks. -/
structure Job where
  recIdx : Nat
  /-- Number of the gate: the order in which gates opened. -/
  no : Nat
  gang : Bool
  cards : List Card
  cardAddrs : List Word
  pipes : Card
  n : Nat
  uncut : List (List (Nat × Nat))
  cutAny : Bool
  live : Nat
  stopCode : Option (BitVec 8)
  hasD : Bool
  deriving DecidableEq, Repr

/-- A task-queue entry: one chunk (R122), with how often a gang was passed over (R125). -/
structure TaskEntry where
  recIdx : Nat
  first : Nat
  count : Nat
  passed : Nat
  hasD : Bool
  gang : Bool
  deriving DecidableEq, Repr

/-- An entry in transit to a die index (R128). -/
structure Transit where
  die : Nat
  entry : TaskEntry
  since : Nat
  deriving DecidableEq, Repr

/-- A gang entry whose members' slots are held while its pipe rings' room is racked (R127): the members' slots
in member order, the ring numbers of the pipes that have theirs, and the casks whose racking must complete. -/
structure GangHold where
  die : Nat
  entry : TaskEntry
  slots : List SlotId
  rings : List Nat
  racking : List CaskRef
  deriving DecidableEq, Repr

/-- A sync object (R375). -/
structure SyncObj where
  held : Option SlotId
  relcnt : BitVec 32
  broken : Bool
  waiters : List SlotId
  deriving DecidableEq, Repr

/-- A barrier object (R385). -/
structure Barrier where
  expect : Nat
  arrived : Nat
  phase : BitVec 32
  deriving DecidableEq, Repr

/-- A settle group (R400, R407). -/
structure Settle where
  defined : Bool
  members : List TileRef
  rel : Bool
  ridx : Nat
  latch : Bool
  deriving DecidableEq, Repr

/-- A partition (R115, R473). -/
structure Part where
  coreMask : BitVec 192
  funcMask : BitVec 192
  hbm : Sparse (BitVec 128)
  hostR : Sparse (BitVec 128)
  dcWays : BitVec 32
  qeBal : Word
  poolBase : Word
  bindBase : Word
  cellar : Word
  portDrr : Sparse Word
  acl : Sparse Word
  /-- Function records of functions outside the function mask, as written: key 8 × function + register (R473). -/
  fnRec : Sparse Word
  pcfgErr : Bool
  /-- The guest from which the physical function took the trace units (R463). -/
  trFrozen : Option Nat
  recs : Sparse Record
  nextStamp : BitVec 32
  jobs : List Job
  taskQ : Sparse (List TaskEntry)
  transit : List Transit
  gangs : List GangHold
  /-- Gates opened so far. -/
  gates : Nat
  /-- One more than the gate number of the job that each die index cut last (R122). -/
  lastCut : Sparse Nat
  /-- One more than the launch queue served last, as 8 × function + queue (R95). -/
  lastQ : Nat
  objs : Sparse SyncObj
  bars : Sparse Barrier
  settle : Sparse Settle
  lcstat : Word
  /-- The lending cycles now standing, each as its sorted members (R156). -/
  cycles : List (List StrmRef)
  lastExchange : Nat
  deriving DecidableEq, Repr

/-- A launch queue (R91, R92). -/
structure LQueue where
  base : Word
  en : Bool
  fab : Bool
  lsz : Nat
  tail : BitVec 32
  head : BitVec 32
  overrun : Bool
  heldTail : Option (BitVec 32)
  deriving DecidableEq, Repr

/-- A coalesced interrupt vector (R469, MSI-X table and pending bit). -/
structure Vector where
  icoal : Word
  pending : Nat
  since : Nat
  masked : Bool
  pend : Bool
  sent : Nat
  addr : Word
  data : BitVec 32
  deriving DecidableEq, Repr

inductive SwState where
  | isIn | goingOut | out | goingIn
  deriving DecidableEq, Repr

/-- Where a packet in a port's queue goes: to the next member of its ring (R416), to a launch queue (R100) or to an inbox
(R410) of another device; the last two with what the link port inserts of the sender. -/
inductive PortDest where
  | member
  | queue (dev fn q spart : Nat)
  | inbox (dev core slot ib spart score sslot : Nat)
  deriving DecidableEq, Repr

/-- A packet in a function's queue at a port (R424): its destination, header and data, and (MODEL) its number. -/
structure PortPacket where
  dest : PortDest
  hdr : BitVec 256
  data : List Byte
  no : Nat
  deriving DecidableEq, Repr

/-- What a command of another device does to a tile of this one: `XSEND` writes it (R248), `XCPY.R` begins and ends a copy of it
(R243). -/
inductive PeerTile where
  | send (core abs : Nat) (shd : Bool) (data : List Byte)
  | take (core abs : Nat)
  | leave (core abs : Nat)
  deriving DecidableEq, Repr

/-- A message of a slot of another device to an inbox of this one (R410). -/
structure PeerMessage where
  sdev : Nat
  spart : Nat
  score : Nat
  sslot : Nat
  core : Nat
  slot : Nat
  ib : Nat
  data : BitVec 512
  deriving DecidableEq, Repr

/-- A collective a member takes part in (R417–R423). -/
structure Coll where
  cid : Nat
  core : Nat
  slot : Nat
  desc : BitVec 1024
  descOff : Nat
  /-- Packets of it that have arrived here. -/
  hops : Nat
  /-- Token-triggered from here on (R423). -/
  tok : Bool
  flags : BitVec 6
  skew : Bool
  late : Bool
  code : BitVec 8
  /-- Chunks originated so far, of those this member originates. -/
  sent : Nat
  /-- Packets to forward, oldest first. -/
  queue : List PortPacket
  /-- This member's part has ended; it stays listed while its abort packet is held. -/
  ended : Bool
  deriving DecidableEq, Repr

/-- A function (R90, R111, R448, R452, R457, R461, R466–R473). -/
structure Func where
  queues : Sparse LQueue
  pseq : Nat
  jbase : Word
  jen : Bool
  jlsz : Nat
  eseq : Nat
  frbase : Word
  fren : Bool
  frlsz : Nat
  ringTab : Sparse Word
  dbgSel : Word
  dbgCtl : Word
  dbgDump : Word
  dbgDone : Bool
  trbase : Word
  trcfg : Word
  trClaim : Bool
  rnum : Nat
  cntSel : Word
  tlbVa : Word
  tlbSz : Nat
  tlbBusy : Bool
  ready : Bool
  berr : Bool
  bstep : Nat
  evlog : Word
  vecs : Sparse Vector
  tkdef : Word
  ptroot : Word
  ctxbase : Word
  save : Bool
  /-- The last switch-out wrote the images. -/
  saved : Bool
  sw : SwState
  /-- A function reset waits for its tasks to stop (R464). -/
  flr : Bool
  wbase : Word
  wlog : Nat
  colls : List Coll
  ports : Sparse (List PortPacket)
  /-- One more than the ring of each collective, by CID, in which the function's part has ended without an abort: its abort
  packet is still to be forwarded (R422). -/
  past : Sparse Nat
  deficit : Sparse Nat
  /-- What the last host window read returned, and whether it ended in a completer abort (R467). -/
  winData : List Byte
  winAbort : Bool
  deriving DecidableEq, Repr

/-- A currency-table entry (R150). -/
structure Currency where
  parent : Nat
  valid : Bool
  depth : Nat
  owner : Nat
  funding : Nat
  issued : Nat
  resv : Nat
  deriving DecidableEq, Repr

/-- A cached translation (R230): core (192 + die for an L2 TLB), function, page base and log2 size,
and the leaf entry. -/
structure TlbEntry where
  core : Nat
  fn : Nat
  va : Nat
  lg : Nat
  pte : Word
  deriving DecidableEq, Repr

/-- Who makes a memory write, or where the knowledge of it lies (R362, R364, R365): a stream; a running command; a
semaphore's d-th raise; a collective; a release at a location; a release fence; what plain loads took from a release;
a sync object, a barrier's phase or a message, with the slot that released to it and the scope; the early reads of a slot's C
stream; what a release with a write of its own covers, while that write is made. -/
inductive Agent where
  | strm (r : StrmRef)
  | run (r : StrmRef)
  | raised (core slot sem d : Nat)
  | coll (k : SlotId) (fn cid : Nat)
  | place (no : Nat)
  | fence (k : SlotId) (scope : Nat)
  | taken (k rel : SlotId) (scope : Nat)
  | obj (part o : Nat) (rel : SlotId) (scope : Nat)
  | bar (part b phase : Nat) (rel : SlotId) (scope : Nat)
  | early (k : SlotId)
  | own (k : SlotId)
  | msg (no : Nat) (rel : SlotId) (scope : Nat)
  deriving DecidableEq, Repr

/-- MODEL: a device write of one byte that no `PUBH` has released: its value, the slot and partition it was made for, the
address it was made at, whether a `REL` or a retirement has released it (R378), and who has made or observed it. -/
structure HidWrite where
  val : Byte
  slot : SlotId
  part : Nat
  va : Option Nat
  free : Bool
  known : List Agent
  deriving DecidableEq, Repr

/-- A byte with device writes that no `PUBH` has released (R381): what the host still reads, and the writes, oldest
first. -/
structure Hidden where
  old : Byte
  writes : List HidWrite
  deriving DecidableEq, Repr

/-- MODEL: a release at a location (R365): its number, place, agent and scope, and the bytes whose value still comes from
it. -/
structure RelPlace where
  no : Nat
  pa : Nat
  n : Nat
  rel : SlotId
  scope : Nat
  live : List Nat
  deriving DecidableEq, Repr

/-- MODEL: 8 aligned bytes at a device virtual address that a C stream has read for a later load, before the stores in between
are performed (R367): where they lay, what they were, and the releases whose value they held. -/
structure EarlyRead where
  core : Nat
  slot : Nat
  va : Nat
  pa : Nat
  val : Nat
  places : List Nat
  deriving DecidableEq, Repr

/-- A reading of the sensors (R477): tenths of a watt and of a degree, and the throttle step. -/
structure Sensed where
  power : Nat
  temp : Nat
  step : Nat
  deriving DecidableEq, Repr

/-- Firmware, recovery and management (R470–R477). -/
structure Mgmt where
  /-- The image in flash with its signature, in chunks; none: that of the factory (R470; notes/assumptions/4.md). -/
  flash : Option (Sparse (List Byte))
  staged : Sparse (List Byte)
  stagedNext : Nat
  erased : Bool
  rmBusy : Bool
  rmStat : Nat
  rmNext : Nat
  rmIdx : Nat
  rmCommitOk : Bool
  recov : Bool
  broughtUp : Bool
  upFailed : Bool
  scrub : Bool
  powerLimit : Nat
  throttle : Nat
  /-- SYS_TIME in ns since which both figures have been below 95 %, and step 3 too hot. -/
  coolSince : Option Nat
  hotSince : Option Nat
  power : Nat
  temp : Nat
  sensorReads : Nat
  /-- The reading last delivered. -/
  sensed : Option Sensed
  /-- MODEL: resets of the module so far. -/
  resets : Nat
  /-- SPDM answers given and the algorithm settled (R474). -/
  spdmCount : Nat
  spdmAlgos : Bool
  spdmLast : List Byte
  /-- The measurements last reported, by index from 1. -/
  spdmMeas : List (List Byte)
  /-- SYS_TIME in ns of the last throttle tick. -/
  lastTick : Nat
  dev : Nat
  deriving DecidableEq, Repr

/-! ### What moves next -/

/-- One move of the machine: the next instruction of a C or V stream, the head of a ring, an event
of the table, a message or a remote command from another device, a reset of the module, or one of three things that only time
decides (a TLB keeps a translation, a C stream reads early for a later load, a requester waits on a bank). -/
inductive Act where
  | stream (core slot : Nat) (strm : Strm)
  | event (i : Instr)
  | peerMessage (m : PeerMessage)
  | peerTile (x : PeerTile)
  | tlbFill (core slot fn : Nat) (va : Word)
  | earlyRead (core slot : Nat) (va : Word)
  | bankWait (core r b : Nat)
  | reset
  | idle
  deriving DecidableEq, Repr

/-- A move and the core cycles that pass before it. -/
structure Turn where
  cycles : Nat
  act : Act
  deriving DecidableEq, Repr

/-- What the manual orders among the events of one core cycle: the operations on a partition's records (R88), a core's summary
operations (R350), the faults of a slot (R428), a partition's gates (R103) and a die's seats (R124), the seating and the end of
a slot's task (R118), the vintage of a tile (R392), the state of a tile (R211), a cell of a bank matrix (R460),
the claims of a counter bank or of a partition's trace units (R463), and a core's residency draws and `DRSEED` (R161). -/
inductive Order where
  | qe (part : Nat)
  | smu (core : Nat)
  | fault (core slot : Nat)
  | gate (part : Nat)
  | die (part die : Nat)
  | slot (core slot : Nat)
  | vintage (core abs : Nat)
  | tile (core abs : Nat)
  | bank (core r b : Nat)
  | counter (core bank : Nat)
  | traceUnits (part : Nat)
  | gen (core : Nat)
  deriving DecidableEq, Repr

/-- MODEL: an event of this cycle, with its rank in an order. -/
structure Did where
  ord : Order
  rank : Nat
  deriving DecidableEq, Repr

/-- A trace record of this cycle, on its way to the ring of function `fn`: its place among the core's events of the cycle, by
core, slot and stream (R451), and its bits. -/
structure Traced where
  fn : Nat
  key : Nat
  bits : BitVec 256
  deriving DecidableEq, Repr

/-- The module. -/
structure State where
  /-- MODEL: the stream whose instruction or command `exec` runs. -/
  cur : StrmRef
  /-- MODEL: the moves that come next, in order (notes/assumptions/2.md). -/
  agenda : List Turn
  /-- MODEL: moves made so far; orders seals and runs, and numbers free values. -/
  seq : Nat
  /-- MODEL: the events of the present cycle whose order the manual gives (notes/assumptions/2.md). -/
  did : List Did
  /-- The trace records of the present cycle, in the order of their events. -/
  traced : List Traced
  /-- SYS_CYCLE (R46), and SYS_TIME in 1/756 ns (notes/assumptions/6.md). -/
  cycle : Nat
  time : Nat
  mem : Mem
  memPoison : List Nat
  hidden : Sparse Hidden
  places : List RelPlace
  /-- MODEL: the reads that C streams have made early (R367; notes/assumptions/8.md). -/
  early : List EarlyRead
  /-- The address translation cache: for a 64 KiB page of host memory, as function × 2^35 + page, what ATS gave (R467). -/
  atc : Sparse Nat
  tlb : List TlbEntry
  cores : Sparse Core
  parts : Sparse Part
  funcs : Sparse Func
  /-- One more than the function that each port served last (R424). -/
  portLast : Sparse Nat
  curs : Sparse Currency
  mgmt : Mgmt
  deriving DecidableEq, Repr

/-! ### Reset values -/

def StreamSt.reset : StreamSt :=
  { pc := 0, waiting := none, resolved := [], stopReq := none, stopped := false, ended := true, heldAt := none,
    loops := [], atStop := false, fetched := false }

def HeadSt.reset : HeadSt :=
  { phase := .fresh, held := none, waitFor := none, prog := 0, begun := false, sealCut := false,
    stalled := false, reads := [], dst := none, dshd := false, ops := [], desc := 0, hostC := none, moved := none }

def Ring.reset : Ring :=
  { present := false, closed := false, rp := 0, wp := 0, entries := [], order := [], head := HeadSt.reset,
    ended := true, doneCnt := 0, img := 0 }

def Sem.reset : Sem := { pushed := 0, done := 0 }
def CbHandle.reset : CbHandle := { valid := false, role := 0, rcore := 0, ring := 0 }
def CondQueue.reset : CondQueue := { recs := [], fld := 0, ew := 0 }
def Monitor.reset : Monitor := { armed := false, granule := 0, pa := 0, written := false, recheck := false }
def Holding.reset : Holding := { cur := 0, amt := 0 }
def Taste.reset : Taste :=
  { st := .free, core := 0, abs := 0, fin := false, minv := 0, lcValid := false, lc := 0, tv := 0 }
def SlotDbg.reset : SlotDbg :=
  { st := .running, reason := 0, lid := 0, lact := false, stage := 0, iter := 0, stepStrm := 0,
    stepRp := 0, stepDone := false, brken := false }

/-- VSHAPE at launch (R41, R43): ROWS 16, COLS 64, EW 2. -/
def vshapeReset : BitVec 32 := 0x08080010#32

/-- A slot's registers: the values of R41 with X1–X5 zero, P0 true, no task. -/
def Slot.reset : Slot :=
  { x := [], p := 1, v := [], vpoison := [], vshape := vshapeReset, m := [], g := [], acc := [],
    nest := [], sems := [], gd := [], cb := [], ch := [], mq := [], oq := [], oqPoison := [], q := [], inbox := [],
    mring := Ring.reset, xring := Ring.reset, sring := Ring.reset, kring := Ring.reset,
    flags := 0, fen := 0, cause := 0, epc := 0, eva := 0, tvec := 0, scr := 0, sysId := 0, priv := 0,
    cs := StreamSt.reset, vs := StreamSt.reset, hm := false, cra := 0, wbar := none, susp := [],
    barWait := none, mon := Monitor.reset, taste := [], kernel := none, kernelPtr := 0, kernelNo := 0, pushNo := 0, vreads := [],
    hold := Holding.reset, comp := [], estop := [], estopped := [], dbg := SlotDbg.reset,
    task := none, heldRaises := [], heldRefire := false, out := false }

def Tile.reset : Tile :=
  { valid := false, st := .empty, racked := false, rdyr := false, sealed := false, pin := false,
    shd := false, sfill := false, sfillCmd := false, home := false, super := false, spent := false,
    vint := 0, addr := 0, saddr := 0, size := 0, cask := 0, readers := 0, oldReaders := 0, cell := 0, peers := [],
    sealAt := 0, hold := Holding.reset }

def RingRec.reset : RingRec := { ft := 0, depth := 0, pptr := 0, cptr := 0, pipe := false, inst := [] }
def Cask.reset : Cask := { racked := false, pin := false, copy := .none, pipe := false }
def EngineSt.reset : EngineSt :=
  { holder := none, tenureStart := 0, quantumStart := 0, draining := false, next := none,
    exclude := none, readySince := [] }
/-- CNTCFG resets to SLOTF 0xFF, all else 0 (R461). -/
def CounterBank.reset : CounterBank :=
  { holder := none, last := none, cfg := 0x000003FC00000000, counts := [0, 0, 0, 0], ovf := 0, shared := false,
    pending := [], kept := [], frozen := none }

/-- A core: stores zeroed, generator state e holding e (R143; an unlisted state reads as its number). -/
def Core.reset : Core :=
  { slots := [], scratch := [], scratchPoison := [], acs := [], acsPoison := [], ttb := [],
    rings := [], casks := [], regs := [], sealsIn := [], gens := [], seed := 0, mxe := EngineSt.reset,
    vxe := EngineSt.reset, cpe := EngineSt.reset, sie := EngineSt.reset, group := [], issued := false, cpNext := 0,
    freezeUntil := 0, frozen := false, eccLog := 0, matrix := [], banks := [] }

def Record.reset : Record :=
  { st := .idle, count := 0, gen := 0, stopc := 0, held := 0, owner := none, armPseq := 0, stamp := 0,
    eligible := false, late := false, depunder := false }
def SyncObj.reset : SyncObj :=
  { held := none, relcnt := 0, broken := false, waiters := [] }
def Barrier.reset : Barrier := { expect := 0, arrived := 0, phase := 0 }
def Settle.reset : Settle := { defined := false, members := [], rel := false, ridx := 0, latch := false }

/-- A partition configuration block (R473): 0 but for DC_WAYS, QE_BAL and PORT_DRR. -/
def Part.reset : Part :=
  { coreMask := 0, funcMask := 0, hbm := [], hostR := [], dcWays := 0xFFFFFFFF, qeBal := 0x108,
    poolBase := 0, bindBase := 0, cellar := 0, portDrr := [], acl := [], fnRec := [], pcfgErr := false, trFrozen := none, recs := [],
    nextStamp := 0, jobs := [], taskQ := [], transit := [], gangs := [], gates := 0, lastCut := [], lastQ := 0, objs := [], bars := [],
    settle := [], lcstat := 0, cycles := [], lastExchange := 0 }

def LQueue.reset : LQueue :=
  { base := 0, en := false, fab := false, lsz := 4, tail := 0, head := 0, overrun := false,
    heldTail := none }
/-- ICOAL resets to CNT 1 (R469); a vector is unmasked (notes/assumptions/7.md). -/
def Vector.reset : Vector :=
  { icoal := 1, pending := 0, since := 0, masked := false, pend := false, sent := 0, addr := 0, data := 0 }

/-- A function's registers at reset (R91, R111, R448, R457, R466, R469, R473). -/
def Func.reset : Func :=
  { queues := [], pseq := 1, jbase := 0, jen := false, jlsz := 8, eseq := 1, frbase := 0, fren := false,
    frlsz := 8, ringTab := [], dbgSel := 0, dbgCtl := 0, dbgDump := 0, dbgDone := false, trbase := 0,
    trcfg := 0x3FFD0, trClaim := false, rnum := 0, cntSel := 0, tlbVa := 0, tlbSz := 0,
    tlbBusy := false, ready := false, berr := false, bstep := 0, evlog := 0, vecs := [],
    tkdef := 0x100000000, ptroot := 0, ctxbase := 0, save := true, saved := false, sw := .isIn, flr := false, wbase := 0, wlog := 0,
    colls := [], ports := [], past := [], deficit := [], winData := [], winAbort := false }

/-- Entry 0 is the root currency; an unlisted entry is invalid (R150). -/
def Currency.reset : Currency :=
  { parent := 0, valid := false, depth := 0, owner := 0, funding := 0, issued := 0, resv := 0 }
def Currency.root : Currency :=
  { parent := 0, valid := true, depth := 0, owner := 31, funding := 0, issued := 0, resv := 0 }

def Mgmt.reset : Mgmt :=
  { flash := none, staged := [], stagedNext := 0, erased := false, rmBusy := false,
    rmStat := 0, rmNext := 0, rmIdx := 0, rmCommitOk := false, recov := false, broughtUp := false,
    upFailed := false, scrub := false, powerLimit := 24000, throttle := 0, coolSince := none,
    hotSince := none, power := 0, temp := 0, sensorReads := 0, sensed := none, resets := 0, spdmCount := 0, spdmAlgos := false,
    spdmLast := [], spdmMeas := [], lastTick := 0, dev := 0 }

/-- The module right after reset (R464): READY is 0, nothing is configured, no slot holds a task. -/
def State.reset : State :=
  { cur := { core := 0, slot := 0, strm := .c }, agenda := [], seq := 0, did := [], traced := [], cycle := 0, time := 0,
    mem := [], memPoison := [], hidden := [], places := [], early := [], atc := [], tlb := [], cores := [], parts := [], funcs := [], portLast := [],
    curs := [(0, Currency.root)], mgmt := Mgmt.reset }

/-! ### How a step can stop -/

/-- The faults that would stop the whole model. Every fault of R11 is TAKEN by the machine (by a handler, by stopping
the task, or by its record) and is a next state, so no meaning and no step answers one. -/
inductive Fault where
  /-- Raised by nobody: no rule of the manual stops the module. Safe. -/
  | broken
  deriving DecidableEq, Repr

/-- The refusals. -/
inductive Refusal where
  /-- An arm of `exec` whose instruction has no meaning yet. Safe: nothing is claimed of it. -/
  | notModelled (mnemonic : String)
  deriving DecidableEq, Repr

end Sys2Proof.Machine
end

