-- ==== Sys2Proof/Machine/Sparse.lean ====
section
/-! DEFINITION. Finite maps with a default, byte strings, and small bit helpers. Memories use `Sparse.set`,
which keeps the canonical form (keys strictly rising, no entry equal to the default), so that equal
memories are equal data; tables of records use `Sparse.put`, which keeps the keys rising. -/

namespace Sys2Proof.Machine

/-- The value at a key; the default where nothing is listed. -/
def Sparse.get {α : Type} (d : α) : Sparse α → Nat → α
  | [], _ => d
  | (k, v) :: t, n => if k = n then v else Sparse.get d t n

/-- Stores a value, dropping an entry equal to the default. -/
def Sparse.set {α : Type} [DecidableEq α] (d : α) : Sparse α → Nat → α → Sparse α
  | [], n, v => if v = d then [] else [(n, v)]
  | (k, w) :: t, n, v =>
    if n < k then (if v = d then (k, w) :: t else (n, v) :: (k, w) :: t)
    else if n = k then (if v = d then t else (n, v) :: t)
    else (k, w) :: Sparse.set d t n v

/-- Stores a value. -/
def Sparse.put {α : Type} : Sparse α → Nat → α → Sparse α
  | [], n, v => [(n, v)]
  | (k, w) :: t, n, v =>
    if n < k then (n, v) :: (k, w) :: t
    else if n = k then (n, v) :: t
    else (k, w) :: Sparse.put t n v

/-- Keys strictly rising from `lo`, no entry equal to the default. -/
def Sparse.wfFrom {α : Type} [DecidableEq α] (d : α) : Nat → Sparse α → Bool
  | _, [] => true
  | lo, (k, v) :: t => decide (lo ≤ k) && !decide (v = d) && Sparse.wfFrom d (k + 1) t

/-- The canonical form of a memory. -/
def Mem.wf (m : Mem) : Bool := Sparse.wfFrom (0 : Byte) 0 m

/-- One byte of memory; an unlisted byte reads as 0 (notes/assumptions/1.md). -/
def Mem.byte (m : Mem) (a : Nat) : Byte := Sparse.get 0 m a
/-- Writes one byte. -/
def Mem.setByte (m : Mem) (a : Nat) (b : Byte) : Mem := Sparse.set 0 m a b

/-- The listed bytes of `l` placed from address `a`, zeros left out. -/
def Mem.place : Nat → List Byte → Mem
  | _, [] => []
  | a, b :: t => if b = 0 then Mem.place (a + 1) t else (a, b) :: Mem.place (a + 1) t

/-- Writes a run of bytes from address `a` upward. -/
def Mem.write (m : Mem) (a : Nat) (l : List Byte) : Mem :=
  (m.takeWhile fun c => decide (c.1 < a)) ++ Mem.place a l
    ++ (m.dropWhile fun c => decide (c.1 < a + l.length))

/-- `n` bytes from address `a` upward, of a memory whose entries below `a` are gone. -/
def Mem.readFrom : Mem → Nat → Nat → List Byte
  | _, _, 0 => []
  | [], a, n + 1 => 0 :: Mem.readFrom [] (a + 1) n
  | (k, v) :: t, a, n + 1 =>
    if k = a then v :: Mem.readFrom t (a + 1) n else 0 :: Mem.readFrom ((k, v) :: t) (a + 1) n

/-- `n` bytes from address `a` upward. -/
def Mem.read (m : Mem) (a n : Nat) : List Byte :=
  Mem.readFrom (m.dropWhile fun c => decide (c.1 < a)) a n

/-- Little-endian value of bytes (R6). -/
def leNat : List Byte → Nat
  | [] => 0
  | b :: t => b.toNat + 256 * leNat t

/-- The low `n` bytes of a number, least significant first (R6). -/
def natLe : Nat → Nat → List Byte
  | 0, _ => []
  | n + 1, v => BitVec.ofNat 8 v :: natLe n (v / 256)

/-- An n-byte little-endian number of a memory. -/
def Mem.nat (m : Mem) (a n : Nat) : Nat := leNat (m.read a n)
def Mem.setNat (m : Mem) (a n v : Nat) : Mem := m.write a (natLe n v)

/-- Bits [lo+n−1:lo] of a number. -/
def bitsN (v lo n : Nat) : Nat := v / 2 ^ lo % 2 ^ n
/-- Bit i of a number. -/
def bitN (v i : Nat) : Bool := v.testBit i
/-- `v` with bits [lo+n−1:lo] replaced by `x`. -/
def setBitsN (v lo n x : Nat) : Nat := v - bitsN v lo n * 2 ^ lo + x % 2 ^ n * 2 ^ lo
/-- An n-bit two's-complement number. -/
def sextN (v n : Nat) : Int := if v % 2 ^ n < 2 ^ (n - 1) then (v % 2 ^ n : Nat) else (v % 2 ^ n : Nat) - (2 ^ n : Nat)
/-- An integer modulo 2^n. -/
def wrapN (v : Int) (n : Nat) : Nat := (v % (2 ^ n : Nat)).toNat
def b2n (b : Bool) : Nat := if b then 1 else 0

def ceilDiv (a b : Nat) : Nat := (a + b - 1) / b

/-- Bytes [lo, lo+n) of a vector register. -/
def VWord.nat (v : VWord) (lo n : Nat) : Nat := bitsN v.toNat (8 * lo) (8 * n)
def VWord.put (v : VWord) (lo n x : Nat) : VWord :=
  BitVec.ofNat 32768 (setBitsN v.toNat (8 * lo) (8 * n) x)

/-- Saturating addition at w bits, and whether it saturated. -/
def satAdd (w a b : Nat) : Nat × Bool :=
  if a + b < 2 ^ w then (a + b, false) else (2 ^ w - 1, true)

/-- Insertion sort of natural numbers, rising. -/
def insertNat (x : Nat) : List Nat → List Nat
  | [] => [x]
  | y :: t => if x ≤ y then x :: y :: t else y :: insertNat x t
def sortNat : List Nat → List Nat
  | [] => []
  | x :: t => insertNat x (sortNat t)

/-- Inserts a key into a rising list without repeats; removes one. -/
def addKey (x : Nat) : List Nat → List Nat
  | [] => [x]
  | y :: t => if x < y then x :: y :: t else if x = y then y :: t else y :: addKey x t
def delKey (x : Nat) (l : List Nat) : List Nat := l.filter (· != x)

/-- The numbers from `a` up to, not including, `a + n`. -/
def rangeFrom (a n : Nat) : List Nat := (List.range n).map (a + ·)

/-- Element i of a list, or a default. -/
def nth {α : Type} (d : α) (l : List α) (i : Nat) : α := (l[i]?).getD d

/-- `l` with element i replaced. -/
def setNth {α : Type} : List α → Nat → α → List α
  | [], _, _ => []
  | _ :: t, 0, x => x :: t
  | y :: t, i + 1, x => y :: setNth t i x

/-- Two rising lists as one. -/
def mergeSorted : Nat → List Nat → List Nat → List Nat
  | _, [], l => l
  | _, l, [] => l
  | 0, _, _ => []
  | n + 1, x :: s, y :: t =>
    if x < y then x :: mergeSorted n s (y :: t)
    else if y < x then y :: mergeSorted n (x :: s) t
    else x :: mergeSorted n s t

end Sys2Proof.Machine
end

