-- ==== Sys2Proof/Machine/Flags.lean ====
section
/-! DEFINITION. Number formats (R257 to R265) and every rounding and flag computation over them: `fpround`
(R175), conversions (R271 to R274), the element operations of R176 to R182 and R315 to R316. A value is
exact (sign, magnitude, power of two), so that each operation rounds once. -/

namespace Sys2Proof.Machine

/-- The six flags IV, DZ, OF, UF, NX, SC, bit 0 upward (R47). -/
abbrev Fl := BitVec 6
def flIV : Fl := 1
def flDZ : Fl := 2
def flOF : Fl := 4
def flUF : Fl := 8
def flNX : Fl := 16
def flSC : Fl := 32
def flIf (b : Bool) (f : Fl) : Fl := if b then f else 0

/-! ### Formats -/

/-- Exponent and stored significand widths of a floating-point code (R261, R262). -/
structure FFmt where
  ew : Nat
  mw : Nat

def ffmt : Nat → FFmt
  | 0 => ⟨11, 52⟩ | 1 => ⟨8, 23⟩ | 2 => ⟨8, 7⟩ | 3 => ⟨5, 10⟩ | 4 => ⟨5, 2⟩ | 5 => ⟨4, 3⟩
  | 6 => ⟨3, 4⟩ | 7 => ⟨3, 2⟩ | 8 => ⟨2, 3⟩ | _ => ⟨2, 1⟩

def FFmt.bias (f : FFmt) : Nat := 2 ^ (f.ew - 1) - 1
def FFmt.width (f : FFmt) : Nat := 1 + f.ew + f.mw
/-- The power of two of the smallest subnormal. -/
def FFmt.qmin (f : FFmt) : Int := 1 - (f.bias : Int) - (f.mw : Int)
/-- The code of the largest finite magnitude under a reading (R260, R263). -/
def FFmt.maxCode (f : FFmt) (rd : Nat) : Nat :=
  let ones := 2 ^ (f.ew + f.mw) - 1
  match rd with
  | 0 => ones - 2 ^ f.mw
  | 1 => ones - 1
  | _ => ones
def FFmt.sign (f : FFmt) (neg : Bool) : Nat := b2n neg * 2 ^ (f.ew + f.mw)
/-- The canonical NaN (R174, R263). -/
def FFmt.nan (f : FFmt) (rd : Nat) : Nat :=
  if rd = 0 then (2 ^ f.ew - 1) * 2 ^ f.mw + 2 ^ (f.mw - 1) else 2 ^ (f.ew + f.mw) - 1
def FFmt.inf (f : FFmt) (neg : Bool) : Nat := f.sign neg + (2 ^ f.ew - 1) * 2 ^ f.mw

/-- An exact value: magnitude m × 2^e. -/
inductive FVal where
  | nan (sig : Bool)
  | inf (neg : Bool)
  | fin (neg : Bool) (m : Nat) (e : Int)
  deriving DecidableEq, Repr

/-- The value of a floating-point code under a reading (R258 to R260). -/
def fdec (code rd bits : Nat) : FVal :=
  let f := ffmt code
  let x := bits % 2 ^ f.width
  let neg := bitN x (f.ew + f.mw)
  let e := bitsN x f.mw f.ew
  let m := x % 2 ^ f.mw
  if e = 2 ^ f.ew - 1 ∧ rd = 0 then
    (if m = 0 then .inf neg else .nan (decide (code < 4) && !bitN m (f.mw - 1)))
  else if e = 2 ^ f.ew - 1 ∧ rd = 1 ∧ m = 2 ^ f.mw - 1 then .nan false
  else .fin neg (if e = 0 then m else 2 ^ f.mw + m) ((max e 1 : Nat) - (f.bias : Int) - (f.mw : Int))

/-- The code of a finite magnitude that the format holds exactly. -/
def FFmt.enc (f : FFmt) (neg : Bool) (m : Nat) (e : Int) : Nat :=
  if m = 0 then f.sign neg
  else
    let l := max ((Nat.log2 m : Int) + e) (1 - (f.bias : Int))
    let q := l - (f.mw : Int)
    let sig := if e ≥ q then m * 2 ^ (e - q).toNat else m / 2 ^ (q - e).toNat
    f.sign neg + (l + (f.bias : Int) - 1).toNat * 2 ^ f.mw + sig

/-! ### Rounding -/

/-- Drops d low bits of a magnitude under a rounding mode of R60; `st`: a non-zero part lies below. -/
def roundMag (rm : Nat) (neg : Bool) (m d : Nat) (st : Bool) : Nat × Bool :=
  let q := m / 2 ^ d
  let r := m % 2 ^ d
  let nx := r != 0 || st
  let up := match rm with
    | 0 => decide (2 ^ d < 2 * r) || (decide (2 * r = 2 ^ d) && (st || decide (q % 2 = 1)))
    | 1 => false
    | 2 => nx && !neg
    | _ => nx && neg
  (if up then q + 1 else q, nx)

/-- m1 × 2^e1 > m2 × 2^e2. -/
def magGt (m1 : Nat) (e1 : Int) (m2 : Nat) (e2 : Int) : Bool :=
  let e := min e1 e2
  decide (m2 * 2 ^ (e2 - e).toNat < m1 * 2 ^ (e1 - e).toNat)

/-- An overflowed result: the infinity or the largest value by rm (R175), or what a reading without
infinities delivers (R272). -/
def fpOver (f : FFmt) (rd rm : Nat) (ovf neg : Bool) : Nat × Fl :=
  let mx := f.sign neg + f.maxCode rd
  let toInf := match rm with
    | 0 => true
    | 1 => false
    | 2 => !neg
    | _ => neg
  if !toInf then (mx, flOF ||| flNX)
  else if ovf || rd = 2 then (mx, flOF ||| flNX ||| flSC)
  else if rd = 1 then (f.sign neg + f.nan 1, flOF ||| flNX)
  else (f.inf neg, flOF ||| flNX)

/-- fpround (R175, R272) of ±(m × 2^e, and a part below it when `st`). A value with `st` carries enough
bits that the rounding position lies above bit 0. -/
def fpround (code rd rm : Nat) (ovf neg : Bool) (m : Nat) (e : Int) (st : Bool) : Nat × Fl :=
  let f := ffmt code
  if m = 0 && !st then (f.sign neg, 0)
  else
    let q := max ((Nat.log2 m : Int) + e - (f.mw : Int)) f.qmin
    let d := (q - e).toNat
    let (y, nx) := roundMag rm neg m d st
    let ey := e + (d : Int)
    let mx := f.maxCode rd
    if (match fdec code 2 mx with | .fin _ mm me => magGt y ey mm me | _ => false) then fpOver f rd rm ovf neg
    else
      let uf := nx && y != 0 && magGt 1 (1 - (f.bias : Int)) y ey
      (f.enc neg y ey, flIf nx flNX ||| flIf uf flUF)

/-- Conversion of a value into a floating-point format (R271 to R273). -/
def fpCvt (code rd rm : Nat) (ovf : Bool) (v : FVal) : Nat × Fl :=
  let f := ffmt code
  match v with
  | .nan sig => if rd = 2 then (0, flIV) else (f.nan rd, flIf sig flIV)
  | .inf neg =>
    match rd with
    | 0 => (f.inf neg, 0)
    | 1 => (f.sign neg + f.nan 1, flIV)
    | _ => (f.sign neg + f.maxCode 2, flIV)
  | .fin neg m e => fpround code rd rm ovf neg m e false

/-- An integer into a floating-point format. -/
def fpOfInt (code rd rm : Nat) (ovf : Bool) (v : Int) : Nat × Fl :=
  fpround code rd rm ovf (decide (v < 0)) v.natAbs 0 false

/-- Rounds a finite value to an integer. -/
def fpRint (rm : Nat) (neg : Bool) (m : Nat) (e : Int) : Int × Bool :=
  let (y, nx) := if e ≥ 0 then (m * 2 ^ e.toNat, false) else roundMag rm neg m (-e).toNat false
  (if neg then -(y : Int) else y, nx)

/-- Conversion to an integer range (R181, R274): `wide` is delivered as `w` bits. -/
def fpToInt (w : Nat) (signed : Bool) (lo hi : Int) (rm : Nat) (ovf : Bool) (v : FVal) : Nat × Fl :=
  let bad := if signed then wrapN lo w else 2 ^ w - 1
  match v with
  | .nan _ => (0, flIV)
  | .inf neg => if ovf then (wrapN (if neg then lo else hi) w, flSC) else (bad, flIV)
  | .fin neg m e =>
    let (y, nx) := fpRint rm neg m e
    if y < lo ∨ hi < y then (if ovf then (wrapN (if y < lo then lo else hi) w, flSC) else (bad, flIV))
    else (wrapN y w, flIf nx flNX)

/-! ### The integer formats (R264) -/

/-- Storage width of a format code (R261, R262, R264, R265, R266). -/
def fmtWidth : Nat → Nat
  | 0x0A => 16 | 0x0B => 8 | 0x0C => 8 | 0x0D => 4 | 0x0E => 4 | 0x0F => 3 | 0x10 => 2 | 0x11 => 2
  | 0x12 => 2 | 0x13 => 1 | 0x14 => 1 | 0x15 => 4 | 0x16 => 3 | 0x17 => 4
  | c => (ffmt c).width

/-- The value of an integer code. -/
def idec (code bits : Nat) : Int :=
  let x := bits % 2 ^ fmtWidth code
  match code with
  | 0x0C | 0x0E | 0x11 | 0x14 => x
  | 0x12 => if bitN x 0 then (if bitN x 1 then -1 else 1) else 0
  | 0x13 => if x = 0 then 1 else -1
  | _ => sextN x (fmtWidth code)

/-- Range of an integer format and whether it is signed (R264, R274). -/
def irange (code : Nat) : Bool × Int × Int :=
  let w := fmtWidth code
  match code with
  | 0x0C | 0x0E | 0x11 | 0x14 => (false, 0, 2 ^ w - 1)
  | 0x12 => (true, -1, 1)
  | _ => (true, -(2 ^ (w - 1)), 2 ^ (w - 1) - 1)

/-- The code of an integer in the format's range (TERN2: 11 for −1). -/
def ienc (code : Nat) (v : Int) : Nat :=
  if code = 0x12 ∧ v < 0 then 3 else wrapN v (fmtWidth code)

/-- A floating-point value into an integer format (R274). -/
def fpToIfmt (code rm : Nat) (ovf : Bool) (v : FVal) : Nat × Fl :=
  if code = 0x13 then
    match v with
    | .nan _ => (0, flIV)
    | .inf neg => (b2n neg, flNX)
    | .fin neg m e => (b2n (neg && m != 0), flIf (m = 0 || magGt m e 1 0 || magGt 1 0 m e) flNX)
  else
    let (sg, lo, hi) := irange code
    let w := fmtWidth code
    let (y, fl) := fpToInt 64 sg lo hi rm ovf v
    if fl == flIV && !(match v with | .nan _ => true | _ => false) then
      ((if sg then ienc code lo else 2 ^ w - 1), fl)
    else (ienc code (sextN y 64), fl)

/-- An integer into an integer format of w bits and range (R274). -/
def intToIfmt (code : Nat) (ovf : Bool) (v : Int) : Nat × Fl :=
  if code = 0x13 then (b2n (decide (v < 0)), flIf (v != 1 && v != -1) flNX)
  else
    let (_, lo, hi) := irange code
    if lo ≤ v ∧ v ≤ hi then (ienc code v, 0)
    else if ovf then (ienc code (if v < lo then lo else hi), flSC)
    else (wrapN v (fmtWidth code), 0)

/-- An integer into w bits, signed or not (R274). -/
def intToInt (w : Nat) (signed ovf : Bool) (v : Int) : Nat × Fl :=
  let lo : Int := if signed then -(2 ^ (w - 1)) else 0
  let hi : Int := if signed then 2 ^ (w - 1) - 1 else 2 ^ w - 1
  if lo ≤ v ∧ v ≤ hi then (wrapN v w, 0)
  else if ovf then (wrapN (if v < lo then lo else hi) w, flSC)
  else (wrapN v w, 0)

/-! ### Exact arithmetic -/

/-- ±m1 × 2^e1 ± m2 × 2^e2, as an integer and a power of two. -/
def sumExact (n1 : Bool) (m1 : Nat) (e1 : Int) (n2 : Bool) (m2 : Nat) (e2 : Int) : Int × Int :=
  let e := min e1 e2
  let a : Int := (m1 * 2 ^ (e1 - e).toNat : Nat)
  let b : Int := (m2 * 2 ^ (e2 - e).toNat : Nat)
  ((if n1 then -a else a) + (if n2 then -b else b), e)

/-- Square root: `isqrt n m` is the greatest r < 2^n with r × r ≤ m. -/
def isqrtAux (m : Nat) : Nat → Nat → Nat
  | 0, r => r
  | n + 1, r => isqrtAux m n (if (r + 2 ^ n) * (r + 2 ^ n) ≤ m then r + 2 ^ n else r)
def isqrt (m : Nat) : Nat := isqrtAux m (Nat.log2 m / 2 + 1) 0

def FVal.isNan : FVal → Bool
  | .nan _ => true
  | _ => false
def FVal.isSig : FVal → Bool
  | .nan s => s
  | _ => false
def FVal.isZero : FVal → Bool
  | .fin _ m _ => m == 0
  | _ => false
def FVal.isInf : FVal → Bool
  | .inf _ => true
  | _ => false
def FVal.neg : FVal → Bool
  | .nan _ => false
  | .inf n => n
  | .fin n _ _ => n
def FVal.negate : FVal → FVal
  | .nan s => .nan s
  | .inf n => .inf !n
  | .fin n m e => .fin (!n) m e

/-- Both NaN rows of R177 for any operand. -/
def nanRow (code : Nat) (vs : List FVal) : Option (Nat × Fl) :=
  if vs.any FVal.isSig then some ((ffmt code).nan 0, flIV)
  else if vs.any FVal.isNan then some ((ffmt code).nan 0, 0)
  else none

/-- fpround(a + b) with the rows of R177. -/
def fpAddV (code rm : Nat) (ovf : Bool) (a b : FVal) : Nat × Fl :=
  let f := ffmt code
  match nanRow code [a, b] with
  | some r => r
  | none =>
    match a, b with
    | .inf n, .inf n' => if n = n' then (f.inf n, 0) else (f.nan 0, flIV)
    | .inf n, _ => (f.inf n, 0)
    | _, .inf n => (f.inf n, 0)
    | .fin n m e, .fin n' m' e' =>
      let (v, q) := sumExact n m e n' m' e'
      if v = 0 then (f.sign (if n = n' then n else decide (rm = 3)), 0)
      else fpround code 0 rm ovf (decide (v < 0)) v.natAbs q false
    | _, _ => (f.nan 0, 0)

def fpAdd (code rm : Nat) (ovf : Bool) (a b : Nat) : Nat × Fl := fpAddV code rm ovf (fdec code 0 a) (fdec code 0 b)
def fpSub (code rm : Nat) (ovf : Bool) (a b : Nat) : Nat × Fl :=
  fpAddV code rm ovf (fdec code 0 a) (fdec code 0 b).negate

/-- The exact product, 0 × ∞ being a NaN made here (sig: IV). -/
def mulV : FVal → FVal → FVal
  | .nan s, .nan s' => .nan (s || s')
  | .nan s, _ => .nan s
  | _, .nan s => .nan s
  | .inf n, .inf n' => .inf (n ^^ n')
  | .inf n, .fin n' m _ => if m = 0 then .nan true else .inf (n ^^ n')
  | .fin n m _, .inf n' => if m = 0 then .nan true else .inf (n ^^ n')
  | .fin n m e, .fin n' m' e' => .fin (n ^^ n') (m * m') (e + e')

def fpMul (code rm : Nat) (ovf : Bool) (a b : Nat) : Nat × Fl :=
  match mulV (fdec code 0 a) (fdec code 0 b) with
  | .inf n => ((ffmt code).inf n, 0)
  | v => fpCvt code 0 rm ovf v

def fpDiv (code rm : Nat) (ovf : Bool) (a b : Nat) : Nat × Fl :=
  let f := ffmt code
  let x := fdec code 0 a
  let y := fdec code 0 b
  match nanRow code [x, y] with
  | some r => r
  | none =>
    match x, y with
    | .inf _, .inf _ => (f.nan 0, flIV)
    | .inf n, _ => (f.inf (n ^^ y.neg), 0)
    | _, .inf n => (f.sign (n ^^ x.neg), 0)
    | .fin n m e, .fin n' m' e' =>
      if m' = 0 then
        (if m = 0 then (f.nan 0, flIV)
        else if ovf then (f.sign (n ^^ n') + f.maxCode 0, flDZ ||| flSC)
        else (f.inf (n ^^ n'), flDZ))
      else if m = 0 then (f.sign (n ^^ n'), 0)
      else
        let k := Nat.log2 m' + f.mw + 5 - Nat.log2 m
        let w := m * 2 ^ k
        fpround code 0 rm ovf (n ^^ n') (w / m') (e - k - e') (decide (w % m' ≠ 0))
    | _, _ => (f.nan 0, 0)

def fpSqrt (code rm : Nat) (ovf : Bool) (a : Nat) : Nat × Fl :=
  let f := ffmt code
  let x := fdec code 0 a
  match nanRow code [x] with
  | some r => r
  | none =>
    match x with
    | .inf n => if n then (f.nan 0, flIV) else (f.inf false, 0)
    | .fin n m e =>
      if m = 0 then (f.sign n, 0)
      else if n then (f.nan 0, flIV)
      else
        let k := 2 * (f.mw + 4) + (if (e % 2) = 0 then 0 else 1)
        let w := m * 2 ^ k
        let r := isqrt w
        fpround code 0 rm ovf false r ((e - (k : Int)) / 2) (decide (r * r ≠ w))
    | .nan _ => (f.nan 0, 0)

/-- fpround(a × b + c) (R179). -/
def fpFma (code rm : Nat) (ovf : Bool) (x y z : FVal) : Nat × Fl :=
  let f := ffmt code
  let p := mulV x y
  if (x.isZero && y.isInf) || (x.isInf && y.isZero) then (f.nan 0, flIV)
  else
    match nanRow code [x, y, z] with
    | some r => r
    | none => fpAddV code rm ovf p z

/-- −0 orders below +0; NaNs apart. -/
def fLtTotal (a b : FVal) : Bool :=
  match a, b with
  | .inf n, .inf n' => n && !n'
  | .inf n, _ => n
  | _, .inf n => !n
  | .fin n m e, .fin n' m' e' =>
    if n != n' then n
    else if n then magGt m e m' e' else magGt m' e' m e
  | _, _ => false
/-- a < b of ordered values; the zeros are equal. -/
def fLt (a b : FVal) : Bool := !(a.isZero && b.isZero) && fLtTotal a b
def fEq (a b : FVal) : Bool := (a.isZero && b.isZero) || (!fLtTotal a b && !fLtTotal b a)

/-- minimumNumber and maximumNumber (R178). -/
def fpMinMax (mx : Bool) (code a b : Nat) : Nat × Fl :=
  let f := ffmt code
  let x := fdec code 0 a
  let y := fdec code 0 b
  let fl := flIf (x.isSig || y.isSig) flIV
  match x.isNan, y.isNan with
  | true, true => (f.nan 0, fl)
  | true, false => (b % 2 ^ f.width, fl)
  | false, true => (a % 2 ^ f.width, fl)
  | false, false =>
    let takeB := if mx then fLtTotal x y else fLtTotal y x
    ((if takeB then b else a) % 2 ^ f.width, fl)

/-- The comparisons of R180: EQ, NE, LT, LE, UN. -/
def fpCmp (cc code a b : Nat) : Bool × Fl :=
  let x := fdec code 0 a
  let y := fdec code 0 b
  let un := x.isNan || y.isNan
  let sig := flIf (x.isSig || y.isSig) flIV
  match cc with
  | 0 => (!un && fEq x y, sig)
  | 1 => (un || !fEq x y, sig)
  | 2 => (!un && fLt x y, flIf un flIV)
  | 3 => (!un && (fLt x y || fEq x y), flIf un flIV)
  | _ => (un, sig)

/-- FCLASS (R182). -/
def fpClass (code a : Nat) : Nat :=
  match fdec code 0 a with
  | .nan true => 2 ^ 8
  | .nan false => 2 ^ 9
  | .inf n => if n then 1 else 2 ^ 7
  | .fin n m _ =>
    let sub := decide (m < 2 ^ (ffmt code).mw)
    if m = 0 then (if n then 2 ^ 3 else 2 ^ 4)
    else if sub then (if n then 2 ^ 2 else 2 ^ 5)
    else (if n then 2 ^ 1 else 2 ^ 6)

/-- The code a with another sign, a NaN's too (R182; notes/assumptions/39.md). -/
def fpSetSign (code a : Nat) (neg : Bool) : Nat :=
  let f := ffmt code
  f.sign neg + a % 2 ^ (f.ew + f.mw)
def fpSign (code a : Nat) : Bool := bitN a ((ffmt code).width - 1)

end Sys2Proof.Machine
end

