-- ==== Sys2Proof/Machine/Records.lean ====
section
/-! DEFINITION. Summary records (R335 to R353): their bytes, checks, updates, merges and queries. Coins come from a
generator state that each function takes and returns. -/

namespace Sys2Proof.Machine

/-! ### Values -/

/-- step(x) of the generator (R143). -/
def step32 (x : BitVec 32) : BitVec 32 := 0x3A8F05C5 * x + 0x00001F7B

structure Qsk where
  count : Nat
  nan : Nat
  csat : Bool
  seed : Nat
  t : Nat
  errb : Nat
  levels : List (List Nat)
  deriving DecidableEq, Repr

structure HSlot where
  key : Nat
  err : Nat
  cnt : Nat
  deriving DecidableEq, Repr

structure Hhs where
  count : Nat
  csat : Bool
  seed : Nat
  slots : List HSlot
  deriving DecidableEq, Repr

structure Dcs where
  count : Nat
  csat : Bool
  seed : Nat
  regs : List Nat
  deriving DecidableEq, Repr

inductive Rec where
  | qsk (r : Qsk)
  | hhs (r : Hhs)
  | dcs (r : Dcs)
  deriving DecidableEq, Repr

/-- Bytes of a record of a KIND; the header alone for a reserved KIND (R335). -/
def recSize (kind : Nat) : Nat := if kind = 1 then 4160 else if kind = 2 ∨ kind = 3 then 1088 else 64

/-! ### Bytes -/

/-- `n` numbers of `w` bytes from a byte list. -/
def words (w : Nat) : Nat → List Byte → List Nat
  | 0, _ => []
  | n + 1, l => leNat (l.take w) :: words w n (l.drop w)
def unwords (w : Nat) (l : List Nat) : List Byte := l.flatMap fun v => natLe w v

def header (kind : Nat) (csat : Bool) (count nan seed kspec : Nat) : List Byte :=
  natLe 64 (kind + 2 ^ 8 + b2n csat * 2 ^ 16 + count * 2 ^ 32 + nan * 2 ^ 96 + seed * 2 ^ 160 + kspec * 2 ^ 192)
/-- A list filled with zeros up to n elements. -/
def padTo (n : Nat) (l : List Nat) : List Nat := l ++ List.replicate (n - l.length) 0

def Qsk.bytes (r : Qsk) : List Byte :=
  let fill := (List.range 8).foldl (fun a l => a + (nth [] r.levels l).length * 2 ^ (8 * l)) 0
  header 1 r.csat r.count r.nan r.seed (fill + r.t * 2 ^ 64 + r.errb * 2 ^ 128)
    ++ (r.levels.flatMap fun l => unwords 4 (padTo 128 l))
def HSlot.num (h : HSlot) : Nat := h.key + h.err * 2 ^ 32 + h.cnt * 2 ^ 64
def Hhs.bytes (r : Hhs) : List Byte := header 2 r.csat r.count 0 r.seed 0 ++ unwords 16 (r.slots.map HSlot.num)
def Dcs.bytes (r : Dcs) : List Byte := header 3 r.csat r.count 0 r.seed 0 ++ unwords 1 r.regs
def Rec.bytes : Rec → List Byte
  | .qsk r => r.bytes
  | .hhs r => r.bytes
  | .dcs r => r.bytes
def Rec.kind : Rec → Nat
  | .qsk _ => 1 | .hhs _ => 2 | .dcs _ => 3

/-- The record of SKINIT (R359). -/
def newRec (kind seed : Nat) : Rec :=
  match kind with
  | 1 => .qsk ⟨0, 0, false, seed, 0, 0, List.replicate 8 []⟩
  | 2 => .hhs ⟨0, false, seed, List.replicate 64 ⟨0, 0, 0⟩⟩
  | _ => .dcs ⟨0, false, seed, List.replicate 1024 0⟩

/-- No key of a list stands twice. -/
def distinct : List Nat → Bool
  | [] => true
  | x :: t => !t.contains x && distinct t

/-- A record read and checked: order 2 of R353. `body` holds recSize bytes. -/
def parseRec (body : List Byte) : Option Rec :=
  let h := leNat (body.take 64)
  let kind := bitsN h 0 8
  let csat := bitN h 16
  let count := bitsN h 32 64
  let nan := bitsN h 96 64
  let seed := bitsN h 160 32
  let ks := bitsN h 192 320
  let d := body.drop 64
  if bitsN h 8 8 ≠ 1 ∨ bitsN h 17 15 ≠ 0 then none
  else
    match kind with
    | 1 =>
      let t := bitsN ks 64 8
      let fill (l : Nat) : Nat := bitsN ks (8 * l) 8
      let raw := (List.range 8).map fun l => words 4 128 ((d.drop (512 * l)).take 512)
      let levels := (List.range 8).map fun l => (nth [] raw l).take (fill l)
      if bitsN ks 72 56 ≠ 0 ∨ bitsN ks 192 128 ≠ 0 ∨ t > 56 then none
      else if (List.range 8).any fun l => decide (fill l > 127) || ((nth [] raw l).drop (fill l)).any (· != 0) then none
      else if levels.any fun l => l.any fun k => decide (k > 0xFF800000 ∨ k < 0x007FFFFF) then none
      else some (.qsk ⟨count, nan, csat, seed, t, bitsN ks 128 64, levels⟩)
    | 2 =>
      let slots := (words 16 64 d).map fun v => (⟨bitsN v 0 32, bitsN v 32 32, bitsN v 64 64⟩ : HSlot)
      if nan ≠ 0 ∨ ks ≠ 0 then none
      else if slots.any fun x => x.cnt == 0 && (x.key != 0 || x.err != 0) then none
      else if !distinct ((slots.filter fun x => x.cnt != 0).map (·.key)) then none
      else some (.hhs ⟨count, csat, seed, slots⟩)
    | 3 =>
      let regs := words 1 1024 d
      if nan ≠ 0 ∨ ks ≠ 0 ∨ regs.any (fun r => decide (r > 55)) = true then none
      else some (.dcs ⟨count, csat, seed, regs⟩)
    | _ => none

/-! ### Quantile sketches -/

/-- key(b) (R337). -/
def qkey (b : Nat) : Nat := if bitN b 31 then 2 ^ 32 - 1 - b % 2 ^ 32 else b + 2 ^ 31
/-- value(k). -/
def qvalue (k : Nat) : Nat := if bitN k 31 then k - 2 ^ 31 else 2 ^ 32 - 1 - k

/-- sat64(a + b), and CSAT. -/
def sat64 (a b : Nat) : Nat × Bool := satAdd 64 a b

/-- The elements at positions of one parity. -/
def everyOther : Bool → List Nat → List Nat
  | _, [] => []
  | true, _ :: t => everyOther false t
  | false, x :: t => x :: everyOther true t

/-- halve (R340): the keys kept, ERRB, CSAT and the generator after. -/
def halve (r : Qsk) (x : BitVec 32) (l : List Nat) (w : Nat) : List Nat × Qsk × BitVec 32 :=
  let y := step32 x
  let (e, s) := sat64 r.errb w
  (everyOther (y.getLsbD 31) (sortNat l), { r with errb := e, csat := r.csat || s }, y)

def Qsk.level (r : Qsk) (l : Nat) : List Nat := nth [] r.levels l
def Qsk.setLevel (r : Qsk) (l : Nat) (ks : List Nat) : Qsk := { r with levels := setNth r.levels l ks }

/-- Halvings of `l` with weights 2^(7+i) for i from `a` up, `n` of them. -/
def halveTop (l : List Nat) (r : Qsk) (x : BitVec 32) (a : Nat) : Nat → List Nat × Qsk × BitVec 32
  | 0 => (l, r, x)
  | n + 1 =>
    let (l, r, x) := halve r x l (2 ^ (7 + a))
    halveTop l r x (a + 1) n

/-- The loop of settle(7). -/
def settleTop (r : Qsk) (x : BitVec 32) : Nat → Qsk × BitVec 32
  | 0 => (r, x)
  | n + 1 =>
    if (r.level 7).length < 128 then (r, x)
    else
      let (l, r, x) := halve r x (r.level 7) (2 ^ (7 + r.t))
      let r := r.setLevel 7 l
      settleTop (if r.t < 56 then { r with t := r.t + 1 } else { r with csat := true }) x n

/-- settle(l), with `n` = 7 − l levels above. -/
def settleLevel (r : Qsk) (x : BitVec 32) (l : Nat) : Nat → Qsk × BitVec 32
  | 0 => settleTop r x 64
  | n + 1 =>
    if (r.level l).length < 128 then (r, x)
    else
      let (ks, r, x) := halve r x (r.level l) (2 ^ l)
      let r := r.setLevel l []
      let (ks, r, x) := if n = 0 then halveTop ks r x 0 r.t else (ks, r, x)
      settleLevel (r.setLevel (l + 1) (r.level (l + 1) ++ ks)) x (l + 1) n
def settleAt (r : Qsk) (x : BitVec 32) (l : Nat) : Qsk × BitVec 32 := settleLevel r x l (7 - l)

/-- enter(v) of FP32 bits (R341). -/
def Qsk.enter (r : Qsk) (x : BitVec 32) (v : Nat) : Qsk × BitVec 32 :=
  if (fdec 1 0 v).isNan then
    let (n, s) := sat64 r.nan 1
    ({ r with nan := n, csat := r.csat || s }, x)
  else
    let (n, s) := sat64 r.count 1
    settleAt ({ r with count := n, csat := r.csat || s }.setLevel 0 (r.level 0 ++ [qkey v])) x 0

/-- SKMRG of source b into a (R342). -/
def Qsk.merge (a b : Qsk) (x : BitVec 32) : Qsk × BitVec 32 :=
  let t := max a.t b.t
  let (l7, r, x) := halveTop (a.level 7) a x a.t (t - a.t)
  let r := r.setLevel 7 l7
  let (s7, r, x) := halveTop (b.level 7) r x b.t (t - b.t)
  let r := { r with t := t }
  let r := (List.range 8).foldl (fun r l => r.setLevel l (r.level l ++ (if l = 7 then s7 else b.level l))) r
  let (c, s1) := sat64 r.count b.count
  let (n, s2) := sat64 r.nan b.nan
  let (e, s3) := sat64 r.errb b.errb
  let r := { r with count := c, nan := n, errb := e, csat := r.csat || b.csat || s1 || s2 || s3 }
  (List.range 8).foldl (fun (r, x) l => settleAt r x l) (r, x)

def Qsk.wt (r : Qsk) (l : Nat) : Nat := if l < 7 then 2 ^ l else 2 ^ (7 + r.t)
/-- W (R339). -/
def Qsk.weight (r : Qsk) : Nat :=
  (List.range 8).foldl (fun a l => a + (r.level l).length * r.wt l) 0
def insertKey (x : Nat × Nat) : List (Nat × Nat) → List (Nat × Nat)
  | [] => [x]
  | y :: t => if x.1 ≤ y.1 then x :: y :: t else y :: insertKey x t
/-- The first key whose cumulative weight reaches n. -/
def cumKey : List (Nat × Nat) → Nat → Option Nat
  | [], _ => none
  | (k, w) :: t, n => if n ≤ w then some k else cumKey t (n - w)
/-- quantile(q) for q = m × 2^e (R343): the bits of an FP32 value. -/
def Qsk.quantile (r : Qsk) (m : Nat) (e : Int) : Option Nat :=
  let w := r.weight
  if w = 0 then none
  else
    let rank := max 1 (ceilDiv (m * w * 2 ^ e.toNat) (2 ^ (-e).toNat))
    let keys := (List.range 8).flatMap fun l => (r.level l).map fun k => (k, r.wt l)
    (cumKey (keys.foldr insertKey []) rank).map qvalue

/-! ### Heavy hitters -/

/-- The first slot of least CNT. -/
def leastCnt (l : List HSlot) : Nat :=
  let m := l.foldl (fun m x => min m x.cnt) (2 ^ 64)
  l.findIdx fun x => x.cnt == m
/-- Enters a key (R345). -/
def Hhs.enter (r : Hhs) (k : Nat) : Hhs :=
  let (c, s) := sat64 r.count 1
  let i := r.slots.findIdx fun x => x.cnt != 0 && x.key == k
  if i < r.slots.length then
    let x := nth ⟨0, 0, 0⟩ r.slots i
    let (n, s') := sat64 x.cnt 1
    { r with count := c, csat := r.csat || s || s', slots := setNth r.slots i { x with cnt := n } }
  else
    let i := leastCnt r.slots
    let x := nth ⟨0, 0, 0⟩ r.slots i
    let (n, s') := sat64 x.cnt 1
    { r with
      count := c
      csat := r.csat || s || s' || decide (x.cnt > 0xFFFFFFFF)
      slots := setNth r.slots i ⟨k, min x.cnt 0xFFFFFFFF, n⟩ }

/-- CNT decreasing, KEY increasing. -/
def hBefore (a b : HSlot) : Bool := decide (a.cnt > b.cnt) || (a.cnt == b.cnt && decide (a.key < b.key))
def insertH (x : HSlot) : List HSlot → List HSlot
  | [] => [x]
  | y :: t => if hBefore x y then x :: y :: t else y :: insertH x t
def sortH (l : List HSlot) : List HSlot := l.foldr insertH []
def Hhs.entries (r : Hhs) : List HSlot := r.slots.filter fun x => x.cnt != 0
/-- Entries of both records, equal keys summed; whether a sum saturated. -/
def joinH (a b : List HSlot) : List HSlot × Bool :=
  b.foldl (fun (l, s) x =>
    let i := l.findIdx fun y => y.key == x.key
    if i < l.length then
      let y := nth ⟨0, 0, 0⟩ l i
      let (c, s1) := sat64 y.cnt x.cnt
      let (e, s2) := satAdd 32 y.err x.err
      (setNth l i ⟨x.key, e, c⟩, s || s1 || s2)
    else (l ++ [x], s)) (a, false)
/-- SKMRG of source b into a (R346). -/
def Hhs.merge (a b : Hhs) : Hhs :=
  let (l, s) := joinH a.entries b.entries
  let top := (sortH l).take 64
  let (c, s') := sat64 a.count b.count
  { a with count := c, csat := a.csat || b.csat || s || s', slots := top ++ List.replicate (64 - top.length) ⟨0, 0, 0⟩ }

/-! ### Distinct counts -/

/-- The hash of R347: register and value. -/
def dcsHash (seed key : Nat) : Nat × Nat :=
  let h : BitVec 64 := BitVec.ofNat 64 key ^^^ (BitVec.ofNat 64 seed * 0x0000000100000001)
  let h := h * 0x8F3A61D5B2C94E17
  let h := h ^^^ (h >>> 29)
  let h := h * 0x6B19D4E307AF52C9
  let h := h ^^^ (h >>> 32)
  let low := h.toNat % 2 ^ 54
  (h.toNat / 2 ^ 54, if low = 0 then 55 else 54 - Nat.log2 low)
def Dcs.enter (r : Dcs) (k : Nat) : Dcs :=
  let (j, v) := dcsHash r.seed k
  let (c, s) := sat64 r.count 1
  { r with count := c, csat := r.csat || s, regs := setNth r.regs j (max (nth 0 r.regs j) v) }
/-- SKMRG of source b into a (R348). -/
def Dcs.merge (a b : Dcs) : Dcs :=
  let (c, s) := sat64 a.count b.count
  { a with count := c, csat := a.csat || b.csat || s, regs := List.zipWith max a.regs b.regs }
/-- V: registers equal to 0. -/
def Dcs.zeros (r : Dcs) : Nat := (r.regs.filter (· == 0)).length

/-- The FP64 value nearest num ÷ den, by rm. -/
def fpRatio (code rm num den : Nat) : Nat × Fl :=
  if num = 0 then (0, 0)
  else
    let k := Nat.log2 den + 60
    fpround code 0 rm false false (num * 2 ^ k / den) (-(k : Int)) (decide (num * 2 ^ k % den ≠ 0))

/-- Σ z^(2i+1) ÷ (2i+1) at scale 2^300, from z's scaled odd powers. -/
def atanhSum (z2 : Nat) : Nat → Nat → Nat → Nat
  | 0, _, _ => 0
  | n + 1, p, i => p / (2 * i + 1) + atanhSum z2 n (p * z2 / 2 ^ 300) (i + 1)
/-- 2^300 × ln(a ÷ b), for b ≤ a < 2b, to well below the spacing that rounding needs. -/
def lnScaled (a b : Nat) : Nat :=
  let z := (a - b) * 2 ^ 300 / (a + b)
  2 * atanhSum (z * z / 2 ^ 300) 100 z 0
/-- The FP64 value nearest 1,024 × ln(1,024 ÷ V) (R349), V from 1 to 1,024. -/
def dcsSmall (v : Nat) : Nat :=
  let k := 10 - Nat.log2 v
  let (k, a, b) := if 2 ^ (10 - k) = v then (k, 1, 1) else (k - 1, 1024, v * 2 ^ (k - 1))
  let l := k * lnScaled 2 1 + lnScaled a b
  if l = 0 then 0 else (fpround 0 0 0 false false l (10 - 300) true).1

/-- E of R349, as FP64 bits. -/
def Dcs.estimate (r : Dcs) : Nat :=
  let z := r.regs.foldl (fun a x => a + 2 ^ (55 - x)) 0
  let aBits := (fpRatio 0 0 (7213 * 1048576 * 1024 * 1000) (10000 * 1025079)).1
  match fdec 0 0 aBits with
  | .fin _ m e =>
    let n := m * 2 ^ 55
    let E := (fpround 0 0 0 false false (n * 2 ^ 80 / z) (e - 80) (decide (n * 2 ^ 80 % z ≠ 0))).1
    if E ≤ 0x40A4000000000000 ∧ r.zeros > 0 then dcsSmall r.zeros else E
  | _ => 0

/-! ### Merges -/

/-- Order 3 of R353. -/
def mergeable : Rec → Rec → Bool
  | .qsk _, .qsk _ => true
  | .hhs _, .hhs _ => true
  | .dcs a, .dcs b => a.seed == b.seed
  | _, _ => false
/-- SKMRG of source b into destination a, and the generator after (R360). -/
def Rec.merge (a b : Rec) (x : BitVec 32) : Rec × BitVec 32 :=
  match a, b with
  | .qsk a, .qsk b => let (r, x) := a.merge b x; (.qsk r, x)
  | .hhs a, .hhs b => (.hhs (a.merge b), x)
  | .dcs a, .dcs b => (.dcs (a.merge b), x)
  | a, _ => (a, x)

end Sys2Proof.Machine
end

