-- ==== Sys2Proof/WellFormed.lean ====
section
/-! DEFINITION. Which instruction terms are well formed: the limits that steps 5 to 7 of R63 put on
an instruction word's own fields, what R73 asks of an engine command's fields, and the ranges of the
names an event carries. -/

namespace Sys2Proof

/-- V24–V31 do not exist (R54). -/
def vregOk (r : Reg) : Bool := decide (r.toNat < 24)
/-- Scope codes 101–111 are reserved (R61). -/
def scopeOk (s : Scope) : Bool := decide (s.toNat < 5)
/-- Formats of scalar and element-wise floating point (R174, R305). -/
def fpFmt (f : BitVec 5) : Bool := decide (f.toNat < 4)
/-- FP32, BF16, FP16. -/
def fpFmtNarrow (f : BitVec 5) : Bool := decide (0 < f.toNat) && fpFmt f
/-- A floating-point code of R257. -/
def anyFp (f : BitVec 5) : Bool := decide (f.toNat ≤ 9)
/-- An integer code of R257. -/
def anyInt (f : BitVec 5) : Bool := decide (0x0A ≤ f.toNat ∧ f.toNat ≤ 0x14)
/-- Readings accepted (R259). -/
def readingOk (f : BitVec 5) (r : BitVec 2) : Bool :=
  r == 0 || (decide (4 ≤ f.toNat ∧ f.toNat ≤ 9) && r != 3)
/-- The reserved bits of a tile operand (R236). -/
def topOk (t : BitVec 12) : Bool :=
  if t.getLsbD 11 then !t.getLsbD 10 else t.extractLsb' 6 5 == 0

/-- The limits of R168. -/
def fieldOk (sx : Bool) (o : FieldOp) : Bool :=
  decide (0 < o.len.toNat ∧ o.len.toNat ≤ 64 ∧ o.pos.toNat + o.len.toNat ≤ 64)
    && (!sx || o.pos == 0)

/-- The limits of R185 on b, c and the body length. -/
def hloopOk (o : HloopOp) : Bool :=
  let s := o.c.toNat + 1
  decide (o.c.toNat ≤ 6 ∧ o.b.toNat ≤ 7 ∧ 1 ≤ o.len.toNat ∧
    (2 ≤ s → 1 ≤ o.b.toNat ∧ o.b.toNat + s - 1 ≤ 7))

def amoOk (o : AmoOp) : Bool := scopeOk o.scope
def v3 (d a b : Reg) : Bool := vregOk d && vregOk a && vregOk b
def v2 (d a : Reg) : Bool := vregOk d && vregOk a

/-- SHD is 0 where R238, R254, R299, R301 and R302 do not allow it. -/
def noShd (h : CmdHead) : Bool := !h.shd
/-- HOLD needs SHD (R238). -/
def holdOk (c : XCmd) : Bool := !c.hold || c.h.shd
def descOnly (c : XCmd) : Bool := holdOk c && c.dt == 0 && c.st == 0

/-- The reserved bits of a view that `MZERO` writes (R286). -/
def viewBitsOk (v : BitVec 32) : Bool := v.extractLsb' 24 2 == 0 && v.extractLsb' 27 5 == 0

def sOk (c : SCmd) : Bool :=
  noShd c.h && decide (c.h.awc.toNat < 0x10000) && topOk c.src

/-- R301: the format of `MEXP` and `MIMP`, reserved codes apart. -/
def mxfFmtOk (c : MxfCmd) : Bool :=
  if c.pl then decide (c.fmt.toNat ≤ 0x14)
  else decide (c.fmt.toNat ≤ 6 ∨ (0x0A ≤ c.fmt.toNat ∧ c.fmt.toNat ≤ 0x0C))
def mxfRawOk (c : MxfCmd) : Bool :=
  !c.raw || (c.fmt == 0 && c.rdg == 0 && c.rm == 0 && !c.ovf && !c.pl)

def vcvtImm (o : VcvtOp) (dr sr iw : Bool) : Bool :=
  (dr || o.imm.extractLsb' 0 2 == 0) && (sr || o.imm.extractLsb' 2 2 == 0)
    && (iw || o.imm.extractLsb' 4 3 == 0) && o.imm.extractLsb' 7 9 == 0
/-- A reading is judged only for a code that is not reserved (R319, R320). -/
def vcvtRdg (f : BitVec 5) (r : BitVec 2) : Bool := decide (0x18 ≤ f.toNat) || readingOk f r

def accOk (o : VacOp) : Bool := vregOk o.r && (o.afmt.toNat < 2 || o.fmt == 0)

/-- Step 5 of R63 for the word's own fields; R73 for an engine command. -/
def Instr.limitsOk : Instr → Bool
  | .sext o | .zext o => fieldOk true o
  | .bext o | .bins o => fieldOk false o
  | .hloop o | .hloopNp o => hloopOk o
  | .ldB o | .ldH o | .ldW o | .ldD o | .ldBu o | .ldHu o | .ldWu o => scopeOk o.scope && o.ord.ule 1
  | .stB o | .stH o | .stW o | .stD o => scopeOk o.scope && (o.ord == 0 || o.ord == 2)
  | .amoAdd o | .amoAnd o | .amoOr o | .amoXor o | .amoMin o | .amoMax o | .amoMinu o | .amoMaxu o
  | .amoXchg o => amoOk o
  | .cas o => scopeOk o.scope
  | .fenceAq o | .fenceRl o | .fenceAr o | .fenceSc o => scopeOk o.scope
  | .acq o | .rel o | .tryacq o => scopeOk o.scope
  | .bar o => scopeOk o.scope
  | .gset o | .gsetN o => o.g != 0
  | .gsetX o => o.g != 0
  | .gsetClr o => o.g != 0
  | .skinit o => o.kind != 0 && topOk o.top
  | .skmrg o => topOk o.top
  | .skmrgR o => topOk o.top
  | .skqnt o | .sktop o | .sktopC o => topOk o.top
  | .skest o | .skestX o => topOk o.top
  | .tkget o => decide (o.sel.toNat ≤ 8)
  | .drnext o => decide (o.e.toNat ≤ 5)
  | .lpatch o => decide (o.sel.toNat ≤ 7)
  | .chsnd o => scopeOk o.scope
  | .chrcv o => scopeOk o.scope
  | .sysrd o => decide (o.num.toNat ≤ 11)
  | .syswr o => [0, 1, 4, 6, 7].contains o.num.toNat
  | .viadd o | .visub o | .vimul o | .vand o | .vor o | .vxor o | .vshl o | .vshr o | .vsra o
  | .vsel o => v3 o.d o.a o.b
  | .viaddImm o | .visubImm o | .vimulImm o | .vandImm o | .vorImm o | .vxorImm o | .vshlImm o
  | .vshrImm o | .vsraImm o => v2 o.d o.a
  | .vimad o => v3 o.d o.a o.b && vregOk o.c
  | .vcmpEqF o | .vcmpNeF o | .vcmpLtF o | .vcmpLeF o | .vcmpUnF o => v2 o.a o.b
  | .vcmpEq o | .vcmpNe o | .vcmpLt o | .vcmpGe o | .vcmpLtu o | .vcmpGeu o => v2 o.a o.b
  | .vmov o => v2 o.d o.a
  | .vbcst o | .viota o => vregOk o.d
  | .vbcstE o => v2 o.d o.a
  | .vshp a => vregOk a
  | .vmlogCnt o | .vmlogFst o => vregOk o.d
  | .vadd o | .vsub o | .vmul o | .vdiv o => v3 o.d o.a o.b
  | .vmin o | .vmax o => v3 o.d o.a o.b
  | .vsqrt o => v2 o.d o.a
  | .vabs o | .vneg o | .vredxArg o => v2 o.d o.a
  | .vfma o | .vfms o => v3 o.d o.a o.b && vregOk o.c
  | .vrcp o | .vrsq o | .vexp2 o | .vlog2 o | .vsin o | .vcos o | .vsigm o | .vtanh o => v2 o.d o.a
  | .vcvtFf o => v2 o.d o.a && vcvtImm o true true false
      && vcvtRdg o.fmt (o.imm.extractLsb' 0 2) && vcvtRdg o.c (o.imm.extractLsb' 2 2)
  | .vcvtFpToElem o => v2 o.d o.a && vcvtImm o false true true && o.fmt == 0
      && vcvtRdg o.c (o.imm.extractLsb' 2 2)
  | .vcvtElemToFp o => v2 o.d o.a && vcvtImm o true false true && o.c == 0
      && vcvtRdg o.fmt (o.imm.extractLsb' 0 2)
  | .vcvtFpToIntfmt o => v2 o.d o.a && vcvtImm o false true false
      && vcvtRdg o.c (o.imm.extractLsb' 2 2)
  | .vcvtIntfmtToFp o => v2 o.d o.a && vcvtImm o true false false
      && vcvtRdg o.fmt (o.imm.extractLsb' 0 2)
  | .vcvtElemToElem o => v2 o.d o.a && vcvtImm o false false true && o.fmt == 0 && o.rm == 0
      && o.c.extractLsb' 3 2 == 0
  | .vredsF o | .vredsSq o => v2 o.d o.a
  | .vredsI o => v2 o.d o.a
  | .vredxMax o | .vredxMin o => v2 o.d o.a
  | .vredxImax o | .vredxImin o | .vredxUmax o | .vredxUmin o => v2 o.d o.a
  | .hloopV o => hloopOk o.h && (match o.h.cnt with | .reg a => vregOk a | .lit _ => true)
  | .vld o => vregOk o.d && topOk o.top
  | .vldX o => v2 o.d o.a && topOk o.top
  | .vst o => vregOk o.b && topOk o.top
  | .vstX o => v2 o.a o.b && topOk o.top
  | .vgath o => v2 o.d o.b && topOk o.top
  | .vgathQ o => vregOk o.d && decide (o.b.toNat ≤ 1) && topOk o.top
  | .vscat o => v2 o.a o.b && topOk o.top
  | .vacld o | .vacst o => accOk o
  | .vcmpr o | .vexpd o => v2 o.d o.a
  | .vslup o | .vsldn o => v2 o.d o.a && (match o.dist with | .reg b _ => vregOk b | .imm _ => true)
  | .vtrg o => decide (o.w.toNat ≤ 2 ∧ o.a.toNat ≤ 16)
  | .vqpsh o => decide (o.c.toNat ≤ 3 ∧ o.a.toNat + o.c.toNat ≤ 23)
  | .vqpop o => decide (o.c.toNat ≤ 3 ∧ o.d.toNat + o.c.toNat ≤ 23)
  | .vrbal o | .vrbalClr o => vregOk o.d
  | .vskq o => vregOk o.a && topOk o.top
  | .vskh o | .vskd o => vregOk o.a && topOk o.top
  | .vclipq o => v2 o.d o.a && vregOk o.c && o.mode != 3 && topOk o.top
  | .flagsV o => vregOk o.d
  | .mma o | .mmas o => topOk o.vt
  | .mzero o => noShd o.h && o.view == 0
  | .mzeroSet o | .mzeroSetz o => noShd o.h && viewBitsOk o.view
  | .mexp o => topOk o.top && mxfRawOk o
  | .mimp o => topOk o.top && mxfRawOk o && noShd o.h
  | .mnote h | .xnote h => noShd h
  | .snote h => noShd h && decide (h.awc.toNat < 0x10000)
  | .xcpyL o => holdOk o && topOk o.dt && o.st == 0 && o.opnd == 0
  | .xcpyS o => holdOk o && o.dt == 0 && topOk o.st && o.opnd == 0
  | .xcpyT o => holdOk o && topOk o.dt && topOk o.st && o.desc == 0 && o.opnd == 0
  | .xcpyR o => holdOk o && topOk o.dt && o.st == 0 && o.desc == 0 && decide (o.opnd.toNat < 32)
  | .xfil o => holdOk o && topOk o.dt && o.st == 0 && o.desc == 0
  | .xfilM o => descOnly o
  | .xgth o => holdOk o && topOk o.dt && o.st == 0 && decide (o.opnd.toNat < 4096)
      && topOk (o.opnd.setWidth 12)
  | .xsct o => !o.hold && noShd o.h && o.dt == 0 && topOk o.st && decide (o.opnd.toNat < 4096)
      && topOk (o.opnd.setWidth 12)
  | .xmeta o => !o.hold && noShd o.h && o.dt == 0 && o.st == 0 && decide (o.opnd.toNat < 4)
  | .xmetaT o => !o.hold && noShd o.h && o.dt == 0 && topOk o.st && o.desc == 0
      && o.opnd.extractLsb' 2 14 == 0
  | .xrack o | .xfetch o | .xpub o => !o.hold && noShd o.h && decide (o.dt.toNat < 64) && o.st == 0
      && o.desc == 0 && o.opnd == 0
  | .xpubM o => !o.hold && noShd o.h && o.dt == 0 && o.st == 0 && o.opnd == 0
  | .xsend o => !o.hold && o.dt == 0 && topOk o.st && o.desc == 0 && decide (o.opnd.toNat < 32)
  | .xhost o => !o.hold && noShd o.h && o.dt == 0 && topOk o.st && decide (o.opnd.toNat < 0x10000)
  | .sbmp o => sOk o && o.wid == 0
  | .srle o | .sidx o => sOk o && o.wid != 3
  | _ => true

/-- The format fields that R59 checks: 0x18–0x1F raise F_FORMAT (R63, step 6). -/
def Instr.fmts : Instr → List (BitVec 5)
  | .fadd o | .fsub o | .fmul o | .fdiv o | .vadd o | .vsub o | .vmul o | .vdiv o => [o.fmt]
  | .fmin o | .fmax o | .fsgn o | .fsgnN o | .fsgnX o | .vmin o | .vmax o => [o.fmt]
  | .fsqrt o | .fcvtFi o | .fcvtFu o | .fcvtIf o | .fcvtUf o | .vsqrt o => [o.fmt]
  | .ffma o | .vfma o | .vfms o => [o.fmt]
  | .fcmpEq o | .fcmpNe o | .fcmpLt o | .fcmpLe o | .fcmpUn o | .vcmpEqF o | .vcmpNeF o | .vcmpLtF o
  | .vcmpLeF o | .vcmpUnF o => [o.fmt]
  | .fcvtFf o => [o.fmt, o.g]
  | .fclass o | .vabs o | .vneg o | .vredxArg o => [o.fmt]
  | .vrcp o | .vrsq o | .vexp2 o | .vlog2 o | .vsin o | .vcos o | .vsigm o | .vtanh o => [o.fmt]
  | .vcvtFf o | .vcvtFpToIntfmt o | .vcvtIntfmtToFp o => [o.fmt, o.c]
  | .vcvtFpToElem o => [o.c]
  | .vcvtElemToFp o => [o.fmt]
  | .vredsF o | .vredsSq o => [o.fmt]
  | .vredxMax o | .vredxMin o => [o.fmt]
  | .vacld o | .vacst o => [o.fmt]
  | .vskq o => [o.fmt]
  | .vclipq o => [o.fmt]
  | .mexp o | .mimp o => [o.fmt]
  | _ => []

/-- Step 7 of R63: the format codes the instruction accepts; R301 for `MEXP` and `MIMP`. -/
def Instr.fmtsOk : Instr → Bool
  | .vexp2 o | .vlog2 o | .vsin o | .vcos o | .vsigm o | .vtanh o => fpFmtNarrow o.fmt
  | .vcvtFf o => anyFp o.fmt && anyFp o.c
  | .vcvtFpToElem o => anyFp o.c
  | .vcvtElemToFp o => anyFp o.fmt
  | .vcvtFpToIntfmt o => anyFp o.c && anyInt o.fmt
  | .vcvtIntfmtToFp o => anyInt o.c && anyFp o.fmt
  | .vskq o => fpFmtNarrow o.fmt
  | .mexp o | .mimp o => mxfFmtOk o && readingOk o.fmt o.rdg
  | i => i.fmts.all fpFmt

/-- No format field holds a reserved code. -/
def Instr.fmtsKnown (i : Instr) : Bool := i.fmts.all fun f => decide (f.toNat < 0x18)

def coreOk (c : Nat) : Bool := decide (c < 192)
def slotOk (c s : Nat) : Bool := coreOk c && decide (s < 8)
def SlotId.ok (s : SlotId) : Bool := slotOk s.core s.slot
def fnOk (f : Nat) : Bool := decide (f < 129)
def partOk (p : Nat) : Bool := decide (p < 20)
def QueueRef.ok (q : QueueRef) : Bool := fnOk q.fn && decide (q.q < 8)

/-- The names an event carries lie in the module (R1 to R3). -/
def Instr.placeOk : Instr → Bool
  | .mwaitWake o => slotOk o.core o.slot
  | .remoteSealArrival o => coreOk o.core && decide (o.abs < 512)
  | .settlement o => partOk o.part && decide (o.group < 64)
  | .kernelStart o | .mmaStepEnd o | .cpeBurstComplete o | .refireRestart o | .taskStop o | .taskRetire o
  | .taskLaunch o | .dbgHalted o | .dbgStepEnd o | .waitTargetReached o | .setlwDeadline o
  | .chrcvDeadline o => o.ok
  | .coOperativeGroupForm o => o.members.all SlotId.ok && (o.members.length == 2 || o.members.length == 4)
  | .headDecide o | .commandComplete o => slotOk o.core o.slot
  | .draw o | .quantumExpiry o => coreOk o.core
  | .trapEntry o => slotOk o.core o.slot
  | .drainEnd o => slotOk o.core o.slot
  | .packetNop o | .packetArm o | .packetDec o | .packetPatch o | .packetPatcharm o => o.ok
  | .interruptCoalesceTimeout o | .msixUnmask o => fnOk o.fn && decide (o.q < 64)
  | .peerPacketArrival o => fnOk o.fn && decide (o.q < 8)
  | .qtailWrite o | .qcfgWrite o => fnOk o.fn && decide (o.q < 8)
  | .timeTrigger o => partOk o.part && decide (o.idx < 4096)
  | .gateOpen p | .balanceExchange p => partOk p
  | .chunkCut o | .seatTask o | .gangSeat o | .balanceArrival o => partOk o.part && decide (o.die < 4)
  | .rackComplete o | .fetchBackComplete o => coreOk o.core && decide (o.cask < 128)
  | .eccCorrectable o | .eccUncorrectable o => coreOk o.core && decide (o.store < 5)
  | .freezeEnd c => coreOk c
  | .collAdd o | .collAddw o | .collWfwd o | .collMrg o | .collCut o | .collFwd o
  | .collAbortPacket o => fnOk o.fn
  | .collSlotSend o | .collMemberDone o => fnOk o.fn
  | .drrVisit o => fnOk o.fn && decide (o.port < 32)
  | .switchOut f | .switchOutComplete f | .switchIn f | .tlbInvalidationComplete f | .dbgHalt f
  | .dbgResume f | .dbgStep f | .dbgDump f | .dbgSample f | .cntRelease f | .cntClear f
  | .functionReset f | .atsInvalidation f => fnOk f
  | .tlbinvWrite o | .cntClaim o | .traceClaim o | .poolbaseWrite o | .pcfgMaskWrite o
  | .registerWrite o => fnOk o.fn
  | .hostWindowRead o => fnOk o.fn
  | .hostWindowWrite o => fnOk o.fn
  | _ => true

/-- A well-formed instruction, command or event. -/
def Instr.wf (i : Instr) : Bool := i.limitsOk && i.fmtsKnown && i.fmtsOk && i.placeOk

end Sys2Proof
end

