-- ==== Sys2Proof/Decode.lean ====
section
/-! DEFINITION. The instruction words of R50–R69 and the engine commands of R70–R73: fields, the
encoder (`fieldsC`, `fieldsV`, `bitsM`, `bitsX`, `bitsS`) and the decoders, total on any bits. A
decoder builds the instruction that the opcode, length and function name, and refuses the word when
encoding that instruction does not give the word back: so every field that the entry does not use is
checked to be zero (R56) in one place. -/

namespace Sys2Proof

/-- Why a word or command is refused: F_ILLEGAL or F_FORMAT. -/
inductive DecErr where
  | illegal | format
  deriving DecidableEq, Repr

/-- Lengths of R51. -/
inductive Len where
  | k32 | k64 | k96
  deriving DecidableEq, Repr

/-- Bytes of a word. -/
def Len.bytes : Len → Nat
  | .k32 => 4 | .k64 => 8 | .k96 => 12

/-- The fields of R52 and R53. -/
structure Fields where
  len : Len
  op : BitVec 7
  d : Reg
  a : Reg
  b : Reg
  c : Reg
  p : PReg
  pn : Bool
  fn : BitVec 6
  fmt : BitVec 5
  rm : BitVec 2
  ovf : Bool
  sc : Bool
  imm : BitVec 16
  lit : BitVec 32
  deriving DecidableEq, Repr

/-- R51: the length, from the first byte; 11 has none. -/
def lenOf (w : Nat) : Option Len :=
  match w % 4 with
  | 0 => some .k32
  | 1 => some .k64
  | 2 => some .k96
  | _ => none

/-- The fields of a word (R52, R53), bit 0 of `w` being bit 0 of the word. -/
def unpack (l : Len) (w : BitVec 96) : Fields :=
  match l with
  | .k32 =>
    { len := .k32, op := w.extractLsb' 2 7, d := w.extractLsb' 9 5, a := w.extractLsb' 14 5,
      b := w.extractLsb' 19 5, c := 0, p := w.extractLsb' 24 3, pn := w.getLsbD 27,
      fn := (w.extractLsb' 28 4).setWidth 6, fmt := 0, rm := 0, ovf := false, sc := false,
      imm := 0, lit := 0 }
  | l =>
    { len := l, op := w.extractLsb' 2 7, d := w.extractLsb' 9 5, a := w.extractLsb' 14 5,
      b := w.extractLsb' 19 5, c := w.extractLsb' 24 5, p := w.extractLsb' 29 3, pn := w.getLsbD 32,
      fn := w.extractLsb' 33 6, fmt := w.extractLsb' 39 5, rm := w.extractLsb' 44 2,
      ovf := w.getLsbD 46, sc := w.getLsbD 47, imm := w.extractLsb' 48 16,
      lit := match l with | .k96 => w.extractLsb' 64 32 | _ => 0 }

/-- The word with the given fields (R52, R53). -/
def pack (f : Fields) : BitVec 96 :=
  let n := f.op.toNat * 4 + f.d.toNat * 2 ^ 9 + f.a.toNat * 2 ^ 14 + f.b.toNat * 2 ^ 19
  let hi := f.c.toNat * 2 ^ 24 + f.p.toNat * 2 ^ 29 + f.pn.toNat * 2 ^ 32 + f.fn.toNat * 2 ^ 33
    + f.fmt.toNat * 2 ^ 39 + f.rm.toNat * 2 ^ 44 + f.ovf.toNat * 2 ^ 46 + f.sc.toNat * 2 ^ 47
    + f.imm.toNat * 2 ^ 48
  match f.len with
  | .k32 => BitVec.ofNat 96 (n + f.p.toNat * 2 ^ 24 + f.pn.toNat * 2 ^ 27 + (f.fn.toNat % 16) * 2 ^ 28)
  | .k64 => BitVec.ofNat 96 (1 + n + hi)
  | .k96 => BitVec.ofNat 96 (2 + n + hi + f.lit.toNat * 2 ^ 64)

/-! ### Field shapes -/

def f32 (op : BitVec 7) (fn : BitVec 6) (pr : Pred) : Fields :=
  { len := .k32, op := op, d := 0, a := 0, b := 0, c := 0, p := pr.p, pn := pr.pn, fn := fn, fmt := 0,
    rm := 0, ovf := false, sc := false, imm := 0, lit := 0 }
def f64 (op : BitVec 7) (fn : BitVec 6) (pr : Pred) : Fields :=
  { f32 op fn pr with len := .k64 }
def f96 (op : BitVec 7) (fn : BitVec 6) (pr : Pred) : Fields :=
  { f32 op fn pr with len := .k96 }
/-- Never predicated: p and pn are zero. -/
def noPr : Pred := ⟨0, false⟩

/-- K64 with imm16 or K96 with LIT. -/
def fImm (op : BitVec 7) (fn : BitVec 6) (pr : Pred) : Imm → Fields
  | .i16 v => { f64 op fn pr with imm := v }
  | .i32 v => { f96 op fn pr with lit := v }
/-- K64 with a register in field a or K96 with LIT. -/
def fRegA (op : BitVec 7) (fn : BitVec 6) (pr : Pred) : RegLit → Fields
  | .reg a => { f64 op fn pr with a := a }
  | .lit v => { f96 op fn pr with lit := v }
def fWide (op : BitVec 7) (fn : BitVec 6) (pr : Pred) (w : Bool) : Fields :=
  if w then f96 op fn pr else f64 op fn pr
def pz (p : PReg) : Reg := p.setWidth 5
def bz (b : Bool) : BitVec 16 := if b then 1 else 0

def Fields.pr (f : Fields) : Pred := ⟨f.p, f.pn⟩
def Fields.immOp (f : Fields) : Imm :=
  match f.len with | .k96 => .i32 f.lit | _ => .i16 f.imm
def Fields.regLit (f : Fields) : RegLit :=
  match f.len with | .k96 => .lit f.lit | _ => .reg f.a
def Fields.wide (f : Fields) : Bool := f.len == .k96
/-- Bits [lo+n−1:lo] of imm16. -/
def Fields.im (f : Fields) (lo n : Nat) : BitVec n := f.imm.extractLsb' lo n
def Fields.imb (f : Fields) (i : Nat) : Bool := f.imm.getLsbD i
def Fields.off (f : Fields) : Option (BitVec 32) :=
  match f.len with | .k96 => some f.lit | _ => none

def RRR.f (o : RRR) (op : BitVec 7) (fn : BitVec 6) : Fields :=
  { f32 op fn o.pr with d := o.d, a := o.a, b := o.b }
def RRI.f (o : RRI) (op : BitVec 7) (fn : BitVec 6) : Fields :=
  { fImm op fn o.pr o.imm with d := o.d, a := o.a }
def RR.f (o : RR) (op : BitVec 7) (fn : BitVec 6) : Fields :=
  { f32 op fn o.pr with d := o.d, a := o.a }
def FieldOp.f (o : FieldOp) (op : BitVec 7) (fn : BitVec 6) : Fields :=
  { f64 op fn o.pr with
      d := o.d, a := o.a, imm := o.pos.setWidth 16 ||| (o.len.setWidth 16 <<< 6) }
def CmpR.f (o : CmpR) (op : BitVec 7) (fn : BitVec 6) : Fields :=
  { f32 op fn o.pr with d := pz o.d, a := o.a, b := o.b }
def CmpI.f (o : CmpI) (op : BitVec 7) (fn : BitVec 6) : Fields :=
  { fImm op fn o.pr o.imm with d := pz o.d, a := o.a }
def PRRR.f (o : PRRR) (op : BitVec 7) (fn : BitVec 6) : Fields :=
  { f32 op fn o.pr with d := pz o.d, a := pz o.a, b := pz o.b }
def FpRRR.f (o : FpRRR) (op : BitVec 7) (fn : BitVec 6) : Fields :=
  { f64 op fn o.pr with d := o.d, a := o.a, b := o.b, fmt := o.fmt, rm := o.rm, ovf := o.ovf }
def FpRRRx.f (o : FpRRRx) (op : BitVec 7) (fn : BitVec 6) : Fields :=
  { f64 op fn o.pr with d := o.d, a := o.a, b := o.b, fmt := o.fmt }
def FpRR.f (o : FpRR) (op : BitVec 7) (fn : BitVec 6) : Fields :=
  { f64 op fn o.pr with d := o.d, a := o.a, fmt := o.fmt, rm := o.rm, ovf := o.ovf }
def FpRRx.f (o : FpRRx) (op : BitVec 7) (fn : BitVec 6) : Fields :=
  { f64 op fn o.pr with d := o.d, a := o.a, fmt := o.fmt }
def FpRRRR.f (o : FpRRRR) (op : BitVec 7) (fn : BitVec 6) : Fields :=
  { f64 op fn o.pr with d := o.d, a := o.a, b := o.b, c := o.c, fmt := o.fmt, rm := o.rm, ovf := o.ovf }
def FcmpOp.f (o : FcmpOp) (op : BitVec 7) (fn : BitVec 6) : Fields :=
  { f64 op fn o.pr with d := pz o.d, a := o.a, b := o.b, fmt := o.fmt }
def JrOp.f (o : JrOp) (op : BitVec 7) : Fields := { f32 op 0 o.pr with a := o.a }
def HloopOp.f (o : HloopOp) (fn : BitVec 6) : Fields :=
  { fRegA 0x35 fn noPr o.cnt with d := o.id, b := o.b, c := o.c, imm := o.len }
def scRm (f : Fields) (s : Scope) : Fields := { f with rm := s.setWidth 2, sc := s.getLsbD 2 }
def Fields.scope (f : Fields) : Scope := f.rm.setWidth 3 ||| (if f.sc then 4 else 0)
def LdOp.f (o : LdOp) (fn : BitVec 6) : Fields :=
  scRm { fImm 0x40 fn o.pr o.off with d := o.d, a := o.a, c := o.ord.setWidth 5 } o.scope
def StOp.f (o : StOp) (fn : BitVec 6) : Fields :=
  scRm { fImm 0x41 fn o.pr o.off with a := o.a, b := o.b, c := o.ord.setWidth 5 } o.scope
def LdxOp.f (o : LdxOp) (fn : BitVec 6) : Fields :=
  { f64 0x42 fn o.pr with d := o.d, a := o.a, imm := o.imm }
def StxOp.f (o : StxOp) (fn : BitVec 6) : Fields :=
  { f64 0x43 fn o.pr with a := o.a, b := o.b, imm := o.imm }
def AmoOp.f (o : AmoOp) (fn : BitVec 6) : Fields :=
  scRm { f64 0x44 fn o.pr with
           d := o.d, a := o.a, b := o.b, c := o.ord.setWidth 5 ||| (if o.dbl then 4 else 0), imm := o.imm } o.scope
def AcqOp.f (o : AcqOp) (fn : BitVec 6) : Fields :=
  scRm { f64 0x47 fn o.pr with d := o.d, a := o.a, imm := o.imm } o.scope
def NoteOp.f (o : NoteOp) (fn : BitVec 6) : Fields :=
  { f64 0x55 fn o.pr with a := o.a, imm := o.w.setWidth 16 ||| (o.r.setWidth 16 <<< 6) }
def TileDA.f (o : TileDA) (op : BitVec 7) (fn : BitVec 6) : Fields :=
  { f64 op fn o.pr with d := o.d, a := o.a, imm := o.t.setWidth 16 }
def TileA.f (o : TileA) (op : BitVec 7) (fn : BitVec 6) (x : Bool) : Fields :=
  { f64 op fn o.pr with a := o.a, imm := o.t.setWidth 16 ||| (bz x <<< 9) }
def CbadvOp.f (o : CbadvOp) (fn : BitVec 6) : Fields :=
  { f64 0x59 fn o.pr with a := o.a, imm := o.n.setWidth 16 ||| (o.add.setWidth 16 <<< 8) }
def SkqOp.f (o : SkqOp) (fn : BitVec 6) (x : Bool) : Fields :=
  { f64 0x64 fn o.pr with d := o.d, a := o.a, imm := o.top.setWidth 16 ||| (bz x <<< 12) }
def SkestOp.f (o : SkestOp) (x : Bool) : Fields :=
  { f64 0x64 1 o.pr with d := o.d, imm := o.top.setWidth 16 ||| (bz x <<< 12) }
def CursetOp.f (o : CursetOp) (x : Bool) : Fields :=
  { fRegA 0x68 0 o.pr o.amt with b := o.b, imm := o.k.setWidth 16 ||| (bz x <<< 8) }
def LarmOp.f (o : LarmOp) (fn : BitVec 6) : Fields :=
  { fWide 0x69 fn o.pr o.wide with d := o.d, a := o.a, imm := o.imm }
def MLog.f (o : MLog) (fn : BitVec 6) : Fields :=
  { f64 0x0C fn noPr with d := pz o.d, a := pz o.a, b := pz o.b }
def MLogV.f (o : MLogV) (fn : BitVec 6) : Fields := { f64 0x0C fn noPr with d := o.d, a := pz o.a }
def VspecOp.f (o : VspecOp) (fn : BitVec 6) : Fields :=
  { f64 0x22 fn o.pr with d := o.d, a := o.a, fmt := o.fmt, ovf := o.ovf }
def VcvtOp.f (o : VcvtOp) (fn : BitVec 6) : Fields :=
  { f64 0x23 fn o.pr with
      d := o.d, a := o.a, c := o.c, fmt := o.fmt, rm := o.rm, ovf := o.ovf, imm := o.imm }
def VredsOp.f (o : VredsOp) (fn : BitVec 6) : Fields :=
  { f64 0x24 fn o.pr with d := o.d, a := o.a, fmt := o.fmt, rm := o.rm, ovf := o.ovf, sc := o.row }
def VredxOp.f (o : VredxOp) (fn : BitVec 6) : Fields :=
  { f64 0x24 fn o.pr with d := o.d, a := o.a, fmt := o.fmt, sc := o.row }
def VredxIOp.f (o : VredxIOp) (fn : BitVec 6) : Fields :=
  { f64 0x24 fn o.pr with d := o.d, a := o.a, sc := o.row }
/-- The optional LIT offset of R322. -/
def fOff (op : BitVec 7) (fn : BitVec 6) (pr : Pred) (top : BitVec 12) : Option (BitVec 32) → Fields
  | none => { f64 op fn pr with imm := top.setWidth 16 }
  | some v => { f96 op fn pr with imm := top.setWidth 16, lit := v }
def VacOp.imm (o : VacOp) : BitVec 16 :=
  o.view.setWidth 16 ||| (o.afmt.setWidth 16 <<< 3) ||| (o.r0.setWidth 16 <<< 5)
def VslideOp.f (o : VslideOp) (fn : BitVec 6) : Fields :=
  match o.dist with
  | .reg b v => { f64 0x51 fn o.pr with d := o.d, a := o.a, b := b, imm := v }
  | .imm v => { f64 0x51 fn o.pr with d := o.d, a := o.a, sc := true, imm := v }
def VskOp.f (o : VskOp) (fn : BitVec 6) : Fields :=
  { f64 0x60 fn o.pr with a := o.a, imm := o.top.setWidth 16 }

def Fields.rrr (f : Fields) : RRR := ⟨f.pr, f.d, f.a, f.b⟩
def Fields.rri (f : Fields) : RRI := ⟨f.pr, f.d, f.a, f.immOp⟩
def Fields.rr (f : Fields) : RR := ⟨f.pr, f.d, f.a⟩
def Fields.rrrr (f : Fields) : RRRR := ⟨f.pr, f.d, f.a, f.b, f.c⟩
def Fields.field (f : Fields) : FieldOp := ⟨f.pr, f.d, f.a, f.im 0 6, f.im 6 7⟩
def Fields.pd (f : Fields) : PReg := f.d.setWidth 3
def Fields.pa (f : Fields) : PReg := f.a.setWidth 3
def Fields.pb (f : Fields) : PReg := f.b.setWidth 3
def Fields.cmpR (f : Fields) : CmpR := ⟨f.pr, f.pd, f.a, f.b⟩
def Fields.cmpI (f : Fields) : CmpI := ⟨f.pr, f.pd, f.a, f.immOp⟩
def Fields.prrr (f : Fields) : PRRR := ⟨f.pr, f.pd, f.pa, f.pb⟩
def Fields.fpRRR (f : Fields) : FpRRR := ⟨f.pr, f.d, f.a, f.b, f.fmt, f.rm, f.ovf⟩
def Fields.fpRRRx (f : Fields) : FpRRRx := ⟨f.pr, f.d, f.a, f.b, f.fmt⟩
def Fields.fpRR (f : Fields) : FpRR := ⟨f.pr, f.d, f.a, f.fmt, f.rm, f.ovf⟩
def Fields.fpRRx (f : Fields) : FpRRx := ⟨f.pr, f.d, f.a, f.fmt⟩
def Fields.fpRRRR (f : Fields) : FpRRRR := ⟨f.pr, f.d, f.a, f.b, f.c, f.fmt, f.rm, f.ovf⟩
def Fields.fcmp (f : Fields) : FcmpOp := ⟨f.pr, f.pd, f.a, f.b, f.fmt⟩
def Fields.jr (f : Fields) : JrOp := ⟨f.pr, f.a⟩
def Fields.hloop (f : Fields) : HloopOp := ⟨f.d, f.regLit, f.b, f.c, f.imm⟩
def Fields.ld (f : Fields) : LdOp := ⟨f.pr, f.d, f.a, f.c.setWidth 2, f.scope, f.immOp⟩
def Fields.st (f : Fields) : StOp := ⟨f.pr, f.a, f.b, f.c.setWidth 2, f.scope, f.immOp⟩
def Fields.ldx (f : Fields) : LdxOp := ⟨f.pr, f.d, f.a, f.imm⟩
def Fields.stx (f : Fields) : StxOp := ⟨f.pr, f.a, f.b, f.imm⟩
def Fields.amo (f : Fields) : AmoOp :=
  ⟨f.pr, f.d, f.a, f.b, f.c.setWidth 2, f.c.getLsbD 2, f.scope, f.imm⟩
def Fields.acq (f : Fields) : AcqOp := ⟨f.pr, f.d, f.a, f.scope, f.imm⟩
def Fields.note (f : Fields) : NoteOp := ⟨f.pr, f.a, f.im 0 6, f.im 6 6⟩
def Fields.tileDA (f : Fields) : TileDA := ⟨f.pr, f.d, f.a, f.im 0 9⟩
def Fields.tileA (f : Fields) : TileA := ⟨f.pr, f.a, f.im 0 9⟩
def Fields.cbadv (f : Fields) : CbadvOp := ⟨f.pr, f.a, f.im 0 4, f.im 8 8⟩
def Fields.skq (f : Fields) : SkqOp := ⟨f.pr, f.d, f.a, f.im 0 12⟩
def Fields.skest (f : Fields) : SkestOp := ⟨f.pr, f.d, f.im 0 12⟩
def Fields.curset (f : Fields) : CursetOp := ⟨f.pr, f.regLit, f.b, f.im 0 8⟩
def Fields.larm (f : Fields) : LarmOp := ⟨f.pr, f.d, f.a, f.imm, f.wide⟩
def Fields.mlog (f : Fields) : MLog := ⟨f.pd, f.pa, f.pb⟩
def Fields.vspec (f : Fields) : VspecOp := ⟨f.pr, f.d, f.a, f.fmt, f.ovf⟩
def Fields.vcvt (f : Fields) : VcvtOp := ⟨f.pr, f.d, f.a, f.c, f.fmt, f.rm, f.ovf, f.imm⟩
def Fields.vreds (f : Fields) : VredsOp := ⟨f.pr, f.d, f.a, f.fmt, f.rm, f.ovf, f.sc⟩
def Fields.vredx (f : Fields) : VredxOp := ⟨f.pr, f.d, f.a, f.fmt, f.sc⟩
def Fields.vredxI (f : Fields) : VredxIOp := ⟨f.pr, f.d, f.a, f.sc⟩
def Fields.vac (f : Fields) (r : Reg) : VacOp :=
  ⟨f.pr, r, f.c, f.im 0 3, f.im 3 2, f.im 5 7, f.fmt, f.rm, f.ovf⟩
def Fields.vslide (f : Fields) : VslideOp :=
  ⟨f.pr, f.d, f.a, if f.sc then .imm f.imm else .reg f.b f.imm⟩
def Fields.vsk (f : Fields) : VskOp := ⟨f.pr, f.a, f.im 0 12⟩

/-! ### The control stream (R65) -/

/-- The fields of a control-stream instruction's word, as its entry gives them; none for what has no
word there. -/
def fieldsC : Instr → Option Fields
  | .add o => some (o.f 0x1 0)
  | .sub o => some (o.f 0x1 1)
  | .and o => some (o.f 0x1 2)
  | .or o => some (o.f 0x1 3)
  | .xor o => some (o.f 0x1 4)
  | .andn o => some (o.f 0x1 5)
  | .orn o => some (o.f 0x1 6)
  | .shl o => some (o.f 0x1 7)
  | .shr o => some (o.f 0x1 8)
  | .sra o => some (o.f 0x1 9)
  | .rol o => some (o.f 0x1 10)
  | .min o => some (o.f 0x1 11)
  | .max o => some (o.f 0x1 12)
  | .minu o => some (o.f 0x1 13)
  | .maxu o => some (o.f 0x1 14)
  | .addImm o => some (o.f 0x1 0)
  | .subImm o => some (o.f 0x1 1)
  | .andImm o => some (o.f 0x1 2)
  | .orImm o => some (o.f 0x1 3)
  | .xorImm o => some (o.f 0x1 4)
  | .andnImm o => some (o.f 0x1 5)
  | .ornImm o => some (o.f 0x1 6)
  | .shlImm o => some (o.f 0x1 7)
  | .shrImm o => some (o.f 0x1 8)
  | .sraImm o => some (o.f 0x1 9)
  | .rolImm o => some (o.f 0x1 10)
  | .minImm o => some (o.f 0x1 11)
  | .maxImm o => some (o.f 0x1 12)
  | .minuImm o => some (o.f 0x1 13)
  | .maxuImm o => some (o.f 0x1 14)
  | .mul o => some (o.f 0x2 0)
  | .mulh o => some (o.f 0x2 1)
  | .mulhu o => some (o.f 0x2 2)
  | .div o => some (o.f 0x2 3)
  | .divu o => some (o.f 0x2 4)
  | .rem o => some (o.f 0x2 5)
  | .remu o => some (o.f 0x2 6)
  | .mulImm o => some (o.f 0x2 0)
  | .mulhImm o => some (o.f 0x2 1)
  | .mulhuImm o => some (o.f 0x2 2)
  | .divImm o => some (o.f 0x2 3)
  | .divuImm o => some (o.f 0x2 4)
  | .remImm o => some (o.f 0x2 5)
  | .remuImm o => some (o.f 0x2 6)
  | .clz o => some (o.f 0x3 0)
  | .ctz o => some (o.f 0x3 1)
  | .popc o => some (o.f 0x3 2)
  | .brev o => some (o.f 0x3 3)
  | .mov o => some (o.f 0x3 4)
  | .sext o => some (o.f 0x4 0)
  | .zext o => some (o.f 0x4 1)
  | .bext o => some (o.f 0x4 2)
  | .bins o => some (o.f 0x4 3)
  | .li o => some ({ f64 0x5 0 o.pr with d := o.d, imm := o.imm })
  | .liHi o => some ({ f96 0x5 0 o.pr with d := o.d, lit := o.lit, sc := true })
  | .liK96 o => some ({ f96 0x5 0 o.pr with d := o.d, lit := o.lit })
  | .sel o => some (o.f 0x6 0)
  | .lea o => some (o.f 0x7 0)
  | .leaImm o => some (o.f 0x7 0)
  | .cmpEq o => some (o.f 0x8 0)
  | .cmpNe o => some (o.f 0x8 1)
  | .cmpLt o => some (o.f 0x8 2)
  | .cmpGe o => some (o.f 0x8 3)
  | .cmpLtu o => some (o.f 0x8 4)
  | .cmpGeu o => some (o.f 0x8 5)
  | .cmpEqImm o => some (o.f 0x8 0)
  | .cmpNeImm o => some (o.f 0x8 1)
  | .cmpLtImm o => some (o.f 0x8 2)
  | .cmpGeImm o => some (o.f 0x8 3)
  | .cmpLtuImm o => some (o.f 0x8 4)
  | .cmpGeuImm o => some (o.f 0x8 5)
  | .pand o => some (o.f 0x9 0)
  | .por o => some (o.f 0x9 1)
  | .pxor o => some (o.f 0x9 2)
  | .pnot o => some ({ f32 0x9 3 o.pr with d := pz o.d, a := pz o.a })
  | .fadd o => some (o.f 0x20 0)
  | .fsub o => some (o.f 0x20 1)
  | .fmul o => some (o.f 0x20 2)
  | .fdiv o => some (o.f 0x20 3)
  | .fmin o => some (o.f 0x20 4)
  | .fmax o => some (o.f 0x20 5)
  | .fsqrt o => some (o.f 0x20 6)
  | .ffma o => some (o.f 0x21 0)
  | .fcmpEq o => some (o.f 0x22 0)
  | .fcmpNe o => some (o.f 0x22 1)
  | .fcmpLt o => some (o.f 0x22 2)
  | .fcmpLe o => some (o.f 0x22 3)
  | .fcmpUn o => some (o.f 0x22 4)
  | .fcvtFf o =>
    some ({ f64 0x23 0 o.pr with d := o.d, a := o.a, c := o.g, fmt := o.fmt, rm := o.rm, ovf := o.ovf })
  | .fcvtFi o => some (o.f 0x23 1)
  | .fcvtFu o => some (o.f 0x23 2)
  | .fcvtIf o => some (o.f 0x23 3)
  | .fcvtUf o => some (o.f 0x23 4)
  | .fclass o => some (o.f 0x24 0)
  | .fsgn o => some (o.f 0x24 1)
  | .fsgnN o => some (o.f 0x24 2)
  | .fsgnX o => some (o.f 0x24 3)
  | .bp o => some (fImm 0x30 0 o.pr o.off)
  | .jr o => some (o.f 0x31)
  | .call o => some ({ fImm 0x32 0 o.pr o.off with d := o.d })
  | .callr o => some (o.f 0x33 0)
  | .ret o => some (o.f 0x34)
  | .hloop o => some (o.f 0)
  | .hloopNp o => some (o.f 1)
  | .ldB o => some (o.f 0)
  | .ldH o => some (o.f 1)
  | .ldW o => some (o.f 2)
  | .ldD o => some (o.f 3)
  | .ldBu o => some (o.f 4)
  | .ldHu o => some (o.f 5)
  | .ldWu o => some (o.f 6)
  | .stB o => some (o.f 0)
  | .stH o => some (o.f 1)
  | .stW o => some (o.f 2)
  | .stD o => some (o.f 3)
  | .ldxB o => some (o.f 0)
  | .ldxH o => some (o.f 1)
  | .ldxW o => some (o.f 2)
  | .ldxD o => some (o.f 3)
  | .stxB o => some (o.f 0)
  | .stxH o => some (o.f 1)
  | .stxW o => some (o.f 2)
  | .stxD o => some (o.f 3)
  | .amoAdd o => some (o.f 0)
  | .amoAnd o => some (o.f 1)
  | .amoOr o => some (o.f 2)
  | .amoXor o => some (o.f 3)
  | .amoMin o => some (o.f 4)
  | .amoMax o => some (o.f 5)
  | .amoMinu o => some (o.f 6)
  | .amoMaxu o => some (o.f 7)
  | .amoXchg o => some (o.f 8)
  | .cas o =>
    some (scRm { f64 0x45 0 o.pr with d := o.d, a := o.a, b := o.b, c := o.c, imm := o.ord.setWidth 16 ||| (bz o.dbl <<< 2) } o.scope)
  | .fenceAq o => some (scRm (f64 0x46 0 o.pr) o.scope)
  | .fenceRl o => some (scRm (f64 0x46 1 o.pr) o.scope)
  | .fenceAr o => some (scRm (f64 0x46 2 o.pr) o.scope)
  | .fenceSc o => some (scRm (f64 0x46 3 o.pr) o.scope)
  | .acq o => some (o.f 0)
  | .rel o => some (o.f 1)
  | .tryacq o => some (o.f 2)
  | .mon o => some ({ f64 0x48 0 o.pr with a := o.a, imm := o.imm })
  | .mwait o => some ({ f64 0x48 1 o.pr with d := o.d, a := o.a })
  | .bar o =>
    some (scRm { f64 0x49 0 o.pr with d := o.d, a := o.a, imm := o.b.setWidth 16 } o.scope)
  | .mset o =>
    some ({ fRegA 0x50 0 o.pr o.val with imm := o.set.setWidth 16 ||| (o.row.setWidth 16 <<< 1) })
  | .msetG o =>
    some ({ fRegA 0x50 1 o.pr o.val with imm := o.g.setWidth 16 ||| (o.w.setWidth 16 <<< 4) })
  | .mgo o => some ({ f64 0x51 0 o.pr with a := o.a, b := o.b })
  | .xpsh o =>
    some (match o.lit with | none => { f64 0x52 0 o.pr with a := o.a, b := o.b } | some v => { f96 0x52 0 o.pr with a := o.a, b := o.b, lit := v })
  | .vgo o =>
    some (match o.lit with | none => { f64 0x53 0 o.pr with a := o.a, b := o.b } | some v => { f96 0x53 0 o.pr with a := o.a, b := o.b, lit := v })
  | .sgo o => some ({ f64 0x54 0 o.pr with a := o.a })
  | .noteC o => some (o.f 0)
  | .noteM o => some (o.f 2)
  | .noteX o => some (o.f 3)
  | .noteS o => some (o.f 4)
  | .semr o => some ({ f64 0x56 0 o.pr with imm := o.s.setWidth 16 })
  | .semw o => some ({ f64 0x56 1 o.pr with d := o.d, a := o.a, imm := o.s.setWidth 16 })
  | .gset o => some ({ f64 0x57 0 o.pr with b := pz o.b, imm := o.g.setWidth 16 })
  | .gsetN o => some ({ f64 0x57 1 o.pr with b := pz o.b, imm := o.g.setWidth 16 })
  | .gsetX o => some ({ f64 0x57 2 o.pr with a := o.a, imm := o.g.setWidth 16 })
  | .gsetClr o => some ({ f64 0x57 3 o.pr with imm := o.g.setWidth 16 })
  | .tstat o => some (o.f 0x58 0)
  | .tfreeU o => some (o.f 0x58 1 true)
  | .tfree o => some (o.f 0x58 1 false)
  | .tbind o => some ({ f64 0x58 2 o.pr with d := o.d, a := o.a, b := o.b, imm := o.o })
  | .cbdef o =>
    some ({ f64 0x59 0 o.pr with imm := o.n.setWidth 16 ||| (o.t.setWidth 16 <<< 4) ||| (o.depth.setWidth 16 <<< 10) })
  | .cbdefT o =>
    some ({ fRegA 0x59 1 o.pr o.val with imm := o.t.setWidth 16 ||| (o.cnt.setWidth 16 <<< 6) })
  | .cbadvP o => some (o.f 2)
  | .cbadvC o => some (o.f 3)
  | .cbqry o => some ({ f64 0x59 4 o.pr with d := o.d, imm := o.n.setWidth 16 })
  | .ckpinClr o => some (o.f 0x5A 0 true)
  | .ckpin o => some (o.f 0x5A 0 false)
  | .cktkt o => some (o.f 0x5A 1)
  | .pubv o => some ({ f64 0x60 0 o.pr with d := o.d, imm := o.t.setWidth 16 })
  | .sealR o => some ({ f64 0x60 1 o.pr with d := o.d, c := o.c, sc := true })
  | .seal o => some ({ f64 0x60 1 o.pr with d := o.d, imm := o.t.setWidth 16 })
  | .tasteR o =>
    some ({ f64 0x61 0 o.pr with d := o.d, a := o.a, b := o.b, c := o.c, sc := true, imm := (o.e.setWidth 16 <<< 6) ||| (bz o.fin <<< 9) })
  | .taste o =>
    some ({ f64 0x61 0 o.pr with d := o.d, a := o.a, b := o.b, imm := o.t.setWidth 16 ||| (o.e.setWidth 16 <<< 6) ||| (bz o.fin <<< 9) })
  | .vnqR o => some ({ f64 0x61 1 o.pr with d := o.d, c := o.c, sc := true })
  | .vnqE o => some ({ f64 0x61 1 o.pr with d := o.d, imm := (o.e.setWidth 16 <<< 6) ||| 0x8000 })
  | .vnq o => some ({ f64 0x61 1 o.pr with d := o.d, imm := o.t.setWidth 16 })
  | .setdef o =>
    some ({ f64 0x62 0 o.pr with d := o.d, a := o.a, b := o.b, imm := o.g.setWidth 16 })
  | .setlw o => some ({ f64 0x62 1 o.pr with d := o.d, a := o.a, imm := o.g.setWidth 16 })
  | .skinit o =>
    some ({ f64 0x63 0 o.pr with a := o.a, imm := o.top.setWidth 16 ||| (o.kind.setWidth 16 <<< 12) })
  | .skmrgR o => some ({ f64 0x63 1 o.pr with c := o.c, sc := true, imm := o.top.setWidth 16 })
  | .skmrg o => some ({ f64 0x63 1 o.pr with a := o.a, imm := o.top.setWidth 16 })
  | .skqnt o => some (o.f 0 false)
  | .skestX o => some (o.f true)
  | .skest o => some (o.f false)
  | .sktopC o => some (o.f 2 true)
  | .sktop o => some (o.f 2 false)
  | .tksetT o => some ({ fRegA 0x65 0 o.pr o.amt with b := o.b, imm := o.t.setWidth 16 ||| 0x200 })
  | .tkset o => some ({ fRegA 0x65 0 o.pr o.amt with b := o.b })
  | .tkget o =>
    some ({ fWide 0x65 1 o.pr o.wide with d := o.d, a := o.a, imm := o.sel.setWidth 16 })
  | .yield o => some ({ fWide 0x66 0 o.pr o.wide with imm := o.mask.setWidth 16 })
  | .drseed o =>
    some (match o.src with | .sum a v => { f64 0x67 0 o.pr with a := a, imm := v } | .lit v => { f96 0x67 0 o.pr with lit := v })
  | .drnext o => some ({ fWide 0x67 1 o.pr o.wide with d := o.d, imm := o.e.setWidth 16 })
  | .cursetClr o => some (o.f true)
  | .curset o => some (o.f false)
  | .curiss o => some ({ fRegA 0x68 1 o.pr o.amt with imm := o.k.setWidth 16 })
  | .larm o => some (o.f 0)
  | .lpatch o =>
    some (match o.val with | .reg b => { f64 0x69 1 o.pr with d := o.d, a := o.a, b := b, c := o.sel, imm := o.imm } | .lit v => { f96 0x69 1 o.pr with d := o.d, a := o.a, c := o.sel, imm := o.imm, lit := v })
  | .lsend o => some ({ fWide 0x69 2 o.pr o.wide with d := o.d, a := o.a, c := o.c })
  | .lqry o => some (o.f 3)
  | .chsnd o =>
    some (scRm { f64 0x6A 0 o.pr with d := o.d, a := o.a, c := o.c, imm := o.imm } o.scope)
  | .chrcv o =>
    some (scRm { f64 0x6A 1 o.pr with d := o.d, a := o.a, b := o.b, c := o.c, imm := o.imm } o.scope)
  | .chcapRd o => some ({ f64 0x6A 2 o.pr with d := o.d, c := o.c, imm := bz o.w <<< 2 })
  | .chcapNar o => some ({ f64 0x6A 2 o.pr with d := o.d, a := o.a, b := o.b, c := o.c, imm := 1 })
  | .chcapClr o => some ({ f64 0x6A 2 o.pr with c := o.c, imm := 2 })
  | .pubh o => some ({ f64 0x6B 0 o.pr with d := o.d, a := o.a, imm := o.imm, sc := o.irq })
  | .coll o => some ({ fImm 0x6C 0 o.pr o.off with d := o.d, a := o.a })
  | .collAbt o => some ({ f64 0x6C 1 o.pr with d := o.d, a := o.a })
  | .trap o => some ({ f64 0x70 0 o.pr with imm := o.imm })
  | .eret o => some (f32 0x71 0 o)
  | .sysrd o => some ({ f64 0x72 0 o.pr with d := o.d, imm := o.num })
  | .syswr o => some ({ f64 0x72 1 o.pr with a := o.a, imm := o.num })
  | .tfence o => some (f32 0x73 0 o)
  | .flags o => some ({ f32 0x74 0 o.pr with d := o.d })
  | .brk o => some (f32 0x75 0 o)
  | .halt o => some (f32 0x76 0 o)
  | .nop o => some (f32 0x77 0 o)
  | .wait o => some ({ f64 0x78 0 o.pr with d := o.d, a := o.a, imm := o.imm })
  | _ => none

/-- Major opcode 0x01. -/
def buildC01 (f : Fields) : Option Instr :=
  match f.len, f.fn.toNat with
  | .k32, 0 => some (.add f.rrr)
  | .k64, 0 | .k96, 0 => some (.addImm f.rri)
  | .k32, 1 => some (.sub f.rrr)
  | .k64, 1 | .k96, 1 => some (.subImm f.rri)
  | .k32, 2 => some (.and f.rrr)
  | .k64, 2 | .k96, 2 => some (.andImm f.rri)
  | .k32, 3 => some (.or f.rrr)
  | .k64, 3 | .k96, 3 => some (.orImm f.rri)
  | .k32, 4 => some (.xor f.rrr)
  | .k64, 4 | .k96, 4 => some (.xorImm f.rri)
  | .k32, 5 => some (.andn f.rrr)
  | .k64, 5 | .k96, 5 => some (.andnImm f.rri)
  | .k32, 6 => some (.orn f.rrr)
  | .k64, 6 | .k96, 6 => some (.ornImm f.rri)
  | .k32, 7 => some (.shl f.rrr)
  | .k64, 7 | .k96, 7 => some (.shlImm f.rri)
  | .k32, 8 => some (.shr f.rrr)
  | .k64, 8 | .k96, 8 => some (.shrImm f.rri)
  | .k32, 9 => some (.sra f.rrr)
  | .k64, 9 | .k96, 9 => some (.sraImm f.rri)
  | .k32, 10 => some (.rol f.rrr)
  | .k64, 10 | .k96, 10 => some (.rolImm f.rri)
  | .k32, 11 => some (.min f.rrr)
  | .k64, 11 | .k96, 11 => some (.minImm f.rri)
  | .k32, 12 => some (.max f.rrr)
  | .k64, 12 | .k96, 12 => some (.maxImm f.rri)
  | .k32, 13 => some (.minu f.rrr)
  | .k64, 13 | .k96, 13 => some (.minuImm f.rri)
  | .k32, 14 => some (.maxu f.rrr)
  | .k64, 14 | .k96, 14 => some (.maxuImm f.rri)
  | _, _ => none

/-- Major opcode 0x02. -/
def buildC02 (f : Fields) : Option Instr :=
  match f.len, f.fn.toNat with
  | .k32, 0 => some (.mul f.rrr)
  | .k64, 0 | .k96, 0 => some (.mulImm f.rri)
  | .k32, 1 => some (.mulh f.rrr)
  | .k64, 1 | .k96, 1 => some (.mulhImm f.rri)
  | .k32, 2 => some (.mulhu f.rrr)
  | .k64, 2 | .k96, 2 => some (.mulhuImm f.rri)
  | .k32, 3 => some (.div f.rrr)
  | .k64, 3 | .k96, 3 => some (.divImm f.rri)
  | .k32, 4 => some (.divu f.rrr)
  | .k64, 4 | .k96, 4 => some (.divuImm f.rri)
  | .k32, 5 => some (.rem f.rrr)
  | .k64, 5 | .k96, 5 => some (.remImm f.rri)
  | .k32, 6 => some (.remu f.rrr)
  | .k64, 6 | .k96, 6 => some (.remuImm f.rri)
  | _, _ => none

/-- Major opcode 0x03. -/
def buildC03 (f : Fields) : Option Instr :=
  match f.len, f.fn.toNat with
  | .k32, 0 => some (.clz f.rr)
  | .k32, 1 => some (.ctz f.rr)
  | .k32, 2 => some (.popc f.rr)
  | .k32, 3 => some (.brev f.rr)
  | .k32, 4 => some (.mov f.rr)
  | _, _ => none

/-- Major opcode 0x04. -/
def buildC04 (f : Fields) : Option Instr :=
  match f.len, f.fn.toNat with
  | .k64, 0 => some (.sext f.field)
  | .k64, 1 => some (.zext f.field)
  | .k64, 2 => some (.bext f.field)
  | .k64, 3 => some (.bins f.field)
  | _, _ => none

/-- Major opcode 0x05. -/
def buildC05 (f : Fields) : Option Instr :=
  match f.len, f.fn.toNat with
  | .k64, 0 => some (.li ⟨f.pr, f.d, f.imm⟩)
  | .k96, 0 => if f.sc then some (.liHi ⟨f.pr, f.d, f.lit⟩) else some (.liK96 ⟨f.pr, f.d, f.lit⟩)
  | _, _ => none

/-- Major opcode 0x06. -/
def buildC06 (f : Fields) : Option Instr :=
  match f.len, f.fn.toNat with
  | .k32, 0 => some (.sel f.rrr)
  | _, _ => none

/-- Major opcode 0x07. -/
def buildC07 (f : Fields) : Option Instr :=
  match f.len, f.fn.toNat with
  | .k32, 0 => some (.lea f.rrr)
  | .k64, 0 | .k96, 0 => some (.leaImm f.rri)
  | _, _ => none

/-- Major opcode 0x08. -/
def buildC08 (f : Fields) : Option Instr :=
  match f.len, f.fn.toNat with
  | .k32, 0 => some (.cmpEq f.cmpR)
  | .k64, 0 | .k96, 0 => some (.cmpEqImm f.cmpI)
  | .k32, 1 => some (.cmpNe f.cmpR)
  | .k64, 1 | .k96, 1 => some (.cmpNeImm f.cmpI)
  | .k32, 2 => some (.cmpLt f.cmpR)
  | .k64, 2 | .k96, 2 => some (.cmpLtImm f.cmpI)
  | .k32, 3 => some (.cmpGe f.cmpR)
  | .k64, 3 | .k96, 3 => some (.cmpGeImm f.cmpI)
  | .k32, 4 => some (.cmpLtu f.cmpR)
  | .k64, 4 | .k96, 4 => some (.cmpLtuImm f.cmpI)
  | .k32, 5 => some (.cmpGeu f.cmpR)
  | .k64, 5 | .k96, 5 => some (.cmpGeuImm f.cmpI)
  | _, _ => none

/-- Major opcode 0x09. -/
def buildC09 (f : Fields) : Option Instr :=
  match f.len, f.fn.toNat with
  | .k32, 0 => some (.pand f.prrr)
  | .k32, 1 => some (.por f.prrr)
  | .k32, 2 => some (.pxor f.prrr)
  | .k32, 3 => some (.pnot ⟨f.pr, f.pd, f.pa⟩)
  | _, _ => none

/-- Major opcode 0x20. -/
def buildC20 (f : Fields) : Option Instr :=
  match f.len, f.fn.toNat with
  | .k64, 0 => some (.fadd f.fpRRR)
  | .k64, 1 => some (.fsub f.fpRRR)
  | .k64, 2 => some (.fmul f.fpRRR)
  | .k64, 3 => some (.fdiv f.fpRRR)
  | .k64, 4 => some (.fmin f.fpRRRx)
  | .k64, 5 => some (.fmax f.fpRRRx)
  | .k64, 6 => some (.fsqrt f.fpRR)
  | _, _ => none

/-- Major opcode 0x21. -/
def buildC21 (f : Fields) : Option Instr :=
  match f.len, f.fn.toNat with
  | .k64, 0 => some (.ffma f.fpRRRR)
  | _, _ => none

/-- Major opcode 0x22. -/
def buildC22 (f : Fields) : Option Instr :=
  match f.len, f.fn.toNat with
  | .k64, 0 => some (.fcmpEq f.fcmp)
  | .k64, 1 => some (.fcmpNe f.fcmp)
  | .k64, 2 => some (.fcmpLt f.fcmp)
  | .k64, 3 => some (.fcmpLe f.fcmp)
  | .k64, 4 => some (.fcmpUn f.fcmp)
  | _, _ => none

/-- Major opcode 0x23. -/
def buildC23 (f : Fields) : Option Instr :=
  match f.len, f.fn.toNat with
  | .k64, 0 => some (.fcvtFf ⟨f.pr, f.d, f.a, f.c, f.fmt, f.rm, f.ovf⟩)
  | .k64, 1 => some (.fcvtFi f.fpRR)
  | .k64, 2 => some (.fcvtFu f.fpRR)
  | .k64, 3 => some (.fcvtIf f.fpRR)
  | .k64, 4 => some (.fcvtUf f.fpRR)
  | _, _ => none

/-- Major opcode 0x24. -/
def buildC24 (f : Fields) : Option Instr :=
  match f.len, f.fn.toNat with
  | .k64, 0 => some (.fclass f.fpRRx)
  | .k64, 1 => some (.fsgn f.fpRRRx)
  | .k64, 2 => some (.fsgnN f.fpRRRx)
  | .k64, 3 => some (.fsgnX f.fpRRRx)
  | _, _ => none

/-- Major opcode 0x30. -/
def buildC30 (f : Fields) : Option Instr :=
  match f.len, f.fn.toNat with
  | .k64, 0 | .k96, 0 => some (.bp ⟨f.pr, f.immOp⟩)
  | _, _ => none

/-- Major opcode 0x31. -/
def buildC31 (f : Fields) : Option Instr :=
  match f.len, f.fn.toNat with
  | .k32, 0 => some (.jr f.jr)
  | _, _ => none

/-- Major opcode 0x32. -/
def buildC32 (f : Fields) : Option Instr :=
  match f.len, f.fn.toNat with
  | .k64, 0 | .k96, 0 => some (.call ⟨f.pr, f.d, f.immOp⟩)
  | _, _ => none

/-- Major opcode 0x33. -/
def buildC33 (f : Fields) : Option Instr :=
  match f.len, f.fn.toNat with
  | .k32, 0 => some (.callr f.rr)
  | _, _ => none

/-- Major opcode 0x34. -/
def buildC34 (f : Fields) : Option Instr :=
  match f.len, f.fn.toNat with
  | .k32, 0 => some (.ret f.jr)
  | _, _ => none

/-- Major opcode 0x35. -/
def buildC35 (f : Fields) : Option Instr :=
  match f.len, f.fn.toNat with
  | .k64, 0 | .k96, 0 => some (.hloop f.hloop)
  | .k64, 1 | .k96, 1 => some (.hloopNp f.hloop)
  | _, _ => none

/-- Major opcode 0x40. -/
def buildC40 (f : Fields) : Option Instr :=
  match f.len, f.fn.toNat with
  | .k64, 0 | .k96, 0 => some (.ldB f.ld)
  | .k64, 1 | .k96, 1 => some (.ldH f.ld)
  | .k64, 2 | .k96, 2 => some (.ldW f.ld)
  | .k64, 3 | .k96, 3 => some (.ldD f.ld)
  | .k64, 4 | .k96, 4 => some (.ldBu f.ld)
  | .k64, 5 | .k96, 5 => some (.ldHu f.ld)
  | .k64, 6 | .k96, 6 => some (.ldWu f.ld)
  | _, _ => none

/-- Major opcode 0x41. -/
def buildC41 (f : Fields) : Option Instr :=
  match f.len, f.fn.toNat with
  | .k64, 0 | .k96, 0 => some (.stB f.st)
  | .k64, 1 | .k96, 1 => some (.stH f.st)
  | .k64, 2 | .k96, 2 => some (.stW f.st)
  | .k64, 3 | .k96, 3 => some (.stD f.st)
  | _, _ => none

/-- Major opcode 0x42. -/
def buildC42 (f : Fields) : Option Instr :=
  match f.len, f.fn.toNat with
  | .k64, 0 => some (.ldxB f.ldx)
  | .k64, 1 => some (.ldxH f.ldx)
  | .k64, 2 => some (.ldxW f.ldx)
  | .k64, 3 => some (.ldxD f.ldx)
  | _, _ => none

/-- Major opcode 0x43. -/
def buildC43 (f : Fields) : Option Instr :=
  match f.len, f.fn.toNat with
  | .k64, 0 => some (.stxB f.stx)
  | .k64, 1 => some (.stxH f.stx)
  | .k64, 2 => some (.stxW f.stx)
  | .k64, 3 => some (.stxD f.stx)
  | _, _ => none

/-- Major opcode 0x44. -/
def buildC44 (f : Fields) : Option Instr :=
  match f.len, f.fn.toNat with
  | .k64, 0 => some (.amoAdd f.amo)
  | .k64, 1 => some (.amoAnd f.amo)
  | .k64, 2 => some (.amoOr f.amo)
  | .k64, 3 => some (.amoXor f.amo)
  | .k64, 4 => some (.amoMin f.amo)
  | .k64, 5 => some (.amoMax f.amo)
  | .k64, 6 => some (.amoMinu f.amo)
  | .k64, 7 => some (.amoMaxu f.amo)
  | .k64, 8 => some (.amoXchg f.amo)
  | _, _ => none

/-- Major opcode 0x45. -/
def buildC45 (f : Fields) : Option Instr :=
  match f.len, f.fn.toNat with
  | .k64, 0 => some (.cas ⟨f.pr, f.d, f.a, f.b, f.c, f.im 0 2, f.imb 2, f.scope⟩)
  | _, _ => none

/-- Major opcode 0x46. -/
def buildC46 (f : Fields) : Option Instr :=
  match f.len, f.fn.toNat with
  | .k64, 0 => some (.fenceAq ⟨f.pr, f.scope⟩)
  | .k64, 1 => some (.fenceRl ⟨f.pr, f.scope⟩)
  | .k64, 2 => some (.fenceAr ⟨f.pr, f.scope⟩)
  | .k64, 3 => some (.fenceSc ⟨f.pr, f.scope⟩)
  | _, _ => none

/-- Major opcode 0x47. -/
def buildC47 (f : Fields) : Option Instr :=
  match f.len, f.fn.toNat with
  | .k64, 0 => some (.acq f.acq)
  | .k64, 1 => some (.rel f.acq)
  | .k64, 2 => some (.tryacq f.acq)
  | _, _ => none

/-- Major opcode 0x48. -/
def buildC48 (f : Fields) : Option Instr :=
  match f.len, f.fn.toNat with
  | .k64, 0 => some (.mon ⟨f.pr, f.a, f.imm⟩)
  | .k64, 1 => some (.mwait f.rr)
  | _, _ => none

/-- Major opcode 0x49. -/
def buildC49 (f : Fields) : Option Instr :=
  match f.len, f.fn.toNat with
  | .k64, 0 => some (.bar ⟨f.pr, f.d, f.a, f.scope, f.im 0 8⟩)
  | _, _ => none

/-- Major opcode 0x50. -/
def buildC50 (f : Fields) : Option Instr :=
  match f.len, f.fn.toNat with
  | .k64, 0 | .k96, 0 => some (.mset ⟨f.pr, f.im 0 1, f.im 1 3, f.regLit⟩)
  | .k64, 1 | .k96, 1 => some (.msetG ⟨f.pr, f.im 0 4, f.im 4 2, f.regLit⟩)
  | _, _ => none

/-- Major opcode 0x51. -/
def buildC51 (f : Fields) : Option Instr :=
  match f.len, f.fn.toNat with
  | .k64, 0 => some (.mgo ⟨f.pr, f.a, f.b⟩)
  | _, _ => none

/-- Major opcode 0x52. -/
def buildC52 (f : Fields) : Option Instr :=
  match f.len, f.fn.toNat with
  | .k64, 0 | .k96, 0 => some (.xpsh ⟨f.pr, f.a, f.b, f.off⟩)
  | _, _ => none

/-- Major opcode 0x53. -/
def buildC53 (f : Fields) : Option Instr :=
  match f.len, f.fn.toNat with
  | .k64, 0 | .k96, 0 => some (.vgo ⟨f.pr, f.a, f.b, f.off⟩)
  | _, _ => none

/-- Major opcode 0x54. -/
def buildC54 (f : Fields) : Option Instr :=
  match f.len, f.fn.toNat with
  | .k64, 0 => some (.sgo f.jr)
  | _, _ => none

/-- Major opcode 0x55. -/
def buildC55 (f : Fields) : Option Instr :=
  match f.len, f.fn.toNat with
  | .k64, 0 => some (.noteC f.note)
  | .k64, 2 => some (.noteM f.note)
  | .k64, 3 => some (.noteX f.note)
  | .k64, 4 => some (.noteS f.note)
  | _, _ => none

/-- Major opcode 0x56. -/
def buildC56 (f : Fields) : Option Instr :=
  match f.len, f.fn.toNat with
  | .k64, 0 => some (.semr ⟨f.pr, f.im 0 6⟩)
  | .k64, 1 => some (.semw ⟨f.pr, f.d, f.a, f.im 0 6⟩)
  | _, _ => none

/-- Major opcode 0x57. -/
def buildC57 (f : Fields) : Option Instr :=
  match f.len, f.fn.toNat with
  | .k64, 0 => some (.gset ⟨f.pr, f.pb, f.im 0 6⟩)
  | .k64, 1 => some (.gsetN ⟨f.pr, f.pb, f.im 0 6⟩)
  | .k64, 2 => some (.gsetX ⟨f.pr, f.a, f.im 0 6⟩)
  | .k64, 3 => some (.gsetClr ⟨f.pr, f.im 0 6⟩)
  | _, _ => none

/-- Major opcode 0x58. -/
def buildC58 (f : Fields) : Option Instr :=
  match f.len, f.fn.toNat with
  | .k64, 0 => some (.tstat f.tileDA)
  | .k64, 1 => if f.imb 9 then some (.tfreeU f.tileA) else some (.tfree f.tileA)
  | .k64, 2 => some (.tbind ⟨f.pr, f.d, f.a, f.b, f.imm⟩)
  | _, _ => none

/-- Major opcode 0x59. -/
def buildC59 (f : Fields) : Option Instr :=
  match f.len, f.fn.toNat with
  | .k64, 0 => some (.cbdef ⟨f.pr, f.im 0 4, f.im 4 6, f.im 10 6⟩)
  | .k64, 1 | .k96, 1 => some (.cbdefT ⟨f.pr, f.im 0 6, f.im 6 6, f.regLit⟩)
  | .k64, 2 => some (.cbadvP f.cbadv)
  | .k64, 3 => some (.cbadvC f.cbadv)
  | .k64, 4 => some (.cbqry ⟨f.pr, f.d, f.im 0 4⟩)
  | _, _ => none

/-- Major opcode 0x5a. -/
def buildC5a (f : Fields) : Option Instr :=
  match f.len, f.fn.toNat with
  | .k64, 0 => if f.imb 9 then some (.ckpinClr f.tileA) else some (.ckpin f.tileA)
  | .k64, 1 => some (.cktkt f.tileDA)
  | _, _ => none

/-- Major opcode 0x60. -/
def buildC60 (f : Fields) : Option Instr :=
  match f.len, f.fn.toNat with
  | .k64, 0 => some (.pubv ⟨f.pr, f.d, f.im 0 6⟩)
  | .k64, 1 => if f.sc then some (.sealR ⟨f.pr, f.d, f.c⟩) else some (.seal ⟨f.pr, f.d, f.im 0 6⟩)
  | _, _ => none

/-- Major opcode 0x61. -/
def buildC61 (f : Fields) : Option Instr :=
  match f.len, f.fn.toNat with
  | .k64, 0 =>
    if f.sc then some (.tasteR ⟨f.pr, f.d, f.a, f.b, f.c, f.im 6 3, f.imb 9⟩) else some (.taste ⟨f.pr, f.d, f.a, f.b, f.im 0 6, f.im 6 3, f.imb 9⟩)
  | .k64, 1 =>
    if f.sc then some (.vnqR ⟨f.pr, f.d, f.c⟩) else if !f.sc && f.imb 15 then some (.vnqE ⟨f.pr, f.d, f.im 6 3⟩) else some (.vnq ⟨f.pr, f.d, f.im 0 6⟩)
  | _, _ => none

/-- Major opcode 0x62. -/
def buildC62 (f : Fields) : Option Instr :=
  match f.len, f.fn.toNat with
  | .k64, 0 => some (.setdef ⟨f.pr, f.d, f.a, f.b, f.im 0 6⟩)
  | .k64, 1 => some (.setlw ⟨f.pr, f.d, f.a, f.im 0 6⟩)
  | _, _ => none

/-- Major opcode 0x63. -/
def buildC63 (f : Fields) : Option Instr :=
  match f.len, f.fn.toNat with
  | .k64, 0 => some (.skinit ⟨f.pr, f.a, f.im 12 2, f.im 0 12⟩)
  | .k64, 1 =>
    if f.sc then some (.skmrgR ⟨f.pr, f.c, f.im 0 12⟩) else some (.skmrg ⟨f.pr, f.a, f.im 0 12⟩)
  | _, _ => none

/-- Major opcode 0x64. -/
def buildC64 (f : Fields) : Option Instr :=
  match f.len, f.fn.toNat with
  | .k64, 0 => some (.skqnt f.skq)
  | .k64, 1 => if f.imb 12 then some (.skestX f.skest) else some (.skest f.skest)
  | .k64, 2 => if f.imb 12 then some (.sktopC f.skq) else some (.sktop f.skq)
  | _, _ => none

/-- Major opcode 0x65. -/
def buildC65 (f : Fields) : Option Instr :=
  match f.len, f.fn.toNat with
  | .k64, 0 | .k96, 0 =>
    if f.imb 9 then some (.tksetT ⟨f.pr, f.regLit, f.b, f.im 0 9⟩) else some (.tkset ⟨f.pr, f.regLit, f.b⟩)
  | .k64, 1 | .k96, 1 => some (.tkget ⟨f.pr, f.d, f.a, f.im 0 4, f.wide⟩)
  | _, _ => none

/-- Major opcode 0x66. -/
def buildC66 (f : Fields) : Option Instr :=
  match f.len, f.fn.toNat with
  | .k64, 0 | .k96, 0 => some (.yield ⟨f.pr, f.im 0 4, f.wide⟩)
  | _, _ => none

/-- Major opcode 0x67. -/
def buildC67 (f : Fields) : Option Instr :=
  match f.len, f.fn.toNat with
  | .k64, 0 | .k96, 0 =>
    some (.drseed ⟨f.pr, match f.len with | .k96 => .lit f.lit | _ => .sum f.a f.imm⟩)
  | .k64, 1 | .k96, 1 => some (.drnext ⟨f.pr, f.d, f.im 0 3, f.wide⟩)
  | _, _ => none

/-- Major opcode 0x68. -/
def buildC68 (f : Fields) : Option Instr :=
  match f.len, f.fn.toNat with
  | .k64, 0 | .k96, 0 => if f.imb 8 then some (.cursetClr f.curset) else some (.curset f.curset)
  | .k64, 1 | .k96, 1 => some (.curiss ⟨f.pr, f.regLit, f.im 0 8⟩)
  | _, _ => none

/-- Major opcode 0x69. -/
def buildC69 (f : Fields) : Option Instr :=
  match f.len, f.fn.toNat with
  | .k64, 0 | .k96, 0 => some (.larm f.larm)
  | .k64, 1 | .k96, 1 =>
    some (.lpatch ⟨f.pr, f.d, f.a, f.c, (match f.len with | .k96 => .lit f.lit | _ => .reg f.b), f.imm⟩)
  | .k64, 2 | .k96, 2 => some (.lsend ⟨f.pr, f.d, f.a, f.c, f.wide⟩)
  | .k64, 3 | .k96, 3 => some (.lqry f.larm)
  | _, _ => none

/-- Major opcode 0x6a. -/
def buildC6a (f : Fields) : Option Instr :=
  match f.len, f.fn.toNat with
  | .k64, 0 => some (.chsnd ⟨f.pr, f.d, f.a, f.c, f.scope, f.imm⟩)
  | .k64, 1 => some (.chrcv ⟨f.pr, f.d, f.a, f.b, f.c, f.scope, f.imm⟩)
  | .k64, 2 =>
    if f.im 0 2 == 0 then some (.chcapRd ⟨f.pr, f.d, f.c, f.imb 2⟩) else if f.im 0 2 == 1 then some (.chcapNar f.rrrr) else if f.im 0 2 == 2 then some (.chcapClr ⟨f.pr, f.c⟩) else none
  | _, _ => none

/-- Major opcode 0x6b. -/
def buildC6b (f : Fields) : Option Instr :=
  match f.len, f.fn.toNat with
  | .k64, 0 => some (.pubh ⟨f.pr, f.d, f.a, f.imm, f.sc⟩)
  | _, _ => none

/-- Major opcode 0x6c. -/
def buildC6c (f : Fields) : Option Instr :=
  match f.len, f.fn.toNat with
  | .k64, 0 | .k96, 0 => some (.coll ⟨f.pr, f.d, f.a, f.immOp⟩)
  | .k64, 1 => some (.collAbt f.rr)
  | _, _ => none

/-- Major opcode 0x70. -/
def buildC70 (f : Fields) : Option Instr :=
  match f.len, f.fn.toNat with
  | .k64, 0 => some (.trap ⟨f.pr, f.imm⟩)
  | _, _ => none

/-- Major opcode 0x71. -/
def buildC71 (f : Fields) : Option Instr :=
  match f.len, f.fn.toNat with
  | .k32, 0 => some (.eret f.pr)
  | _, _ => none

/-- Major opcode 0x72. -/
def buildC72 (f : Fields) : Option Instr :=
  match f.len, f.fn.toNat with
  | .k64, 0 => some (.sysrd ⟨f.pr, f.d, f.imm⟩)
  | .k64, 1 => some (.syswr ⟨f.pr, f.a, f.imm⟩)
  | _, _ => none

/-- Major opcode 0x73. -/
def buildC73 (f : Fields) : Option Instr :=
  match f.len, f.fn.toNat with
  | .k32, 0 => some (.tfence f.pr)
  | _, _ => none

/-- Major opcode 0x74. -/
def buildC74 (f : Fields) : Option Instr :=
  match f.len, f.fn.toNat with
  | .k32, 0 => some (.flags ⟨f.pr, f.d⟩)
  | _, _ => none

/-- Major opcode 0x75. -/
def buildC75 (f : Fields) : Option Instr :=
  match f.len, f.fn.toNat with
  | .k32, 0 => some (.brk f.pr)
  | _, _ => none

/-- Major opcode 0x76. -/
def buildC76 (f : Fields) : Option Instr :=
  match f.len, f.fn.toNat with
  | .k32, 0 => some (.halt f.pr)
  | _, _ => none

/-- Major opcode 0x77. -/
def buildC77 (f : Fields) : Option Instr :=
  match f.len, f.fn.toNat with
  | .k32, 0 => some (.nop f.pr)
  | _, _ => none

/-- Major opcode 0x78. -/
def buildC78 (f : Fields) : Option Instr :=
  match f.len, f.fn.toNat with
  | .k64, 0 => some (.wait ⟨f.pr, f.d, f.a, f.imm⟩)
  | _, _ => none

/-- The instruction that opcode, length and function name (steps 2 to 4 of R63). -/
def buildC (f : Fields) : Option Instr :=
  match f.op.toNat with
  | 0x01 => buildC01 f
  | 0x02 => buildC02 f
  | 0x03 => buildC03 f
  | 0x04 => buildC04 f
  | 0x05 => buildC05 f
  | 0x06 => buildC06 f
  | 0x07 => buildC07 f
  | 0x08 => buildC08 f
  | 0x09 => buildC09 f
  | 0x20 => buildC20 f
  | 0x21 => buildC21 f
  | 0x22 => buildC22 f
  | 0x23 => buildC23 f
  | 0x24 => buildC24 f
  | 0x30 => buildC30 f
  | 0x31 => buildC31 f
  | 0x32 => buildC32 f
  | 0x33 => buildC33 f
  | 0x34 => buildC34 f
  | 0x35 => buildC35 f
  | 0x40 => buildC40 f
  | 0x41 => buildC41 f
  | 0x42 => buildC42 f
  | 0x43 => buildC43 f
  | 0x44 => buildC44 f
  | 0x45 => buildC45 f
  | 0x46 => buildC46 f
  | 0x47 => buildC47 f
  | 0x48 => buildC48 f
  | 0x49 => buildC49 f
  | 0x50 => buildC50 f
  | 0x51 => buildC51 f
  | 0x52 => buildC52 f
  | 0x53 => buildC53 f
  | 0x54 => buildC54 f
  | 0x55 => buildC55 f
  | 0x56 => buildC56 f
  | 0x57 => buildC57 f
  | 0x58 => buildC58 f
  | 0x59 => buildC59 f
  | 0x5a => buildC5a f
  | 0x60 => buildC60 f
  | 0x61 => buildC61 f
  | 0x62 => buildC62 f
  | 0x63 => buildC63 f
  | 0x64 => buildC64 f
  | 0x65 => buildC65 f
  | 0x66 => buildC66 f
  | 0x67 => buildC67 f
  | 0x68 => buildC68 f
  | 0x69 => buildC69 f
  | 0x6a => buildC6a f
  | 0x6b => buildC6b f
  | 0x6c => buildC6c f
  | 0x70 => buildC70 f
  | 0x71 => buildC71 f
  | 0x72 => buildC72 f
  | 0x73 => buildC73 f
  | 0x74 => buildC74 f
  | 0x75 => buildC75 f
  | 0x76 => buildC76 f
  | 0x77 => buildC77 f
  | 0x78 => buildC78 f
  | _ => none

/-! ### The vector stream (R67) -/

/-- The fields of a vector-stream instruction's word, as its entry gives them; none for what has no
word there. -/
def fieldsV : Instr → Option Fields
  | .tfenceV o => some (f32 0x73 0 o)
  | .flagsV o => some ({ f32 0x74 0 o.pr with d := o.d })
  | .brk o => some (f32 0x75 0 o)
  | .haltV o => some (f32 0x76 0 o)
  | .nop o => some (f32 0x77 0 o)
  | .viadd o => some (o.f 0x1 0)
  | .visub o => some (o.f 0x1 1)
  | .vimul o => some (o.f 0x1 2)
  | .vand o => some (o.f 0x1 3)
  | .vor o => some (o.f 0x1 4)
  | .vxor o => some (o.f 0x1 5)
  | .vshl o => some (o.f 0x1 6)
  | .vshr o => some (o.f 0x1 7)
  | .vsra o => some (o.f 0x1 8)
  | .viaddImm o => some (o.f 0x1 0)
  | .visubImm o => some (o.f 0x1 1)
  | .vimulImm o => some (o.f 0x1 2)
  | .vandImm o => some (o.f 0x1 3)
  | .vorImm o => some (o.f 0x1 4)
  | .vxorImm o => some (o.f 0x1 5)
  | .vshlImm o => some (o.f 0x1 6)
  | .vshrImm o => some (o.f 0x1 7)
  | .vsraImm o => some (o.f 0x1 8)
  | .vimad o => some ({ f64 0x2 0 o.pr with d := o.d, a := o.a, b := o.b, c := o.c })
  | .vcmpEqF o => some (o.f 0x8 0)
  | .vcmpNeF o => some (o.f 0x8 1)
  | .vcmpLtF o => some (o.f 0x8 2)
  | .vcmpLeF o => some (o.f 0x8 3)
  | .vcmpUnF o => some (o.f 0x8 4)
  | .vcmpEq o => some ({ f64 0x8 8 o.pr with d := pz o.d, a := o.a, b := o.b })
  | .vcmpNe o => some ({ f64 0x8 9 o.pr with d := pz o.d, a := o.a, b := o.b })
  | .vcmpLt o => some ({ f64 0x8 10 o.pr with d := pz o.d, a := o.a, b := o.b })
  | .vcmpGe o => some ({ f64 0x8 11 o.pr with d := pz o.d, a := o.a, b := o.b })
  | .vcmpLtu o => some ({ f64 0x8 12 o.pr with d := pz o.d, a := o.a, b := o.b })
  | .vcmpGeu o => some ({ f64 0x8 13 o.pr with d := pz o.d, a := o.a, b := o.b })
  | .vsel o => some (o.f 0x9 0)
  | .vmov o => some ({ fWide 0xA 0 o.pr o.wide with d := o.d, a := o.a })
  | .vbcstE o => some ({ f64 0xA 1 o.pr with d := o.d, a := o.a, imm := o.k, sc := true })
  | .vbcst o => some ({ fImm 0xA 1 o.pr o.imm with d := o.d })
  | .viota o => some ({ fImm 0xA 2 o.pr o.imm with d := o.d })
  | .vshp o => some ({ f64 0xB 0 noPr with a := o })
  | .vshpK96 o => some ({ f96 0xB 0 noPr with lit := o })
  | .vmlogAnd o => some (o.f 0)
  | .vmlogOr o => some (o.f 1)
  | .vmlogXor o => some (o.f 2)
  | .vmlogAndn o => some (o.f 3)
  | .vmlogNot o => some ({ f64 0xC 4 noPr with d := pz o.d, a := pz o.a })
  | .vmlogCnt o => some (o.f 5)
  | .vmlogFst o => some (o.f 6)
  | .vadd o => some (o.f 0x20 0)
  | .vsub o => some (o.f 0x20 1)
  | .vmul o => some (o.f 0x20 2)
  | .vdiv o => some (o.f 0x20 3)
  | .vmin o => some (o.f 0x20 4)
  | .vmax o => some (o.f 0x20 5)
  | .vsqrt o => some (o.f 0x20 6)
  | .vabs o => some (o.f 0x20 7)
  | .vneg o => some (o.f 0x20 8)
  | .vfma o => some (o.f 0x21 0)
  | .vfms o => some (o.f 0x21 1)
  | .vrcp o => some (o.f 0)
  | .vrsq o => some (o.f 1)
  | .vexp2 o => some (o.f 2)
  | .vlog2 o => some (o.f 3)
  | .vsin o => some (o.f 4)
  | .vcos o => some (o.f 5)
  | .vsigm o => some (o.f 6)
  | .vtanh o => some (o.f 7)
  | .vcvtFf o => some (o.f 0)
  | .vcvtFpToElem o => some (o.f 1)
  | .vcvtElemToFp o => some (o.f 2)
  | .vcvtFpToIntfmt o => some (o.f 3)
  | .vcvtIntfmtToFp o => some (o.f 4)
  | .vcvtElemToElem o => some (o.f 5)
  | .vredsF o => some (o.f 0)
  | .vredsSq o => some (o.f 1)
  | .vredsI o => some ({ f64 0x24 2 o.pr with d := o.d, a := o.a, ovf := o.ovf, sc := o.row })
  | .vredxMax o => some (o.f 8)
  | .vredxMin o => some (o.f 9)
  | .vredxImax o => some (o.f 10)
  | .vredxImin o => some (o.f 11)
  | .vredxUmax o => some (o.f 12)
  | .vredxUmin o => some (o.f 13)
  | .vredxArg o => some (o.f 0x24 14)
  | .bV o => some (fImm 0x30 0 noPr o)
  | .hloopV o => some (o.h.f (if o.np then 1 else 0))
  | .vldX o => some ({ fOff 0x40 0 o.pr o.top o.off with d := o.d, a := o.a, sc := true })
  | .vld o => some ({ fOff 0x40 0 o.pr o.top o.off with d := o.d })
  | .vstX o => some ({ fOff 0x40 1 o.pr o.top o.off with a := o.a, b := o.b, sc := true })
  | .vst o => some ({ fOff 0x40 1 o.pr o.top o.off with b := o.b })
  | .vgathQ o =>
    some ({ f64 0x41 0 o.pr with d := o.d, b := o.b, imm := o.top.setWidth 16, sc := true })
  | .vgath o => some ({ f64 0x41 0 o.pr with d := o.d, b := o.b, imm := o.top.setWidth 16 })
  | .vscat o => some ({ f64 0x41 1 o.pr with a := o.a, b := o.b, imm := o.top.setWidth 16 })
  | .vacld o =>
    some ({ f64 0x42 0 o.pr with d := o.r, c := o.cg, fmt := o.fmt, rm := o.rm, ovf := o.ovf, imm := o.imm })
  | .vacst o =>
    some ({ f64 0x42 1 o.pr with b := o.r, c := o.cg, fmt := o.fmt, rm := o.rm, ovf := o.ovf, imm := o.imm })
  | .vcmpr o => some (o.f 0x50 0)
  | .vexpd o => some (o.f 0x50 1)
  | .vslup o => some (o.f 0)
  | .vsldn o => some (o.f 1)
  | .vtrg o => some ({ f64 0x52 (o.w.setWidth 6) noPr with a := o.a })
  | .vqpsh o => some ({ f64 0x53 0 o.pr with a := o.a, c := o.c, imm := o.q.setWidth 16 })
  | .vqpop o =>
    some ({ f64 0x53 1 noPr with d := o.d, b := pz o.b, c := o.c, imm := o.q.setWidth 16 })
  | .vrbalClr o => some ({ f64 0x53 2 noPr with d := o.d, imm := o.q.setWidth 16, sc := true })
  | .vrbal o => some ({ f64 0x53 2 noPr with d := o.d, imm := o.q.setWidth 16 })
  | .noteV o => some (f64 0x55 1 o)
  | .vskq o => some ({ f64 0x60 0 o.pr with a := o.a, fmt := o.fmt, imm := o.top.setWidth 16 })
  | .vskh o => some (o.f 1)
  | .vskd o => some (o.f 2)
  | .vclipq o =>
    some ({ f64 0x61 0 o.pr with d := o.d, a := o.a, c := o.c, fmt := o.fmt, imm := o.top.setWidth 16 ||| (o.mode.setWidth 16 <<< 12) })
  | _ => none

/-- Major opcode 0x01. -/
noncomputable def buildV01 (f : Fields) : Option Instr :=
  match f.len, f.fn.toNat with
  | .k32, 0 => some (.viadd f.rrr)
  | .k64, 0 | .k96, 0 => some (.viaddImm f.rri)
  | .k32, 1 => some (.visub f.rrr)
  | .k64, 1 | .k96, 1 => some (.visubImm f.rri)
  | .k32, 2 => some (.vimul f.rrr)
  | .k64, 2 | .k96, 2 => some (.vimulImm f.rri)
  | .k32, 3 => some (.vand f.rrr)
  | .k64, 3 | .k96, 3 => some (.vandImm f.rri)
  | .k32, 4 => some (.vor f.rrr)
  | .k64, 4 | .k96, 4 => some (.vorImm f.rri)
  | .k32, 5 => some (.vxor f.rrr)
  | .k64, 5 | .k96, 5 => some (.vxorImm f.rri)
  | .k32, 6 => some (.vshl f.rrr)
  | .k64, 6 | .k96, 6 => some (.vshlImm f.rri)
  | .k32, 7 => some (.vshr f.rrr)
  | .k64, 7 | .k96, 7 => some (.vshrImm f.rri)
  | .k32, 8 => some (.vsra f.rrr)
  | .k64, 8 | .k96, 8 => some (.vsraImm f.rri)
  | _, _ => none

/-- Major opcode 0x02. -/
noncomputable def buildV02 (f : Fields) : Option Instr :=
  match f.len, f.fn.toNat with
  | .k64, 0 => some (.vimad f.rrrr)
  | _, _ => none

/-- Major opcode 0x08. -/
noncomputable def buildV08 (f : Fields) : Option Instr :=
  match f.len, f.fn.toNat with
  | .k64, 0 => some (.vcmpEqF f.fcmp)
  | .k64, 1 => some (.vcmpNeF f.fcmp)
  | .k64, 2 => some (.vcmpLtF f.fcmp)
  | .k64, 3 => some (.vcmpLeF f.fcmp)
  | .k64, 4 => some (.vcmpUnF f.fcmp)
  | .k64, 8 => some (.vcmpEq f.cmpR)
  | .k64, 9 => some (.vcmpNe f.cmpR)
  | .k64, 10 => some (.vcmpLt f.cmpR)
  | .k64, 11 => some (.vcmpGe f.cmpR)
  | .k64, 12 => some (.vcmpLtu f.cmpR)
  | .k64, 13 => some (.vcmpGeu f.cmpR)
  | _, _ => none

/-- Major opcode 0x09. -/
noncomputable def buildV09 (f : Fields) : Option Instr :=
  match f.len, f.fn.toNat with
  | .k32, 0 => some (.vsel f.rrr)
  | _, _ => none

/-- Major opcode 0x0a. -/
noncomputable def buildV0a (f : Fields) : Option Instr :=
  match f.len, f.fn.toNat with
  | .k64, 0 | .k96, 0 => some (.vmov ⟨f.pr, f.d, f.a, f.wide⟩)
  | .k64, 1 =>
    if f.sc then some (.vbcstE ⟨f.pr, f.d, f.a, f.imm⟩) else some (.vbcst ⟨f.pr, f.d, f.immOp⟩)
  | .k96, 1 => if !f.sc then some (.vbcst ⟨f.pr, f.d, f.immOp⟩) else none
  | .k64, 2 | .k96, 2 => some (.viota ⟨f.pr, f.d, f.immOp⟩)
  | _, _ => none

/-- Major opcode 0x0b. -/
noncomputable def buildV0b (f : Fields) : Option Instr :=
  match f.len, f.fn.toNat with
  | .k64, 0 => some (.vshp f.a)
  | .k96, 0 => some (.vshpK96 f.lit)
  | _, _ => none

/-- Major opcode 0x0c. -/
noncomputable def buildV0c (f : Fields) : Option Instr :=
  match f.len, f.fn.toNat with
  | .k64, 0 => some (.vmlogAnd f.mlog)
  | .k64, 1 => some (.vmlogOr f.mlog)
  | .k64, 2 => some (.vmlogXor f.mlog)
  | .k64, 3 => some (.vmlogAndn f.mlog)
  | .k64, 4 => some (.vmlogNot ⟨f.pd, f.pa⟩)
  | .k64, 5 => some (.vmlogCnt ⟨f.d, f.pa⟩)
  | .k64, 6 => some (.vmlogFst ⟨f.d, f.pa⟩)
  | _, _ => none

/-- Major opcode 0x20. -/
noncomputable def buildV20 (f : Fields) : Option Instr :=
  match f.len, f.fn.toNat with
  | .k64, 0 => some (.vadd f.fpRRR)
  | .k64, 1 => some (.vsub f.fpRRR)
  | .k64, 2 => some (.vmul f.fpRRR)
  | .k64, 3 => some (.vdiv f.fpRRR)
  | .k64, 4 => some (.vmin f.fpRRRx)
  | .k64, 5 => some (.vmax f.fpRRRx)
  | .k64, 6 => some (.vsqrt f.fpRR)
  | .k64, 7 => some (.vabs f.fpRRx)
  | .k64, 8 => some (.vneg f.fpRRx)
  | _, _ => none

/-- Major opcode 0x21. -/
noncomputable def buildV21 (f : Fields) : Option Instr :=
  match f.len, f.fn.toNat with
  | .k64, 0 => some (.vfma f.fpRRRR)
  | .k64, 1 => some (.vfms f.fpRRRR)
  | _, _ => none

/-- Major opcode 0x22. -/
noncomputable def buildV22 (f : Fields) : Option Instr :=
  match f.len, f.fn.toNat with
  | .k64, 0 => some (.vrcp f.vspec)
  | .k64, 1 => some (.vrsq f.vspec)
  | .k64, 2 => some (.vexp2 f.vspec)
  | .k64, 3 => some (.vlog2 f.vspec)
  | .k64, 4 => some (.vsin f.vspec)
  | .k64, 5 => some (.vcos f.vspec)
  | .k64, 6 => some (.vsigm f.vspec)
  | .k64, 7 => some (.vtanh f.vspec)
  | _, _ => none

/-- Major opcode 0x23. -/
noncomputable def buildV23 (f : Fields) : Option Instr :=
  match f.len, f.fn.toNat with
  | .k64, 0 => some (.vcvtFf f.vcvt)
  | .k64, 1 => some (.vcvtFpToElem f.vcvt)
  | .k64, 2 => some (.vcvtElemToFp f.vcvt)
  | .k64, 3 => some (.vcvtFpToIntfmt f.vcvt)
  | .k64, 4 => some (.vcvtIntfmtToFp f.vcvt)
  | .k64, 5 => some (.vcvtElemToElem f.vcvt)
  | _, _ => none

/-- Major opcode 0x24. -/
noncomputable def buildV24 (f : Fields) : Option Instr :=
  match f.len, f.fn.toNat with
  | .k64, 0 => some (.vredsF f.vreds)
  | .k64, 1 => some (.vredsSq f.vreds)
  | .k64, 2 => some (.vredsI ⟨f.pr, f.d, f.a, f.ovf, f.sc⟩)
  | .k64, 8 => some (.vredxMax f.vredx)
  | .k64, 9 => some (.vredxMin f.vredx)
  | .k64, 10 => some (.vredxImax f.vredxI)
  | .k64, 11 => some (.vredxImin f.vredxI)
  | .k64, 12 => some (.vredxUmax f.vredxI)
  | .k64, 13 => some (.vredxUmin f.vredxI)
  | .k64, 14 => some (.vredxArg f.fpRRx)
  | _, _ => none

/-- Major opcode 0x30. -/
noncomputable def buildV30 (f : Fields) : Option Instr :=
  match f.len, f.fn.toNat with
  | .k64, 0 | .k96, 0 => some (.bV f.immOp)
  | _, _ => none

/-- Major opcode 0x35. -/
noncomputable def buildV35 (f : Fields) : Option Instr :=
  match f.len, f.fn.toNat with
  | .k64, 0 | .k96, 0 => some (.hloopV ⟨false, f.hloop⟩)
  | .k64, 1 | .k96, 1 => some (.hloopV ⟨true, f.hloop⟩)
  | _, _ => none

/-- Major opcode 0x40. -/
noncomputable def buildV40 (f : Fields) : Option Instr :=
  match f.len, f.fn.toNat with
  | .k64, 0 | .k96, 0 =>
    if f.sc then some (.vldX ⟨f.pr, f.d, f.a, f.im 0 12, f.off⟩) else some (.vld ⟨f.pr, f.d, f.im 0 12, f.off⟩)
  | .k64, 1 | .k96, 1 =>
    if f.sc then some (.vstX ⟨f.pr, f.a, f.b, f.im 0 12, f.off⟩) else some (.vst ⟨f.pr, f.b, f.im 0 12, f.off⟩)
  | _, _ => none

/-- Major opcode 0x41. -/
noncomputable def buildV41 (f : Fields) : Option Instr :=
  match f.len, f.fn.toNat with
  | .k64, 0 =>
    if f.sc then some (.vgathQ ⟨f.pr, f.d, f.b, f.im 0 12⟩) else some (.vgath ⟨f.pr, f.d, f.b, f.im 0 12⟩)
  | .k64, 1 => some (.vscat ⟨f.pr, f.a, f.b, f.im 0 12⟩)
  | _, _ => none

/-- Major opcode 0x42. -/
noncomputable def buildV42 (f : Fields) : Option Instr :=
  match f.len, f.fn.toNat with
  | .k64, 0 => some (.vacld (f.vac f.d))
  | .k64, 1 => some (.vacst (f.vac f.b))
  | _, _ => none

/-- Major opcode 0x50. -/
noncomputable def buildV50 (f : Fields) : Option Instr :=
  match f.len, f.fn.toNat with
  | .k32, 0 => some (.vcmpr f.rr)
  | .k32, 1 => some (.vexpd f.rr)
  | _, _ => none

/-- Major opcode 0x51. -/
noncomputable def buildV51 (f : Fields) : Option Instr :=
  match f.len, f.fn.toNat with
  | .k64, 0 => some (.vslup f.vslide)
  | .k64, 1 => some (.vsldn f.vslide)
  | _, _ => none

/-- Major opcode 0x52. -/
noncomputable def buildV52 (f : Fields) : Option Instr :=
  match f.len, f.fn.toNat with
  | .k64, 0 => some (.vtrg ⟨0, f.a⟩)
  | .k64, 1 => some (.vtrg ⟨1, f.a⟩)
  | .k64, 2 => some (.vtrg ⟨2, f.a⟩)
  | _, _ => none

/-- Major opcode 0x53. -/
noncomputable def buildV53 (f : Fields) : Option Instr :=
  match f.len, f.fn.toNat with
  | .k64, 0 => some (.vqpsh ⟨f.pr, f.a, f.c, f.im 0 2⟩)
  | .k64, 1 => some (.vqpop ⟨f.d, f.pb, f.c, f.im 0 2⟩)
  | .k64, 2 => if f.sc then some (.vrbalClr ⟨f.d, f.im 0 2⟩) else some (.vrbal ⟨f.d, f.im 0 2⟩)
  | _, _ => none

/-- Major opcode 0x55. -/
noncomputable def buildV55 (f : Fields) : Option Instr :=
  match f.len, f.fn.toNat with
  | .k64, 1 => some (.noteV f.pr)
  | _, _ => none

/-- Major opcode 0x60. -/
noncomputable def buildV60 (f : Fields) : Option Instr :=
  match f.len, f.fn.toNat with
  | .k64, 0 => some (.vskq ⟨f.pr, f.a, f.fmt, f.im 0 12⟩)
  | .k64, 1 => some (.vskh f.vsk)
  | .k64, 2 => some (.vskd f.vsk)
  | _, _ => none

/-- Major opcode 0x61. -/
noncomputable def buildV61 (f : Fields) : Option Instr :=
  match f.len, f.fn.toNat with
  | .k64, 0 => some (.vclipq ⟨f.pr, f.d, f.a, f.c, f.fmt, f.im 0 12, f.im 12 2⟩)
  | _, _ => none

/-- Major opcode 0x73. -/
noncomputable def buildV73 (f : Fields) : Option Instr :=
  match f.len, f.fn.toNat with
  | .k32, 0 => some (.tfenceV f.pr)
  | _, _ => none

/-- Major opcode 0x74. -/
noncomputable def buildV74 (f : Fields) : Option Instr :=
  match f.len, f.fn.toNat with
  | .k32, 0 => some (.flagsV ⟨f.pr, f.d⟩)
  | _, _ => none

/-- Major opcode 0x75. -/
noncomputable def buildV75 (f : Fields) : Option Instr :=
  match f.len, f.fn.toNat with
  | .k32, 0 => some (.brk f.pr)
  | _, _ => none

/-- Major opcode 0x76. -/
noncomputable def buildV76 (f : Fields) : Option Instr :=
  match f.len, f.fn.toNat with
  | .k32, 0 => some (.haltV f.pr)
  | _, _ => none

/-- Major opcode 0x77. -/
noncomputable def buildV77 (f : Fields) : Option Instr :=
  match f.len, f.fn.toNat with
  | .k32, 0 => some (.nop f.pr)
  | _, _ => none

/-- The instruction that opcode, length and function name (steps 2 to 4 of R63). -/
noncomputable def buildV (f : Fields) : Option Instr :=
  match f.op.toNat with
  | 0x01 => buildV01 f
  | 0x02 => buildV02 f
  | 0x08 => buildV08 f
  | 0x09 => buildV09 f
  | 0x0a => buildV0a f
  | 0x0b => buildV0b f
  | 0x0c => buildV0c f
  | 0x20 => buildV20 f
  | 0x21 => buildV21 f
  | 0x22 => buildV22 f
  | 0x23 => buildV23 f
  | 0x24 => buildV24 f
  | 0x30 => buildV30 f
  | 0x35 => buildV35 f
  | 0x40 => buildV40 f
  | 0x41 => buildV41 f
  | 0x42 => buildV42 f
  | 0x50 => buildV50 f
  | 0x51 => buildV51 f
  | 0x52 => buildV52 f
  | 0x53 => buildV53 f
  | 0x55 => buildV55 f
  | 0x60 => buildV60 f
  | 0x61 => buildV61 f
  | 0x73 => buildV73 f
  | 0x74 => buildV74 f
  | 0x75 => buildV75 f
  | 0x76 => buildV76 f
  | 0x77 => buildV77 f
  | _ => none

/-- What steps 5 to 7 of R63 ask of a word: the fields that its instruction encodes to, the limits, the
format fields and whether their codes are accepted. The tags of the later constructors of `Instr` are
beyond what Lean can build at run time, so the V stream's check is made on the fields themselves. -/
structure Info (α : Type) where
  back : α
  lim : Bool
  fmts : List (BitVec 5)
  acc : Bool

/-- Steps 5 to 7 of R63, and R73, in order. -/
def Info.err {α : Type} [DecidableEq α] (x : Info α) (f : α) : Option DecErr :=
  if x.back != f || !x.lim then some .illegal
  else if !x.fmts.all (fun c => decide (c.toNat < 0x18)) then some .format
  else if !x.acc then some .illegal
  else none

/-- Major opcode 0x01. -/
def infoV01 (f : Fields) : Option (Info Fields) :=
  match f.len, f.fn.toNat with
  | .k32, 0 => some (let o : RRR := f.rrr; ⟨o.f 0x1 0, v3 o.d o.a o.b, [], true⟩)
  | .k64, 0 | .k96, 0 => some (let o : RRI := f.rri; ⟨o.f 0x1 0, v2 o.d o.a, [], true⟩)
  | .k32, 1 => some (let o : RRR := f.rrr; ⟨o.f 0x1 1, v3 o.d o.a o.b, [], true⟩)
  | .k64, 1 | .k96, 1 => some (let o : RRI := f.rri; ⟨o.f 0x1 1, v2 o.d o.a, [], true⟩)
  | .k32, 2 => some (let o : RRR := f.rrr; ⟨o.f 0x1 2, v3 o.d o.a o.b, [], true⟩)
  | .k64, 2 | .k96, 2 => some (let o : RRI := f.rri; ⟨o.f 0x1 2, v2 o.d o.a, [], true⟩)
  | .k32, 3 => some (let o : RRR := f.rrr; ⟨o.f 0x1 3, v3 o.d o.a o.b, [], true⟩)
  | .k64, 3 | .k96, 3 => some (let o : RRI := f.rri; ⟨o.f 0x1 3, v2 o.d o.a, [], true⟩)
  | .k32, 4 => some (let o : RRR := f.rrr; ⟨o.f 0x1 4, v3 o.d o.a o.b, [], true⟩)
  | .k64, 4 | .k96, 4 => some (let o : RRI := f.rri; ⟨o.f 0x1 4, v2 o.d o.a, [], true⟩)
  | .k32, 5 => some (let o : RRR := f.rrr; ⟨o.f 0x1 5, v3 o.d o.a o.b, [], true⟩)
  | .k64, 5 | .k96, 5 => some (let o : RRI := f.rri; ⟨o.f 0x1 5, v2 o.d o.a, [], true⟩)
  | .k32, 6 => some (let o : RRR := f.rrr; ⟨o.f 0x1 6, v3 o.d o.a o.b, [], true⟩)
  | .k64, 6 | .k96, 6 => some (let o : RRI := f.rri; ⟨o.f 0x1 6, v2 o.d o.a, [], true⟩)
  | .k32, 7 => some (let o : RRR := f.rrr; ⟨o.f 0x1 7, v3 o.d o.a o.b, [], true⟩)
  | .k64, 7 | .k96, 7 => some (let o : RRI := f.rri; ⟨o.f 0x1 7, v2 o.d o.a, [], true⟩)
  | .k32, 8 => some (let o : RRR := f.rrr; ⟨o.f 0x1 8, v3 o.d o.a o.b, [], true⟩)
  | .k64, 8 | .k96, 8 => some (let o : RRI := f.rri; ⟨o.f 0x1 8, v2 o.d o.a, [], true⟩)
  | _, _ => none

/-- Major opcode 0x02. -/
def infoV02 (f : Fields) : Option (Info Fields) :=
  match f.len, f.fn.toNat with
  | .k64, 0 =>
    some (let o : RRRR := f.rrrr; ⟨{ f64 0x2 0 o.pr with d := o.d, a := o.a, b := o.b, c := o.c }, v3 o.d o.a o.b && vregOk o.c, [], true⟩)
  | _, _ => none

/-- Major opcode 0x08. -/
def infoV08 (f : Fields) : Option (Info Fields) :=
  match f.len, f.fn.toNat with
  | .k64, 0 => some (let o : FcmpOp := f.fcmp; ⟨o.f 0x8 0, v2 o.a o.b, [o.fmt], [o.fmt].all fpFmt⟩)
  | .k64, 1 => some (let o : FcmpOp := f.fcmp; ⟨o.f 0x8 1, v2 o.a o.b, [o.fmt], [o.fmt].all fpFmt⟩)
  | .k64, 2 => some (let o : FcmpOp := f.fcmp; ⟨o.f 0x8 2, v2 o.a o.b, [o.fmt], [o.fmt].all fpFmt⟩)
  | .k64, 3 => some (let o : FcmpOp := f.fcmp; ⟨o.f 0x8 3, v2 o.a o.b, [o.fmt], [o.fmt].all fpFmt⟩)
  | .k64, 4 => some (let o : FcmpOp := f.fcmp; ⟨o.f 0x8 4, v2 o.a o.b, [o.fmt], [o.fmt].all fpFmt⟩)
  | .k64, 8 =>
    some (let o : CmpR := f.cmpR; ⟨{ f64 0x8 8 o.pr with d := pz o.d, a := o.a, b := o.b }, v2 o.a o.b, [], true⟩)
  | .k64, 9 =>
    some (let o : CmpR := f.cmpR; ⟨{ f64 0x8 9 o.pr with d := pz o.d, a := o.a, b := o.b }, v2 o.a o.b, [], true⟩)
  | .k64, 10 =>
    some (let o : CmpR := f.cmpR; ⟨{ f64 0x8 10 o.pr with d := pz o.d, a := o.a, b := o.b }, v2 o.a o.b, [], true⟩)
  | .k64, 11 =>
    some (let o : CmpR := f.cmpR; ⟨{ f64 0x8 11 o.pr with d := pz o.d, a := o.a, b := o.b }, v2 o.a o.b, [], true⟩)
  | .k64, 12 =>
    some (let o : CmpR := f.cmpR; ⟨{ f64 0x8 12 o.pr with d := pz o.d, a := o.a, b := o.b }, v2 o.a o.b, [], true⟩)
  | .k64, 13 =>
    some (let o : CmpR := f.cmpR; ⟨{ f64 0x8 13 o.pr with d := pz o.d, a := o.a, b := o.b }, v2 o.a o.b, [], true⟩)
  | _, _ => none

/-- Major opcode 0x09. -/
def infoV09 (f : Fields) : Option (Info Fields) :=
  match f.len, f.fn.toNat with
  | .k32, 0 => some (let o : RRR := f.rrr; ⟨o.f 0x9 0, v3 o.d o.a o.b, [], true⟩)
  | _, _ => none

/-- Major opcode 0x0a. -/
def infoV0a (f : Fields) : Option (Info Fields) :=
  match f.len, f.fn.toNat with
  | .k64, 0 | .k96, 0 =>
    some (let o : VmovOp := ⟨f.pr, f.d, f.a, f.wide⟩; ⟨{ fWide 0xA 0 o.pr o.wide with d := o.d, a := o.a }, v2 o.d o.a, [], true⟩)
  | .k64, 1 =>
    if f.sc then some (let o : VbcstEOp := ⟨f.pr, f.d, f.a, f.imm⟩; ⟨{ f64 0xA 1 o.pr with d := o.d, a := o.a, imm := o.k, sc := true }, v2 o.d o.a, [], true⟩) else some (let o : VbcstOp := ⟨f.pr, f.d, f.immOp⟩; ⟨{ fImm 0xA 1 o.pr o.imm with d := o.d }, vregOk o.d, [], true⟩)
  | .k96, 1 =>
    if !f.sc then some (let o : VbcstOp := ⟨f.pr, f.d, f.immOp⟩; ⟨{ fImm 0xA 1 o.pr o.imm with d := o.d }, vregOk o.d, [], true⟩) else none
  | .k64, 2 | .k96, 2 =>
    some (let o : VbcstOp := ⟨f.pr, f.d, f.immOp⟩; ⟨{ fImm 0xA 2 o.pr o.imm with d := o.d }, vregOk o.d, [], true⟩)
  | _, _ => none

/-- Major opcode 0x0b. -/
def infoV0b (f : Fields) : Option (Info Fields) :=
  match f.len, f.fn.toNat with
  | .k64, 0 => some (let o : Reg := f.a; ⟨{ f64 0xB 0 noPr with a := o }, vregOk o, [], true⟩)
  | .k96, 0 => some (let o : BitVec 32 := f.lit; ⟨{ f96 0xB 0 noPr with lit := o }, true, [], true⟩)
  | _, _ => none

/-- Major opcode 0x0c. -/
def infoV0c (f : Fields) : Option (Info Fields) :=
  match f.len, f.fn.toNat with
  | .k64, 0 => some (let o : MLog := f.mlog; ⟨o.f 0, true, [], true⟩)
  | .k64, 1 => some (let o : MLog := f.mlog; ⟨o.f 1, true, [], true⟩)
  | .k64, 2 => some (let o : MLog := f.mlog; ⟨o.f 2, true, [], true⟩)
  | .k64, 3 => some (let o : MLog := f.mlog; ⟨o.f 3, true, [], true⟩)
  | .k64, 4 =>
    some (let o : MLogN := ⟨f.pd, f.pa⟩; ⟨{ f64 0xC 4 noPr with d := pz o.d, a := pz o.a }, true, [], true⟩)
  | .k64, 5 => some (let o : MLogV := ⟨f.d, f.pa⟩; ⟨o.f 5, vregOk o.d, [], true⟩)
  | .k64, 6 => some (let o : MLogV := ⟨f.d, f.pa⟩; ⟨o.f 6, vregOk o.d, [], true⟩)
  | _, _ => none

/-- Major opcode 0x20. -/
def infoV20 (f : Fields) : Option (Info Fields) :=
  match f.len, f.fn.toNat with
  | .k64, 0 => some (let o : FpRRR := f.fpRRR; ⟨o.f 0x20 0, v3 o.d o.a o.b, [o.fmt], [o.fmt].all fpFmt⟩)
  | .k64, 1 => some (let o : FpRRR := f.fpRRR; ⟨o.f 0x20 1, v3 o.d o.a o.b, [o.fmt], [o.fmt].all fpFmt⟩)
  | .k64, 2 => some (let o : FpRRR := f.fpRRR; ⟨o.f 0x20 2, v3 o.d o.a o.b, [o.fmt], [o.fmt].all fpFmt⟩)
  | .k64, 3 => some (let o : FpRRR := f.fpRRR; ⟨o.f 0x20 3, v3 o.d o.a o.b, [o.fmt], [o.fmt].all fpFmt⟩)
  | .k64, 4 =>
    some (let o : FpRRRx := f.fpRRRx; ⟨o.f 0x20 4, v3 o.d o.a o.b, [o.fmt], [o.fmt].all fpFmt⟩)
  | .k64, 5 =>
    some (let o : FpRRRx := f.fpRRRx; ⟨o.f 0x20 5, v3 o.d o.a o.b, [o.fmt], [o.fmt].all fpFmt⟩)
  | .k64, 6 => some (let o : FpRR := f.fpRR; ⟨o.f 0x20 6, v2 o.d o.a, [o.fmt], [o.fmt].all fpFmt⟩)
  | .k64, 7 => some (let o : FpRRx := f.fpRRx; ⟨o.f 0x20 7, v2 o.d o.a, [o.fmt], [o.fmt].all fpFmt⟩)
  | .k64, 8 => some (let o : FpRRx := f.fpRRx; ⟨o.f 0x20 8, v2 o.d o.a, [o.fmt], [o.fmt].all fpFmt⟩)
  | _, _ => none

/-- Major opcode 0x21. -/
def infoV21 (f : Fields) : Option (Info Fields) :=
  match f.len, f.fn.toNat with
  | .k64, 0 =>
    some (let o : FpRRRR := f.fpRRRR; ⟨o.f 0x21 0, v3 o.d o.a o.b && vregOk o.c, [o.fmt], [o.fmt].all fpFmt⟩)
  | .k64, 1 =>
    some (let o : FpRRRR := f.fpRRRR; ⟨o.f 0x21 1, v3 o.d o.a o.b && vregOk o.c, [o.fmt], [o.fmt].all fpFmt⟩)
  | _, _ => none

/-- Major opcode 0x22. -/
def infoV22 (f : Fields) : Option (Info Fields) :=
  match f.len, f.fn.toNat with
  | .k64, 0 => some (let o : VspecOp := f.vspec; ⟨o.f 0, v2 o.d o.a, [o.fmt], [o.fmt].all fpFmt⟩)
  | .k64, 1 => some (let o : VspecOp := f.vspec; ⟨o.f 1, v2 o.d o.a, [o.fmt], [o.fmt].all fpFmt⟩)
  | .k64, 2 => some (let o : VspecOp := f.vspec; ⟨o.f 2, v2 o.d o.a, [o.fmt], fpFmtNarrow o.fmt⟩)
  | .k64, 3 => some (let o : VspecOp := f.vspec; ⟨o.f 3, v2 o.d o.a, [o.fmt], fpFmtNarrow o.fmt⟩)
  | .k64, 4 => some (let o : VspecOp := f.vspec; ⟨o.f 4, v2 o.d o.a, [o.fmt], fpFmtNarrow o.fmt⟩)
  | .k64, 5 => some (let o : VspecOp := f.vspec; ⟨o.f 5, v2 o.d o.a, [o.fmt], fpFmtNarrow o.fmt⟩)
  | .k64, 6 => some (let o : VspecOp := f.vspec; ⟨o.f 6, v2 o.d o.a, [o.fmt], fpFmtNarrow o.fmt⟩)
  | .k64, 7 => some (let o : VspecOp := f.vspec; ⟨o.f 7, v2 o.d o.a, [o.fmt], fpFmtNarrow o.fmt⟩)
  | _, _ => none

/-- Major opcode 0x23. -/
def infoV23 (f : Fields) : Option (Info Fields) :=
  match f.len, f.fn.toNat with
  | .k64, 0 =>
    some (let o : VcvtOp := f.vcvt; ⟨o.f 0, v2 o.d o.a && vcvtImm o true true false && vcvtRdg o.fmt (o.imm.extractLsb' 0 2) && vcvtRdg o.c (o.imm.extractLsb' 2 2), [o.fmt, o.c], anyFp o.fmt && anyFp o.c⟩)
  | .k64, 1 =>
    some (let o : VcvtOp := f.vcvt; ⟨o.f 1, v2 o.d o.a && vcvtImm o false true true && o.fmt == 0 && vcvtRdg o.c (o.imm.extractLsb' 2 2), [o.c], anyFp o.c⟩)
  | .k64, 2 =>
    some (let o : VcvtOp := f.vcvt; ⟨o.f 2, v2 o.d o.a && vcvtImm o true false true && o.c == 0 && vcvtRdg o.fmt (o.imm.extractLsb' 0 2), [o.fmt], anyFp o.fmt⟩)
  | .k64, 3 =>
    some (let o : VcvtOp := f.vcvt; ⟨o.f 3, v2 o.d o.a && vcvtImm o false true false && vcvtRdg o.c (o.imm.extractLsb' 2 2), [o.fmt, o.c], anyFp o.c && anyInt o.fmt⟩)
  | .k64, 4 =>
    some (let o : VcvtOp := f.vcvt; ⟨o.f 4, v2 o.d o.a && vcvtImm o true false false && vcvtRdg o.fmt (o.imm.extractLsb' 0 2), [o.fmt, o.c], anyInt o.c && anyFp o.fmt⟩)
  | .k64, 5 =>
    some (let o : VcvtOp := f.vcvt; ⟨o.f 5, v2 o.d o.a && vcvtImm o false false true && o.fmt == 0 && o.rm == 0 && o.c.extractLsb' 3 2 == 0, [], true⟩)
  | _, _ => none

/-- Major opcode 0x24. -/
def infoV24 (f : Fields) : Option (Info Fields) :=
  match f.len, f.fn.toNat with
  | .k64, 0 => some (let o : VredsOp := f.vreds; ⟨o.f 0, v2 o.d o.a, [o.fmt], [o.fmt].all fpFmt⟩)
  | .k64, 1 => some (let o : VredsOp := f.vreds; ⟨o.f 1, v2 o.d o.a, [o.fmt], [o.fmt].all fpFmt⟩)
  | .k64, 2 =>
    some (let o : VredsIOp := ⟨f.pr, f.d, f.a, f.ovf, f.sc⟩; ⟨{ f64 0x24 2 o.pr with d := o.d, a := o.a, ovf := o.ovf, sc := o.row }, v2 o.d o.a, [], true⟩)
  | .k64, 8 => some (let o : VredxOp := f.vredx; ⟨o.f 8, v2 o.d o.a, [o.fmt], [o.fmt].all fpFmt⟩)
  | .k64, 9 => some (let o : VredxOp := f.vredx; ⟨o.f 9, v2 o.d o.a, [o.fmt], [o.fmt].all fpFmt⟩)
  | .k64, 10 => some (let o : VredxIOp := f.vredxI; ⟨o.f 10, v2 o.d o.a, [], true⟩)
  | .k64, 11 => some (let o : VredxIOp := f.vredxI; ⟨o.f 11, v2 o.d o.a, [], true⟩)
  | .k64, 12 => some (let o : VredxIOp := f.vredxI; ⟨o.f 12, v2 o.d o.a, [], true⟩)
  | .k64, 13 => some (let o : VredxIOp := f.vredxI; ⟨o.f 13, v2 o.d o.a, [], true⟩)
  | .k64, 14 => some (let o : FpRRx := f.fpRRx; ⟨o.f 0x24 14, v2 o.d o.a, [o.fmt], [o.fmt].all fpFmt⟩)
  | _, _ => none

/-- Major opcode 0x30. -/
def infoV30 (f : Fields) : Option (Info Fields) :=
  match f.len, f.fn.toNat with
  | .k64, 0 | .k96, 0 => some (let o : Imm := f.immOp; ⟨fImm 0x30 0 noPr o, true, [], true⟩)
  | _, _ => none

/-- Major opcode 0x35. -/
def infoV35 (f : Fields) : Option (Info Fields) :=
  match f.len, f.fn.toNat with
  | .k64, 0 | .k96, 0 =>
    some (let o : HloopVOp := ⟨false, f.hloop⟩; ⟨o.h.f (if o.np then 1 else 0), hloopOk o.h && (match o.h.cnt with | .reg a => vregOk a | .lit _ => true), [], true⟩)
  | .k64, 1 | .k96, 1 =>
    some (let o : HloopVOp := ⟨true, f.hloop⟩; ⟨o.h.f (if o.np then 1 else 0), hloopOk o.h && (match o.h.cnt with | .reg a => vregOk a | .lit _ => true), [], true⟩)
  | _, _ => none

/-- Major opcode 0x40. -/
def infoV40 (f : Fields) : Option (Info Fields) :=
  match f.len, f.fn.toNat with
  | .k64, 0 | .k96, 0 =>
    if f.sc then some (let o : VldXOp := ⟨f.pr, f.d, f.a, f.im 0 12, f.off⟩; ⟨{ fOff 0x40 0 o.pr o.top o.off with d := o.d, a := o.a, sc := true }, v2 o.d o.a && topOk o.top, [], true⟩) else some (let o : VldOp := ⟨f.pr, f.d, f.im 0 12, f.off⟩; ⟨{ fOff 0x40 0 o.pr o.top o.off with d := o.d }, vregOk o.d && topOk o.top, [], true⟩)
  | .k64, 1 | .k96, 1 =>
    if f.sc then some (let o : VstXOp := ⟨f.pr, f.a, f.b, f.im 0 12, f.off⟩; ⟨{ fOff 0x40 1 o.pr o.top o.off with a := o.a, b := o.b, sc := true }, v2 o.a o.b && topOk o.top, [], true⟩) else some (let o : VstOp := ⟨f.pr, f.b, f.im 0 12, f.off⟩; ⟨{ fOff 0x40 1 o.pr o.top o.off with b := o.b }, vregOk o.b && topOk o.top, [], true⟩)
  | _, _ => none

/-- Major opcode 0x41. -/
def infoV41 (f : Fields) : Option (Info Fields) :=
  match f.len, f.fn.toNat with
  | .k64, 0 =>
    if f.sc then some (let o : VgathOp := ⟨f.pr, f.d, f.b, f.im 0 12⟩; ⟨{ f64 0x41 0 o.pr with d := o.d, b := o.b, imm := o.top.setWidth 16, sc := true }, vregOk o.d && decide (o.b.toNat ≤ 1) && topOk o.top, [], true⟩) else some (let o : VgathOp := ⟨f.pr, f.d, f.b, f.im 0 12⟩; ⟨{ f64 0x41 0 o.pr with d := o.d, b := o.b, imm := o.top.setWidth 16 }, v2 o.d o.b && topOk o.top, [], true⟩)
  | .k64, 1 =>
    some (let o : VscatOp := ⟨f.pr, f.a, f.b, f.im 0 12⟩; ⟨{ f64 0x41 1 o.pr with a := o.a, b := o.b, imm := o.top.setWidth 16 }, v2 o.a o.b && topOk o.top, [], true⟩)
  | _, _ => none

/-- Major opcode 0x42. -/
def infoV42 (f : Fields) : Option (Info Fields) :=
  match f.len, f.fn.toNat with
  | .k64, 0 =>
    some (let o : VacOp := f.vac f.d; ⟨{ f64 0x42 0 o.pr with d := o.r, c := o.cg, fmt := o.fmt, rm := o.rm, ovf := o.ovf, imm := o.imm }, accOk o, [o.fmt], [o.fmt].all fpFmt⟩)
  | .k64, 1 =>
    some (let o : VacOp := f.vac f.b; ⟨{ f64 0x42 1 o.pr with b := o.r, c := o.cg, fmt := o.fmt, rm := o.rm, ovf := o.ovf, imm := o.imm }, accOk o, [o.fmt], [o.fmt].all fpFmt⟩)
  | _, _ => none

/-- Major opcode 0x50. -/
def infoV50 (f : Fields) : Option (Info Fields) :=
  match f.len, f.fn.toNat with
  | .k32, 0 => some (let o : RR := f.rr; ⟨o.f 0x50 0, v2 o.d o.a, [], true⟩)
  | .k32, 1 => some (let o : RR := f.rr; ⟨o.f 0x50 1, v2 o.d o.a, [], true⟩)
  | _, _ => none

/-- Major opcode 0x51. -/
def infoV51 (f : Fields) : Option (Info Fields) :=
  match f.len, f.fn.toNat with
  | .k64, 0 =>
    some (let o : VslideOp := f.vslide; ⟨o.f 0, v2 o.d o.a && (match o.dist with | .reg b _ => vregOk b | .imm _ => true), [], true⟩)
  | .k64, 1 =>
    some (let o : VslideOp := f.vslide; ⟨o.f 1, v2 o.d o.a && (match o.dist with | .reg b _ => vregOk b | .imm _ => true), [], true⟩)
  | _, _ => none

/-- Major opcode 0x52. -/
def infoV52 (f : Fields) : Option (Info Fields) :=
  match f.len, f.fn.toNat with
  | .k64, 0 =>
    some (let o : VtrgOp := ⟨0, f.a⟩; ⟨{ f64 0x52 (o.w.setWidth 6) noPr with a := o.a }, decide (o.w.toNat ≤ 2 ∧ o.a.toNat ≤ 16), [], true⟩)
  | .k64, 1 =>
    some (let o : VtrgOp := ⟨1, f.a⟩; ⟨{ f64 0x52 (o.w.setWidth 6) noPr with a := o.a }, decide (o.w.toNat ≤ 2 ∧ o.a.toNat ≤ 16), [], true⟩)
  | .k64, 2 =>
    some (let o : VtrgOp := ⟨2, f.a⟩; ⟨{ f64 0x52 (o.w.setWidth 6) noPr with a := o.a }, decide (o.w.toNat ≤ 2 ∧ o.a.toNat ≤ 16), [], true⟩)
  | _, _ => none

/-- Major opcode 0x53. -/
def infoV53 (f : Fields) : Option (Info Fields) :=
  match f.len, f.fn.toNat with
  | .k64, 0 =>
    some (let o : VqpshOp := ⟨f.pr, f.a, f.c, f.im 0 2⟩; ⟨{ f64 0x53 0 o.pr with a := o.a, c := o.c, imm := o.q.setWidth 16 }, decide (o.c.toNat ≤ 3 ∧ o.a.toNat + o.c.toNat ≤ 23), [], true⟩)
  | .k64, 1 =>
    some (let o : VqpopOp := ⟨f.d, f.pb, f.c, f.im 0 2⟩; ⟨{ f64 0x53 1 noPr with d := o.d, b := pz o.b, c := o.c, imm := o.q.setWidth 16 }, decide (o.c.toNat ≤ 3 ∧ o.d.toNat + o.c.toNat ≤ 23), [], true⟩)
  | .k64, 2 =>
    if f.sc then some (let o : VrbalOp := ⟨f.d, f.im 0 2⟩; ⟨{ f64 0x53 2 noPr with d := o.d, imm := o.q.setWidth 16, sc := true }, vregOk o.d, [], true⟩) else some (let o : VrbalOp := ⟨f.d, f.im 0 2⟩; ⟨{ f64 0x53 2 noPr with d := o.d, imm := o.q.setWidth 16 }, vregOk o.d, [], true⟩)
  | _, _ => none

/-- Major opcode 0x55. -/
def infoV55 (f : Fields) : Option (Info Fields) :=
  match f.len, f.fn.toNat with
  | .k64, 1 => some (let o : Pred := f.pr; ⟨f64 0x55 1 o, true, [], true⟩)
  | _, _ => none

/-- Major opcode 0x60. -/
def infoV60 (f : Fields) : Option (Info Fields) :=
  match f.len, f.fn.toNat with
  | .k64, 0 =>
    some (let o : VskqOp := ⟨f.pr, f.a, f.fmt, f.im 0 12⟩; ⟨{ f64 0x60 0 o.pr with a := o.a, fmt := o.fmt, imm := o.top.setWidth 16 }, vregOk o.a && topOk o.top, [o.fmt], fpFmtNarrow o.fmt⟩)
  | .k64, 1 => some (let o : VskOp := f.vsk; ⟨o.f 1, vregOk o.a && topOk o.top, [], true⟩)
  | .k64, 2 => some (let o : VskOp := f.vsk; ⟨o.f 2, vregOk o.a && topOk o.top, [], true⟩)
  | _, _ => none

/-- Major opcode 0x61. -/
def infoV61 (f : Fields) : Option (Info Fields) :=
  match f.len, f.fn.toNat with
  | .k64, 0 =>
    some (let o : VclipqOp := ⟨f.pr, f.d, f.a, f.c, f.fmt, f.im 0 12, f.im 12 2⟩; ⟨{ f64 0x61 0 o.pr with d := o.d, a := o.a, c := o.c, fmt := o.fmt, imm := o.top.setWidth 16 ||| (o.mode.setWidth 16 <<< 12) }, v2 o.d o.a && vregOk o.c && o.mode != 3 && topOk o.top, [o.fmt], [o.fmt].all fpFmt⟩)
  | _, _ => none

/-- Major opcode 0x73. -/
def infoV73 (f : Fields) : Option (Info Fields) :=
  match f.len, f.fn.toNat with
  | .k32, 0 => some (let o : Pred := f.pr; ⟨f32 0x73 0 o, true, [], true⟩)
  | _, _ => none

/-- Major opcode 0x74. -/
def infoV74 (f : Fields) : Option (Info Fields) :=
  match f.len, f.fn.toNat with
  | .k32, 0 =>
    some (let o : DOp := ⟨f.pr, f.d⟩; ⟨{ f32 0x74 0 o.pr with d := o.d }, vregOk o.d, [], true⟩)
  | _, _ => none

/-- Major opcode 0x75. -/
def infoV75 (f : Fields) : Option (Info Fields) :=
  match f.len, f.fn.toNat with
  | .k32, 0 => some (let o : Pred := f.pr; ⟨f32 0x75 0 o, true, [], true⟩)
  | _, _ => none

/-- Major opcode 0x76. -/
def infoV76 (f : Fields) : Option (Info Fields) :=
  match f.len, f.fn.toNat with
  | .k32, 0 => some (let o : Pred := f.pr; ⟨f32 0x76 0 o, true, [], true⟩)
  | _, _ => none

/-- Major opcode 0x77. -/
def infoV77 (f : Fields) : Option (Info Fields) :=
  match f.len, f.fn.toNat with
  | .k32, 0 => some (let o : Pred := f.pr; ⟨f32 0x77 0 o, true, [], true⟩)
  | _, _ => none

def infoV (f : Fields) : Option (Info Fields) :=
  match f.op.toNat with
  | 0x01 => infoV01 f
  | 0x02 => infoV02 f
  | 0x08 => infoV08 f
  | 0x09 => infoV09 f
  | 0x0a => infoV0a f
  | 0x0b => infoV0b f
  | 0x0c => infoV0c f
  | 0x20 => infoV20 f
  | 0x21 => infoV21 f
  | 0x22 => infoV22 f
  | 0x23 => infoV23 f
  | 0x24 => infoV24 f
  | 0x30 => infoV30 f
  | 0x35 => infoV35 f
  | 0x40 => infoV40 f
  | 0x41 => infoV41 f
  | 0x42 => infoV42 f
  | 0x50 => infoV50 f
  | 0x51 => infoV51 f
  | 0x52 => infoV52 f
  | 0x53 => infoV53 f
  | 0x55 => infoV55 f
  | 0x60 => infoV60 f
  | 0x61 => infoV61 f
  | 0x73 => infoV73 f
  | 0x74 => infoV74 f
  | 0x75 => infoV75 f
  | 0x76 => infoV76 f
  | 0x77 => infoV77 f
  | _ => none


/-- R63 for the fields of a control-stream word. -/
def decodeFieldsC (f : Fields) : Except DecErr Instr :=
  match buildC f with
  | none => .error .illegal
  | some i =>
    if fieldsC i != some f || !i.limitsOk then .error .illegal
    else if !i.fmtsKnown then .error .format
    else if !i.fmtsOk then .error .illegal
    else .ok i

/-- R63 for the fields of a vector-stream word: the error, if any. -/
def checkV (f : Fields) : Option DecErr :=
  match infoV f with
  | none => some .illegal
  | some x => x.err f

/-- R63 for the fields of a vector-stream word. -/
noncomputable def decodeFieldsV (f : Fields) : Except DecErr Instr :=
  match checkV f, buildV f with
  | none, some i => .ok i
  | some e, _ => .error e
  | none, none => .error .illegal

/-- A word's fields, its first 32 bits lowest; bits above its length are not looked at. None for a
length of 11 (R63, step 1). -/
def fieldsOf (w : BitVec 96) : Option Fields := (lenOf w.toNat).map (unpack · w)

/-- A word of the C stream. -/
def decodeC (w : BitVec 96) : Except DecErr (Instr × Len) :=
  match fieldsOf w with
  | none => .error .illegal
  | some f => (decodeFieldsC f).map (·, f.len)
/-- A word of the V stream. -/
noncomputable def decodeV (w : BitVec 96) : Except DecErr (Instr × Len) :=
  match fieldsOf w with
  | none => .error .illegal
  | some f => (decodeFieldsV f).map (·, f.len)

/-- The word of an instruction of the C (false) or V (true) stream, and its length. -/
def encode (v : Bool) (i : Instr) : Option (BitVec 96 × Len) :=
  ((if v then fieldsV else fieldsC) i).map fun f => (pack f, f.len)

/-! ### Engine commands (R70 to R73) -/

def ext (w : BitVec 128) (lo n : Nat) : BitVec n := w.extractLsb' lo n

/-- The head of R70 with the await count at bits [95:64]. -/
def headOf (w : BitVec 128) : CmdHead :=
  ⟨ext w 4 6, ext w 10 6, ext w 16 6, w.getLsbD 22, w.getLsbD 23, ext w 64 32⟩
/-- The head of an S command, its await count at bits [39:24] (R71). -/
def headOfS (w : BitVec 128) : CmdHead :=
  ⟨ext w 4 6, ext w 10 6, ext w 16 6, w.getLsbD 22, w.getLsbD 23, (ext w 24 16).setWidth 32⟩

/-- A field of n bits placed at bit lo. -/
def at' {n : Nat} (v : BitVec n) (lo : Nat) : BitVec 128 := v.setWidth 128 <<< lo
def bit1 (b : Bool) (lo : Nat) : BitVec 128 := at' (BitVec.ofBool b) lo

def CmdHead.low (h : CmdHead) (cop : BitVec 4) : BitVec 128 :=
  at' cop 0 ||| at' h.aws 4 ||| at' h.rss 10 ||| at' h.gds 16 ||| bit1 h.gsn 22 ||| bit1 h.shd 23
def CmdHead.bits (h : CmdHead) (cop : BitVec 4) : BitVec 128 := h.low cop ||| at' h.awc 64
def CmdHead.bitsS (h : CmdHead) (cop : BitVec 4) : BitVec 128 := h.low cop ||| at' h.awc 24

/-- R289. -/
def mmaOf (w : BitVec 128) : MmaCmd :=
  { h := headOf w, nset := ext w 24 1, gs := ext w 25 4, gb := ext w 29 4, accv := ext w 33 3,
    nl := ext w 36 3, za := w.getLsbD 39, afmt := ext w 40 2, ovf := w.getLsbD 42, pv := ext w 43 6,
    vt := ext w 49 12, ks := ext w 96 16, mq := ext w 112 2, vfmt := ext w 114 5, vrdg := ext w 119 2,
    vrm := ext w 121 2, vovf := w.getLsbD 123, ctag := ext w 124 4 }
def MmaCmd.bits (c : MmaCmd) (cop : BitVec 4) : BitVec 128 :=
  c.h.bits cop ||| at' c.nset 24 ||| at' c.gs 25 ||| at' c.gb 29 ||| at' c.accv 33 ||| at' c.nl 36
    ||| bit1 c.za 39 ||| at' c.afmt 40 ||| bit1 c.ovf 42 ||| at' c.pv 43 ||| at' c.vt 49 ||| at' c.ks 96
    ||| at' c.mq 112 ||| at' c.vfmt 114 ||| at' c.vrdg 119 ||| at' c.vrm 121 ||| bit1 c.vovf 123
    ||| at' c.ctag 124
/-- R299. -/
def mzeroOf (w : BitVec 128) : MzeroCmd := ⟨headOf w, ext w 24 3, ext w 27 2, ext w 96 32⟩
def MzeroCmd.bits (c : MzeroCmd) (zv : BitVec 2) : BitVec 128 :=
  c.h.bits 3 ||| at' c.accv 24 ||| at' c.afmt 27 ||| at' zv 29 ||| at' c.view 96
/-- R300. -/
def mxfOf (w : BitVec 128) : MxfCmd :=
  { h := headOf w, accv := ext w 24 3, afmt := ext w 27 2, top := ext w 29 12, fmt := ext w 41 5,
    rdg := ext w 46 2, rm := ext w 48 2, ovf := w.getLsbD 50, raw := w.getLsbD 51, pl := w.getLsbD 52,
    off := ext w 96 18 }
def MxfCmd.bits (c : MxfCmd) (cop : BitVec 4) : BitVec 128 :=
  c.h.bits cop ||| at' c.accv 24 ||| at' c.afmt 27 ||| at' c.top 29 ||| at' c.fmt 41 ||| at' c.rdg 46
    ||| at' c.rm 48 ||| bit1 c.ovf 50 ||| bit1 c.raw 51 ||| bit1 c.pl 52 ||| at' c.off 96
/-- R235; HOLD is XFN bit 3. -/
def xOf (w : BitVec 128) : XCmd :=
  ⟨headOf w, w.getLsbD 63, ext w 24 12, ext w 36 12, ext w 48 12, ext w 96 32⟩
def XCmd.bits (c : XCmd) (cop : BitVec 4) (xfn : BitVec 3) : BitVec 128 :=
  c.h.bits cop ||| at' c.dt 24 ||| at' c.st 36 ||| at' c.desc 48 ||| at' xfn 60 ||| bit1 c.hold 63
    ||| at' c.opnd 96
/-- R254. -/
def sOf (w : BitVec 128) : SCmd := ⟨headOfS w, ext w 40 12, ext w 52 1, ext w 53 5, ext w 58 2⟩
def SCmd.bits (c : SCmd) (cop : BitVec 4) : BitVec 128 :=
  c.h.bitsS cop ||| at' c.src 40 ||| at' c.oq 52 ||| at' c.rate 53 ||| at' c.wid 58

/-- The bits of an engine command in its ring. -/
def bitsCmd : Instr → Option (BitVec 128)
  | .mma c => some (c.bits 1)
  | .mmas c => some (c.bits 2)
  | .mzero c => some (c.bits 0)
  | .mzeroSet c => some (c.bits 1)
  | .mzeroSetz c => some (c.bits 2)
  | .mexp c => some (c.bits 4)
  | .mimp c => some (c.bits 5)
  | .mnote h => some (h.bits 6)
  | .xcpyL c => some (c.bits 1 0)
  | .xcpyS c => some (c.bits 1 1)
  | .xcpyT c => some (c.bits 1 2)
  | .xcpyR c => some (c.bits 1 3)
  | .xfil c => some (c.bits 2 0)
  | .xfilM c => some (c.bits 2 1)
  | .xgth c => some (c.bits 3 0)
  | .xsct c => some (c.bits 4 0)
  | .xmeta c => some (c.bits 5 0)
  | .xmetaT c => some (c.bits 5 1)
  | .xrack c => some (c.bits 6 0)
  | .xfetch c => some (c.bits 7 0)
  | .xpub c => some (c.bits 8 0)
  | .xpubM c => some (c.bits 8 1)
  | .xsend c => some (c.bits 9 0)
  | .xhost c => some (c.bits 10 0)
  | .xnote h => some (h.bits 11)
  | .sbmp c => some (c.bits 1)
  | .srle c => some (c.bits 2)
  | .sidx c => some (c.bits 3)
  | .snote h => some (h.bitsS 4)
  | _ => none

/-- COP (R70). -/
def copOf (w : BitVec 128) : Nat := (w.extractLsb' 0 4).toNat

/-- The M command named by COP, and by ZV for `MZERO` (R72, R299). -/
noncomputable def buildM (w : BitVec 128) : Option Instr :=
  match copOf w with
  | 1 => some (.mma (mmaOf w))
  | 2 => some (.mmas (mmaOf w))
  | 3 => match (ext w 29 2).toNat with
    | 0 => some (.mzero (mzeroOf w))
    | 1 => some (.mzeroSet (mzeroOf w))
    | 2 => some (.mzeroSetz (mzeroOf w))
    | _ => none
  | 4 => some (.mexp (mxfOf w))
  | 5 => some (.mimp (mxfOf w))
  | 6 => some (.mnote (headOf w))
  | _ => none

/-- The X command named by COP and XFN (R72, R238). -/
noncomputable def buildX (w : BitVec 128) : Option Instr :=
  match copOf w, (ext w 60 3).toNat with
  | 1, 0 => some (.xcpyL (xOf w))
  | 1, 1 => some (.xcpyS (xOf w))
  | 1, 2 => some (.xcpyT (xOf w))
  | 1, 3 => some (.xcpyR (xOf w))
  | 2, 0 => some (.xfil (xOf w))
  | 2, 1 => some (.xfilM (xOf w))
  | 3, 0 => some (.xgth (xOf w))
  | 4, 0 => some (.xsct (xOf w))
  | 5, 0 => some (.xmeta (xOf w))
  | 5, 1 => some (.xmetaT (xOf w))
  | 6, 0 => some (.xrack (xOf w))
  | 7, 0 => some (.xfetch (xOf w))
  | 8, 0 => some (.xpub (xOf w))
  | 8, 1 => some (.xpubM (xOf w))
  | 9, 0 => some (.xsend (xOf w))
  | 10, 0 => some (.xhost (xOf w))
  | 11, 0 => some (.xnote (headOf w))
  | _, _ => none

/-- The S command named by COP. -/
noncomputable def buildS (w : BitVec 128) : Option Instr :=
  match copOf w with
  | 1 => some (.sbmp (sOf w))
  | 2 => some (.srle (sOf w))
  | 3 => some (.sidx (sOf w))
  | 4 => some (.snote (headOfS w))
  | _ => none

/-- The check of R73 for the command that COP, XFN and ZV name. -/
def infoCmd (r : RingId) (w : BitVec 128) : Option (Info (BitVec 128)) :=
  match r, copOf w with
  | .m, 1 => some (let o : MmaCmd := mmaOf w; ⟨o.bits 1, topOk o.vt, [], true⟩)
  | .m, 2 => some (let o : MmaCmd := mmaOf w; ⟨o.bits 2, topOk o.vt, [], true⟩)
  | .m, 3 => match (ext w 29 2).toNat with
    | 0 => some (let o : MzeroCmd := mzeroOf w; ⟨o.bits 0, noShd o.h && o.view == 0, [], true⟩)
    | 1 => some (let o : MzeroCmd := mzeroOf w; ⟨o.bits 1, noShd o.h && viewBitsOk o.view, [], true⟩)
    | 2 => some (let o : MzeroCmd := mzeroOf w; ⟨o.bits 2, noShd o.h && viewBitsOk o.view, [], true⟩)
    | _ => none
  | .m, 4 => some (let o : MxfCmd := mxfOf w; ⟨o.bits 4, topOk o.top && mxfRawOk o, [o.fmt], mxfFmtOk o && readingOk o.fmt o.rdg⟩)
  | .m, 5 => some (let o : MxfCmd := mxfOf w; ⟨o.bits 5, topOk o.top && mxfRawOk o && noShd o.h, [o.fmt], mxfFmtOk o && readingOk o.fmt o.rdg⟩)
  | .m, 6 => some (let o : CmdHead := headOf w; ⟨o.bits 6, noShd o, [], true⟩)
  | .x, 1 => match (ext w 60 3).toNat with
    | 0 => some (let o : XCmd := xOf w; ⟨o.bits 1 0, holdOk o && topOk o.dt && o.st == 0 && o.opnd == 0, [], true⟩)
    | 1 => some (let o : XCmd := xOf w; ⟨o.bits 1 1, holdOk o && o.dt == 0 && topOk o.st && o.opnd == 0, [], true⟩)
    | 2 => some (let o : XCmd := xOf w; ⟨o.bits 1 2, holdOk o && topOk o.dt && topOk o.st && o.desc == 0 && o.opnd == 0, [], true⟩)
    | 3 => some (let o : XCmd := xOf w; ⟨o.bits 1 3, holdOk o && topOk o.dt && o.st == 0 && o.desc == 0 && decide (o.opnd.toNat < 32), [], true⟩)
    | _ => none
  | .x, 2 => match (ext w 60 3).toNat with
    | 0 => some (let o : XCmd := xOf w; ⟨o.bits 2 0, holdOk o && topOk o.dt && o.st == 0 && o.desc == 0, [], true⟩)
    | 1 => some (let o : XCmd := xOf w; ⟨o.bits 2 1, descOnly o, [], true⟩)
    | _ => none
  | .x, 3 => match (ext w 60 3).toNat with
    | 0 => some (let o : XCmd := xOf w; ⟨o.bits 3 0, holdOk o && topOk o.dt && o.st == 0 && decide (o.opnd.toNat < 4096) && topOk (o.opnd.setWidth 12), [], true⟩)
    | _ => none
  | .x, 4 => match (ext w 60 3).toNat with
    | 0 => some (let o : XCmd := xOf w; ⟨o.bits 4 0, !o.hold && noShd o.h && o.dt == 0 && topOk o.st && decide (o.opnd.toNat < 4096) && topOk (o.opnd.setWidth 12), [], true⟩)
    | _ => none
  | .x, 5 => match (ext w 60 3).toNat with
    | 0 => some (let o : XCmd := xOf w; ⟨o.bits 5 0, !o.hold && noShd o.h && o.dt == 0 && o.st == 0 && decide (o.opnd.toNat < 4), [], true⟩)
    | 1 => some (let o : XCmd := xOf w; ⟨o.bits 5 1, !o.hold && noShd o.h && o.dt == 0 && topOk o.st && o.desc == 0 && o.opnd.extractLsb' 2 14 == 0, [], true⟩)
    | _ => none
  | .x, 6 => match (ext w 60 3).toNat with
    | 0 => some (let o : XCmd := xOf w; ⟨o.bits 6 0, !o.hold && noShd o.h && decide (o.dt.toNat < 64) && o.st == 0 && o.desc == 0 && o.opnd == 0, [], true⟩)
    | _ => none
  | .x, 7 => match (ext w 60 3).toNat with
    | 0 => some (let o : XCmd := xOf w; ⟨o.bits 7 0, !o.hold && noShd o.h && decide (o.dt.toNat < 64) && o.st == 0 && o.desc == 0 && o.opnd == 0, [], true⟩)
    | _ => none
  | .x, 8 => match (ext w 60 3).toNat with
    | 0 => some (let o : XCmd := xOf w; ⟨o.bits 8 0, !o.hold && noShd o.h && decide (o.dt.toNat < 64) && o.st == 0 && o.desc == 0 && o.opnd == 0, [], true⟩)
    | 1 => some (let o : XCmd := xOf w; ⟨o.bits 8 1, !o.hold && noShd o.h && o.dt == 0 && o.st == 0 && o.opnd == 0, [], true⟩)
    | _ => none
  | .x, 9 => match (ext w 60 3).toNat with
    | 0 => some (let o : XCmd := xOf w; ⟨o.bits 9 0, !o.hold && o.dt == 0 && topOk o.st && o.desc == 0 && decide (o.opnd.toNat < 32), [], true⟩)
    | _ => none
  | .x, 10 => match (ext w 60 3).toNat with
    | 0 => some (let o : XCmd := xOf w; ⟨o.bits 10 0, !o.hold && noShd o.h && o.dt == 0 && topOk o.st && decide (o.opnd.toNat < 0x10000), [], true⟩)
    | _ => none
  | .x, 11 => some (let o : CmdHead := headOf w; ⟨o.bits 11, noShd o, [], true⟩)
  | .s, 1 => some (let o : SCmd := sOf w; ⟨o.bits 1, sOk o && o.wid == 0, [], true⟩)
  | .s, 2 => some (let o : SCmd := sOf w; ⟨o.bits 2, sOk o && o.wid != 3, [], true⟩)
  | .s, 3 => some (let o : SCmd := sOf w; ⟨o.bits 3, sOk o && o.wid != 3, [], true⟩)
  | .s, 4 => some (let o : CmdHead := headOfS w; ⟨o.bitsS 4, noShd o && decide (o.awc.toNat < 0x10000), [], true⟩)
  | _, _ => none

/-- R73 for a command's bits: the error, if any. The formats of `MEXP` and `MIMP` are checked here too
(R301). A kernel entry is checked at its push (R197). -/
def checkCmd (r : RingId) (w : BitVec 128) : Option DecErr :=
  match infoCmd r w with
  | none => some .illegal
  | some x => x.err w

/-- R73: the command in a ring, or why it is refused. -/
noncomputable def decodeCmd (r : RingId) (w : BitVec 128) : Except DecErr Instr :=
  match checkCmd r w, (match r with | .m => buildM w | .x => buildX w | .s => buildS w | .k => none) with
  | none, some i => .ok i
  | some e, _ => .error e
  | none, none => .error .illegal

/-! ### Rows of the opcode table -/

/-- The instruction that the decoders read from `nbits` bits `w`. The C and V maps use the same words
for different instructions (R65, R67): the C stream's reading comes first. -/
noncomputable def decodeTableWord (nbits w : Nat) : Option Instr :=
  let bits := BitVec.ofNat 96 (w % 2 ^ nbits)
  match decodeC bits with
  | .ok (i, _) => some i
  | .error _ =>
    match decodeV bits with
    | .ok (i, _) => some i
    | .error _ => none

end Sys2Proof
end

