-- ==== Sys2Proof/Machine/Ops.lean ====
section
/-! DEFINITION. The named operations over the state: accessors, registers, translated memory, events,
hardware loops, stop requests, taking an exception (R428) and returning from one (R430), and the one
way in which an instruction of the C or V stream issues and completes (`instr`). -/

namespace Sys2Proof.Machine

abbrev Out := Host.Outcome State Fault Refusal

/-! ### Fault and status codes (R11, R12) -/

abbrev Code := BitVec 8
def fIllegal : Code := 0x01
def fFormat : Code := 0x02
def fAlign : Code := 0x03
def fPage : Code := 0x04
def fPerm : Code := 0x05
def fPoison : Code := 0x06
def fBound : Code := 0x07
def fFwait : Code := 0x08
def fCap : Code := 0x09
def fDepunder : Code := 0x0A
def fVintage : Code := 0x0B
def fArith : Code := 0x0C
def fCurrency : Code := 0x0D
def fSkew : Code := 0x0E
def fPriv : Code := 0x0F
def fTilestate : Code := 0x10
def stSlotshare : Code := 0x81
def stLate : Code := 0x82
def stRecheck : Code := 0x84
def stSealed : Code := 0x85
def stBusy : Code := 0x86

/-- A check that passes, or a fault with the address it names. -/
abbrev Chk (α : Type) := Except (Code × Word) α
def bad {α : Type} (c : Code) : Chk α := .error (c, 0)
def badAt {α : Type} (c : Code) (a : Nat) : Chk α := .error (c, BitVec.ofNat 64 a)
/-- Raises a fault when the condition holds. -/
def failIf (b : Bool) (c : Code) : Chk Unit := if b then bad c else .ok ()
def failIfAt (b : Bool) (c : Code) (a : Nat) : Chk Unit := if b then badAt c a else .ok ()

/-! ### Poison lists -/

/-- Some unit of `w` bytes that meets [a, a+n) is poisoned. -/
def poisoned (l : List Nat) (w a n : Nat) : Bool :=
  l.any fun i => decide (i * w < a + n ∧ a < (i + 1) * w)
/-- A write of [a, a+n) clears the poison of the units it covers whole (R226). -/
def clearPoison (l : List Nat) (w a n : Nat) : List Nat :=
  l.filter fun i => !decide (a ≤ i * w ∧ (i + 1) * w ≤ a + n)
/-- Poisons every unit that meets [a, a+n). -/
def addPoison (l : List Nat) (w a n : Nat) : List Nat :=
  if n = 0 then l else (rangeFrom (a / w) ((a + n - 1) / w + 1 - a / w)).foldl (fun l i => addKey i l) l

/-! ### Places in the state -/

def State.core (s : State) (c : Nat) : Core := Sparse.get Core.reset s.cores c
def State.putCore (s : State) (c : Nat) (v : Core) : State := { s with cores := s.cores.put c v }
def State.modCore (s : State) (c : Nat) (f : Core → Core) : State := s.putCore c (f (s.core c))
def Core.slot (c : Core) (k : Nat) : Slot := Sparse.get Slot.reset c.slots k
def Core.putSlot (c : Core) (k : Nat) (v : Slot) : Core := { c with slots := c.slots.put k v }
def State.slotAt (s : State) (c k : Nat) : Slot := (s.core c).slot k
def State.putSlot (s : State) (c k : Nat) (v : Slot) : State := s.putCore c ((s.core c).putSlot k v)
def State.modSlot (s : State) (c k : Nat) (f : Slot → Slot) : State := s.putSlot c k (f (s.slotAt c k))
def State.part (s : State) (p : Nat) : Part := Sparse.get Part.reset s.parts p
def State.putPart (s : State) (p : Nat) (v : Part) : State := { s with parts := s.parts.put p v }
def State.modPart (s : State) (p : Nat) (f : Part → Part) : State := s.putPart p (f (s.part p))
def State.fn (s : State) (f : Nat) : Func := Sparse.get Func.reset s.funcs f
def State.putFn (s : State) (f : Nat) (v : Func) : State := { s with funcs := s.funcs.put f v }
def State.modFn (s : State) (f : Nat) (g : Func → Func) : State := s.putFn f (g (s.fn f))
def Core.tile (c : Core) (abs : Nat) : Tile := Sparse.get Tile.reset c.ttb abs
def Core.putTile (c : Core) (abs : Nat) (t : Tile) : Core := { c with ttb := c.ttb.put abs t }
def State.tileAt (s : State) (c abs : Nat) : Tile := (s.core c).tile abs
def State.putTile (s : State) (c abs : Nat) (t : Tile) : State := s.putCore c ((s.core c).putTile abs t)
def State.modTile (s : State) (c abs : Nat) (f : Tile → Tile) : State :=
  s.putTile c abs (f (s.tileAt c abs))
/-- The slot whose instruction or command runs. -/
def State.me (s : State) : Slot := s.slotAt s.cur.core s.cur.slot
def State.putMe (s : State) (v : Slot) : State := s.putSlot s.cur.core s.cur.slot v
def State.modMe (s : State) (f : Slot → Slot) : State := s.putMe (f s.me)
def State.myId (s : State) : SlotId := ⟨s.cur.core, s.cur.slot⟩

/-- The die of a core: four dies of 48 cores, each a mesh of eight columns by six rows (R1). -/
def dieOf (c : Nat) : Nat := c / 48

def noTask : Task :=
  { part := 0, recIdx := 0, gen := 0, fn := 0, card := 0, entry := 0, x1 := 0, x2 := 0, x3 := 0, x5 := 0,
    refire := 0, caps := 0, captab := 0, mates := [], member := 0, launched := false, runStart := 0,
    vbase := 0, vsize := 0, refcnt := 0, stopping := none, stopStrm := 7, stopEva := 0,
    refiring := false, wrote := false, depth := 0, colls := [], binds := [] }
def Slot.t (sl : Slot) : Task := sl.task.getD noTask
def Slot.modTask (sl : Slot) (f : Task → Task) : Slot := { sl with task := sl.task.map f }
/-- SYS_TIME in ns (R46; notes/assumptions/6.md). -/
def State.now (s : State) : Nat := s.time / 756

/-! ### Registers (R41, R42) -/

/-- X0 reads as zero. -/
def Slot.xr (sl : Slot) (r : Reg) : Word := if r = 0 then 0 else Sparse.get 0 sl.x r.toNat
/-- Writes to X0 are discarded. -/
def Slot.setX (sl : Slot) (r : Reg) (v : Word) : Slot :=
  if r = 0 then sl else { sl with x := Sparse.set 0 sl.x r.toNat v }
/-- P0 reads as true. -/
def Slot.pr (sl : Slot) (p : PReg) : Bool := p == 0 || sl.p.getLsbD p.toNat
/-- Writes to P0 are discarded. -/
def Slot.setP (sl : Slot) (p : PReg) (b : Bool) : Slot :=
  if p = 0 then sl
  else { sl with p := if b then sl.p ||| (1#8 <<< p.toNat) else sl.p &&& ~~~(1#8 <<< p.toNat) }
def Slot.vr (sl : Slot) (r : Nat) : VWord := Sparse.get 0 sl.v r
def Slot.setV (sl : Slot) (r : Nat) (v : VWord) : Slot := { sl with v := Sparse.set 0 sl.v r v }
/-- Some 64-bit word that meets bytes [lo, lo+n) of V[r] is poisoned (R226). -/
def Slot.vpoisoned (sl : Slot) (r lo n : Nat) : Bool := poisoned sl.vpoison 8 (4096 * r + lo) n
/-- M0 reads as all true. -/
def Slot.mr (sl : Slot) (m : Nat) : MWord := if m = 0 then ~~~(0 : MWord) else Sparse.get 0 sl.m m
/-- Writes to M0 are discarded. -/
def Slot.setM (sl : Slot) (m : Nat) (v : MWord) : Slot :=
  if m = 0 then sl else { sl with m := Sparse.set 0 sl.m m v }
/-- The counts of SEM0 read as 0. -/
def Slot.sem (sl : Slot) (n : Nat) : Sem := if n = 0 then Sem.reset else Sparse.get Sem.reset sl.sems n
def Slot.setSem (sl : Slot) (n : Nat) (v : Sem) : Slot :=
  if n = 0 then sl else { sl with sems := Sparse.set Sem.reset sl.sems n v }
/-- GD0 is resolved true and cannot be changed. -/
def Slot.guard (sl : Slot) (g : Nat) : BitVec 2 := if g = 0 then 1 else Sparse.get 0 sl.gd g
def Slot.setGuard (sl : Slot) (g : Nat) (v : BitVec 2) : Slot :=
  if g = 0 then sl else { sl with gd := Sparse.set 0 sl.gd g v }
def Slot.greg (sl : Slot) (g : Nat) : BitVec 256 := Sparse.get 0 sl.g g
def Slot.view (sl : Slot) (n : Nat) : BitVec 32 := Sparse.get 0 sl.acc n
def Slot.nestRow (sl : Slot) (set row : Nat) : Word := Sparse.get 0 sl.nest (8 * set + row)
def Slot.handle (sl : Slot) (n : Nat) : CbHandle := Sparse.get CbHandle.reset sl.cb n
def Slot.cap (sl : Slot) (n : Nat) : Nat := (Sparse.get 0 sl.ch n).toNat
def Slot.setCap (sl : Slot) (n : Nat) (v : Nat) : Slot :=
  { sl with ch := Sparse.set 0 sl.ch n (BitVec.ofNat 128 v) }
/-- ALLOW of a capability: the uses left (R25). -/
def capAllow (c : Nat) : Nat := bitsN c 64 32
/-- Counts ALLOW down (R108). -/
def Slot.useAllow (sl : Slot) (c : Nat) : Slot :=
  let e := sl.cap c
  if capAllow e = 0xFFFFFFFF then sl else sl.setCap c (setBitsN e 64 32 (capAllow e - 1))
def Slot.te (sl : Slot) (e : Nat) : Taste := Sparse.get Taste.reset sl.taste e
def Slot.setTe (sl : Slot) (e : Nat) (t : Taste) : Slot :=
  { sl with taste := Sparse.set Taste.reset sl.taste e t }

/-- raise(s) (R164): D of SEM0 does not change. -/
def Slot.raiseSem (sl : Slot) (n : Nat) : Slot :=
  sl.setSem n { sl.sem n with done := (sl.sem n).done + 1 }
/-- A raise is pushed (R135). -/
def Slot.pushSem (sl : Slot) (n : Nat) : Slot :=
  sl.setSem n { sl.sem n with pushed := (sl.sem n).pushed + 1 }

/-- The number of a stream (R47). -/
def strmNo : Strm → Nat
  | .c => 0 | .v => 1 | .m => 2 | .x => 3 | .s => 4
def strmOf : Nat → Strm
  | 0 => .c | 1 => .v | 2 => .m | 3 => .x | _ => .s

/-- Sets sticky flags of a stream (R434). -/
def Slot.orFlags (sl : Slot) (st : Strm) (f : Fl) : Slot :=
  { sl with flags := sl.flags ||| (f.setWidth 64 <<< (8 * strmNo st)) }

/-- Does `f` for another stream. -/
def State.withCur (s : State) (r : StrmRef) (f : State → State) : State :=
  { f { s with cur := r } with cur := s.cur }

/-- The C or V stream's state (any other stream: the V stream's). -/
def Slot.ss (sl : Slot) : Strm → StreamSt
  | .c => sl.cs
  | _ => sl.vs
def Slot.setSs (sl : Slot) (st : Strm) (x : StreamSt) : Slot :=
  match st with
  | .c => { sl with cs := x }
  | _ => { sl with vs := x }
def Slot.modSs (sl : Slot) (st : Strm) (f : StreamSt → StreamSt) : Slot := sl.setSs st (f (sl.ss st))

def Slot.ring (sl : Slot) : RingId → Ring
  | .m => sl.mring
  | .x => sl.xring
  | .s => sl.sring
  | .k => sl.kring
def Slot.setRing (sl : Slot) (r : RingId) (v : Ring) : Slot :=
  match r with
  | .m => { sl with mring := v }
  | .x => { sl with xring := v }
  | .s => { sl with sring := v }
  | .k => { sl with kring := v }
def Slot.modRing (sl : Slot) (r : RingId) (f : Ring → Ring) : Slot := sl.setRing r (f (sl.ring r))
def ringOf : Strm → RingId
  | .m => .m | .x => .x | .s => .s | .c => .k | .v => .k
def strmOfRing : RingId → Strm
  | .m => .m | .x => .x | .s => .s | .k => .v

/-- Entries of a ring: 256, and 16 in the V kernel queue (R45, R197). -/
def ringCap : RingId → Nat
  | .k => 16
  | _ => 256
/-- Commands from the read pointer to the write pointer (R45). -/
def Ring.len (r : Ring) : Nat := (r.wp - r.rp).toNat
def Ring.at (r : Ring) (id : RingId) (ptr : BitVec 9) : BitVec 128 :=
  Sparse.get 0 r.entries (ptr.toNat % ringCap id)
/-- The head command's bits. -/
def Ring.headBits (r : Ring) (id : RingId) : BitVec 128 :=
  match r.head.moved with
  | some (w, _) => w
  | none => r.at id r.rp
/-- The i-th command from the head on, and its push number. -/
def Ring.cmd (r : Ring) (id : RingId) (i : Nat) : BitVec 128 :=
  if i = 0 then r.headBits id else r.at id (r.rp + BitVec.ofNat 9 i)
def Ring.cmdNo (r : Ring) (id : RingId) (i : Nat) : Nat :=
  match i, r.head.moved with
  | 0, some (_, n) => n
  | i, _ => Sparse.get 0 r.order ((r.rp + BitVec.ofNat 9 i).toNat % ringCap id)
/-- The commands pushed and not yet decided, oldest first (R137, R139). -/
def Ring.undecided (r : Ring) (id : RingId) : List (BitVec 128) :=
  let skip := if r.head.phase = .fresh then 0 else 1
  (List.range (r.len - skip)).map fun i => r.cmd id (skip + i)
/-- The commands pushed and not yet completed or discarded. -/
def Ring.pending (r : Ring) (id : RingId) : List (BitVec 128) := (List.range r.len).map (r.cmd id)
/-- The head has passed the stages of R137 and is fetched: its entry is free for a push (R14, R132; notes/assumptions/44.md). -/
def Ring.fetched (r : Ring) : Bool := r.head.phase == .ready || r.head.phase == .active || r.head.phase == .finished
/-- An entry is free (R45). -/
def Ring.room (r : Ring) (id : RingId) : Bool := decide (r.len < ringCap id + (if r.fetched then 1 else 0))
/-- The head leaves the ring. -/
def Ring.pop (r : Ring) : Ring :=
  { r with rp := r.rp + 1, head := HeadSt.reset, doneCnt := r.doneCnt + 1 }
/-- A command enters the ring; a fetched head whose entry it takes keeps its bits. -/
def Ring.push (r : Ring) (id : RingId) (w : BitVec 128) (no : Nat) : Ring :=
  let i := r.wp.toNat % ringCap id
  { r with
    entries := Sparse.set 0 r.entries i w, order := Sparse.set 0 r.order i no, wp := r.wp + 1
    head := if r.len < ringCap id then r.head else { r.head with moved := some (r.headBits id, r.cmdNo id 0) } }

/-! ### Element shape (R43, R44) -/

def vRows (v : BitVec 32) : Nat := bitsN v.toNat 0 13
def vCols (v : BitVec 32) : Nat := bitsN v.toNat 13 13
def vEw (v : BitVec 32) : Nat := bitsN v.toNat 26 3
/-- Element bytes. -/
def Slot.eb (sl : Slot) : Nat := 2 ^ vEw sl.vshape
/-- Elements of VSHAPE (R304). -/
def Slot.n (sl : Slot) : Nat := vRows sl.vshape * vCols sl.vshape
/-- What R43 refuses. -/
def vshapeOk (v : BitVec 32) : Bool :=
  vRows v != 0 && vCols v != 0 && decide (vEw v < 4)
    && decide (vRows v * vCols v * 2 ^ vEw v ≤ 4096)

/-! ### Scratchpad and accumulator store (R207, R225) -/

def homeBase (k : Nat) : Nat := 0x40000 * k
/-- Writes scratchpad bytes: a whole 64-bit word written loses its poison. -/
def Core.swrite (c : Core) (a : Nat) (l : List Byte) : Core :=
  { c with scratch := c.scratch.write a l, scratchPoison := clearPoison c.scratchPoison 8 a l.length }
def Core.spoisoned (c : Core) (a n : Nat) : Bool := poisoned c.scratchPoison 8 a n
/-- Byte address of column `col` of row `row` of a slot's share. -/
def acsAddr (k row col : Nat) : Nat := ((128 * k + row) * 256 + col) * 4
def Core.awrite (c : Core) (a : Nat) (l : List Byte) : Core :=
  { c with acs := c.acs.write a l, acsPoison := clearPoison c.acsPoison 8 a l.length }

/-! ### Counters (R461, R462) -/

def counterBump (b : CounterBank) (ev slot : Nat) (slotEv : Bool) (n : Nat) : CounterBank :=
  if b.holder.isNone || (slotEv && !b.cfg.getLsbD (34 + slot)) then b
  else
    (List.range 4).foldl (fun b k =>
      if bitsN b.cfg.toNat (8 * k) 8 = ev then
        let v := (nth 0 b.counts k).toNat + n
        { b with counts := setNth b.counts k (BitVec.ofNat 48 v),
                 ovf := if v < 2 ^ 48 then b.ovf else b.ovf ||| (1#4 <<< k) }
      else b) b

/-- The function that owns the task of a slot. -/
def State.ownerOf (s : State) (c k : Nat) : Option Nat := (s.slotAt c k).task.map (·.fn)

/-- An event of a core, counted in every bank that selects it; a guest's bank counts a slot's event only
when the guest owns the slot's task (R461). -/
def State.count (s : State) (c ev : Nat) (slot : Option Nat) (n : Nat := 1) : State :=
  s.modCore c fun co =>
    { co with banks := co.banks.map fun (i, b) =>
        match slot with
        | none => (i, counterBump b ev 0 false n)
        | some k =>
          match b.holder with
          | some f => if f = 0 || s.ownerOf c k = some f then (i, counterBump b ev k true n) else (i, b)
          | none => (i, b) }

/-! ### Translation (R228 to R230) -/

inductive Acc where
  | rd | wr | ex | rw
  deriving DecidableEq, Repr

/-- The permission bits an access needs (R229, order 2). -/
def accOkPte (a : Acc) (pte : Nat) : Bool :=
  match a with
  | .rd => bitN pte 2
  | .wr => bitN pte 3
  | .ex => bitN pte 4
  | .rw => bitN pte 2 && bitN pte 3

/-- Levels of R228: index low bit, index width, leaves allowed, size of the table below. -/
def levels : List (Nat × Nat × Bool × Nat) :=
  [(39, 13, false, 4096), (30, 9, true, 4096), (21, 9, true, 256), (16, 5, true, 1)]

/-- The page address field of an entry. -/
def pteBase (pte : Nat) : Nat := bitsN pte 8 44 * 256

/-- What a walk finds: the leaf entry, its page's log2 size, its own address, and whether a read returned poison. -/
structure Leaf where
  pte : Nat
  lg : Nat
  ea : Nat
  bad : Bool

/-- Host memory: bit 51 of the physical address (R467). -/
def isHost (pa : Nat) : Bool := bitN pa 51
/-- A 64 KiB page of a function's I/O virtual addresses, from an address of host memory (R467). -/
def atsPage (f pa : Nat) : Nat := f * 2 ^ 35 + pa % 2 ^ 51 / 0x10000
/-- Where a function's access to a physical address is made: an address of host memory by the host page that ATS gives for its
I/O virtual page, which the address translation cache keeps (R467; notes/assumptions/16.md). -/
def State.placeOf (s : State) (f pa : Nat) : Nat :=
  if isHost pa then
    pa + f * 2 ^ 52 + ((s.atc.lookup (atsPage f pa)).getD (Config.atsResult f (pa % 2 ^ 51 / 0x10000) s.seq)) * 2 ^ 60
  else pa
/-- An address lies in a range of 64 KiB units (R473). -/
def inRanges (rs : Sparse (BitVec 128)) (a : Nat) : Bool :=
  rs.any fun (_, r) =>
    let base := bitsN r.toNat 0 35 * 0x10000
    decide (base ≤ a ∧ a < base + bitsN r.toNat 64 35 * 0x10000)

/-- R229, order 3. -/
def Part.paOk (p : Part) (pa : Nat) : Bool :=
  if isHost pa then inRanges p.hostR (bitsN pa 0 51)
  else decide (pa < 2 ^ 39) && inRanges p.hbm pa

/-- A walk of function `f` of partition `p` from a table, with F_PAGE for what R229 lists first and F_PERM for a table outside
the partition's ranges; poison found on the way is for the caller, since it ranks last. -/
def State.walk (s : State) (f p va : Nat) (bad : Bool) : List (Nat × Nat × Bool × Nat) → Nat → Except Code Leaf
  | [], _ => .error fPage
  | (sh, w, leafOk, next) :: rest, base =>
    let ea := s.placeOf f (base + 8 * bitsN va sh w)
    let bad := bad || (!isHost ea && poisoned s.memPoison 64 ea 8)
    let e := s.mem.nat ea 8
    if !bitN e 0 || bitsN e 5 3 != 0 || bitsN e 52 12 != 0 then .error fPage
    else if bitN e 1 then
      (if !leafOk || pteBase e % 2 ^ sh != 0 then .error fPage else .ok ⟨e, sh, ea, bad⟩)
    else if rest.isEmpty || pteBase e % next != 0 then .error fPage
    else if !(s.part p).paOk (pteBase e) then .error fPerm
    else s.walk f p va bad rest (pteBase e)

/-- A translation that a TLB of the core or its die keeps (R230); core none: no TLB. -/
def State.tlbFind (s : State) (c : Option Nat) (f va : Nat) : Option TlbEntry :=
  match c with
  | none => none
  | some c => s.tlb.find? fun e =>
      (e.core == c || e.core == 192 + dieOf c) && e.fn == f && e.va == va / 2 ^ e.lg * 2 ^ e.lg

/-- Translates for function `f` of partition `p` on core `c` (R228, R229); a table read is made at its
physical address. -/
def State.xlate (s : State) (c : Option Nat) (f p va : Nat) (a : Acc) : Except Code Nat :=
  if va ≥ 2 ^ 52 then .error fPage
  else
    match (match s.tlbFind c f va with
      | some e => (.ok ⟨e.pte.toNat, e.lg, 0, false⟩ : Except Code Leaf)
      | none => s.walk f p va false levels (s.fn f).ptroot.toNat) with
    | .error e => .error e
    | .ok l =>
      if !accOkPte a l.pte then .error fPerm
      else
        let pa := pteBase l.pte + va % 2 ^ l.lg
        if !(s.part p).paOk pa then .error fPerm
        else if l.bad then .error fPoison
        else .ok (s.placeOf f pa)

/-- The bytes of a run, translated page by page (64 KiB at a time): pieces of physical address and
length, or the fault with the first failing byte. `n` bounds the pieces. -/
def State.xlatePieces (s : State) (c : Option Nat) (f p : Nat) (a : Acc) :
    Nat → Nat → Nat → Except (Code × Nat) (List (Nat × Nat))
  | 0, _, _ => .ok []
  | k + 1, va, len =>
    if len = 0 then .ok []
    else
      match s.xlate c f p va a with
      | .error e => .error (e, va)
      | .ok pa =>
        let n := min len (0x10000 - va % 0x10000)
        match s.xlatePieces c f p a k (va + n) (len - n) with
        | .error e => .error e
        | .ok l => .ok ((pa, n) :: l)

def State.pieces (s : State) (c : Option Nat) (f p : Nat) (a : Acc) (va len : Nat) :
    Except (Code × Nat) (List (Nat × Nat)) :=
  s.xlatePieces c f p a (len / 0x10000 + 2) va len

/-- The address translation cache keeps the translations of the host pages that an access at `pa` uses (R467). -/
def atcFill (l : Sparse Nat) (pa n : Nat) : Sparse Nat :=
  if isHost pa && n != 0 then
    (rangeFrom (pa / 0x10000) ((pa + n - 1) / 0x10000 + 1 - pa / 0x10000)).foldl (fun l g =>
      l.put (g / 2 ^ 36 % 2 ^ 8 * 2 ^ 35 + g % 2 ^ 35) (g / 2 ^ 44)) l
  else l

/-- The misses of one translation for a slot's task (R462): of the L1 TLB that does not keep the page, and of the L2 TLB with
the walk that starts, where neither does. -/
def State.missAt (s : State) (c k va : Nat) : State :=
  let f := (s.slotAt c k).t.fn
  let keeps (d : Nat) : Bool := s.tlb.any fun e => e.core == d && e.fn == f && e.va == va / 2 ^ e.lg * 2 ^ e.lg
  if keeps c || decide (2 ^ 52 ≤ va) then s
  else
    let s := s.count c 0x0E (some k)
    if keeps (192 + dieOf c) then s else (s.count c 0x0F none).count c 0x10 none
/-- The misses of an access to a run of a slot's task, page by page to the first that does not translate, and what the
address translation cache keeps of it; `n` bounds the pages. -/
def State.missPages (s : State) (c k : Nat) (a : Acc) : Nat → Nat → Nat → State
  | 0, _, _ => s
  | n + 1, va, len =>
    if len = 0 then s
    else
      let t := s.missAt c k va
      match s.xlate (some c) (s.slotAt c k).t.fn (s.slotAt c k).t.part va a with
      | .error _ => t
      | .ok pa =>
        let m := min len (0x10000 - va % 0x10000)
        { t with atc := atcFill t.atc pa 1 }.missPages c k a n (va + m) (len - m)
def State.misses (s : State) (c k : Nat) (a : Acc) (va len : Nat) : State := s.missPages c k a (len / 0x10000 + 2) va len

/-! ### Physical memory: writes wake monitors (R383), and the host sees a device write only after a
`PUBH` that releases it (R381) -/

/-- The function and partition a slot's accesses are made for. -/
def State.ctx (s : State) (c k : Nat) : Nat × Nat := ((s.slotAt c k).t.fn, (s.slotAt c k).t.part)

/-- Wakes the monitors whose granule a physical write meets. -/
def State.wake (s : State) (pa n : Nat) : State :=
  { s with cores := s.cores.map fun (i, co) =>
      (i, { co with slots := co.slots.map fun (k, sl) =>
        (k, if sl.mon.armed && decide (sl.mon.pa * 64 < pa + n ∧ pa < (sl.mon.pa + 1) * 64)
            then { sl with mon := { sl.mon with written := true } } else sl) }) }

/-! The order of device writes is the order of moves (notes/assumptions/8.md). For the host the model keeps which agents
have made, observed or acquired each write that no `PUBH` has released (R364, R381). -/

/-- The slot an agent works for. -/
def Agent.slot : Agent → SlotId
  | .strm r | .run r => ⟨r.core, r.slot⟩
  | .raised c k _ _ => ⟨c, k⟩
  | .coll k _ _ | .fence k _ | .taken k _ _ => k
  | .obj _ _ k _ | .bar _ _ _ k _ | .msg _ k _ | .early k | .own k => k
  | .place _ => ⟨0, 0⟩
/-- The agents that a scope of slot `a` contains (R363): `b`'s among them. -/
def scopeHas (sc : Nat) (a b : SlotId) : Bool :=
  match sc with
  | 0 => a == b
  | 1 => a.core == b.core
  | 2 => dieOf a.core == dieOf b.core
  | _ => true
/-- A release of `a` and an acquire of `b` synchronise: each scope contains the other's agent (R365). -/
def syncs (a : SlotId) (rel : Nat) (b : SlotId) (acq : Nat) : Bool := scopeHas rel a b && scopeHas acq b a

/-- The regions bound to sync objects (R223): partition, object, base and size. -/
def State.bindings (s : State) : List (Nat × Nat × Nat × Nat) :=
  s.parts.flatMap fun (p, q) =>
    let b := q.bindBase.toNat
    (s.mem.filter fun (a, v) => decide (b ≤ a ∧ a < b + 0x10000) && (a - b) % 16 == 0 && v.getLsbD 0).map fun (a, _) =>
      (p, s.mem.nat (a + 2) 2, s.mem.nat (a + 8) 8, s.mem.nat (a + 4) 4 * 64)
/-- The write lies in the region of a binding. -/
def HidWrite.inRegion (w : HidWrite) (b : Nat × Nat × Nat × Nat) : Bool :=
  match w.va with
  | some a => w.part == b.1 && decide (b.2.2.1 ≤ a ∧ a < b.2.2.1 + b.2.2.2)
  | none => false
/-- A write to a bound location that no `REL` and no retirement has released (R378). -/
def HidWrite.withheld (w : HidWrite) (bs : List (Nat × Nat × Nat × Nat)) : Bool := !w.free && bs.any w.inRegion
def HidWrite.tell (w : HidWrite) (v : Agent) : HidWrite := if w.known.contains v then w else { w with known := v :: w.known }

def State.mapHidden (s : State) (f : HidWrite → HidWrite) : State :=
  if s.hidden.isEmpty then s
  else { s with hidden := s.hidden.map fun (a, x) => (a, { x with writes := x.writes.map f }) }
def State.mapHiddenAt (s : State) (pa n : Nat) (f : HidWrite → HidWrite) : State :=
  let one (a : Nat) (x : Hidden) : Hidden := if decide (pa ≤ a ∧ a < pa + n) then { x with writes := x.writes.map f } else x
  { s with hidden := s.hidden.map fun (a, x) => (a, one a x) }
/-- The early reads of a C stream end: its later loads are performed after this (R364, R366, R367). -/
def State.dropEarly (s : State) (w : Agent) : State :=
  match w with
  | .strm ⟨c, k, .c⟩ =>
    if s.early.isEmpty then s
    else { s with early := s.early.filter fun e => !(e.core == c && e.slot == k) }.mapHidden fun x =>
      { x with known := x.known.filter (· != Agent.early ⟨c, k⟩) }
  | _ => s
/-- What an agent that satisfies `p` knows, `v` comes to know; a withheld write is not passed on. A C stream that acquires so
has read nothing of later early. -/
def State.passIf (s : State) (p : Agent → Bool) (v : Agent) : State :=
  let s := s.dropEarly v
  if s.hidden.isEmpty then s
  else
    let bs := s.bindings
    s.mapHidden fun x => if x.known.any p && !x.withheld bs then x.tell v else x
def State.pass (s : State) (w v : Agent) : State := s.passIf (· == w) v
def State.forgetIf (s : State) (p : Agent → Bool) : State :=
  s.mapHidden fun x => { x with known := x.known.filter fun w => !p w }
def State.forget (s : State) (w : Agent) : State := s.forgetIf (· == w)

/-- A write of a device agent to HBM: what the host still reads is kept. -/
def hideWrite (h : Sparse Hidden) (m : Mem) (w : Agent) (part : Nat) (pa : Nat) (l : List Byte) : Sparse Hidden :=
  (l.zip (rangeFrom pa l.length)).foldl (fun h (b, a) =>
    let n : HidWrite := { val := b, slot := w.slot, part := part, va := none, free := false, known := [w] }
    match h.lookup a with
    | some x => h.put a { x with writes := x.writes ++ [n] }
    | none => h.put a { old := m.byte a, writes := [n] }) h
/-- The value of bytes [pa, pa+n) comes from no release any more. -/
def RelPlace.overwrite (x : RelPlace) (pa n : Nat) : RelPlace := { x with live := x.live.filter fun a => !decide (pa ≤ a ∧ a < pa + n) }
/-- A write to physical memory by a device agent, or (none) by the host, the queue engine or a peer. A
granule of HBM loses its poison only when all its 64 bytes are written (R226). -/
def State.pwrite (s : State) (w : Option Agent) (pa : Nat) (l : List Byte) : State :=
  let s := s.wake pa l.length
  { s with
    mem := s.mem.write pa l
    memPoison := clearPoison s.memPoison 64 pa l.length
    places := s.places.map (·.overwrite pa l.length)
    atc := atcFill s.atc pa l.length
    hidden := (match w with
      | some w => if isHost pa then s.hidden else hideWrite s.hidden s.mem w (s.slotAt w.slot.core w.slot.slot).t.part pa l
      | none => s.hidden.filter fun (a, _) => !decide (pa ≤ a ∧ a < pa + l.length)) }
/-- The newest writes of bytes [pa, pa+n) were made at address `va`. -/
def State.madeAt (s : State) (va pa n : Nat) : State :=
  if s.hidden.isEmpty then s
  else { s with hidden := s.hidden.map fun (a, x) =>
          (a, if decide (pa ≤ a ∧ a < pa + n) then
            (match x.writes.reverse with
              | w :: t => { x with writes := ({ w with va := some (va + (a - pa)) } :: t).reverse }
              | [] => x) else x) }

/-- A device read makes the reader an observer of the writes it returns (R364). -/
def State.observe (s : State) (w : Agent) (pa n : Nat) : State :=
  let s := { s with atc := atcFill s.atc pa n }.dropEarly w
  if s.hidden.isEmpty then s
  else { s with hidden := s.hidden.map fun (a, x) =>
          (a, if decide (pa ≤ a ∧ a < pa + n) then
            (match x.writes.reverse with
              | v :: t => { x with writes := (v.tell w :: t).reverse }
              | [] => x) else x) }

/-- A command's writes pass from its run to the raise that announces it (R138, R364); without one nobody awaits them. -/
def State.passRun (s : State) (r : StrmRef) (rss d : Nat) : State :=
  let s := if rss = 0 then s else s.pass (.run r) (.raised r.core r.slot rss d)
  s.forget (.run r)
/-- A stream has awaited n raises of a semaphore of its slot: it has observed what they announce. -/
def State.learn (s : State) (rss n : Nat) : State :=
  let r := s.cur
  if rss = 0 then s
  else s.passIf (fun w => match w with
    | .raised c k m d => c == r.core && k == r.slot && m == rss && decide (d ≤ n)
    | _ => false) (.strm r)
/-- What a slot's streams and commands wrote to locations that satisfy `p` is released by its C stream (R377, R379). -/
def State.freeWrites (s : State) (k : SlotId) (p : HidWrite → Bool) : State :=
  s.mapHidden fun x => if x.slot == k && p x then { x with free := true }.tell (.strm ⟨k.core, k.slot, .c⟩) else x
/-- The agents of a slot that its seated task leaves behind. -/
def Agent.isOf (k : SlotId) : Agent → Bool
  | .strm r | .run r => r.core == k.core && r.slot == k.slot
  | .raised c j _ _ => c == k.core && j == k.slot
  | .fence j _ | .taken j _ _ | .early j => j == k
  | _ => false
def State.forgetSlot (s : State) (k : SlotId) : State := (s.dropEarly (.strm ⟨k.core, k.slot, .c⟩)).forgetIf (·.isOf k)
/-- A re-fire leaves behind what the slot's commands wrote and had not announced, and the raises of before (R364, R397). -/
def State.forgetRuns (s : State) (k : SlotId) : State := s.forgetIf fun w =>
  match w with
  | .run r => r.core == k.core && r.slot == k.slot
  | .raised c j _ _ => c == k.core && j == k.slot
  | _ => false

/-- release(SYS) towards the host: of each byte, the writes up to the latest that the agent knows reach its windows
(R366, R381). -/
def Hidden.release (bs : List (Nat × Nat × Nat × Nat)) (w : Agent) : List HidWrite → Option (Byte × List HidWrite)
  | [] => none
  | x :: t =>
    match Hidden.release bs w t with
    | some r => some r
    | none => if x.known.contains w && !x.withheld bs then some (x.val, t) else none
def State.releaseHost (s : State) (w : Agent) : State :=
  if s.hidden.isEmpty then s
  else
    let bs := s.bindings
    { s with hidden := s.hidden.filterMap fun (a, x) =>
        match Hidden.release bs w x.writes with
        | none => some (a, x)
        | some (_, []) => none
        | some (v, t) => some (a, ⟨v, t⟩) }

/-- Writes pieces in order. -/
def State.pwrites (s : State) (w : Option Agent) : List (Nat × Nat) → List Byte → State
  | [], _ => s
  | (pa, n) :: t, l => (s.pwrite w pa (l.take n)).pwrites w t (l.drop n)
def State.preads (s : State) : List (Nat × Nat) → List Byte
  | [] => []
  | (pa, n) :: t => s.mem.read pa n ++ s.preads t
def State.ppoison (s : State) (l : List (Nat × Nat)) : Bool :=
  l.any fun (pa, n) => !isHost pa && poisoned s.memPoison 64 pa n
/-- The pool is read-only to device code (R26). -/
def Part.inPool (p : Part) (pa n : Nat) : Bool :=
  decide (p.poolBase.toNat < pa + n ∧ pa < p.poolBase.toNat + 0x40000)

/-! ### Events towards the host (R468, R469) -/

/-- A coalesced vector sends its message when its count is reached or its hold ends, unless masked. -/
def Vector.settle (v : Vector) (now : Nat) : Vector :=
  let cnt := max 1 (bitsN v.icoal.toNat 0 16)
  let t := bitsN v.icoal.toNat 16 32
  if v.pending ≠ 0 ∧ (v.pending ≥ cnt ∨ (t ≠ 0 ∧ now ≥ v.since + t)) then
    if v.masked then { v with pend := true }
    else { v with pending := 0, pend := false, sent := v.sent + 1 }
  else v
/-- One cause of a vector. -/
def State.cause (s : State) (f v : Nat) : State :=
  s.modFn f fun fn =>
    let x := Sparse.get Vector.reset fn.vecs v
    let x := { x with since := if x.pending = 0 then s.now else x.since, pending := x.pending + 1,
                      pend := x.pend || x.masked }
    { fn with vecs := fn.vecs.put v (x.settle s.now) }

/-- An event in a function's EVLOG, with its cause on vector 2. -/
def State.event (s : State) (f kind core : Nat) : State :=
  let s := s.modFn f fun fn =>
    let v := (bitsN fn.evlog.toNat 0 32 + 1) % 2 ^ 32 + kind * 2 ^ 32 + core * 2 ^ 40
    { fn with evlog := BitVec.ofNat 64 v }
  s.cause f 2

/-- An event of the whole module, in every function (R468). -/
def State.eventAll (s : State) (kind : Nat) : State :=
  (List.range Config.numFuncs).foldl (fun s f => s.event f kind 0) s

/-- The functions of a partition, rising. -/
def Part.fns (p : Part) : List Nat := (List.range 129).filter fun f => p.funcMask.getLsbD f
/-- The cores of a partition, rising. -/
def Part.cores (p : Part) : List Nat := (List.range 192).filter fun c => p.coreMask.getLsbD c
/-- The partition of a core. -/
def State.partOfCore (s : State) (c : Nat) : Option Nat :=
  (List.range 20).find? fun p => (s.part p).coreMask.getLsbD c
def State.partOfFn (s : State) (f : Nat) : Option Nat :=
  (List.range 20).find? fun p => (s.part p).funcMask.getLsbD f

/-- A write of an entry or record through a function's translation; a failure loses it and is
reported as an event of kind 6 (R495), and so is one of a function in no partition. -/
def State.ringWrite (s : State) (f : Nat) (va : Nat) (l : List Byte) : State :=
  match s.partOfFn f with
  | none => s.event f 6 0
  | some p =>
    match s.pieces none f p .wr va l.length with
    | .ok ps => s.pwrites none ps l
    | .error _ => s.event f 6 0

/-! ### Trace records (R457 to R459) -/

/-- A function that receives trace records of a slot's task: its owner when it is a guest that claimed
the partition's trace units, the physical function for the partition it traces. -/
def State.traceTo (s : State) (c k : Nat) : Option Nat :=
  let t := (s.slotAt c k).t
  let pf := s.fn 0
  if pf.trClaim && bitsN pf.trcfg.toNat 18 5 = t.part then some 0
  else if t.fn ≠ 0 ∧ (s.fn t.fn).trClaim then some t.fn
  else if t.fn = 0 ∧ pf.trClaim ∧ bitsN pf.trcfg.toNat 18 5 = t.part then some 0 else none

/-- A trace record of a slot: it goes to the ring at the end of the cycle (R451). -/
def State.trace (s : State) (c k kind : Nat) (st : Strm) (code : Nat) (data : Nat) : State :=
  match s.traceTo c k with
  | none => s
  | some f =>
    let fn := s.fn f
    if !bitN fn.trcfg.toNat (6 + kind) then s
    else
      let t := (s.slotAt c k).t
      let v := kind + k * 2 ^ 8 + strmNo st * 2 ^ 11 + c * 2 ^ 16 + code * 2 ^ 24
        + s.cycle % 2 ^ 64 * 2 ^ 32 + t.recIdx * 2 ^ 96 + data * 2 ^ 128
      { s with traced := s.traced ++ [⟨f, (c * 8 + k) * 8 + strmNo st, BitVec.ofNat 256 v⟩] }
/-- Writes a record into the ring of the function that holds the trace units; RNUM advances in any case (R457). -/
def State.traceWrite (s : State) (x : Traced) : State :=
  let fn := s.fn x.fn
  if !fn.trClaim then s
  else
    (s.ringWrite x.fn (fn.trbase.toNat + 32 * (fn.rnum % 2 ^ bitsN fn.trcfg.toNat 1 5)) (natLe 32 x.bits.toNat)).modFn x.fn
      fun fn => { fn with rnum := fn.rnum + 1 }
def insertTraced (x : Traced) : List Traced → List Traced
  | [] => [x]
  | y :: t => if x.key < y.key then x :: y :: t else y :: insertTraced x t
/-- The records of a cycle in slot order and, within a slot, in stream order; those of one stream as they came. -/
def sortTraced (l : List Traced) : List Traced := l.foldl (fun acc x => insertTraced x acc) []
/-- The end of a cycle: its trace records are written. -/
def State.flushTrace (s : State) : State := (sortTraced s.traced).foldl State.traceWrite { s with traced := [] }

/-- The trace code of a stop's cause. -/
def StopCause.no : StopCause → Nat
  | .preempt => 1 | .yield => 2 | .seal => 3 | .refire => 4 | .switchOut => 5 | .halt => 6 | .fault => 7
/-- Strength of a stop request, the strongest least (R425, R453). -/
def StopCause.rank : StopCause → Nat
  | .fault => 0 | .refire => 1 | .switchOut => 2 | .halt => 3 | .preempt => 4 | .yield => 5 | .seal => 6
def strongest (a : Option StopCause) (b : StopCause) : StopCause :=
  match a with
  | none => b
  | some a => if a.rank ≤ b.rank then a else b

/-! ### Stop requests (R425 to R427) -/

/-- A stop request begins a drain there (R426, R459): of a stream that issues, or of a command that runs. -/
def State.drains (s : State) (c k : Nat) (st : Strm) : Bool :=
  match st with
  | .c => true
  | .v => (s.core c).vxe.holder == some k
  | .m => (s.slotAt c k).mring.head.phase == .active
  | .x => (s.slotAt c k).xring.head.phase == .active
  | .s => (s.slotAt c k).sring.head.phase == .active
/-- A request to one stream of a slot; the drain it begins is traced once. An instruction that waits stops where it
stands (R188). -/
def State.requestStop (s : State) (c k : Nat) (st : Strm) (cause : StopCause) : State :=
  let sl := s.slotAt c k
  match st with
  | .c | .v =>
    let ss := sl.ss st
    if ss.ended then s
    else
      let s := if ss.stopReq.isNone && !ss.stopped && s.drains c k st then s.trace c k 11 st 0 cause.no else s
      s.modSlot c k fun sl => sl.modSs st fun ss =>
        { ss with stopReq := some (strongest ss.stopReq cause), atStop := ss.atStop || ss.waiting.isSome }
  | st =>
    let i := strmNo st
    let old := (Sparse.get none sl.estop i)
    let s := if old.isNone && !(Sparse.get false sl.estopped i) && s.drains c k st then s.trace c k 11 st 0 cause.no else s
    s.modSlot c k fun sl => { sl with estop := sl.estop.put i (some (strongest old cause)) }

def allStrms : List Strm := [.c, .v, .m, .x, .s]
def State.requestAll (s : State) (c k : Nat) (cause : StopCause) : State :=
  allStrms.foldl (fun s st => s.requestStop c k st cause) s

/-- STOPC of a record, in the QE and in its image (R27, R31). -/
def State.setStopc (s : State) (p i : Nat) (code : Code) : State :=
  (s.modPart p fun q => { q with recs := q.recs.put i { Sparse.get Record.reset q.recs i with stopc := code } }).pwrite none
    ((s.part p).poolBase.toNat + 64 * i + 60) [code]
/-- stop_task (R429): the task is to stop with a code; STOPC receives it (R31) and its streams drain. A stop already under
way keeps its own code (R496). -/
def State.stopTask (s : State) (c k : Nat) (code : Code) (st : Nat) (eva : Word) : State :=
  let t := (s.slotAt c k).t
  if (s.slotAt c k).task.isNone || t.stopping.isSome then s
  else
    ((s.modSlot c k fun sl => sl.modTask fun t =>
      { t with stopping := some code, stopStrm := st, stopEva := eva }).setStopc t.part t.recIdx code).requestAll c k .fault

/-! ### Hardware loops (R185 to R188) -/

/-- Writes one stage predicate: a predicate of the C stream, a mask of the V stream. -/
def Slot.setStage (sl : Slot) (st : Strm) (i : Nat) (b : Bool) : Slot :=
  match st with
  | .c => sl.setP (BitVec.ofNat 3 i) b
  | _ => sl.setM i (if b then ~~~(0 : MWord) else 0)

/-- The stage predicates at the start of pass i; no write when b is 0 (R186). -/
def Slot.startPass (sl : Slot) (st : Strm) (l : HwLoop) : Slot :=
  if l.base = 0 then sl
  else (List.range l.stages).foldl (fun sl k =>
    sl.setStage st (l.base + k) (decide (k ≤ l.pass ∧ l.pass - k < l.limit))) sl

/-- What the end of the last word of loop bodies does. -/
structure PassEnd where
  loops : List HwLoop
  pc : Word
  /-- The loop whose next pass starts. -/
  starts : Option HwLoop
  /-- A requested stop ends here. -/
  stops : Bool
  /-- Loops deactivated, in order. -/
  exits : List HwLoop

/-- A loop that a stop cut, as it starts again with the iterations that remain (R188). -/
def HwLoop.refilled (l : HwLoop) : HwLoop :=
  { l with pass := 0, limit := l.remain, total := l.remain, cut := false, iters := l.iters + l.limit }

/-- The pass boundaries at `pc` (R186), with a requested stop taking effect (R188): when an iteration was due the limit becomes
the iterations begun, and the stop ends after the epilogue, in whose passes no inner loop is cut. A cut loop that reaches its end when no stop is requested any more
starts again with the iterations that remain. -/
def passEnds (stopping : Bool) : List HwLoop → Word → PassEnd
  | [], pc => ⟨[], pc, none, false, []⟩
  | l :: rest, pc =>
    if pc ≠ l.stop then ⟨l :: rest, pc, none, false, []⟩
    else
      let i := l.pass + 1
      let np := l.np || rest.any fun r => r.np || r.cut
      let l := if stopping && !np && !l.cut && decide (i < l.limit)
        then { l with limit := i, remain := l.total - i, cut := true } else l
      if i + 1 = l.limit + l.stages then
        if l.cut && stopping then ⟨{ l with pass := i } :: rest, l.start, none, true, []⟩
        else if l.cut then ⟨l.refilled :: rest, l.start, some l.refilled, false, []⟩
        else
          let r := passEnds stopping rest pc
          { r with exits := l :: r.exits }
      else
        let l := { l with pass := i }
        ⟨l :: rest, l.start, some l, false, []⟩

/-- A stream that a stop left at the end of a cut loop's epilogue goes on with the iterations that remain (R188). -/
def Slot.refill (sl : Slot) (st : Strm) : Slot :=
  match (sl.ss st).loops with
  | l :: rest =>
    if l.cut ∧ l.pass + 1 = l.limit + l.stages then
      (sl.modSs st fun ss => { ss with loops := l.refilled :: rest }).startPass st l.refilled
    else sl
  | [] => sl

/-- Leaving bodies by a branch (R187): the loops whose body does not hold the target go. -/
def leaveLoops (pc : Word) : List HwLoop → List HwLoop × List HwLoop
  | [] => ([], [])
  | l :: rest =>
    if l.start.ule pc && pc.ult l.stop then (l :: rest, [])
    else
      let r := leaveLoops pc rest
      (r.1, l :: r.2)

/-- Row and column sums of the bank-conflict matrix (R460). -/
def Core.rowSum (c : Core) (r : Nat) : Nat :=
  (List.range 32).foldl (fun a b => a + (Sparse.get 0 c.matrix (r * 32 + b)).toNat) 0
def Core.colSum (c : Core) (b : Nat) : Nat :=
  (List.range 9).foldl (fun a r => a + (Sparse.get 0 c.matrix (r * 32 + b)).toNat) 0
/-- The index of the greatest element, the lowest in a tie. -/
def argMax : List Nat → Nat
  | [] => 0
  | x :: t => if t.all (· ≤ x) then 0 else argMax t + 1

/-- A deactivated loop writes a LOOPEXIT record (R460). -/
def State.loopExit (s : State) (c k : Nat) (st : Strm) (l : HwLoop) : State :=
  let co := s.core c
  let rows := (List.range 9).map fun r => min 4095 (co.rowSum r - nth 0 l.rowSums r)
  let cols := (List.range 32).map fun b => co.colSum b - nth 0 l.colSums b
  let d := (List.range 9).foldl (fun a r => a + nth 0 rows r * 2 ^ (12 * r)) 0
  s.trace c k 9 st 0 (d + argMax cols * 2 ^ 108 + l.id * 2 ^ 113 + (if st = .v then 1 else 0) * 2 ^ 118)
def State.loopExits (s : State) (c k : Nat) (st : Strm) (ls : List HwLoop) : State :=
  ls.foldl (fun s l => s.loopExit c k st l) s

/-- The current C- or V-stream goes on at the next word: pass boundaries are taken. -/
def State.advance (s : State) (len : Nat) : State :=
  let st := s.cur.strm
  let ss := s.me.ss st
  let r := passEnds ss.stopReq.isSome ss.loops (ss.pc + BitVec.ofNat 64 len)
  let s := s.modMe fun sl =>
    let sl := sl.modSs st fun ss => { ss with pc := r.pc, loops := r.loops, waiting := none, resolved := [], atStop := r.stops }
    match r.starts with
    | some l => sl.startPass st l
    | none => sl
  s.loopExits s.cur.core s.cur.slot st r.exits

/-- The current stream goes on at a branch target. -/
def State.jumpTo (s : State) (pc : Word) : State :=
  let st := s.cur.strm
  let r := leaveLoops pc (s.me.ss st).loops
  let s := s.modMe fun sl => sl.modSs st fun ss =>
    { ss with pc := pc, loops := r.1, waiting := none, resolved := [], atStop := false }
  s.loopExits s.cur.core s.cur.slot st r.2

/-- Whether a stream with a stop request stands where the stop ends: at any instruction boundary outside loops, at a pass
boundary as `passEnds` gives, or at an instruction that waits (R188; notes/assumptions/45.md). -/
def StreamSt.canStop (ss : StreamSt) : Bool :=
  ss.stopReq.isSome && (ss.loops.isEmpty || ss.atStop || ss.heldAt.isSome || ss.ended || ss.waiting.isSome)

/-! ### Releasing what a command holds -/

/-- A reader leaves a tile; the last one frees a DRAINING tile (R211). -/
def Tile.dropReader (t : Tile) (buf : Nat) : Tile :=
  let t := if t.addr = buf || t.oldReaders = 0 then { t with readers := t.readers - 1 }
    else { t with readers := t.readers - 1, oldReaders := t.oldReaders - 1 }
  if t.st = .draining ∧ t.readers = 0 then { t with st := .empty } else t
def State.dropReads (s : State) (l : List ReadRef) : State :=
  l.foldl (fun s r => s.modTile r.core r.abs (·.dropReader r.buf)) s
/-- A destination that will not be completed: FILLING becomes EMPTY, the shadow is dropped. -/
def State.dropDst (s : State) (shd : Bool) (d : Option ReadRef) : State :=
  match d with
  | none => s
  | some r => s.modTile r.core r.abs fun t =>
      if shd then { t with sfill := false, sfillCmd := false }
      else if t.st = .filling then { t with st := .empty } else t

/-- A ring's head is abandoned: its readers leave and its destination is dropped. -/
def State.abandonHead (s : State) (c k : Nat) (r : RingId) : State :=
  let ring := (s.slotAt c k).ring r
  let h := ring.head
  let s := (s.dropReads h.reads).dropDst h.dshd h.dst
  s.modSlot c k fun sl => sl.modRing r fun ring =>
    { ring with head := { ring.head with reads := [], dst := none, ops := [] } }

/-! ### Tenures (R144, R147, R148) -/

def engineOf : Strm → Option Engine
  | .c => none | .v => some .vxe | .m => some .mxe | .x => some .cpe | .s => some .sie
def strmOfEngine : Engine → Strm
  | .mxe => .m | .vxe => .v | .cpe => .x | .sie => .s
def engNo : Engine → Nat
  | .mxe => 0 | .vxe => 1 | .cpe => 2 | .sie => 3
/-- Q of an engine (R147). -/
def quantum : Engine → Nat
  | .mxe | .vxe => 2048
  | .cpe | .sie => 1024

def Core.eng (co : Core) : Engine → EngineSt
  | .mxe => co.mxe | .vxe => co.vxe | .cpe => co.cpe | .sie => co.sie
def Core.putEng (co : Core) (e : Engine) (x : EngineSt) : Core :=
  match e with
  | .mxe => { co with mxe := x }
  | .vxe => { co with vxe := x }
  | .cpe => { co with cpe := x }
  | .sie => { co with sie := x }
def State.modEng (s : State) (c : Nat) (e : Engine) (f : EngineSt → EngineSt) : State :=
  s.modCore c fun co => co.putEng e (f (co.eng e))

/-- A debugger's step of the ring is over: its head has left (R454). -/
def Slot.stepped (sl : Slot) (r : RingId) : Bool :=
  sl.dbg.st == .stepping && sl.dbg.stepStrm == strmNo (strmOfRing r) && sl.dbg.stepRp != (sl.ring r).rp
/-- A ring's head may run: decided, its operands taken, not held, stopped or finished. -/
def Slot.headRuns (sl : Slot) (r : RingId) : Bool :=
  let h := (sl.ring r).head
  !sl.stepped r && (h.phase == .ready || h.phase == .active) && h.held.isNone && !h.stalled && !(Sparse.get false sl.estopped (strmNo (strmOfRing r)))
/-- The V stream is neither ended, stopped, asked to stop nor held, and no debugger's step is under way. -/
def Slot.vRuns (sl : Slot) : Bool :=
  !sl.vs.ended && !sl.vs.stopped && sl.vs.stopReq.isNone && sl.vs.heldAt.isNone && sl.dbg.st != .stepping
/-- A stop request is under way for the stream. -/
def Slot.stopping (sl : Slot) (st : Strm) : Bool :=
  match st with
  | .c => sl.cs.stopReq.isSome
  | .v => sl.vs.stopReq.isSome
  | st => (Sparse.get none sl.estop (strmNo st)).isSome
/-- A slot may start at an engine that a drain leaves to it. -/
def Slot.canStart (sl : Slot) (e : Engine) : Bool :=
  !sl.stopping (strmOfEngine e) && (match e with
    | .mxe => sl.headRuns .m
    | .vxe => sl.vRuns
    | .cpe => sl.headRuns .x
    | .sie => sl.headRuns .s)
/-- The slot's M head is a command with a C level (R287, R296). -/
def Slot.coop (sl : Slot) : Bool :=
  let w := sl.mring.headBits .m
  (copOf w == 1 || copOf w == 2) && bitsN (sl.nestRow (mmaOf w).nset.toNat 0).toNat 32 2 == 1
def State.canStart (s : State) (c k : Nat) (e : Engine) : Bool :=
  let sl := s.slotAt c k
  sl.canStart e && (e != .mxe || !sl.coop || (s.core c).group.contains ⟨c, k⟩)
/-- A tenure begins. -/
def EngineSt.start (x : EngineSt) (k now : Nat) : EngineSt :=
  { x with holder := some k, tenureStart := now, quantumStart := now, draining := false, next := none, exclude := none }
/-- The tenure of slot k at an engine ends, if it holds it: a short one earns compensation, and the winner of a draw
made before the drain starts. -/
def State.endTenure (s : State) (c k : Nat) (e : Engine) : State :=
  let x := (s.core c).eng e
  if x.holder ≠ some k then s
  else
    let used := s.cycle - x.tenureStart
    let short := decide (used < quantum e)
    let s := if short then s.count c 0x0B (some k) else s
    let s := s.modSlot c k fun sl => { sl with comp := Sparse.set 0 sl.comp (engNo e) (if short then max used 1 else 0) }
    s.modEng c e fun x =>
      let off := { x with holder := none, draining := false, next := none }
      match x.next with
      | some n => if s.canStart c n e then x.start n s.cycle else off
      | none => off
/-- The tenure that a stream's slot holds for it. -/
def State.endTenureOf (s : State) (c k : Nat) (st : Strm) : State :=
  match engineOf st with
  | some e => s.endTenure c k e
  | none => s
/-- The V stream's tenure ends when it stalls, ends or is held. -/
def State.vTenure (s : State) (c k : Nat) : State :=
  let v := (s.slotAt c k).vs
  if v.waiting.isSome || v.ended || v.stopped || v.heldAt.isSome then s.endTenure c k .vxe else s

/-! ### Taking an exception (R428) and returning (R430) -/

/-- The stream is held at its faulting instruction or command. -/
def Slot.holdAt (sl : Slot) (st : Strm) (code : Code) : Slot :=
  match st with
  | .c => sl
  | .v => { sl with vs := { sl.vs with heldAt := some code, waiting := none, resolved := [] } }
  | .m => sl.modRing .m fun r => { r with head := { r.head with held := some code } }
  | .x => sl.modRing .x fun r => { r with head := { r.head with held := some code } }
  | .s => sl.modRing .s fun r => { r with head := { r.head with held := some code } }

/-- The packet of an abandoned `LSEND` is withdrawn from the queue of its port: the instruction executes again (R426). -/
def Func.unsend (fn : Func) (no : Nat) : Func :=
  { fn with ports := (fn.ports.map fun (k, l) => (k, l.filter fun x => x.dest == .member || x.no != no)).filter fun (_, l) => l != [] }
/-- A packet of a waiting instruction is still in its port's queue. -/
def Func.unsent (fn : Func) (no : Nat) : Bool := fn.ports.any fun (_, l) => l.any fun x => x.dest != .member && x.no == no
/-- A waiting instruction of the C stream that an event completes: `f` completes it; it counts as completed (R462), and
a debugger's step of it is over (R454). -/
def State.completed (s : State) (k : SlotId) (f : State → State) : State :=
  let t := s.withCur ⟨k.core, k.slot, .c⟩ f
  if (t.slotAt k.core k.slot).cs.waiting.isSome then t
  else (t.count k.core 3 (some k.slot)).modSlot k.core k.slot fun sl =>
    let sl := { sl with cs := { sl.cs with fetched := false } }
    if sl.dbg.st = .stepping ∧ sl.dbg.stepStrm = 0 then { sl with dbg := { sl.dbg with stepDone := true } } else sl
/-- The result of an instruction whose packet has left the module: one use of its capability less, and its value. -/
def Slot.sentEnd (sl : Slot) (c : Nat) (d : Reg) (v : Word) : Slot := (sl.useAllow c).setX d v
/-- A `LSEND` or `CHSND` whose packet has left its port completes (R108, R412). -/
def State.sentDone (s : State) (k : SlotId) : State :=
  let sl := s.slotAt k.core k.slot
  match sl.cs.waiting with
  | some (.sent no c len d v) =>
    if (s.fn sl.t.fn).unsent no then s else s.completed k fun s => (s.modMe (·.sentEnd c d v)).advance len
  | _ => s
/-- A waiting instruction of the C or V stream is abandoned; a waiting `ACQ` withdraws its request, a `LSEND` or `CHSND` its
packet (R377, R426), and one whose packet has left is complete (R110). -/
def State.abandonWait (s : State) (c k : Nat) (st : Strm) : State :=
  let s := if st = .c then s.sentDone ⟨c, k⟩ else s
  let sl := s.slotAt c k
  let s := match (sl.ss st).waiting with
    | some (.object o _ _) => s.modPart sl.t.part fun p =>
        let x := Sparse.get SyncObj.reset p.objs o
        { p with objs := Sparse.set SyncObj.reset p.objs o { x with waiters := x.waiters.filter fun w => w != SlotId.mk c k } }
    | some (.sent no _ _ _ _) => s.modFn sl.t.fn (·.unsend no)
    | _ => s
  s.modSlot c k fun sl => sl.modSs st fun ss => { ss with waiting := none, resolved := [] }

/-- trap_entry of R428, for a slot; a fault during a drain is not taken and ends the drain (R496). -/
def State.trapEntry (s : State) (c k : Nat) (code : Code) (st : Strm) (epc eva : Word) : State :=
  let sl := s.slotAt c k
  if sl.stopping st && code != 0 then
    s.modSlot c k fun sl =>
      match st with
      | .c => { sl with cs := { sl.cs with atStop := true, waiting := none } }
      | .v => { sl with vs := { sl.vs with atStop := true, waiting := none } }
      | st => { sl with estopped := sl.estopped.put (strmNo st) true }
  else if sl.tvec = 0 || (sl.hm && st = .c) || sl.cs.ended then
    ((s.endTenureOf c k st).modSlot c k (·.holdAt st code)).stopTask c k code (strmNo st) eva
  else
    let s := s.endTenureOf c k st
    (if st = .c ∨ sl.hm then s else s.abandonWait c k .c).modSlot c k fun sl =>
      let sl := sl.holdAt st code
      if sl.hm then sl
      else
        { sl with
          cause := BitVec.ofNat 64 (code.toNat + 256 * strmNo st)
          epc := epc
          eva := eva
          cra := if st = .c then epc else sl.cs.pc
          wbar := if st = .c then none else sl.barWait
          barWait := if st = .c then sl.barWait else none
          susp := sl.cs.loops
          hm := true
          cs := { sl.cs with pc := sl.tvec, loops := [], waiting := none, resolved := [], atStop := false, fetched := false } }

/-- A held stream other than `keep` goes on when HM returns to 0: it re-executes its instruction or
resumes its command (R428). -/
def Slot.unhold (sl : Slot) : Slot :=
  let f (r : Ring) : Ring := { r with head := { r.head with held := none, hostC := none } }
  { sl with vs := { sl.vs with heldAt := none }, mring := f sl.mring, xring := f sl.xring, sring := f sl.sring }

/-! ### Issue of an instruction -/

/-- What an instruction does: completes; completes at a branch target; waits (nothing done, executed
again later); faults with nothing done; ends with a
state that says all, pc included; or completes and goes on at another distance. -/
inductive Res where
  | done (s : State)
  | jump (s : State) (pc : Word)
  | wait (s : State) (w : WaitFor)
  | trap (code : Code) (eva : Word)
  | stay (s : State)
  | skip (s : State) (len : Nat)

/-- A check before the rest of an instruction. -/
def Chk.then {α : Type} (c : Chk α) (f : α → Res) : Res :=
  match c with
  | .ok a => f a
  | .error (code, eva) => .trap code eva

/-- The address of the instruction that runs (R164). -/
def State.pc (s : State) : Word := (s.me.ss s.cur.strm).pc

/-- What an instruction did, applied to the state before it. -/
def State.settleRes (s0 : State) (len : Nat) : Res → State
  | .done s => s.advance len
  | .jump s pc => s.jumpTo pc
  | .wait s w => s.modMe fun sl => sl.modSs s.cur.strm fun ss => { ss with waiting := some w }
  | .trap code eva => s0.trapEntry s0.cur.core s0.cur.slot code s0.cur.strm s0.pc eva
  | .stay s => s
  | .skip s n => s.advance n

/-- Completes the current stream's instruction from what it did; a V stream that stalls or ends leaves the engine. -/
def State.finish (s0 : State) (len : Nat) (r : Res) : State :=
  let s := s0.settleRes len r
  if s0.cur.strm = .v then s.vTenure s0.cur.core s0.cur.slot else s

/-- An instruction of `len` bytes of the current stream with the predicate of R55; in the V stream the
p field governs elements and the body reads it. -/
def instr (pr : Pred) (len : Nat) (body : State → Res) (s : State) : Out :=
  if s.cur.strm = .c ∧ (s.me.pr pr.p ^^ pr.pn) = false then .next (s.advance len)
  else .next (s.finish len (body s))

/-- An instruction whose entry gives p another role, or that is never predicated. -/
def instrAlways (len : Nat) (body : State → Res) (s : State) : Out := .next (s.finish len (body s))

/-- Marks that a write of the current task may have been performed (R450). -/
def State.wrote (s : State) : State := s.modMe fun sl => sl.modTask fun t => { t with wrote := true }

/-! ### Data accesses of the C stream (R189) -/

/-- The agent of the current slot's C stream. -/
def State.agent (s : State) : Agent := .strm ⟨s.cur.core, s.cur.slot, .c⟩

/-- Checks and translates an access of `n` bytes at `va`; SYS_EVA receives `va`. -/
def State.dataPa (s : State) (va : Word) (n : Nat) (a : Acc) : Chk Nat :=
  if va.toNat % n ≠ 0 then .error (fAlign, va)
  else
    match s.xlate (some s.cur.core) s.me.t.fn s.me.t.part va.toNat a with
    | .error e => .error (e, va)
    | .ok pa => .ok pa

/-- A C stream reads 8 bytes early for a later load, where its access translates (R367). -/
def State.earlyRead (s : State) (c k : Nat) (va : Word) : State :=
  let t := (s.slotAt c k).t
  let a := va.toNat / 8 * 8
  match s.xlate (some c) t.fn t.part a .rd with
  | .error _ => s
  | .ok pa =>
    let l := (s.places.filter fun x => x.live.any fun b => decide (pa ≤ b ∧ b < pa + 8)).map (·.no)
    let e : EarlyRead := ⟨c, k, a, pa, s.mem.nat pa 8, l⟩
    let t := (s.misses c k .rd a 8).observe (.early ⟨c, k⟩) pa 8
    { t with early := (s.early.filter fun x => !(x.core == c && x.slot == k && x.va == a)) ++ [e] }
/-- The early read that a load of the current C stream returns from, if one stands. -/
def State.earlyAt (s : State) (va n : Nat) : Option EarlyRead :=
  s.early.find? fun e => e.core == s.cur.core && e.slot == s.cur.slot && decide (e.va ≤ va ∧ va + n ≤ e.va + 8)
/-- The value of a load of `n` bytes at `va`, which lie at `pa`: what the stream has read early, else what memory holds
(R366, R367). -/
def State.loadNat (s : State) (va pa n : Nat) : Nat :=
  match s.earlyAt va n with
  | some e => e.val / 2 ^ (8 * (va - e.va)) % 2 ^ (8 * n)
  | none => s.mem.nat pa n
/-- The load has observed the writes that it returns, and takes part in the releases that they carry (R364, R365). -/
def State.loaded (s : State) (va pa n : Nat) : State :=
  match s.earlyAt va n with
  | some e =>
    let k := s.myId
    let b := e.pa + (va - e.va)
    let s := s.mapHiddenAt b n fun w => if w.known.contains (.early k) then w.tell s.agent else w
    let s := (s.places.filter fun x => e.places.contains x.no && scopeHas x.scope x.rel k).foldl (fun s x =>
      s.pass (.place x.no) (.taken k x.rel x.scope)) s
    s.dropEarly s.agent
  | none => s.observe s.agent pa n
/-- A load: its value and the state with the read observed. -/
def State.load (s : State) (va : Word) (n : Nat) : Chk (Nat × State) :=
  match s.dataPa va n .rd with
  | .error e => .error e
  | .ok pa =>
    if !isHost pa && poisoned s.memPoison 64 pa n then .error (fPoison, va)
    else .ok (s.loadNat va.toNat pa n, s.loaded va.toNat pa n)

/-- A store ends the stream's early reads of its bytes (R366). -/
def State.overEarly (s : State) (va pa n : Nat) : State :=
  if s.early.isEmpty then s
  else { s with early := s.early.filter fun e => !(e.core == s.cur.core && e.slot == s.cur.slot
    && decide (e.va < va + n ∧ va < e.va + 8 ∨ e.pa < pa + n ∧ pa < e.pa + 8)) }
/-- A store of the low n bytes; the launch pool is read-only (R26). -/
def State.store (s : State) (va : Word) (n v : Nat) : Chk State :=
  match s.dataPa va n .wr with
  | .error e => .error e
  | .ok pa =>
    if (s.part s.me.t.part).inPool pa n && !isHost pa then .error (fPerm, va)
    else .ok (((((s.overEarly va.toNat pa n).pwrite (some s.agent) pa (natLe n v))).madeAt va.toNat pa n).wrote)

/-! ### Home region (R190) -/

/-- A home-region access of n bytes at offset o: SYS_EVA receives o. -/
def homeChk (o : Word) (n : Nat) : Chk Unit :=
  if o.toNat ≥ 0x40000 then .error (fBound, o)
  else if o.toNat % n ≠ 0 then .error (fAlign, o)
  else .ok ()
def State.homeNat (s : State) (o n : Nat) : Nat :=
  (s.core s.cur.core).scratch.nat (homeBase s.cur.slot + o) n
def State.homePoison (s : State) (o n : Nat) : Bool :=
  (s.core s.cur.core).spoisoned (homeBase s.cur.slot + o) n
def State.homeWrite (s : State) (o : Nat) (l : List Byte) : State :=
  (s.modCore s.cur.core (·.swrite (homeBase s.cur.slot + o) l)).wrote

/-! ### Fetch (R50, R51) -/

/-- The bytes at a code address, with execute permission and no poison. -/
def State.fetchBytes (s : State) (c k : Nat) (va n : Nat) : Chk (List Byte) :=
  let (f, p) := s.ctx c k
  match s.pieces (some c) f p .ex va n with
  | .error (e, a) => badAt e a
  | .ok ps =>
    match ps.find? (fun (pa, m) => !isHost pa && poisoned s.memPoison 64 pa m) with
    | some _ => badAt fPoison va
    | none => .ok (s.preads ps)

/-- The bytes of n 32-bit parts of a word; the first part that fails holds the first failing byte, its own first. -/
def State.fetchWords (s : State) (c k : Nat) (va : Nat) : Nat → Chk (List Byte)
  | 0 => .ok []
  | n + 1 =>
    match s.fetchBytes c k va 4 with
    | .error e => .error e
    | .ok b =>
      match s.fetchWords c k (va + 4) n with
      | .error e => .error e
      | .ok t => .ok (b ++ t)

/-- The misses of fetching the word at a stream's program counter, once (R462). -/
def State.fetchMisses (s : State) (c k : Nat) (st : Strm) : State :=
  let ss := (s.slotAt c k).ss st
  let va := ss.pc.toNat
  if ss.waiting.isSome || va % 4 != 0 then s
  else
    let n := match s.fetchBytes c k va 4 with
      | .error _ => 4
      | .ok b => (match lenOf (leNat b) with | some l => l.bytes | none => 4)
    s.misses c k .ex va n
/-- The word at a stream's program counter, or its fetch fault. A word that starts in an active body
and ends beyond it raises F_ILLEGAL (R187), which ranks before a fault in fetching its later parts; code that was stored to
is fetched with its new bytes (R64; notes/assumptions/41.md). -/
def State.fetch (s : State) (c k : Nat) (st : Strm) : Chk (BitVec 96) :=
  let ss := (s.slotAt c k).ss st
  let va := ss.pc.toNat
  if va % 4 ≠ 0 then badAt fAlign va
  else
    match s.fetchBytes c k va 4 with
    | .error e => .error e
    | .ok b0 =>
      match lenOf (leNat b0) with
      | none => bad fIllegal
      | some l =>
        if (match ss.loops with | [] => false | h :: _ => decide (va < h.stop.toNat ∧ h.start.toNat ≤ va ∧ h.stop.toNat < va + l.bytes))
        then bad fIllegal
        else
          match s.fetchWords c k (va + 4) (l.bytes / 4 - 1) with
          | .error e => .error e
          | .ok b1 => .ok (BitVec.ofNat 96 (leNat (b0 ++ b1)))

end Sys2Proof.Machine
end

