-- ==== Sys2Proof/Machine/Operands.lean ====
section
/-! DEFINITION. Operand forms shared by instructions: second sources (R57), immediates, literals, and the
shapes in which an instruction of the C stream reads its sources and writes its destination. -/

namespace Sys2Proof.Machine

/-- sext64 of imm16 or LIT (R57). -/
def immWord : Imm → Word
  | .i16 v => v.signExtend 64
  | .i32 v => v.signExtend 64
/-- Bytes of an instruction with such an immediate: K64 or K96. -/
def immLen : Imm → Nat
  | .i16 _ => 8
  | .i32 _ => 12
/-- A register in K64, zext64(LIT) in K96. -/
def Slot.regLit (sl : Slot) : RegLit → Word
  | .reg a => sl.xr a
  | .lit v => v.setWidth 64
def regLitLen : RegLit → Nat
  | .reg _ => 8
  | .lit _ => 12
def wideLen (w : Bool) : Nat := if w then 12 else 8
def optLen : Option (BitVec 32) → Nat
  | none => 8
  | some _ => 12
def zext16 (v : BitVec 16) : Word := v.setWidth 64

/-- Writes X[d]. -/
def State.setX (s : State) (d : Reg) (v : Word) : State := s.modMe (·.setX d v)
/-- Writes P[d]. -/
def State.setP (s : State) (d : PReg) (b : Bool) : State := s.modMe (·.setP d b)
/-- Sets flags of the current stream. -/
def State.orFlags (s : State) (f : Fl) : State := s.modMe (·.orFlags s.cur.strm f)

/-- X[d] ← f(X[a], X[b]). -/
def rrr (f : Word → Word → Word) (o : RRR) : State → Out :=
  instr o.pr 4 fun s => .done (s.setX o.d (f (s.me.xr o.a) (s.me.xr o.b)))
/-- X[d] ← f(X[a], imm). -/
def rri (f : Word → Word → Word) (o : RRI) : State → Out :=
  instr o.pr (immLen o.imm) fun s => .done (s.setX o.d (f (s.me.xr o.a) (immWord o.imm)))
/-- X[d] ← f(X[a]). -/
def rr (f : Word → Word) (o : RR) : State → Out :=
  instr o.pr 4 fun s => .done (s.setX o.d (f (s.me.xr o.a)))
/-- X[d] and flags of the C stream ← f(X[a], X[b]). -/
def rrrFl (f : Word → Word → Word × Fl) (o : RRR) : State → Out :=
  instr o.pr 4 fun s =>
    let r := f (s.me.xr o.a) (s.me.xr o.b)
    .done ((s.setX o.d r.1).orFlags r.2)
def rriFl (f : Word → Word → Word × Fl) (o : RRI) : State → Out :=
  instr o.pr (immLen o.imm) fun s =>
    let r := f (s.me.xr o.a) (immWord o.imm)
    .done ((s.setX o.d r.1).orFlags r.2)

/-! ### Rings and references (R212, R213) -/

def Core.ringRec (co : Core) (n : Nat) : RingRec := Sparse.get RingRec.reset co.rings n
def Core.putRing (co : Core) (n : Nat) (r : RingRec) : Core := { co with rings := co.rings.put n r }
def RingRec.filled (r : RingRec) : Nat := (r.pptr + 128 - r.cptr) % 128
def RingRec.free (r : RingRec) : Nat := r.depth - r.filled
/-- TTB entry of a ring position. -/
def RingRec.tile (r : RingRec) (i : Nat) : Nat := r.ft + i % r.depth
/-- The ring a handle names. -/
def State.ringRec (s : State) (h : CbHandle) : RingRec := (s.core h.rcore).ringRec h.ring

/-- What a tile operand comes to: a tile of a core, or the wait for a count. -/
inductive Place where
  | tile (core abs : Nat)
  | wait (w : WaitFor)
  deriving DecidableEq, Repr

/-- Resolves a checked operand of slot (c, k). -/
def State.place (s : State) (c k : Nat) (top : BitVec 12) (wr : Bool) : Place :=
  if !top.getLsbD 11 then .tile c (64 * k + (top.extractLsb' 0 6).toNat)
  else
    let n := (top.extractLsb' 0 4).toNat
    let kk := (top.extractLsb' 4 6).toNat
    let h := (s.slotAt c k).handle n
    let r := s.ringRec h
    if wr then (if r.free ≥ kk + 1 then .tile h.rcore (r.tile (r.pptr + kk)) else .wait (.cbuf n false))
    else (if r.filled ≥ kk + 1 then .tile h.rcore (r.tile (r.cptr + kk)) else .wait (.cbuf n true))

end Sys2Proof.Machine
end

