-- ==== Sys2Proof/Machine/Streams.lean ====
section
/-! DEFINITION. Stream registers, nest sets and accumulator views (R284 to R287) and the checks of an
`MMA` or `MMAS` at its `MGO` (R290). -/

namespace Sys2Proof.Machine

/-! ### Stream registers (R284) -/

abbrev GReg := BitVec 256
def GReg.fld (g : GReg) (lo n : Nat) : Nat := bitsN g.toNat lo n
def gRole (g : GReg) : Nat := GReg.fld g 0 2
def gFmt (g : GReg) : Nat := GReg.fld g 2 5
def gRdg (g : GReg) : Nat := GReg.fld g 7 2
def gTop (g : GReg) : BitVec 12 := g.extractLsb' 9 12
def gOff (g : GReg) : Nat := GReg.fld g 21 18
def gLstr (g : GReg) : Nat := GReg.fld g 39 18
def gSkind (g : GReg) : Nat := GReg.fld g 64 2
def gBkl (g : GReg) : Nat := GReg.fld g 66 4
def gStop (g : GReg) : BitVec 12 := g.extractLsb' 70 12
def gSoff (g : GReg) : Nat := GReg.fld g 82 18
def gSstr (g : GReg) : Nat := GReg.fld g 100 18
/-- The stride of nest level k, signed. -/
def gStr (g : GReg) (k : Nat) : Int :=
  sextN (GReg.fld g (if k < 3 then 128 + 21 * k else 129 + 21 * k) 21) 21
/-- The reserved bits of word w. -/
def gResv (w : Nat) : Word :=
  match w with
  | 0 => 0xFE00000000000000
  | 1 => 0xFFC0000000000000
  | _ => 0x8000000000000000
def gSetWord (g : GReg) (w : Nat) (v : Word) : GReg :=
  BitVec.ofNat 256 (setBitsN g.toNat (64 * w) 64 v.toNat)
/-- Block size of the scales (R284). -/
def gBk (g : GReg) : Nat := 2 ^ (gBkl g + 4)

/-! ### Nest rows (R287) -/

def nBound (r : Word) : Nat := bitsN r.toNat 0 32
def nKind (r : Word) : Nat := bitsN r.toNat 32 2
def nPp (r : Word) : Bool := bitN r.toNat 34
/-- The rows that a command with NL − 1 = `nl` uses. -/
def Slot.nestRows (sl : Slot) (set nl : Nat) : List Word := (List.range (nl + 1)).map (sl.nestRow set)
/-- S: the product of the bounds of the T levels. -/
def nestSteps (rows : List Word) : Nat :=
  rows.foldl (fun a r => if nKind r = 0 then a * nBound r else a) 1

/-- The index of each row at step p, 0 for a C level; the innermost T level runs fastest. -/
def stepIdx (rows : List Word) (p : Nat) : List Nat :=
  match rows with
  | [] => []
  | r :: t =>
    let i := if nKind r = 0 then p / nestSteps t % max 1 (nBound r) else 0
    i :: stepIdx t p
/-- The boundary before step p > 0 is a stop point (R294): the outermost level that advances has PP = 1. -/
def stopBefore (rows : List Word) (p : Nat) : Bool :=
  match (rows.zip ((stepIdx rows p).zip (stepIdx rows (p - 1)))).find? fun x => x.2.1 != x.2.2 with
  | some x => nPp x.1
  | none => true

/-- Units of one pass of an `MMA`: the zeroing, the steps, the end of the pass. -/
def passUnits (rows : List Word) : Nat := nestSteps rows + 2
/-- A command stands at a stop point (R294) with `p` units done: after a step, or at the end of a pass, with which the next
pass begins and its zeroing is done (R292, R487). -/
def mmaStop (rows : List Word) (p : Nat) : Bool :=
  let u := p % passUnits rows
  p == 0 || (u == 1 && decide (passUnits rows ≤ p)) || (decide (2 ≤ u ∧ u ≤ nestSteps rows) && stopBefore rows (u - 1))

/-! ### Views (R286) -/

structure View where
  row0 : Nat
  mr : Nat
  cg0 : Nat
  ncg : Nat
  deriving DecidableEq, Repr
def viewOf (v : BitVec 32) : View :=
  ⟨bitsN v.toNat 0 7, bitsN v.toNat 7 7 + 1, bitsN v.toNat 14 5, bitsN v.toNat 19 5 + 1⟩
/-- VALID, and within the share's rows and columns. -/
def viewOk (v : BitVec 32) : Bool :=
  let w := viewOf v
  v.getLsbD 26 && decide (w.row0 + w.mr ≤ 128 ∧ w.cg0 + w.ncg ≤ 32)
/-- Bytes of an accumulator element: FP64 and INT64 take two columns. -/
def accBytes (afmt : Nat) : Nat := if afmt = 1 ∨ afmt = 3 then 8 else 4
/-- NC. -/
def View.nc (v : View) (afmt : Nat) : Nat := if accBytes afmt = 8 then 4 * v.ncg else 8 * v.ncg
/-- Byte address in the core's accumulator store of element (r, c). -/
def View.addr (v : View) (k afmt r c : Nat) : Nat :=
  acsAddr k (v.row0 + r) (8 * v.cg0) + c * accBytes afmt

/-- An address of slot k's share that the view holds. -/
def View.holds (v : View) (k a : Nat) : Bool :=
  decide (acsAddr k v.row0 0 ≤ a ∧ a < acsAddr k (v.row0 + v.mr) 0 ∧ 32 * v.cg0 ≤ a % 1024 ∧ a % 1024 < 32 * (v.cg0 + v.ncg))

/-! ### Fold size (R277) and format classes (R257) -/

def isFpCode (c : Nat) : Bool := decide (c ≤ 9)
def isIntCode (c : Nat) : Bool := decide (10 ≤ c ∧ c ≤ 20)
def rdgOk (fmt rdg : Nat) : Bool := rdg == 0 || (decide (4 ≤ fmt ∧ fmt ≤ 9) && rdg != 3)
def foldSize (fa fb : Nat) : Nat × Nat :=
  let w := max (fmtWidth fa) (fmtWidth fb)
  if w ≤ 8 then (32, 40) else if w ≤ 16 then (16, 56) else if w ≤ 32 then (8, 72) else (4, 128)
/-- The formats of a packed tile (R301): 0x00–0x06 and 0x0A–0x0C. -/
def packedFmt (f : Nat) : Bool := decide (f ≤ 6 ∨ (10 ≤ f ∧ f ≤ 12))

/-! ### The checks of R290 -/

/-- Order 1. -/
def mgoFields (c : MmaCmd) (s2 : Bool) (rows : List Word) (ga gb : GReg) : Bool :=
  let cs := rows.any fun r => nKind r == 1
  decide (c.nl.toNat ≤ 5)
    && rows.all (fun r => decide (nKind r < 2))
    && (rows.drop 1).all (fun r => nKind r != 1)
    && (!cs || ((nBound (nth 0 rows 0) == 2 || nBound (nth 0 rows 0) == 4) && c.nl != 0))
    && (cs || c.ctag == 0)
    && gRole ga == 1 && gRole gb == 2 && !c.h.shd
    && (s2 || c.mq == 0)
    && (c.pv == 0 || (c.za && !s2))
    && (c.pv != 0 || (c.vt == 0 && c.vfmt == 0 && c.vrdg == 0 && c.vrm == 0 && !c.vovf))
/-- Order 3. -/
def mgoFormats (c : MmaCmd) (ga gb : GReg) : Bool :=
  let fa := gFmt ga
  let fb := gFmt gb
  decide (fa < 0x15) && rdgOk fa (gRdg ga) && rdgOk fb (gRdg gb)
    && (decide (c.afmt.toNat < 2) || (isIntCode fa && isIntCode fb && gSkind ga == 0 && gSkind gb == 0))
    && (c.pv == 0 || (rdgOk c.vfmt.toNat c.vrdg.toNat && packedFmt c.vfmt.toNat))
/-- Order 4, for one operand. -/
def mgoScales (g : GReg) (f : Nat) : Bool :=
  let k := gSkind g
  let fmt := gFmt g
  let nq := fmt == 0x15 || fmt == 0x16
  (k == 0 || decide (4 ≤ fmt)) && (!nq || k == 3) && (k != 3 || (nq && gBkl g == 2))
    && (k == 0 || (decide (gBkl g ≤ 8) && gBk g % f == 0))
/-- Order 5, for one operand. -/
def mgoAligned (g : GReg) (nl : Nat) : Bool :=
  gOff g % 4 == 0 && gLstr g % 4 == 0 && (List.range (nl + 1)).all (fun k => gStr g k % 4 == 0)
    && (gSkind g == 0 || (gSoff g % 4 == 0 && gSstr g % 4 == 0))
/-- Order 6. -/
def mgoExtent (c : MmaCmd) (s2 : Bool) (rows : List Word) : Bool :=
  let s := nestSteps rows
  let ks := c.ks.toNat + 1
  (decide (s ≤ 1) || ks % 32 == 0) && (!s2 || (ks % 32 == 0 && decide (ks ≤ 1024)))
    && decide (s * ks ≤ 2 ^ 32)

/-- The checks of an `MMA` (s2 false) or `MMAS`, in order. -/
def mgoCheck (sl : Slot) (c : MmaCmd) (s2 : Bool) : Chk Unit :=
  let rows := sl.nestRows c.nset.toNat c.nl.toNat
  let ga := sl.greg c.gs.toNat
  let gb := sl.greg c.gb.toNat
  let f := (foldSize (gFmt ga) (gFmt gb)).1
  if !mgoFields c s2 rows ga gb then bad fIllegal
  else if gFmt ga ≥ 0x18 ∨ gFmt gb ≥ 0x18 ∨ (c.pv ≠ 0 ∧ c.vfmt.toNat ≥ 0x18) then bad fFormat
  else if !mgoFormats c ga gb then bad fIllegal
  else if !(mgoScales ga f && mgoScales gb f) then bad fFormat
  else if !(mgoAligned ga c.nl.toNat && mgoAligned gb c.nl.toNat) then bad fAlign
  else if !mgoExtent c s2 rows then bad fBound
  else .ok ()

/-- The format checks of `MEXP` and `MIMP` (R301). -/
def mxfCheck (c : MxfCmd) : Chk Unit :=
  if c.raw then (if mxfRawOk c then .ok () else bad fIllegal)
  else if c.fmt.toNat ≥ 0x18 then bad fFormat
  else if mxfFmtOk c && readingOk c.fmt c.rdg then .ok () else bad fIllegal

end Sys2Proof.Machine
end

