-- ==== Sys2Proof/Machine/Push.lean ====
section
/-! DEFINITION. Pushing commands (R132, R135, R136, R192 to R197), `MSET` and `MSET.G` (R194). -/

namespace Sys2Proof.Machine

/-- AWS, RSS and GDS of a command's bits. -/
def cAws (w : BitVec 128) : Nat := (ext w 4 6).toNat
def cRss (w : BitVec 128) : Nat := (ext w 10 6).toNat
def cGds (w : BitVec 128) : Nat := (ext w 16 6).toNat
/-- The await count in a ring (R71, R197). -/
def cAwc (r : RingId) (w : BitVec 128) : Nat :=
  match r with
  | .s => (ext w 24 16).toNat
  | _ => (ext w 64 32).toNat

/-- R136: a forward wait, or a pushed count that would wrap. -/
def Slot.pushCheck (sl : Slot) (r : RingId) (w : BitVec 128) : Chk Unit :=
  if cAws w ≠ 0 ∧ cAwc r w > (sl.sem (cAws w)).pushed.toNat then bad fFwait
  else if cRss w ≠ 0 ∧ (sl.sem (cRss w)).pushed = 0xFFFFFFFF then bad fBound
  else .ok ()
/-- The command is written and P[RSS] grows by 1. -/
def Slot.pushCmd (sl : Slot) (r : RingId) (w : BitVec 128) : Slot :=
  { (sl.modRing r fun ring => ring.push r w sl.pushNo).pushSem (cRss w) with pushNo := sl.pushNo + 1 }

/-- Steps 1 and 3 to 5 of R192. -/
def push (r : RingId) (w : BitVec 128) (s : State) : Res :=
  let ring := s.me.ring r
  if !ring.present || ring.closed then .trap fIllegal 0
  else
    (s.me.pushCheck r w).then fun _ =>
      if !ring.room r then .wait s (.ringRoom r)
      else .done (s.modMe (·.pushCmd r w))

/-- Two registers as a command. -/
def pair (lo hi : Word) : BitVec 128 := hi ++ lo

/-- `MGO` (R195): COP 1 to 5, the checks of R290 and R301, then the push. -/
def execMgo (o : PushRR) : State → Out :=
  instr o.pr 8 fun s =>
    let w := pair (s.me.xr o.a) (s.me.xr o.b)
    match copOf w with
    | 1 => (mgoCheck s.me (mmaOf w) false).then fun _ => push .m w s
    | 2 => (mgoCheck s.me (mmaOf w) true).then fun _ => push .m w s
    | 3 => push .m w s
    | 4 => (mxfCheck (mxfOf w)).then fun _ => push .m w s
    | 5 => (mxfCheck (mxfOf w)).then fun _ => push .m w s
    | _ => .trap fIllegal 0

/-- `XPSH` (R196): in K96 LIT is the await count. -/
def execXpsh (o : PushRRL) : State → Out :=
  instr o.pr (optLen o.lit) fun s =>
    let w := pair (s.me.xr o.a) (s.me.xr o.b)
    let w := match o.lit with
      | none => w
      | some v => BitVec.ofNat 128 (setBitsN w.toNat 64 32 v.toNat)
    if 1 ≤ copOf w ∧ copOf w ≤ 10 then push .x w s else .trap fIllegal 0

/-- `SGO` (R196). -/
def execSgo (o : JrOp) : State → Out :=
  instr o.pr 8 fun s =>
    let w : BitVec 128 := (s.me.xr o.a).setWidth 128
    if 1 ≤ copOf w ∧ copOf w ≤ 3 then push .s w s else .trap fIllegal 0

/-- `VGO` (R197): the entry is checked completely at the push, after steps 1 and 2 of R192. -/
def execVgo (o : PushRRL) : State → Out :=
  instr o.pr (optLen o.lit) fun s =>
    let w := pair (s.me.xr o.a) (s.me.xr o.b)
    let w := match o.lit with
      | none => w
      | some v => BitVec.ofNat 128 (setBitsN w.toNat 32 32 v.toNat)
    let off := (ext w 32 32).toNat
    let t := s.me.t
    if !s.me.kring.present ∨ s.me.kring.closed ∨ copOf w ≠ 1 ∨ ext w 23 9 ≠ 0 ∨ ext w 96 32 ≠ 0 then .trap fIllegal 0
    else if off % 4 ≠ 0 ∨ off < t.vbase ∨ t.vbase + t.vsize ≤ off then .trap fBound 0
    else push .k w s

/-! ### `MSET` and `MSET.G` (R194): the checks come before any stall -/

/-- Commands of the M ring that an `MMA` or `MMAS` is, not yet completed or discarded. -/
def Slot.pendingMma (sl : Slot) : List MmaCmd :=
  ((sl.mring.pending .m).filter fun w => copOf w == 1 || copOf w == 2).map mmaOf
def execMset (o : MsetOp) : State → Out :=
  instr o.pr (regLitLen o.val) fun s =>
    let v := s.me.regLit o.val
    if o.row.toNat ≥ 6 then .trap fBound 0
    else if v.toNat ≥ 2 ^ 35 then .trap fIllegal 0
    else if s.me.pendingMma.any fun c => c.nset == o.set then .wait s .nestSet
    else .done (s.modMe fun sl => { sl with nest := Sparse.set 0 sl.nest (8 * o.set.toNat + o.row.toNat) v })
def execMsetG (o : MsetGOp) : State → Out :=
  instr o.pr (regLitLen o.val) fun s =>
    let v := s.me.regLit o.val
    if v &&& gResv o.w.toNat ≠ 0 then .trap fIllegal 0
    else if s.me.pendingMma.any fun c => c.gs == o.g || c.gb == o.g then .wait s .streamReg
    else .done (s.modMe fun sl =>
      { sl with g := Sparse.set 0 sl.g o.g.toNat (gSetWord (sl.greg o.g.toNat) o.w.toNat v) })

end Sys2Proof.Machine
end

