-- ==== Sys2Proof/Machine/Sem.lean ====
section
/-! DEFINITION. Semaphores, guards, notes and kernels of the V stream (R135, R139 to R142, R197, R198). -/

namespace Sys2Proof.Machine

/-- GDS of every pushed command not yet decided. -/
def Slot.undecidedGuards (sl : Slot) : List Nat :=
  [RingId.m, .x, .s, .k].flatMap fun r => ((sl.ring r).undecided r).map cGds
/-- undecided_names_unresolved_guard() -/
def Slot.unresolvedPending (sl : Slot) : Bool := sl.undecidedGuards.any fun g => sl.guard g == 0

/-! ### Semaphores -/

def execSemr (o : SemrOp) : State → Out :=
  instr o.pr 8 fun s =>
    let n := o.s.toNat
    if n ≠ 0 ∧ (s.me.sem n).pushed = 0xFFFFFFFF then .trap fBound 0
    else .done (s.modMe fun sl => (sl.pushSem n).raiseSem n)

/-- The checks and wait of `SEMW`, then `f`; `w` names what the wait is. -/
def semWait (n s' : Nat) (w : WaitFor) (s : State) (f : State → Res) : Res :=
  let x := s.me.sem s'
  if n > 0xFFFFFFFF then .trap fBound 0
  else if s' = 0 then f s
  else if n > x.pushed.toNat then .trap fFwait 0
  else if x.done.toNat < n then
    (if s.me.unresolvedPending then .trap fFwait 0 else .wait s w)
  else f (s.learn s' n)

def execSemw (o : SemwOp) : State → Out :=
  instr o.pr 8 fun s =>
    let n := o.s.toNat
    semWait (s.me.xr o.a).toNat n (.sem n (s.me.xr o.a).toNat) s fun s =>
      let x := s.me.sem n
      .done (s.setX o.d (x.pushed ++ x.done))

/-! ### Guards -/

def gset (pr : Pred) (g : BitVec 6) (v : State → BitVec 2) : State → Out :=
  instr pr 8 fun s =>
    let n := g.toNat
    let old := s.me.guard n
    if old ≠ v s ∧ old ≠ 0 ∧ s.me.undecidedGuards.contains n then .trap fFwait 0
    else .done (s.modMe (·.setGuard n (v s)))
def guardOf (b : Bool) : BitVec 2 := if b then 1 else 2
def execGset (o : GsetPOp) : State → Out := gset o.pr o.g fun s => guardOf (s.me.pr o.b)
def execGsetN (o : GsetPOp) : State → Out := gset o.pr o.g fun s => guardOf (!s.me.pr o.b)
def execGsetX (o : GsetXOp) : State → Out := gset o.pr o.g fun s => guardOf (s.me.xr o.a != 0)
def execGsetClr (o : GsetCOp) : State → Out := gset o.pr o.g fun _ => 0

/-! ### Notes -/

/-- The note command of a ring (R142). -/
def noteBits (r : RingId) (w n : Nat) (rss : Nat) : BitVec 128 :=
  let cop := match r with | .m => 6 | .x => 11 | _ => 4
  let awc := match r with | .s => n * 2 ^ 24 | _ => n * 2 ^ 64
  BitVec.ofNat 128 (cop + w * 16 + rss * 2 ^ 10 + awc)
/-- A note is written: the ring is closed. -/
def Slot.pushNote (sl : Slot) (r : RingId) (w n rss : Nat) : Slot :=
  (sl.pushCmd r (noteBits r w n rss)).modRing r fun ring => { ring with closed := true }

def noteRing (r : RingId) (o : NoteOp) : State → Out :=
  instr o.pr 8 fun s =>
    let n := (s.me.xr o.a).toNat
    let ring := s.me.ring r
    let w := noteBits r o.w.toNat n o.r.toNat
    if n > (if r = .s then 0xFFFF else 0xFFFFFFFF) then .trap fBound 0
    else if !ring.present || ring.closed then .trap fIllegal 0
    else
      (s.me.pushCheck r w).then fun _ =>
        if !ring.room r then .wait s (.ringRoom r)
        else .done (s.modMe (·.pushNote r o.w.toNat n o.r.toNat))
def execNoteM (o : NoteOp) : State → Out := noteRing .m o
def execNoteX (o : NoteOp) : State → Out := noteRing .x o
def execNoteS (o : NoteOp) : State → Out := noteRing .s o

/-- `NOTE.C`: its wait, then a note into every present open ring at once; the kernel queue closes; the C
stream ends. -/
def execNoteC (o : NoteOp) : State → Out :=
  instr o.pr 8 fun s =>
    semWait (s.me.xr o.a).toNat o.w.toNat .notes s fun s =>
      let r := o.r.toNat
      let sl := s.me
      let opens := [RingId.m, .x, .s].filter fun r => (sl.ring r).present && !(sl.ring r).closed
      if sl.unresolvedPending then .trap fFwait 0
      else if r ≠ 0 ∧ (sl.sem r).pushed = 0xFFFFFFFF then .trap fBound 0
      else if opens.any fun q => !(sl.ring q).room q then .wait s .notes
      else
        .stay (s.modMe fun sl =>
          let sl := opens.foldl (fun sl q => sl.pushNote q 0 0 0) sl
          let sl := (sl.pushSem r).raiseSem r
          let sl := { sl with kring := { sl.kring with closed := true } }
          sl.modSs .c fun ss => { ss with ended := true, waiting := none, loops := [] })

/-! ### Kernels of the V stream -/

/-- raise(running.RSS) if a kernel runs. -/
def Slot.endKernel (sl : Slot) : Slot :=
  match sl.kernel with
  | some w => { sl.raiseSem (cRss w) with kernel := none }
  | none => sl

/-- What the running kernel published is known where its raise, which comes next, is awaited (R138, R380). -/
def State.passKernel (s : State) : State :=
  match s.me.kernel with
  | some w => s.passRun s.cur (cRss w) ((s.me.sem (cRss w)).done.toNat + 1)
  | none => s

/-- The V stream ends. -/
def Slot.endV (sl : Slot) : Slot := sl.modSs .v fun ss => { ss with ended := true, waiting := none, loops := [] }

/-- Stages 1 to 3 for the kernel queue's head (R198): discards what its guard decides, until an entry runs,
an entry waits, or the queue is empty. -/
inductive KernelNext where
  | run (sl : Slot) (w : BitVec 128)
  | wait (sl : Slot)
  | stop (sl : Slot)

def kernelNext : Nat → Slot → KernelNext
  | 0, sl => .wait sl
  | n + 1, sl =>
    let q := sl.kring
    if q.len = 0 then (if q.closed then .stop sl else .wait sl)
    else
      let w := q.headBits .k
      let g := sl.guard (cGds w)
      if q.head.phase = .fresh ∧ g = 0 then .wait sl
      else
        let run := if q.head.phase = .fresh then decide ((g = 1) = !w.getLsbD 22) else decide (q.head.phase = .awaitRun)
        let sl := { sl with kring := { q with head := { q.head with phase := if run then .awaitRun else .awaitDrop } } }
        if cAws w ≠ 0 ∧ (sl.sem (cAws w)).done.toNat < cAwc .k w then .wait sl
        else
          let ptr := q.rp.toNat
          let sl := { sl with kring := sl.kring.pop }
          if run then .run { sl with kernel := some w, kernelPtr := ptr, kernelNo := Sparse.get 0 q.order (ptr % 16) } w
          else kernelNext n (sl.raiseSem (cRss w))

/-- Trace data of a kernel (R459). -/
def kernData (sl : Slot) (w : BitVec 128) : Nat := sl.kernelPtr + (ext w 32 32).toNat * 2 ^ 32

/-- `HALT` of the V stream: completes the running kernel, then parks until an entry is decided (a mask, and loops:
notes/assumptions/48.md). -/
def execHaltV (_ : Pred) : State → Out :=
  instrAlways 4 fun s =>
    let s := match s.me.kernel with
      | some w => s.trace s.cur.core s.cur.slot 6 .v 0 (kernData s.me w)
      | none => s
    let s := s.passKernel
    match kernelNext 17 s.me.endKernel with
    | .wait sl => .wait (s.putMe sl) .kernel
    | .stop sl => .stay (s.putMe sl.endV)
    | .run sl w =>
      let s := ((s.putMe sl).learn (cAws w) (cAwc .k w)).trace s.cur.core s.cur.slot 5 .v 0 (kernData sl w)
      .jump s (s.me.t.entry + (ext w 32 32).setWidth 64)

/-- A parked V stream takes a decided entry. -/
def execKernelStart (o : SlotId) (s : State) : Out :=
  let sl := s.slotAt o.core o.slot
  if sl.vs.waiting = some .kernel ∧ sl.vs.stopReq = none ∧ !sl.vs.stopped ∧ sl.vs.heldAt = none ∧ !(s.core o.core).frozen then
    match execHaltV ⟨0, false⟩ { s with cur := ⟨o.core, o.slot, .v⟩ } with
    | .next t => .next { t with cur := s.cur }
    | r => r
  else .next s

/-- `NOTE.V`: the running kernel raises, every queued entry is discarded with its raise, the queue closes
and the V stream ends. -/
def execNoteV (_ : Pred) : State → Out :=
  instrAlways 8 fun s =>
    let s := match s.me.kernel with
      | some w => s.trace s.cur.core s.cur.slot 6 .v 0 (kernData s.me w)
      | none => s
    .stay (s.passKernel.modMe fun sl =>
      let sl := sl.endKernel
      let sl := (sl.kring.pending .k).foldl (fun sl w => sl.raiseSem (cRss w)) sl
      let q := sl.kring
      { sl with kring := { q with rp := q.wp, closed := true, head := HeadSt.reset } }.endV)

end Sys2Proof.Machine
end

