-- ==== Sys2Proof/Machine/Lottery.lean ====
section
/-! DEFINITION. Currencies and values (R150 to R153), lending (R154 to R156), effective values (R157), the
generator and the draw (R143, R145). -/

namespace Sys2Proof.Machine

/-! ### Currencies -/

def State.cur? (s : State) (k : Nat) : Currency := Sparse.get Currency.reset s.curs k
def State.setCur (s : State) (k : Nat) (c : Currency) : State :=
  { s with curs := Sparse.set Currency.reset s.curs k c }
def State.modCur (s : State) (k : Nat) (f : Currency → Currency) : State := s.setCur k (f (s.cur? k))

/-- value(k) (R151); a currency lies at most 4 levels below the root. -/
def State.valueAt (s : State) : Nat → Nat → Nat
  | 0, _ => (s.cur? 0).issued
  | n + 1, k =>
    if k = 0 then (s.cur? 0).issued
    else
      let c := s.cur? k
      let p := s.cur? c.parent
      if p.issued = 0 then 0 else c.funding * s.valueAt n c.parent / p.issued
def State.value (s : State) (k : Nat) : Nat := s.valueAt 5 k
/-- worth(h, k). -/
def State.worth (s : State) (h : Holding) : Nat :=
  let c := s.cur? h.cur
  if c.issued = 0 then 0 else h.amt * s.value h.cur / c.issued
/-- A slot's base value. -/
def State.base (s : State) (c k : Nat) : Nat := s.worth (s.slotAt c k).hold

/-- k is `top` or below it. -/
def State.below (s : State) (top : Nat) : Nat → Nat → Bool
  | 0, k => k == top
  | n + 1, k => k == top || (k != 0 && s.below top n (s.cur? k).parent)

/-! ### The generator and the draw -/

/-- State e of a core's generator holds e at reset. -/
def Core.gen (c : Core) (e : Nat) : BitVec 32 := Sparse.get (BitVec.ofNat 32 e) c.gens e
def Core.setGen (c : Core) (e : Nat) (v : BitVec 32) : Core := { c with gens := c.gens.put e v }

def sumN (l : List Nat) : Nat := l.foldl (· + ·) 0
/-- The least shift that brings the sum below 2^24. -/
def shiftFor (v : List Nat) : Nat → Nat → Nat
  | 0, sh => sh
  | n + 1, sh => if sumN (v.map (· / 2 ^ sh)) < 2 ^ 24 then sh else shiftFor v n (sh + 1)
/-- The first index whose prefix sum exceeds w. -/
def prefixPick (w : Nat) : List Nat → Nat → Nat
  | [], i => i
  | x :: t, i => if w < x then i else prefixPick (w - x) t (i + 1)
/-- A draw among candidates with values (R145), starvation apart: the index that wins and the state after. -/
def drawPick (x : BitVec 32) (v : List Nat) : Nat × BitVec 32 :=
  if v.length ≤ 1 then (0, x)
  else
    let v := v.map (min · 0xFFFFFFFF)
    let sh := shiftFor v 44 0
    let vs := v.map (· / 2 ^ sh)
    let t := sumN vs
    let y := step32 x
    let u := y.toNat / 2 ^ 8
    if t = 0 then (u * v.length / 2 ^ 24, y)
    else (prefixPick (u * t / 2 ^ 24) vs 0, y)

/-! ### The operands that a head names -/

/-- A tile operand (R236) and whether it is written. -/
structure Operand where
  top : BitVec 12
  wr : Bool
/-- The tile operands of a command, in the order of its fields. -/
def cmdTops (sl : Slot) (r : RingId) (w : BitVec 128) : List Operand :=
  match r with
  | .m =>
    (match copOf w with
      | 1 | 2 =>
        let c := mmaOf w
        let g (i : BitVec 4) : List Operand :=
          let g := sl.greg i.toNat
          ⟨gTop g, false⟩ :: (if gSkind g = 0 then [] else [⟨gStop g, false⟩])
        g c.gs ++ g c.gb ++ (if c.pv = 0 then [] else [⟨c.vt, true⟩])
      | 4 => [⟨(mxfOf w).top, true⟩]
      | 5 => [⟨(mxfOf w).top, false⟩]
      | _ => [])
  | .x =>
    let c := xOf w
    let idx : Operand := ⟨c.opnd.setWidth 12, false⟩
    (match copOf w, (ext w 60 3).toNat with
      | 1, 0 => [⟨c.dt, true⟩]
      | 1, 1 => [⟨c.st, false⟩]
      | 1, 2 => [⟨c.dt, true⟩, ⟨c.st, false⟩]
      | 1, 3 => [⟨c.dt, true⟩]
      | 2, 0 => [⟨c.dt, true⟩]
      | 3, _ => [⟨c.dt, true⟩, idx]
      | 4, _ => [⟨c.st, false⟩, idx]
      | 5, 1 => [⟨c.st, false⟩]
      | 6, _ => [⟨c.dt, true⟩]
      | 7, _ => [⟨c.dt, true⟩]
      | 8, 0 => [⟨c.dt, true⟩]
      | 9, _ => [⟨c.st, false⟩]
      | 10, _ => [⟨c.st, false⟩]
      | _, _ => [])
  | .s => (match copOf w with | 1 | 2 | 3 => [⟨(sOf w).src, false⟩] | _ => [])
  | .k => []

/-- The word at a stream's program counter as fields, for what it names. -/
def State.fieldsAt (s : State) (c k : Nat) (st : Strm) : Option Fields :=
  match s.fetch c k st with
  | .ok w => fieldsOf w
  | .error _ => none
/-- The tile operand of the V stream's next instruction. -/
def State.vTops (s : State) (c k : Nat) : List Operand :=
  match s.fieldsAt c k .v with
  | some f =>
    if f.op = 0x40 ∨ f.op = 0x41 ∨ f.op = 0x60 ∨ f.op = 0x61 then
      [⟨f.im 0 12, (f.op == 0x60) || ((f.op == 0x40 || f.op == 0x41) && f.fn == 1)⟩]
    else []
  | none => []
/-- What the C stream's next instruction names: tiles of its slot, and circular buffers by reference or by `CBADV`. -/
def State.cTops (s : State) (c k : Nat) : List Operand :=
  let sl := s.slotAt c k
  let reg (a : Reg) (t : BitVec 9) (wr : Bool) : List Operand :=
    let n := (sl.xr a).toNat + t.toNat
    if n > 63 then [] else [⟨BitVec.ofNat 12 n, wr⟩]
  let own (t : BitVec 6) (wr : Bool) : List Operand := [⟨t.setWidth 12, wr⟩]
  let run (t : BitVec 6) (n : Nat) : List Operand :=
    ((rangeFrom t.toNat n).filter (· < 64)).map fun i => ⟨BitVec.ofNat 12 i, true⟩
  match s.fetch c k .c with
  | .error _ => []
  | .ok w =>
    match decodeC w with
    | .ok (.cbadvP o, _) => [⟨0x800 + o.n.setWidth 12, true⟩]
    | .ok (.cbadvC o, _) => [⟨0x800 + o.n.setWidth 12, false⟩]
    | .ok (.skinit o, _) => [⟨o.top, true⟩]
    | .ok (.skmrg o, _) => [⟨o.top, true⟩, ⟨(sl.xr o.a).setWidth 12, false⟩]
    | .ok (.skmrgR o, _) => [⟨o.top, true⟩]
    | .ok (.skqnt o, _) | .ok (.sktop o, _) | .ok (.sktopC o, _) => [⟨o.top, false⟩]
    | .ok (.skest o, _) | .ok (.skestX o, _) => [⟨o.top, false⟩]
    | .ok (.tstat o, _) | .ok (.cktkt o, _) => reg o.a o.t false
    | .ok (.tfree o, _) | .ok (.tfreeU o, _) | .ok (.ckpin o, _) | .ok (.ckpinClr o, _) => reg o.a o.t true
    | .ok (.pubv o, _) | .ok (.seal o, _) => own o.t true
    | .ok (.cbdef o, _) => run o.t (o.depth.toNat + 1)
    | .ok (.cbdefT o, _) => run o.t (o.cnt.toNat + 1)
    | .ok (.tksetT o, _) => reg 0 o.t false
    | .ok (.vnq o, _) => own o.t false
    | .ok (.taste o, _) => own o.t false
    | _ => []
/-- The operands of the head of a stream. -/
def State.headTops (s : State) (c k : Nat) (st : Strm) : List Operand :=
  let sl := s.slotAt c k
  match st with
  | .c => if sl.cs.ended then [] else s.cTops c k
  | .v => if sl.vs.ended then [] else s.vTops c k
  | st =>
    let r := ringOf st
    let q := sl.ring r
    if q.len = 0 then [] else cmdTops sl r (q.headBits r)

/-! ### Lending (R154 to R156) -/

/-- The queue holding the earliest-pushed command of the slot that raises n and has not completed. -/
def Slot.raiser (sl : Slot) (n : Nat) : Option Strm :=
  let ofRing (r : RingId) : List (Nat × Strm) :=
    let q := sl.ring r
    ((List.range q.len).filter fun i => cRss (q.cmd r i) == n).map fun i => (q.cmdNo r i, strmOfRing r)
  let run := match sl.kernel with
    | some w => if cRss w = n then [(sl.kernelNo, Strm.v)] else []
    | none => []
  let all := run ++ ofRing .m ++ ofRing .x ++ ofRing .s ++ ofRing .k
  (all.foldl (fun best x => match best with
    | none => some x
    | some b => if x.1 < b.1 then some x else some b) none).map (·.2)

/-- The lowest-numbered stream of a slot whose head satisfies f; its C stream if none does. -/
def State.headWith (s : State) (c k : Nat) (f : Operand → Bool) : StrmRef :=
  match [Strm.c, .v, .m, .x, .s].find? fun st => (s.headTops c k st).any f with
  | some st => ⟨c, k, st⟩
  | none => ⟨c, k, .c⟩

/-- The slot of the opposite role of a circular buffer. -/
def State.cbOther (s : State) (c k : Nat) (h : CbHandle) : SlotId :=
  if h.role = 3 then ⟨c, k⟩
  else if h.role = 1 then ⟨h.rcore, h.ring / 16⟩
  else
    ((s.slotAt c k).t.mates.find? fun m =>
      (List.range 16).any fun n =>
        let x := (s.slotAt m.core m.slot).handle n
        x.valid && x.role == 1 && x.rcore == h.rcore && x.ring == h.ring).getD ⟨c, k⟩

/-- A circular buffer still holds the head: a reference of the head does not resolve yet. -/
def State.stillHeld (s : State) (r : StrmRef) (w : WaitFor) : Bool :=
  match w with
  | .cbuf _ _ => (s.headTops r.core r.slot r.strm).any fun x =>
      match s.place r.core r.slot x.top x.wr with
      | .wait v => v == w
      | .tile _ _ => false
  | _ => true
/-- What a stream waits for, when its head is a waiter. -/
def State.waitOf (s : State) (r : StrmRef) : Option WaitFor :=
  Option.filter (s.stillHeld r) <|
  let sl := s.slotAt r.core r.slot
  let stage3 (id : RingId) : Option WaitFor :=
    let q := sl.ring id
    if q.len = 0 ∨ q.head.held.isSome then none
    else
      let w := q.headBits id
      if (q.head.phase = .awaitRun ∨ q.head.phase = .awaitDrop) ∧ cAws w ≠ 0 ∧ (sl.sem (cAws w)).done.toNat < cAwc id w then
        some (.sem (cAws w) (cAwc id w))
      else q.head.waitFor
  match r.strm with
  | .c => if sl.cs.ended || sl.cs.stopped then none else sl.cs.waiting
  | .v =>
    if sl.vs.ended || sl.vs.stopped || sl.vs.heldAt.isSome then none
    else if sl.vs.waiting = some .kernel then stage3 .k else sl.vs.waiting
  | st => if Sparse.get false sl.estopped (strmNo st) then none else stage3 (ringOf st)

/-- The target queue of a waiter (R154); none for any other wait. -/
def State.lendTarget (s : State) (r : StrmRef) : Option StrmRef :=
  match s.waitOf r with
  | some (.sem n _) => ((s.slotAt r.core r.slot).raiser n).map fun st => ⟨r.core, r.slot, st⟩
  | some (.cbuf n reading) =>
    let h := (s.slotAt r.core r.slot).handle n
    let o := s.cbOther r.core r.slot h
    let so := s.slotAt o.core o.slot
    some (s.headWith o.core o.slot fun x =>
      x.top.getLsbD 11 && x.wr == reading
        && (let y := so.handle (x.top.extractLsb' 0 4).toNat
            y.valid && y.rcore == h.rcore && y.ring == h.ring))
  | some (.remoteTile c abs) =>
    some (s.headWith c (abs / 64) fun x => !x.top.getLsbD 11 && (x.top.extractLsb' 0 6).toNat == abs % 64)
  | some (.inbox c k _ true) => some ⟨c, k, .c⟩
  | _ => none

/-- The cycle of at most 8 queues that r lies on, if any (R156). -/
def State.cycleFrom (s : State) (r : StrmRef) : Nat → List StrmRef → StrmRef → Option (List StrmRef)
  | 0, _, _ => none
  | n + 1, acc, x =>
    match s.lendTarget x with
    | none => none
    | some t => if t = r then some acc else s.cycleFrom r n (t :: acc) t
def State.cycleAt (s : State) (r : StrmRef) : Option (List StrmRef) := s.cycleFrom r 8 [r] r

/-- Where the chain that has reached target t ends, with n more hops (R155): the queue it credits, or none
once it enters a cycle. -/
def State.chain (s : State) : Nat → StrmRef → Option StrmRef
  | 0, t => if (s.cycleAt t).isSome then none else some t
  | n + 1, t =>
    if (s.cycleAt t).isSome then none
    else
      match s.lendTarget t with
      | some u => s.chain n u
      | none => some t

/-- Every queue of the module with a seated task. -/
def State.queues (s : State) : List StrmRef :=
  s.cores.flatMap fun (c, co) => co.slots.flatMap fun (k, sl) =>
    if sl.task.isSome then [Strm.c, .v, .m, .x, .s].map fun st => ⟨c, k, st⟩ else []

/-- × Q ÷ max(used, Q ÷ 16), or × 1 (R148, R157). -/
def Slot.compensate (sl : Slot) (e : Engine) (v : Nat) : Nat :=
  let u := Sparse.get 0 sl.comp (engNo e)
  min 0xFFFFFFFF (if u = 0 then v else v * quantum e / max u (quantum e / 16))

/-- What a waiter lends (R157). -/
def State.lends (s : State) (r : StrmRef) : Nat :=
  match engineOf r.strm with
  | none => s.base r.core r.slot
  | some e => (s.slotAt r.core r.slot).compensate e (s.base r.core r.slot)

/-- credited(i, engine). -/
def State.credited (s : State) (c k : Nat) (e : Engine) : Nat :=
  sumN (s.queues.map fun r =>
    match s.lendTarget r with
    | none => 0
    | some t =>
      if r.strm = .c ∧ t.core = r.core ∧ t.slot = r.slot then 0
      else
        match s.chain 7 t with
        | some q =>
          if q.core = c ∧ q.slot = k ∧ (q.strm = strmOfEngine e ∨ (q.strm = .c ∧ (s.lendTarget q).isNone))
          then s.lends r else 0
        | none => 0)

/-- v of R157. -/
def State.effective (s : State) (c k : Nat) (e : Engine) : Nat :=
  (s.slotAt c k).compensate e (s.base c k + s.credited c k e)

def refKey (r : StrmRef) : Nat := (r.core * 8 + r.slot) * 8 + strmNo r.strm
def insertRef (x : StrmRef) : List StrmRef → List StrmRef
  | [] => [x]
  | y :: t => if refKey x ≤ refKey y then x :: y :: t else y :: insertRef x t
def sortRefs : List StrmRef → List StrmRef
  | [] => []
  | x :: t => insertRef x (sortRefs t)
/-- The lending cycles now standing in a partition (R156), each as its members in the order core, slot,
stream. -/
def State.cyclesOf (s : State) (p : Nat) : List (List StrmRef) :=
  (s.queues.filter fun r => (s.slotAt r.core r.slot).t.part == p).foldl (fun acc r =>
    match s.cycleAt r with
    | some l => let l := sortRefs l; if acc.contains l then acc else acc ++ [l]
    | none => acc) []

/-- A cycle that forms is counted and reported once, as an event of the named member's owner (R156, R468). -/
def State.reportCycle (s : State) (p : Nat) (l : List StrmRef) : State :=
  match l with
  | [] => s
  | m :: _ =>
    let s := s.modPart p fun q =>
      let v := (bitsN q.lcstat.toNat 0 32 + 1) % 2 ^ 32 + m.core * 2 ^ 32 + m.slot * 2 ^ 40 + strmNo m.strm * 2 ^ 43
      { q with lcstat := BitVec.ofNat 64 v }
    s.event (s.slotAt m.core m.slot).t.fn 1 m.core
def State.lendCycles (s : State) (p : Nat) : State :=
  let now := s.cyclesOf p
  let fresh := now.filter fun l => !(s.part p).cycles.contains l
  (fresh.foldl (fun s l => s.reportCycle p l) s).modPart p fun q => { q with cycles := now }

end Sys2Proof.Machine
end

