-- ==== Sys2Proof/Machine/Tiles.lean ====
section
/-! DEFINITION. Tiles and their vintages: readers, writers, publication, sealing, freeing, registrations and
the re-fire requests that a new vintage makes (R209 to R211, R388 to R399). -/

namespace Sys2Proof.Machine

/-- Bytes of a tile. -/
def Tile.bytes (t : Tile) : Nat := 64 * t.size
/-- Scratchpad byte address of the visible buffer, and of the shadow. -/
def Tile.at (t : Tile) : Nat := 64 * t.addr
def Tile.shadowAt (t : Tile) : Nat := 64 * t.saddr
/-- The buffer that a writer with that SHD fills. -/
def Tile.buf (t : Tile) (shd : Bool) : Nat := if shd then t.shadowAt else t.at

/-- The shadow is dropped (R211, R393). -/
def Tile.dropShadow (t : Tile) : Tile := { t with sfill := false, sfillCmd := false }
/-- VINT, SEALED, SUPER and SPENT return to 0 at a free (R388). -/
def Tile.clearVint (t : Tile) : Tile := { t with vint := 0, sealed := false, super := false, spent := false }

/-! ### Registrations (R394 to R396) -/

/-- The declared policy made effective. -/
def Slot.finalEff (sl : Slot) (fin : Bool) : Bool :=
  fin || sl.t.refire == 0 || decide (sl.t.refire ≤ sl.t.refcnt)

def Core.regsOn (c : Core) (abs : Nat) : List Registration := c.regs.filter (·.abs == abs)

/-- A registration goes; SPENT is set when it was the last of a final tile and had tasted its vintage. -/
def Core.release (c : Core) (r : Registration) : Core :=
  let c := { c with regs := c.regs.filter (· != r) }
  let t := c.tile r.abs
  if t.sealed && (c.regsOn r.abs).isEmpty && r.tv == t.vint then c.putTile r.abs { t with spent := true } else c
/-- The registration that entry e of a slot holds at core `oc`. -/
def Core.regOf (c : Core) (cc ck e : Nat) : Option Registration :=
  c.regs.find? fun r => r.ccore == cc && r.cslot == ck && r.e == e
/-- Releases the registration of a taste entry, wherever it stands. -/
def State.releaseTaste (s : State) (c k e : Nat) : State :=
  let te := (s.slotAt c k).te e
  match (s.core te.core).regOf c k e with
  | some r => s.modCore te.core (·.release r)
  | none => s
/-- Every taste entry of a slot is released and free (R395). -/
def State.releaseTastes (s : State) (c k : Nat) : State :=
  let s := (List.range 8).foldl (fun s e => s.releaseTaste c k e) s
  s.modSlot c k fun sl => { sl with taste := [] }
/-- A registration blocks settlement (R396). -/
def State.regBlocks (s : State) (oc : Nat) (r : Registration) : Bool :=
  let te := (s.slotAt r.ccore r.cslot).te r.e
  te.st == .pending || (te.st == .tasted && decide (r.tv < (s.tileAt oc r.abs).vint))

/-! ### Re-fire requests (R397, R399) -/

/-- The members of the task's gang instance that are still seated. -/
def State.liveMates (s : State) (c k : Nat) : List SlotId :=
  let ms := (s.slotAt c k).t.mates
  ms.filter fun m => let sl := s.slotAt m.core m.slot; sl.task.isSome && sl.t.mates == ms

/-- A re-fire of every member of the task's gang instance is requested; it is merged into one under way, gives
way to a stop, and is held while a member's function is out or the member is halted. -/
def State.requestRefire (s : State) (c k : Nat) : State :=
  let ms := s.liveMates c k
  let away (m : SlotId) : Bool := (s.slotAt m.core m.slot).out || [DbgSt.halted, .stepping].contains (s.slotAt m.core m.slot).dbg.st
  if ms.any fun m => (s.slotAt m.core m.slot).t.stopping.isSome then s
  else if ms.any away then
    ms.foldl (fun s m => if away m then s.modSlot m.core m.slot fun sl => { sl with heldRefire := true } else s) s
  else
    ms.foldl (fun s m =>
      if (s.slotAt m.core m.slot).t.refiring then s
      else (s.modSlot m.core m.slot fun sl => sl.modTask fun t => { t with refiring := true }).requestAll
        m.core m.slot .refire) s

/-- Some stream of a slot has not ended. -/
def Slot.anyRunning (sl : Slot) : Bool :=
  !sl.cs.ended || !sl.vs.ended || !sl.mring.ended || !sl.xring.ended || !sl.sring.ended

/-- The consumers of a tile whose VINT has advanced are checked (R395, R397). -/
def State.checkConsumers (s : State) (c abs : Nat) : State :=
  let v := (s.tileAt c abs).vint
  ((s.core c).regsOn abs).foldl (fun s r =>
    let sl := s.slotAt r.ccore r.cslot
    let te := sl.te r.e
    if te.st = .tasted ∧ !sl.finalEff te.fin ∧ r.tv < v ∧ sl.anyRunning then
      let s := s.modSlot r.ccore r.cslot fun sl => sl.setTe r.e { te with st := .pending }
      let s := if te.lcValid && (s.tileAt r.ccore (64 * r.cslot + te.lc)).valid then
          s.modTile r.ccore (64 * r.cslot + te.lc) fun t => { t with super := true } else s
      s.requestRefire r.ccore r.cslot
    else s) s

/-! ### Sealing (R392, R393) -/

/-- The head `MMA` or `MMAS` stands at a stop point (R294); any other command always does between units. -/
def Slot.atStopM (sl : Slot) : Bool :=
  let h := sl.mring.head
  let w := sl.mring.headBits .m
  if (copOf w = 1 ∨ copOf w = 2) ∧ h.phase = .active then
    let c := mmaOf w
    mmaStop (sl.nestRows c.nset.toNat c.nl.toNat) h.prog
  else true
def Slot.headAtStop (sl : Slot) (r : RingId) : Bool :=
  match r with
  | .m => sl.atStopM
  | _ => true
/-- A command whose destination is the sealed shadow ends at its next stop point. -/
def Slot.cutHead (sl : Slot) (r : RingId) (c abs : Nat) : Slot :=
  let stop := sl.headAtStop r
  sl.modRing r fun q =>
    match q.head.dst with
    | some d =>
      if d.core = c ∧ d.abs = abs ∧ q.head.dshd ∧ (q.head.phase = .ready ∨ q.head.phase = .active) ∧ 0 < q.len then
        { q with head := { q.head with phase := if stop then .finished else q.head.phase, sealCut := true, waitFor := none } }
      else q
    | none => q
/-- The head of a ring is begun and writes that tile. -/
def Slot.writes (sl : Slot) (r : RingId) (c abs : Nat) : Bool :=
  let h := (sl.ring r).head
  h.phase == .active && (match h.dst with | some d => d.core == c && d.abs == abs | none => false)

/-- SEALED ← 1 on a refining tile; no effect on a sealed tile. -/
def State.sealTile (s : State) (c abs : Nat) : State :=
  let t := s.tileAt c abs
  if t.sealed || t.vint = 0 then s
  else
    let k := abs / 64
    let shd := t.sfill
    let s := s.putTile c abs { t with sealed := true, sealAt := s.seq }.dropShadow
    if !shd then s
    else
      let s := [RingId.m, .x].foldl (fun s r =>
        if (s.slotAt c k).writes r c abs then s.trace c k 11 (strmOfRing r) 0 3 else s) s
      s.modSlot c k fun sl => (sl.cutHead .m c abs).cutHead .x c abs

/-- A remote seal under way takes effect (R393). -/
def State.landNow (s : State) (c abs : Nat) : State :=
  if (s.core c).sealsIn.any fun x => x.1 == abs then
    (s.modCore c fun co => { co with sealsIn := co.sealsIn.filter fun x => x.1 != abs }).sealTile c abs
  else s
/-- A remote seal of an earlier cycle has arrived before anything else changes the tile's vintage: the vintage that its
`SEAL.R` returned is the final one (R404). One of this cycle comes after a publication (R392). -/
def State.landSeal (s : State) (c abs : Nat) : State :=
  if (s.core c).sealsIn.any fun x => x.1 == abs && decide (x.2 < s.cycle) then s.landNow c abs else s

/-! ### Writers and publication (R211, R388 to R391) -/

/-- A writer takes an EMPTY or FILLING tile to READY: VINT advances. -/
def State.tileReady (s : State) (c abs : Nat) : State :=
  (s.modTile c abs fun t => { t with st := .ready, vint := t.vint + 1 }).checkConsumers c abs

/-- What a publication comes to (R389). -/
inductive PubRes where
  | published (s : State)
  | refused (s : State)
  | fault

/-- The buffers change places; `keep` leaves SFILL = 1 for the passes to come (R298). -/
def State.swapTile (s : State) (c abs : Nat) (keep : Bool) : State :=
  (s.modTile c abs fun t => { t with
    addr := t.saddr, saddr := t.addr, sfill := keep, sfillCmd := keep && t.sfillCmd, st := .ready, vint := t.vint + 1,
    oldReaders := t.readers }).checkConsumers c abs
/-- A publication by the task of slot `pub`. -/
def State.publish (s : State) (pub : SlotId) (c abs : Nat) (keep : Bool) : PubRes :=
  let s := s.landSeal c abs
  let t := s.tileAt c abs
  if t.sealed then
    if t.sealAt ≥ (s.slotAt pub.core pub.slot).t.runStart then .refused (s.putTile c abs t.dropShadow)
    else .fault
  else if t.vint = 65534 then .fault
  else .published ((s.swapTile c abs keep).count pub.core 0x16 (some pub.slot))

/-! ### Freeing (R221, R388) -/

/-- Drops every registration on a tile: its entries become FREE, and so do those that wait for it (R395). -/
def State.dropRegs (s : State) (c abs : Nat) : State :=
  { s with cores := s.cores.map fun (i, co) =>
      (i, { co with
        regs := if i = c then co.regs.filter (·.abs != abs) else co.regs
        slots := co.slots.map fun (k, sl) =>
          (k, { sl with taste := sl.taste.filter fun (_, te) => !(te.core == c && te.abs == abs && te.st != .free) }) }) }

/-- The free of `TFREE` (R221), of a tile that is not FILLING, DRAINING or SFILL = 1. -/
def State.freeTile (s : State) (c abs : Nat) : State :=
  let s := s.landSeal c abs
  let t := s.tileAt c abs
  match t.st, t.racked with
  | .ready, _ => (s.putTile c abs { t.clearVint with st := if t.readers = 0 then .empty else .draining }).dropRegs c abs
  | .empty, true => (s.putTile c abs { t.clearVint with rdyr := false }).dropRegs c abs
  | _, _ => s
/-- A command that writes the shadow of a tile is in flight (R252, R403). -/
def State.shadowBusy (s : State) (c abs : Nat) : Bool :=
  s.cores.any fun (_, co) => co.slots.any fun (_, sl) =>
    [RingId.m, .x].any fun r =>
      let h := (sl.ring r).head
      h.dshd && (match h.dst with | some d => d.core == c && d.abs == abs | none => false)
/-- What `TFREE` refuses. -/
def Tile.busy (t : Tile) : Bool := t.st == .filling || t.st == .draining || t.sfill

/-! ### Readers and writers of tiles (R210, R390, R391) -/

/-- A store that waits for the readers of a tile shuts out further readers. -/
def State.storeWaits (s : State) (c abs : Nat) : Bool :=
  s.cores.any fun (_, co) => co.slots.any fun (_, sl) =>
    sl.vs.waiting == some (.store c abs) || sl.cs.waiting == some (.store c abs)

/-- A tile may be read now; its buffer. -/
def State.readable (s : State) (c abs : Nat) : Bool :=
  (s.tileAt c abs).st == .ready && !s.storeWaits c abs
/-- The reader that starts: where it reads. -/
def State.takeRead (s : State) (c abs : Nat) : State × ReadRef :=
  let t := s.tileAt c abs
  (s.putTile c abs { t with readers := t.readers + 1 }, ⟨c, abs, t.addr⟩)

/-- A command may take its destination now. -/
def Tile.writable (t : Tile) (shd : Bool) : Bool :=
  if shd then !t.sfill && t.oldReaders == 0 else t.st == .empty && !t.racked
def Tile.takeWrite (t : Tile) (shd cmd : Bool) : Tile :=
  if shd then { t with sfill := true, sfillCmd := cmd } else { t with st := .filling }

/-! ### Scratchpad contents of tiles -/

def State.spRead (s : State) (c a n : Nat) : List Byte := (s.core c).scratch.read a n
def State.spWrite (s : State) (c a : Nat) (l : List Byte) : State := s.modCore c (·.swrite a l)
def State.spPoisoned (s : State) (c a n : Nat) : Bool := (s.core c).spoisoned a n
/-- Poisons the 64-bit words that meet a run. -/
def State.spPoison (s : State) (c a n : Nat) : State :=
  s.modCore c fun co => { co with scratchPoison := addPoison co.scratchPoison 8 a n }
/-- Copies bytes with the poison of the 64-bit words at the source. -/
def State.spCopy (s : State) (c a c' a' n : Nat) : State :=
  let bad := ((s.core c).scratchPoison.filter fun i => decide (a ≤ 8 * i ∧ 8 * i < a + n)).map fun i => 8 * i - a
  bad.foldl (fun s o => s.spPoison c' (a' + o) 8) (s.spWrite c' a' (s.spRead c a n))

end Sys2Proof.Machine
end

