-- ==== Sys2Proof/Machine/Casks.lean ====
section
/-! DEFINITION. The cask pool and the cellar: allocation, the spent casks, the residency draw, racking and
fetch-back (R214 to R216, R222). Casks carry their core-wide number 16 × slot + cask. A racking copies at its
start and a fetch-back at its end; the events of the table end both (notes/assumptions/9.md). -/

namespace Sys2Proof.Machine

def Core.cask (co : Core) (k : Nat) : Cask := Sparse.get Cask.reset co.casks k
def Core.putCask (co : Core) (k : Nat) (x : Cask) : Core := { co with casks := co.casks.put k x }
def State.modCask (s : State) (c k : Nat) (f : Cask → Cask) : State :=
  s.modCore c fun co => co.putCask k (f (co.cask k))
/-- The valid tiles of a cask, by absolute index. -/
def Core.caskTiles (co : Core) (k : Nat) : List (Nat × Tile) :=
  co.ttb.filter fun (a, t) => a / 64 == k / 16 && t.valid && !t.home && t.cask == k % 16
/-- The core-wide cask of a tile outside the home region. -/
def caskOf (abs : Nat) (t : Tile) : Nat := 16 * (abs / 64) + t.cask
/-- Granules of a tile with its shadow. -/
def Tile.span (t : Tile) : Nat := t.size * (1 + b2n t.shd)
/-- First granule of a tile's pool range. -/
def Tile.base (t : Tile) : Nat := if t.shd then min t.addr t.saddr else t.addr
/-- A cask holds pool ranges. -/
def Cask.holds (x : Cask) : Bool := !x.racked || x.copy == .fetching

/-! ### First fit -/

/-- The lowest start at which `n` granules fit within [lo, hi) beside the ranges taken. -/
def firstFit (taken : List (Nat × Nat)) (lo hi n : Nat) : Option Nat :=
  let ok (g : Nat) : Bool := decide (g + n ≤ hi) && taken.all fun (b, m) => decide (g + n ≤ b ∨ b + m ≤ g)
  (sortNat (lo :: (taken.map fun (b, m) => b + m))).find? fun g => decide (lo ≤ g) && ok g

/-- The pool ranges taken (R207, R214). -/
def Core.poolTaken (co : Core) : List (Nat × Nat) :=
  (co.ttb.filter fun (a, t) => t.valid && !t.home && (co.cask (caskOf a t)).holds && decide (0x8000 ≤ t.base)).map
    fun (_, t) => (t.base, t.span)
/-- The cellar ranges taken of a slot. -/
def Core.cellarTaken (co : Core) (slot : Nat) : List (Nat × Nat) :=
  (co.ttb.filter fun (a, t) => a / 64 == slot && t.valid && !t.home).map fun (_, t) => (t.cell, t.span)
/-- Physical address of a slot's cellar (R214). -/
def State.cellar (s : State) (c slot : Nat) : Nat :=
  match s.partOfCore c with
  | some p =>
    let j := ((s.part p).cores.filter (· < c)).length
    (s.part p).cellar.toNat + 0x400000 * (8 * j + slot)
  | none => 0

/-! ### Casks that can go (R215) -/

def Core.caskIdle (co : Core) (k : Nat) : Bool :=
  (co.caskTiles k).all fun (_, t) => t.st != .filling && t.st != .draining && !t.sfill && t.readers == 0
def Core.caskSpent (co : Core) (k : Nat) : Bool :=
  let r := (co.caskTiles k).filter fun (_, t) => t.st == .ready
  !r.isEmpty && r.all fun (_, t) => t.spent
/-- Resident, idle and unpinned; a cask without tiles holds nothing. -/
def Core.caskMayGo (co : Core) (k : Nat) : Bool :=
  !(co.cask k).racked && !(co.cask k).pin && (co.cask k).copy == .none && co.caskIdle k && !(co.caskTiles k).isEmpty
/-- Tickets of a cask. -/
def State.caskTickets (s : State) (c k : Nat) : Nat :=
  let ts := (s.core c).caskTiles k
  if ts.any fun (_, t) => decide (0 < t.hold.amt) then sumN (ts.map fun (_, t) => s.worth t.hold)
  else s.base c (k / 16)
def State.caskWeight (s : State) (c k : Nat) : Nat :=
  let r := ((s.core c).caskTiles k).filter fun (_, t) => t.st == .ready
  let w := 2 ^ 20 / max (s.caskTickets c k) 1
  if r.all fun (_, t) => t.super then w * 8 else w

/-- A spent cask is freed: its tiles become EMPTY as a free leaves them, and nothing is copied. -/
def State.freeCask (s : State) (c k : Nat) : State :=
  let s := ((s.core c).caskTiles k).foldl (fun s (a, _) =>
    let s := s.freeTile c a
    s.modTile c a fun t => { t with racked := true, rdyr := false }) s
  s.modCask c k fun x => { x with racked := true }

/-- The copy of a run between the scratchpad and physical memory, poison at 64-byte granularity (R226). -/
def State.spToPhys (s : State) (c a pa n : Nat) : State :=
  let bad := (List.range (n / 64)).filter fun i => s.spPoisoned c (a + 64 * i) 64
  let s := s.pwrite none pa (s.spRead c a n)
  { s with memPoison := bad.foldl (fun l i => addPoison l 64 (pa + 64 * i) 64) s.memPoison }
def State.physToSp (s : State) (c pa a n : Nat) : State :=
  let bad := (List.range (n / 64)).filter fun i => poisoned s.memPoison 64 (pa + 64 * i) 64
  bad.foldl (fun s i => s.spPoison c (a + 64 * i) 64) (s.spWrite c a (s.mem.read pa n))

/-- Racking begins (R216): the data of READY tiles goes to the cellar, and the cask's ranges are free. -/
def State.startRack (s : State) (c k : Nat) : State :=
  let base := s.cellar c (k / 16)
  let s := ((s.core c).caskTiles k).foldl (fun s (a, t) =>
    if t.st = .ready then
      (s.spToPhys c t.at (base + 64 * t.cell) t.bytes).putTile c a { t with st := .draining }
    else s.putTile c a { t with racked := true, rdyr := false }) s
  s.modCask c k fun x => { x with racked := true, copy := .racking }

/-- `RACK_COMPLETE`: the cask's tiles become racked; not in a freeze (R226). -/
def State.endRack (s : State) (c k : Nat) : State :=
  if ((s.core c).cask k).copy ≠ .racking ∨ (s.core c).frozen then s
  else
    let s := ((s.core c).caskTiles k).foldl (fun s (a, t) =>
      if t.st = .draining then s.putTile c a { t with st := .empty, racked := true, rdyr := true } else s) s
    (s.modCask c k fun x => { x with copy := .none }).count c 0x0C none
def execRackComplete (o : CaskRef) (s : State) : Out := .next (s.endRack o.core o.cask)

/-- The idle, unpinned casks other than `self`, rising. -/
def Core.victims (co : Core) (self : Nat) : List Nat :=
  (List.range 128).filter fun k => k != self && co.caskMayGo k

/-- R215 beside ranges `taken` just now: frees spent casks, then draws victims, until n granules fit or no
candidate remains. -/
def State.makeRoom (s : State) (c self : Nat) (taken : List (Nat × Nat)) (n : Nat) : Nat → State
  | 0 => s
  | fuel + 1 =>
    let co := s.core c
    if (firstFit (co.poolTaken ++ taken) 0x8000 0x18000 n).isSome then s
    else
      match (co.victims self).find? fun k => co.caskSpent k with
      | some k => (s.freeCask c k).makeRoom c self taken n fuel
      | none =>
        match co.victims self with
        | [] => s
        | ks =>
          let (i, x) := drawPick (co.gen 4) (ks.map fun k => s.caskWeight c k)
          ((s.modCore c fun co => co.setGen 4 x).startRack c (nth 0 ks i)).makeRoom c self taken n fuel

/-- A pool range of n granules for a tile of cask `self`, after room was made. -/
def State.poolAlloc (s : State) (c self : Nat) (taken : List (Nat × Nat)) (n : Nat) : State × Option Nat :=
  let s := s.makeRoom c self taken n 257
  (s, firstFit ((s.core c).poolTaken ++ taken) 0x8000 0x18000 n)

/-- Ranges for tiles one after another: the tiles with their places, or none when one does not fit. -/
def State.allocTiles (s : State) (c self : Nat) :
    List (Nat × Tile) → List (Nat × Tile) → State × Option (List (Nat × Tile))
  | [], done => (s, some done)
  | (a, t) :: rest, done =>
    match s.poolAlloc c self (done.map fun (_, t) => (t.base, t.span)) t.span with
    | (s, none) => (s, none)
    | (s, some g) =>
      s.allocTiles c self rest (done ++ [(a, { t with addr := g, saddr := if t.shd then g + t.size else 0 })])

/-! ### Fetch-back -/

/-- The whole cask is fetched back: its ranges are taken, and its data is on its way. Answers whether the
cask is resident. -/
def State.fetchCask (s : State) (c k : Nat) : State × Bool :=
  let x := (s.core c).cask k
  if !x.racked then (s, true)
  else if x.copy ≠ .none then (s, false)
  else
    match s.allocTiles c k ((s.core c).caskTiles k) [] with
    | (s, none) => (s, false)
    | (s, some ts) =>
      let s := ts.foldl (fun s (a, t) => s.putTile c a { t with st := if t.rdyr then .filling else .empty }) s
      (s.modCask c k fun x => { x with copy := .fetching }, false)

/-- `FETCH_BACK_COMPLETE`: RDYR tiles are READY with their data, the cask is resident; not in a freeze (R226). -/
def State.endFetch (s : State) (c k : Nat) : State :=
  if ((s.core c).cask k).copy ≠ .fetching ∨ (s.core c).frozen then s
  else
    let base := s.cellar c (k / 16)
    let s := ((s.core c).caskTiles k).foldl (fun s (a, t) =>
      if t.racked && t.rdyr then
        (s.physToSp c (base + 64 * t.cell) t.at t.bytes).putTile c a { t with st := .ready, racked := false }
      else s.putTile c a { t with racked := false }) s
    (s.modCask c k fun x => { x with racked := false, copy := .none }).count c 0x0D none
def execFetchBackComplete (o : CaskRef) (s : State) : Out := .next (s.endFetch o.core o.cask)

/-- A tile is named by an operand: its cask is fetched back when it is racked. Answers whether the tile is
resident. -/
def State.nameTile (s : State) (c abs : Nat) : State × Bool :=
  let t := s.tileAt c abs
  if t.valid && t.racked then s.fetchCask c (caskOf abs t) else (s, true)

/-- A writer may take the tile: not the shadow of a tile that is DRAINING for racking, whose cask goes first (R211, R216). -/
def State.mayWrite (s : State) (c abs : Nat) (shd : Bool) : Bool :=
  let t := s.tileAt c abs
  t.writable shd && !(t.st == .draining && ((s.core c).cask (caskOf abs t)).copy == .racking)

/-- A cask that has lost its last tile is resident (R214). -/
def State.tidyCask (s : State) (c k : Nat) : State :=
  if ((s.core c).caskTiles k).isEmpty then s.modCask c k fun x => { x with racked := false, copy := .none } else s

end Sys2Proof.Machine
end

