-- ==== Sys2Proof/Machine/Control.lean ====
section
/-! DEFINITION. Branches, calls and hardware loops of the C and V streams (R183 to R187, R206). -/

namespace Sys2Proof.Machine

/-- pc + 4 × offset (R183). -/
def branchTarget (s : State) (off : Imm) : Word := s.pc + 4 * immWord off
/-- The address of the next word. -/
def State.nextPc (s : State) (len : Nat) : Word := s.pc + BitVec.ofNat 64 len
/-- `JR`, `CALL`, `CALLR` and `RET` raise F_ILLEGAL while a loop is active (R187). -/
def noLoops (s : State) : Chk Unit := failIf (!(s.me.ss s.cur.strm).loops.isEmpty) fIllegal
/-- Counts calls less returns since launch, modulo 256 (R452). -/
def State.addDepth (s : State) (n : Nat) : State :=
  s.modMe fun sl => sl.modTask fun t => { t with depth := (t.depth + n) % 256 }

/-- A taken branch. The predicate of `BP` is its condition (R183). -/
def execBp (o : BpOp) : State → Out :=
  instr o.pr (immLen o.off) fun s => .jump s (branchTarget s o.off)
def execBV (o : Imm) : State → Out := instrAlways (immLen o) fun s => .jump s (branchTarget s o)
def execJr (o : JrOp) : State → Out :=
  instr o.pr 4 fun s => (noLoops s).then fun _ => .jump s (s.me.xr o.a)
/-- Sources are read before X[d] is written (R184). -/
def execCall (o : CallOp) : State → Out :=
  instr o.pr (immLen o.off) fun s => (noLoops s).then fun _ =>
    .jump ((s.setX o.d (s.nextPc (immLen o.off))).addDepth 1) (branchTarget s o.off)
def execCallr (o : RR) : State → Out :=
  instr o.pr 4 fun s => (noLoops s).then fun _ =>
    .jump ((s.setX o.d (s.nextPc 4)).addDepth 1) (s.me.xr o.a)
def execRet (o : JrOp) : State → Out :=
  instr o.pr 4 fun s => (noLoops s).then fun _ => .jump (s.addDepth 255) (s.me.xr o.a)

/-- A body that ends at `stop` ends inside the innermost loop's body. -/
def bodyFits (loops : List HwLoop) (stop : Nat) : Bool :=
  match loops with
  | [] => true
  | l :: _ => decide (stop ≤ l.stop.toNat)
/-- `HLOOP` of n iterations (R186): checks, activation and the first pass start. -/
def hloop (np : Bool) (o : HloopOp) (len n : Nat) (s : State) : Res :=
  let st := s.cur.strm
  let loops := (s.me.ss st).loops
  let start := s.nextPc len
  let stop := start + BitVec.ofNat 64 (4 * o.len.toNat)
  if n > 0xFFFFFFFF then .trap fBound 0
  else if loops.length ≥ 4 then .trap fBound 0
  else if !bodyFits loops (start.toNat + 4 * o.len.toNat) then .trap fBound 0
  else
    let co := s.core s.cur.core
    let l : HwLoop :=
      { id := o.id.toNat, start := start, stop := stop, stages := o.c.toNat + 1, base := o.b.toNat, np := np,
        total := n, limit := n, pass := 0, remain := 0, cut := false, iters := 0,
        rowSums := (List.range 9).map co.rowSum, colSums := (List.range 32).map co.colSum }
    if n = 0 then .skip (s.modMe fun sl => sl.startPass st l) (len + 4 * o.len.toNat)
    else
      .stay (s.modMe fun sl =>
        (sl.modSs st fun ss => { ss with pc := start, loops := l :: ss.loops, waiting := none, resolved := [], atStop := false }).startPass
          st l)

/-- The C stream's count: X[a] in K64, LIT in K96. -/
def hloopC (np : Bool) (o : HloopOp) : State → Out :=
  instrAlways (regLitLen o.cnt) fun s => hloop np o (regLitLen o.cnt) (s.me.regLit o.cnt).toNat s
def execHloop (o : HloopOp) : State → Out := hloopC false o
def execHloopNp (o : HloopOp) : State → Out := hloopC true o
/-- In the V stream the K64 count is bytes 0–3 of V[a] (R206). -/
def execHloopV (o : HloopVOp) : State → Out :=
  instrAlways (regLitLen o.h.cnt) fun s =>
    match o.h.cnt with
    | .lit v => hloop o.np o.h 12 v.toNat s
    | .reg a =>
      if s.me.vpoisoned a.toNat 0 4 then .trap fPoison 0
      else hloop o.np o.h 8 (VWord.nat (s.me.vr a.toNat) 0 4) s

end Sys2Proof.Machine
end

