-- ==== Sys2Proof/Machine/TileInstr.lean ====
section
/-! DEFINITION. Tile operands and references (R210, R213, R236), and the tile, ring, cask and binding
instructions (R217 to R223). -/

namespace Sys2Proof.Machine

/-! ### Tile operands (R213, R236) -/

/-- The checks of a tile operand that come before any wait: reserved bits, the handle's validity and role. -/
def topCheck (sl : Slot) (top : BitVec 12) (wr : Bool) : Chk Unit :=
  if !top.getLsbD 11 then failIf (top.extractLsb' 6 5 != 0) fIllegal
  else if top.getLsbD 10 then bad fIllegal
  else
    let h := sl.handle (top.extractLsb' 0 4).toNat
    if !h.valid then bad fIllegal
    else failIf (!(if wr then h.role == 1 || h.role == 3 else h.role == 2 || h.role == 3)) fTilestate

/-- The reference that a waiting instruction has resolved already (R213, R323). -/
def State.resolvedAt (s : State) (key : Nat) : Option (Nat × Nat) :=
  let ss := s.me.ss s.cur.strm
  if ss.waiting.isNone then none else (ss.resolved.find? fun x => x.1 == key).map (·.2)
/-- An instruction that waits keeps what it has resolved. -/
def Res.keep (r : Res) (key c a : Nat) : Res :=
  match r with
  | .wait s w => .wait (s.modMe fun sl => sl.modSs s.cur.strm fun ss =>
      { ss with resolved := (key, c, a) :: ss.resolved.filter fun x => x.1 != key }) w
  | r => r
/-- An operand of an instruction of the current slot: checked, resolved once, its tile valid. -/
def withPlace (s : State) (top : BitVec 12) (wr : Bool) (f : Nat → Nat → Res) : Res :=
  let key := top.toNat + 4096 * b2n wr
  let go (c a : Nat) : Res := if (s.tileAt c a).valid then f c a else .trap fTilestate 0
  match s.resolvedAt key with
  | some (c, a) => (go c a).keep key c a
  | none =>
    (topCheck s.me top wr).then fun _ =>
      match s.place s.cur.core s.cur.slot top wr with
      | .wait w => .wait s w
      | .tile c a => if top.getLsbD 11 then (go c a).keep key c a else go c a

/-- A reading instruction's tile: fetched back if racked, then READY. The reader leaves in the same step. -/
def withRead (s : State) (c a : Nat) (w : WaitFor) (f : State → Res) : Res :=
  match s.nameTile c a with
  | (s, false) => .wait s w
  | (s, true) => if s.readable c a then f s else .wait s w

/-! ### Tile instructions -/

/-- t = X[a] + zext64(imm16[8:0]), not above 63: the absolute index. -/
def tileIdx (s : State) (a : Reg) (t : BitVec 9) : Chk Nat :=
  let n := (s.me.xr a + t.setWidth 64).toNat
  if n > 63 then bad fBound else .ok (64 * s.cur.slot + n)
/-- A valid tile so named. -/
def tileNamed (s : State) (a : Reg) (t : BitVec 9) : Chk Nat :=
  match tileIdx s a t with
  | .error e => .error e
  | .ok abs => if (s.tileAt s.cur.core abs).valid then .ok abs else bad fTilestate

def tileStNo : TileState → Nat
  | .empty => 0 | .filling => 1 | .ready => 2 | .draining => 3
/-- Entry bits [31:0] (R209). -/
def Tile.low (t : Tile) : Nat :=
  b2n t.valid + 2 * tileStNo t.st + 8 * b2n t.racked + 16 * b2n t.rdyr + 32 * b2n t.sealed + 64 * b2n t.pin
    + 128 * b2n t.shd + 256 * b2n t.sfill + 512 * b2n t.home + 1024 * b2n t.super + 2048 * b2n t.spent
    + t.vint * 2 ^ 16
def execTstat (o : TileDA) : State → Out :=
  instr o.pr 8 fun s => (tileNamed s o.a o.t).then fun abs =>
    let t := s.tileAt s.cur.core abs
    .done (s.setX o.d (BitVec.ofNat 64 (t.low + t.size * 2 ^ 32 + t.cask * 2 ^ 48)))
def execTfree (o : TileA) : State → Out :=
  instr o.pr 8 fun s => (tileNamed s o.a o.t).then fun abs =>
    if (s.tileAt s.cur.core abs).busy then .trap fTilestate 0 else .done (s.freeTile s.cur.core abs)

/-- A holding leaves ISSUED of its currency. -/
def State.withdraw (s : State) (h : Holding) : State :=
  if h.amt = 0 then s else s.modCur h.cur fun c => { c with issued := c.issued - h.amt }
/-- The entry becomes invalid; its ranges and holding go, its other fields stay. -/
def State.undefTile (s : State) (c abs : Nat) : State :=
  let t := s.tileAt c abs
  let s := (s.withdraw t.hold).putTile c abs { t with valid := false, hold := { t.hold with amt := 0 } }
  if t.home then s else s.tidyCask c (caskOf abs t)
def execTfreeU (o : TileA) : State → Out :=
  instr o.pr 8 fun s => (tileNamed s o.a o.t).then fun abs =>
    let t := s.tileAt s.cur.core abs
    if t.busy || t.readers != 0 then .trap fTilestate 0
    else .done ((s.freeTile s.cur.core abs).undefTile s.cur.core abs)

/-! ### `TBIND` (R223) -/

def State.bindBase (s : State) : Nat := (s.part s.me.t.part).bindBase.toNat
def State.bindEntry (s : State) (i : Nat) : Nat := s.mem.nat (s.bindBase + 16 * i) 16
def execTbind (o : TbindOp) : State → Out :=
  instr o.pr 8 fun s =>
    let base := (s.me.xr o.a).toNat
    let size := (s.me.xr o.b).toNat
    if base % 64 ≠ 0 ∨ size % 64 ≠ 0 then .trap fAlign 0
    else if size / 64 > 0xFFFFFFFF ∨ base + size > 2 ^ 52 then .trap fBound 0
    else if size = 0 then
      let hit := (List.range 4096).filter fun i =>
        let e := s.bindEntry i
        bitN e 0 && bitsN e 16 16 == o.o.toNat && bitsN e 64 64 == base
      if poisoned s.memPoison 64 s.bindBase 0x10000 then .trap fPoison 0
      else
        .done ((hit.foldl (fun s i => s.pwrite none (s.bindBase + 16 * i) (natLe 16 (setBitsN (s.bindEntry i) 0 1 0))) s).wrote.setX
          o.d (BitVec.ofNat 64 hit.length))
    else
      match (List.range 4096).find? fun i => !bitN (s.bindEntry i) 0 with
      | none => .trap fBound 0
      | some i =>
        if poisoned s.memPoison 64 s.bindBase (16 * (i + 1)) then .trap fPoison 0
        else
          .done ((s.pwrite none (s.bindBase + 16 * i)
            (natLe 16 (1 + o.o.toNat * 2 ^ 16 + size / 64 * 2 ^ 32 + base * 2 ^ 64))).wrote.setX o.d (BitVec.ofNat 64 i))

/-! ### Circular buffers (R219, R220) -/

def execCbdef (o : CbdefOp) : State → Out :=
  instr o.pr 8 fun s =>
    let t := o.t.toNat
    let depth := o.depth.toNat + 1
    let k := s.cur.slot
    if t + depth > 64 then .trap fBound 0
    else if (rangeFrom (64 * k + t) depth).any fun a =>
        !(s.tileAt s.cur.core a).valid || (s.tileAt s.cur.core a).st != .empty then .trap fTilestate 0
    else
      let n := o.n.toNat
      let s := s.modCore s.cur.core fun co =>
        co.putRing (16 * k + n) { ft := 64 * k + t, depth := depth, pptr := 0, cptr := 0, pipe := false, inst := [] }
      .done (s.modMe fun sl =>
        { sl with cb := Sparse.set CbHandle.reset sl.cb n ⟨true, 3, s.cur.core, 16 * k + n⟩ })

/-- A cellar place for each of n tiles of `span` granules. -/
def cellarFit (taken : List (Nat × Nat)) (span : Nat) : Nat → Option (List Nat)
  | 0 => some []
  | n + 1 =>
    match firstFit taken 0 0x10000 span with
    | none => none
    | some g =>
      match cellarFit ((g, span) :: taken) span n with
      | none => none
      | some l => some (g :: l)

def execCbdefT (o : CbdefTOp) : State → Out :=
  instr o.pr (regLitLen o.val) fun s =>
    let d := (s.me.regLit o.val).toNat
    let gran := bitsN d 0 13
    let home := bitN d 13
    let shd := bitN d 14
    let hoff := bitsN d 15 12
    let cnt := o.cnt.toNat + 1
    let span := gran * (1 + b2n shd)
    let c := s.cur.core
    let k := s.cur.slot
    let first := 64 * k + o.t.toNat
    if d / 2 ^ 27 ≠ 0 ∨ gran = 0 ∨ o.t.toNat + cnt > 64 ∨ gran > 4096 then .trap fBound 0
    else if home ∧ hoff + cnt * span > 4096 then .trap fBound 0
    else if !home ∧ hoff / 16 ≠ 0 then .trap fBound 0
    else if (rangeFrom first cnt).any fun a => (s.tileAt c a).valid then .trap fTilestate 0
    else
      let t0 := { Tile.reset with valid := true, size := gran, shd := shd, home := home }
      if home then
        .done ((List.range cnt).foldl (fun s i =>
          let a := 0x1000 * k + hoff + i * span
          s.putTile c (first + i) { t0 with addr := a, saddr := if shd then a + gran else 0 }) s)
      else
        match cellarFit ((s.core c).cellarTaken k) span cnt with
        | none => .trap fBound 0
        | some cells =>
          let x := 16 * k + hoff
          let ts := (List.range cnt).map fun i => (first + i, { t0 with cask := hoff, cell := nth 0 cells i })
          if !((s.core c).cask x).holds then
            .done (ts.foldl (fun s (a, t) => s.putTile c a { t with racked := true }) s)
          else
            match s.allocTiles c x ts [] with
            | (s, none) => .wait s .pool
            | (s, some ts) => .done (ts.foldl (fun s (a, t) => s.putTile c a t) s)

/-- The handle with the role that an advance needs, and its count. -/
def cbadv (o : CbadvOp) (role : Nat) (f : State → CbHandle → RingRec → Nat → Res) : State → Out :=
  instr o.pr 8 fun s =>
    let h := s.me.handle o.n.toNat
    if !h.valid then .trap fIllegal 0
    else if !(h.role.toNat == role || h.role == 3) then .trap fTilestate 0
    else f s h (s.ringRec h) (s.me.xr o.a + o.add.setWidth 64).toNat
def execCbadvP (o : CbadvOp) : State → Out :=
  cbadv o 1 fun s h r n =>
    let ts := (List.range (min n 128)).map fun i => r.tile (r.pptr + i)
    if n > r.free then .trap fBound 0
    else if ts.any fun a => !(s.tileAt h.rcore a).valid then .trap fTilestate 0
    else if ts.any fun a => let t := s.tileAt h.rcore a; t.st == .empty && !t.sfill then
      .trap fTilestate 0
    else if ts.all fun a => let t := s.tileAt h.rcore a; t.st == .ready && !t.sfill then
      .done (s.modCore h.rcore fun co => co.putRing h.ring { r with pptr := (r.pptr + n) % 128 })
    else .wait s .tile
def execCbadvC (o : CbadvOp) : State → Out :=
  cbadv o 2 fun s h r n =>
    let ts := (List.range (min n 128)).map fun i => r.tile (r.cptr + i)
    if n > r.filled then .trap fBound 0
    else if ts.any fun a => !(s.tileAt h.rcore a).valid || (s.tileAt h.rcore a).busy then .trap fTilestate 0
    else
      let s := ts.foldl (fun s a => s.freeTile h.rcore a) s
      .done (s.modCore h.rcore fun co => co.putRing h.ring { r with cptr := (r.cptr + n) % 128 })
def execCbqry (o : CbqryOp) : State → Out :=
  instr o.pr 8 fun s =>
    let h := s.me.handle o.n.toNat
    let r := s.ringRec h
    if !h.valid then .trap fIllegal 0
    else
      .done (s.setX o.d (BitVec.ofNat 64 (r.filled + r.free * 2 ^ 8 + r.depth * 2 ^ 16 + r.pptr * 2 ^ 24
        + r.cptr * 2 ^ 32 + r.ft * 2 ^ 40)))

/-! ### Casks (R222) -/

def State.setPin (s : State) (c k : Nat) (b : Bool) : State :=
  (((s.core c).caskTiles k).foldl (fun s (a, t) => s.putTile c a { t with pin := b }) s).modCask c k fun x =>
    { x with pin := b }
def execCkpin (o : TileA) : State → Out :=
  instr o.pr 8 fun s => (tileNamed s o.a o.t).then fun abs =>
    let c := s.cur.core
    let t := s.tileAt c abs
    let k := caskOf abs t
    if t.home then .done s
    else if ((s.core c).cask k).pipe then .trap fTilestate 0
    else
      match s.fetchCask c k with
      | (s, false) => .wait s .pool
      | (s, true) => .done (s.setPin c k true)
def execCkpinClr (o : TileA) : State → Out :=
  instr o.pr 8 fun s => (tileNamed s o.a o.t).then fun abs =>
    let c := s.cur.core
    let t := s.tileAt c abs
    let k := caskOf abs t
    if t.home then .done s
    else if ((s.core c).cask k).pipe then .trap fTilestate 0
    else .done (s.setPin c k false)
/-- Resident: not racked, nor still being fetched back (notes/assumptions/9.md). -/
def execCktkt (o : TileDA) : State → Out :=
  instr o.pr 8 fun s => (tileNamed s o.a o.t).then fun abs =>
    let c := s.cur.core
    let t := s.tileAt c abs
    let k := caskOf abs t
    let x := (s.core c).cask k
    .done (s.setX o.d (if t.home then 0 else
      BitVec.ofNat 64 (min 0xFFFFFFFF (s.caskTickets c k) + s.caskWeight c k * 2 ^ 32 + b2n (!x.racked) * 2 ^ 56
        + b2n x.pin * 2 ^ 57 + b2n ((s.core c).caskIdle k) * 2 ^ 58)))

end Sys2Proof.Machine
end

