-- ==== Sys2Proof/Machine/Vintage.lean ====
section
/-! DEFINITION. Capabilities at use (R25) and the vintage instructions (R402 to R408). -/

namespace Sys2Proof.Machine

/-! ### Capabilities -/

def capKind (c : Nat) : Nat := bitsN c 8 3
def capDev (c : Nat) : Nat := bitsN c 16 9
def capCore (c : Nat) : Nat := bitsN c 25 8
def capSlot (c : Nat) : Nat := bitsN c 33 3
def capObj (c : Nat) : Nat := bitsN c 36 12
/-- A valid entry: no reserved EKIND, no ECORE above 191, no reserved bit. -/
def capValid (c : Nat) : Bool :=
  bitN c 0 && decide (capKind c ≤ 4) && decide (capCore c ≤ 191) && bitsN c 6 2 == 0 && bitsN c 11 5 == 0
    && bitsN c 48 16 == 0 && bitsN c 96 32 == 0
/-- Permission bits: SEND 1, RECV 2, LEND 3, SEAL 4, PUBL 5. -/
def capGrants (c kind perm : Nat) : Bool := capValid c && capKind c == kind && bitN c perm
/-- The endpoint tile of a capability that grants `perm` on the own device (notes/assumptions/22.md). -/
def capTile (s : State) (r : Reg) (perm : Nat) : Chk (Nat × Nat) :=
  let c := s.me.cap r.toNat
  if !capGrants c 4 perm || capDev c != s.mgmt.dev then bad fCap
  else if capObj c ≥ 512 ∨ !(s.tileAt (capCore c) (capObj c)).valid then bad fTilestate
  else .ok (capCore c, capObj c)
/-- A valid tile of the own slot. -/
def ownTile (s : State) (t : BitVec 6) : Chk (Nat × Nat) :=
  let a := 64 * s.cur.slot + t.toNat
  if (s.tileAt s.cur.core a).valid then .ok (s.cur.core, a) else bad fTilestate

/-! ### `PUBV`, `SEAL` -/

def execPubv (o : DTile) : State → Out :=
  instr o.pr 8 fun s => (ownTile s o.t).then fun (c, a) =>
    let t := s.tileAt c a
    if !t.shd || (!t.sealed && !t.sfill) then .trap fTilestate 0
    else if s.shadowBusy c a then .wait s .tile
    else
      match s.publish s.myId c a false with
      | .fault => .trap fVintage 0
      | .refused s => .done (s.setX o.d (BitVec.ofNat 64 ((s.tileAt c a).vint + stSealed.toNat * 2 ^ 16)))
      | .published s => .done (s.setX o.d (BitVec.ofNat 64 (s.tileAt c a).vint))

/-- VINT and ALREADY. -/
def sealStatus (t : Tile) : Word := BitVec.ofNat 64 (t.vint + b2n t.sealed * 2 ^ 16)
/-- A racked cask stays racked (notes/assumptions/9.md). -/
def execSeal (o : DTile) : State → Out :=
  instr o.pr 8 fun s => (ownTile s o.t).then fun (c, a) =>
    let s := s.landSeal c a
    let t := s.tileAt c a
    if t.vint = 0 then .trap fTilestate 0 else .done ((s.sealTile c a).setX o.d (sealStatus t))
/-- A remote seal returns the final vintage and is on its way (R393; notes/assumptions/10.md). -/
def execSealR (o : DCap) : State → Out :=
  instr o.pr 8 fun s => (capTile s o.c 4).then fun (c, a) =>
    let t := s.tileAt c a
    if t.vint = 0 then .trap fTilestate 0
    else if t.sealed then .done (s.setX o.d (sealStatus t))
    else
      let al := (s.core c).sealsIn.any fun x => x.1 == a
      .done ((s.modCore c fun co => { co with sealsIn := if al then co.sealsIn else co.sealsIn ++ [(a, s.cycle)] }).setX o.d
        (sealStatus { t with sealed := al }))
/-- It takes effect at the tile. -/
def execRemoteSealArrival (o : TileRef) (s : State) : Out := .next (s.landNow o.core o.abs)

/-! ### Remote commands of other devices (R243, R248) -/

/-- An `XSEND` of another device: it waits for a tile that is not free, and a sealed tile takes nothing. -/
def State.peerSend (s : State) (c a : Nat) (shd : Bool) (data : List Byte) : State :=
  match s.nameTile c a with
  | (s, false) => s
  | (s, true) =>
    let t := s.tileAt c a
    if !t.valid || t.sealed || (shd && (!t.shd || t.vint == 65534)) || !s.mayWrite c a shd || decide (t.bytes < data.length) then s
    else
      let s := s.spWrite c (if shd then t.shadowAt else t.at) (data ++ List.replicate (t.bytes - data.length) 0)
      if shd then s.swapTile c a false else s.tileReady c a
def State.peerTile (s : State) : PeerTile → State
  | .send c a shd data => s.peerSend c a shd data
  | .take c a =>
    (match s.nameTile c a with
    | (s, false) => s
    | (s, true) =>
      if (s.tileAt c a).valid && s.readable c a then
        let (s, r) := s.takeRead c a
        s.modTile c a fun t => { t with peers := t.peers ++ [r.buf] }
      else s)
  | .leave c a =>
    match (s.tileAt c a).peers with
    | [] => s
    | b :: rest => s.modTile c a fun t => { t.dropReader b with peers := rest }

/-! ### `TASTE` -/

/-- What a taste entry's instruction does with tile (oc, a). Its checks are made, and the entry goes to WAIT, once; the wait
then ends when the input is acceptable and the owner core, which holds at most 256 registrations, can take one
(notes/assumptions/40.md). -/
def tasteAt (s : State) (d : Reg) (e : Nat) (fin : Bool) (m lc : Word) (oc a : Nat) : Res :=
  let c := s.cur.core
  let k := s.cur.slot
  let fresh := s.me.cs.waiting.isNone
  let full (s : State) : Bool := decide ((s.core oc).regs.length ≥ 256) && ((s.core oc).regOf c k e).isNone
  if fresh ∧ m.toNat > 65534 then .trap fBound 0
  else if fresh ∧ lc.toNat ≥ 128 then .trap fBound 0
  else if fresh ∧ full s then .trap fBound 0
  else
    let te : Taste :=
      { st := .wait, core := oc, abs := a, fin := fin, minv := m.toNat, lcValid := bitN lc.toNat 6,
        lc := bitsN lc.toNat 0 6, tv := 0 }
    let s :=
      if fresh then
        let old := s.me.te e
        let s := s.releaseTaste c k e
        (if old.lcValid then s.modTile c (64 * k + old.lc) fun t => { t with super := false } else s).modMe (·.setTe e te)
      else s
    let t := s.tileAt oc a
    let final := s.me.finalEff fin
    if (t.sealed || (!final && decide (max m.toNat 1 ≤ t.vint))) && !full s then
      let s := s.modCore oc fun co => { co with regs := ⟨a, c, k, e, t.vint⟩ :: co.regs }
      let s := s.modTile oc a fun t => { t with spent := false }
      let s := s.modMe (·.setTe e { te with st := .tasted, tv := t.vint })
      .done (s.setX d (BitVec.ofNat 64 (t.vint + b2n t.sealed * 2 ^ 16 + b2n final * 2 ^ 19
        + s.me.t.refcnt * 2 ^ 24)))
    else .wait s (if oc = c ∧ a / 64 = k then .taste e else .remoteTile oc a)
/-- The tile that a taste names, checked when it executes; a taste that waits keeps the one of its entry. -/
def tasteTile (s : State) (e : BitVec 3) (chk : Chk (Nat × Nat)) : Chk (Nat × Nat) :=
  if s.me.cs.waiting.isNone then chk else .ok ((s.me.te e.toNat).core, (s.me.te e.toNat).abs)
def execTaste (o : TasteOp) : State → Out :=
  instr o.pr 8 fun s => (tasteTile s o.e (ownTile s o.t)).then fun (c, a) =>
    tasteAt s o.d o.e.toNat o.fin (s.me.xr o.a) (s.me.xr o.b) c a
def execTasteR (o : TasteROp) : State → Out :=
  instr o.pr 8 fun s => (tasteTile s o.e (capTile s o.c 2)).then fun (c, a) =>
    tasteAt s o.d o.e.toNat o.fin (s.me.xr o.a) (s.me.xr o.b) c a

/-! ### `VNQ` (R406) -/

def vnqWord (s : State) (c a : Nat) : Word :=
  let t := s.tileAt c a
  BitVec.ofNat 64 (t.vint + b2n t.sealed * 2 ^ 16 + b2n t.spent * 2 ^ 17 + b2n t.super * 2 ^ 18
    + b2n t.racked * 2 ^ 19 + min 255 ((s.core c).regsOn a).length * 2 ^ 24)
def execVnq (o : DTile) : State → Out :=
  instr o.pr 8 fun s => (ownTile s o.t).then fun (c, a) => .done (s.setX o.d (vnqWord s c a))
def execVnqR (o : DCap) : State → Out :=
  instr o.pr 8 fun s => (capTile s o.c 2).then fun (c, a) => .done (s.setX o.d (vnqWord s c a))
def tasteStNo : TasteSt → Nat
  | .free => 0 | .wait => 1 | .tasted => 2 | .pending => 3
def execVnqE (o : VnqEOp) : State → Out :=
  instr o.pr 8 fun s =>
    let te := s.me.te o.e.toNat
    let t := s.me.t
    .done (s.setX o.d (BitVec.ofNat 64 ((if te.st = .tasted ∨ te.st = .pending then te.tv else 0)
      + tasteStNo te.st * 2 ^ 16 + b2n (s.me.finalEff te.fin) * 2 ^ 19 + t.refcnt * 2 ^ 24 + t.refire * 2 ^ 28)))

/-! ### Settle groups (R400, R407, R408) -/

def Part.settleAt (p : Part) (g : Nat) : Settle := Sparse.get Settle.reset p.settle g
def Part.setSettle (p : Part) (g : Nat) (x : Settle) : Part :=
  { p with settle := Sparse.set Settle.reset p.settle g x }
/-- The member words, duplicates once. -/
def settleMembers (ws : List Nat) : List TileRef :=
  (ws.map fun w => (⟨bitsN w 9 8, bitsN w 0 9⟩ : TileRef)).foldl (fun l r => if l.contains r then l else l ++ [r]) []
def execSetdef (o : SetdefOp) : State → Out :=
  instr o.pr 8 fun s =>
    let x := (s.me.xr o.a).toNat
    let d := (s.me.xr o.b).toNat
    let n := bitsN d 0 7
    let p := s.me.t.part
    let ws := (List.range n).map fun i => s.homeNat (x + 4 * i) 4
    if x % 4 ≠ 0 then .trap fAlign (s.me.xr o.a)
    else if d / 2 ^ 20 ≠ 0 ∨ n > 64 then .trap fBound 0
    else if x + 4 * n > 0x40000 then .trap fBound 0
    else if ws.any fun w => decide (w / 2 ^ 17 ≠ 0) || !(s.part p).coreMask.getLsbD (bitsN w 9 8) then .trap fBound 0
    else if n ≠ 0 ∧ s.homePoison x (4 * n) then .trap fPoison (s.me.xr o.a)
    else
      .done ((s.modPart p fun q => q.setSettle o.g.toNat
        { defined := n != 0, members := settleMembers ws, rel := n != 0 && bitN d 19,
          ridx := if n = 0 then 0 else bitsN d 7 12, latch := false }).setX o.d 0)

def execSetlw (o : SetlwOp) : State → Out :=
  instr o.pr 8 fun s =>
    let x := (s.part s.me.t.part).settleAt o.g.toNat
    let dl := (s.me.xr o.a).toNat
    if !x.defined && s.me.cs.waiting.isNone then .done (s.setX o.d 3)
    else if x.latch then .done (s.setX o.d 0)
    else if dl ≠ 0 ∧ dl ≤ s.now then .done (s.setX o.d 2)
    else .wait s (.settle o.g.toNat dl)
/-- The condition of R400. -/
def State.settled (s : State) (x : Settle) : Bool :=
  x.members.all fun r =>
    let t := s.tileAt r.core r.abs
    (!t.valid || t.sealed) && ((s.core r.core).regsOn r.abs).all fun g => !s.regBlocks r.core g

end Sys2Proof.Machine
end

