-- ==== Sys2Proof/Machine/System.lean ====
section
/-! DEFINITION. System instructions of the C stream and their V-stream forms (R199 to R205, R430, R435), the trap
entry as an event, and the waits that time ends (R205, R408). -/

namespace Sys2Proof.Machine

/-! ### Raises of commands -/

/-- raise(RSS) of a ring's command, with what its waiters come to know (R138, R364). -/
def State.raiseCmd (s : State) (r : StrmRef) (rss : Nat) : State :=
  let s := s.modSlot r.core r.slot (·.raiseSem rss)
  s.passRun r rss ((s.slotAt r.core r.slot).sem rss).done.toNat

/-! ### `TRAP` and `ERET` -/

/-- A `TRAP` without a handler to enter, or inside one, stops the task as `HALT` does (R200, R431). -/
def execTrap (o : TrapOp) : State → Out :=
  instr o.pr 8 fun s =>
    if s.me.tvec = 0 ∨ s.me.hm then .done (s.stopTask s.cur.core s.cur.slot 0 7 0)
    else .stay (s.trapEntry s.cur.core s.cur.slot 0 .c (s.nextPc 8) (zext16 o.imm))
/-- The codes that enter a handler: those of R432 but F_DEPUNDER and F_SKEW, and 0x00 for `TRAP`. -/
def trapCode (c : Code) : Bool := decide (c.toNat ≤ 0x10) && c != fDepunder && c != fSkew
/-- The event: a trap of a slot that holds a launched task (R428). A code of R12, a reserved one, or one that R432 never lets
trap enters nothing. -/
def execTrapEntry (o : TrapArgs) (s : State) : Out :=
  let sl := s.slotAt o.core o.slot
  if !sl.t.launched || !trapCode o.code || (o.code == 0 && o.strm != .c) then .next s
  else if o.code = 0 ∧ (sl.tvec = 0 ∨ sl.hm) then .next (s.stopTask o.core o.slot 0 7 0)
  else .next (s.trapEntry o.core o.slot o.code o.strm o.epc o.eva)

/-- A command skipped by the handler: its holds are given up, it raises, and the read pointer advances. -/
def State.discardHead (s : State) (c k : Nat) (r : RingId) : State :=
  let ring := (s.slotAt c k).ring r
  if ring.len = 0 then s
  else
    let s := s.abandonHead c k r
    (s.modSlot c k fun sl => sl.modRing r (·.pop)).raiseCmd ⟨c, k, strmOfRing r⟩ (cRss (ring.headBits r))

/-- The C stream leaves the handler for `pc` (R430). -/
def Slot.leaveHandler (sl : Slot) (pc : Word) : Slot :=
  let sl := sl.unhold
  { sl with
    barWait := sl.wbar
    wbar := none
    susp := []
    hm := false
    cs := { sl.cs with pc := pc, loops := (leaveLoops pc sl.susp).1, waiting := none, atStop := false } }
def State.eret (s : State) : State :=
  let c := s.cur.core
  let k := s.cur.slot
  let sl := s.me
  let pc := if bitsN sl.cause.toNat 8 3 = 0 then sl.epc else sl.cra
  let s := (s.loopExits c k .c sl.cs.loops).loopExits c k .c (leaveLoops pc sl.susp).2
  s.modMe fun sl => sl.leaveHandler pc
def execEret (pr : Pred) : State → Out :=
  instr pr 4 fun s =>
    let c := s.cur.core
    let k := s.cur.slot
    let sl := s.me
    if !sl.hm then .trap fIllegal 0
    else
      let n := bitsN sl.cause.toNat 8 3
      if n = 0 then .stay s.eret
      else if n = 1 then
        let gone := (leaveLoops sl.epc sl.vs.loops).2
        .stay (((s.loopExits c k .v gone).modMe fun sl => sl.modSs .v fun ss =>
          { ss with pc := sl.epc, loops := (leaveLoops sl.epc ss.loops).1, atStop := false }).eret)
      else
        let r := ringOf (strmOf n)
        let q := (sl.ring r).rp
        if sl.epc = q.setWidth 64 then .stay s.eret
        else if sl.epc = (q + 1).setWidth 64 then .stay ((s.discardHead c k r).eret)
        else .stay (s.stopTask c k fIllegal 0 0)

/-! ### System registers -/

/-- The bits of SYS_FLAGS and SYS_FEN that are not reserved (R47). -/
def flagBits : Word := 0x3F3F3F3F3F
def sysRead (s : State) (n : Nat) : Option Word :=
  let sl := s.me
  match n with
  | 0 => some sl.flags
  | 1 => some sl.fen
  | 2 => some ((s.core s.cur.core).seed.setWidth 64)
  | 3 => some sl.cause
  | 4 => some sl.epc
  | 5 => some sl.eva
  | 6 => some sl.tvec
  | 7 => some sl.scr
  | 8 => some sl.sysId
  | 9 => some (BitVec.ofNat 64 s.cycle)
  | 10 => some (BitVec.ofNat 64 s.now)
  | 11 => some sl.priv
  | _ => none
def Slot.sysWrite (sl : Slot) (n : Nat) (v : Word) : Option Slot :=
  match n with
  | 0 => some { sl with flags := v &&& flagBits }
  | 1 => some { sl with fen := v &&& flagBits }
  | 4 => some { sl with epc := v }
  | 6 => some { sl with tvec := v }
  | 7 => some { sl with scr := v }
  | _ => none
def execSysrd (o : SysrdOp) : State → Out :=
  instr o.pr 8 fun s =>
    match sysRead s o.num.toNat with
    | some v => .done (s.setX o.d v)
    | none => .trap fIllegal 0
def execSyswr (o : SyswrOp) : State → Out :=
  instr o.pr 8 fun s =>
    match s.me.sysWrite o.num.toNat (s.me.xr o.a) with
    | some sl => .done (s.putMe sl)
    | none => .trap fIllegal 0

/-! ### `TFENCE` and `FLAGS` -/

def tfence (mask : Word) (s : State) : Res :=
  if s.me.flags &&& s.me.fen &&& mask ≠ 0 then .trap fArith 0 else .done s
def execTfence (pr : Pred) : State → Out := instr pr 4 (tfence 0x3F3F3F003F)
def execTfenceV (_ : Pred) : State → Out := instrAlways 4 (tfence 0x3F00)

/-- The six flags of a stream, and the registers without them. -/
def Slot.takeFlags (sl : Slot) (st : Strm) : Nat × Slot :=
  let n := bitsN sl.flags.toNat (8 * strmNo st) 6
  (n, { sl with flags := sl.flags &&& ~~~((0x3F : Word) <<< (8 * strmNo st)) })
def execFlags (o : DOp) : State → Out :=
  instr o.pr 4 fun s =>
    let (n, sl) := s.me.takeFlags .c
    .done ((s.putMe sl).setX o.d (BitVec.ofNat 64 n))
/-- Bytes 0 to 7 of V[d]; the word written whole loses its poison. -/
def Slot.putVDouble (sl : Slot) (d n : Nat) : Slot :=
  { sl.setV d (VWord.put (sl.vr d) 0 8 n) with vpoison := clearPoison sl.vpoison 8 (4096 * d) 8 }
/-- Whatever the mask holds (notes/assumptions/48.md). -/
def execFlagsV (o : DOp) : State → Out :=
  instrAlways 4 fun s =>
    let (n, sl) := s.me.takeFlags .v
    .done (s.putMe (sl.putVDouble o.d.toNat n))

/-! ### `BRK`, `HALT`, `NOP`, `WAIT` -/

/-- A debugger's halt of every stream of a slot (R453). -/
def State.haltSlot (s : State) (c k reason : Nat) : State :=
  (s.modSlot c k fun sl => { sl with dbg := { sl.dbg with st := .halting, reason := reason } }).requestAll c k .halt
def execBrk (pr : Pred) : State → Out :=
  instr pr 4 fun s => .done (if s.me.dbg.brken then s.haltSlot s.cur.core s.cur.slot 2 else s)
def execHalt (pr : Pred) : State → Out :=
  instr pr 4 fun s => .done (s.stopTask s.cur.core s.cur.slot 0 7 0)
def execNop (pr : Pred) : State → Out := instr pr 4 .done

def execWait (o : WaitOp) : State → Out :=
  instr o.pr 8 fun s =>
    let target := s.me.xr o.a + zext16 o.imm
    if target.toNat < s.now ∧ s.me.cs.waiting ≠ some (.time target) then .done (s.setX o.d (stLate.setWidth 64))
    else if target.toNat ≤ s.now then .done (s.setX o.d 0)
    else .wait s (.time target)

/-! ### Waits that time ends -/

/-- The instruction at which a C stream waits executes again; not once a stop is requested (R426), nor in a freeze (R226). -/
def State.reissue (s : State) (o : SlotId) (f : Instr → Option (State → Out)) : Out :=
  if (s.slotAt o.core o.slot).cs.stopReq.isSome || (s.core o.core).frozen then .next s
  else
    match s.fetch o.core o.slot .c with
    | .error _ => .next s
    | .ok w =>
      match decodeC w with
      | .error _ => .next s
      | .ok (i, _) =>
        match f i with
        | none => .next s
        | some g => .next (s.completed o fun s => match g s with | .next t => t | _ => s)
def execWaitTargetReached (o : SlotId) (s : State) : Out :=
  match (s.slotAt o.core o.slot).cs.waiting with
  | some (.time t) =>
    if t.toNat ≤ s.now then
      s.reissue o fun i => match i with | .wait op => some (execWait op) | _ => none
    else .next s
  | _ => .next s
def execSetlwDeadline (o : SlotId) (s : State) : Out :=
  match (s.slotAt o.core o.slot).cs.waiting with
  | some (.settle _ dl) =>
    if dl ≠ 0 ∧ dl ≤ s.now then
      s.reissue o fun i => match i with | .setlw op => some (execSetlw op) | _ => none
    else .next s
  | _ => .next s

end Sys2Proof.Machine
end

