-- ==== Sys2Proof/Machine/HeadOps.lean ====
section
/-! DEFINITION. What the commands of the M, X and S rings share (R137, R138, R210, R213, R240, R250): operands
resolved and taken, units of work, stops at faults and stalls, completion. -/

namespace Sys2Proof.Machine

/-! ### The head of a ring -/

def State.ringAt (s : State) (c k : Nat) (r : RingId) : Ring := (s.slotAt c k).ring r
def State.headAt (s : State) (c k : Nat) (r : RingId) : HeadSt := (s.ringAt c k r).head
def State.modHead (s : State) (c k : Nat) (r : RingId) (f : HeadSt → HeadSt) : State :=
  s.modSlot c k fun sl => sl.modRing r fun q => { q with head := f q.head }
/-- The head command as CMD_START and CMD_END carry it (R459). -/
def State.cmdData (s : State) (c k : Nat) (r : RingId) : Nat :=
  let q := s.ringAt c k r
  q.rp.toNat + copOf (q.headBits r) * 2 ^ 9

/-- A fault of the head command (R73, R240, R428). A command that a seal cancels drains: its fault is not taken, and it ends
where it stands (R393, R496). -/
def State.headFault (s : State) (c k : Nat) (r : RingId) (code : Code) (eva : Word) : State :=
  let st := strmOfRing r
  let h := s.headAt c k r
  if h.sealCut && h.begun && !(s.slotAt c k).stopping st then s.modHead c k r fun h => { h with phase := .finished }
  else
  let s := if (s.headAt c k r).begun then s.trace c k 4 st code.toNat (s.cmdData c k r) else s
  s.trapEntry c k code st ((s.ringAt c k r).rp.setWidth 64) eva

/-- The command begins, or goes on. -/
def State.beginHead (s : State) (c k : Nat) (r : RingId) : State :=
  let s := if (s.headAt c k r).begun then s else s.trace c k 3 (strmOfRing r) 0 (s.cmdData c k r)
  (s.modHead c k r fun h => { h with phase := .active, begun := true }).modSlot c k fun sl =>
    sl.modTask fun t => { t with wrote := t.wrote || r != .s }

/-! ### Units of work -/

/-- What one unit of a command comes to: done; a fault with none of it done; a stall (R250); or work under way
elsewhere whose end the command awaits. -/
inductive UnitRes where
  | ok (s : State)
  | fault (code : Code) (eva : Word)
  /-- A fault after something that remains: what the counters counted of its access. -/
  | failed (s : State) (code : Code) (eva : Word)
  | stall (s : State) (w : WaitFor)
  | busy (s : State)

def Chk.unit {α : Type} (c : Chk α) (f : α → UnitRes) : UnitRes :=
  match c with
  | .ok a => f a
  | .error (code, eva) => .fault code eva

/-- A command: its units, those before which it may stop, what it does after the last one, and whether units
above a failing one may have been performed (R240). -/
structure Plan where
  n : Nat
  stop : Nat → Bool
  unit : State → Nat → UnitRes
  last : State → UnitRes
  loose : Bool

/-- Units from j on, until one does not complete, a stop point, or `n` are done. -/
def runUnits (unit : State → Nat → UnitRes) (stop : Nat → Bool) : Nat → State → Nat → Nat × UnitRes
  | 0, s, j => (j, .ok s)
  | n + 1, s, j =>
    match unit s j with
    | .ok s => if stop (j + 1) then (j + 1, .ok s) else runUnits unit stop n s (j + 1)
    | .fault c e => (j, .fault c e)
    | .failed s c e => (j, .failed s c e)
    | .stall s w => (j, .stall s w)
    | .busy s => (j, .busy s)
/-- The state before the unit that did not complete. -/
def runState (unit : State → Nat → UnitRes) : Nat → State → Nat → State
  | 0, s, _ => s
  | n + 1, s, j =>
    match unit s j with
    | .ok s => runState unit n s (j + 1)
    | .failed s _ _ => s
    | _ => s

/-- Units above a failing one that were performed: a free choice (notes/assumptions/5.md). -/
def looseUnits (p : Plan) (no j : Nat) (s : State) : State :=
  if !p.loose then s
  else ((rangeFrom (j + 1) (min (p.n - (j + 1)) 131072)).filter fun i => Config.burstPerformed no i).foldl (fun s i =>
    match p.unit s i with
    | .ok t => t
    | _ => s) s

/-- A stop is requested of a ring's stream and its head stands where the drain ends: it works no more (R426). -/
def Slot.headHalts (sl : Slot) (r : RingId) : Bool :=
  sl.stopping (strmOfRing r) && ((sl.ring r).head.phase != .active || sl.headAtStop r)
/-- The head of the current ring works: to its end, or to its next stop point (whole = false, or a stop is requested). -/
def headWork (r : RingId) (whole : Bool) (plan : State → HeadSt → Plan) (s : State) : State :=
  let c := s.cur.core
  let k := s.cur.slot
  let h := s.headAt c k r
  let whole := whole && !(s.slotAt c k).stopping (strmOfRing r)
  if !(s.slotAt c k).headRuns r || (s.ringAt c k r).len == 0 || (s.slotAt c k).headHalts r then s
  else
    let p := plan s h
    let s := s.beginHead c k r
    let (j, e) := runUnits p.unit (fun i => !whole && p.stop i) (p.n - h.prog) s h.prog
    let at' (s : State) : State := s.modHead c k r fun h => { h with prog := j }
    let fault (s : State) (code : Code) (eva : Word) : State := (at' s).headFault c k r code eva
    let stall (s : State) (w : WaitFor) : State :=
      ((at' s).modHead c k r fun h => { h with stalled := true, waitFor := some w }).endTenureOf c k (strmOfRing r)
    match e with
    | .ok s' =>
      if j < p.n then at' s'
      else
        (match p.last s' with
        | .ok s => (at' s).modHead c k r fun h => { h with phase := .finished }
        | .fault code eva => fault s' code eva
        | .failed s code eva => fault s code eva
        | .stall s w => stall s w
        | .busy s => at' s)
    | .fault code eva | .failed _ code eva => fault (looseUnits p s.seq j (runState p.unit (j - h.prog) s h.prog)) code eva
    | .stall s w => stall s w
    | .busy s => at' s

/-! ### Operands (R213, R236) -/

/-- An operand of a command: a tile operand, or the tile of a capability; read or written. -/
structure OpSpec where
  top : Option (BitVec 12)
  cap : Nat
  wr : Bool
def opTile (top : BitVec 12) (wr : Bool) : OpSpec := ⟨some top, 0, wr⟩
def opCap (c : Nat) (wr : Bool) : OpSpec := ⟨none, c, wr⟩

/-- Tiles of another module stand on cores beyond those of this one (notes/assumptions/12.md). -/
def peerCore (c : Nat) : Bool := decide (1024 ≤ c)
/-- An operand that can be resolved now; the wait of one that cannot. -/
def State.resolve (s : State) (c k : Nat) (o : OpSpec) : Except WaitFor (Nat × Nat) :=
  match o.top with
  | some top =>
    (match s.place c k top o.wr with
    | .tile c a => .ok (c, a)
    | .wait w => .error w)
  | none =>
    let e := (s.slotAt c k).cap o.cap
    .ok (if capDev e = s.mgmt.dev then capCore e else 1024 + 256 * capDev e + capCore e, capObj e)
/-- Operands with those resolved that can be. -/
def State.resolveOps (s : State) (c k : Nat) (specs : List OpSpec) (old : List (Option OpRef)) : List (Option OpRef) :=
  (List.range specs.length).map fun i =>
    match nth none old i with
    | some r => some r
    | none =>
      match specs[i]? with
      | none => none
      | some o =>
        match s.resolve c k o with
        | .ok (c, a) => some ⟨c, a, 0, false⟩
        | .error _ => none

/-- Handles of all operands (R239, orders 4 and 5). -/
def handleChk (sl : Slot) (specs : List OpSpec) : Chk Unit :=
  let rs := specs.map fun o =>
    match o.top with
    | some top => topCheck sl top o.wr
    | none => .ok ()
  if rs.any fun r => match r with | .error (c, _) => c == fIllegal | .ok _ => false then bad fIllegal
  else (rs.find? fun r => match r with | .error _ => true | .ok _ => false).getD (.ok ())

/-- A resolved operand's tile: valid, and shadowed where a shadow is written. The endpoint of a capability is not
looked at here: R239 checks it only where the capability is valid. -/
def State.opTilesOk (s : State) (shd : Bool) (specs : List OpSpec) (ops : List (Option OpRef)) : Bool :=
  (specs.zip ops).all fun (o, r) =>
    match r, o.top with
    | some r, some _ => let t := s.tileAt r.core r.abs; t.valid && !(o.wr && shd && !t.shd)
    | _, _ => true

/-- Takes one resolved operand when its tile allows it (R210, R211); none: it must wait. A tile of another module is ready
when that module says so; the number of the move stands for its buffer. -/
def State.takeOp (s : State) (c k : Nat) (r : RingId) (shd : Bool) (i : Nat) (o : OpSpec) (x : OpRef) : State × Bool :=
  let put (s : State) (buf : Nat) (f : HeadSt → HeadSt) : State :=
    s.modHead c k r fun h => f { h with ops := setNth h.ops i (some { x with buf := buf, taken := true }) }
  if peerCore x.core then (if Config.peerAnswer s.seq % 2 = 0 then (put s s.seq fun h => if o.wr then { h with dshd := shd } else h, true) else (s, false))
  else
  match s.nameTile x.core x.abs with
  | (s, false) => (s, false)
  | (s, true) =>
    let t := s.tileAt x.core x.abs
    if o.wr && shd then
      if s.mayWrite x.core x.abs true then
        let s := s.modTile x.core x.abs (·.takeWrite true true)
        (put s t.saddr fun h => { h with dst := some ⟨x.core, x.abs, t.saddr⟩, dshd := true }, true)
      else (s, false)
    else
      if o.wr then
        if t.writable false then
          let s := s.modTile x.core x.abs (·.takeWrite false true)
          (put s t.addr fun h => { h with dst := some ⟨x.core, x.abs, t.addr⟩, dshd := false }, true)
        else (s, false)
      else if s.readable x.core x.abs then
        let (s, ref) := s.takeRead x.core x.abs
        (put s t.addr fun h => { h with reads := h.reads ++ [ref] }, true)
      else (s, false)

/-- What an operand that is not taken waits for. -/
def opWait (s : State) (c k : Nat) (o : OpSpec) (x : Option OpRef) : WaitFor :=
  match x with
  | none => (match s.resolve c k o with | .error w => w | .ok _ => .tile)
  | some x => if peerCore x.core then .flow else if o.top.isNone then .remoteTile x.core x.abs else .tile

/-- Every operand that can be is taken; the wait of the first that is not. -/
def State.takeOps (s : State) (c k : Nat) (r : RingId) (shd : Bool) (specs : List OpSpec) : State × Option WaitFor :=
  (List.range specs.length).foldl (fun (s, w) i =>
    match specs[i]?, nth none (s.headAt c k r).ops i with
    | some o, some x =>
      if x.taken then (s, w)
      else
        let (s, ok) := s.takeOp c k r shd i o x
        (s, if ok then w else w.orElse fun _ => some (opWait s c k o (some x)))
    | some o, none => (s, w.orElse fun _ => some (opWait s c k o none))
    | none, _ => (s, w)) (s, none)

/-- A written operand's tile is sealed (R390). -/
def State.sealedDst (s : State) (specs : List OpSpec) (ops : List (Option OpRef)) : Bool :=
  (specs.zip ops).any fun (o, r) =>
    match r with
    | none => false
    | some r => o.wr && (if peerCore r.core then Config.peerAnswer s.seq % 8 == 5 else (s.tileAt r.core r.abs).sealed)

/-! ### Bytes of tiles -/

/-- Operand i of a head: its core and the byte address of its buffer. -/
def opAt (h : HeadSt) (i : Nat) : Nat × Nat :=
  match nth none h.ops i with
  | some r => (r.core, 64 * r.buf)
  | none => (0, 0)
/-- Bytes of its tile. -/
def State.opSize (s : State) (ops : List (Option OpRef)) (i : Nat) : Option Nat :=
  match nth none ops i with
  | none => none
  | some r =>
    if peerCore r.core then some (64 * (1 + Config.peerAnswer (512 * r.core + r.abs) % 4096))
    else some (s.tileAt r.core r.abs).bytes
/-- Writes to the destination buffer of a head; a sealed shadow discards them (R390). -/
def dstWrite (h : HeadSt) (s : State) (f : State → Nat → Nat → State) : State :=
  match h.dst with
  | none => s
  | some d => if h.dshd && (s.tileAt d.core d.abs).sealed then s else f s d.core (64 * d.buf)
/-- Bytes of the destination at and above `n` are written as zero (R241). -/
def zeroTail (h : HeadSt) (n : Nat) (s : State) : State :=
  dstWrite h s fun s c a =>
    match h.dst with
    | none => s
    | some d => s.spWrite c (a + n) (List.replicate ((s.tileAt d.core d.abs).bytes - n) 0)

/-! ### The end of a command (R138, R211, R389) -/

/-- The publication or READY of a head's destination: the state, the code for CMD_END and the vintage published; or
F_VINTAGE. A command that a seal ended completes with code 0 and publishes nothing (R390, R393, R459). -/
def State.endDst (s : State) (c k : Nat) (hold : Bool) (h : HeadSt) : Option (State × Nat × Nat) :=
  if h.sealCut then some (s, 0, 0)
  else
    match h.dst with
    | none =>
      if !hold && h.dshd then
        (match Config.peerAnswer s.seq % 3 with
        | 0 => some (s, 0, Config.peerAnswer s.seq / 3 % 65535)
        | 1 => some (s, stSealed.toNat, 0)
        | _ => none)
      else some (s, 0, 0)
    | some d =>
      if !h.dshd then some (s.tileReady d.core d.abs, 0, 0)
      else if hold then some (s, 0, 0)
      else
        match s.publish ⟨c, k⟩ d.core d.abs false with
        | .published s => some (s, 0, (s.tileAt d.core d.abs).vint)
        | .refused s => some (s, stSealed.toNat, 0)
        | .fault => none

/-- The head leaves the ring: readers go, RSS is raised, the tenure ends. A command that completes at once (R390) begins
and ends here. -/
def State.retireHead (s : State) (c k : Nat) (r : RingId) (code vint : Nat) : State :=
  let q := s.ringAt c k r
  let rss := cRss (q.headBits r)
  let s := if q.head.begun then s else s.trace c k 3 (strmOfRing r) 0 (s.cmdData c k r)
  let s := s.trace c k 4 (strmOfRing r) code (s.cmdData c k r + vint * 2 ^ 64)
  let s := s.dropReads q.head.reads
  ((s.modSlot c k fun sl => sl.modRing r (·.pop)).raiseCmd ⟨c, k, strmOfRing r⟩ rss).endTenureOf c k (strmOfRing r)

end Sys2Proof.Machine
end

