-- ==== Sys2Proof/Machine/Copy.lean ====
section
/-! DEFINITION. The copy engine (R232 to R252): descriptors, the checks of a command decided to run, its units of
work, memory shadows. -/

namespace Sys2Proof.Machine

/-! ### Copy descriptors (R232, R233) -/

def dBase (d : Nat) : Nat := bitsN d 0 52
def dSva (d : Nat) : Nat := bitsN d 64 52
def dElem (d : Nat) : Nat := 2 ^ bitsN d 128 4
def dNdim (d : Nat) : Nat := bitsN d 132 3
def dHptr (d : Nat) : Nat := bitsN d 192 64
def dBound (d k : Nat) : Nat := bitsN d (64 * k + 256) 32
def dStride (d k : Nat) : Int := sextN (bitsN d (64 * k + 288) 32) 32
/-- N. -/
def dCount (d : Nat) : Nat := (List.range (dNdim d)).foldl (fun a k => a * dBound d k) 1
/-- Reserved bits, ELOG, NDIM and unused dimension words (R239, order 3). -/
def descOk (d : Nat) : Bool :=
  bitsN d 52 12 == 0 && bitsN d 116 12 == 0 && bitsN d 135 57 == 0 && d / 2 ^ 640 == 0
    && decide (bitsN d 128 4 ≤ 12) && decide (1 ≤ dNdim d ∧ dNdim d ≤ 6)
    && (List.range 6).all fun k => decide (k < dNdim d) || bitsN d (64 * k + 256) 64 == 0

/-- The sum of the strides at element j: `k` dimensions of which remain. -/
def dOffset (d : Nat) : Nat → Nat → Nat → Int
  | _, 0, _ => 0
  | i, n + 1, j =>
    let b := max 1 (dBound d i)
    ((j % b : Nat) : Int) * dStride d i + dOffset d (i + 1) n (j / b)
/-- An element address: below 2^52, a multiple of min(E, 64) (R233). -/
def elemAddr (e : Nat) (a : Int) : Chk Nat :=
  let a := wrapN a 64
  if a ≥ 2 ^ 52 then badAt fPage a else if a % min e 64 ≠ 0 then badAt fAlign a else .ok a
/-- addr(j). -/
def dAddr (d j : Nat) : Chk Nat := elemAddr (dElem d) ((dBase d : Int) + dOffset d 0 (dNdim d) j)

/-! ### Memory (R226, R240, R242) -/

/-- The agent of a slot's running X command. -/
def xAgent (c k : Nat) : Agent := .run ⟨c, k, .x⟩
/-- Writes in pieces were made at addresses from `va` on. -/
def State.madeAll (s : State) : Nat → List (Nat × Nat) → State
  | _, [] => s
  | va, (pa, n) :: t => (s.madeAt va pa n).madeAll (va + n) t
/-- Pieces of an access of the current slot; SYS_EVA is the element's address. -/
def State.xPieces (s : State) (a : Acc) (va len eva : Nat) : Chk (List (Nat × Nat)) :=
  let (f, p) := s.ctx s.cur.core s.cur.slot
  match s.pieces (some s.cur.core) f p a va len with
  | .error (e, _) => badAt e eva
  | .ok ps =>
    if a != .rd && ps.any (fun (pa, n) => !isHost pa && (s.part p).inPool pa n) then badAt fPerm eva else .ok ps

/-- A unit's access to device memory for the current slot, counted by the TLBs' counters whether it translates or not (R462). -/
def State.xMem (s : State) (a : Acc) (va len eva : Nat) (f : State → List (Nat × Nat) → UnitRes) : UnitRes :=
  let t := s.misses s.cur.core s.cur.slot a va len
  match s.xPieces a va len eva with
  | .error (code, eva) => .failed t code eva
  | .ok ps => f t ps

/-- Copies physical pieces into tile bytes, with the poison of their granules. -/
def State.physToTile (s : State) (c : Nat) : List (Nat × Nat) → Nat → State
  | [], _ => s
  | (pa, n) :: t, a =>
    let bad := s.memPoison.filter fun g => !isHost pa && decide (64 * g < pa + n ∧ pa < 64 * (g + 1))
    let s := s.spWrite c a (s.mem.read pa n)
    let s := bad.foldl (fun s g =>
      let lo := max (64 * g) pa
      s.spPoison c (a + (lo - pa)) (min (64 * (g + 1)) (pa + n) - lo)) s
    s.physToTile c t (a + n)
/-- Copies tile bytes into physical pieces; a granule that receives a poisoned word is poisoned. -/
def State.tileToPhys (s : State) (c : Nat) : List (Nat × Nat) → Nat → State
  | [], _ => s
  | (pa, n) :: t, a =>
    let bad := if isHost pa then [] else
      (rangeFrom (pa / 64) ((pa + n - 1) / 64 + 1 - pa / 64)).filter fun g =>
        let lo := max (64 * g) pa
        s.spPoisoned c (a + (lo - pa)) (min (64 * (g + 1)) (pa + n) - lo)
    let s := s.pwrite (some (xAgent s.cur.core s.cur.slot)) pa (s.spRead c a n)
    let s := { s with memPoison := bad.foldl (fun l g => addKey g l) s.memPoison }
    s.tileToPhys c t (a + n)

/-- Where a write to element address a goes: to the memory shadow with SHD (R251). -/
def shadowVa (d : Nat) (shd : Bool) (a : Nat) : Nat := if shd then wrapN ((dSva d : Int) + a - dBase d) 64 else a

/-! ### Memory shadows (R251) -/

/-- The least and the greatest element address. -/
def dSpan (d : Nat) : Int × Int :=
  (List.range (dNdim d)).foldl (fun (lo, hi) k =>
    let x := ((dBound d k : Int) - 1) * dStride d k
    (lo + min x 0, hi + max x 0)) ((dBase d : Int), (dBase d : Int))
/-- The extent in bytes. -/
def dExtent (d : Nat) : Nat :=
  if dCount d = 0 then 0 else ceilDiv ((dSpan d).2 + dElem d - dBase d).toNat 0x10000 * 0x10000
/-- The leaf entry of a page for the exchange: a level-3 leaf with RD and WR. -/
def State.leafOf (s : State) (va : Nat) : Chk (Nat × Nat) :=
  let (f, p) := s.ctx s.cur.core s.cur.slot
  if va ≥ 2 ^ 52 then badAt fPage va
  else
    match s.walk f p va false levels (s.fn f).ptroot.toNat with
    | .error c => badAt c va
    | .ok l =>
      if l.lg ≠ 16 ∨ !accOkPte .rw l.pte then badAt fPage va
      else if !(s.part p).paOk (pteBase l.pte) then badAt fPerm va
      else if l.bad then badAt fPoison va
      else .ok (l.pte, l.ea)
def pagesOf (a n : Nat) : List Nat := (List.range (n / 0x10000)).map fun i => a + 0x10000 * i
/-- What R251 requires. -/
def State.shadowChk (s : State) (d : Nat) : Chk Unit :=
  let b := dBase d
  let v := dSva d
  let x := dExtent d
  if b % 0x10000 ≠ 0 ∨ v % 0x10000 ≠ 0 then bad fAlign
  else if dCount d ≠ 0 ∧ (dSpan d).1 < b then bad fBound
  else if x ≠ 0 ∧ v < b + x ∧ b < v + x then bad fBound
  else
    ((pagesOf b x ++ pagesOf v x).map s.leafOf).foldl (fun (acc : Chk Unit) r =>
      match acc, r with
      | .error e, _ => .error e
      | .ok _, .error e => .error e
      | .ok _, .ok _ => .ok ()) (.ok ())
/-- What the host reads of a byte, and the writes it has not seen. -/
def State.hostSees (s : State) (a : Nat) : Hidden :=
  match s.hidden.lookup a with
  | some x => x
  | none => ⟨s.mem.byte a, []⟩
/-- A publication by `w` gives the bytes from p2 the place in coherence order of those from p1 (R380): the host goes on
reading there what it read of p1, until a `PUBH` releases the publication (R381). -/
def State.publishBytes (s : State) (w : Agent) (va p1 p2 : Nat) (h : Sparse Hidden) : Sparse Hidden :=
  let near (p : Nat) (l : List Nat) : List Nat := (l.filter fun a => decide (p ≤ a ∧ a < p + 0x10000)).map (· - p)
  let cells := s.mem.map (·.1)
  let hid := s.hidden.map (·.1)
  let merge (x y : List Nat) : List Nat := mergeSorted (x.length + y.length) x y
  (merge (merge (near p1 cells) (near p2 cells)) (merge (near p1 hid) (near p2 hid))).foldl (fun h i =>
    let x := s.hostSees (p1 + i)
    let v := s.mem.byte (p2 + i)
    if x.writes.isEmpty && x.old == v then h
    else h.put (p2 + i) { x with writes := x.writes ++
      [{ val := v, slot := w.slot, part := (s.slotAt w.slot.core w.slot.slot).t.part, va := some (va + i), free := false,
         known := [w] }] }) h
/-- The exchange of the PA fields of each page pair by agent `w`, in one step; no TLB keeps a translation of either range, and
the monitors on both ranges wake; what either range holds comes from the publication and from no release before it (R251, R365,
R380, R383). -/
def State.exchange (s : State) (w : Agent) (d : Nat) : Chk State :=
  let x := dExtent d
  let (f, _) := s.ctx s.cur.core s.cur.slot
  match s.shadowChk d with
  | .error e => .error e
  | .ok _ =>
    let swap (s : State) (i : Nat) : State :=
      match s.leafOf (dBase d + i), s.leafOf (dSva d + i) with
      | .ok (e1, a1), .ok (e2, a2) =>
        let p1 := pteBase e1
        let p2 := pteBase e2
        let out := s.hidden.filter fun (a, _) => !decide (p1 ≤ a ∧ a < p1 + 0x10000 ∨ p2 ≤ a ∧ a < p2 + 0x10000)
        let h := s.publishBytes w (dSva d + i) p2 p1 (s.publishBytes w (dBase d + i) p1 p2 out)
        let s := (s.wake p1 0x10000).wake p2 0x10000
        let s := { s with places := s.places.map fun (x : RelPlace) => (x.overwrite p1 0x10000).overwrite p2 0x10000 }
        ({ s with hidden := if isHost p1 || isHost p2 then s.hidden else h }.pwrite none a1
          (natLe 8 (setBitsN e1 8 44 (bitsN e2 8 44)))).pwrite none a2 (natLe 8 (setBitsN e2 8 44 (bitsN e1 8 44)))
      | _, _ => s
    let s := (pagesOf 0 x).foldl swap s
    let hit (b : Nat) (e : TlbEntry) : Bool := decide (e.va < b + x ∧ b < e.va + 2 ^ e.lg)
    .ok { s with tlb := s.tlb.filter fun e => !(e.fn == f && (hit (dBase d) e || hit (dSva d) e)) }

/-! ### Commands by COP and XFN -/

inductive XKind where
  | cpyL | cpyS | cpyT | cpyR | fil | filM | gth | sct | mqM | mqT | rack | fetch | pub | pubM | send | host
  deriving DecidableEq, Repr

def xKind (w : BitVec 128) : Option XKind :=
  match copOf w, (ext w 60 3).toNat with
  | 1, 0 => some .cpyL | 1, 1 => some .cpyS | 1, 2 => some .cpyT | 1, 3 => some .cpyR
  | 2, 0 => some .fil | 2, 1 => some .filM | 3, 0 => some .gth | 4, 0 => some .sct
  | 5, 0 => some .mqM | 5, 1 => some .mqT | 6, 0 => some .rack | 7, 0 => some .fetch
  | 8, 0 => some .pub | 8, 1 => some .pubM | 9, 0 => some .send | 10, 0 => some .host
  | _, _ => none

/-- The tile operands of a command (R238). -/
def xOps (q : XKind) (c : XCmd) : List OpSpec :=
  let cap := c.opnd.toNat % 32
  let idx := opTile (c.opnd.setWidth 12) false
  match q with
  | .cpyL => [opTile c.dt true]
  | .cpyS => [opTile c.st false]
  | .cpyT => [opTile c.dt true, opTile c.st false]
  | .cpyR => [opTile c.dt true, opCap cap false]
  | .fil => [opTile c.dt true]
  | .gth => [opTile c.dt true, idx]
  | .sct => [opTile c.st false, idx]
  | .mqT => [opTile c.st false]
  | .send => [opCap cap true, opTile c.st false]
  | .host => [opTile c.st false]
  | _ => []
def xUsesDesc : XKind → Bool
  | .cpyL | .cpyS | .filM | .gth | .sct | .mqM | .pubM | .host => true
  | _ => false
/-- The tile that `XRACK`, `XFETCH` and `XPUB` name. -/
def xOwn (k : Nat) (c : XCmd) : Nat := 64 * k + c.dt.toNat % 64
def xMetaCount (c : XCmd) : Nat := c.opnd.toNat / 2 ^ 16
def xHostCount (c : XCmd) : Nat := c.opnd.toNat % 2 ^ 16

/-- Bytes moved on the tile side. -/
def xBytes (s : State) (q : XKind) (c : XCmd) (d : Nat) (ops : List (Option OpRef)) : Nat :=
  match q with
  | .cpyL | .cpyS => dCount d * dElem d
  | .gth | .sct => dBound d 0 * dElem d
  | .cpyT | .cpyR | .send => (s.opSize ops 1).getD 0
  | .fil => (s.opSize ops 0).getD 0
  | .mqT => 2 * xMetaCount c
  | .host => xHostCount c * dElem d
  | _ => 0

/-- The size limits of the tiles known (R241, R245). -/
def xSizesOk (s : State) (q : XKind) (c : XCmd) (d : Nat) (ops : List (Option OpRef)) : Bool :=
  let fits (i n : Nat) : Bool := match s.opSize ops i with | some z => decide (n ≤ z) | none => true
  match q with
  | .cpyT | .cpyR | .send => (s.opSize ops 1).isNone || fits 0 (xBytes s q c d ops)
  | .gth | .sct => fits 0 (xBytes s q c d ops) && fits 1 (4 * dBound d 0)
  | _ => fits 0 (xBytes s q c d ops)
/-- The shape and count limits of the command's entry. -/
def xShapeOk (q : XKind) (c : XCmd) (d : Nat) : Bool :=
  match q with
  | .filM => decide (4 ≤ dElem d)
  | .gth | .sct => dNdim d == 2 && dStride d 0 == 0
  | .mqM => dElem d == 2
  | .mqT => xMetaCount c != 0
  | .host => dNdim d == 1 && dBound d 0 != 0 && dStride d 0 == 0 && xHostCount c != 0
  | _ => true

/-- The capability of `XCPY.R` and `XSEND`: R239, orders 5 and 6; publishing a remote tile needs PUBL (R25;
an EOBJ above 511: notes/assumptions/22.md). -/
def xCapChk (s : State) (q : XKind) (shd : Bool) (c : XCmd) : Chk Unit :=
  let send := q == .send
  if q != .cpyR && !send then .ok ()
  else
    let e := s.me.cap (c.opnd.toNat % 32)
    let valid := capValid e && capKind e == 4 && decide (capObj e < 512)
    let own := capDev e == s.mgmt.dev
    let t := s.tileAt (capCore e) (capObj e)
    if valid && (if own then !t.valid || (send && shd && !t.shd) else Config.peerAnswer s.seq % 4 == 3) then bad fTilestate
    else failIf (!(valid && bitN e (if send then 1 else 2) && !(send && (capAllow e == 0 || (shd && !bitN e 5))))) fCap

/-- The checks of R239 on what is resolved, for an X command of the current slot: the descriptor that it reads, or that
its head `h` has read. -/
def xCheck (s : State) (q : XKind) (c : XCmd) (h : HeadSt) (ops : List (Option OpRef)) : Chk (BitVec 1024) :=
  let k := s.cur.slot
  let co := s.core s.cur.core
  let at' := homeBase k + 64 * c.desc.toNat
  let fresh := xUsesDesc q && h.ops.isEmpty
  let d := if fresh then co.scratch.nat at' 128 else h.desc.toNat
  let specs := xOps q c
  let own := q == .rack || q == .fetch || q == .pub
  let t := s.tileAt s.cur.core (xOwn k c)
  if fresh && c.desc.getLsbD 0 then bad fAlign
  else if fresh && co.spoisoned at' 128 then bad fPoison
  else if fresh && !descOk d then bad fIllegal
  else
    match handleChk s.me specs with
    | .error e => .error e
    | .ok _ =>
      if !s.opTilesOk c.h.shd specs ops || (own && !t.valid) then bad fTilestate
      else if q == .rack && !t.home && (co.cask (caskOf (xOwn k c) t)).pin then bad fTilestate
      else if q == .pub && (!t.shd || (!t.sfill && !t.sealed)) then bad fTilestate
      else if q == .cpyT && (match nth none ops 0, nth none ops 1 with
          | some x, some y => x.core == y.core && x.abs == y.abs
          | _, _ => false) then bad fTilestate
      else
        match xCapChk s q c.h.shd c with
        | .error e => .error e
        | .ok _ =>
          if !xShapeOk q c d || !xSizesOk s q c d ops then bad fBound
          else if q == .pubM || ((q == .cpyS || q == .filM) && c.h.shd) then
            (match s.shadowChk d with
            | .error e => .error e
            | .ok _ => .ok (BitVec.ofNat 1024 d))
          else .ok (BitVec.ofNat 1024 d)

/-! ### Units of work -/

/-- Bursts of 2 KiB that an element of E bytes takes: each is a unit, so that stops lie where tile-side offsets cross 2 KiB
(R240). -/
def elemUnits (e : Nat) : Nat := max 1 (e / 2048)
def burstStop (e i : Nat) : Bool := i % max 1 (2048 / max 1 e) == 0
/-- Moves unit i of the elements of E bytes, at address a of its element, between memory and tile bytes. -/
def xRead (s : State) (h : HeadSt) (e a i : Nat) : UnitRes :=
  let n := min e 2048
  s.xMem .rd (a + i % elemUnits e * n) n a fun s ps => .ok (dstWrite h s fun s c t => s.physToTile c ps (t + i * n))
def xWrite (s : State) (h : HeadSt) (d : Nat) (shd : Bool) (e a i : Nat) : UnitRes :=
  let n := min e 2048
  let va := shadowVa d shd a + i % elemUnits e * n
  s.xMem .wr va n a fun s ps =>
    let (c, t) := opAt h 0
    .ok ((s.tileToPhys c ps (t + i * n)).madeAll va ps)
/-- The address that index j of the index tile names (R245). -/
def idxAddr (s : State) (h : HeadSt) (d j : Nat) : Chk Nat :=
  let (c, t) := opAt h 1
  let x := leNat (s.spRead c (t + 4 * j) 4)
  if s.spPoisoned c (t + 4 * j) 4 then bad fPoison
  else if x ≥ dBound d 1 then bad fBound
  else elemAddr (dElem d) ((dBase d : Int) + x * dStride d 1)
/-- A tile-to-tile burst. -/
def burstCopy (h : HeadSt) (n : Nat) (s : State) (j : Nat) : State :=
  let src := opAt h 1
  let m := min 2048 (n - 2048 * j)
  dstWrite h s fun s c a =>
    if peerCore src.1 then s.spWrite c (a + 2048 * j) ((rangeFrom (2048 * j) m).map (Config.peerByte (src.2 / 64)))
    else s.spCopy src.1 (src.2 + 2048 * j) c (a + 2048 * j) m
/-- The 32-bit pattern over n bytes (R244). -/
def pattern (v : BitVec 32) (n : Nat) : List Byte := ((List.replicate (n / 4) (natLe 4 v.toNat))).flatten
def Slot.mqOf (sl : Slot) (q : Nat) : List (BitVec 16) := Sparse.get [] sl.mq q
def popCount16 (x : Nat) : Nat := ((List.range 16).filter (bitN x)).length
/-- An entry enters MQ[q] (R246). -/
def metaPush (s : State) (q x : Nat) : UnitRes :=
  if (s.me.mqOf q).length ≥ 64 then .stall s .queue
  else if popCount16 x > 8 then .fault fBound 0
  else .ok (s.modMe fun sl => { sl with mq := Sparse.set [] sl.mq q (sl.mqOf q ++ [BitVec.ofNat 16 x]) })

/-- load64(SVA) of `XHOST` (R249). -/
def hostCount (s : State) (d : Nat) (f : State → Nat → UnitRes) : UnitRes :=
  let va := dSva d
  if va % 8 ≠ 0 then .fault fAlign (BitVec.ofNat 64 va)
  else
    s.xMem .rd va 8 va fun s ps =>
      if s.ppoison ps then .failed s fPoison (BitVec.ofNat 64 va) else f s (leNat (s.preads ps))
/-- One record of `XHOST`. -/
def hostUnit (d : Nat) (s : State) (i : Nat) : UnitRes :=
  let h := s.headAt s.cur.core s.cur.slot .x
  let hp := (dHptr d + i / elemUnits (dElem d)) % 2 ^ 64
  let full (c : Nat) : Bool := decide (dBound d 0 ≤ (hp + 2 ^ 64 - c) % 2 ^ 64)
  let keep (c : Nat) (s : State) : State := s.modHead s.cur.core s.cur.slot .x fun h => { h with hostC := some c }
  let load (s : State) (f : State → Nat → UnitRes) : UnitRes :=
    match h.hostC with | some c => f s c | none => hostCount s d f
  let again (s : State) (c : Nat) (f : State → Nat → UnitRes) : UnitRes := if full c then hostCount s d f else f s c
  load s fun s c => again s c fun s c =>
    if full c then .stall (keep c s) .queue
    else
      (elemAddr (dElem d) ((dBase d : Int) + (hp % dBound d 0 * dElem d : Nat))).unit fun a =>
        xWrite (keep c s) h d false (dElem d) a i

/-- Units of the X head's progress in one element, burst, entry or record of R240. -/
def xUnit (sl : Slot) : Nat :=
  match xKind (sl.xring.headBits .x) with
  | some .cpyL | some .cpyS | some .filM | some .gth | some .sct | some .host => elemUnits (dElem sl.xring.head.desc.toNat)
  | some .rack | some .fetch => 2
  | _ => 1
/-- The progress index of the X head (R240). -/
def xProgress (sl : Slot) : Nat := if sl.xring.len = 0 then 0 else sl.xring.head.prog / xUnit sl

/-- `XRACK` (R247) in two units: the racking of its cask begins; its copy is finished. -/
def rackUnit (a : Nat) (s : State) (j : Nat) : UnitRes :=
  let c := s.cur.core
  let t := s.tileAt c a
  let k := caskOf a t
  let x := (s.core c).cask k
  if t.home then .ok s
  else if j = 1 then (if x.copy == .racking then .busy s else .ok s)
  else if x.copy == .racking || (x.racked && x.copy == .none) then .ok s
  else if x.pin then .fault fTilestate 0
  else if x.racked || !(s.core c).caskIdle k then .stall s .pool
  else .ok (s.startRack c k)
/-- `XFETCH` in two units: the fetch-back begins, once a racking is over; the cask is resident. -/
def fetchUnit (a : Nat) (s : State) (j : Nat) : UnitRes :=
  let c := s.cur.core
  let t := s.tileAt c a
  let k := caskOf a t
  let x := (s.core c).cask k
  if t.home || !x.racked then .ok s
  else if j = 1 then (if x.copy == .fetching then .busy s else .ok s)
  else
    match x.copy with
    | .fetching => .ok s
    | .racking => .busy s
    | .none => let s := (s.fetchCask c k).1; if ((s.core c).cask k).copy == .none then .stall s .pool else .ok s

/-- The plan of an X command with the operands its head holds. -/
def xPlan (q : XKind) (c : XCmd) (s : State) (h : HeadSt) : Plan :=
  let d := h.desc.toNat
  let e := dElem d
  let tb := xBytes s q c d h.ops
  let done (s : State) : UnitRes := .ok s
  let elems (n : Nat) (unit : State → Nat → Nat → UnitRes) (last : State → UnitRes) : Plan :=
    let m := elemUnits e
    ⟨n * m, burstStop e, fun s i => unit s i (i / m), last, true⟩
  let bursts (unit : State → Nat → UnitRes) (last : State → UnitRes) : Plan :=
    ⟨ceilDiv tb 2048, fun _ => true, unit, last, false⟩
  let tail (s : State) : UnitRes := .ok (zeroTail h tb s)
  match q with
  | .cpyL => elems (dCount d) (fun s i j => (dAddr d j).unit fun a => xRead s h e a i) tail
  | .cpyS => elems (dCount d) (fun s i j => (dAddr d j).unit fun a => xWrite s h d c.h.shd e a i) done
  | .cpyT => bursts (fun s j => .ok (burstCopy h tb s j)) tail
  | .cpyR => bursts (fun s j => .ok (burstCopy h tb s j)) tail
  | .fil => bursts (fun s j => .ok (dstWrite h s fun s cc a =>
      s.spWrite cc (a + 2048 * j) (pattern c.opnd (min 2048 (tb - 2048 * j))))) done
  | .filM => elems (dCount d) (fun s i j => (dAddr d j).unit fun a =>
      let n := min e 2048
      let va := shadowVa d c.h.shd a + i % elemUnits e * n
      s.xMem .wr va n a fun s ps =>
        .ok ((s.pwrites (some (xAgent s.cur.core s.cur.slot)) ps (pattern c.opnd n)).madeAll va ps)) done
  | .gth => elems (dBound d 0) (fun s i j => (idxAddr s h d j).unit fun a => xRead s h e a i) tail
  | .sct => elems (dBound d 0) (fun s i j => (idxAddr s h d j).unit fun a => xWrite s h d false e a i) done
  | .mqM => ⟨dCount d, burstStop 2, fun s j => (dAddr d j).unit fun a =>
      if (s.me.mqOf (c.opnd.toNat % 4)).length ≥ 64 then .stall s .queue
      else
        s.xMem .rd a 2 a fun s ps =>
          if s.ppoison ps then .fault fPoison (BitVec.ofNat 64 a)
          else metaPush s (c.opnd.toNat % 4) (leNat (s.preads ps)), done, false⟩
  | .mqT => ⟨xMetaCount c, burstStop 2, fun s j =>
      let (cc, t) := opAt h 0
      if (s.me.mqOf (c.opnd.toNat % 4)).length ≥ 64 then .stall s .queue
      else if s.spPoisoned cc (t + 2 * j) 2 then .fault fPoison 0
      else metaPush s (c.opnd.toNat % 4) (leNat (s.spRead cc (t + 2 * j) 2)), done, false⟩
  | .rack => ⟨2, fun _ => true, fun s j => rackUnit (xOwn s.cur.slot c) s j, done, false⟩
  | .fetch => ⟨2, fun _ => true, fun s j => fetchUnit (xOwn s.cur.slot c) s j, done, false⟩
  | .pub => ⟨0, fun _ => true, fun s _ => .ok s, done, false⟩
  | .pubM => ⟨0, fun _ => true, fun s _ => .ok s, done, false⟩
  | .send => bursts (fun s j => .ok (burstCopy h tb s j)) fun s =>
      .ok ((zeroTail h tb s).modMe fun sl => sl.useAllow (c.opnd.toNat % 32))
  | .host => ⟨xHostCount c * elemUnits e, burstStop e, hostUnit d, fun s =>
      .ok (s.homeWrite (64 * c.desc.toNat + 24) (natLe 8 ((dHptr d + xHostCount c) % 2 ^ 64))), false⟩

def xRun (q : XKind) (c : XCmd) (s : State) : Out := .next (headWork .x true (xPlan q c) s)
def execXcpyL (c : XCmd) (s : State) : Out := xRun .cpyL c s
def execXcpyS (c : XCmd) (s : State) : Out := xRun .cpyS c s
def execXcpyT (c : XCmd) (s : State) : Out := xRun .cpyT c s
def execXcpyR (c : XCmd) (s : State) : Out := xRun .cpyR c s
def execXfil (c : XCmd) (s : State) : Out := xRun .fil c s
def execXfilM (c : XCmd) (s : State) : Out := xRun .filM c s
def execXgth (c : XCmd) (s : State) : Out := xRun .gth c s
def execXsct (c : XCmd) (s : State) : Out := xRun .sct c s
def execXmeta (c : XCmd) (s : State) : Out := xRun .mqM c s
def execXmetaT (c : XCmd) (s : State) : Out := xRun .mqT c s
def execXrack (c : XCmd) (s : State) : Out := xRun .rack c s
def execXfetch (c : XCmd) (s : State) : Out := xRun .fetch c s
def execXpub (c : XCmd) (s : State) : Out := xRun .pub c s
def execXpubM (c : XCmd) (s : State) : Out := xRun .pubM c s
def execXsend (c : XCmd) (s : State) : Out := xRun .send c s
def execXhost (c : XCmd) (s : State) : Out := xRun .host c s

/-- `CPE_BURST_COMPLETE`: the CPE's holder works to its next burst boundary. -/
def execCpeBurstComplete (o : SlotId) (s : State) : Out :=
  let r := s.ringAt o.core o.slot .x
  match xKind (r.headBits .x) with
  | some q =>
    if (s.core o.core).cpe.holder = some o.slot ∧ !(s.core o.core).frozen then
      .next (s.withCur ⟨o.core, o.slot, .x⟩ fun s => headWork .x false (xPlan q (xOf (r.headBits .x))) s)
    else .next s
  | none => .next s

end Sys2Proof.Machine
end

