-- ==== Sys2Proof/Machine/Qe.lean ====
section
/-! DEFINITION. The queue engine over launch records: the journal (R111 to R114), arms, decrements, completions
(R26 to R36, R87, R88, R102 to R105), launch queues and packets (R90 to R101), settlement (R400, R401), and `LARM`,
`LPATCH`, `LQRY` (R106 to R110). -/

namespace Sys2Proof.Machine

/-! ### The journal -/

structure JEntry where
  kind : Nat
  pseq : Nat
  code : Nat
  queue : Nat
  idx : Nat
  tag : Nat
  gen : Nat

def jArmed (pseq queue idx tag gen : Nat) : JEntry := ⟨4, pseq, 0, queue, idx, tag, gen⟩

/-- Writes a journal entry (R111, R112, R495); RETIRE, FAULT, PARTIAL and DEPUNDER are causes of vector 1. -/
def State.journal (s : State) (f : Nat) (e : JEntry) : State :=
  let fn := s.fn f
  if !fn.jen then s
  else
    let v := fn.eseq % 2 ^ 64 + e.pseq % 2 ^ 64 * 2 ^ 64 + e.kind * 2 ^ 128 + e.code * 2 ^ 136 + e.queue * 2 ^ 144
      + e.idx * 2 ^ 147 + e.tag % 2 ^ 32 * 2 ^ 160 + e.gen % 2 ^ 32 * 2 ^ 192 + s.now % 2 ^ 32 * 2 ^ 224
    let s := s.ringWrite f (fn.jbase.toNat + 32 * (fn.eseq % 2 ^ fn.jlsz)) (natLe 32 v)
    let s := s.modFn f fun fn => { fn with eseq := fn.eseq + 1 }
    if 6 ≤ e.kind then s.cause f 1 else s

/-! ### Records -/

def Part.lrec (p : Part) (i : Nat) : Record := Sparse.get Record.reset p.recs i
def State.lrec (s : State) (p i : Nat) : Record := (s.part p).lrec i
def recStNo : RecState → Nat
  | .idle => 0 | .armed => 1 | .ready => 2 | .running => 3 | .done => 4 | .stopped => 5
/-- The record's place in its pool. -/
def State.lrecAddr (s : State) (p i : Nat) : Nat := (s.part p).poolBase.toNat + 64 * i
def State.lrecImage (s : State) (p i : Nat) : Nat := s.mem.nat (s.lrecAddr p i) 64
/-- Stores a record and writes its QE fields, and no other byte, back to the memory image (R27). What the runtime has written
into the QE fields of an IDLE record, which R27 permits, is not read: the QE's own values stand (notes/assumptions/41.md). -/
def State.setLrec (s : State) (p i : Nat) (r : Record) : State :=
  let a := s.lrecAddr p i
  let b0 := setBitsN (s.mem.nat a 1) 0 3 (recStNo r.st)
  (((s.modPart p fun q => { q with recs := q.recs.put i r }).pwrite none a (natLe 1 b0)).pwrite none (a + 2)
    (natLe 2 r.count)).pwrite none (a + 56) (natLe 5 (r.gen.toNat + r.stopc.toNat * 2 ^ 32))
/-- The record's owner function (R113). -/
def State.lrecOwner (s : State) (p i : Nat) : Nat :=
  (s.lrec p i).owner.getD (((s.part p).fns.head?).getD 0)
def Record.h (r : Record) (lo n : Nat) : Nat := bitsN r.held.toNat lo n

/-- What refuses an arm (R29; the order: notes/assumptions/41.md). -/
def armCheck (v : Nat) : Option Code :=
  let succ := (List.range 4).map fun k => bitsN v (128 + 16 * k) 16
  if bitsN v 9 7 ≠ 0 ∨ bitsN v 291 29 ≠ 0 ∨ bitsN v 488 24 ≠ 0 ∨ bitsN v 288 3 > 5 then some fIllegal
  else if succ.any fun e => bitsN e 14 2 != 0 then some fIllegal
  else if bitsN v 64 64 % 128 ≠ 0 ∨ bitsN v 192 64 % 4 ≠ 0 ∨ bitsN v 320 64 % 4 ≠ 0 then some fAlign
  else if !bitN v 5 && succ.any fun e => bitN e 12 && bitN e 13 then some fIllegal
  else none

/-- A record enters READY: it takes the next ready stamp (R102, R105). -/
def State.enterReady (s : State) (p i : Nat) : State :=
  let r := s.lrec p i
  let t := r.h 384 64
  let s := s.setLrec p i { r with
    st := .ready, stamp := (s.part p).nextStamp, eligible := decide (t ≤ s.now), late := decide (t ≠ 0 ∧ t < s.now) }
  s.modPart p fun q => { q with nextStamp := q.nextStamp + 1 }

/-- An arm (R29, R31): by a packet of function f with its PSEQ, queue and tag, or by device code. Answers the
refusal code, or 0. A poisoned image, which R29 does not name, is refused with F_POISON (notes/assumptions/41.md). -/
def State.arm (s : State) (p i : Nat) (by' : Option (Nat × Nat × Nat × Nat)) : State × Code :=
  let r := s.lrec p i
  match r.st with
  | .armed | .ready | .running => (s, 0)
  | _ =>
    let v := s.lrecImage p i
    match (if poisoned s.memPoison 64 (s.lrecAddr p i) 64 then some fPoison else armCheck v) with
    | some c => (s.setLrec p i { r with stopc := c }, c)
    | none =>
      let r := { r with held := BitVec.ofNat 512 v, count := bitsN v 32 16, late := false, depunder := false }
      let (r, q, tag) := match by' with
        | some (f, pseq, q, tag) => ({ r with owner := some f, armPseq := pseq }, q, tag)
        | none => (r, 0, 0)
      let s := s.setLrec p i { r with st := .armed }
      let s := if r.count = 0 then s.enterReady p i else s
      (s.journal (s.lrecOwner p i) (jArmed r.armPseq q i tag r.gen.toNat), 0)

/-- A decrement (R31, R33), with what a DEPUNDER entry carries. -/
def State.decrement (s : State) (p i tag : Nat) (pseq : Option (Nat × Nat)) : State :=
  let r := s.lrec p i
  if r.st = .armed ∧ r.count ≠ 0 then
    let s := s.setLrec p i { r with count := r.count - 1 }
    if r.count = 1 then s.enterReady p i else s
  else
    let r := { r with
      stopc := fDepunder
      st := if r.st = .ready then .stopped else r.st
      depunder := r.depunder || r.st == .running }
    let s := s.setLrec p i r
    let (ps, q) := pseq.getD (r.armPseq, 0)
    s.journal (s.lrecOwner p i) ⟨9, ps, fDepunder.toNat, q, i, tag, r.gen.toNat⟩

/-- The record stops with a code, journalled FAULT; no successor is decremented. -/
def State.stopLrec (s : State) (p i : Nat) (code : Code) : State :=
  let r := { s.lrec p i with st := .stopped, stopc := code }
  (s.setLrec p i r).journal (s.lrecOwner p i) ⟨7, r.armPseq, code.toNat, 0, i, 0, r.gen.toNat⟩

/-- n bytes read by the QE as data of function f of partition p, page by page (R40 orders 4 to 6): a page that fails to
translate or holds poison gives its fault with the first failing byte (R84). `k` bounds the pages. -/
def State.qePages (s : State) (f p : Nat) : Nat → Nat → Nat → Chk (List Byte)
  | 0, _, _ => .ok []
  | k + 1, va, n =>
    if n = 0 then .ok []
    else
      match s.xlate none f p va .rd with
      | .error e => badAt e va
      | .ok pa =>
        let m := min n (0x10000 - va % 0x10000)
        match (List.range m).find? fun i => !isHost pa && poisoned s.memPoison 64 (pa + i) 1 with
        | some i => badAt fPoison (va + i)
        | none =>
          match s.qePages f p k (va + m) (n - m) with
          | .error e => .error e
          | .ok l => .ok (s.mem.read pa m ++ l)
def State.qeRead (s : State) (f p va n : Nat) : Chk (List Byte) := s.qePages f p (n / 0x10000 + 2) va n
def State.qeNat (s : State) (f p va n : Nat) : Chk Nat :=
  match s.qeRead f p va n with
  | .ok l => .ok (leNat l)
  | .error e => .error e

/-- The comparison of a conditional node (R27, R32). -/
def condHolds (w v cop : Nat) : Bool :=
  match cop with
  | 0 => w == v
  | 1 => w != v
  | 2 => decide (w < v)
  | 3 => decide (v ≤ w)
  | 4 => decide (sextN w 32 < sextN v 32)
  | _ => decide (sextN v 32 ≤ sextN w 32)

/-- The completion sequence of a RUNNING record (R32). A re-arm takes the image afresh (R109) with no check of R27 or R29 and
none for poison; a completion has no trace record of its own, since R459 lists none (notes/assumptions/41.md). -/
def State.completeLrec (s : State) (p i : Nat) : State :=
  let r := s.lrec p i
  let f := s.lrecOwner p i
  let r := { r with gen := r.gen + 1 }
  let cond := bitN r.held.toNat 5
  let chosen : Chk Bool :=
    if !cond then .ok false
    else
      match s.qeNat f p (r.h 192 64) 4 with
      | .error e => .error e
      | .ok w => .ok (!condHolds w (r.h 256 32) (r.h 288 3))
  match chosen with
  | .error (code, _) => (s.setLrec p i r).stopLrec p i code
  | .ok b =>
    let late := r.late
    let h := r.held.toNat
    let s :=
      if bitN h 6 then
        let v := s.lrecImage p i
        let r := { r with held := BitVec.ofNat 512 v, count := bitsN v 48 16, st := .armed, late := false }
        let s := s.setLrec p i r
        if r.count = 0 then s.enterReady p i else s
      else s.setLrec p i { r with st := .done }
    let s := (List.range 4).foldl (fun s k =>
      let e := bitsN h (128 + 16 * k) 16
      if bitN e 12 && (!cond || bitN e 13 == b) then s.decrement p (bitsN e 0 12) i none else s) s
    s.journal f ⟨6, r.armPseq, if late then stLate.toNat else 0, 0, i, 0, r.gen.toNat⟩

/-- The last task of a record's job has ended (R31, R33, R446). -/
def State.endJob (s : State) (p i : Nat) (stop : Option Code) : State :=
  let s := s.modPart p fun q => { q with jobs := q.jobs.filter (·.recIdx != i) }
  let r := s.lrec p i
  if r.depunder then s.setLrec p i { r with st := .stopped, depunder := false }
  else
    match stop with
    | some _ => s.stopLrec p i r.stopc
    | none => s.completeLrec p i

/-! ### `LARM`, `LPATCH`, `LQRY` -/

/-- The status word of R107. -/
def recStatus (s : State) (p i code : Nat) : Word :=
  let r := s.lrec p i
  let held := r.st == .armed || r.st == .ready || r.st == .running
  let v := if held then r.held.toNat else s.lrecImage p i
  BitVec.ofNat 64 (recStNo r.st + bitsN v 3 2 * 2 ^ 3 + code * 2 ^ 8 + r.count * 2 ^ 16 + r.gen.toNat * 2 ^ 32)
/-- idx = X[a] + zext64(imm16), not above 4,095. -/
def recIdx (s : State) (a : Reg) (imm : BitVec 16) : Chk Nat :=
  let n := (s.me.xr a + zext16 imm).toNat
  if n > 4095 then bad fBound else .ok n
def execLarm (o : LarmOp) : State → Out :=
  instr o.pr (wideLen o.wide) fun s => (recIdx s o.a o.imm).then fun i =>
    let p := s.me.t.part
    let (s, c) := s.arm p i none
    .done ((s.setX o.d (recStatus s p i c.toNat)).wrote)
def execLqry (o : LarmOp) : State → Out :=
  instr o.pr (wideLen o.wide) fun s => (recIdx s o.a o.imm).then fun i =>
    let p := s.me.t.part
    .done (s.setX o.d (recStatus s p i (s.lrec p i).stopc.toNat))

/-- The place and width in the image of a patched field, checked (R108; the order: notes/assumptions/41.md). -/
def patchCheck (sel v : Nat) : Chk (Nat × Nat) :=
  match sel with
  | 0 => if v ≤ 3 then .ok (3, 2) else bad fBound
  | 1 => if v ≤ 0xFFFF then .ok (32, 16) else bad fBound
  | 2 => if v ≤ 0xFFFF then .ok (48, 16) else bad fBound
  | 3 => if v ≤ 0xFFFFFFFF then .ok (256, 32) else bad fBound
  | 4 => .ok (384, 64)
  | 5 => if v ≥ 2 ^ 52 then bad fBound else if v % 4 ≠ 0 then bad fAlign else .ok (320, 64)
  | 6 => if v ≥ 2 ^ 52 then bad fBound else if v % 4 ≠ 0 then bad fAlign else .ok (192, 64)
  | 7 => if v ≥ 2 ^ 52 then bad fBound else if v % 128 ≠ 0 then bad fAlign else .ok (64, 64)
  | _ => bad fIllegal
/-- Writes the bytes of one field of a record's image, and no other (R108, R109). -/
def State.patch (s : State) (p i lo n v : Nat) : State :=
  let a := s.lrecAddr p i + lo / 8
  let m := ceilDiv (lo % 8 + n) 8
  s.pwrite none a (natLe m (setBitsN (s.mem.nat a m) (lo % 8) n v))
def execLpatch (o : LpatchOp) : State → Out :=
  instr o.pr (regLitLen o.val) fun s => (recIdx s o.a o.imm).then fun i =>
    let p := s.me.t.part
    let v := (s.me.regLit o.val).toNat
    (patchCheck o.sel.toNat v).then fun (lo, n) =>
      let s := s.patch p i lo n v
      .done ((s.setX o.d (recStatus s p i 0)).wrote)

/-! ### Launch queues -/

def Func.q (f : Func) (n : Nat) : LQueue := Sparse.get LQueue.reset f.queues n
def Func.putQ (f : Func) (n : Nat) (q : LQueue) : Func := { f with queues := f.queues.put n q }
def State.modQ (s : State) (f n : Nat) (g : LQueue → LQueue) : State := s.modFn f fun fn => fn.putQ n (g (fn.q n))
/-- A tail write of a host-fed queue (R93). -/
def LQueue.setTail (q : LQueue) (v : BitVec 32) : LQueue :=
  if q.overrun then q
  else if (v - q.head).toNat > 2 ^ q.lsz then { q with overrun := true } else { q with tail := v }
def execQtailWrite (o : QueueWrite) (s : State) : Out :=
  let fn := s.fn o.fn
  let q := fn.q o.q
  let v : BitVec 32 := o.v.setWidth 32
  if !fn.ready || q.fab || o.q ≥ 8 then .next s
  else if fn.sw ≠ .isIn then .next (s.modQ o.fn o.q fun q => { q with heldTail := some v })
  else .next (s.modQ o.fn o.q (·.setTail v))
/-- A write of QCFG (R91). -/
def LQueue.setCfg (q : LQueue) (v : Nat) : LQueue :=
  let en := bitN v 0
  if q.en then { q with en := en }
  else if bitsN v 2 4 < 4 ∨ bitsN v 2 4 > 12 then q
  else
    let q := { q with fab := bitN v 1, lsz := bitsN v 2 4, en := en }
    if en then { q with head := 0, tail := 0, overrun := false, heldTail := none } else q
def execQcfgWrite (o : QueueWrite) (s : State) : Out :=
  if !(s.fn o.fn).ready || o.q ≥ 8 then .next s else .next (s.modQ o.fn o.q (·.setCfg o.v.toNat))

/-- A queue with a packet that the QE may read. -/
def State.queueReady (s : State) (f q : Nat) : Bool :=
  let fn := s.fn f
  let x := fn.q q
  fn.ready && x.en && !x.overrun && x.tail != x.head && fn.sw == .isIn && (s.partOfFn f).isSome
/-- The packet at HEAD, or the fault of reading it. -/
def State.packetAt (s : State) (f q : Nat) : Chk Nat :=
  let x := (s.fn f).q q
  s.qeNat f ((s.partOfFn f).getD 0) (x.base.toNat + 64 * (x.head.toNat % 2 ^ x.lsz)) 64
/-- What R98 rejects. SEL or VALUE without a patch, and EGEN without GCHK, count as reserved bits that are not zero
(notes/assumptions/41.md). -/
def packetCheck (v : Nat) : Chk Unit :=
  let kind := bitsN v 0 4
  let sel := bitsN v 20 5
  let value := bitsN v 64 64
  if kind > 4 ∨ bitsN v 4 4 ≠ 0 ∨ bitsN v 26 6 ≠ 0 ∨ v / 2 ^ 160 ≠ 0 then bad fIllegal
  else if kind < 3 ∧ (sel ≠ 0 ∨ value ≠ 0) then bad fIllegal
  else if !bitN v 25 && bitsN v 128 32 != 0 then bad fIllegal
  else if kind ≥ 3 then (match patchCheck sel value with | .ok _ => .ok () | .error e => .error e)
  else .ok ()

/-- The effect of an accepted packet (R97). -/
def State.packetEffect (s : State) (f q p v pseq : Nat) : State :=
  let i := bitsN v 8 12
  let tag := bitsN v 32 32
  let patched (s : State) : State :=
    match patchCheck (bitsN v 20 5) (bitsN v 64 64) with
    | .ok (lo, n) => s.patch p i lo n (bitsN v 64 64)
    | .error _ => s
  match bitsN v 0 4 with
  | 1 => (s.arm p i (some (f, pseq, q, tag))).1
  | 2 => s.decrement p i tag (some (pseq, q))
  | 3 => patched s
  | 4 => ((patched s).arm p i (some (f, pseq, q, tag))).1
  | _ => s

/-- The QE takes the next packet of a queue (R93, R97, R98). -/
def State.takePacket (s : State) (f q : Nat) : State :=
  let p := (s.partOfFn f).getD 0
  let pk := s.packetAt f q
  let pseq := (s.fn f).pseq
  let s := (s.modFn f fun fn => { fn.putQ q { fn.q q with head := (fn.q q).head + 1 } with pseq := fn.pseq + 1 }).modPart p
    fun x => { x with lastQ := 8 * f + q + 1 }
  match pk with
  | .error (c, _) => s.journal f ⟨2, pseq, c.toNat, q, 0, 0, 0⟩
  | .ok v =>
    let i := bitsN v 8 12
    let tag := bitsN v 32 32
    let r := s.lrec p i
    match packetCheck v with
    | .error (c, _) => s.journal f ⟨2, pseq, c.toNat, q, i, tag, r.gen.toNat⟩
    | .ok _ =>
      if bitN v 25 ∧ r.gen.toNat ≠ bitsN v 128 32 then s.journal f ⟨3, pseq, 0, q, i, tag, r.gen.toNat⟩
      else (s.journal f ⟨1, pseq, 0, q, i, tag, r.gen.toNat⟩).packetEffect f q p v pseq

/-- The KIND whose event takes the packet at HEAD; a packet that cannot be read, or of a reserved KIND, goes with
NOP (notes/assumptions/11.md). -/
def State.packetKind (s : State) (f q : Nat) : Nat :=
  match s.packetAt f q with
  | .ok v => if bitsN v 0 4 ≤ 4 then bitsN v 0 4 else 0
  | .error _ => 0
/-- The queue's turn in the round robin of its partition (R95): no other ready queue comes before it, counted on from the one
served last. -/
def State.queueTurn (s : State) (f q : Nat) : Bool :=
  let p := s.partOfFn f
  let n := 8 * f + q
  let last := (s.part (p.getD 0)).lastQ
  let before (m : Nat) : Bool := if last ≤ n then decide (last ≤ m ∧ m < n) else decide (last ≤ m) || decide (m < n)
  !s.funcs.any fun (g, fn) => s.partOfFn g == p && fn.queues.any fun (i, _) => before (8 * g + i) && s.queueReady g i
def packet (kind : Nat) (o : QueueRef) (s : State) : Out :=
  if s.queueReady o.fn o.q && s.packetKind o.fn o.q == kind && s.queueTurn o.fn o.q then .next (s.takePacket o.fn o.q) else .next s
def execPacketNop (o : QueueRef) (s : State) : Out := packet 0 o s
def execPacketArm (o : QueueRef) (s : State) : Out := packet 1 o s
def execPacketDec (o : QueueRef) (s : State) : Out := packet 2 o s
def execPacketPatch (o : QueueRef) (s : State) : Out := packet 3 o s
def execPacketPatcharm (o : QueueRef) (s : State) : Out := packet 4 o s

/-! ### Packets from peers (R99 to R101) -/

/-- An access-control entry matches the source and the target function. -/
def aclMatch (e sdev spart f : Nat) : Bool :=
  bitN e 0 && (bitN e 10 || bitsN e 1 9 == sdev) && (bitN e 16 || bitsN e 11 5 == spart)
    && bitsN e 17 8 == f && decide (bitsN e 17 8 ≤ 128)
/-- The partition's table admits the packet. -/
def Part.admits (p : Part) (sdev spart f q kind : Nat) : Bool :=
  match p.acl.find? fun (i, e) => decide (i < 256) && aclMatch e.toNat sdev spart f with
  | none => false
  | some (_, e) => bitN e.toNat (25 + q) && decide (kind < 5) && bitN e.toNat (33 + kind)

/-- A packet that reaches a queue: held by flow control (none), dropped with a REJECT entry, or appended to the ring. A ring
slot that cannot be written keeps what it held, and TAIL still advances (notes/assumptions/41.md). -/
def State.peerPacket (s : State) (o : PeerPacket) : Option State :=
  let v := o.pkt.toNat
  let reject (gen : Nat) : State := s.journal o.fn ⟨2, 0, fPerm.toNat, o.q % 8, bitsN v 8 12, bitsN v 32 32, gen⟩
  match s.partOfFn o.fn with
  | none => some (reject 0)
  | some p =>
    let fn := s.fn o.fn
    let q := fn.q o.q
    if !((s.part p).admits o.sdev o.spart o.fn o.q (bitsN v 0 4) && q.en && q.fab && decide (o.q < 8)) then
      some (reject (s.lrec p (bitsN v 8 12)).gen.toNat)
    else if (q.tail - q.head).toNat ≥ 2 ^ q.lsz ∨ fn.sw ≠ .isIn then none
    else
      let s := match s.pieces none o.fn p .wr (q.base.toNat + 64 * (q.tail.toNat % 2 ^ q.lsz)) 64 with
        | .ok ps => s.pwrites none ps (natLe 64 v)
        | .error _ => s
      some (s.modQ o.fn o.q fun q => { q with tail := q.tail + 1 })
def execPeerPacketArrival (o : PeerPacket) (s : State) : Out := .next ((s.peerPacket o).getD s)

/-! ### Time triggers and settlement -/

def execTimeTrigger (o : PartRec) (s : State) : Out :=
  let r := s.lrec o.part o.idx
  if r.st = .ready ∧ !r.eligible ∧ r.h 384 64 ≤ s.now then
    .next (s.modPart o.part fun q => { q with recs := q.recs.put o.idx { r with eligible := true } })
  else .next s

/-- A settled group is latched, and its record decremented (R400, R401). -/
def State.settle (s : State) (p g : Nat) : State :=
  let x := (s.part p).settleAt g
  if x.defined && !x.latch && s.settled x then
    let s := s.modPart p fun q => q.setSettle g { x with latch := true }
    if x.rel then s.decrement p x.ridx (0x80000000 + g) none else s
  else s
def execSettlement (o : PartGroup) (s : State) : Out := .next (s.settle o.part o.group)

end Sys2Proof.Machine
end

