-- ==== Sys2Proof/Machine/Channels.lean ====
section
/-! DEFINITION. What a task sends beyond its slot: `LSEND` (R108), the messages of channels (R409 to R413) and the
publication counter `PUBH` (R381, R382). -/

namespace Sys2Proof.Machine

/-! ### Packets towards other modules (R424) -/

/-- A function's queue at a port holds 8 packets. -/
def portRoom : Nat := 8
def Func.port (f : Func) (k : Nat) : List PortPacket := Sparse.get [] f.ports k
/-- Appends a packet to a function's queue at a port; none while the queue is full. -/
def State.toPort (s : State) (f k : Nat) (x : PortPacket) : Option State :=
  if ((s.fn f).port k).length ≥ portRoom then none
  else some (s.modFn f fun fn => { fn with ports := Sparse.set [] fn.ports k (fn.port k ++ [x]) })
/-- A 64-byte packet of a slot for another device: port 0, numbered by the move (notes/assumptions/13.md). -/
def State.toPeer (s : State) (f : Nat) (d : PortDest) (l : List Byte) : Option State := s.toPort f 0 ⟨d, 0, l, s.seq⟩

/-- A packet for another device joins the queue of its port; the instruction of `len` bytes ends when it has left, with one
use of capability `c` less and `v` in `d` (R108, R412). -/
def State.sendPeer (s : State) (x : PortDest) (l : List Byte) (c len : Nat) (d : Reg) (v : Word) : Res :=
  match s.toPeer s.me.t.fn x l with
  | none => .wait s .flow
  | some t => .wait t (.sent s.seq c len d v)
/-- An instruction whose packet stands at its port waits until it has left; any other begins. -/
def State.afterSend (s : State) (begin : Res) : Res :=
  match s.me.cs.waiting with
  | some (.sent no c len d v) =>
    if (s.fn s.me.t.fn).unsent no then .wait s (.sent no c len d v) else .done (s.modMe (·.sentEnd c d v))
  | _ => begin

/-! ### `LSEND` -/

def lsendCap (e : Nat) : Bool :=
  capGrants e 3 1 && capAllow e != 0 && decide (bitsN (capObj e) 3 8 ≤ 128) && !bitN (capObj e) 11
def execLsend (o : LsendOp) : State → Out :=
  instr o.pr (wideLen o.wide) fun s =>
    let e := s.me.cap o.c.toNat
    let va := s.me.xr o.a
    s.afterSend <|
    if !lsendCap e then .trap fCap 0
    else
      (s.dataPa va 64 .rd).then fun pa =>
        if !isHost pa && poisoned s.memPoison 64 pa 64 then .trap fPoison va
        else
          let l := s.mem.read pa 64
          let t := s.observe s.agent pa 64
          if capDev e ≠ s.mgmt.dev then
            t.sendPeer (.queue (capDev e) (bitsN (capObj e) 3 8) (bitsN (capObj e) 0 3) s.me.t.part) l o.c.toNat (wideLen o.wide) o.d 0
          else
            match t.peerPacket ⟨s.mgmt.dev, s.me.t.part, bitsN (capObj e) 3 8, bitsN (capObj e) 0 3, BitVec.ofNat 512 (leNat l)⟩ with
            | none => .wait s .flow
            | some t => .done (t.modMe (·.sentEnd o.c.toNat o.d 0))

/-! ### Messages -/

def Slot.box (sl : Slot) (ib : Nat) : List Message := Sparse.get [] sl.inbox ib
def Slot.setBox (sl : Slot) (ib : Nat) (l : List Message) : Slot := { sl with inbox := Sparse.set [] sl.inbox ib l }
/-- Messages an inbox holds (R409). -/
def inboxRoom : Nat := 16
/-- A capability for an inbox that grants `perm` (R409). -/
def chCap (e perm : Nat) : Bool := capGrants e 2 perm && decide (capObj e ≤ 3)
/-- The status word of R412. -/
def chStatus (code sdev score sslot left : Nat) : Word :=
  BitVec.ofNat 64 (code + sdev * 2 ^ 8 + score * 2 ^ 17 + sslot * 2 ^ 25 + left * 2 ^ 28)
/-- The home-region offset of a message (R411). -/
def chOffset (s : State) (a : Reg) (imm : BitVec 16) : Chk Nat :=
  let o := s.me.xr a + zext16 imm
  if o.toNat % 64 ≠ 0 then .error (fAlign, o)
  else if o.toNat + 64 > 0x40000 then .error (fBound, o)
  else .ok o.toNat
/-- The partition of a core admits messages of a device's partition (R410). -/
def State.admitsMsg (s : State) (sdev spart core : Nat) : Bool :=
  match s.partOfCore core with
  | none => false
  | some p => (sdev == s.mgmt.dev && p == spart) || (s.part p).acl.any fun (i, e) =>
      decide (i < 256) && bitN e.toNat 0 && (bitN e.toNat 10 || bitsN e.toNat 1 9 == sdev)
        && (bitN e.toNat 16 || bitsN e.toNat 11 5 == spart)
/-- The inbox of a slot has room, and its function is in. -/
def Slot.boxRoom (sl : Slot) (ib : Nat) : Bool := decide ((sl.box ib).length < inboxRoom) && !sl.out
/-- A message of another device: dropped where it is not admitted or meets no task, held by flow control while its inbox is
full, else delivered (R410, R412). -/
def State.peerMessage (s : State) (m : PeerMessage) : State :=
  let rx := s.slotAt m.core m.slot
  if m.sdev = s.mgmt.dev ∨ m.ib > 3 ∨ !s.admitsMsg m.sdev m.spart m.core ∨ rx.task.isNone ∨ !rx.boxRoom m.ib then s
  else s.modSlot m.core m.slot fun sl => sl.setBox m.ib
    (sl.box m.ib ++ [⟨natLe 64 m.data.toNat, m.sdev, m.score, m.sslot, s.seq, 4⟩])

/-- The end of a `CHSND` with a code. -/
def chsndEnd (s : State) (d : Reg) (code left : Nat) : Res := .done (s.setX d (chStatus code 0 0 0 left))
/-- A message to a slot of this module. -/
def chsndHere (s : State) (o : ChsndOp) (e : Nat) (m : List Byte) : Res :=
  let c := capCore e
  let k := capSlot e
  let ib := capObj e
  let rx := s.slotAt c k
  let n := (rx.box ib).length
  if !s.admitsMsg s.mgmt.dev s.me.t.part c then chsndEnd s o.d fPerm.toNat 0
  else if rx.task.isNone then chsndEnd s o.d 1 0
  else if !rx.boxRoom ib then .wait s (.inbox c k ib (bitN e 3))
  else
    let s := (s.modMe fun sl => sl.useAllow o.c.toNat).pass s.agent (.msg s.seq s.myId o.scope.toNat)
    let s := s.modSlot c k fun sl => sl.setBox ib (sl.box ib ++ [⟨m, s.mgmt.dev, s.cur.core, s.cur.slot, s.seq, o.scope.toNat⟩])
    chsndEnd s o.d 0 (n + 1)
/-- A core of another device, in the numbers of waits: no core of this one. -/
def farCore (dev core : Nat) : Nat := 256 * (dev + 1) + core
/-- A message to another module: what it answers is a free value, a full inbox among it, for which the instruction waits
(notes/assumptions/13.md). -/
def chsndPeer (s : State) (o : ChsndOp) (e : Nat) (m : List Byte) : Res :=
  let x := Config.peerAnswer s.seq
  match x % 4 with
  | 0 => chsndEnd s o.d fPerm.toNat 0
  | 1 => chsndEnd s o.d 1 0
  | 2 => .wait s (.inbox (farCore (capDev e) (capCore e)) (capSlot e) (capObj e) (bitN e 3))
  | _ =>
    s.sendPeer (.inbox (capDev e) (capCore e) (capSlot e) (capObj e) s.me.t.part s.cur.core s.cur.slot) m o.c.toNat 8 o.d
      (chStatus 0 0 0 0 (x / 4 % 17))
def execChsnd (o : ChsndOp) : State → Out :=
  instr o.pr 8 fun s =>
    let e := s.me.cap o.c.toNat
    s.afterSend <|
    if !(chCap e 1 && capAllow e != 0) then .trap fCap 0
    else
      (chOffset s o.a o.imm).then fun off =>
        if s.homePoison off 64 then .trap fPoison (BitVec.ofNat 64 off)
        else
          let m := (s.core s.cur.core).scratch.read (homeBase s.cur.slot + off) 64
          if capDev e = s.mgmt.dev then chsndHere s o e m else chsndPeer s o e m

def execChrcv (o : ChrcvOp) : State → Out :=
  instr o.pr 8 fun s =>
    let e := s.me.cap o.c.toNat
    let ib := capObj e
    if !(chCap e 2 && capDev e == s.mgmt.dev && capCore e == s.cur.core && capSlot e == s.cur.slot) then .trap fCap 0
    else
      (chOffset s o.a o.imm).then fun off =>
        let dl := (s.me.xr o.b).toNat
        match s.me.box ib with
        | m :: rest =>
          let s := (s.modMe fun sl => sl.setBox ib rest).homeWrite off m.data
          let s := s.passIf (fun w => match w with
            | .msg n r rs => n == m.no && syncs r rs s.myId o.scope.toNat
            | _ => false) s.agent
          .done (s.setX o.d (chStatus 0 m.sdev m.score m.sslot rest.length))
        | [] =>
          if dl ≠ 0 ∧ dl ≤ s.now then .done (s.setX o.d (chStatus 2 0 0 0 0))
          else .wait s (.message ib dl)
/-- `CHRCV_DEADLINE`: a waiting `CHRCV` whose deadline has come. -/
def execChrcvDeadline (o : SlotId) (s : State) : Out :=
  match (s.slotAt o.core o.slot).cs.waiting with
  | some (.message _ dl) =>
    if dl ≠ 0 ∧ dl ≤ s.now then
      s.reissue o fun i => match i with | .chrcv op => some (execChrcv op) | _ => none
    else .next s
  | _ => .next s

/-! ### `CHCAP` (R413) -/

def execChcapRd (o : ChcapRdOp) : State → Out :=
  instr o.pr 8 fun s => .done (s.setX o.d (BitVec.ofNat 64 (bitsN (s.me.cap o.c.toNat) (if o.w then 64 else 0) 64)))
def execChcapNar (o : RRRR) : State → Out :=
  instr o.pr 8 fun s =>
    let e := s.me.cap o.c.toNat
    let k := (s.me.xr o.b).toNat
    let free := capAllow e == 0xFFFFFFFF
    if !capValid e || (capKind e == 2 && decide (capObj e > 3)) then .trap fCap 0
    else if k > 0xFFFFFFFF ∨ (!free ∧ k > capAllow e) then .trap fBound 0
    else
      let n := setBitsN (setBitsN e 1 5 (bitsN e 1 5 &&& bitsN (s.me.xr o.a).toNat 1 5)) 64 32 k
      .done (s.modMe fun sl =>
        let sl := if free then sl else sl.setCap o.c.toNat (setBitsN e 64 32 (capAllow e - k))
        sl.setCap o.d.toNat n)
def execChcapClr (o : ChcapClrOp) : State → Out :=
  instr o.pr 8 fun s => .done (s.modMe fun sl => sl.setCap o.c.toNat 0)

/-! ### `PUBH` (R382) -/

def execPubh (o : PubhOp) : State → Out :=
  instr o.pr 8 fun s =>
    let va := s.me.xr o.a + o.imm.signExtend 64
    (s.dataPa va 8 .rw).then fun pa =>
      if !isHost pa || Config.fetchAddRefused s.seq then .trap fPerm va
      else
        let n := (s.mem.nat pa 8 + 1) % 2 ^ 64
        let s := ((((s.dropEarly s.agent).releaseHost s.agent).pwrite (some s.agent) pa (natLe 8 n)).wrote).setX o.d (BitVec.ofNat 64 n)
        .done (if o.irq then s.cause s.me.t.fn 0 else s)

end Sys2Proof.Machine
end

