-- ==== Sys2Proof/Machine/Summary.lean ====
section
/-! DEFINITION. In-place and shadowed stores into tiles (R210, R354, R390) and the C-stream summary instructions
(R358 to R361). -/

namespace Sys2Proof.Machine

/-! ### Stores of the C and V streams into a tile -/

/-- A store by an instruction of the current slot into a valid tile: `f` makes it at the buffer's byte address
or faults with nothing done. A sealed shadow discards what it writes, after its checks (R335, R353, R390); an unshadowed tile is EMPTY (when `fill` allows) or
READY and without readers, and is left READY. -/
def withStore (s : State) (c a : Nat) (fill : Bool) (f : State → Nat → Chk State) : Res :=
  let t := s.tileAt c a
  if !t.shd && t.sealed then .trap fVintage 0
  else
    match s.nameTile c a with
    | (s, false) => .wait s .tile
    | (s, true) =>
      let t := s.tileAt c a
      if t.shd then
        if t.sealed then (f s t.shadowAt).then fun u => .done (u.modCore c fun co =>
          { co with scratch := (s.core c).scratch, scratchPoison := (s.core c).scratchPoison })
        else if t.sfillCmd || t.oldReaders != 0 || (t.st == .draining && ((s.core c).cask (caskOf a t)).copy == .racking) then .wait s .tile
        else (f s t.shadowAt).then fun s => .done ((s.modTile c a fun t => { t with sfill := true }).wrote)
      else
        match t.st with
        | .empty =>
          if !fill then .trap fTilestate 0
          else (f s t.at).then fun s => .done ((s.tileReady c a).wrote)
        | .ready => if t.readers ≠ 0 then .wait s (.store c a) else (f s t.at).then fun s => .done s.wrote
        | _ => .wait s .tile

/-! ### Records in tiles -/

/-- The record at a scratchpad address of core c within a tile of `n` bytes: F_BOUND, F_POISON or F_FORMAT. -/
def State.recAt (s : State) (c addr n : Nat) : Chk Rec :=
  let kind := leNat (s.spRead c addr 1)
  let size := recSize kind
  if n < size then bad fBound
  else if s.spPoisoned c addr size then bad fPoison
  else
    match parseRec (s.spRead c addr size) with
    | some r => .ok r
    | none => bad fFormat
/-- As `recAt`, of one kind. -/
def State.recOf (s : State) (c addr n kind : Nat) : Chk Rec :=
  match s.recAt c addr n with
  | .error e => .error e
  | .ok r => if r.kind = kind then .ok r else bad fFormat
def State.putRec (s : State) (c addr : Nat) (r : Rec) : State := s.spWrite c addr r.bytes

def execSkinit (o : SkinitOp) : State → Out :=
  instr o.pr 8 fun s => withPlace s o.top true fun c a =>
    let n := (s.tileAt c a).bytes
    let kind := o.kind.toNat
    if n < recSize kind then .trap fBound 0
    else withStore s c a true fun s addr => .ok (s.putRec c addr (newRec kind (bitsN (s.me.xr o.a).toNat 0 32)))

/-- The merge of a source record into the tile at (c, a). -/
def skmrgFrom (s : State) (c a : Nat) (src : State → Chk Rec) : Res :=
    withStore s c a false fun s addr =>
      match src s, s.recAt c addr (s.tileAt c a).bytes with
      | .error e, .error e' => .error (if e.1 = fFormat then e' else e)
      | .error e, .ok _ => .error e
      | .ok _, .error e => .error e
      | .ok src, .ok dst =>
        if !mergeable dst src then bad fFormat
        else
          let (r, x) := dst.merge src ((s.core s.cur.core).gen 5)
          .ok ((s.putRec c addr r).modCore s.cur.core fun co => co.setGen 5 x)
def skmrg (s : State) (c a sc sa : Nat) (w : WaitFor) : Res :=
  withRead s sc sa w fun s => skmrgFrom s c a fun s => s.recAt sc (s.tileAt sc sa).at (s.tileAt sc sa).bytes
/-- The record that a tile of another module holds, with its size and poison: free values (notes/assumptions/12.md). -/
def State.peerRec (s : State) : Chk Rec :=
  let size := recSize (Config.peerByte s.seq 0).toNat
  if 64 * (1 + Config.peerAnswer s.seq / 8 % 4096) < size then bad fBound
  else if Config.peerAnswer s.seq / 2 ^ 15 % 2 = 1 then bad fPoison
  else
    match parseRec ((List.range size).map (Config.peerByte s.seq)) with
    | some r => .ok r
    | none => bad fFormat
/-- `SKMRG.R` from a tile of another module: whether it is valid, and whether it is READY, that module says. -/
def skmrgPeer (s : State) (c a : Nat) : Res :=
  match Config.peerAnswer s.seq % 8 with
  | 0 => .trap fTilestate 0
  | 1 | 2 | 3 => .wait s .flow
  | _ => skmrgFrom s c a State.peerRec
def execSkmrg (o : SkmrgOp) : State → Out :=
  instr o.pr 8 fun s => withPlace s o.top true fun c a =>
    let x := s.me.xr o.a
    if x.toNat ≥ 2 ^ 12 then .trap fBound 0
    else
      withPlace s (x.setWidth 12) false fun sc sa =>
        if sc = c ∧ sa = a then .trap fTilestate 0 else skmrg s c a sc sa .tile
def execSkmrgR (o : SkmrgROp) : State → Out :=
  instr o.pr 8 fun s => withPlace s o.top true fun c a =>
    let e := s.me.cap o.c.toNat
    if capGrants e 4 2 && capDev e != s.mgmt.dev then skmrgPeer s c a
    else (capTile s o.c 2).then fun (sc, sa) => skmrg s c a sc sa (.remoteTile sc sa)

/-! ### Queries -/

/-- A query of the record in a tile. -/
def skquery (s : State) (top : BitVec 12) (f : Rec → Chk Word) (d : Reg) : Res :=
  withPlace s top false fun c a =>
    withRead s c a .tile fun s =>
      let t := s.tileAt c a
      match s.recAt c t.at t.bytes with
      | .error (e, v) => .trap e v
      | .ok r => (f r).then fun v => .done (s.setX d v)

/-- q of a quantile, when it lies in [0, 1]. -/
def quantileArg (v : FVal) : Option (Nat × Int) :=
  match v with
  | .fin n m e => if (n && m != 0) || magGt m e 1 0 then none else some (m, e)
  | _ => none
def execSkqnt (o : SkqOp) : State → Out :=
  instr o.pr 8 fun s =>
    match quantileArg (fdec 0 0 (s.me.xr o.a).toNat) with
    | none => .trap fBound 0
    | some (m, e) =>
      skquery s o.top (fun r => match r with
        | .qsk q => .ok (BitVec.ofNat 64 ((q.quantile m e).getD 0x7FC00000))
        | _ => bad fFormat) o.d
def execSkest (o : SkestOp) : State → Out :=
  instr o.pr 8 fun s =>
    skquery s o.top (fun r => .ok (BitVec.ofNat 64 (match r with
      | .qsk q => min (2 ^ 64 - 1) q.weight
      | .hhs h => h.entries.length
      | .dcs d => d.estimate))) o.d
def execSkestX (o : SkestOp) : State → Out :=
  instr o.pr 8 fun s =>
    skquery s o.top (fun r => .ok (BitVec.ofNat 64 (match r with
      | .qsk q => q.errb
      | .hhs h => h.count
      | .dcs d => d.zeros))) o.d
/-- Entry i in the order of R346. -/
def topEntry (h : Hhs) (i : Nat) : Option HSlot := (sortH h.entries)[i]?
def sktop (o : SkqOp) (f : HSlot → Nat) : State → Out :=
  instr o.pr 8 fun s =>
    skquery s o.top (fun r => match r with
      | .hhs h => .ok (BitVec.ofNat 64 (((topEntry h (s.me.xr o.a).toNat).map f).getD 0))
      | _ => bad fFormat) o.d
def execSktop (o : SkqOp) : State → Out := sktop o fun x => x.key + x.err * 2 ^ 32
def execSktopC (o : SkqOp) : State → Out := sktop o fun x => x.cnt

end Sys2Proof.Machine
end

