-- ==== Sys2Proof/Machine/Coll.lean ====
section
/-! DEFINITION. Collectives (R414 to R423): `COLL`, `COLL.ABT`, what a member's sequencer does with each packet that
arrives, what it sends and when, its completion and its abort; and the sharing of a port (R424). -/

namespace Sys2Proof.Machine

/-! ### Descriptor (R417) -/

def kBase (d : Nat) : Nat := bitsN d 0 52
def kDst (d : Nat) : Nat := bitsN d 64 52
def kSva (d : Nat) : Nat := bitsN d 128 52
def kBytes (d : Nat) : Nat := bitsN d 192 32
def kFmt (d : Nat) : Nat := bitsN d 224 4
def kRm (d : Nat) : Nat := bitsN d 228 2
def kOvf (d : Nat) : Bool := bitN d 230
def kRing (d : Nat) : Nat := bitsN d 232 6
def kMembers (d : Nat) : Nat := bitsN d 238 10
def kMidx (d : Nat) : Nat := bitsN d 248 10
def kRss (d : Nat) : Nat := bitsN d 258 6
def kCid (d : Nat) : Nat := bitsN d 264 16
def kT0 (d : Nat) : Nat := bitsN d 320 64
def kTw (d : Nat) : Nat := bitsN d 384 32
def kRoute (d : Nat) : Nat := bitsN d 512 192

/-- A route (R416): entries with an operation and a count, nothing after the first zero entry. -/
def routeOk (r : Nat) : Bool :=
  let e (i : Nat) : Nat := bitsN r (16 * i) 16
  (List.range 12).all fun i =>
    (e i == 0 && r / 2 ^ (16 * i) == 0)
      || (bitN (e i) 3 == false && bitsN (e i) 13 3 == 0 && decide (1 ≤ bitsN (e i) 0 3 ∧ bitsN (e i) 0 3 ≤ 6)
        && bitsN (e i) 4 9 != 0)
/-- Hops that a chunk makes on a route: it ends at its first CUT (R416). -/
def routeHops : Nat → Nat → Nat
  | 0, _ => 0
  | n + 1, r => if bitsN r 0 3 = 5 then 1 else bitsN r 4 9 + routeHops n (r / 2 ^ 16)
def routeLen (r : Nat) : Nat := routeHops 12 r
/-- The operation of a route's head entry, and the route once a member has counted it down. -/
def routeOp (r : Nat) : Nat := bitsN r 0 3
def routeNext (r : Nat) : Nat := if bitsN r 4 9 ≤ 1 then r / 2 ^ 16 else r - 16

/-- Reserved bits, EFMT, NMEM, MIDX and the route. -/
def kFieldsOk (d : Nat) : Bool :=
  bitsN d 52 12 == 0 && bitsN d 116 12 == 0 && bitsN d 180 12 == 0 && !bitN d 231 && bitsN d 280 40 == 0
    && bitsN d 416 96 == 0 && bitsN d 704 256 == 0 && decide (kFmt d ≤ 6) && decide (2 ≤ kMembers d ∧ kMembers d ≤ 512)
    && decide (kMidx d < kMembers d) && routeOk (kRoute d)
/-- BYTES; of a summary, the size of the record whose KIND is `kind`. -/
def kBytesOk (d kind : Nat) : Bool :=
  if kFmt d = 6 then kBytes d == recSize kind else kBytes d % (kMembers d * 256) == 0
/-- The result range and its shadow as a copy descriptor, for the rules of R251. -/
def kShadow (d : Nat) : Nat := kDst d + kSva d * 2 ^ 64 + 2 ^ 132 + kBytes d * 2 ^ 256 + 2 ^ 288

/-! ### Segments and chunks -/

def kSeg (d : Nat) : Nat := kBytes d / max 1 (kMembers d)
/-- Chunks that one member originates. -/
def kChunks (d : Nat) : Nat := if kFmt d = 6 then 1 else ceilDiv (kSeg d) 2048
/-- Offset and length in the buffer of chunk j of member m. -/
def kChunk (d m j : Nat) : Nat × Nat :=
  if kFmt d = 6 then (0, kBytes d) else (m * kSeg d + 2048 * j, min 2048 (kSeg d - 2048 * j))
/-- Chunks that this member originates. -/
def kOwn (d : Nat) : Nat := if kFmt d = 6 then b2n (kMidx d == 0) else kChunks d
/-- Packets that arrive at this member: one for each hop of each chunk that ends here. -/
def kArrivals (d : Nat) : Nat :=
  if kFmt d = 6 then ((rangeFrom 1 (routeLen (kRoute d))).filter fun h => h % kMembers d == kMidx d).length
  else kChunks d * routeLen (kRoute d)
/-- SEG of a chunk (notes/assumptions/14.md): chunks count on from segment to segment. -/
def kSegNo (d m j : Nat) : Nat := if kFmt d = 6 then 0 else (m * kChunks d + j) % 2 ^ 16
/-- The originator and the chunk of a packet that has made h hops. -/
def kFrom (d h seg : Nat) : Nat × Nat :=
  let n := kMembers d
  let m := (kMidx d + (n - h % n)) % n
  (m, (seg + 2 ^ 16 - m * kChunks d % 2 ^ 16) % 2 ^ 16)

/-! ### Packets (R415) -/

def pCid (h : Nat) : Nat := bitsN h 0 16
def pMix (h : Nat) : Nat := bitsN h 25 9
def pHop (h : Nat) : Nat := bitsN h 34 10
def pTok (h : Nat) : Bool := bitN h 44
def pSeg (h : Nat) : Nat := bitsN h 48 16
def pRoute (h : Nat) : Nat := bitsN h 64 192
def packHdr (cid odev mix hop : Nat) (tok : Bool) (seg route : Nat) : BitVec 256 :=
  BitVec.ofNat 256 (cid + odev * 2 ^ 16 + mix % 2 ^ 9 * 2 ^ 25 + hop % 2 ^ 10 * 2 ^ 34 + b2n tok * 2 ^ 44 + seg * 2 ^ 48
    + route * 2 ^ 64)
/-- An abort packet: a header flit that names the collective and nothing else (notes/assumptions/14.md). -/
def abortPacket (cid : Nat) : PortPacket := ⟨.member, packHdr cid 0 0 0 false 0 0, [], 0⟩
/-- A packet that carries a chunk of the collective. -/
def chunkOf (cid : Nat) (x : PortPacket) : Bool := x.dest == .member && pCid x.hdr.toNat == cid && !x.data.isEmpty
/-- The packet of a live collective that a member receives has the form that its descriptor gives. -/
def packetFits (d : Nat) (o : CollPacket) : Bool :=
  let h := o.hdr.toNat
  let (m, j) := kFrom d (pHop h + 1) (pSeg h)
  (if kFmt d = 6 then m == 0 && pSeg h == 0 else decide (j < kChunks d))
    && o.data.length == (kChunk d m j).2

/-! ### A member's part -/

def collLive (cid : Nat) (c : Coll) : Bool := c.cid == cid && !c.ended
def State.collOf (s : State) (f cid : Nat) : Option Coll := (s.fn f).colls.find? (collLive cid)
def State.putColl (s : State) (f : Nat) (c : Coll) : State :=
  s.modFn f fun fn =>
    { fn with colls := (fn.colls.map fun x => if collLive c.cid x then c else x).filter fun x => !x.ended || !x.queue.isEmpty }
/-- The agent of a collective's memory accesses. -/
def Coll.agent (c : Coll) (f : Nat) : Agent := .coll ⟨c.core, c.slot⟩ f c.cid
/-- Pieces of a memory access of a collective, made as its task's (R229). -/
def State.collPieces (s : State) (c : Coll) (a : Acc) (va n : Nat) : Chk (List (Nat × Nat)) :=
  { s with cur := ⟨c.core, c.slot, .x⟩ }.xPieces a (va % 2 ^ 64) n va
/-- A member's contribution. -/
def State.collRead (s : State) (c : Coll) (off n : Nat) : Chk (List Byte) :=
  match s.collPieces c .rd (kBase c.desc.toNat + off) n with
  | .error e => .error e
  | .ok ps => if s.ppoison ps then bad fPoison else .ok (s.preads ps)
/-- The misses of a collective's access, read or write, as those of its task (R462). -/
def State.collMisses (s : State) (c : Coll) (wr : Bool) (off n : Nat) : State :=
  let d := c.desc.toNat
  let va := if !wr then kBase d else if kSva d = 0 then kDst d else kSva d
  s.misses c.core c.slot (if wr then .wr else .rd) ((va + off) % 2 ^ 64) n
/-- The task of a slot has written (R450). -/
def State.wroteFor (s : State) (c k : Nat) : State := s.modSlot c k fun sl => sl.modTask fun t => { t with wrote := true }
/-- A result chunk, to DST or its shadow (R419). -/
def State.collWrite (s : State) (f : Nat) (c : Coll) (off : Nat) (l : List Byte) : Chk State :=
  let d := c.desc.toNat
  match s.collPieces c .wr ((if kSva d = 0 then kDst d else kSva d) + off) l.length with
  | .error e => .error e
  | .ok ps => .ok ((s.pwrites (some (c.agent f)) ps l).wroteFor c.core c.slot)

/-- CSTAT (R421). -/
def cstat (c : Coll) (aborted : Bool) : Nat :=
  1 + b2n aborted * 2 + b2n c.skew * 4 + b2n c.late * 8 + c.flags.toNat * 2 ^ 4 + c.code.toNat * 2 ^ 16
/-- The completion status, then the raise. -/
def State.collRaise (s : State) (k : SlotId) (rss off v : Nat) : State :=
  ((s.modCore k.core (·.swrite (homeBase k.slot + off) (natLe 8 v))).wroteFor k.core k.slot).modSlot k.core k.slot (·.raiseSem rss)
/-- What the collective wrote is known where its raise is awaited. -/
def State.collPass (s : State) (f : Nat) (c : Coll) (rss : Nat) : State :=
  let d := ((s.slotAt c.core c.slot).sem rss).done.toNat
  (s.pass (c.agent f) (.raised c.core c.slot rss d)).forget (c.agent f)
/-- The chunks of a collective still in the function's port queues are dropped (R422). -/
def Func.dropChunks (fn : Func) (cid : Nat) : Func :=
  { fn with ports := (fn.ports.map fun (k, l) => (k, l.filter fun x => !chunkOf cid x)).filter fun (_, l) => l != [] }
/-- This member's part ends; its status and raise are held while its function is out (R442). -/
def State.endColl (s : State) (f : Nat) (c : Coll) (aborted : Bool) : State :=
  let rss := kRss c.desc.toNat
  let v := cstat c aborted
  let s := s.putColl f { c with ended := true, queue := if aborted then [abortPacket c.cid] else [] }
  let s := s.modFn f fun fn =>
    if aborted then fn.dropChunks c.cid
    else { fn with past := Sparse.set 0 fn.past c.cid (kRing c.desc.toNat + 1) }
  let s := s.modSlot c.core c.slot fun sl => sl.modTask fun t => { t with colls := t.colls.filter (· != c.cid) }
  if (s.slotAt c.core c.slot).out then
    s.modSlot c.core c.slot fun sl => { sl with heldRaises := sl.heldRaises ++ [(rss, c.descOff + 120, v)] }
  else (s.collRaise ⟨c.core, c.slot⟩ rss (c.descOff + 120) v).collPass f c rss

/-- The port towards the next member of a ring. -/
def State.ringNext (s : State) (f r : Nat) : Nat := bitsN (Sparse.get 0 (s.fn f).ringTab r).toNat 1 5
def State.nextPort (s : State) (f : Nat) (c : Coll) : Nat := s.ringNext f (kRing c.desc.toNat)
/-- The abort packet of a collective that has ended goes on its way when the port has room. -/
def State.sendAbort (s : State) (f cid : Nat) : State :=
  match (s.fn f).colls.find? fun c => c.cid == cid && c.ended with
  | none => s
  | some c =>
    match s.toPort f (s.nextPort f c) (abortPacket cid) with
    | none => s
    | some s => s.modFn f fun fn => { fn with colls := fn.colls.erase c }
/-- An abort (R422). -/
def State.abortColl (s : State) (f : Nat) (c : Coll) : State := (s.endColl f c true).sendAbort f c.cid
/-- A fault at this member ends the collective. -/
def State.failColl (s : State) (f : Nat) (c : Coll) (code : Code) : State := s.abortColl f { c with code := code }
/-- The collectives that a slot's task started are aborted: it is stopped or re-fired. -/
def State.abortColls (s : State) (k : SlotId) : State :=
  let f := (s.slotAt k.core k.slot).t.fn
  (((s.fn f).colls.filter fun c => !c.ended && c.core == k.core && c.slot == k.slot)).foldl (fun s c => s.abortColl f c) s

/-! ### `COLL` -/

/-- The descriptor's home-region offset (R418). -/
def collOff (s : State) (o : CollOp) : Word :=
  s.me.xr o.a + (match o.off with | .i16 v => zext16 v | .i32 v => v.signExtend 64)
/-- KIND of the record at BASE; where it cannot be read, one of the size that BYTES gives, since the fault is the
collective's (R421). -/
def collKind (s : State) (d : Nat) : Nat :=
  match ({ s with cur := { s.cur with strm := .x } } : State).xPieces .rd (kBase d) 1 (kBase d) with
  | .ok ps => if s.ppoison ps then (if kBytes d = recSize 1 then 1 else 2) else leNat (s.preads ps)
  | .error _ => if kBytes d = recSize 1 then 1 else 2
/-- The checks in order; answers the descriptor. -/
def collCheck (s : State) (off : Word) : Chk Nat :=
  let o := off.toNat
  let f := s.me.t.fn
  if o % 128 ≠ 0 then .error (fAlign, off)
  else if o + 128 > 0x40000 then .error (fBound, off)
  else if s.homePoison o 128 then .error (fPoison, off)
  else
    let d := s.homeNat o 128
    if !kFieldsOk d || !bitN (Sparse.get 0 (s.fn f).ringTab (kRing d)).toNat 0 then bad fIllegal
    else if !kBytesOk d (collKind s d) then bad fBound
    else
      match (if kSva d = 0 then .ok () else s.shadowChk (kShadow d)) with
      | .error e => .error e
      | .ok _ =>
        if (s.collOf f (kCid d)).isSome then bad fBound
        else if kRss d ≠ 0 ∧ (s.me.sem (kRss d)).pushed = 0xFFFFFFFF then bad fBound
        else .ok d
def execColl (o : CollOp) : State → Out :=
  instr o.pr (immLen o.off) fun s =>
    let off := collOff s o
    (collCheck s off).then fun d =>
      let f := s.me.t.fn
      let late := decide (kTw d ≠ 0 ∧ kT0 d < s.now)
      let c : Coll :=
        { cid := kCid d, core := s.cur.core, slot := s.cur.slot, desc := BitVec.ofNat 1024 d, descOff := off.toNat, hops := 0,
          tok := late, flags := 0, skew := false, late := late, code := 0, sent := 0, queue := [], ended := false }
      let s := s.modFn f fun fn => { fn with colls := fn.colls ++ [c], past := Sparse.set 0 fn.past c.cid 0 }
      let s := s.pass s.agent (c.agent f)
      .done ((s.modMe fun sl => (sl.pushSem (kRss d)).modTask fun t => { t with colls := t.colls ++ [kCid d] }).setX o.d 0)
def execCollAbt (o : RR) : State → Out :=
  instr o.pr 8 fun s =>
    let f := s.me.t.fn
    match s.collOf f (bitsN (s.me.xr o.a).toNat 0 16) with
    | none => .done (s.setX o.d 1)
    | some c => .done ((s.abortColl f c).setX o.d 0)

/-! ### Packets that arrive (R416, R420, R423) -/

/-- The sum of two elements. -/
def collSum (d p x : Nat) : Nat × Fl :=
  let int (w : Nat) : Nat × Fl := intToInt w true (kOvf d) (sextN p w + sextN x w)
  match kFmt d with
  | 0 => fpAdd 1 (kRm d) (kOvf d) p x
  | 1 => fpAdd 0 (kRm d) (kOvf d) p x
  | 2 => fpAdd 2 (kRm d) (kOvf d) p x
  | 3 => fpAdd 3 (kRm d) (kOvf d) p x
  | 4 => int 32
  | _ => int 64
def kElem (d : Nat) : Nat :=
  match kFmt d with
  | 0 | 4 => 4
  | 2 | 3 => 2
  | _ => 8
/-- ADD: the chunk and the flags. -/
def collAddBytes (d : Nat) (p x : List Byte) : List Byte × Fl :=
  let w := kElem d
  let n := p.length / w
  let r := List.zipWith (collSum d) (words w n p) (words w n x)
  (r.flatMap fun y => natLe w y.1, r.foldl (fun f y => f ||| y.2) 0)
def Rec.seedOf : Rec → Nat
  | .qsk r => r.seed
  | .hhs r => r.seed
  | .dcs r => r.seed
/-- MRG (R342, R352): the packet's record accumulates. -/
def collMergeBytes (mix : Nat) (p x : List Byte) : Chk (List Byte) :=
  match parseRec p, parseRec x with
  | some a, some b =>
    if mergeable a b then .ok (a.merge b (BitVec.ofNat 32 (a.seedOf + mix))).1.bytes else bad fFormat
  | _, _ => bad fFormat

/-- What the operation makes of the chunk: the member's sums and records, and the new data. -/
def collCombine (s : State) (c : Coll) (op mix off : Nat) (p : List Byte) : Chk (List Byte × Fl) :=
  let d := c.desc.toNat
  if (op = 1 ∨ op = 2) ∧ kFmt d ≤ 5 then
    match s.collRead c off p.length with
    | .error e => .error e
    | .ok x => .ok (collAddBytes d p x)
  else if op = 4 ∧ kFmt d = 6 then
    match s.collRead c off p.length with
    | .error e => .error e
    | .ok x =>
      match collMergeBytes mix p x with
      | .error e => .error e
      | .ok l => .ok (l, 0)
  else if op = 3 ∨ op = 5 ∨ op = 6 then .ok (p, 0)
  else bad fIllegal

/-- A member works on a packet of its live collective. -/
def State.collWork (s : State) (o : CollPacket) (c : Coll) : State :=
  let d := c.desc.toNat
  let h := o.hdr.toNat
  let op := routeOp (pRoute h)
  let route := routeNext (pRoute h)
  let hop := pHop h + 1
  let (m, j) := kFrom d hop (pSeg h)
  let off := (kChunk d m j).1
  let timed := kTw d != 0
  let slow := timed && decide (s.now > kT0 d + hop * kTw d)
  let told := timed && pTok h
  let c := { c with
    hops := c.hops + 1, skew := c.skew || slow || told, tok := c.tok || slow || told, code := if slow then fSkew else c.code }
  let s := if (op = 1 ∨ op = 2) ∧ kFmt d ≤ 5 ∨ op = 4 ∧ kFmt d = 6 then s.collMisses c false off o.data.length else s
  match collCombine s c op (pMix h) off o.data with
  | .error (e, _) => s.failColl o.fn c e
  | .ok (l, fl) =>
    let c := { c with flags := c.flags ||| fl }
    let s := if op = 2 ∨ op = 3 ∨ op = 5 then s.collMisses c true off l.length else s
    match (if op = 2 ∨ op = 3 ∨ op = 5 then s.collWrite o.fn c off l else .ok s) with
    | .error (e, _) => s.failColl o.fn c e
    | .ok s =>
      if op = 5 then s.putColl o.fn c
      else if route = 0 then s.failColl o.fn c fIllegal
      else
        let x : PortPacket :=
          ⟨.member, packHdr c.cid (bitsN h 16 9) (pMix h + b2n (op == 4)) hop (c.tok || pTok h) (pSeg h) route, l, 0⟩
        s.putColl o.fn { c with queue := c.queue ++ [x] }
/-- The packet at a member: without a live collective it is held or dropped. -/
def collArrive (ops : List Nat) (o : CollPacket) (s : State) : Out :=
  match s.collOf o.fn (pCid o.hdr.toNat) with
  | none => .next s
  | some c =>
    if ops.contains (routeOp (pRoute o.hdr.toNat)) && packetFits c.desc.toNat o then .next (s.collWork o c) else .next s
def execCollAdd (o : CollPacket) (s : State) : Out := collArrive [1] o s
def execCollAddw (o : CollPacket) (s : State) : Out := collArrive [2] o s
def execCollWfwd (o : CollPacket) (s : State) : Out := collArrive [3] o s
def execCollMrg (o : CollPacket) (s : State) : Out := collArrive [4] o s
def execCollCut (o : CollPacket) (s : State) : Out := collArrive [5] o s
/-- Packets forwarded unchanged, and those whose operation is reserved. -/
def execCollFwd (o : CollPacket) (s : State) : Out := collArrive [6, 0, 7] o s
/-- An abort packet ends this member's part and is forwarded once, also where the part has ended before, whose chunks it drops
too; a full port holds it back. -/
def execCollAbortPacket (o : CollPacket) (s : State) : Out :=
  let cid := pCid o.hdr.toNat
  match s.collOf o.fn cid with
  | some c => .next (s.abortColl o.fn c)
  | none =>
    match Sparse.get 0 (s.fn o.fn).past cid with
    | 0 => .next s
    | r + 1 =>
      let s := s.modFn o.fn (·.dropChunks cid)
      .next (((s.toPort o.fn (s.ringNext o.fn r) (abortPacket cid)).map fun s =>
        s.modFn o.fn fun fn => { fn with past := Sparse.set 0 fn.past cid 0 }).getD s)

/-! ### What a member sends (R419, R423) -/

/-- A packet of hop h may leave. -/
def collDue (s : State) (c : Coll) (h : Nat) : Bool :=
  let d := c.desc.toNat
  kTw d == 0 || c.tok || decide (kT0 d + h * kTw d ≤ s.now)
/-- The next chunk that this member originates. -/
def State.collOriginate (s : State) (f : Nat) (c : Coll) : State :=
  let d := c.desc.toNat
  let (off, n) := kChunk d (kMidx d) c.sent
  let s := s.collMisses c false off n
  match s.collRead c off n with
  | .error (e, _) => s.failColl f c e
  | .ok l =>
    match s.toPort f (s.nextPort f c)
        ⟨.member, packHdr c.cid s.mgmt.dev 0 0 c.tok (kSegNo d (kMidx d) c.sent) (kRoute d), l, 0⟩ with
    | none => s
    | some s => s.putColl f { c with sent := c.sent + 1 }
/-- `COLL_SLOT_SEND`: an abort packet held, else the oldest packet to forward, else the next own chunk. -/
def execCollSlotSend (o : CollRef) (s : State) : Out :=
  if (s.fn o.fn).colls.any fun c => c.cid == o.cid && c.ended then .next (s.sendAbort o.fn o.cid)
  else
    match s.collOf o.fn o.cid with
    | none => .next s
    | some c =>
      match c.queue with
      | x :: rest =>
        if !collDue s c (pHop x.hdr.toNat) then .next s
        else
          (match s.toPort o.fn (s.nextPort o.fn c) { x with hdr := x.hdr ||| (if c.tok then 1 <<< 44 else 0) } with
          | none => .next s
          | some s => .next (s.putColl o.fn { c with queue := rest }))
      | [] => if c.sent < kOwn c.desc.toNat && collDue s c 0 then .next (s.collOriginate o.fn c) else .next s

/-- `COLL_MEMBER_DONE`: every packet has come, every own chunk and forward has gone; one exchange, then the status and
the raise. -/
def execCollMemberDone (o : CollRef) (s : State) : Out :=
  match s.collOf o.fn o.cid with
  | none => .next s
  | some c =>
    let d := c.desc.toNat
    if c.hops < kArrivals d || c.sent < kOwn d || !c.queue.isEmpty then .next s
    else if kSva d = 0 then .next (s.endColl o.fn c false)
    else
      match { s with cur := ⟨c.core, c.slot, .x⟩ }.exchange (c.agent o.fn) (kShadow d) with
      | .error (e, _) => .next (s.failColl o.fn c e)
      | .ok t => .next ({ t with cur := s.cur }.endColl o.fn c false)

/-! ### Sharing a port (R424) -/

/-- Flits of a packet. -/
def flits (x : PortPacket) : Nat := 1 + ceilDiv x.data.length 32
/-- Packets that a deficit lets go, and what is left of both. -/
def drrTake : List PortPacket → Nat → List PortPacket × Nat
  | [], _ => ([], 0)
  | x :: t, n => if flits x ≤ n then drrTake t (n - flits x) else (x :: t, n)
/-- The function that a port visits next: the first with a packet, in increasing order after the last. -/
def State.drrNext (s : State) (k : Nat) : Option Nat :=
  let fs := (List.range 129).filter fun f => !((s.fn f).port k).isEmpty
  let a := Sparse.get 0 s.portLast k
  (fs.find? fun f => decide (a ≤ f)).orElse fun _ => fs.head?
/-- The instructions of a function's tasks whose packets have left its ports complete, on a core that is not frozen (R108, R226,
R412). -/
def State.sentAll (s : State) (f : Nat) : State :=
  let ks := s.cores.flatMap fun (c, co) =>
    if co.frozen then [] else (co.slots.filter fun (_, sl) => sl.t.fn == f).map fun (k, _) => SlotId.mk c k
  ks.foldl State.sentDone s
def execDrrVisit (o : PortFn) (s : State) : Out :=
  if s.drrNext o.port ≠ some o.fn then .next s
  else
    let fn := s.fn o.fn
    let w := (match s.partOfFn o.fn with
      | some p => Sparse.get 0x10084 (s.part p).portDrr (32 * o.fn + o.port)
      | none => 0x10084).toNat
    let n := Sparse.get 0 fn.deficit o.port + bitsN w 0 16 * max 1 (bitsN w 16 8)
    let (l, n) := drrTake (fn.port o.port) n
    let s := s.putFn o.fn { fn with ports := Sparse.set [] fn.ports o.port l, deficit := Sparse.set 0 fn.deficit o.port n }
    .next ({ s with portLast := Sparse.set 0 s.portLast o.port (o.fn + 1) }.sentAll o.fn)

end Sys2Proof.Machine
end

