-- ==== Sys2Proof/Machine/Fold.lean ====
section
/-! DEFINITION. Bit-plane lines, element and scale values, plane truncation and the fold rule of the matrix
engine (R258 to R282). -/

namespace Sys2Proof.Machine

/-! ### Planes and codes -/

/-- Serial planes of a format (R258, R262, R264). -/
def serialPlanes (code : Nat) : Nat :=
  if code ≤ 9 then (ffmt code).mw + 1
  else if code = 0x12 ∨ code = 0x13 ∨ code = 0x14 then 1 else fmtWidth code

/-- The code of element i of a line of w-bit elements (R267): `rd a` is the 32-bit word at byte a of the
line. -/
def lineCode (rd : Nat → Nat) (w i : Nat) : Nat :=
  let base := 4 * w * (i / 32)
  (List.range w).foldl (fun v j => v + b2n (bitN (rd (base + 4 * j)) (i % 32)) * 2 ^ j) 0

/-- A serial code with the planes below the first p read as zero (R282). -/
def truncCode (code rd p x : Nat) : Nat :=
  let n := serialPlanes code
  if n ≤ p ∨ n = 1 then x
  else
    match (if code ≤ 9 then fdec code rd x else .fin false 0 0) with
    | .fin _ _ _ => x - x % 2 ^ (n - p)
    | _ => x

/-- M of R265. -/
def nq4 (i : Nat) : Nat := nth 0 [43, 130, 221, 318, 427, 558, 725, 1024] i
def nq3 (i : Nat) : Nat := nth 0 [98, 304, 552, 1024] i
/-- value() of R278; `book` holds a CB4 codebook, entry i at bits 16i. -/
def elemVal (code rd book x : Nat) : FVal :=
  if code ≤ 9 then fdec code rd x
  else if code = 0x15 then .fin (bitN x 3) (nq4 (x % 8)) (-10)
  else if code = 0x16 then .fin (bitN x 2) (nq3 (x % 4)) (-10)
  else if code = 0x17 then fdec 3 0 (bitsN book (16 * (x % 16)) 16)
  else let v := idec code x; .fin (decide (v < 0)) v.natAbs 0

/-! ### Folds (R277 to R280) -/

/-- Two values agree that an infinity of one sign stands among them. -/
def anyInf (neg : Bool) (ps : List FVal) : Bool := ps.any fun v => v.isInf && v.neg == neg
/-- The exponent of the leading bit of a finite non-zero value. -/
def leadExp : FVal → Option Int
  | .fin _ m e => if m = 0 then none else some ((Nat.log2 m : Int) + e)
  | _ => none
def maxOpt (a b : Option Int) : Option Int :=
  match a, b with
  | some x, some y => some (max x y)
  | none, y => y
  | x, none => x

/-- S of a fold before its scales, with its flags: W is the window. A NaN made here carries IV. -/
def foldSum (w : Nat) (ps : List FVal) : FVal × Fl :=
  if ps.any FVal.isNan then let sg := ps.any FVal.isSig; (.nan sg, flIf sg flIV)
  else if anyInf false ps && anyInf true ps then (.nan true, flIV)
  else if anyInf false ps then (.inf false, 0)
  else if anyInf true ps then (.inf true, 0)
  else
    match ps.foldl (fun a p => maxOpt a (leadExp p)) none with
    | none => (.fin false 0 0, 0)
    | some e =>
      let q : Int := e - (w : Int) + 1
      let term (p : FVal) : Int × Bool :=
        match p with
        | .fin n m x =>
          let d := x - q
          let (y, nx) := if d ≥ 0 then (m * 2 ^ d.toNat, false) else (m / 2 ^ (-d).toNat, decide (m % 2 ^ (-d).toNat ≠ 0))
          (if n then -(y : Int) else y, nx)
        | _ => (0, false)
      let ts := ps.map term
      let t : Int := (ts.map (·.1)).foldl (· + ·) 0
      (.fin (decide (t < 0)) t.natAbs q, flIf (ts.any (·.2)) flNX)

/-- acc ← fpround(acc + S) (R278, R279). -/
def foldFp (code : Nat) (ovf : Bool) (w : Nat) (sa sb : FVal) (ps : List FVal) (acc : Nat) : Nat × Fl :=
  let (s, fl) := foldSum w ps
  let (y, fl') := fpAddV code 0 ovf (fdec code 0 acc) (mulV (mulV s sa) sb)
  (y, fl ||| fl')

/-- An integer product. -/
def intOf : FVal → Int
  | .fin n m _ => if n then -(m : Int) else m
  | _ => 0
/-- acc ← acc + S, wrapping or saturating (R280). -/
def foldInt (bits : Nat) (ovf : Bool) (ps : List FVal) (acc : Nat) : Nat × Fl :=
  intToInt bits true ovf (sextN acc bits + (ps.map intOf).foldl (· + ·) 0)

/-- 1, where an operand has no scale. -/
def oneVal : FVal := .fin false 1 0
/-- The block scale of R270. -/
def scale2 (s2 q : Nat) : FVal := mulV (fdec 1 0 s2) (.fin false (q % 256 + 1) (-8))

end Sys2Proof.Machine
end

