-- ==== Sys2Proof/Machine/SparseIdx.lean ====
section
/-! DEFINITION. The sparse-index engine (R253 to R256). A command's unit is one appended offset; what it reads on
the way to the next offset is read with it. -/

namespace Sys2Proof.Machine

/-! ### The source tile (R255) -/

/-- Where an S command reads: core, byte address, bytes. -/
structure SrcTile where
  core : Nat
  at' : Nat
  bytes : Nat
/-- n bytes at offset o: F_POISON when poisoned. -/
def srcNat (s : State) (x : SrcTile) (o n : Nat) : Chk Nat :=
  if s.spPoisoned x.core (x.at' + o) n then bad fPoison else .ok (leNat (s.spRead x.core (x.at' + o) n))
def srcCount (s : State) (x : SrcTile) : Nat := leNat (s.spRead x.core x.at' 4)
def srcBase (s : State) (x : SrcTile) : Nat := leNat (s.spRead x.core (x.at' + 4) 4)
def sWidth (c : SCmd) : Nat := 2 ^ c.wid.toNat
/-- Bytes of the body. -/
def srcBody (cop : Nat) (c : SCmd) (count : Nat) : Nat :=
  match cop with
  | 1 => ceilDiv count 8
  | 2 => 2 * count * sWidth c
  | _ => count * sWidth c

/-- OBASE plus a position, if it fits. -/
def offsetOf (base pos : Nat) : Chk Nat := if base + pos ≥ 2 ^ 32 then bad fBound else .ok (base + pos)

/-- Set bits of an `SBMP` body: bit i stands next, `n` remain, j set bits come before the one sought. Answers its
position, or none at the end. -/
def sbmpFind (s : State) (x : SrcTile) : Nat → Nat → Nat → Chk (Option Nat)
  | 0, _, _ => .ok none
  | n + 1, i, j =>
    match srcNat s x (8 + i / 8) 1 with
    | .error e => .error e
    | .ok b =>
      if bitN b (i % 8) then (if j = 0 then .ok (some i) else sbmpFind s x n (i + 1) (j - 1))
      else sbmpFind s x n (i + 1) j
/-- The position of offset j of an `SRLE` body from pair i on, with p reached. -/
def srleFind (s : State) (x : SrcTile) (w : Nat) : Nat → Nat → Nat → Nat → Chk (Option Nat)
  | 0, _, _, _ => .ok none
  | n + 1, i, j, p =>
    match srcNat s x (8 + 2 * i * w) w, srcNat s x (8 + (2 * i + 1) * w) w with
    | .ok skip, .ok take => if j < take then .ok (some (p + skip + j)) else srleFind s x w n (i + 1) (j - take) (p + skip + take)
    | .error e, _ => .error e
    | _, .error e => .error e

/-- The header is readable and the body lies within the tile. -/
def srcChk (s : State) (x : SrcTile) (cop : Nat) (c : SCmd) : Chk Unit :=
  if x.bytes < 8 then bad fBound
  else if s.spPoisoned x.core x.at' 8 then bad fPoison
  else failIf (decide (x.bytes < 8 + srcBody cop c (srcCount s x))) fBound

/-- The position of offset j, or none when there is no such offset. -/
def srcPos (s : State) (x : SrcTile) (cop : Nat) (c : SCmd) (j : Nat) : Chk (Option Nat) :=
  match srcChk s x cop c with
  | .error e => .error e
  | .ok _ =>
    let n := srcCount s x
    match cop with
    | 1 => sbmpFind s x n 0 j
    | 2 => srleFind s x (sWidth c) n 0 j 0
    | _ =>
      if j ≥ n then .ok none
      else
        match srcNat s x (8 + j * sWidth c) (sWidth c) with
        | .error e => .error e
        | .ok v => .ok (some v)

/-! How far a body reaches, whatever of it is poisoned. -/

def srcByte (s : State) (x : SrcTile) (o n : Nat) : Nat := leNat (s.spRead x.core (x.at' + o) n)
/-- The positions of an `SBMP` body. -/
def sbmpBits (s : State) (x : SrcTile) : List Nat :=
  (List.range (srcCount s x)).filter fun i => bitN (srcByte s x (8 + i / 8) 1) (i % 8)
/-- The takes of an `SRLE` body. -/
def srleTakes (s : State) (x : SrcTile) (w : Nat) : List Nat :=
  (List.range (srcCount s x)).map fun i => srcByte s x (8 + (2 * i + 1) * w) w
/-- The pair that holds offset j. -/
def pairOf : List Nat → Nat → Nat → Nat
  | [], _, i => i
  | t :: ts, j, i => if j < t then i else pairOf ts (j - t) (i + 1)
/-- How many offsets there are; 1 when the first attempt faults. -/
def srcTotal (s : State) (x : SrcTile) (cop : Nat) (c : SCmd) : Nat :=
  match srcChk s x cop c with
  | .error _ => 1
  | .ok _ =>
    match cop with
    | 1 => (sbmpBits s x).length
    | 2 => (srleTakes s x (sWidth c)).foldl (· + ·) 0
    | _ => srcCount s x
/-- The source granule in which offset j is found: stops lie between granules (R256). -/
def srcGranule (s : State) (x : SrcTile) (cop : Nat) (c : SCmd) (j : Nat) : Nat :=
  match cop with
  | 1 => (8 + nth 0 (sbmpBits s x) j / 8) / 64
  | 2 => (8 + (2 * pairOf (srleTakes s x (sWidth c)) j 0 + 1) * sWidth c) / 64
  | _ => (8 + j * sWidth c) / 64

def Slot.oqOf (sl : Slot) (q : Nat) : List (BitVec 32) := Sparse.get [] sl.oq q
/-- Appends offset j. -/
def sieUnit (x : SrcTile) (cop : Nat) (c : SCmd) (s : State) (j : Nat) : UnitRes :=
  let q := c.oq.toNat
  (srcPos s x cop c j).unit fun p =>
    match p with
    | none => .ok s
    | some p =>
      if (s.me.oqOf q).length ≥ 512 then .stall s .queue
      else
        (offsetOf (srcBase s x) p).unit fun o =>
          .ok (s.modMe fun sl => { sl with oq := Sparse.set [] sl.oq q (sl.oqOf q ++ [BitVec.ofNat 32 o]) })

/-- The plan of an S command: after the last offset the rest of the body is read. -/
def sPlan (cop : Nat) (c : SCmd) (s : State) (h : HeadSt) : Plan :=
  let (cc, a) := opAt h 0
  let x : SrcTile := ⟨cc, a, (s.opSize h.ops 0).getD 0⟩
  let n := srcTotal s x cop c
  ⟨n, fun j => srcGranule s x cop c j != srcGranule s x cop c (j - 1), sieUnit x cop c,
    fun s => (srcPos s x cop c n).unit fun _ => .ok s, false⟩

def sRun (cop : Nat) (c : SCmd) (s : State) : Out := .next (headWork .s true (sPlan cop c) s)
/-- The SIE's holder works to the end of its next source granule. -/
def execSieGranule (o : SlotId) (s : State) : Out :=
  let w := (s.ringAt o.core o.slot .s).headBits .s
  if (s.core o.core).sie.holder = some o.slot ∧ !(s.core o.core).frozen then
    .next (s.withCur ⟨o.core, o.slot, .s⟩ (headWork .s false (sPlan (copOf w) (sOf w))))
  else .next s
def execSbmp (c : SCmd) (s : State) : Out := sRun 1 c s
def execSrle (c : SCmd) (s : State) : Out := sRun 2 c s
def execSidx (c : SCmd) (s : State) : Out := sRun 3 c s

/-- The checks of an S command decided to run: its handle, then its tile (R213). -/
def sCheck (s : State) (c : SCmd) (ops : List (Option OpRef)) : Chk (BitVec 1024) :=
  match handleChk s.me [opTile c.src false] with
  | .error e => .error e
  | .ok _ => if s.opTilesOk false [opTile c.src false] ops then .ok 0 else bad fTilestate

end Sys2Proof.Machine
end

