-- ==== Sys2Proof/Machine/Special.lean ====
section
/-! DEFINITION. The special functions of R317 and R318. The manual bounds each result by 1 or 2 ulp of the true
value and does not say which value within the bound is delivered: a true value is enclosed between two rationals in
integer arithmetic, the values of the format within the bound are listed, and the free value `ulpChoice` takes one
(notes/assumptions/3.md). -/

namespace Sys2Proof.Machine

/-! ### Constants and series, scaled by 2^p -/

/-- Σ ± z^(2k+1) ÷ (2k+1), k from 0, of the reciprocal z = 1 ÷ d: atan (alt) or atanh. -/
def recipSeries (alt : Bool) (p d : Nat) : Nat → Nat → Int
  | 0, _ => 0
  | n + 1, k =>
    let t : Int := (2 ^ p / (d ^ (2 * k + 1) * (2 * k + 1)) : Nat)
    (if alt && k % 2 == 1 then -t else t) + recipSeries alt p d n (k + 1)
/-- π ÷ 2 at 2^420 (Machin), and ln 2 at 2^128. -/
def halfPi : Nat := (2 * (4 * recipSeries true 440 5 96 0 - recipSeries true 440 239 30 0) / 2 ^ 20).toNat
def ln2 : Nat := (2 * recipSeries false 148 3 48 0 / 2 ^ 20).toNat

/-- Σ t × x^k ÷ (k × (k+1) …): the exponential series from term t of order k. -/
def expSeries (p x : Nat) : Nat → Nat → Nat → Nat
  | 0, _, _ => 0
  | n + 1, t, k => t + expSeries p x n (t * x / 2 ^ p / (k + 1)) (k + 1)
/-- e^x of 0 ≤ x < 1, at 2^128. -/
def expFrac (x : Nat) : Nat := expSeries 128 x 48 (2 ^ 128) 0
/-- Alternating series in x²: term t of order k, next t × x² ÷ ((k+1)(k+2)). -/
def trigSeries (p x : Nat) : Nat → Int → Nat → Int
  | 0, _, _ => 0
  | n + 1, t, k => t + trigSeries p x n (-(t * (x : Int) / 2 ^ p * (x : Int) / 2 ^ p) / ((k + 1) * (k + 2) : Nat)) (k + 2)
/-- Σ z^(2k+1) ÷ (2k+1) of a fraction z at 2^128. -/
def atanhSeries (z : Nat) : Nat → Nat → Nat → Nat
  | 0, _, _ => 0
  | n + 1, t, k => t / (2 * k + 1) + atanhSeries z n (t * z / 2 ^ 128 * z / 2 ^ 128) (k + 1)
/-- ln x of 1 ≤ x < 2 at 2^128. -/
def lnMant (x : Nat) : Nat :=
  let z := (x - 2 ^ 128) * 2 ^ 128 / (x + 2 ^ 128)
  2 * atanhSeries z 48 z 0

/-! ### Enclosures -/

/-- The magnitude lies between lo × 2^e and hi × 2^e. -/
structure Encl where
  neg : Bool
  lo : Nat
  hi : Nat
  e : Int

/-- A value at 2^−128 with its error. -/
def near (neg : Bool) (v : Nat) (e : Int) : Encl := ⟨neg, v - 2 ^ 24, v + 2 ^ 24, e⟩
/-- m × 2^e at 2^−p, rounded down. -/
def scaled (m : Nat) (e : Int) (p : Nat) : Nat :=
  if e + p ≥ 0 then m * 2 ^ (e + p).toNat else m / 2 ^ (-(e + p)).toNat
/-- m × 2^e is at least 2^n. -/
def atLeast (m : Nat) (e : Int) (n : Int) : Bool := decide (m ≠ 0 ∧ n ≤ (Nat.log2 m : Int) + e)

def enclRcp (neg : Bool) (m : Nat) (e : Int) : Encl :=
  let k := Nat.log2 m + 128
  ⟨neg, 2 ^ k / m, 2 ^ k / m + 1, -(k : Int) - e⟩
def enclRsq (m : Nat) (e : Int) : Encl :=
  let m := if e % 2 = 0 then m else 2 * m
  let e := if e % 2 = 0 then e else e - 1
  let k := Nat.log2 m / 2 + 128
  let r := isqrt (2 ^ (2 * k) / m)
  ⟨false, r, r + 1, -(k : Int) - e / 2⟩
/-- 2^(±x) of x > 0 at 2^−128, rounded down: a negative x that rounds to 0 gives a value just below 1. -/
def encl2 (neg : Bool) (x : Nat) : Encl :=
  if neg && x == 0 then ⟨false, 2 ^ 128 - 1, 2 ^ 128, -128⟩ else
  let k : Int := if neg then -((x + 2 ^ 128 - 1) / 2 ^ 128 : Nat) else (x / 2 ^ 128 : Nat)
  let f : Nat := ((if neg then -(x : Int) else (x : Int)) - k * 2 ^ 128).toNat
  -- 2^k ≤ the value < 2^(k+1)
  let v := expFrac (f * ln2 / 2 ^ 128)
  ⟨false, max (v - 2 ^ 24) (2 ^ 128), min (v + 2 ^ 24) (2 ^ 129), k - 128⟩
/-- 2^±(m × 2^e): far arguments are held at ±2^12, beyond every format. -/
def enclExp2 (neg : Bool) (m : Nat) (e : Int) : Encl :=
  encl2 neg (if atLeast m e 12 then 2 ^ 140 else scaled m e 128)
/-- e^±(m × 2^e), held likewise. -/
def enclExp (neg : Bool) (m : Nat) (e : Int) : Encl :=
  encl2 neg ((if atLeast m e 11 then 2 ^ 139 else scaled m e 128) * 2 ^ 128 / ln2)
def enclLog2 (m : Nat) (e : Int) : Encl :=
  let k := (Nat.log2 m : Int) + e
  let x := m * 2 ^ 128 / 2 ^ Nat.log2 m
  let v : Int := k * 2 ^ 128 + (lnMant x * 2 ^ 128 / ln2 : Nat)
  near (decide (v < 0)) v.natAbs (-128)
/-- A function that is a × (1 − δ), δ below 2^−40, for small a. -/
def enclSmall (neg : Bool) (m : Nat) (e : Int) : Encl := ⟨neg, m * 2 ^ 64 - m * 2 ^ 24, m * 2 ^ 64, e - 64⟩
/-- The sine (quarter 0) or cosine (quarter 1) of ±a: the quadrant by exact reduction, then the series. -/
def enclTrig (quarter : Nat) (neg : Bool) (m : Nat) (e : Int) : Encl :=
  if quarter = 0 && !atLeast m e (-20) then enclSmall neg m e
  else
    let a := scaled m e 420
    let n := a / halfPi + quarter
    let r := a % halfPi / 2 ^ 164
    let v := if n % 2 = 0 then trigSeries 256 r 48 r 1 else trigSeries 256 r 48 (2 ^ 256) 0
    let w := v.toNat
    ⟨(quarter == 0 && neg) ^^ decide (n % 4 ≥ 2), w - 2 ^ 24, w + 2 ^ 24, -256⟩
/-- F ÷ (1 + F) of an enclosed F = e^a: the logistic function. -/
def enclSigm (neg : Bool) (m : Nat) (e : Int) : Encl :=
  let x := enclExp true m e
  -- E = e^−|a|, at 2^(x.e); 1 ÷ (1 + E), or E ÷ (1 + E) for negative a
  let one := 2 ^ (-x.e).toNat
  if neg then ⟨false, x.lo * 2 ^ 128 / (one + x.lo), x.hi * 2 ^ 128 / (one + x.hi) + 1, -128⟩
  else ⟨false, max (2 ^ 127) (one * 2 ^ 128 / (one + x.hi)), one * 2 ^ 128 / (one + x.lo) + 1, -128⟩
/-- The logistic function of a large negative a is e^a to within e^a. -/
def enclSigmFar (m : Nat) (e : Int) : Encl :=
  let x := enclExp true m e
  { x with lo := x.lo - x.lo / 2 ^ 40 }
def enclTanh (neg : Bool) (m : Nat) (e : Int) : Encl :=
  if !atLeast m e (-20) then enclSmall neg m e
  else
    let x := enclExp true m (e + 1)
    let one := 2 ^ (-x.e).toNat
    ⟨neg, (one - x.hi) * 2 ^ 128 / (one + x.hi), (one - x.lo) * 2 ^ 128 / (one + x.lo) + 1, -128⟩

/-! ### The values within the bound -/

/-- a ≤ b of m × 2^e. -/
def magLe (m1 : Nat) (e1 : Int) (m2 : Nat) (e2 : Int) : Bool := !magGt m1 e1 m2 e2
/-- The format's magnitudes that are within k ulp of every value of an enclosure, as multiples of half an ulp; those not in
the format are left out. -/
def ulpCandidates (f : FFmt) (k : Nat) (x : Encl) : List (Nat × Int) :=
  let b := (Nat.log2 (max 1 x.lo) : Int) + x.e
  let q := max (b - f.mw) f.qmin - 1
  -- the enclosure in multiples of 2^q
  let lo := if x.e ≥ q then x.lo * 2 ^ (x.e - q).toNat else x.lo / 2 ^ (q - x.e).toNat
  let hi := if x.e ≥ q then x.hi * 2 ^ (x.e - q).toNat else ceilDiv x.hi (2 ^ (q - x.e).toNat)
  let ok (j : Nat) : Bool :=
    let qj := max ((Nat.log2 (max 1 j) : Int) + q - f.mw) f.qmin
    j == 0 || decide (j % 2 ^ (qj - q).toNat = 0)
  ((rangeFrom (hi - 2 * k) (lo + 2 * k + 1 - (hi - 2 * k))).filter ok).map fun j => (j, q)

/-- A result from an enclosure: the one that `pick` takes. Overflow when the true value exceeds MAX; UF below the
smallest normal magnitude; `sub`: a true value below it is delivered as a subnormal (R318). -/
def ulpResult (code k pick : Nat) (ovf sub : Bool) (x : Encl) : Nat × Fl :=
  let f := ffmt code
  let (mm, me) := match fdec code 2 (f.maxCode 0) with
    | .fin _ m e => (m, e)
    | _ => (0, 0)
  let tooBig : Nat × Fl :=
    if ovf then (f.sign x.neg + f.maxCode 0, flOF ||| flSC ||| flNX) else (f.inf x.neg, flOF ||| flNX)
  let fin : List (Nat × Fl) :=
    if magGt x.lo x.e mm me then []
    else
      let tiny (j : Nat) (q : Int) : Bool := magGt 1 (1 - (f.bias : Int)) j q
      ((ulpCandidates f k x).filter fun (j, q) => magLe j q mm me && !(sub && tiny x.lo x.e && !tiny j q)).map fun (j, q) =>
        (f.enc x.neg j q, flNX ||| flIf (tiny j q) flUF)
  let all := fin ++ (if magGt x.hi x.e mm me then [tooBig] else [])
  nth tooBig all (pick % max 1 all.length)

/-- The bound of R317. -/
def ulpBound (fn code : Nat) : Nat := if 2 ≤ fn ∧ code = 1 then 2 else 1

/-- ∞ with DZ. -/
def dzInf (f : FFmt) (neg ovf : Bool) : Nat × Fl :=
  if ovf then (f.sign neg + f.maxCode 0, flDZ ||| flSC) else (f.inf neg, flDZ)
/-- n is a power of two. -/
def isPow2 (n : Nat) : Bool := n != 0 && n == 2 ^ Nat.log2 n

/-- A special function (R317, R318): fn 0 VRCP, 1 VRSQ, 2 VEXP2, 3 VLOG2, 4 VSIN, 5 VCOS, 6 VSIGM, 7 VTANH. -/
def specialFn (fn code : Nat) (ovf : Bool) (a : Nat) : Nat × Fl :=
  let f := ffmt code
  let nan : Nat × Fl := (f.nan 0, flIV)
  let exact (neg : Bool) (m : Nat) (e : Int) : Nat × Fl := (f.enc neg m e, 0)
  let res (x : Encl) : Nat × Fl :=
    ulpResult code (ulpBound fn code) (Config.ulpChoice fn code (a % 2 ^ f.width)) ovf (fn == 0) x
  match fdec code 0 a with
  | .nan sig => (f.nan 0, flIf sig flIV)
  | .inf n =>
    (match fn with
    | 0 => (f.sign n, 0)
    | 1 => if n then nan else (f.sign false, 0)
    | 2 => if n then (f.sign false, 0) else (f.inf false, 0)
    | 3 => if n then nan else (f.inf false, 0)
    | 4 | 5 => nan
    | 6 => if n then (f.sign false, 0) else exact false 1 0
    | _ => exact n 1 0)
  | .fin n m e =>
    let k := (Nat.log2 m : Int) + e
    if m = 0 then
      (match fn with
      | 0 | 1 => dzInf f n ovf
      | 2 => exact false 1 0
      | 3 => dzInf f true ovf
      | 4 | 7 => (f.sign n, 0)
      | 5 => exact false 1 0
      | _ => exact false 1 (-1))
    else
      match fn with
      | 0 => if isPow2 m && decide (1 - (f.bias : Int) ≤ -k ∧ -k ≤ f.bias) then exact n 1 (-k) else res (enclRcp n m e)
      | 1 =>
        if n then nan
        else if isPow2 m && decide (k % 2 = 0) then exact false 1 (-(k / 2)) else res (enclRsq m e)
      | 2 =>
        let whole := decide (e ≥ 0) || decide (m % 2 ^ (-e).toNat = 0)
        let v : Int := if atLeast m e 12 then 4096 else scaled m e 0
        let v := if n then -v else v
        if whole && decide (1 - (f.bias : Int) ≤ v ∧ v ≤ f.bias) then exact false 1 v else res (enclExp2 n m e)
      | 3 =>
        if n then nan
        else if isPow2 m then exact (decide (k < 0)) k.natAbs 0 else res (enclLog2 m e)
      | 4 => res (enclTrig 0 n m e)
      | 5 => res (enclTrig 1 n m e)
      | 6 => res (if n && atLeast m e 6 then enclSigmFar m e else enclSigm n m e)
      | _ => res (enclTanh n m e)

end Sys2Proof.Machine
end

