-- ==== Sys2Proof/Machine/VecOps.lean ====
section
/-! DEFINITION. Elements of vector registers and masks, and the shapes in which element-wise instructions of the V
stream act (R44, R304 to R306). Poison of a register word that an active element reads raises F_POISON (R226). -/

namespace Sys2Proof.Machine

/-- Element i of a register's contents, eb bytes wide. -/
def vElem (v eb i : Nat) : Nat := bitsN v (8 * eb * i) (8 * eb)
/-- Elements packed, the first lowest. -/
def packE (w : Nat) : List Nat → Nat
  | [] => 0
  | x :: t => x % 2 ^ w + 2 ^ w * packE w t
/-- Element i is active (R55). -/
def Slot.active (sl : Slot) (pr : Pred) (i : Nat) : Bool := (sl.mr pr.p.toNat).getLsbD i ^^ pr.pn
/-- An active element of V[r] reads a poisoned word. -/
def Slot.readsPoison (sl : Slot) (r eb n : Nat) (act : Nat → Bool) : Bool :=
  !sl.vpoison.isEmpty && (List.range n).any fun i => act i && sl.vpoisoned r (eb * i) eb
/-- scal(V[r]). -/
def Slot.scal (sl : Slot) (r : Nat) : Nat := VWord.nat (sl.vr r) 0 8

/-- Elements 0 to n − 1 of V[d] receive values; a word wholly made of `new` elements loses its poison. -/
def Slot.putElems (sl : Slot) (d eb : Nat) (vals : List Nat) (new : Nat → Bool) : Slot :=
  let n := vals.length
  let v := BitVec.ofNat 32768 (setBitsN (sl.vr d).toNat 0 (8 * eb * n) (packE (8 * eb) vals))
  let k := 8 / eb
  let whole (w : Nat) : Bool := (List.range k).all fun i => decide (k * w + i < n) && new (k * w + i)
  { sl.setV d v with vpoison := sl.vpoison.filter fun p => !(p / 512 == d && whole (p % 512)) }
/-- Bits 0 to n − 1 of M[d] receive values, higher bits are zero. -/
def Slot.putMask (sl : Slot) (d : Nat) (bits : List Bool) : Slot :=
  sl.setM d (BitVec.ofNat 4096 (packE 1 (bits.map b2n)))

def orFl (l : List Fl) : Fl := l.foldl (· ||| ·) 0

/-- V[d] ← f(i) in active elements, with the flags of those elements; `srcs` are the registers read. -/
def vmap (pr : Pred) (len : Nat) (chk : Slot → Chk Unit) (srcs : List Reg) (d : Reg)
    (f : Slot → Nat → Nat → Nat × Fl) : State → Out :=
  instr pr len fun s =>
    let sl := s.me
    let n := sl.n
    let eb := sl.eb
    let act := sl.active pr
    (chk sl).then fun _ =>
      if srcs.any fun r => sl.readsPoison r.toNat eb n act then .trap fPoison 0
      else
        let old := (sl.vr d.toNat).toNat
        let rs := (List.range n).map fun i => if act i then f sl eb i else (vElem old eb i, 0)
        .done ((s.putMe (sl.putElems d.toNat eb (rs.map (·.1)) act)).orFlags (orFl (rs.map (·.2))))

/-- M[d] bit i ← f(i) in active elements. -/
def vcmp (pr : Pred) (chk : Slot → Chk Unit) (a b : Reg) (d : PReg) (f : Nat → Nat → Nat → Bool × Fl) : State → Out :=
  instr pr 8 fun s =>
    let sl := s.me
    let n := sl.n
    let eb := sl.eb
    let act := sl.active pr
    (chk sl).then fun _ =>
      if sl.readsPoison a.toNat eb n act || sl.readsPoison b.toNat eb n act then .trap fPoison 0
      else
        let x := (sl.vr a.toNat).toNat
        let y := (sl.vr b.toNat).toNat
        let old := sl.mr d.toNat
        let rs := (List.range n).map fun i =>
          if act i then f eb (vElem x eb i) (vElem y eb i) else (old.getLsbD i, 0)
        .done ((s.putMe (sl.putMask d.toNat (rs.map (·.1)))).orFlags (orFl (rs.map (·.2))))

def noChk (_ : Slot) : Chk Unit := .ok ()
/-- A format of the width of an element (R305). -/
def fmtChk (fmt : BitVec 5) (sl : Slot) : Chk Unit := failIf (fmtWidth fmt.toNat != 8 * sl.eb) fIllegal

/-- A scalar result of the V stream: bytes 0 to 7 of V[d] (R306). -/
def vscal (s : State) (d : Reg) (v : Nat) : State := s.modMe fun sl => sl.putVDouble d.toNat v

end Sys2Proof.Machine
end

