-- ==== Sys2Proof/Machine/VecMem.lean ====
section
/-! DEFINITION. Instructions of the V stream that move elements between registers, tiles and the accumulator
store (R322 to R328). -/

namespace Sys2Proof.Machine

/-! ### Checks of an access to a tile (R323) -/

/-- Orders 4 and 5 for element bytes `adr i` of active elements, of a tile of `size` bytes. -/
def elemsIn (n eb size : Nat) (act : Nat → Bool) (adr : Nat → Nat) : Bool :=
  (List.range n).all fun i => !act i || decide (adr i + eb ≤ size)

/-- Loads active elements from tile (c, a): `align` is order 3, `more` what else order 5 asks. -/
def vload (pr : Pred) (d : Reg) (adr : Nat → Nat) (align more : Bool) (c a : Nat) (f : State → State) (s : State) : Res :=
  withRead s c a .tile fun s =>
    let sl := s.me
    let n := sl.n
    let eb := sl.eb
    let act := sl.active pr
    let t := s.tileAt c a
    if !align then .trap fAlign 0
    else if !elemsIn n eb t.bytes act adr then .trap fBound 0
    else if more || (List.range n).any fun i => act i && s.spPoisoned c (t.at + adr i) eb then .trap fPoison 0
    else
      let old := (sl.vr d.toNat).toNat
      let vals := (List.range n).map fun i =>
        if act i then leNat (s.spRead c (t.at + adr i) eb) else vElem old eb i
      .done (f (s.putMe (sl.putElems d.toNat eb vals act)))

/-- Words of 64 bits that aligned elements of `eb` bytes at `l` write whole lose their poison: the store writes all bytes
at once (R210, R226). -/
def Core.clearWhole (co : Core) (eb : Nat) (l : List Nat) : Core :=
  { co with scratchPoison := co.scratchPoison.filter fun w => !(List.range (8 / eb)).all fun j => l.contains (8 * w + j * eb) }
/-- Stores active elements of V[b] into tile (c, a), the highest element number last. -/
def vstore (pr : Pred) (b : Reg) (adr : Nat → Nat) (align more : Bool) (c a : Nat) (s : State) : Res :=
  let sl := s.me
  let n := sl.n
  let eb := sl.eb
  let act := sl.active pr
  let t := s.tileAt c a
  let chk : Chk Unit :=
    if !align then bad fAlign
    else if !elemsIn n eb t.bytes act adr then bad fBound
    else failIf (more || sl.readsPoison b.toNat eb n act) fPoison
  let x := (sl.vr b.toNat).toNat
  if t.shd && t.sealed then chk.then fun _ => .done s
  else
    withStore s c a true fun s at' =>
      match chk with
      | .error e => .error e
      | .ok _ =>
        .ok (((List.range n).foldl (fun s i =>
            if act i then s.spWrite c (at' + adr i) (natLe eb (vElem x eb i)) else s) s).modCore c fun co =>
              co.clearWhole eb (((List.range n).filter act).map fun i => at' + adr i))

/-! ### `VLD` and `VST` (R322) -/

/-- o and st: from V[a] in the .X form, the row stride dense when it is zero. -/
def vldArgs (sl : Slot) (a : Option Reg) (off : Option (BitVec 32)) : Nat × Nat :=
  let w (lo : Nat) : Nat := match a with | some r => VWord.nat (sl.vr r.toNat) lo 4 | none => 0
  let st := w 4
  ((w 0 + (off.getD 0).toNat) % 2 ^ 32, if st = 0 then vCols sl.vshape * sl.eb else st)
/-- Where element i lies. -/
def vldAddr (sl : Slot) (o st i : Nat) : Nat :=
  let cols := vCols sl.vshape
  o + i / cols * st + i % cols * sl.eb
def vldAlign (sl : Slot) (o st : Nat) : Bool := o % sl.eb == 0 && st % sl.eb == 0
def argPoison (sl : Slot) (a : Option Reg) : Bool :=
  match a with | some r => sl.vpoisoned r.toNat 0 8 | none => false

def vldForm (pr : Pred) (d : Reg) (a : Option Reg) (top : BitVec 12) (off : Option (BitVec 32)) : State → Out :=
  instr pr (optLen off) fun s => withPlace s top false fun c t =>
    let (o, st) := vldArgs s.me a off
    vload pr d (vldAddr s.me o st) (vldAlign s.me o st) (argPoison s.me a) c t id s
def vstForm (pr : Pred) (b : Reg) (a : Option Reg) (top : BitVec 12) (off : Option (BitVec 32)) : State → Out :=
  instr pr (optLen off) fun s => withPlace s top true fun c t =>
    let (o, st) := vldArgs s.me a off
    vstore pr b (vldAddr s.me o st) (vldAlign s.me o st) (argPoison s.me a) c t s
def execVld (o : VldOp) : State → Out := vldForm o.pr o.d none o.top o.off
def execVldX (o : VldXOp) : State → Out := vldForm o.pr o.d (some o.a) o.top o.off
def execVst (o : VstOp) : State → Out := vstForm o.pr o.b none o.top o.off
def execVstX (o : VstXOp) : State → Out := vstForm o.pr o.b (some o.a) o.top o.off

/-! ### `VGATH` and `VSCAT` (R324, R325) -/

def execVgath (o : VgathOp) : State → Out :=
  instr o.pr 8 fun s => withPlace s o.top false fun c t =>
    let sl := s.me
    let x := (sl.vr o.b.toNat).toNat
    vload o.pr o.d (fun i => vElem x sl.eb i * sl.eb) true (sl.readsPoison o.b.toNat sl.eb sl.n (sl.active o.pr)) c t id s

/-- Active elements before element i. -/
def activeBefore (act : Nat → Bool) (i : Nat) : Nat := ((List.range i).filter act).length
/-- Offsets are popped when the instruction completes. -/
def execVgathQ (o : VgathOp) : State → Out :=
  instr o.pr 8 fun s => withPlace s o.top false fun c t =>
    let sl := s.me
    let act := sl.active o.pr
    let q := o.b.toNat
    let offs := Sparse.get [] sl.oq q
    let k := activeBefore act sl.n
    if offs.length < k then .wait s .queue
    else
      let pop (s : State) : State := s.modMe fun sl =>
        { sl with
          oq := Sparse.set [] sl.oq q ((Sparse.get [] sl.oq q).drop k)
          oqPoison := Sparse.set [] sl.oqPoison q (((Sparse.get [] sl.oqPoison q).filter (k ≤ ·)).map (· - k)) }
      let bad := (Sparse.get [] sl.oqPoison q).any (· < k)
      vload o.pr o.d (fun i => (nth 0 offs (activeBefore act i)).toNat * sl.eb) true bad c t pop s
def execVscat (o : VscatOp) : State → Out :=
  instr o.pr 8 fun s => withPlace s o.top true fun c t =>
    let sl := s.me
    let x := (sl.vr o.a.toNat).toNat
    vstore o.pr o.b (fun i => vElem x sl.eb i * sl.eb) true (sl.readsPoison o.a.toNat sl.eb sl.n (sl.active o.pr)) c t s

/-! ### `VACLD` and `VACST` (R326, R327) -/

/-- Byte address in the accumulator store of register element i. -/
def vacAddr (s : State) (o : VacOp) (v : View) (i : Nat) : Nat :=
  let cols := vCols s.me.vshape
  v.addr s.cur.slot o.afmt.toNat (o.r0.toNat + i / cols) (8 * o.cg.toNat + i % cols)
/-- Orders 1 and 2 of R326. -/
def vacCheck (sl : Slot) (o : VacOp) : Chk View :=
  let w := sl.view o.view.toNat
  let v := viewOf w
  if !viewOk w || decide (v.mr < o.r0.toNat + vRows sl.vshape ∨ v.nc o.afmt.toNat < 8 * o.cg.toNat + vCols sl.vshape) then
    bad fBound
  else if decide (o.afmt.toNat < 2) && fmtWidth o.fmt.toNat != 8 * sl.eb then bad fIllegal
  else .ok v
/-- The format code of a floating-point accumulator. -/
def accFmt (afmt : Nat) : Nat := if afmt = 0 then 1 else 0

def execVacld (o : VacOp) : State → Out :=
  instr o.pr 8 fun s => (vacCheck s.me o).then fun v =>
    let sl := s.me
    let n := sl.n
    let eb := sl.eb
    let act := sl.active o.pr
    let co := s.core s.cur.core
    let ab := accBytes o.afmt.toNat
    if (List.range n).any fun i => act i && poisoned co.acsPoison 8 (vacAddr s o v i) ab then .trap fPoison 0
    else
      let old := (sl.vr o.r.toNat).toNat
      let rs := (List.range n).map fun i =>
        if act i then
          let x := co.acs.nat (vacAddr s o v i) ab
          if o.afmt.toNat < 2 then fpCvt o.fmt.toNat 0 o.rm.toNat o.ovf (fdec (accFmt o.afmt.toNat) 0 x)
          else intToInt (8 * eb) true o.ovf (sextN x (8 * ab))
        else (vElem old eb i, 0)
      .done ((s.putMe (sl.putElems o.r.toNat eb (rs.map (·.1)) act)).orFlags (orFl (rs.map (·.2))))

/-- A word both of whose halves were written loses its poison. -/
def clearHalves (l : List Nat) (adrs : List Nat) : List Nat :=
  l.filter fun w => !(adrs.contains (8 * w) && adrs.contains (8 * w + 4))
/-- The slot's M command is running, and the element at an address of the accumulator store holds what a step of its pass has
left. -/
def Slot.mWrites (sl : Slot) (k a : Nat) : Bool :=
  let w := sl.mring.headBits .m
  let c := mmaOf w
  let h := sl.mring.head
  h.phase == .active && (copOf w == 1 || copOf w == 2) && (viewOf (sl.view c.accv.toNat)).holds k a
    && decide (2 ≤ h.prog % passUnits (sl.nestRows c.nset.toNat c.nl.toNat))
/-- A store to an element that a running M command also writes falls within its last step, and leaves the step's result
computed from the old value; or it comes after that step and before the next (R328; notes/assumptions/43.md). -/
def Slot.vacstLost (sl : Slot) (k a : Nat) : Bool :=
  let q := sl.mring
  sl.mWrites k a && Config.vacstLost sl.t.runStart (q.cmdNo .m 0) q.head.prog a
/-- `VACST` (R327, R328). -/
def execVacst (o : VacOp) : State → Out :=
  instr o.pr 8 fun s => (vacCheck s.me o).then fun v =>
    let sl := s.me
    let n := sl.n
    let eb := sl.eb
    let act := sl.active o.pr
    let ab := accBytes o.afmt.toNat
    if sl.readsPoison o.r.toNat eb n act then .trap fPoison 0
    else
      let x := (sl.vr o.r.toNat).toNat
      let lost (i : Nat) : Bool := sl.vacstLost s.cur.slot (vacAddr s o v i)
      let all := ((List.range n).filter act).map fun i =>
        let e := vElem x eb i
        let r := if o.afmt.toNat < 2 then fpCvt (accFmt o.afmt.toNat) 0 o.rm.toNat o.ovf (fdec o.fmt.toNat 0 e)
          else intToInt (8 * ab) true o.ovf (sextN e (8 * eb))
        (i, vacAddr s o v i, r.1, r.2)
      let rs := (all.filter fun r => !lost r.1).map (·.2)
      .done ((s.modCore s.cur.core fun co =>
        let co := rs.foldl (fun (co : Core) (r : Nat × Nat × Fl) => co.awrite r.1 (natLe ab r.2.1)) co
        { co with acsPoison := clearHalves co.acsPoison (rs.map (·.1)) }).wrote.orFlags (orFl (all.map (·.2.2.2))))

end Sys2Proof.Machine
end

