-- ==== Sys2Proof/Machine/Matrix.lean ====
section
/-! DEFINITION. The matrix engine (R285 to R302): the checks of a command that starts to run, a step of `MMA` and
`MMAS`, vintages, and the accumulator commands. -/

namespace Sys2Proof.Machine

/-! ### A command's registers -/

/-- What an `MMA` or `MMAS` reads beside its tiles: its own fields, nest rows and stream registers. -/
structure MmaRegs where
  c : MmaCmd
  s2 : Bool
  rows : List Word
  ga : GReg
  gb : GReg
  view : BitVec 32
def mmaRegs (sl : Slot) (w : BitVec 128) : MmaRegs :=
  let c := mmaOf w
  ⟨c, copOf w == 2, sl.nestRows c.nset.toNat c.nl.toNat, sl.greg c.gs.toNat, sl.greg c.gb.toNat, sl.view c.accv.toNat⟩
def MmaRegs.ks (m : MmaRegs) : Nat := m.c.ks.toNat + 1
def MmaRegs.steps (m : MmaRegs) : Nat := nestSteps m.rows
/-- BOUND of the C level; 1 without one. -/
def MmaRegs.coopN (m : MmaRegs) : Nat :=
  match m.rows with
  | r :: _ => if nKind r = 1 then nBound r else 1
  | [] => 1
def MmaRegs.mr (m : MmaRegs) : Nat := (viewOf m.view).mr
def MmaRegs.nc (m : MmaRegs) : Nat := (viewOf m.view).nc m.c.afmt.toNat
/-- V: the passes (R297). -/
def MmaRegs.passes (m : MmaRegs) : Nat :=
  if m.c.pv = 0 then 1 else ceilDiv (serialPlanes (gFmt m.ga)) m.c.pv.toNat
/-- Stored elements of a broadcast line of one step. -/
def MmaRegs.stored (m : MmaRegs) : Nat := if m.s2 then m.ks / 2 else m.ks

/-! ### Co-operative groups: places (R1, R296) -/

/-- The cores of the group of a core, in position order: global core number 48 × die + 8 × row + column. -/
def groupCores (c n : Nat) : List Nat := if n ≤ 1 then [c] else rangeFrom (c - c % 8 % n) n
def groupPos (c n : Nat) : Nat := c % 8 % n
/-- Whether the member reads the serial operand itself. -/
def MmaRegs.readsSerial (m : MmaRegs) (core : Nat) : Bool := groupPos core m.coopN == 0

/-! ### Tile operands -/

def gOps (g : GReg) : List OpSpec :=
  opTile (gTop g) false :: (if gSkind g = 0 then [] else [opTile (gStop g) false])
def mmaOps (m : MmaRegs) (core : Nat) : List OpSpec :=
  (if m.readsSerial core then gOps m.ga else []) ++ gOps m.gb ++ (if m.c.pv = 0 then [] else [opTile m.c.vt true])
/-- Index of the broadcast tile, its scales next, among the operands. -/
def mmaBIdx (m : MmaRegs) (core : Nat) : Nat := if m.readsSerial core then (gOps m.ga).length else 0
def mmaVIdx (m : MmaRegs) (core : Nat) : Nat := mmaBIdx m core + (gOps m.gb).length

/-! ### Lines (R285) -/

/-- Byte offset of line l at nest indices idx. -/
def lineAt (g : GReg) (idx : List Nat) (l : Nat) : Int :=
  ((gOff g + (if gFmt g = 0x17 then 32 else 0) + l * gLstr g : Nat) : Int)
    + ((List.range idx.length).map fun k => ((nth 0 idx k : Nat) : Int) * gStr g k).foldl (· + ·) 0
/-- The nest indices of step p at position j; the serial operand is member 0's. -/
def nestIdx (rows : List Word) (p j : Nat) : List Nat :=
  match rows, stepIdx rows p with
  | r :: _, _ :: t => (if nKind r = 1 then j else nth 0 (stepIdx rows p) 0) :: t
  | _, l => l
/-- Bytes of n elements of a line. -/
def lineBytes (w n : Nat) : Nat := ceilDiv n 32 * (4 * w)
/-- The least start and the greatest end of the lines of all steps. -/
def lineSpan (g : GReg) (rows : List Word) (j lines n : Nat) : Int × Int :=
  let z := (List.range rows.length).foldl (fun (acc : Int × Int) k =>
    let r := nth 0 rows k
    let x : Int := gStr g k
    if nKind r = 1 then (acc.1 + (j : Int) * x, acc.2 + (j : Int) * x)
    else
      let y := ((nBound r : Int) - 1) * x
      (acc.1 + min y 0, acc.2 + max y 0)) (0, 0)
  (lineAt g [] 0 + z.1, lineAt g [] (lines - 1) + z.2 + lineBytes (fmtWidth (gFmt g)) n)
/-- The end of the scales of all lines. -/
def scaleEnd (g : GReg) (lines k : Nat) : Nat :=
  let nb := ceilDiv k (gBk g)
  gSoff g + (lines - 1) * gSstr g
    + (match gSkind g with
      | 1 => 2 * nb
      | 2 => 4 * nb
      | _ => 260 * ceilDiv nb 256)
/-- Every byte of an operand lies in its tile, and of its scales in theirs. -/
def operandIn (s : State) (g : GReg) (rows : List Word) (j lines n k : Nat) (ops : List (Option OpRef)) (i : Nat) : Bool :=
  let span := lineSpan g rows j lines n
  let fits (i : Nat) (lo hi : Int) : Bool :=
    match s.opSize ops i with
    | some z => decide (0 ≤ lo ∧ hi ≤ (z : Int))
    | none => true
  k == 0 || (fits i span.1 span.2 && (gFmt g != 0x17 || fits i 0 (gOff g + 32))
    && (gSkind g == 0 || fits (i + 1) 0 (scaleEnd g lines k)))

/-! ### The layout of exported tiles (R301) -/

def mxfElemBytes (raw : Bool) (fmt afmt : Nat) : Nat := if raw then accBytes afmt else fmtWidth fmt / 8
/-- Bytes of one row under the bit-plane layout. -/
def mxfRow (fmt nc : Nat) : Nat := lineBytes (fmtWidth fmt) nc
/-- Bytes of a whole view. -/
def mxfBytes (raw pl : Bool) (fmt afmt mr nc : Nat) : Nat :=
  if pl then mr * mxfRow fmt nc else mr * nc * mxfElemBytes raw fmt afmt

/-- One accumulator element converted for a tile (R300, R301). -/
def expVal (raw : Bool) (afmt fmt rdg rm : Nat) (ovf : Bool) (x : Nat) : Nat × Fl :=
  if raw then (x, 0)
  else if afmt < 2 then
    let v := fdec (accFmt afmt) 0 x
    if fmt ≤ 9 then fpCvt fmt rdg rm ovf v else fpToIfmt fmt rm ovf v
  else
    let v := sextN x (8 * accBytes afmt)
    if fmt ≤ 9 then fpOfInt fmt rdg rm ovf v else intToIfmt fmt ovf v
/-- One tile element converted for an accumulator. -/
def impVal (raw : Bool) (afmt fmt rdg rm : Nat) (ovf : Bool) (x : Nat) : Nat × Fl :=
  let bits := 8 * accBytes afmt
  if raw then (x, 0)
  else if afmt < 2 then
    (if fmt ≤ 9 then fpCvt (accFmt afmt) 0 rm ovf (fdec fmt rdg x) else fpOfInt (accFmt afmt) 0 rm ovf (idec fmt x))
  else if fmt ≤ 9 then fpToInt bits true (-(2 ^ (bits - 1))) (2 ^ (bits - 1) - 1) rm ovf (fdec fmt rdg x)
  else intToInt bits true ovf (idec fmt x)

/-- Bit-plane words of a chunk of codes (R267). -/
def planeWords (w : Nat) (codes : List Nat) : List Byte :=
  (List.range w).flatMap fun j => natLe 4 (packE 1 (codes.map fun x => b2n (bitN x j)))
def chunks32 : Nat → List Nat → List (List Nat)
  | 0, _ => []
  | n + 1, l => l.take 32 :: chunks32 n (l.drop 32)
/-- One row of an exported view. -/
def rowBytes (raw pl : Bool) (fmt afmt : Nat) (xs : List Nat) : List Byte :=
  if pl then (chunks32 (ceilDiv xs.length 32) xs).flatMap (planeWords (fmtWidth fmt))
  else unwords (mxfElemBytes raw fmt afmt) xs

/-- The words of a view's rows, each read whole. -/
def viewRow (s : State) (c k : Nat) (v : View) (afmt r : Nat) : List Nat :=
  words (accBytes afmt) (v.nc afmt) ((s.core c).acs.read (v.addr k afmt r 0) (v.nc afmt * accBytes afmt))
def viewPoisoned (s : State) (c k : Nat) (v : View) (afmt r col : Nat) : Bool :=
  poisoned (s.core c).acsPoison 8 (v.addr k afmt r col) (accBytes afmt)
/-- Writes one row of a view. -/
def putViewRow (s : State) (c k : Nat) (v : View) (afmt r : Nat) (xs : List Nat) : State :=
  s.modCore c fun co => co.awrite (v.addr k afmt r 0) (unwords (accBytes afmt) xs)
/-- Every element of a view becomes +0 or 0. -/
def zeroView (s : State) (c k : Nat) (v : View) : State :=
  (List.range v.mr).foldl (fun s r => putViewRow s c k v 0 r (List.replicate (v.nc 0) 0)) s

/-- Writes a view into tile bytes: its rows from OFF on, zeros elsewhere, the view's poison with them; the flags. -/
def exportView (s : State) (c k : Nat) (v : View) (afmt : Nat) (raw pl : Bool) (fmt rdg rm : Nat) (ovf : Bool)
    (off tc ta size : Nat) : State × Fl :=
  let nc := v.nc afmt
  let rows := (List.range v.mr).map fun r => (viewRow s c k v afmt r).map (expVal raw afmt fmt rdg rm ovf)
  let body := rows.flatMap fun r => rowBytes raw pl fmt afmt (r.map (·.1))
  let s' := s.spWrite tc ta ((List.replicate off 0 ++ body ++ List.replicate (size - off - body.length) 0))
  let w := mxfElemBytes raw fmt afmt
  let s' :=
    if (s.core c).acsPoison.isEmpty then s'
    else
      (List.range v.mr).foldl (fun s' r =>
        ((List.range nc).filter fun col => viewPoisoned s c k v afmt r col).foldl (fun s' col =>
          if pl then s'.spPoison tc (ta + off + r * mxfRow fmt nc + col / 32 * (4 * fmtWidth fmt)) (4 * fmtWidth fmt)
          else s'.spPoison tc (ta + off + (r * nc + col) * w) w) s') s'
  (s', orFl (rows.flatMap fun r => r.map (·.2)))

/-! ### Checks of a command that starts to run -/

def boundIf (b : Bool) : Chk (BitVec 1024) := if b then bad fBound else .ok 0
/-- R291, on what is resolved. -/
def mmaCheck (s : State) (m : MmaRegs) (ops : List (Option OpRef)) : Chk (BitVec 1024) :=
  let c := s.cur.core
  let specs := mmaOps m c
  let n := m.coopN
  let j := groupPos c n
  let k := m.steps * m.ks
  let v := viewOf m.view
  let ncores := groupCores c n
  match handleChk s.me specs with
  | .error e => .error e
  | .ok _ =>
    if !s.opTilesOk true specs ops then bad fTilestate
    else
      boundIf (!viewOk m.view
        || (m.readsSerial c && !operandIn s m.ga m.rows 0 v.mr m.ks k ops 0)
        || !operandIn s m.gb m.rows j m.nc m.stored k ops (mmaBIdx m c)
        || (m.c.pv != 0 && (match s.opSize ops (mmaVIdx m c) with
            | some z => decide (z < mxfBytes false false m.c.vfmt.toNat m.c.afmt.toNat v.mr m.nc)
            | none => false))
        || !ncores.all fun i => i / 8 == c / 8 && (s.part s.me.t.part).coreMask.getLsbD i)
/-- `MEXP` and `MIMP`. -/
def mxfCheck' (s : State) (c : MxfCmd) (wr : Bool) (ops : List (Option OpRef)) : Chk (BitVec 1024) :=
  let v := viewOf (s.me.view c.accv.toNat)
  let a := c.afmt.toNat
  let unit := if c.pl then 4 else mxfElemBytes c.raw c.fmt.toNat a
  match handleChk s.me [opTile c.top wr] with
  | .error e => .error e
  | .ok _ =>
    if !s.opTilesOk c.h.shd [opTile c.top wr] ops then bad fTilestate
    else if c.off.toNat % unit ≠ 0 then bad fAlign
    else
      boundIf (!viewOk (s.me.view c.accv.toNat)
        || (match s.opSize ops 0 with
          | some z => decide (z < c.off.toNat + mxfBytes c.raw c.pl c.fmt.toNat a v.mr (v.nc a))
          | none => false))

/-! ### Operand elements of a step -/

/-- A 32-bit word of a tile. -/
def tileWord (s : State) (t : Nat × Nat) (a : Nat) : Nat := leNat (s.spRead t.1 (t.2 + a) 4)
/-- The codes of elements of a line that begins at byte `lo` of the tile. -/
def lineCodes (s : State) (t : Nat × Nat) (lo w : Nat) (is : List Nat) : List Nat :=
  is.map fun i => lineCode (fun a => tileWord s t (lo + a)) w i
/-- A chunk that holds one of the elements is poisoned. -/
def linePoison (s : State) (t : Nat × Nat) (lo w : Nat) (is : List Nat) : Bool :=
  is.any fun i => s.spPoisoned t.1 (t.2 + lo + i / 32 * (4 * w)) (4 * w)
/-- The scale of block b of line l, and whether it is poisoned. -/
def scaleOf (s : State) (g : GReg) (t : Nat × Nat) (l b : Nat) : FVal × Bool :=
  let base := t.2 + gSoff g + l * gSstr g
  let nat (o n : Nat) : Nat := leNat (s.spRead t.1 (base + o) n)
  let bad (o n : Nat) : Bool := s.spPoisoned t.1 (base + o) n
  match gSkind g with
  | 0 => (oneVal, false)
  | 1 => (fdec 3 0 (nat (2 * b) 2), bad (2 * b) 2)
  | 2 => (fdec 1 0 (nat (4 * b) 4), bad (4 * b) 4)
  | _ =>
    let o := 260 * (b / 256)
    (scale2 (nat (o + 256) 4) (nat (o + b % 256) 1), bad (o + 256) 4 || bad (o + b % 256) 1)

/-- One line of a step: its values at the K positions that form products, its scales by fold, and poison. -/
structure Line where
  vals : List (Option FVal)
  scales : List FVal
  poison : Bool
/-- K positions of fold f within a step of ks elements. -/
def foldSlice {α : Type} (f i : Nat) (l : List α) : List α := (l.drop (f * i)).take f

/-- Line l of an operand at step p: `at'` gives, for each K position of the step, the stored element there. -/
def readLine (s : State) (g : GReg) (t st : Nat × Nat) (book planes : Nat) (rows : List Word) (j p ks f l : Nat)
    (at' : List (Option Nat)) : Line :=
  let lo := (lineAt g (nestIdx rows p j) l).toNat
  let w := fmtWidth (gFmt g)
  let is := at'.filterMap id
  let val (i : Nat) : FVal :=
    elemVal (gFmt g) (gRdg g) book
      (truncCode (gFmt g) (gRdg g) planes (lineCode (fun a => tileWord s t (lo + a)) w i))
  let folds := List.range (ceilDiv ks f)
  let sc := folds.map fun i => scaleOf s g st l ((p * ks + f * i) / gBk g)
  ⟨at'.map fun o => o.map val, sc.map (·.1), linePoison s t lo w is || (sc.any (·.2))⟩

/-- The metadata of a step: which positions of each group of 16 hold stored elements (R295). -/
def metaAt (entries : List (BitVec 16)) (ks : Nat) : List (Option Nat) :=
  (List.range ks).map fun k =>
    let e := (nth 0 entries (k / 16)).toNat
    if bitN e (k % 16) then some (8 * (k / 16) + popCount16 (e % 2 ^ (k % 16))) else none

/-- One output element over the folds of a step. -/
def foldElem (m : MmaRegs) (f w : Nat) (a b : Line) (acc : Nat) : Nat × Fl :=
  let afmt := m.c.afmt.toNat
  (List.range (ceilDiv m.ks f)).foldl (fun (r : Nat × Fl) i =>
    let ps := ((foldSlice f i a.vals).zip (foldSlice f i b.vals)).filterMap fun (x, y) =>
      match x, y with
      | some x, some y => some (mulV x y)
      | _, _ => none
    let (y, fl) :=
      if afmt < 2 then foldFp (accFmt afmt) m.c.ovf w (nth oneVal a.scales i) (nth oneVal b.scales i) ps r.1
      else foldInt (8 * accBytes afmt) m.c.ovf ps r.1
    (y, r.2 ||| fl)) (acc, 0)

/-- Step p of pass v at a member: `ser` is the member that reads the serial operand (R296). -/
def mmaStep (s : State) (me ser : SlotId) (p v : Nat) : UnitRes :=
  let sl := s.slotAt me.core me.slot
  let ss := s.slotAt ser.core ser.slot
  let m := mmaRegs sl (sl.mring.headBits .m)
  let ms := mmaRegs ss (ss.mring.headBits .m)
  let h := sl.mring.head
  let hs := ss.mring.head
  let (f, w) := foldSize (gFmt ms.ga) (gFmt m.gb)
  let view := viewOf m.view
  let afmt := m.c.afmt.toNat
  let planes := if m.c.pv = 0 then serialPlanes (gFmt ms.ga) else min (v * m.c.pv.toNat) (serialPlanes (gFmt ms.ga))
  let need := m.ks / 16
  let entries := sl.mqOf m.c.mq.toNat
  if m.s2 && decide (entries.length < need) then .stall s .queue
  else
    let all := (List.range m.ks).map some
    let bi := mmaBIdx m me.core
    let as := (List.range view.mr).map fun r =>
      readLine s ms.ga (opAt hs 0) (opAt hs 1) 0 planes ms.rows 0 p m.ks f r all
    let at' := if m.s2 then metaAt entries m.ks else all
    let bs := (List.range m.nc).map fun c =>
      readLine s m.gb (opAt h bi) (opAt h (bi + 1)) h.desc.toNat (fmtWidth (gFmt m.gb) + 64) m.rows (groupPos me.core m.coopN)
        p m.ks f c at'
    if (me == ser && as.any (·.poison)) || bs.any (·.poison)
        || (List.range view.mr).any fun r => (List.range m.nc).any fun c => viewPoisoned s me.core me.slot view afmt r c then
      .fault fPoison 0
    else
      let rows := (List.range view.mr).map fun r =>
        let a := nth ⟨[], [], false⟩ as r
        (bs.zip (viewRow s me.core me.slot view afmt r)).map fun (b, x) => foldElem m f w a b x
      let s := (List.range view.mr).foldl (fun s r =>
        putViewRow s me.core me.slot view afmt r ((nth [] rows r).map (·.1))) s
      .ok (s.modSlot me.core me.slot fun sl =>
        let sl := sl.orFlags .m (orFl (rows.flatMap fun r => r.map (·.2)))
        if m.s2 then { sl with mq := Sparse.set [] sl.mq m.c.mq.toNat (entries.drop need) } else sl)

/-! ### Vintages (R297, R298) -/

/-- publish(v) of V. A seal under way lands first, and the command then ends here (R393). -/
def mmaPublish (s : State) (me : SlotId) (v : Nat) : UnitRes :=
  let sl := s.slotAt me.core me.slot
  let m := mmaRegs sl (sl.mring.headBits .m)
  match sl.mring.head.dst with
  | none => .ok s
  | some d =>
    let s := s.landSeal d.core d.abs
    let t := s.tileAt d.core d.abs
    if (s.headAt me.core me.slot .m).sealCut then
      .ok (s.modHead me.core me.slot .m fun h => { h with phase := .finished, prog := (v - 1) * passUnits m.rows })
    else if v ≥ 2 ∧ t.oldReaders ≠ 0 then .busy s
    else
      let c := m.c
      let s1 := if t.sealed then s else
        let (s, fl) := exportView s me.core me.slot (viewOf m.view) c.afmt.toNat false false c.vfmt.toNat c.vrdg.toNat
          c.vrm.toNat c.vovf 0 d.core t.shadowAt t.bytes
        s.modSlot me.core me.slot (·.orFlags .m fl)
      match s1.publish me d.core d.abs (decide (v < m.passes)) with
      | .published s => .ok s
      | .refused s => .ok (s.modHead me.core me.slot .m fun h => { h with sealCut := true })
      | .fault => .fault fVintage 0

/-- A seal under way lands before the last step of a pass, so that no pass publishes after it (R393, R487). -/
def mmaLand (s : State) (me : SlotId) : State :=
  match (s.headAt me.core me.slot .m).dst with
  | some d => s.landSeal d.core d.abs
  | none => s
/-- Unit i of an `MMA` or `MMAS` at a member (R292): the zeroing of a pass, its steps, its end. A command that a seal
cut does nothing from its next stop point on (R393), and none after the end of a pass (R298). -/
def mmaUnit (me ser : SlotId) (s : State) (i : Nat) : UnitRes :=
  let m := mmaRegs (s.slotAt me.core me.slot) ((s.ringAt me.core me.slot .m).headBits .m)
  let u := i % passUnits m.rows
  let v := i / passUnits m.rows + 1
  let s := if u = m.steps ∧ m.c.pv ≠ 0 then mmaLand s me else s
  let h := s.headAt me.core me.slot .m
  if h.phase == .finished then .ok s
  else if h.sealCut && (u == 0 || mmaStop m.rows i) then
    .ok (s.modHead me.core me.slot .m fun h => { h with phase := .finished, prog := i })
  else if u = 0 then .ok (if m.c.za then zeroView s me.core me.slot (viewOf m.view) else s)
  else if u ≤ m.steps then mmaStep s me ser (u - 1) v
  else if m.c.pv = 0 then .ok s
  else mmaPublish s me v

/-! ### Running -/

/-- The members that work together with the current slot: itself, or its formed group. -/
def mmaMembers (s : State) : List SlotId :=
  if s.me.coop then (s.core s.cur.core).group else [s.myId]
/-- The group is gone: every member but `me` leaves its engine (R296). -/
def State.disband (s : State) (me : SlotId) : State :=
  let g := (s.core me.core).group
  let s := g.foldl (fun s x => s.modCore x.core fun co => { co with group := [] }) s
  (g.filter (· != me)).foldl (fun s x => s.endTenure x.core x.slot .mxe) s

/-- One unit of every member, or what stops the first that cannot. -/
def membersUnit (ser : SlotId) (i : Nat) : List SlotId → State → SlotId × UnitRes
  | [], s => (ser, .ok s)
  | m :: t, s =>
    match mmaUnit m ser s i with
    | .ok s => membersUnit ser i t s
    | r => (m, r)

/-- The command of the current slot, and of its group, works on: to its end, to its next stop point when a stop is
requested of a member (R294, R296), or (whole = false) to the end of its next step. -/
def mmaWork (whole : Bool) (s : State) : State :=
  let me := s.myId
  let ms := mmaMembers s
  let runs (x : SlotId) : Bool :=
    (s.slotAt x.core x.slot).headRuns .m && (s.ringAt x.core x.slot .m).len != 0
      && (ms.length ≤ 1 || (s.core x.core).mxe.holder == some x.slot)
  let pend := ms.any fun x => (s.slotAt x.core x.slot).stopping .m
  if ms.isEmpty || !ms.contains me || !ms.all runs || ms.any (fun x => (s.core x.core).frozen)
    || (pend && (s.me.mring.head.phase != .active || s.me.atStopM)) then s
  else
    let m := mmaRegs s.me (s.me.mring.headBits .m)
    let n := m.passes * passUnits m.rows
    let h := s.headAt me.core me.slot .m
    let ser := ms.headD me
    let s := ms.foldl (fun s x => s.beginHead x.core x.slot .m) s
    let unit (s : State) (i : Nat) : UnitRes := (membersUnit ser i ms s).2
    let stop (i : Nat) : Bool :=
      (pend && mmaStop m.rows i) || (!whole && (let u := i % passUnits m.rows; i != 1 && u != 0 && u != m.steps + 1))
    let (j, e) := runUnits unit stop (n - h.prog) s h.prog
    let s0 := runState unit (j - h.prog) s h.prog
    let at' (s : State) : State := ms.foldl (fun s x => s.modHead x.core x.slot .m fun h =>
      if h.phase == .finished then h else { h with prog := j, phase := if j ≥ n then .finished else h.phase }) s
    let who := (membersUnit ser j ms s0).1
    match e with
    | .ok s' => at' s'
    | .fault code eva | .failed _ code eva => (((at' s0).disband who).headFault who.core who.slot .m code eva)
    | .stall _ w =>
      (((at' s0).disband who).modHead who.core who.slot .m fun h => { h with stalled := true, waitFor := some w }).endTenure
        who.core who.slot .mxe
    | .busy _ => at' s0
def execMma (_ : MmaCmd) (s : State) : Out := .next (mmaWork true s)
def execMmas (_ : MmaCmd) (s : State) : Out := .next (mmaWork true s)
/-- `MMA_STEP_END`: the MXE's holder works to the end of its next step. -/
def execMmaStepEnd (o : SlotId) (s : State) : Out :=
  let w := (s.ringAt o.core o.slot .m).headBits .m
  if (s.core o.core).mxe.holder = some o.slot ∧ (copOf w = 1 ∨ copOf w = 2) then
    .next (s.withCur ⟨o.core, o.slot, .m⟩ (mmaWork false))
  else .next s

/-! ### Forming a group (R296) -/

/-- The slot's head waits for, or is in, a group: its checks have passed. -/
def groupHead (sl : Slot) (part n tag : Nat) : Bool :=
  let h := sl.mring.head
  let m := mmaRegs sl (sl.mring.headBits .m)
  sl.mring.len != 0 && sl.coop && (h.phase == .decided || h.phase == .ready || h.phase == .active) && !h.ops.isEmpty
    && h.held.isNone && !(Sparse.get false sl.estopped 2) && sl.t.part == part && m.coopN == n && m.c.ctag.toNat == tag
/-- The lowest such slot of a core. -/
def groupSlot (s : State) (core part n tag : Nat) : Option Nat :=
  (List.range 8).find? fun k => groupHead (s.slotAt core k) part n tag
/-- What members must have in common. -/
def groupKey (sl : Slot) : List Nat :=
  let m := mmaRegs sl (sl.mring.headBits .m)
  [m.c.ks.toNat, m.c.nl.toNat, gFmt m.ga, gRdg m.ga, gSkind m.ga, if gSkind m.ga = 0 then 0 else gBkl m.ga,
    m.c.afmt.toNat, b2n m.c.ovf, m.c.pv.toNat] ++ m.rows.map nBound
def execCoOperativeGroupForm (o : GroupArgs) (s : State) : Out :=
  match o.members with
  | [] => .next s
  | x :: _ =>
    let sl := s.slotAt x.core x.slot
    let m := mmaRegs sl (sl.mring.headBits .m)
    let cores := groupCores x.core m.coopN
    let want := cores.map fun c => (groupSlot s c sl.t.part m.coopN m.c.ctag.toNat).map fun k => SlotId.mk c k
    if m.coopN ≤ 1 || want != o.members.map some || cores.any fun c => !(s.core c).group.isEmpty then .next s
    else if o.members.all fun y => groupKey (s.slotAt y.core y.slot) == groupKey sl then
      .next (o.members.foldl (fun s y => s.modCore y.core fun co => { co with group := o.members }) s)
    else .next (o.members.foldl (fun s y => s.headFault y.core y.slot .m fIllegal 0) s)

/-! ### `MZERO`, `MEXP`, `MIMP` (R299 to R301): one unit each -/

def oneUnit (f : State → UnitRes) : State → HeadSt → Plan :=
  fun _ _ => ⟨1, fun _ => true, fun s _ => f s, fun s => .ok s, false⟩
def mzeroRun (set zero : Bool) (c : MzeroCmd) : State → UnitRes := fun s =>
  let n := c.accv.toNat
  let v := if set then c.view else s.me.view n
  if zero && !viewOk v then .fault fBound 0
  else
    let s := if zero then zeroView s s.cur.core s.cur.slot (viewOf v) else s
    .ok (if set then s.modMe fun sl => { sl with acc := Sparse.set 0 sl.acc n v } else s)
def execMzero (c : MzeroCmd) (s : State) : Out := .next (headWork .m true (oneUnit (mzeroRun false true c)) s)
def execMzeroSet (c : MzeroCmd) (s : State) : Out := .next (headWork .m true (oneUnit (mzeroRun true false c)) s)
def execMzeroSetz (c : MzeroCmd) (s : State) : Out := .next (headWork .m true (oneUnit (mzeroRun true true c)) s)

def mexpRun (c : MxfCmd) : State → UnitRes := fun s =>
  let h := s.headAt s.cur.core s.cur.slot .m
  match h.dst with
  | none => .ok s
  | some d =>
    let t := s.tileAt d.core d.abs
    if h.dshd && t.sealed then .ok s
    else
      let (s, fl) := exportView s s.cur.core s.cur.slot (viewOf (s.me.view c.accv.toNat)) c.afmt.toNat c.raw c.pl c.fmt.toNat
        c.rdg.toNat c.rm.toNat c.ovf c.off.toNat d.core (64 * d.buf) t.bytes
      .ok (s.modMe (·.orFlags .m fl))
def execMexp (c : MxfCmd) (s : State) : Out := .next (headWork .m true (oneUnit (mexpRun c)) s)

/-- The codes of a row in a tile. -/
def rowCodes (raw pl : Bool) (fmt afmt nc : Nat) (l : List Byte) : List Nat :=
  if pl then (List.range nc).map fun i => lineCode (fun a => leNat ((l.drop a).take 4)) (fmtWidth fmt) i
  else words (mxfElemBytes raw fmt afmt) nc l
def mimpRun (c : MxfCmd) : State → UnitRes := fun s =>
  let h := s.headAt s.cur.core s.cur.slot .m
  let (tc, ta) := opAt h 0
  let v := viewOf (s.me.view c.accv.toNat)
  let a := c.afmt.toNat
  let nc := v.nc a
  let f := c.fmt.toNat
  let row := mxfBytes c.raw c.pl f a 1 nc
  let base := ta + c.off.toNat
  if s.spPoisoned tc base (row * v.mr) then .fault fPoison 0
  else
    let rows := (List.range v.mr).map fun r =>
      (rowCodes c.raw c.pl f a nc (s.spRead tc (base + r * row) row)).map (impVal c.raw a f c.rdg.toNat c.rm.toNat c.ovf)
    let s := (List.range v.mr).foldl (fun s r =>
      putViewRow s s.cur.core s.cur.slot v a r ((nth [] rows r).map (·.1))) s
    .ok (s.modMe (·.orFlags .m (orFl (rows.flatMap fun r => r.map (·.2)))))
def execMimp (c : MxfCmd) (s : State) : Out := .next (headWork .m true (oneUnit (mimpRun c)) s)

/-! ### Notes (R142, R302) -/

/-- A note that stands decided at the head of its ring raises RSS and ends the stream. -/
def noteEnd (r : RingId) (s : State) : State :=
  let c := s.cur.core
  let k := s.cur.slot
  let q := s.ringAt c k r
  if q.len = 0 ∨ q.head.phase ≠ .decided then s
  else
    (s.modSlot c k fun sl => sl.modRing r fun q => { q.pop with ended := true }).raiseCmd ⟨c, k, strmOfRing r⟩ (cRss (q.headBits r))
def execMnote (_ : CmdHead) (s : State) : Out := .next (noteEnd .m s)
def execXnote (_ : CmdHead) (s : State) : Out := .next (noteEnd .x s)
def execSnote (_ : CmdHead) (s : State) : Out := .next (noteEnd .s s)

end Sys2Proof.Machine
end

