-- ==== Sys2Proof/Machine/VecFp.lean ====
section
/-! DEFINITION. Floating-point arithmetic, special functions, conversions and reductions of the V stream (R305,
R315 to R321). -/

namespace Sys2Proof.Machine

/-! ### Arithmetic (R315, R316) -/

def vfp2 (pr : Pred) (fmt : BitVec 5) (d a b : Reg) (f : Nat → Nat → Nat × Fl) : State → Out :=
  vmap pr 8 (fmtChk fmt) [a, b] d fun sl eb i =>
    f (vElem (sl.vr a.toNat).toNat eb i) (vElem (sl.vr b.toNat).toNat eb i)
def vfp1 (pr : Pred) (fmt : BitVec 5) (d a : Reg) (f : Nat → Nat × Fl) : State → Out :=
  vmap pr 8 (fmtChk fmt) [a] d fun sl eb i => f (vElem (sl.vr a.toNat).toNat eb i)

def execVadd (o : FpRRR) : State → Out := vfp2 o.pr o.fmt o.d o.a o.b (fpAdd o.fmt.toNat o.rm.toNat o.ovf)
def execVsub (o : FpRRR) : State → Out := vfp2 o.pr o.fmt o.d o.a o.b (fpSub o.fmt.toNat o.rm.toNat o.ovf)
def execVmul (o : FpRRR) : State → Out := vfp2 o.pr o.fmt o.d o.a o.b (fpMul o.fmt.toNat o.rm.toNat o.ovf)
def execVdiv (o : FpRRR) : State → Out := vfp2 o.pr o.fmt o.d o.a o.b (fpDiv o.fmt.toNat o.rm.toNat o.ovf)
def execVmin (o : FpRRRx) : State → Out := vfp2 o.pr o.fmt o.d o.a o.b (fpMinMax false o.fmt.toNat)
def execVmax (o : FpRRRx) : State → Out := vfp2 o.pr o.fmt o.d o.a o.b (fpMinMax true o.fmt.toNat)
def execVsqrt (o : FpRR) : State → Out := vfp1 o.pr o.fmt o.d o.a (fpSqrt o.fmt.toNat o.rm.toNat o.ovf)
def execVabs (o : FpRRx) : State → Out := vfp1 o.pr o.fmt o.d o.a fun a => (fpSetSign o.fmt.toNat a false, 0)
def execVneg (o : FpRRx) : State → Out :=
  vfp1 o.pr o.fmt o.d o.a fun a => (fpSetSign o.fmt.toNat a (!fpSign o.fmt.toNat a), 0)

/-- a × b ± c. -/
def vfma (minus : Bool) (o : FpRRRR) : State → Out :=
  vmap o.pr 8 (fmtChk o.fmt) [o.a, o.b, o.c] o.d fun sl eb i =>
    let v (r : Reg) : FVal := fdec o.fmt.toNat 0 (vElem (sl.vr r.toNat).toNat eb i)
    fpFma o.fmt.toNat o.rm.toNat o.ovf (v o.a) (v o.b) (if minus then (v o.c).negate else v o.c)
def execVfma (o : FpRRRR) : State → Out := vfma false o
def execVfms (o : FpRRRR) : State → Out := vfma true o

/-! ### Special functions (R317, R318) -/

def vspec (fn : Nat) (o : VspecOp) : State → Out := vfp1 o.pr o.fmt o.d o.a (specialFn fn o.fmt.toNat o.ovf)
def execVrcp (o : VspecOp) : State → Out := vspec 0 o
def execVrsq (o : VspecOp) : State → Out := vspec 1 o
def execVexp2 (o : VspecOp) : State → Out := vspec 2 o
def execVlog2 (o : VspecOp) : State → Out := vspec 3 o
def execVsin (o : VspecOp) : State → Out := vspec 4 o
def execVcos (o : VspecOp) : State → Out := vspec 5 o
def execVsigm (o : VspecOp) : State → Out := vspec 6 o
def execVtanh (o : VspecOp) : State → Out := vspec 7 o

/-! ### Conversions (R319, R320) -/

/-- Bytes of an element of a format. -/
def fmtBytes (code : Nat) : Nat := if fmtWidth code ≤ 8 then 1 else fmtWidth code / 8
/-- n elements of sb bytes into n elements of db bytes. -/
def vcvt (o : VcvtOp) (sb db : Nat) (f : Nat → Nat × Fl) : State → Out :=
  instr o.pr 8 fun s =>
    let sl := s.me
    let n := sl.n
    let act := sl.active o.pr
    if n * max sb db > 4096 then .trap fBound 0
    else if sl.readsPoison o.a.toNat sb n act then .trap fPoison 0
    else
      let x := (sl.vr o.a.toNat).toNat
      let old := (sl.vr o.d.toNat).toNat
      let rs := (List.range n).map fun i => if act i then f (vElem x sb i) else (vElem old db i, 0)
      .done ((s.putMe (sl.putElems o.d.toNat db (rs.map (·.1)) act)).orFlags (orFl (rs.map (·.2))))

def vcDrdg (o : VcvtOp) : Nat := bitsN o.imm.toNat 0 2
def vcSrdg (o : VcvtOp) : Nat := bitsN o.imm.toNat 2 2
def vcIb (o : VcvtOp) : Nat := 2 ^ bitsN o.imm.toNat 4 2
def vcSigned (o : VcvtOp) : Bool := !o.imm.getLsbD 6
/-- An integer element's value. -/
def intElem (signed : Bool) (eb x : Nat) : Int := if signed then sextN x (8 * eb) else x
def execVcvtFf (o : VcvtOp) : State → Out :=
  vcvt o (fmtBytes o.c.toNat) (fmtBytes o.fmt.toNat) fun x =>
    fpCvt o.fmt.toNat (vcDrdg o) o.rm.toNat o.ovf (fdec o.c.toNat (vcSrdg o) x)
def execVcvtFpToElem (o : VcvtOp) : State → Out :=
  let w := 8 * (vcIb o)
  let lo : Int := if (vcSigned o) then -(2 ^ (w - 1)) else 0
  let hi : Int := if (vcSigned o) then 2 ^ (w - 1) - 1 else 2 ^ w - 1
  vcvt o (fmtBytes o.c.toNat) (vcIb o) fun x => fpToInt w (vcSigned o) lo hi o.rm.toNat o.ovf (fdec o.c.toNat (vcSrdg o) x)
def execVcvtElemToFp (o : VcvtOp) : State → Out :=
  vcvt o (vcIb o) (fmtBytes o.fmt.toNat) fun x =>
    fpOfInt o.fmt.toNat (vcDrdg o) o.rm.toNat o.ovf (intElem (vcSigned o) (vcIb o) x)
def execVcvtFpToIntfmt (o : VcvtOp) : State → Out :=
  vcvt o (fmtBytes o.c.toNat) (fmtBytes o.fmt.toNat) fun x =>
    fpToIfmt o.fmt.toNat o.rm.toNat o.ovf (fdec o.c.toNat (vcSrdg o) x)
def execVcvtIntfmtToFp (o : VcvtOp) : State → Out :=
  vcvt o (fmtBytes o.c.toNat) (fmtBytes o.fmt.toNat) fun x =>
    fpOfInt o.fmt.toNat (vcDrdg o) o.rm.toNat o.ovf (idec o.c.toNat x)
/-- c[1:0] is the source width and c[2] its lack of a sign. -/
def execVcvtElemToElem (o : VcvtOp) : State → Out :=
  let sb := 2 ^ bitsN o.c.toNat 0 2
  vcvt o sb (vcIb o) fun x => intToInt (8 * (vcIb o)) (vcSigned o) o.ovf (intElem (!o.c.getLsbD 2) sb x)

/-! ### Reductions (R321) -/

/-- A finite value in units of the format's least magnitude. -/
def inUnits (f : FFmt) (neg : Bool) (m : Nat) (e : Int) : Int :=
  let v : Int := (m * 2 ^ (e - f.qmin).toNat : Nat)
  if neg then -v else v
/-- fpround of the exact sum of values, or of their squares. -/
def fpSum (code rm : Nat) (ovf sq : Bool) (xs : List Nat) : Nat × Fl :=
  let f := ffmt code
  let vs := xs.map (fdec code 0)
  match nanRow code vs with
  | some r => r
  | none =>
    let pos := vs.any fun v => v.isInf && (sq || !v.neg)
    let neg := vs.any fun v => v.isInf && !sq && v.neg
    if pos && neg then (f.nan 0, flIV)
    else if pos || neg then (f.inf neg, 0)
    else
      let terms : List Int := vs.map fun v => match v with
        | .fin n m e => let u := inUnits f n m e; if sq then u * u else u
        | _ => 0
      let t : Int := terms.foldl (· + ·) 0
      if t = 0 then
        (f.sign (!vs.isEmpty && (rm == 3 || (!sq && vs.all fun v => v.neg))), 0)
      else fpround code 0 rm ovf (decide (t < 0)) t.natAbs (if sq then 2 * f.qmin else f.qmin) false

/-- Reduces the taking-part elements of the register or of each row. -/
def vred (pr : Pred) (chk : Slot → Chk Unit) (row : Bool) (d a : Reg) (f : Nat → List Nat → Nat × Fl) : State → Out :=
  instr pr 8 fun s =>
    let sl := s.me
    let n := sl.n
    let eb := sl.eb
    let act := sl.active pr
    (chk sl).then fun _ =>
      if sl.readsPoison a.toNat eb n act then .trap fPoison 0
      else
        let x := (sl.vr a.toNat).toNat
        let cols := vCols sl.vshape
        let part (lo m : Nat) : Nat × Fl := f eb (((rangeFrom lo m).filter act).map (vElem x eb))
        let rs := if row then (List.range (vRows sl.vshape)).map fun r => part (r * cols) cols else [part 0 n]
        .done ((s.putMe (sl.putElems d.toNat eb (rs.map (·.1)) fun _ => true)).orFlags (orFl (rs.map (·.2))))

def execVredsF (o : VredsOp) : State → Out :=
  vred o.pr (fmtChk o.fmt) o.row o.d o.a fun _ xs => fpSum o.fmt.toNat o.rm.toNat o.ovf false xs
def execVredsSq (o : VredsOp) : State → Out :=
  vred o.pr (fmtChk o.fmt) o.row o.d o.a fun _ xs => fpSum o.fmt.toNat o.rm.toNat o.ovf true xs
def execVredsI (o : VredsIOp) : State → Out :=
  vred o.pr noChk o.row o.d o.a fun eb xs =>
    intToInt (8 * eb) true o.ovf ((xs.map fun x => sextN x (8 * eb)).foldl (· + ·) 0)
/-- maximumNumber or minimumNumber of all. -/
def fpExt (mx : Bool) (code : Nat) (xs : List Nat) : Nat × Fl :=
  xs.foldl (fun r x => let y := fpMinMax mx code r.1 x; (y.1, r.2 ||| y.2)) ((ffmt code).nan 0, 0)
def execVredxMax (o : VredxOp) : State → Out :=
  vred o.pr (fmtChk o.fmt) o.row o.d o.a fun _ xs => fpExt true o.fmt.toNat xs
def execVredxMin (o : VredxOp) : State → Out :=
  vred o.pr (fmtChk o.fmt) o.row o.d o.a fun _ xs => fpExt false o.fmt.toNat xs
def execVredxImax (o : VredxIOp) : State → Out :=
  vred o.pr noChk o.row o.d o.a fun eb xs =>
    (wrapN ((xs.map fun x => sextN x (8 * eb)).foldl max (-(2 ^ (8 * eb - 1)))) (8 * eb), 0)
def execVredxImin (o : VredxIOp) : State → Out :=
  vred o.pr noChk o.row o.d o.a fun eb xs =>
    (wrapN ((xs.map fun x => sextN x (8 * eb)).foldl min (2 ^ (8 * eb - 1) - 1)) (8 * eb), 0)
def execVredxUmax (o : VredxIOp) : State → Out := vred o.pr noChk o.row o.d o.a fun _ xs => (xs.foldl max 0, 0)
def execVredxUmin (o : VredxIOp) : State → Out :=
  vred o.pr noChk o.row o.d o.a fun eb xs => (xs.foldl min (2 ^ (8 * eb) - 1), 0)
/-- The lowest element number that holds the maximumNumber; NaNs are ignored. -/
def argMaxF (code : Nat) (x eb : Nat) (is : List Nat) : Option Nat :=
  is.foldl (fun best i =>
    let v := fdec code 0 (vElem x eb i)
    if v.isNan then best
    else
      match best with
      | none => some i
      | some j => if fLtTotal (fdec code 0 (vElem x eb j)) v then some i else some j) none
def execVredxArg (o : FpRRx) : State → Out :=
  instr o.pr 8 fun s =>
    let sl := s.me
    let act := sl.active o.pr
    (fmtChk o.fmt sl).then fun _ =>
      if sl.readsPoison o.a.toNat sl.eb sl.n act then .trap fPoison 0
      else
        .done (vscal s o.d
          ((argMaxF o.fmt.toNat (sl.vr o.a.toNat).toNat sl.eb ((List.range sl.n).filter act)).getD 0xFFFFFFFFFFFFFFFF))

end Sys2Proof.Machine
end

