-- ==== Sys2Proof/Machine/VecInt.lean ====
section
/-! DEFINITION. Integer, compare, select, set-up and mask instructions of the V stream, its branch and its loop
(R206, R308 to R314). -/

namespace Sys2Proof.Machine

/-! ### Integer and bitwise (R308, R309) -/

/-- V[d] ← f(w, a, b) at w bits, wrapped. -/
def vint (f : Nat → Nat → Nat → Int) (o : RRR) : State → Out :=
  vmap o.pr 4 noChk [o.a, o.b] o.d fun sl eb i =>
    (wrapN (f (8 * eb) (vElem (sl.vr o.a.toNat).toNat eb i) (vElem (sl.vr o.b.toNat).toNat eb i)) (8 * eb), 0)
/-- The immediate, sign-extended to w bits and so truncated (R57). -/
def immBits (w : Nat) (imm : Imm) : Nat := (immWord imm).toNat % 2 ^ w
def vintImm (f : Nat → Nat → Nat → Int) (o : RRI) : State → Out :=
  vmap o.pr (immLen o.imm) noChk [o.a] o.d fun sl eb i =>
    (wrapN (f (8 * eb) (vElem (sl.vr o.a.toNat).toNat eb i) (immBits (8 * eb) o.imm)) (8 * eb), 0)

def iAdd (_ a b : Nat) : Int := a + b
def iSub (_ a b : Nat) : Int := (a : Int) - b
def iMul (_ a b : Nat) : Int := a * b
def iAnd (_ a b : Nat) : Int := (a &&& b : Nat)
def iOr (_ a b : Nat) : Int := (a ||| b : Nat)
def iXor (_ a b : Nat) : Int := (a ^^^ b : Nat)
def iShl (w a b : Nat) : Int := a * 2 ^ (b % w)
def iShr (w a b : Nat) : Int := (a / 2 ^ (b % w) : Nat)
def iSra (w a b : Nat) : Int := sextN a w / 2 ^ (b % w)

def execViadd (o : RRR) : State → Out := vint iAdd o
def execVisub (o : RRR) : State → Out := vint iSub o
def execVimul (o : RRR) : State → Out := vint iMul o
def execVand (o : RRR) : State → Out := vint iAnd o
def execVor (o : RRR) : State → Out := vint iOr o
def execVxor (o : RRR) : State → Out := vint iXor o
def execVshl (o : RRR) : State → Out := vint iShl o
def execVshr (o : RRR) : State → Out := vint iShr o
def execVsra (o : RRR) : State → Out := vint iSra o
def execViaddImm (o : RRI) : State → Out := vintImm iAdd o
def execVisubImm (o : RRI) : State → Out := vintImm iSub o
def execVimulImm (o : RRI) : State → Out := vintImm iMul o
def execVandImm (o : RRI) : State → Out := vintImm iAnd o
def execVorImm (o : RRI) : State → Out := vintImm iOr o
def execVxorImm (o : RRI) : State → Out := vintImm iXor o
def execVshlImm (o : RRI) : State → Out := vintImm iShl o
def execVshrImm (o : RRI) : State → Out := vintImm iShr o
def execVsraImm (o : RRI) : State → Out := vintImm iSra o
def execVimad (o : RRRR) : State → Out :=
  vmap o.pr 8 noChk [o.a, o.b, o.c] o.d fun sl eb i =>
    let e (r : Reg) : Nat := vElem (sl.vr r.toNat).toNat eb i
    (wrapN (e o.a * e o.b + e o.c : Nat) (8 * eb), 0)

/-! ### Compare and select (R310, R311) -/

def vcmpF (cc : Nat) (o : FcmpOp) : State → Out :=
  vcmp o.pr (fmtChk o.fmt) o.a o.b o.d fun _ x y => fpCmp cc o.fmt.toNat x y
def execVcmpEqF (o : FcmpOp) : State → Out := vcmpF 0 o
def execVcmpNeF (o : FcmpOp) : State → Out := vcmpF 1 o
def execVcmpLtF (o : FcmpOp) : State → Out := vcmpF 2 o
def execVcmpLeF (o : FcmpOp) : State → Out := vcmpF 3 o
def execVcmpUnF (o : FcmpOp) : State → Out := vcmpF 4 o
def vcmpI (f : Nat → Nat → Nat → Bool) (o : CmpR) : State → Out :=
  vcmp o.pr noChk o.a o.b o.d fun eb x y => (f (8 * eb) x y, 0)
def execVcmpEq (o : CmpR) : State → Out := vcmpI (fun _ x y => x == y) o
def execVcmpNe (o : CmpR) : State → Out := vcmpI (fun _ x y => x != y) o
def execVcmpLt (o : CmpR) : State → Out := vcmpI (fun w x y => decide (sextN x w < sextN y w)) o
def execVcmpGe (o : CmpR) : State → Out := vcmpI (fun w x y => decide (sextN y w ≤ sextN x w)) o
def execVcmpLtu (o : CmpR) : State → Out := vcmpI (fun _ x y => decide (x < y)) o
def execVcmpGeu (o : CmpR) : State → Out := vcmpI (fun _ x y => decide (y ≤ x)) o

/-- Every element is written; p and pn select, and only the element selected is read. -/
def execVsel (o : RRR) : State → Out :=
  instrAlways 4 fun s =>
    let sl := s.me
    let n := sl.n
    let eb := sl.eb
    let sel := sl.active o.pr
    if sl.readsPoison o.a.toNat eb n sel || sl.readsPoison o.b.toNat eb n (fun i => !sel i) then .trap fPoison 0
    else
      let x := (sl.vr o.a.toNat).toNat
      let y := (sl.vr o.b.toNat).toNat
      .done (s.putMe (sl.putElems o.d.toNat eb ((List.range n).map fun i => vElem (if sel i then x else y) eb i)
        fun _ => true))

/-! ### Moves (R312) -/

def execVmov (o : VmovOp) : State → Out :=
  vmap o.pr (wideLen o.wide) noChk [o.a] o.d fun sl eb i => (vElem (sl.vr o.a.toNat).toNat eb i, 0)
def execVbcst (o : VbcstOp) : State → Out :=
  vmap o.pr (immLen o.imm) noChk [] o.d fun _ eb _ => (immBits (8 * eb) o.imm, 0)
def execVbcstE (o : VbcstEOp) : State → Out :=
  instr o.pr 8 fun s =>
    let sl := s.me
    let k := o.k.toNat
    let act := sl.active o.pr
    if k ≥ sl.n then .trap fBound 0
    else if (List.range sl.n).any act && sl.vpoisoned o.a.toNat (sl.eb * k) sl.eb then .trap fPoison 0
    else
      let x := vElem (sl.vr o.a.toNat).toNat sl.eb k
      let old := (sl.vr o.d.toNat).toNat
      .done (s.putMe (sl.putElems o.d.toNat sl.eb
        ((List.range sl.n).map fun i => if act i then x else vElem old sl.eb i) act))
def execViota (o : VbcstOp) : State → Out :=
  vmap o.pr (immLen o.imm) noChk [] o.d fun _ eb i => (wrapN ((i + (immWord o.imm).toNat : Nat)) (8 * eb), 0)

/-! ### `VSHP` (R313) -/

def putShape (s : State) (v : BitVec 32) : Res :=
  if vshapeOk v then .done (s.modMe fun sl => { sl with vshape := v &&& 0x1FFFFFFF }) else .trap fBound 0
def execVshp (a : Reg) : State → Out :=
  instrAlways 8 fun s =>
    if s.me.vpoisoned a.toNat 0 4 then .trap fPoison 0 else putShape s ((s.me.vr a.toNat).setWidth 32)
def execVshpK96 (v : BitVec 32) : State → Out := instrAlways 12 fun s => putShape s v

/-! ### `VMLOG` (R314) -/

/-- The low n bits. -/
def lowMask (n : Nat) : MWord := BitVec.ofNat 4096 (2 ^ n - 1)
def mlog (f : MWord → MWord → MWord) (o : MLog) : State → Out :=
  instrAlways 8 fun s =>
    .done (s.modMe fun sl => sl.setM o.d.toNat (f (sl.mr o.a.toNat) (sl.mr o.b.toNat) &&& lowMask sl.n))
def execVmlogAnd (o : MLog) : State → Out := mlog (· &&& ·) o
def execVmlogOr (o : MLog) : State → Out := mlog (· ||| ·) o
def execVmlogXor (o : MLog) : State → Out := mlog (· ^^^ ·) o
def execVmlogAndn (o : MLog) : State → Out := mlog (fun a b => a &&& ~~~b) o
def execVmlogNot (o : MLogN) : State → Out :=
  instrAlways 8 fun s => .done (s.modMe fun sl => sl.setM o.d.toNat (~~~(sl.mr o.a.toNat) &&& lowMask sl.n))
def trueBits (sl : Slot) (a : PReg) : List Nat :=
  let m := sl.mr a.toNat
  (List.range sl.n).filter fun i => m.getLsbD i
def execVmlogCnt (o : MLogV) : State → Out :=
  instrAlways 8 fun s => .done (vscal s o.d (trueBits s.me o.a).length)
def execVmlogFst (o : MLogV) : State → Out :=
  instrAlways 8 fun s => .done (vscal s o.d ((trueBits s.me o.a).head?.getD 0xFFFFFFFFFFFFFFFF))

end Sys2Proof.Machine
end

