-- ==== Sys2Proof/Machine/VecMisc.lean ====
section
/-! DEFINITION. Permutations, the 8 × 8 transpose, conditional streams and summary instructions of the V stream
(R329 to R334, R356, R357). -/

namespace Sys2Proof.Machine

/-! ### Permutations (R329, R330) -/

/-- The numbers of the selected elements, rising. -/
def Slot.selected (sl : Slot) (pr : Pred) : List Nat := (List.range sl.n).filter (sl.active pr)

def execVcmpr (o : RR) : State → Out :=
  instrAlways 4 fun s =>
    let sl := s.me
    let sel := sl.selected o.pr
    if sl.readsPoison o.a.toNat sl.eb sl.n (sl.active o.pr) then .trap fPoison 0
    else
      let x := (sl.vr o.a.toNat).toNat
      let old := (sl.vr o.d.toNat).toNat
      .done (s.putMe (sl.putElems o.d.toNat sl.eb
        ((List.range sl.n).map fun j => match sel[j]? with | some i => vElem x sl.eb i | none => vElem old sl.eb j)
        fun j => decide (j < sel.length)))
def execVexpd (o : RR) : State → Out :=
  instrAlways 4 fun s =>
    let sl := s.me
    let act := sl.active o.pr
    let k := (sl.selected o.pr).length
    if sl.readsPoison o.a.toNat sl.eb k fun _ => true then .trap fPoison 0
    else
      let x := (sl.vr o.a.toNat).toNat
      let old := (sl.vr o.d.toNat).toNat
      .done (s.putMe (sl.putElems o.d.toNat sl.eb
        ((List.range sl.n).map fun i => if act i then vElem x sl.eb (activeBefore act i) else vElem old sl.eb i) act))

/-- The distance, and whether it is read from a poisoned word. -/
def slideDist (sl : Slot) : SlideDist → Nat × Bool
  | .reg b imm => ((sl.scal b.toNat + imm.toNat) % 2 ^ 64, sl.vpoisoned b.toNat 0 8)
  | .imm imm => (imm.toNat, false)
/-- D[i] ← A[j] where `src i` gives j. -/
def slide (o : VslideOp) (src : Nat → Nat → Nat → Option Nat) : State → Out :=
  instr o.pr 8 fun s =>
    let sl := s.me
    let n := sl.n
    let eb := sl.eb
    let (m, pz) := slideDist sl o.dist
    let from' (i : Nat) : Option Nat := if sl.active o.pr i then src n m i else none
    if pz || (List.range n).any fun i =>
        match from' i with | some j => sl.vpoisoned o.a.toNat (eb * j) eb | none => false then .trap fPoison 0
    else
      let x := (sl.vr o.a.toNat).toNat
      let old := (sl.vr o.d.toNat).toNat
      .done (s.putMe (sl.putElems o.d.toNat eb
        ((List.range n).map fun i => match from' i with | some j => vElem x eb j | none => vElem old eb i)
        fun i => (from' i).isSome))
def execVslup (o : VslideOp) : State → Out := slide o fun _ m i => if m ≤ i then some (i - m) else none
def execVsldn (o : VslideOp) : State → Out := slide o fun n m i => if i + m < n then some (i + m) else none

/-! ### `VTRG` (R331) -/

def execVtrg (o : VtrgOp) : State → Out :=
  instrAlways 8 fun s =>
    let sl := s.me
    let a := o.a.toNat
    let w := 2 ^ o.w.toNat
    let n := 4096 / w
    if (List.range 8).any fun r => sl.readsPoison (a + r) w n fun _ => true then .trap fPoison 0
    else
      .done (s.putMe ((List.range 8).foldl (fun out r =>
        out.putElems (a + r) w
          ((List.range n).map fun j => vElem (sl.vr (a + j % 8)).toNat w (j / 8 * 8 + r)) fun _ => true) sl))

/-! ### Conditional streams (R332 to R334) -/

def Slot.condQ (sl : Slot) (q : BitVec 2) : CondQueue := Sparse.get CondQueue.reset sl.q q.toNat
/-- A queue without records has no shape. -/
def Slot.setCondQ (sl : Slot) (q : BitVec 2) (x : CondQueue) : Slot :=
  { sl with q := Sparse.set CondQueue.reset sl.q q.toNat (if x.recs.isEmpty then CondQueue.reset else x) }
def shapeDiffers (x : CondQueue) (fld ew : Nat) : Bool := !x.recs.isEmpty && (x.fld != fld || x.ew != ew)

def execVqpsh (o : VqpshOp) : State → Out :=
  instr o.pr 8 fun s =>
    let sl := s.me
    let x := sl.condQ o.q
    let fld := o.c.toNat + 1
    let act := sl.active o.pr
    let sel := sl.selected o.pr
    if shapeDiffers x fld (vEw sl.vshape) then .trap fIllegal 0
    else if x.recs.length + sel.length > 2048 then .trap fBound 0
    else if (List.range fld).any fun f => sl.readsPoison (o.a.toNat + f) sl.eb sl.n act then .trap fPoison 0
    else
      let rec' (i : Nat) : List Word :=
        (List.range fld).map fun f => BitVec.ofNat 64 (vElem (sl.vr (o.a.toNat + f)).toNat sl.eb i)
      .done (s.putMe (sl.setCondQ o.q ⟨x.recs ++ sel.map rec', fld, vEw sl.vshape⟩))
def execVqpop (o : VqpopOp) : State → Out :=
  instrAlways 8 fun s =>
    let sl := s.me
    let x := sl.condQ o.q
    let fld := o.c.toNat + 1
    let n := sl.n
    if shapeDiffers x fld (vEw sl.vshape) then .trap fIllegal 0
    else
      let k := min n x.recs.length
      let sl := (List.range fld).foldl (fun sl f =>
        let old := (sl.vr (o.d.toNat + f)).toNat
        sl.putElems (o.d.toNat + f) sl.eb
          ((List.range n).map fun i => if i < k then (nth 0 (nth [] x.recs i) f).toNat else vElem old sl.eb i)
          fun i => decide (i < k)) sl
      let sl := sl.setCondQ o.q { x with recs := x.recs.drop k }
      .done (s.putMe (if o.b = 0 then sl else sl.setM o.b.toNat (BitVec.ofNat 4096 (2 ^ k - 1))))
/-- Count and RSHAPE. -/
def vrbal (clr : Bool) (o : VrbalOp) : State → Out :=
  instrAlways 8 fun s =>
    let x := s.me.condQ o.q
    let shape := if x.recs.isEmpty then 0x10 else x.fld - 1 + x.ew * 4
    .done (s.modMe fun sl =>
      let sl := sl.putVDouble o.d.toNat x.recs.length
      let sl := { sl.setV o.d.toNat (VWord.put (sl.vr o.d.toNat) 8 8 shape) with
        vpoison := clearPoison sl.vpoison 8 (4096 * o.d.toNat + 8) 8 }
      if clr then sl.setCondQ o.q CondQueue.reset else sl)
def execVrbal (o : VrbalOp) : State → Out := vrbal false o
def execVrbalClr (o : VrbalOp) : State → Out := vrbal true o

/-! ### Summaries (R356, R357) -/

/-- Updates the record of one kind in a tile with the active elements of V[a]; coins come from state 5. -/
def vsk (pr : Pred) (a : Reg) (top : BitVec 12) (chk : Slot → Chk Unit) (kind : Nat)
    (f : Nat → List Nat → Rec → BitVec 32 → Rec × BitVec 32) : State → Out :=
  instr pr 8 fun s => (chk s.me).then fun _ => withPlace s top true fun c t =>
    let sl := s.me
    let xs := (sl.selected pr).map (vElem (sl.vr a.toNat).toNat sl.eb)
    if sl.readsPoison a.toNat sl.eb sl.n (sl.active pr) then .trap fPoison 0
    else
      withStore s c t false fun s adr =>
        match s.recOf c adr (s.tileAt c t).bytes kind with
        | .error e => .error e
        | .ok r =>
          let (r, x) := f sl.eb xs r ((s.core s.cur.core).gen 5)
          .ok ((s.putRec c adr r).modCore s.cur.core fun co => co.setGen 5 x)
def execVskq (o : VskqOp) : State → Out :=
  vsk o.pr o.a o.top (fmtChk o.fmt) 1 fun _ xs r x =>
    match r with
    | .qsk q =>
      let r := xs.foldl (fun (q, x) v => q.enter x (fpCvt 1 0 0 false (fdec o.fmt.toNat 0 v)).1) (q, x)
      (.qsk r.1, r.2)
    | r => (r, x)
def execVskh (o : VskOp) : State → Out :=
  vsk o.pr o.a o.top (fun sl => failIf (sl.eb == 8) fIllegal) 2 fun _ xs r x =>
    match r with
    | .hhs h => (.hhs (xs.foldl Hhs.enter h), x)
    | r => (r, x)
def execVskd (o : VskOp) : State → Out :=
  vsk o.pr o.a o.top noChk 3 fun _ xs r x =>
    match r with
    | .dcs h => (.dcs (xs.foldl Dcs.enter h), x)
    | r => (r, x)

/-- The quantiles of the bounds a mode uses: lo, then hi. -/
def clipArgs (sl : Slot) (c : Reg) (mode : Nat) : Chk (Option (Nat × Int) × Option (Nat × Int)) :=
  let q (lo : Nat) : Option (Nat × Int) := quantileArg (fdec 1 0 (VWord.nat (sl.vr c.toNat) lo 4))
  let useLo := mode == 0 || mode == 2
  let useHi := mode == 0 || mode == 1
  if (useLo && sl.vpoisoned c.toNat 0 4) || (useHi && sl.vpoisoned c.toNat 4 4) then bad fPoison
  else if (useLo && (q 0).isNone) || (useHi && (q 4).isNone) then bad fBound
  else
    match q 0, q 4 with
    | some (m, e), some (m', e') =>
      if mode = 0 ∧ magGt m e m' e' then bad fBound
      else .ok (if useLo then some (m, e) else none, if useHi then some (m', e') else none)
    | x, y => .ok (if useLo then x else none, if useHi then y else none)
/-- A bound of the clip, converted to the format with rounding rm. -/
def clipBound (k : Qsk) (fmt rm : Nat) (q : Option (Nat × Int)) : Option Nat :=
  match q with
  | none => none
  | some (m, e) => (k.quantile m e).map fun v => (fpCvt fmt 0 rm false (fdec 1 0 v)).1
def clipElem (fmt : Nat) (lo hi : Option Nat) (a : Nat) : Nat × Fl :=
  let v := fdec fmt 0 a
  let below := match lo with | some l => fLtTotal v (fdec fmt 0 l) | none => false
  let above := match hi with | some h => fLtTotal (fdec fmt 0 h) v | none => false
  if v.isNan then ((ffmt fmt).nan 0, flIf v.isSig flIV)
  else if below then (lo.getD 0, 0)
  else if above then (hi.getD 0, 0)
  else (a, 0)
def execVclipq (o : VclipqOp) : State → Out :=
  instr o.pr 8 fun s => (fmtChk o.fmt s.me).then fun _ => (clipArgs s.me o.c o.mode.toNat).then fun (ql, qh) =>
    withPlace s o.top false fun c t =>
      withRead s c t .tile fun s =>
        let sl := s.me
        let n := sl.n
        let eb := sl.eb
        let act := sl.active o.pr
        let tile := s.tileAt c t
        if sl.readsPoison o.a.toNat eb n act then .trap fPoison 0
        else
          (s.recOf c tile.at tile.bytes 1).then fun r =>
            let f := o.fmt.toNat
            let (lo, hi) := match r with
              | .qsk k => (clipBound k f 2 ql, clipBound k f 3 qh)
              | _ => (none, none)
            let x := (sl.vr o.a.toNat).toNat
            let old := (sl.vr o.d.toNat).toNat
            let rs := (List.range n).map fun i => if act i then clipElem f lo hi (vElem x eb i) else (vElem old eb i, 0)
            .done ((s.putMe (sl.putElems o.d.toNat eb (rs.map (·.1)) act)).orFlags (orFl (rs.map (·.2))))

end Sys2Proof.Machine
end

