-- ==== Sys2Proof/Machine/VDispatch.lean ====
section
/-! DEFINITION. The vector stream's words with their meanings (R63). The tags of the later constructors of `Instr` are
beyond what Lean builds at run time, so the step goes from the fields to the meaning at once; the statement StepRunsDecoded
says that this is `exec` of the decoded instruction. -/

namespace Sys2Proof.Machine

/-- Major opcode 0x01. -/
def runV01 (f : Fields) : Option (State → Out) :=
  match f.len, f.fn.toNat with
  | .k32, 0 => some (execViadd f.rrr)
  | .k64, 0 | .k96, 0 => some (execViaddImm f.rri)
  | .k32, 1 => some (execVisub f.rrr)
  | .k64, 1 | .k96, 1 => some (execVisubImm f.rri)
  | .k32, 2 => some (execVimul f.rrr)
  | .k64, 2 | .k96, 2 => some (execVimulImm f.rri)
  | .k32, 3 => some (execVand f.rrr)
  | .k64, 3 | .k96, 3 => some (execVandImm f.rri)
  | .k32, 4 => some (execVor f.rrr)
  | .k64, 4 | .k96, 4 => some (execVorImm f.rri)
  | .k32, 5 => some (execVxor f.rrr)
  | .k64, 5 | .k96, 5 => some (execVxorImm f.rri)
  | .k32, 6 => some (execVshl f.rrr)
  | .k64, 6 | .k96, 6 => some (execVshlImm f.rri)
  | .k32, 7 => some (execVshr f.rrr)
  | .k64, 7 | .k96, 7 => some (execVshrImm f.rri)
  | .k32, 8 => some (execVsra f.rrr)
  | .k64, 8 | .k96, 8 => some (execVsraImm f.rri)
  | _, _ => none

/-- Major opcode 0x02. -/
def runV02 (f : Fields) : Option (State → Out) :=
  match f.len, f.fn.toNat with
  | .k64, 0 => some (execVimad f.rrrr)
  | _, _ => none

/-- Major opcode 0x08. -/
def runV08 (f : Fields) : Option (State → Out) :=
  match f.len, f.fn.toNat with
  | .k64, 0 => some (execVcmpEqF f.fcmp)
  | .k64, 1 => some (execVcmpNeF f.fcmp)
  | .k64, 2 => some (execVcmpLtF f.fcmp)
  | .k64, 3 => some (execVcmpLeF f.fcmp)
  | .k64, 4 => some (execVcmpUnF f.fcmp)
  | .k64, 8 => some (execVcmpEq f.cmpR)
  | .k64, 9 => some (execVcmpNe f.cmpR)
  | .k64, 10 => some (execVcmpLt f.cmpR)
  | .k64, 11 => some (execVcmpGe f.cmpR)
  | .k64, 12 => some (execVcmpLtu f.cmpR)
  | .k64, 13 => some (execVcmpGeu f.cmpR)
  | _, _ => none

/-- Major opcode 0x09. -/
def runV09 (f : Fields) : Option (State → Out) :=
  match f.len, f.fn.toNat with
  | .k32, 0 => some (execVsel f.rrr)
  | _, _ => none

/-- Major opcode 0x0a. -/
def runV0a (f : Fields) : Option (State → Out) :=
  match f.len, f.fn.toNat with
  | .k64, 0 | .k96, 0 => some (execVmov ⟨f.pr, f.d, f.a, f.wide⟩)
  | .k64, 1 =>
    if f.sc then some (execVbcstE ⟨f.pr, f.d, f.a, f.imm⟩) else some (execVbcst ⟨f.pr, f.d, f.immOp⟩)
  | .k96, 1 => if !f.sc then some (execVbcst ⟨f.pr, f.d, f.immOp⟩) else none
  | .k64, 2 | .k96, 2 => some (execViota ⟨f.pr, f.d, f.immOp⟩)
  | _, _ => none

/-- Major opcode 0x0b. -/
def runV0b (f : Fields) : Option (State → Out) :=
  match f.len, f.fn.toNat with
  | .k64, 0 => some (execVshp f.a)
  | .k96, 0 => some (execVshpK96 f.lit)
  | _, _ => none

/-- Major opcode 0x0c. -/
def runV0c (f : Fields) : Option (State → Out) :=
  match f.len, f.fn.toNat with
  | .k64, 0 => some (execVmlogAnd f.mlog)
  | .k64, 1 => some (execVmlogOr f.mlog)
  | .k64, 2 => some (execVmlogXor f.mlog)
  | .k64, 3 => some (execVmlogAndn f.mlog)
  | .k64, 4 => some (execVmlogNot ⟨f.pd, f.pa⟩)
  | .k64, 5 => some (execVmlogCnt ⟨f.d, f.pa⟩)
  | .k64, 6 => some (execVmlogFst ⟨f.d, f.pa⟩)
  | _, _ => none

/-- Major opcode 0x20. -/
def runV20 (f : Fields) : Option (State → Out) :=
  match f.len, f.fn.toNat with
  | .k64, 0 => some (execVadd f.fpRRR)
  | .k64, 1 => some (execVsub f.fpRRR)
  | .k64, 2 => some (execVmul f.fpRRR)
  | .k64, 3 => some (execVdiv f.fpRRR)
  | .k64, 4 => some (execVmin f.fpRRRx)
  | .k64, 5 => some (execVmax f.fpRRRx)
  | .k64, 6 => some (execVsqrt f.fpRR)
  | .k64, 7 => some (execVabs f.fpRRx)
  | .k64, 8 => some (execVneg f.fpRRx)
  | _, _ => none

/-- Major opcode 0x21. -/
def runV21 (f : Fields) : Option (State → Out) :=
  match f.len, f.fn.toNat with
  | .k64, 0 => some (execVfma f.fpRRRR)
  | .k64, 1 => some (execVfms f.fpRRRR)
  | _, _ => none

/-- Major opcode 0x22. -/
def runV22 (f : Fields) : Option (State → Out) :=
  match f.len, f.fn.toNat with
  | .k64, 0 => some (execVrcp f.vspec)
  | .k64, 1 => some (execVrsq f.vspec)
  | .k64, 2 => some (execVexp2 f.vspec)
  | .k64, 3 => some (execVlog2 f.vspec)
  | .k64, 4 => some (execVsin f.vspec)
  | .k64, 5 => some (execVcos f.vspec)
  | .k64, 6 => some (execVsigm f.vspec)
  | .k64, 7 => some (execVtanh f.vspec)
  | _, _ => none

/-- Major opcode 0x23. -/
def runV23 (f : Fields) : Option (State → Out) :=
  match f.len, f.fn.toNat with
  | .k64, 0 => some (execVcvtFf f.vcvt)
  | .k64, 1 => some (execVcvtFpToElem f.vcvt)
  | .k64, 2 => some (execVcvtElemToFp f.vcvt)
  | .k64, 3 => some (execVcvtFpToIntfmt f.vcvt)
  | .k64, 4 => some (execVcvtIntfmtToFp f.vcvt)
  | .k64, 5 => some (execVcvtElemToElem f.vcvt)
  | _, _ => none

/-- Major opcode 0x24. -/
def runV24 (f : Fields) : Option (State → Out) :=
  match f.len, f.fn.toNat with
  | .k64, 0 => some (execVredsF f.vreds)
  | .k64, 1 => some (execVredsSq f.vreds)
  | .k64, 2 => some (execVredsI ⟨f.pr, f.d, f.a, f.ovf, f.sc⟩)
  | .k64, 8 => some (execVredxMax f.vredx)
  | .k64, 9 => some (execVredxMin f.vredx)
  | .k64, 10 => some (execVredxImax f.vredxI)
  | .k64, 11 => some (execVredxImin f.vredxI)
  | .k64, 12 => some (execVredxUmax f.vredxI)
  | .k64, 13 => some (execVredxUmin f.vredxI)
  | .k64, 14 => some (execVredxArg f.fpRRx)
  | _, _ => none

/-- Major opcode 0x30. -/
def runV30 (f : Fields) : Option (State → Out) :=
  match f.len, f.fn.toNat with
  | .k64, 0 | .k96, 0 => some (execBV f.immOp)
  | _, _ => none

/-- Major opcode 0x35. -/
def runV35 (f : Fields) : Option (State → Out) :=
  match f.len, f.fn.toNat with
  | .k64, 0 | .k96, 0 => some (execHloopV ⟨false, f.hloop⟩)
  | .k64, 1 | .k96, 1 => some (execHloopV ⟨true, f.hloop⟩)
  | _, _ => none

/-- Major opcode 0x40. -/
def runV40 (f : Fields) : Option (State → Out) :=
  match f.len, f.fn.toNat with
  | .k64, 0 | .k96, 0 =>
    if f.sc then some (execVldX ⟨f.pr, f.d, f.a, f.im 0 12, f.off⟩) else some (execVld ⟨f.pr, f.d, f.im 0 12, f.off⟩)
  | .k64, 1 | .k96, 1 =>
    if f.sc then some (execVstX ⟨f.pr, f.a, f.b, f.im 0 12, f.off⟩) else some (execVst ⟨f.pr, f.b, f.im 0 12, f.off⟩)
  | _, _ => none

/-- Major opcode 0x41. -/
def runV41 (f : Fields) : Option (State → Out) :=
  match f.len, f.fn.toNat with
  | .k64, 0 =>
    if f.sc then some (execVgathQ ⟨f.pr, f.d, f.b, f.im 0 12⟩) else some (execVgath ⟨f.pr, f.d, f.b, f.im 0 12⟩)
  | .k64, 1 => some (execVscat ⟨f.pr, f.a, f.b, f.im 0 12⟩)
  | _, _ => none

/-- Major opcode 0x42. -/
def runV42 (f : Fields) : Option (State → Out) :=
  match f.len, f.fn.toNat with
  | .k64, 0 => some (execVacld (f.vac f.d))
  | .k64, 1 => some (execVacst (f.vac f.b))
  | _, _ => none

/-- Major opcode 0x50. -/
def runV50 (f : Fields) : Option (State → Out) :=
  match f.len, f.fn.toNat with
  | .k32, 0 => some (execVcmpr f.rr)
  | .k32, 1 => some (execVexpd f.rr)
  | _, _ => none

/-- Major opcode 0x51. -/
def runV51 (f : Fields) : Option (State → Out) :=
  match f.len, f.fn.toNat with
  | .k64, 0 => some (execVslup f.vslide)
  | .k64, 1 => some (execVsldn f.vslide)
  | _, _ => none

/-- Major opcode 0x52. -/
def runV52 (f : Fields) : Option (State → Out) :=
  match f.len, f.fn.toNat with
  | .k64, 0 => some (execVtrg ⟨0, f.a⟩)
  | .k64, 1 => some (execVtrg ⟨1, f.a⟩)
  | .k64, 2 => some (execVtrg ⟨2, f.a⟩)
  | _, _ => none

/-- Major opcode 0x53. -/
def runV53 (f : Fields) : Option (State → Out) :=
  match f.len, f.fn.toNat with
  | .k64, 0 => some (execVqpsh ⟨f.pr, f.a, f.c, f.im 0 2⟩)
  | .k64, 1 => some (execVqpop ⟨f.d, f.pb, f.c, f.im 0 2⟩)
  | .k64, 2 => if f.sc then some (execVrbalClr ⟨f.d, f.im 0 2⟩) else some (execVrbal ⟨f.d, f.im 0 2⟩)
  | _, _ => none

/-- Major opcode 0x55. -/
def runV55 (f : Fields) : Option (State → Out) :=
  match f.len, f.fn.toNat with
  | .k64, 1 => some (execNoteV f.pr)
  | _, _ => none

/-- Major opcode 0x60. -/
def runV60 (f : Fields) : Option (State → Out) :=
  match f.len, f.fn.toNat with
  | .k64, 0 => some (execVskq ⟨f.pr, f.a, f.fmt, f.im 0 12⟩)
  | .k64, 1 => some (execVskh f.vsk)
  | .k64, 2 => some (execVskd f.vsk)
  | _, _ => none

/-- Major opcode 0x61. -/
def runV61 (f : Fields) : Option (State → Out) :=
  match f.len, f.fn.toNat with
  | .k64, 0 => some (execVclipq ⟨f.pr, f.d, f.a, f.c, f.fmt, f.im 0 12, f.im 12 2⟩)
  | _, _ => none

/-- Major opcode 0x73. -/
def runV73 (f : Fields) : Option (State → Out) :=
  match f.len, f.fn.toNat with
  | .k32, 0 => some (execTfenceV f.pr)
  | _, _ => none

/-- Major opcode 0x74. -/
def runV74 (f : Fields) : Option (State → Out) :=
  match f.len, f.fn.toNat with
  | .k32, 0 => some (execFlagsV ⟨f.pr, f.d⟩)
  | _, _ => none

/-- Major opcode 0x75. -/
def runV75 (f : Fields) : Option (State → Out) :=
  match f.len, f.fn.toNat with
  | .k32, 0 => some (execBrk f.pr)
  | _, _ => none

/-- Major opcode 0x76. -/
def runV76 (f : Fields) : Option (State → Out) :=
  match f.len, f.fn.toNat with
  | .k32, 0 => some (execHaltV f.pr)
  | _, _ => none

/-- Major opcode 0x77. -/
def runV77 (f : Fields) : Option (State → Out) :=
  match f.len, f.fn.toNat with
  | .k32, 0 => some (execNop f.pr)
  | _, _ => none

/-- The meaning of a vector-stream word: what `exec` does with the instruction that the decoder reads from it. -/
def runV (f : Fields) : Option (State → Out) :=
  match f.op.toNat with
  | 0x01 => runV01 f
  | 0x02 => runV02 f
  | 0x08 => runV08 f
  | 0x09 => runV09 f
  | 0x0a => runV0a f
  | 0x0b => runV0b f
  | 0x0c => runV0c f
  | 0x20 => runV20 f
  | 0x21 => runV21 f
  | 0x22 => runV22 f
  | 0x23 => runV23 f
  | 0x24 => runV24 f
  | 0x30 => runV30 f
  | 0x35 => runV35 f
  | 0x40 => runV40 f
  | 0x41 => runV41 f
  | 0x42 => runV42 f
  | 0x50 => runV50 f
  | 0x51 => runV51 f
  | 0x52 => runV52 f
  | 0x53 => runV53 f
  | 0x55 => runV55 f
  | 0x60 => runV60 f
  | 0x61 => runV61 f
  | 0x73 => runV73 f
  | 0x74 => runV74 f
  | 0x75 => runV75 f
  | 0x76 => runV76 f
  | 0x77 => runV77 f
  | _ => none

/-- Fetch, decode and execution of the next word of the current slot's V stream. -/
def State.vIssue (s : State) : Out :=
  let c := s.cur.core
  let k := s.cur.slot
  let s := s.fetchMisses c k .v
  match s.fetch c k .v with
  | .error (code, eva) => .next (s.trapEntry c k code .v s.pc eva)
  | .ok w =>
    match fieldsOf w with
    | none => .next (s.trapEntry c k fIllegal .v s.pc 0)
    | some f =>
      match checkV f with
      | some .format => .next (s.trapEntry c k fFormat .v s.pc 0)
      | some .illegal => .next (s.trapEntry c k fIllegal .v s.pc 0)
      | none =>
        match runV f with
        | some run => run s
        | none => .next (s.trapEntry c k fIllegal .v s.pc 0)

end Sys2Proof.Machine
end

