-- ==== Sys2Proof/Machine/Heads.lean ====
section
/-! DEFINITION. Ring heads (R137 to R139, R210, R213, R239, R291, R390), the end of commands, and the engines' draws,
quanta, yields and drains (R144 to R148, R160, R425 to R427, R496). -/

namespace Sys2Proof.Machine

def decCode : DecErr → Code
  | .illegal => fIllegal
  | .format => fFormat

/-! ### Stage 4b: checks and operands -/

/-- The operands of the head of a ring of the current slot. -/
def State.headSpecs (s : State) (r : RingId) : List OpSpec :=
  let w := (s.me.ring r).headBits r
  match r with
  | .m =>
    (match copOf w with
    | 1 | 2 => mmaOps (mmaRegs s.me w) s.cur.core
    | 4 => [opTile (mxfOf w).top true]
    | 5 => [opTile (mxfOf w).top false]
    | _ => [])
  | .x => (match xKind w with | some q => xOps q (xOf w) | none => [])
  | .s => [opTile (sOf w).src false]
  | .k => []
/-- Its checks with the operands resolved so far; what it reads then. -/
def State.headCheck (s : State) (r : RingId) (h : HeadSt) (ops : List (Option OpRef)) : Chk (BitVec 1024) :=
  let w := (s.me.ring r).headBits r
  match r with
  | .m =>
    (match copOf w with
    | 1 | 2 => mmaCheck s (mmaRegs s.me w) ops
    | 4 => mxfCheck' s (mxfOf w) true ops
    | 5 => mxfCheck' s (mxfOf w) false ops
    | _ => .ok 0)
  | .x => (match xKind w with | some q => xCheck s q (xOf w) h ops | none => .ok 0)
  | .s => sCheck s (sOf w) ops
  | .k => .ok 0
/-- It writes its destination's shadow: SHD, or the vintages of an `MMA`. -/
def headShd (r : RingId) (w : BitVec 128) : Bool :=
  (r == .m && (copOf w == 1 || copOf w == 2)) || (headOf w).shd
/-- Another command fills the shadow that `XPUB` publishes. -/
def State.pubWaits (s : State) (r : RingId) : Bool :=
  let w := (s.me.ring r).headBits r
  r == .x && xKind w == some .pub && s.shadowBusy s.cur.core (xOwn s.cur.slot (xOf w))
/-- What a command reads when its operands are all taken: the codebook of a CB4 operand (R266). -/
def State.headReads (s : State) (r : RingId) (h : HeadSt) : Chk (BitVec 1024) :=
  let w := (s.me.ring r).headBits r
  let m := mmaRegs s.me w
  if r == .m && (copOf w == 1 || copOf w == 2) && gFmt m.gb == 0x17 then
    let (c, a) := opAt h (mmaBIdx m s.cur.core)
    if s.spPoisoned c (a + gOff m.gb) 32 then bad fPoison
    else .ok (BitVec.ofNat 1024 (leNat (s.spRead c (a + gOff m.gb) 32)))
  else .ok h.desc

/-- The operands that this try has resolved: the check for an unshadowed tile that is sealed is made once (R390). -/
def newOps (old ops : List (Option OpRef)) : List (Option OpRef) :=
  (List.range ops.length).map fun i => if (nth none old i).isSome then none else nth none ops i
/-- The tile that `XPUB` names is fetched back (R211). -/
def State.namePub (s : State) (r : RingId) : State × Bool :=
  let w := (s.me.ring r).headBits r
  if r == .x && xKind w == some .pub then s.nameTile s.cur.core (xOwn s.cur.slot (xOf w)) else (s, true)
/-- Stage 4b of the current slot's head. -/
def State.headTake (s : State) (r : RingId) : State :=
  let c := s.cur.core
  let k := s.cur.slot
  let w := (s.me.ring r).headBits r
  let h := s.headAt c k r
  let specs := s.headSpecs r
  let ops := s.resolveOps c k specs h.ops
  let shd := headShd r w
  match s.headCheck r h ops with
  | .error (code, eva) => s.headFault c k r code eva
  | .ok desc =>
    let s := s.modHead c k r fun h => { h with ops := ops, desc := desc }
    if s.sealedDst specs (if shd then ops else newOps h.ops ops) then
      (if shd then s.modHead c k r fun h => { h with phase := .finished, sealCut := true, waitFor := none }
      else s.headFault c k r fVintage 0)
    else if s.pubWaits r then s.modHead c k r fun h => { h with waitFor := some .tile }
    else
      match (match s.namePub r with | (s, true) => s.takeOps c k r shd specs | (s, false) => (s, some .tile)) with
      | (s, some w) => s.modHead c k r fun h => { h with waitFor := some w }
      | (s, none) =>
        match s.headReads r (s.headAt c k r) with
        | .error (code, eva) => s.headFault c k r code eva
        | .ok d => s.modHead c k r fun h => { h with phase := .ready, desc := d, waitFor := none }

/-! ### Stages 1 to 4a -/

def isNote (r : RingId) (w : BitVec 128) : Bool :=
  match r with
  | .m => copOf w == 6
  | .x => copOf w == 11
  | .s => copOf w == 4
  | .k => false

/-- Stage 3, then 4a or 4b. -/
def State.headAwait (s : State) (r : RingId) (run : Bool) : State :=
  let c := s.cur.core
  let k := s.cur.slot
  let sl := s.me
  let w := (sl.ring r).headBits r
  if cAws w ≠ 0 ∧ (sl.sem (cAws w)).done.toNat < cAwc r w then s
  else
    let s := s.learn (cAws w) (cAwc r w)
    if !run then (s.modSlot c k fun sl => sl.modRing r (·.pop)).raiseCmd ⟨c, k, strmOfRing r⟩ (cRss w)
    else
      let s := s.modHead c k r fun h => { h with phase := .decided, waitFor := none }
      if isNote r w then noteEnd r s else s.headTake r

/-- The unit at which a stalled head stands can go on (R250). -/
def State.unstalled (s : State) (r : RingId) : Bool :=
  let w := (s.me.ring r).headBits r
  let h := { s.headAt s.cur.core s.cur.slot r with hostC := none }
  let s := s.modHead s.cur.core s.cur.slot r fun _ => h
  let goes (p : Plan) : Bool :=
    match (if h.prog < p.n then p.unit s h.prog else p.last s) with
    | .stall _ _ => false
    | _ => true
  match r with
  | .m => let m := mmaRegs s.me w; decide (m.ks / 16 ≤ (s.me.mqOf m.c.mq.toNat).length)
  | .x => (match xKind w with | some q => goes (xPlan q (xOf w) s h) | none => true)
  | .s => goes (sPlan (copOf w) (sOf w) s h)
  | .k => true

/-- The head of a ring of the current slot goes as far as it can on its way to its engine. -/
def State.headStep (s : State) (r : RingId) : State :=
  let c := s.cur.core
  let k := s.cur.slot
  let sl := s.me
  let q := sl.ring r
  let w := q.headBits r
  match q.head.phase with
  | .fresh =>
    (match checkCmd r w with
    | some e => s.headFault c k r (decCode e) 0
    | none =>
      if r = .m ∧ (copOf w = 1 ∨ copOf w = 2) ∧ q.doneCnt < q.img then s.headFault c k r fIllegal 0
      else
        let g := sl.guard (cGds w)
        if g = 0 then s.modHead c k r fun h => { h with waitFor := some .guard }
        else
          let run := decide (g = 1) == !w.getLsbD 22
          (s.modHead c k r fun h =>
            { h with phase := if run then .awaitRun else .awaitDrop, waitFor := none }).headAwait r run)
  | .awaitRun => s.headAwait r true
  | .awaitDrop => s.headAwait r false
  | .decided => if isNote r w then noteEnd r s else s.headTake r
  | .ready | .active =>
    if q.head.stalled && s.unstalled r then
      s.modHead c k r fun h => { h with stalled := false, waitFor := none, hostC := none }
    else s
  | .finished => s

/-- A ring's head may be processed: present, of a launched task, its stream neither held, stopped nor stopping. -/
def Slot.headLive (sl : Slot) (r : RingId) : Bool :=
  let st := strmOfRing r
  let q := sl.ring r
  sl.t.launched && !sl.out && q.len != 0 && !q.ended && q.head.held.isNone && !sl.stopping st
    && !Sparse.get false sl.estopped (strmNo st) && !sl.stepped r

/-- `HEAD_DECIDE`. -/
def execHeadDecide (o : HeadRef) (s : State) : Out :=
  match o.ring with
  | .k => execKernelStart ⟨o.core, o.slot⟩ s
  | r =>
    if (s.slotAt o.core o.slot).headLive r && !(s.core o.core).frozen then
      .next (s.withCur ⟨o.core, o.slot, strmOfRing r⟩ fun s => s.headStep r)
    else .next s

/-! ### Completion (R138, R252, R298, R390) -/

/-- An `MMA` at the head has published a vintage: a pass of it has ended. -/
def mmaPassed (sl : Slot) (h : HeadSt) : Bool := decide (passUnits (mmaRegs sl (sl.mring.headBits .m)).rows ≤ h.prog)
/-- The last effect of a command: the state, the code of CMD_END and the vintage; or the fault. An `MMA` that a seal ended
ends with code 0 and the last vintage it published. -/
def State.headEnd (s : State) (r : RingId) : Except (Code × Word) (State × Nat × Nat) :=
  let c := s.cur.core
  let k := s.cur.slot
  let w := (s.me.ring r).headBits r
  let h := s.headAt c k r
  let x := xOf w
  let dst (hold : Bool) : Except (Code × Word) (State × Nat × Nat) :=
    match s.endDst c k hold h with
    | some r => .ok r
    | none => .error (fVintage, 0)
  match r with
  | .m =>
    if copOf w = 1 ∨ copOf w = 2 then
      .ok (s, 0, match h.dst with | some d => (if mmaPassed s.me h then (s.tileAt d.core d.abs).vint else 0) | none => 0)
    else dst false
  | .x =>
    let swap : Except (Code × Word) (State × Nat × Nat) := (s.exchange (xAgent c k) h.desc.toNat).map fun s => (s, 0, 0)
    (match xKind w with
    | some .pub =>
      (match s.publish ⟨c, k⟩ c (xOwn k x) false with
      | .published s => .ok (s, 0, (s.tileAt c (xOwn k x)).vint)
      | .refused s => .ok (s, stSealed.toNat, 0)
      | .fault => .error (fVintage, 0))
    | some .pubM => swap
    | some .cpyS => if x.h.shd && !x.hold then swap else dst x.hold
    | some .filM => if x.h.shd && !x.hold then swap else dst x.hold
    | _ => dst x.hold)
  | _ => dst false

/-- A group whose member leaves: the others' tenures end unless they are finished too. -/
def State.leaveGroup (s : State) (c k : Nat) : State :=
  let g := (s.core c).group
  if g.all fun x => (s.headAt x.core x.slot .m).phase == .finished then
    s.modCore c fun co => { co with group := [] }
  else s.disband ⟨c, k⟩

/-- `COMMAND_COMPLETE`: a head that has done all its work. -/
def execCommandComplete (o : HeadRef) (s : State) : Out :=
  let h := s.headAt o.core o.slot o.ring
  if h.phase ≠ .finished ∨ h.held.isSome ∨ (s.ringAt o.core o.slot o.ring).len = 0 ∨ (s.slotAt o.core o.slot).out ∨
      (s.core o.core).frozen then .next s
  else
    .next (s.withCur ⟨o.core, o.slot, strmOfRing o.ring⟩ fun s =>
      match s.headEnd o.ring with
      | .error (code, eva) => s.headFault o.core o.slot o.ring code eva
      | .ok (s, code, vint) =>
        let s := if o.ring = .m ∧ (s.core o.core).group.contains ⟨o.core, o.slot⟩ then s.leaveGroup o.core o.slot else s
        s.retireHead o.core o.slot o.ring code vint)

/-! ### Readiness (R134, R144, R146) -/

/-- A V stream that resumes at the end of a cut loop's epilogue refills the loop (R188). -/
def State.refillV (s : State) (c k : Nat) : State :=
  match (s.slotAt c k).vs.loops with
  | l :: _ => if l.cut ∧ l.pass + 1 = l.limit + l.stages then s.modSlot c k (·.refill .v) else s
  | [] => s
/-- The V stream's next instruction can issue: tried on a copy of the state. -/
def State.vReady (s : State) (c k : Nat) : Bool :=
  let sl := s.slotAt c k
  sl.canStart .vxe &&
    sl.vs.waiting != some .kernel
    && (match (({ s with cur := ⟨c, k, .v⟩ } : State).refillV c k).vIssue with
      | .next t => (t.slotAt c k).vs.waiting.isNone || (t.slotAt c k).vs.waiting == some .kernel
      | _ => true)
/-- A slot's head at an engine is ready. -/
def State.isReady (s : State) (c k : Nat) (e : Engine) : Bool :=
  let sl := s.slotAt c k
  sl.t.launched && !sl.out && !(s.core c).frozen &&
    (match e with
    | .vxe => s.vReady c k
    | e => s.canStart c k e)
def allEngines : List Engine := [.mxe, .vxe, .cpe, .sie]

/-- Since which cycle each waiting head has been ready, brought up to the present cycle; a frozen core's stand still. -/
def State.noteReady (s : State) : State :=
  s.cores.foldl (fun s (c, co) =>
    if co.frozen || co.slots.all fun (_, sl) => sl.task.isNone then s
    else allEngines.foldl (fun s e =>
      let x := co.eng e
      let ready := (List.range 8).filter fun k => x.holder != some k && s.isReady c k e
      let since := ready.foldl (fun l k => Sparse.put l k (Sparse.get s.cycle x.readySince k)) []
      s.modEng c e fun x => { x with readySince := since }) s) s

/-! ### Draws (R144 to R148) -/

/-- A draw among candidates in slot order, at least one: the winner. -/
def State.drawAmong (s : State) (c : Nat) (e : Engine) (cands : List Nat) : State × Nat :=
  let x := (s.core c).eng e
  let waited (k : Nat) : Nat := s.cycle - Sparse.get s.cycle x.readySince k
  let (s, k) :=
    match cands.filter fun k => decide (2 ^ 20 ≤ waited k) with
    | a :: t =>
      let k := t.foldl (fun best k => if waited best < waited k then k else best) a
      ((s.trace c k 10 (strmOfEngine e) 0 (engNo e)).count c 0x0A (some k), k)
    | [] =>
      let r := drawPick ((s.core c).gen (engNo e)) (cands.map fun k => s.effective c k e)
      (s.modCore c fun co => co.setGen (engNo e) r.2, nth 0 cands r.1)
  let s := (s.count c 0x09 (some k)).modSlot c k fun sl => { sl with comp := Sparse.set 0 sl.comp (engNo e) 0 }
  (s.modEng c e fun x => { x with readySince := x.readySince.filter fun (i, _) => i != k }, k)
/-- A draw at a free engine; its winner starts. -/
def State.drawFree (s : State) (c : Nat) (e : Engine) (cands : List Nat) : State :=
  if cands.isEmpty then s
  else
    let (s, k) := s.drawAmong c e cands
    s.modEng c e fun x => x.start k s.cycle
def State.candidates (s : State) (c : Nat) (e : Engine) : List Nat := (List.range 8).filter fun k => s.isReady c k e

/-- `DRAW` at an idle engine; the slot whose `YIELD` made it free takes part only where no other is ready (R160). -/
def execDraw (o : EngRef) (s : State) : Out :=
  let x := (s.core o.core).eng o.eng
  if x.holder.isSome || (s.core o.core).frozen then .next s
  else
    let all := s.candidates o.core o.eng
    let others := all.filter fun k => x.exclude != some k
    if all.isEmpty then
      .next (if x.exclude.isNone then s else s.modEng o.core o.eng fun x => { x with exclude := none })
    else .next (s.drawFree o.core o.eng (if others.isEmpty then all else others))

/-- `QUANTUM_EXPIRY` of an engine's holder. -/
def execQuantumExpiry (o : EngRef) (s : State) : Out :=
  let c := o.core
  let e := o.eng
  let x := (s.core c).eng e
  match x.holder with
  | none => .next s
  | some h =>
    let others := (s.candidates c e).filter (· != h)
    if x.draining || (s.core c).frozen || decide (s.cycle < x.quantumStart + quantum e) then .next s
    else if others.isEmpty then .next (s.modEng c e fun x => { x with quantumStart := x.quantumStart + quantum e })
    else
      let (s, k) := s.drawAmong c e ((List.range 8).filter fun k => k == h || others.contains k)
      if k = h then .next (s.modEng c e fun x => { x with quantumStart := x.quantumStart + quantum e })
      else
        .next ((s.modEng c e fun x => { x with draining := true, next := some k }).requestStop c h (strmOfEngine e) .preempt)

/-- `YIELD` (R160). -/
def State.yieldAt (s : State) (e : Engine) : State :=
  let c := s.cur.core
  let k := s.cur.slot
  let x := (s.core c).eng e
  if x.holder = some k ∧ !x.draining ∧ (s.candidates c e).any (· != k) then
    (s.modEng c e fun x => { x with draining := true, next := none, exclude := some k }).requestStop c k (strmOfEngine e) .yield
  else s
def execYield (o : YieldOp) : State → Out :=
  instr o.pr (wideLen o.wide) fun s =>
    .done ((allEngines.filter fun e => o.mask.getLsbD (engNo e)).foldl (fun s e => s.yieldAt e) s)

/-! ### Drains (R425 to R427, R496) -/

/-- A stream with a stop request stands where its drain ends. -/
def State.drained (s : State) (r : StrmRef) : Bool :=
  let sl := s.slotAt r.core r.slot
  match r.strm with
  | .c => sl.cs.canStop
  | .v => sl.vs.canStop
  | st =>
    let id := ringOf st
    let h := (sl.ring id).head
    sl.stopping st && (Sparse.get false sl.estopped (strmNo st) || h.held.isSome || (sl.ring id).len == 0
      || (h.phase != .finished && (h.phase != .active || sl.headAtStop id)))
def State.stopCauseOf (s : State) (r : StrmRef) : Option StopCause :=
  let sl := s.slotAt r.core r.slot
  match r.strm with
  | .c => sl.cs.stopReq
  | .v => sl.vs.stopReq
  | st => Sparse.get none sl.estop (strmNo st)
/-- The request is served: the stream may go on, or stands stopped. A V stream goes on when it holds the engine again, and
stands at its stop point until then. -/
def Slot.endStop (sl : Slot) (st : Strm) (goesOn : Bool) : Slot :=
  match st with
  | .v => sl.modSs .v fun ss => { ss with stopReq := if goesOn then none else ss.stopReq, stopped := !goesOn }
  | .c =>
    let sl := if goesOn then sl.refill .c else sl
    sl.modSs .c fun ss =>
      { ss with stopReq := if goesOn then none else ss.stopReq, stopped := !goesOn, atStop := ss.atStop && !goesOn }
  | st =>
    let i := strmNo st
    let sl := sl.modRing (ringOf st) fun q => { q with head := { q.head with hostC := none } }
    if goesOn then { sl with estop := sl.estop.put i none, estopped := sl.estopped.put i false }
    else { sl with estopped := sl.estopped.put i true }
/-- The tenure that a drain leaves ends, and a group is given up; the draw follows. -/
def State.leaveEngine (s : State) (r : StrmRef) : State :=
  let c := r.core
  let k := r.slot
  let s := if r.strm = .m ∧ (s.core c).group.contains ⟨c, k⟩ then s.disband ⟨c, k⟩ else s
  match engineOf r.strm with
  | none => s
  | some e => s.endTenure c k e

/-- `DRAIN_END`. -/
def execDrainEnd (o : StrmRef) (s : State) : Out :=
  match s.stopCauseOf o with
  | none => .next s
  | some cause =>
    if !s.drained o then .next s
    else
      let goesOn := cause == .preempt || cause == .yield
      let s := match o.strm with
        | .c | .v => if !goesOn then (s.abandonWait o.core o.slot o.strm).dropEarly (.strm o) else s
        | _ => s
      let s := s.modSlot o.core o.slot fun sl =>
        let sl := sl.endStop o.strm goesOn
        if sl.dbg.st = .halting then { sl with dbg := { sl.dbg with stepStrm := strmNo o.strm } } else sl
      .next (s.leaveEngine o)

end Sys2Proof.Machine
end

