-- ==== Sys2Proof/Machine/Place.lean ====
section
/-! DEFINITION. Gates and placement: job cards, gang descriptors and what refuses them (R18 to R24, R30, R37 to
R40), dealing, cutting, seating, gangs and balancing (R102, R103, R115 to R130). A die is named by its index among
the partition's dies (R116). -/

namespace Sys2Proof.Machine

/-! ### Job cards (R18, R19) -/

def Card.f (c : Card) (lo n : Nat) : Nat := bitsN c.toNat lo n
/-- KIND and BOUND of the levels, outermost first. -/
def Card.levels (c : Card) : List (Nat × Nat) :=
  (List.range (c.f 160 3)).map fun k => (c.f (512 + 64 * k + 32) 2, c.f (512 + 64 * k) 32)
/-- The C and D levels. -/
def Card.spatial (c : Card) : List (Nat × Nat) := c.levels.filter fun (k, _) => k != 0
/-- N (R20). -/
def Card.records (c : Card) : Nat := c.spatial.foldl (fun a (_, b) => a * b) 1
/-- A spatial level at level number k. -/
def Card.spatialAt (c : Card) (k : Nat) : Option (Nat × Nat) :=
  match c.levels[k]? with
  | some (kd, b) => if kd = 0 then none else some (kd, b)
  | none => none
def Card.sameSpatial (a b : Card) : Bool := (List.range 6).all fun k => a.spatialAt k == b.spatialAt k
/-- The indirect count replaces BOUND of the outermost spatial level (R30). -/
def Card.setCount (c : Card) (v : Nat) : Card :=
  match (List.range 6).find? fun k => (c.spatialAt k).isSome with
  | some k => BitVec.ofNat 1024 (setBitsN c.toNat (512 + 64 * k) 32 v)
  | none => c

/-- Orders 1 to 3 of R40, for a card. -/
def Card.check (c : Card) (gang : Bool) : Option Code :=
  let l := c.f 160 3
  let captab := if c.f 240 8 = 0 then 0 else c.f 320 64
  if c.f 163 5 ≠ 0 ∨ c.f 173 3 ≠ 0 ∨ c.f 248 72 ≠ 0 ∨ c.f 384 128 ≠ 0 ∨ c.f 896 128 ≠ 0 ∨ l > 6 then some fIllegal
  else if (List.range 6).any fun k =>
      if k < l then c.f (512 + 64 * k + 34) 30 != 0 || c.f (512 + 64 * k + 32) 2 == 3 else c.f (512 + 64 * k) 64 != 0
    then some fIllegal
  else if c.f 128 16 < 8 ∨ c.f 128 16 > 4096 ∨ c.f 128 16 % 8 ≠ 0 ∨ c.f 240 8 > 32 then some fIllegal
  else if bitN c.toNat 172 != gang then some fIllegal
  else if c.f 0 8 ≠ 0 ∨ c.f 64 3 ≠ 0 ∨ captab % 16 ≠ 0 then some fAlign
  else if c.f 52 12 ≠ 0 ∨ c.f 116 12 ≠ 0 ∨ captab / 2 ^ 52 ≠ 0 then some fPage
  else none
/-- A declared need beyond the slot share (R23). -/
def Card.overShare (c : Card) : Bool :=
  decide (c.f 176 16 > 256 ∨ c.f 192 8 > 24 ∨ c.f 200 8 > 128 ∨ c.f 208 8 > 64 ∨ c.f 216 8 > 64 ∨ c.f 224 8 > 16
    ∨ c.f 232 8 > 16)

/-! ### Gang descriptors (R37, R38) -/

/-- A named pipe. -/
structure Pipe where
  pmem : Nat
  pcb : Nat
  cmem : Nat
  ccb : Nat
  depth : Nat
  tkb : Nat
def pipeOf (w : Nat) : Pipe :=
  ⟨bitsN w 0 2, bitsN w 2 4, bitsN w 6 2, bitsN w 8 4, bitsN w 16 8, bitsN w 24 8⟩
def Card.pipes (d : Card) : List Pipe := (List.range (d.f 3 4)).map fun k => pipeOf (d.f (320 + 64 * k) 64)
/-- Granules of a pipe's ring. -/
def Pipe.granules (x : Pipe) : Nat := x.depth * x.tkb * 16
/-- Orders 1 and 2 of R40, for a descriptor. -/
def Card.gangCheck (d : Card) : Option Code :=
  let m := d.f 0 3
  let n := d.f 3 4
  let bad (k : Nat) : Bool :=
    let w := d.f (320 + 64 * k) 64
    let x := pipeOf w
    bitsN w 12 4 != 0 || bitsN w 32 32 != 0 || decide (x.pmem ≥ m ∨ x.cmem ≥ m) || x.pmem == x.cmem
      || decide (x.depth < 2 ∨ x.depth > 64 ∨ x.tkb < 1 ∨ x.tkb > 64)
  if m < 2 ∨ m > 4 ∨ n > 8 ∨ d.f 7 2 > 1 ∨ d.f 9 55 ≠ 0 ∨ d.f 832 192 ≠ 0 then some fIllegal
  else if (List.range 4).any fun k => decide (m ≤ k) && d.f (64 + 64 * k) 64 != 0 then some fIllegal
  else if (List.range 8).any fun k => if k < n then bad k else d.f (320 + 64 * k) 64 != 0 then some fIllegal
  else if (List.range m).any fun k => d.f (64 + 64 * k) 7 != 0 then some fAlign
  else none
/-- Same core, or mesh distance 1 on a die (R4, R127). -/
def meshNear (a b : Nat) : Bool :=
  let d (x y : Nat) : Nat := x - y + (y - x)
  a == b || (dieOf a == dieOf b && d (a % 48 / 8) (b % 48 / 8) + d (a % 8) (b % 8) == 1)
/-- The pipes whose ends are placed are near enough. -/
def pipesNear (span : Nat) (ps : List Pipe) (a : List Nat) : Bool :=
  (span != 0 || a.all fun c => c == nth 0 a 0)
    && ps.all fun x => decide (a.length ≤ x.pmem ∨ a.length ≤ x.cmem) || meshNear (nth 0 a x.pmem) (nth 0 a x.cmem)
/-- A corner of a mesh in which any four members that are neighbours where their pipes ask it can stand. -/
def meshCorner : List Nat := [0, 1, 2, 3, 8, 9, 10, 11, 16, 17, 18, 19, 24, 25, 26, 27]
/-- Some cores for the members, under SPAN, whose cask pools hold the rings that they consume. -/
def Card.pipesFit (d : Card) : Nat → List Nat → Bool
  | 0, a => a.all fun c => decide (sumN ((d.pipes.filter fun x => nth 0 a x.cmem == c).map Pipe.granules) ≤ 65536)
  | n + 1, a => meshCorner.any fun c => let a := a ++ [c]; pipesNear (d.f 7 2) d.pipes a && d.pipesFit n a
/-- The consuming members' rings beyond a cask pool or a tile table (R39). -/
def Card.pipesOver (d : Card) : Bool :=
  !d.pipesFit (d.f 0 3) []
    || (List.range 4).any fun m => decide (sumN ((d.pipes.filter fun x => x.cmem == m).map (·.depth)) > 64)

/-! ### What a gate reads and checks (R30, R40) -/

structure Deal where
  gang : Bool
  cards : List Card
  addrs : List Word
  desc : Card

/-- A 128-byte structure. -/
def State.readCard (s : State) (f p va : Nat) : Except Code Card :=
  match s.qeNat f p va 128 with
  | .ok v => .ok (BitVec.ofNat 1024 v)
  | .error (c, _) => .error c
/-- The member cards, in member order. -/
def State.readMembers (s : State) (f p : Nat) : List Nat → Except Code (List Card)
  | [] => .ok []
  | a :: t =>
    match s.readCard f p a with
    | .error c => .error c
    | .ok c =>
      match c.check true with
      | some e => .error e
      | none =>
        match s.readMembers f p t with
        | .error e => .error e
        | .ok l => .ok (c :: l)
/-- Steps 1 to 3. -/
def State.readWork (s : State) (f p : Nat) (r : Record) : Except Code Deal :=
  let a := r.h 64 64
  match s.readCard f p a with
  | .error c => .error c
  | .ok c =>
    if bitN r.held.toNat 8 then
      match c.gangCheck with
      | some e => .error e
      | none =>
        let as := (List.range (c.f 0 3)).map fun k => c.f (64 + 64 * k) 64
        match s.readMembers f p as with
        | .error e => .error e
        | .ok cs => .ok ⟨true, cs, as.map (BitVec.ofNat 64), c⟩
    else
      match c.check false with
      | some e => .error e
      | none => .ok ⟨false, [c], [BitVec.ofNat 64 a], 0⟩
/-- Step 4. -/
def State.readCount (s : State) (f p : Nat) (r : Record) (d : Deal) : Except Code (Option Nat) :=
  if bitN r.held.toNat 7 && d.cards.any fun c => !c.spatial.isEmpty then
    match s.qeNat f p (r.h 320 64) 4 with
    | .ok v => .ok (some v)
    | .error (c, _) => .error c
  else .ok none
/-- Step 5: orders 7 and 8, over the cards with the indirect count. -/
def Deal.check (d : Deal) (cards : List Card) (indir : Bool) : Option Code :=
  let c := nth 0 d.cards 0
  if d.cards.any (fun x => !c.sameSpatial x) || (indir && d.cards.any fun x => x.spatial.isEmpty)
      || cards.any (fun x => decide (x.records > 0xFFFFFFFF)) then some fBound
  else if cards.any (·.overShare) || (d.gang && d.desc.pipesOver) then some stSlotshare
  else none
def State.openWork (s : State) (f p : Nat) (r : Record) : Except Code Deal :=
  match s.readWork f p r with
  | .error c => .error c
  | .ok d =>
    match s.readCount f p r d with
    | .error c => .error c
    | .ok v =>
      let cards := match v with
        | some v => d.cards.map (·.setCount v)
        | none => d.cards
      match d.check cards (bitN r.held.toNat 7) with
      | some c => .error c
      | none => .ok { d with cards := cards }

/-! ### Which die deals which records (R116, R120, R121) -/

/-- The partition's dies, rising. -/
def Part.dies (p : Part) : List Nat := (List.range 4).filter fun d => p.cores.any fun c => dieOf c == d
/-- The cores of die index j, rising. -/
def Part.dieCores (p : Part) (j : Nat) : List Nat :=
  match p.dies[j]? with
  | some d => p.cores.filter fun c => dieOf c == d
  | none => []
/-- dlin of a linear index, over spatial levels listed innermost first. -/
def dlinOf : List (Nat × Nat) → Nat → Nat
  | [], _ => 0
  | (k, b) :: t, lin => if k = 2 then lin % b + b * dlinOf t (lin / b) else dlinOf t (lin / b)
/-- Records below the innermost D level. -/
def blockSize : List (Nat × Nat) → Nat
  | [] => 1
  | (k, b) :: t => if k = 2 then 1 else b * blockSize t
/-- Appends a range to runs held last first. -/
def addRun (a n : Nat) : List (Nat × Nat) → List (Nat × Nat)
  | (b, m) :: t => if b + m = a then (b, m + n) :: t else (a, n) :: (b, m) :: t
  | [] => [(a, n)]
/-- The runs of each of dp dies. -/
def dealRuns (sp : List (Nat × Nat)) (n dp : Nat) : List (List (Nat × Nat)) :=
  if sp.any fun (k, _) => k == 2 then
    let inner := sp.reverse
    let b := blockSize inner
    (List.range dp).map fun j =>
      ((List.range (n / b)).foldl (fun acc i =>
        if dlinOf inner (i * b) % dp = j then addRun (i * b) b acc else acc) []).reverse
  else
    let q := ceilDiv n dp
    (List.range dp).map fun j => let m := min q (n - j * q); if m = 0 then [] else [(j * q, m)]

/-! ### Gates (R30, R102, R103) -/

def Part.queue (p : Part) (j : Nat) : List TaskEntry := Sparse.get [] p.taskQ j
def Part.setQueue (p : Part) (j : Nat) (l : List TaskEntry) : Part := { p with taskQ := p.taskQ.put j l }
def Part.inTransit (p : Part) (j : Nat) : Nat := (p.transit.filter fun t => t.die == j).length
/-- Some chunk of the job is uncut, queued, in transit or held. -/
def Part.undealt (p : Part) (x : Job) : Bool :=
  x.uncut.any (fun l => !l.isEmpty) || p.taskQ.any (fun (_, l) => l.any fun e => e.recIdx == x.recIdx)
    || p.transit.any (fun t => t.entry.recIdx == x.recIdx) || p.gangs.any (fun h => h.entry.recIdx == x.recIdx)
/-- The READY record whose gate is next: most urgent, then oldest stamp. -/
def Part.nextReady (p : Part) : Option Nat :=
  let age (r : Record) : Nat := (p.nextStamp - r.stamp).toNat
  (p.recs.foldl (fun best (i, r) =>
    if r.st = .ready ∧ r.eligible then
      (match best with
        | none => some (i, r)
        | some (_, b) => if r.h 3 2 < b.h 3 2 ∨ (r.h 3 2 = b.h 3 2 ∧ age b < age r) then some (i, r) else best)
    else best) none).map (·.1)

/-- The gate of record i opens. -/
def State.openGate (s : State) (p i : Nat) : State :=
  let r := s.lrec p i
  let f := s.lrecOwner p i
  let s := (s.journal f ⟨5, r.armPseq, 0, 0, i, 0, r.gen.toNat⟩).modPart p fun q => { q with gates := q.gates + 1 }
  if r.h 64 64 = 0 then (s.setLrec p i { r with st := .running }).completeLrec p i
  else
    match s.openWork f p r with
    | .error c => s.stopLrec p i c
    | .ok d =>
      let n := (nth 0 d.cards 0).records
      let s := s.setLrec p i { r with st := .running }
      if n = 0 then s.completeLrec p i
      else
        s.modPart p fun q =>
          let sp := (nth 0 d.cards 0).spatial
          { q with
            jobs := q.jobs ++ [{
              recIdx := i, no := q.gates, gang := d.gang, cards := d.cards, cardAddrs := d.addrs, pipes := d.desc, n := n,
              uncut := dealRuns sp n q.dies.length, cutAny := false, live := 0, stopCode := none,
              hasD := sp.any fun (k, _) => k == 2 }] }
def State.gate (s : State) (p : Nat) : Option Nat :=
  let q := s.part p
  if q.dies.isEmpty || decide (4 ≤ (q.jobs.filter q.undealt).length) then none else q.nextReady
def execGateOpen (p : Nat) (s : State) : Out :=
  match s.gate p with
  | some i => .next (s.openGate p i)
  | none => .next s

/-! ### Cutting chunks (R122, R126) -/

def Part.job (p : Part) (i : Nat) : Option Job := p.jobs.find? fun x => x.recIdx == i
def Part.setJob (p : Part) (x : Job) : Part :=
  { p with jobs := p.jobs.map fun y => if y.recIdx = x.recIdx then x else y }
def Job.members (x : Job) : Nat := x.cards.length
/-- Pd. -/
def Job.slots (x : Job) (cd : Nat) : Nat := if x.gang then 8 / x.members * cd else 8 * cd
/-- The size of the job's next chunk on a die of cd cores: of a gang, by the MINCH of member 0's card
(notes/assumptions/41.md). -/
def Job.chunk (x : Job) (runs : List (Nat × Nat)) (cd : Nat) : Nat :=
  let rem := sumN (runs.map (·.2))
  let run := (nth (0, 0) runs 0).2
  let size := ceilDiv rem (2 * x.slots cd)
  let size := max size (max 1 ((nth 0 x.cards 0).f 144 16))
  min size (min rem run)
/-- The job whose turn it is on die index j. -/
def Part.nextCut (p : Part) (j : Nat) : Option Job :=
  let xs := p.jobs.filter fun x => !(nth [] x.uncut j).isEmpty
  match xs.find? fun x => decide (Sparse.get 0 p.lastCut j ≤ x.no) with
  | some x => some x
  | none => xs.head?
def Part.cut (p : Part) (j : Nat) : Option Part :=
  if (p.queue j).length + p.inTransit j ≥ 64 then none
  else
    match p.nextCut j with
    | none => none
    | some x =>
      match nth [] x.uncut j with
      | [] => none
      | (a, n) :: t =>
        let m := x.chunk ((a, n) :: t) (p.dieCores j).length
        let p := p.setJob { x with
          uncut := setNth x.uncut j (if m = n then t else (a + m, n - m) :: t), cutAny := true }
        let e : TaskEntry := { recIdx := x.recIdx, first := a, count := m, passed := 0, hasD := x.hasD, gang := x.gang }
        some { p.setQueue j (p.queue j ++ [e]) with lastCut := p.lastCut.put j (x.no + 1) }
def execChunkCut (o : PartDie) (s : State) : Out :=
  match (s.part o.part).cut o.die with
  | some q => .next (s.putPart o.part q)
  | none => .next s

/-! ### Where an entry fits (R124, R127) -/

/-- The free slots of a core, rising: a slot whose task ends is free from the next cycle (R118). -/
def State.freeSlots (s : State) (p c : Nat) : List Nat :=
  (List.range 8).filter fun k =>
    (s.slotAt c k).task.isNone && !s.did.contains ⟨.slot c k, 2⟩ && !(s.part p).gangs.any fun h => h.slots.contains ⟨c, k⟩
/-- The core of die index j with the most free slots, and its lowest free slot. -/
def State.bestSlot (s : State) (p j : Nat) : Option SlotId :=
  ((s.part p).dieCores j).foldl (fun best c =>
    let n := (s.freeSlots p c).length
    match best with
    | none => if n = 0 then none else some (c, n)
    | some (_, m) => if m < n then some (c, n) else best) none |>.map fun (c, _) => ⟨c, nth 0 (s.freeSlots p c) 0⟩

/-- Granules that a core can give to pinned casks: free, or held by unpinned resident casks. -/
def Core.pipeRoom (co : Core) : Nat :=
  let span (l : List (Nat × Tile)) : Nat := sumN (l.map fun (_, t) => t.span)
  65536 - sumN (co.poolTaken.map (·.2))
    + sumN ((List.range 128).map fun k => if (co.cask k).racked || (co.cask k).pin then 0 else span (co.caskTiles k))
def countOf (l : List Nat) (c : Nat) : Nat := (l.filter fun x => x == c).length
/-- The cores of the members placed so far can stand. -/
def State.gangMay (s : State) (p : Nat) (d : Card) (a : List Nat) : Bool :=
  pipesNear (d.f 7 2) d.pipes a && a.all fun c => decide (countOf a c ≤ (s.freeSlots p c).length)
/-- Every consuming core can hold its rings. -/
def State.gangRoom (s : State) (d : Card) (a : List Nat) : Bool :=
  a.all fun c =>
    decide (sumN ((d.pipes.filter fun x => nth 0 a x.cmem == c).map Pipe.granules) ≤ (s.core c).pipeRoom)
def coresOf : List Nat → Nat
  | [] => 0
  | c :: t => (if t.contains c then 0 else 1) + coresOf t
/-- The first assignment of cores to n more members, in member order. -/
def State.gangSearch (s : State) (p : Nat) (d : Card) (cores : List Nat) (ok : List Nat → Bool) :
    Nat → List Nat → Option (List Nat)
  | 0, a => if ok a && s.gangRoom d a then some a else none
  | n + 1, a => cores.findSome? fun c =>
      let a := a ++ [c]
      if s.gangMay p d a then s.gangSearch p d cores ok n a else none
/-- The cores of a gang instance: lowest core least, then fewest cores, then first in member order. -/
def State.gangCores (s : State) (p j : Nat) (d : Card) (members : Nat) : Option (List Nat) :=
  let cores := (s.part p).dieCores j
  cores.findSome? fun lo => (rangeFrom 1 members).findSome? fun n =>
    s.gangSearch p d (cores.filter (lo ≤ ·)) (fun a => a.contains lo && coresOf a == n) members []
/-- Each member's lowest free slot on its core, in member order. -/
def State.gangSlots (s : State) (p : Nat) : List Nat → List SlotId → List SlotId
  | [], a => a
  | c :: t, a =>
    let k := ((s.freeSlots p c).filter fun k => !a.contains ⟨c, k⟩).head?.getD 0
    s.gangSlots p t (a ++ [⟨c, k⟩])

/-- What a die seats next. -/
inductive SeatPick where
  | none
  | one (n : Nat) (at' : SlotId)
  | gang (n : Nat) (slots : List SlotId)
  deriving DecidableEq, Repr

/-- Tasks of a function are seated: it is neither switched out nor being reset (R437, R464). -/
def State.seats (s : State) (f : Nat) : Bool := (s.fn f).sw == .isIn && !(s.fn f).flr
/-- The cores of a gang entry, when a placement fits (R127). -/
def State.gangFits (s : State) (p j : Nat) (e : TaskEntry) : Option (List Nat) :=
  ((s.part p).job e.recIdx).bind fun x => s.gangCores p j x.pipes x.members
/-- The entry n whose turn it is, at the place for it: it waits in its place while its function is out (R437;
notes/assumptions/34.md). -/
def State.seatAt (s : State) (p : Nat) (e : TaskEntry) (x : SeatPick) : SeatPick :=
  if s.seats (s.lrecOwner p e.recIdx) then x else .none
/-- In queue order, passing over the gang entries that do not fit, and no others (R125). -/
def State.pickFrom (s : State) (p j : Nat) : List TaskEntry → Nat → SeatPick
  | [], _ => .none
  | e :: t, n =>
    if e.gang then
      match s.gangFits p j e with
      | some cs => s.seatAt p e (.gang n (s.gangSlots p cs []))
      | none => s.pickFrom p j t (n + 1)
    else
      match s.bestSlot p j with
      | some k => s.seatAt p e (.one n k)
      | none => .none
/-- A gang entry passed over 64 times is seated before any other: while it waits in the queue, and while it is held for
racking, nothing else is seated on the die. -/
def State.seatPick (s : State) (p j : Nat) : SeatPick :=
  let q := (s.part p).queue j
  if (s.part p).gangs.any fun h => h.die == j && decide (64 ≤ h.entry.passed) then .none
  else
    match q.findIdx? fun e => e.gang && decide (64 ≤ e.passed) with
    | none => s.pickFrom p j q 0
    | some n =>
      match q[n]? with
      | none => .none
      | some e =>
        match s.gangFits p j e with
        | some cs => s.seatAt p e (.gang n (s.gangSlots p cs []))
        | none => .none
/-- Entry n leaves the queue; the gang entries before it have been passed over once more. -/
def State.dequeue (s : State) (p j n : Nat) : State :=
  let q := (s.part p).queue j
  let pass (e : TaskEntry) : TaskEntry := if e.gang then { e with passed := e.passed + 1 } else e
  s.modPart p (·.setQueue j ((q.take n).map pass ++ q.drop (n + 1)))

/-! ### Seating (R16, R124, R126, R152) -/

/-- The tickets granted at seating. -/
def State.grant (s : State) (f : Nat) : State × Holding :=
  let v := (s.fn f).tkdef.toNat
  let k := bitsN v 0 8
  let amt := bitsN v 32 32
  if (s.cur? k).issued + amt > 0xFFFFFFFF then (s, ⟨k, 0⟩)
  else (s.modCur k fun c => { c with issued := c.issued + amt }, ⟨k, amt⟩)
/-- Handles that a gang's pipes bind for member m, to the rings placed for them, in pipe order (R38). -/
def pipeBinds (ps : List Pipe) (rings : List Nat) (slots : List SlotId) (m : Nat) : List (Nat × CbHandle) :=
  (List.zip ps rings).flatMap fun (x, n) =>
    let c := nth ⟨0, 0⟩ slots x.cmem
    let h (role : BitVec 2) : CbHandle := ⟨true, role, c.core, n⟩
    (if x.pmem = m then [(x.pcb, h 1)] else []) ++ (if x.cmem = m then [(x.ccb, h 2)] else [])
/-- Seats member m of an entry. A gang's common X1 comes from member 0's card, as its chunk does (notes/assumptions/41.md). -/
def State.seatMember (s : State) (p : Nat) (x : Job) (e : TaskEntry) (slots : List SlotId) (rings : List Nat) (m : Nat) :
    State :=
  let f := s.lrecOwner p x.recIdx
  let gen := (s.lrec p x.recIdx).gen
  let k := nth ⟨0, 0⟩ slots m
  let c0 := nth 0 x.cards 0
  let c := nth 0 x.cards m
  let (s, h) := s.grant f
  s.modSlot k.core k.slot fun sl =>
    { sl with
      hold := h
      task := some { noTask with
        part := p, recIdx := x.recIdx, gen := gen, fn := f, card := nth 0 x.cardAddrs m, entry := BitVec.ofNat 64 (c.f 0 64)
        x1 := BitVec.ofNat 64 (c0.f 64 64 + e.first * c0.f 128 16), x2 := BitVec.ofNat 64 e.count
        x3 := BitVec.ofNat 64 e.first, x5 := BitVec.ofNat 64 (x.recIdx + gen.toNat * 2 ^ 32)
        refire := c.f 168 4, caps := c.f 240 8, captab := BitVec.ofNat 64 (c.f 320 64), mates := slots, member := m
        binds := pipeBinds x.pipes.pipes rings slots m } }
/-- Seats every member in the same cycle. -/
def State.seatEntry (s : State) (p : Nat) (e : TaskEntry) (slots : List SlotId) (rings : List Nat) : State :=
  match (s.part p).job e.recIdx with
  | none => s
  | some x =>
    let s := (List.range slots.length).foldl (fun s m => s.seatMember p x e slots rings m) s
    s.modPart p fun q => q.setJob { x with live := x.live + slots.length }
def execSeatTask (o : PartDie) (s : State) : Out :=
  match s.seatPick o.part o.die with
  | .one n k =>
    match (s.part o.part).queue o.die |>.drop n |>.head? with
    | some e => .next ((s.dequeue o.part o.die n).seatEntry o.part e [k] [])
    | none => .next s
  | _ => .next s

/-! ### Gangs: the rings of their pipes, then all seats at once -/

/-- Marks the entries of a slot invalid, and drops its casks, but for tiles that `keep` names (R89). -/
def State.purgeTiles (s : State) (c k : Nat) (keep : Nat → Bool) : State :=
  let mine (a : Nat) : Bool := a / 64 == k
  let s := (((s.core c).ttb.filter fun (a, _) => mine a && !keep a).map (·.1)).foldl (fun s a =>
    ((s.withdraw (s.tileAt c a).hold).dropRegs c a).putTile c a Tile.reset) s
  s.modCore c fun co =>
    { co with
      sealsIn := co.sealsIn.filter fun (a, _) => !(mine a && !keep a)
      casks := co.casks.filter fun (x, y) => x / 16 != k || y.pipe && !(co.caskTiles x).isEmpty }
/-- A tile of a pipe's ring. -/
def State.pipeTile (s : State) (c a : Nat) : Bool :=
  (s.core c).rings.any fun (_, r) => r.pipe && decide (r.ft ≤ a ∧ a < r.ft + r.depth)
/-- The rings of a gang instance go, with their tiles and casks (R38). -/
def State.dropPipes (s : State) (inst : List Nat) : State :=
  s.cores.foldl (fun s (c, co) =>
    (co.rings.filter fun (_, r) => r.pipe && r.inst == inst).foldl (fun s (n, r) =>
      let s := (rangeFrom r.ft r.depth).foldl (fun s a =>
        ((s.withdraw (s.tileAt c a).hold).dropRegs c a).putTile c a Tile.reset) s
      s.modCore c fun co =>
        { co with
          rings := co.rings.filter fun (m, _) => m != n
          casks := co.casks.filter fun (x, y) => !(y.pipe && (co.caskTiles x).isEmpty) }) s) s
/-- First table entry, cask and ring for a pipe that slot k of a core consumes, beside the rings of gangs that stand there: the
entries and the cask nearest the top, the ring of the consumer's handle, or when one stands there the last free one
(notes/assumptions/34.md). -/
def Core.pipePlace (co : Core) (k : Nat) (x : Pipe) : Option (Nat × Nat × Nat) :=
  let mine := co.rings.filter fun (n, r) => n / 16 == k && r.pipe
  let clear (t : Nat) : Bool := mine.all fun (_, r) =>
    decide (64 * k + t + x.depth ≤ r.ft ∨ r.ft + r.depth ≤ 64 * k + t)
  let ring (n : Nat) : Bool := !mine.any fun (m, _) => m == 16 * k + n
  match (List.range (65 - x.depth)).reverse.find? clear,
      (List.range 16).reverse.find? (fun c => !(co.cask (16 * k + c)).pipe),
      (x.ccb :: (List.range 16).reverse).find? ring with
  | some t, some c, some n => some (64 * k + t, c, 16 * k + n)
  | _, _, _ => none
/-- Takes the room of pipe n's ring; the tiles and the ring stand when it fits. Answers the ring's number. -/
def State.placePipe (s : State) (inst : List Nat) (ps : List Pipe) (slots : List SlotId) (n : Nat) : State × Option Nat :=
  let x := nth (pipeOf 0) ps n
  let o := nth ⟨0, 0⟩ slots x.cmem
  match (s.core o.core).pipePlace o.slot x with
  | none => (s, none)
  | some (first, k, ring) =>
    let cells := (cellarFit ((s.core o.core).cellarTaken o.slot) (16 * x.tkb) x.depth).getD []
    let ts := (List.range x.depth).map fun i =>
      (first + i, { Tile.reset with valid := true, size := 16 * x.tkb, pin := true, cask := k, cell := nth 0 cells i })
    match s.allocTiles o.core (16 * o.slot + k) ts [] with
    | (s, none) => (s, none)
    | (s, some ts) =>
      let s := ts.foldl (fun s (a, t) => s.putTile o.core a t) s
      let s := s.modCask o.core (16 * o.slot + k) fun _ => { racked := false, pin := true, copy := .none, pipe := true }
      (s.modCore o.core fun co => co.putRing ring
        { ft := first, depth := x.depth, pptr := 0, cptr := 0, pipe := true, inst := inst }, some ring)
/-- Goes on placing the rings of a held gang; casks that began racking are waited for. -/
def State.placePipes (s : State) (inst : List Nat) (ps : List Pipe) : Nat → GangHold → State × GangHold
  | 0, h => (s, h)
  | n + 1, h =>
    if h.rings.length ≥ ps.length then (s, h)
    else
      let c := (nth ⟨0, 0⟩ h.slots (nth (pipeOf 0) ps h.rings.length).cmem).core
      let racks (s : State) : List Nat := (List.range 128).filter fun k => ((s.core c).cask k).copy == .racking
      let was := racks s
      let (s, ring) := s.placePipe inst ps h.slots h.rings.length
      let h := { h with racking := h.racking ++ ((racks s).filter fun k => !was.contains k).map fun k => ⟨c, k⟩ }
      match ring with
      | some r => s.placePipes inst ps n { h with rings := h.rings ++ [r] }
      | none => (s, h)
/-- A held gang takes what room there is, and is seated when its rings stand and the racking is complete. -/
def State.tryGang (s : State) (p : Nat) (h : GangHold) : State :=
  let ps := match (s.part p).job h.entry.recIdx with
    | some x => x.pipes.pipes
    | none => []
  let (s, h) := s.placePipes [p, h.entry.recIdx, h.entry.first] ps 8 h
  let others := (s.part p).gangs.filter fun g => g.slots != h.slots
  if h.rings.length ≥ ps.length ∧ s.seats (s.lrecOwner p h.entry.recIdx) ∧ h.racking.all fun r => ((s.core r.core).cask r.cask).copy != .racking then
    (s.modPart p fun q => { q with gangs := others }).seatEntry p h.entry h.slots h.rings
  else s.modPart p fun q => { q with gangs := others ++ [h] }
def execGangSeat (o : PartDie) (s : State) : Out :=
  match (s.part o.part).gangs.find? fun h => h.die == o.die with
  | some h => .next (s.tryGang o.part h)
  | none =>
    match s.seatPick o.part o.die with
    | .gang n slots =>
      match (s.part o.part).queue o.die |>.drop n |>.head? with
      | none => .next s
      | some e =>
        let s := s.dequeue o.part o.die n
        let s := slots.foldl (fun s k => s.purgeTiles k.core k.slot (s.pipeTile k.core)) s
        .next (s.tryGang o.part { die := o.die, entry := e, slots := slots, rings := [], racking := [] })
    | _ => .next s

/-! ### Balancing (R128, R129) -/

/-- Pushes of an exchange, in the order sender, receiver: sender, receiver and half the difference. -/
def pushes (depth : List Nat) (thr : Nat) : List (Nat × Nat × Nat) :=
  let dp := depth.length
  let pairs := if dp = 2 then [(0, 1)] else (List.range dp).map fun j => (j, (j + 1) % dp)
  let all := pairs.flatMap fun (a, b) =>
    let x := nth 0 depth a
    let y := nth 0 depth b
    if x > y + thr then [(a, b, (x - y) / 2)] else if y > x + thr then [(b, a, (y - x) / 2)] else []
  (List.range dp).flatMap fun a => (List.range dp).flatMap fun b => all.filter fun (x, y, _) => x == a && y == b
/-- Takes up to n pushable entries from the tail: those taken, youngest first, and those kept, youngest first. -/
def takeTail : Nat → List TaskEntry → List TaskEntry × List TaskEntry
  | _, [] => ([], [])
  | 0, l => ([], l)
  | n + 1, e :: t =>
    if e.hasD then let r := takeTail (n + 1) t; (r.1, e :: r.2)
    else let r := takeTail n t; (e :: r.1, r.2)
/-- The entries of a push set out, the youngest first (R128; notes/assumptions/34.md). -/
def Part.push (p : Part) (depth : List Nat) (now a b n : Nat) : Part :=
  let m := min n (64 - nth 0 depth b - p.inTransit b)
  let r := takeTail m (p.queue a).reverse
  { p.setQueue a r.2.reverse with transit := p.transit ++ r.1.map fun e => { die := b, entry := e, since := now } }
def Part.exchange (p : Part) (now : Nat) : Part :=
  let depth := (List.range p.dies.length).map fun j => (p.queue j).length
  let p := { p with lastExchange := now }
  if p.dies.length < 2 ∨ !bitN p.qeBal.toNat 8 then p
  else (pushes depth (bitsN p.qeBal.toNat 0 8)).foldl (fun p (a, b, n) => p.push depth now a b n) p
def execBalanceExchange (p : Nat) (s : State) : Out :=
  if s.cycle % 4096 = 0 ∧ (s.part p).lastExchange ≠ s.cycle then .next (s.modPart p (·.exchange s.cycle)) else .next s
/-- The entry longest in transit to a die joins its queue. -/
def Part.arrive (p : Part) (j : Nat) : Part :=
  match p.transit.find? fun t => t.die == j with
  | none => p
  | some t => { p.setQueue j (p.queue j ++ [t.entry]) with transit := p.transit.eraseP fun t => t.die == j }
def execBalanceArrival (o : PartDie) (s : State) : Out := .next (s.modPart o.part (·.arrive o.die))

end Sys2Proof.Machine
end

