-- ==== Sys2Proof/Machine/Sync.lean ====
section
/-! DEFINITION. Sync objects and barriers (R375 to R379, R385, R386). -/

namespace Sys2Proof.Machine

def Part.obj (p : Part) (o : Nat) : SyncObj := Sparse.get SyncObj.reset p.objs o
def Part.setObj (p : Part) (o : Nat) (x : SyncObj) : Part :=
  { p with objs := Sparse.set SyncObj.reset p.objs o x }
def Part.bar (p : Part) (b : Nat) : Barrier := Sparse.get Barrier.reset p.bars b
def Part.setBar (p : Part) (b : Nat) (x : Barrier) : Part :=
  { p with bars := Sparse.set Barrier.reset p.bars b x }

/-- The status word of R376. -/
def objStatus (ok already taken broken notheld : Bool) (relcnt : BitVec 32) : Word :=
  BitVec.ofNat 64 (b2n ok + 2 * b2n already + 4 * b2n taken + 8 * b2n broken + 16 * b2n notheld
    + relcnt.toNat * 2 ^ 32)
/-- o = X[a] + zext64(imm16), not above 65,535. -/
def objIndex (s : State) (o : AcqOp) : Chk Nat :=
  let n := (s.me.xr o.a + zext16 o.imm).toNat
  if n > 65535 then bad fBound else .ok n

/-- The slot takes an object that nobody holds; BROKEN is returned and cleared. -/
def State.takeObj (s : State) (p o : Nat) (w : SlotId) (sc : Nat) : State × Bool × BitVec 32 :=
  let x := (s.part p).obj o
  ((s.passIf (fun a => match a with
      | .obj q n r rs => q == p && n == o && syncs r rs w sc
      | _ => false) (.strm ⟨w.core, w.slot, .c⟩)).modPart p fun q => q.setObj o
    { x with held := some w, broken := false, waiters := x.waiters.filter (· != w) }, x.broken, x.relcnt)

/-- An object without a holder goes to the first slot that waits and that no stop makes withdraw (R377); its `ACQ` has then
executed, or executes when the freeze of its core is over (R226), with BROKEN kept for it. -/
def State.grantObj (s : State) (p o : Nat) : State :=
  let x := (s.part p).obj o
  match x.held, x.waiters.find? fun w => (s.slotAt w.core w.slot).cs.stopReq.isNone with
  | none, some w =>
    (match (s.slotAt w.core w.slot).cs.waiting with
    | some (.object _ d sc) =>
      let t := s.takeObj p o w sc
      if (s.core w.core).frozen then t.1.modPart p fun q => q.setObj o { q.obj o with broken := x.broken }
      else t.1.completed w fun s => (s.setX d (objStatus true false false t.2.1 false t.2.2)).advance 8
    | _ => s)
  | _, _ => s

/-- Releases with a scope (R377). -/
def State.releaseObj (s : State) (p o sc : Nat) : State :=
  let s := match ((s.part p).obj o).held with
    | some w => (s.forgetIf fun a => match a with | .obj q n _ _ => q == p && n == o | _ => false).pass
        (.strm ⟨w.core, w.slot, .c⟩) (.obj p o w sc)
    | none => s
  let s := s.modPart p fun q =>
    let x := q.obj o
    q.setObj o { x with held := none, relcnt := x.relcnt + 1 }
  s.grantObj p o

/-- A slot loses every object without a release (R379). -/
def State.breakObjs (s : State) (c k : Nat) : State :=
  let p := (s.slotAt c k).t.part
  ((s.part p).objs.filter fun (_, x) => x.held == some ⟨c, k⟩).foldl (fun s (o, _) =>
    (s.modPart p fun q => q.setObj o { q.obj o with held := none, broken := true }).grantObj p o) s
/-- Retirement releases every write of the slot (R378, R445), and every object that it holds, at SYS. -/
def State.releaseObjs (s : State) (c k : Nat) : State :=
  let p := (s.slotAt c k).t.part
  ((s.part p).objs.filter fun (_, x) => x.held == some ⟨c, k⟩).foldl (fun s (o, _) => s.releaseObj p o 4)
    (s.freeWrites ⟨c, k⟩ fun _ => true)

def acquire (tryOnly : Bool) (o : AcqOp) : State → Out :=
  instr o.pr 8 fun s => (objIndex s o).then fun n =>
    let p := s.me.t.part
    let x := (s.part p).obj n
    match x.held with
    | some h =>
      if h = s.myId then
        (match s.me.cs.waiting with
        | some (.object _ _ _) =>
          .done ((s.modPart p fun q => q.setObj n { x with broken := false }).setX o.d (objStatus true false false x.broken false x.relcnt))
        | _ => .done (s.setX o.d (objStatus true true false false false x.relcnt)))
      else if tryOnly then .done (s.setX o.d (objStatus false false true false false x.relcnt))
      else
        .wait (s.modPart p fun q => q.setObj n
          { x with waiters := if x.waiters.contains s.myId then x.waiters else x.waiters ++ [s.myId] })
          (.object n o.d o.scope.toNat)
    | none =>
      let (s, b, r) := s.takeObj p n s.myId o.scope.toNat
      .done (s.setX o.d (objStatus true false false b false r))
def execAcq (o : AcqOp) : State → Out := acquire false o
def execTryacq (o : AcqOp) : State → Out := acquire true o
def execRel (o : AcqOp) : State → Out :=
  instr o.pr 8 fun s => (objIndex s o).then fun n =>
    let p := s.me.t.part
    let x := (s.part p).obj n
    if x.held ≠ some s.myId then .done (s.setX o.d (objStatus false false false false true x.relcnt))
    else
      let bs := s.bindings
      .done (((s.setX o.d (objStatus true false false false false (x.relcnt + 1))).freeWrites s.myId fun w =>
        bs.any fun b => b.2.1 == n && w.inRegion b).releaseObj p n o.scope.toNat)

/-! ### Barriers -/

/-- The wait ends: acquire(scope), X[d] ← ph + 1. -/
def barEnd (s : State) (b : Nat) (d : Reg) (sc : Scope) (ph : Nat) : State :=
  let v := ph % 2 ^ 32
  let p := s.me.t.part
  let s := s.passIf (fun w => match w with
    | .bar q n h r rs => q == p && n == b && h + 1 == ph && syncs r rs s.myId sc.toNat
    | _ => false) s.agent
  ((s.modMe fun sl => { sl with barWait := none }).setX d (BitVec.ofNat 64 v)).trace s.cur.core s.cur.slot 8 .c 0
    (b + v * 2 ^ 32)
def execBar (o : BarOp) : State → Out :=
  instr o.pr 8 fun s =>
    let p := s.me.t.part
    match s.me.barWait with
    | some (b, ph) =>
      if ((s.part p).bar b).phase.toNat ≠ ph then
        .done (barEnd s b o.d o.scope (ph + 1))
      else .wait s (.barrier b ph)
    | none =>
      let n := (s.me.xr o.a).toNat
      let b := o.b.toNat
      let x := (s.part p).bar b
      if n = 0 ∨ n > 65535 then .trap fBound 0
      else if x.arrived > 0 ∧ x.expect ≠ n then .trap fBound 0
      else
        let s := (s.trace s.cur.core s.cur.slot 7 .c 0 b).pass s.agent (.bar p b x.phase.toNat s.myId o.scope.toNat)
        if x.arrived + 1 = n then
          .done (barEnd (s.modPart p fun q => q.setBar b { expect := 0, arrived := 0, phase := x.phase + 1 }) b o.d o.scope
            (x.phase.toNat + 1))
        else .wait ((s.modPart p fun q => q.setBar b { x with expect := n, arrived := x.arrived + 1 }).modMe fun sl =>
          { sl with barWait := some (b, x.phase.toNat) }) (.barrier b x.phase.toNat)

/-- The arrival of a task that is stopped or re-fired is withdrawn while its phase is incomplete (R386). -/
def State.withdrawBar (s : State) (c k : Nat) : State :=
  let sl := s.slotAt c k
  let one (s : State) (w : Option (Nat × Nat)) : State :=
    match w with
    | none => s
    | some (b, ph) =>
      s.modPart sl.t.part fun q =>
        let x := q.bar b
        if x.phase.toNat ≠ ph ∨ x.arrived = 0 then q
        else q.setBar b { x with arrived := x.arrived - 1, expect := if x.arrived = 1 then 0 else x.expect }
  (one (one s sl.barWait) sl.wbar).modSlot c k fun sl => { sl with barWait := none, wbar := none }

end Sys2Proof.Machine
end

