-- ==== Sys2Proof/Machine/Tasks.lean ====
section
/-! DEFINITION. The life of a task: launch (R15, R16, R25, R82 to R84, R89, R136), restart of a re-fire (R397 to R399),
retirement (R444 to R446), stop and fault records (R429, R447 to R450). -/

namespace Sys2Proof.Machine

/-! ### The header of an image (R82, R83) -/

/-- Offset and size of section i: C, V, M, X, S, data. -/
def secOff (h i : Nat) : Nat := bitsN h (64 * i + 64) 32
def secSize (h i : Nat) : Nat := bitsN h (64 * i + 96) 32
def secIn (h i : Nat) : Bool := bitN h (48 + i)
/-- What each section must meet alone. -/
def secOk (h i : Nat) : Bool :=
  let n := secSize h i
  if secIn h i then
    secOff h i % 256 == 0 && (match i with
      | 0 | 1 => n % 4 == 0
      | 2 | 3 => n % 16 == 0 && decide (n ≤ 4096)
      | 4 => n % 8 == 0 && decide (n ≤ 2048)
      | _ => true)
  else secOff h i == 0 && n == 0
/-- Sections from i on lie in order at or above `lo`. -/
def secsFrom (h : Nat) : Nat → Nat → Nat → Bool
  | 0, _, _ => true
  | n + 1, i, lo =>
    if secIn h i then decide (lo ≤ secOff h i) && secsFrom h n (i + 1) (secOff h i + secSize h i)
    else secsFrom h n (i + 1) lo
def headerOk (entry h : Nat) : Bool :=
  entry % 256 == 0 && bitsN h 0 32 == 0x4954564B && bitsN h 32 16 == 1 && bitsN h 54 10 == 0 && h / 2 ^ 448 == 0
    && secIn h 0 && (List.range 6).all (secOk h) && secsFrom h 6 0 256

/-! ### Launch -/

/-- The commands of a ring section of `l` bytes with `w` bytes each. -/
def sectionCmds (w : Nat) (l : List Byte) : List (BitVec 128) := (words w (l.length / w) l).map (BitVec.ofNat 128)

/-- Copies the commands of a ring, each under R136: the slot, or the entry that faults. -/
def loadRing (r : RingId) : List (BitVec 128) → Slot → Except (Nat × Code) Slot
  | [], sl => .ok sl
  | w :: t, sl =>
    match sl.pushCheck r w with
    | .error (c, _) => .error ((sl.ring r).wp.toNat, c)
    | .ok _ =>
      let sl := sl.pushCmd r w
      loadRing r t (sl.modRing r fun q => { q with closed := q.closed || isNote r w, img := q.img + 1 })

/-- The slot's registers as a launch or a restart sets them (R41, R46, R49); what stands outside a run stays. -/
def launchSlot (dev : Nat) (c k : Nat) (sl : Slot) : Slot :=
  let t := sl.t
  let x (r : Nat) (v : Word) (sl : Slot) : Slot := sl.setX (BitVec.ofNat 5 r) v
  let sl' : Slot := { Slot.reset with
    sysId := BitVec.ofNat 64 (k + c * 2 ^ 3 + dev * 2 ^ 11 + t.part * 2 ^ 20)
    priv := if t.fn = 0 then 1 else 0
    hold := sl.hold
    comp := sl.comp
    ch := sl.ch
    taste := sl.taste
    dbg := sl.dbg
    task := sl.task
    cb := t.binds.foldl (fun l (n, h) => Sparse.set CbHandle.reset l n h) [] }
  x 1 t.x1 (x 2 t.x2 (x 3 t.x3 (x 4 t.card (x 5 t.x5 sl'))))

/-- A launch that fails stops the task before any stream runs (R84, R136). -/
def State.failLaunch (s : State) (c k : Nat) (code : Code) (st : Nat) (epc eva : Word) : State :=
  (s.modSlot c k fun sl =>
    { sl with
      cause := BitVec.ofNat 64 (code.toNat + 256 * st)
      epc := epc
      eva := eva
      cs := { sl.cs with pc := sl.t.entry } }).stopTask c k code st eva

/-- R84 for a slot whose registers are set: the image's rings and streams. The three sections are read before any of their
commands is checked (notes/assumptions/41.md). -/
def State.startImage (s : State) (c k : Nat) : State :=
  let t := (s.slotAt c k).t
  let entry := t.entry.toNat
  let fail (code : Code) (eva : Word) : State := s.failLaunch c k code 0 t.entry eva
  match s.qeNat t.fn t.part entry 256 with
  | .error (code, eva) => fail code eva
  | .ok h =>
    if !headerOk entry h then fail fIllegal 0
    else
      match s.qeRead t.fn t.part (entry + secOff h 2) (secSize h 2), s.qeRead t.fn t.part (entry + secOff h 3) (secSize h 3),
          s.qeRead t.fn t.part (entry + secOff h 4) (secSize h 4) with
      | .error (code, eva), _, _ => fail code eva
      | _, .error (code, eva), _ => fail code eva
      | _, _, .error (code, eva) => fail code eva
      | .ok m, .ok x, .ok sx =>
        let ring (i : Nat) (q : Ring) : Ring := { q with present := secIn h i, ended := !secIn h i }
        let pc (i : Nat) : Word := BitVec.ofNat 64 (entry + secOff h i)
        let sl := s.slotAt c k
        let sl :=
          { sl with
            mring := ring 2 sl.mring
            xring := ring 3 sl.xring
            sring := ring 4 sl.sring
            kring := { sl.kring with present := secIn h 1, ended := !secIn h 1 }
            cs := { sl.cs with pc := pc 0, ended := false }
            vs := { sl.vs with pc := pc 1, ended := !secIn h 1 }
            task := some { t with vbase := secOff h 1, vsize := secSize h 1 } }
        let load (r : RingId) (w : Nat) (l : List Byte) (a : Except (RingId × Nat × Code) Slot) : Except (RingId × Nat × Code) Slot :=
          match a with
          | .error e => .error e
          | .ok sl => (loadRing r (sectionCmds w l) sl).mapError fun (i, c) => (r, i, c)
        match load .s 8 sx (load .x 16 x (load .m 16 m (.ok sl))) with
        | .ok sl => s.putSlot c k sl
        | .error (r, i, code) => s.failLaunch c k code (strmNo (strmOfRing r)) (BitVec.ofNat 64 i) 0

/-- The capability table from its template (R25). -/
def State.loadCaps (s : State) (c k : Nat) : Chk (Sparse (BitVec 128)) :=
  let t := (s.slotAt c k).t
  match s.qeRead t.fn t.part t.captab.toNat (16 * t.caps) with
  | .error e => .error e
  | .ok l =>
    let es := words 16 t.caps l
    .ok ((List.range t.caps).foldl (fun ch i => Sparse.set 0 ch i (BitVec.ofNat 128 (nth 0 es i))) [])

/-- TASK_START. -/
def State.traceStart (s : State) (c k : Nat) : State :=
  let t := (s.slotAt c k).t
  s.trace c k 1 .c 0 (t.x3.toNat % 2 ^ 32 + t.x2.toNat % 2 ^ 32 * 2 ^ 32 + t.gen.toNat * 2 ^ 64)
/-- Launches the task of one slot. The capability template is read before the image's header (notes/assumptions/41.md). What
the slot's agents knew of memory goes with its last task; the rings of a gang instance's pipes stay (R38). -/
def State.launchOne (s : State) (c k : Nat) : State :=
  let t := (s.slotAt c k).t
  let s := (s.forgetSlot ⟨c, k⟩).purgeTiles c k (s.pipeTile c)
  let s := s.modCore c fun co => { co with rings := co.rings.filter fun (n, r) => n / 16 != k || r.pipe }
  let s := s.modSlot c k fun sl => launchSlot s.mgmt.dev c k { sl with ch := [], taste := [] }
  let s := s.modSlot c k fun sl => sl.modTask fun t => { t with launched := true, runStart := s.seq }
  let s := s.traceStart c k
  match s.loadCaps c k with
  | .error (code, eva) => s.failLaunch c k code 0 t.entry eva
  | .ok ch => (s.modSlot c k fun sl => { sl with ch := ch }).startImage c k

/-- `TASK_LAUNCH`: every member of a gang instance at once (R127). -/
def execTaskLaunch (o : SlotId) (s : State) : Out :=
  let sl := s.slotAt o.core o.slot
  if sl.task.isNone || sl.t.launched || sl.out then .next s
  else .next ((s.liveMates o.core o.slot).foldl (fun s m => s.launchOne m.core m.slot) s)

/-! ### Drains of a whole slot -/

/-- Every stream has ended or stopped. -/
def Slot.allStopped (sl : Slot) : Bool :=
  let ring (r : RingId) : Bool := (sl.ring r).ended || Sparse.get false sl.estopped (strmNo (strmOfRing r))
  (sl.cs.ended || sl.cs.stopped) && (sl.vs.ended || sl.vs.stopped) && ring .m && ring .x && ring .s
/-- What commands and instructions of a slot hold is given up. -/
def State.abandonSlot (s : State) (c k : Nat) : State :=
  let s := [RingId.m, .x, .s].foldl (fun s r => s.abandonHead c k r) s
  let s := (s.abandonWait c k .c).abandonWait c k .v
  (s.dropReads (s.slotAt c k).vreads).modSlot c k fun sl => { sl with vreads := [] }
/-- Its tenures end. -/
def State.leaveEngines (s : State) (c k : Nat) : State :=
  allEngines.foldl (fun s e => s.leaveEngine ⟨c, k, strmOfEngine e⟩) s

/-! ### Restart of a re-fire -/

/-- Shadows of the slot's tiles are dropped; a FILLING tile becomes EMPTY (R211). -/
def State.dropFills (s : State) (c k : Nat) : State :=
  s.modCore c fun co =>
    { co with ttb := co.ttb.map fun (a, t) =>
        if a / 64 != k then (a, t)
        else
          let t := t.dropShadow
          (a, if t.st = .filling ∧ !t.racked then { t with st := .empty } else t) }
/-- The gang instance of a slot's task. -/
def Task.inst (t : Task) : List Nat := [t.part, t.recIdx, t.x3.toNat]
/-- The pipe rings that a slot consumes from are empty again. -/
def State.resetPipes (s : State) (c k : Nat) : State :=
  let mine := (s.core c).rings.filter fun (n, r) => n / 16 == k && r.pipe && r.inst == (s.slotAt c k).t.inst
  mine.foldl (fun s (n, r) =>
    let s := (rangeFrom r.ft r.depth).foldl (fun s a => (s.modTile c a fun t => { t.clearVint with st := .empty }).dropRegs c a) s
    s.modCore c fun co => co.putRing n { r with pptr := 0, cptr := 0 }) s
/-- One member restarts; it is launched again, and traced so (R459, R488). A halt that its drain served with the re-fire
is asked again: ST reads 1 until every stream has stopped (R453). -/
def State.refireOne (s : State) (c k : Nat) : State :=
  let s := ((((s.abortColls ⟨c, k⟩).abandonSlot c k).leaveEngines c k).dropFills c k).forgetRuns ⟨c, k⟩
  let s := ((s.withdrawBar c k).breakObjs c k).resetPipes c k
  let s := s.modSlot c k fun sl =>
    launchSlot s.mgmt.dev c k
      { sl with taste := sl.taste.map fun (e, te) => (e, if te.st = .tasted then { te with st := .pending } else te) }
  let s := s.modSlot c k fun sl => { sl.modTask fun t =>
    { t with refcnt := t.refcnt + 1, runStart := s.seq, refiring := false, depth := 0 } with heldRefire := false }
  let s := ((s.traceStart c k).count c 0x15 (some k)).startImage c k
  if (s.slotAt c k).dbg.st = .halting then s.requestAll c k .halt else s
/-- `REFIRE_RESTART`: once every member's streams have stopped. -/
def execRefireRestart (o : SlotId) (s : State) : Out :=
  let ms := s.liveMates o.core o.slot
  let ready (m : SlotId) : Bool :=
    let sl := s.slotAt m.core m.slot
    sl.t.launched && sl.t.refiring && sl.t.stopping.isNone && sl.allStopped && !sl.out && (s.fn sl.t.fn).sw == .isIn
  if ms.isEmpty || !ms.all ready then .next s
  else .next (ms.foldl (fun s m => s.refireOne m.core m.slot) s)

/-! ### The end of a task -/

/-- The last member of a gang instance leaves: the rings of its pipes go (R38). -/
def State.endInst (s : State) (t : Task) : State :=
  if t.mates.length ≤ 1 ∨ t.mates.any fun m => let sl := s.slotAt m.core m.slot; sl.task.isSome && sl.t.inst == t.inst then s
  else s.dropPipes t.inst
/-- Its holdings leave ISSUED, its monitor is disarmed, its breakpoints are off, and the slot is free (R152, R221,
R445; notes/assumptions/27.md). -/
def State.freeTaskSlot (s : State) (c k : Nat) : State :=
  let t := (s.slotAt c k).t
  let s := s.withdraw (s.slotAt c k).hold
  let s := ((s.core c).ttb.filter fun (a, _) => a / 64 == k).foldl (fun s (a, t) =>
    (s.withdraw t.hold).modTile c a fun t => { t with hold := Holding.reset }) s
  State.endInst (t := t) <| s.modSlot c k fun sl =>
    let endRing (q : Ring) : Ring := { q with ended := true }
    { sl with
      hold := Holding.reset
      mon := Monitor.reset
      task := none
      comp := []
      estop := []
      estopped := []
      dbg := SlotDbg.reset
      heldRaises := []
      heldRefire := false
      out := false
      hm := false
      cs := { sl.cs with ended := true, stopReq := none, stopped := false, waiting := none }
      vs := { sl.vs with ended := true, stopReq := none, stopped := false, waiting := none, heldAt := none }
      mring := endRing sl.mring
      xring := endRing sl.xring
      sring := endRing sl.sring }
/-- One task less of its job; the last one ends the record (R31, R446). -/
def State.leaveJob (s : State) (p i : Nat) (code : Option Code) : State :=
  match (s.part p).job i with
  | none => s
  | some x =>
    let x := { x with live := x.live - 1, stopCode := x.stopCode.orElse fun _ => code }
    let s := s.modPart p (·.setJob x)
    if x.live = 0 && !(s.part p).undealt x then s.endJob p i x.stopCode else s
/-- TASK_END. -/
def State.traceEnd (s : State) (c k : Nat) (code : Nat) : State :=
  s.trace c k 2 .c code ((s.slotAt c k).t.gen.toNat * 2 ^ 64)

/-- Every remote seal under way takes effect: the release that begins a retirement covers what the task has sent (R445;
notes/assumptions/10.md). -/
def State.landSeals (s : State) : State :=
  s.cores.foldl (fun s (c, co) => co.sealsIn.foldl (fun s (a, _) => s.landNow c a) s) s
/-- The next retirement of a record's tasks completes it, and late (R105): it is traced so (notes/assumptions/41.md). -/
def State.lastLate (s : State) (p i : Nat) : Bool :=
  match (s.part p).job i with
  | none => false
  | some x => x.live == 1 && !(s.part p).undealt x && x.stopCode.isNone && (s.lrec p i).late && !(s.lrec p i).depunder
/-- `TASK_RETIRE` (R444, R445). -/
def execTaskRetire (o : SlotId) (s : State) : Out :=
  let c := o.core
  let k := o.slot
  let sl := s.slotAt c k
  let t := sl.t
  if !t.launched || t.stopping.isSome || t.refiring || sl.anyRunning || !t.colls.isEmpty || sl.out then .next s
  else
    let s := (((s.landSeals.releaseObjs c k).releaseTastes c k).traceEnd c k (if s.lastLate t.part t.recIdx then stLate.toNat else 0))
    .next (((s.leaveEngines c k).freeTaskSlot c k).leaveJob t.part t.recIdx none)

/-! ### Fault records (R449) -/

/-- Identifier, activity and full iterations of the innermost loop. -/
def loopId (ls : List HwLoop) : Nat := match ls with | l :: _ => l.id + 32 | [] => 0
def loopIters (ls : List HwLoop) : Nat :=
  match ls with
  | l :: _ => l.iters + min l.limit (l.pass - (l.stages - 1))
  | [] => 0
/-- Pass and steps of the M head. -/
def mProgress (sl : Slot) : Nat × Nat :=
  let w := sl.mring.headBits .m
  let m := mmaRegs sl w
  let h := sl.mring.head
  if sl.mring.len = 0 ∨ ¬(copOf w = 1 ∨ copOf w = 2) then (0, 0)
  else
    let u := passUnits m.rows
    let v := min (h.prog / u) (m.passes - 1)
    (if m.c.pv = 0 then 0 else v + 1, min m.steps (h.prog - v * u - 1))
def headProg (q : Ring) : Nat := if q.len = 0 then 0 else q.head.prog
def faultRecord (c k : Nat) (code : Code) (sl : Slot) (eseq : Nat) : Nat :=
  let t := sl.t
  let (pass, steps) := mProgress sl
  code.toNat + t.stopStrm * 2 ^ 8 + b2n t.wrote * 2 ^ 11 + t.recIdx % 2 ^ 12 * 2 ^ 16 + k * 2 ^ 28 + t.gen.toNat * 2 ^ 32
    + eseq % 2 ^ 64 * 2 ^ 64 + t.stopEva.toNat % 2 ^ 52 * 2 ^ 128 + c * 2 ^ 180
    + sl.cs.pc.toNat % 2 ^ 52 * 2 ^ 192 + loopId sl.cs.loops * 2 ^ 244
    + sl.vs.pc.toNat % 2 ^ 52 * 2 ^ 256 + loopId sl.vs.loops * 2 ^ 308
    + loopIters sl.cs.loops % 2 ^ 32 * 2 ^ 320 + loopIters sl.vs.loops % 2 ^ 32 * 2 ^ 352
    + sl.mring.doneCnt % 2 ^ 16 * 2 ^ 384 + sl.xring.doneCnt % 2 ^ 16 * 2 ^ 400 + sl.sring.doneCnt % 2 ^ 16 * 2 ^ 416
    + pass % 2 ^ 12 * 2 ^ 432 + steps % 2 ^ 21 * 2 ^ 448
    + xProgress sl % 2 ^ 21 * 2 ^ 469 + headProg sl.sring % 2 ^ 21 * 2 ^ 490
/-- The fault record, then the PARTIAL entry (R447). -/
def State.reportStop (s : State) (c k : Nat) (code : Code) : State :=
  let sl := s.slotAt c k
  let t := sl.t
  let f := s.lrecOwner t.part t.recIdx
  let fn := s.fn f
  let s := if fn.fren then
      s.ringWrite f (fn.frbase.toNat + 64 * (fn.eseq % 2 ^ fn.frlsz)) (natLe 64 (faultRecord c k code sl fn.eseq))
    else s
  s.journal f ⟨8, (s.lrec t.part t.recIdx).armPseq, code.toNat, 0, t.recIdx, 8 * c + k, t.gen.toNat⟩
/-- `TASK_STOP`: the drain of a stopped task has ended (R429, R447). -/
def execTaskStop (o : SlotId) (s : State) : Out :=
  let c := o.core
  let k := o.slot
  let sl := s.slotAt c k
  let t := sl.t
  match t.stopping with
  | none => .next s
  | some code =>
    if sl.task.isNone || !sl.allStopped || sl.out then .next s
    else
      let s := (s.reportStop c k code).abortColls ⟨c, k⟩
      let s := ((s.abandonSlot c k).leaveEngines c k).traceEnd c k code.toNat
      let s := ((s.withdrawBar c k).breakObjs c k).releaseTastes c k
      .next ((s.freeTaskSlot c k).leaveJob t.part t.recIdx (some code))

end Sys2Proof.Machine
end

