-- ==== Sys2Proof/Machine/Context.lean ====
section
/-! DEFINITION. The context image of a slot (R438 to R440): what a switch-out or a dump writes, and what a switch-in
restores. -/

namespace Sys2Proof.Machine

def imageBytes : Nat := 0xC0000

/-! ### The scalar part (R439, R440) -/

/-- One word of the four that hold a hardware loop. -/
def loopWords (susp : Bool) (l : HwLoop) : List Byte :=
  natLe 8 (l.start.toNat % 2 ^ 52 + b2n l.np * 2 ^ 61 + b2n susp * 2 ^ 62 + 2 ^ 63)
    ++ natLe 8 (l.stop.toNat % 2 ^ 52 + (l.stages - 1) * 2 ^ 52 + l.base * 2 ^ 55 + l.id * 2 ^ 58)
    ++ natLe 8 (l.limit % 2 ^ 32 + l.pass % 2 ^ 32 * 2 ^ 32) ++ natLe 8 (l.remain % 2 ^ 32)
/-- The loops of a stream, outermost first: those a trap suspended, then those of the stream. -/
def loopArea (susp ls : List HwLoop) : List Byte :=
  let l := (susp.reverse.flatMap (loopWords true) ++ ls.reverse.flatMap (loopWords false)).take 128
  l ++ List.replicate (128 - l.length) 0
def pointerWord (r : Ring) : Nat := r.rp.toNat + r.wp.toNat * 2 ^ 16 + b2n r.closed * 2 ^ 31
/-- Progress of a ring's head: the index or the step, the pass, VALID. -/
def progressWords (step pass : Nat) (r : Ring) : List Byte :=
  natLe 8 (if r.len = 0 then 0 else step) ++ natLe 8 (if r.len = 0 then 0 else pass + b2n r.head.begun * 2 ^ 63)
def heldBits (sl : Slot) : Nat :=
  b2n sl.vs.heldAt.isSome * 2 + b2n sl.mring.head.held.isSome * 4 + b2n sl.xring.head.held.isSome * 8
    + b2n sl.sring.head.held.isSome * 16
def holdingWord (h : Holding) : Nat := h.amt + h.cur * 2 ^ 32
/-- A taste entry, in a layout of the model (notes/assumptions/15.md). -/
def tasteWord (t : Taste) : Nat :=
  (match t.st with | .free => 0 | .wait => 1 | .tasted => 2 | .pending => 3) + b2n t.fin * 4 + b2n t.lcValid * 8 + t.lc * 16
    + t.core * 2 ^ 16 + t.abs * 2 ^ 24 + t.minv * 2 ^ 40 + t.tv * 2 ^ 64
def ringRecWord (r : RingRec) : Nat := r.ft + r.depth * 2 ^ 9 + r.pptr * 2 ^ 16 + r.cptr * 2 ^ 23
def CbHandle.word (h : CbHandle) : Nat := b2n h.valid + h.role.toNat * 2 + h.rcore * 2 ^ 3 + h.ring * 2 ^ 11
def Slot.queue (sl : Slot) (n : Nat) : CondQueue := Sparse.get CondQueue.reset sl.q n
def queueWord0 (sl : Slot) : Nat :=
  (List.range 4).foldl (fun a n =>
    let q := sl.queue n
    let shape := if q.recs.isEmpty then 0 else (q.fld - 1) * 2 ^ 12 + q.ew * 2 ^ 14
    a + (q.recs.length + shape) * 2 ^ (16 * n)) 0
def queueWord1 (sl : Slot) : Nat := (sl.oqOf 0).length + (sl.oqOf 1).length * 2 ^ 16
/-- The word holding the monitor. -/
def monitorWord (m : Monitor) : Nat := b2n m.armed + m.granule % 2 ^ 46 * 2 ^ 6

/-- The 4,096 bytes of the scalar part. -/
def State.scalarPart (s : State) (c k : Nat) : List Byte :=
  let sl := s.slotAt c k
  let co := s.core c
  let w8 (l : List Nat) : List Byte := unwords 8 l
  let (pass, step) := mProgress sl
  w8 ((List.range 32).map fun r => (sl.xr (BitVec.ofNat 5 r)).toNat)
    ++ w8 [sl.flags.toNat, sl.fen.toNat, co.seed.toNat, sl.cause.toNat, sl.epc.toNat, sl.eva.toNat, sl.tvec.toNat,
      sl.scr.toNat, sl.sysId.toNat, s.cycle % 2 ^ 64, s.now % 2 ^ 64, sl.priv.toNat]
    ++ natLe 8 (sl.p.toNat + sl.vshape.toNat * 2 ^ 32)
    ++ unwords 4 ((List.range 8).map fun n => (sl.view n).toNat)
    ++ w8 [sl.cra.toNat % 2 ^ 52, b2n sl.hm + b2n sl.wbar.isSome * 2 + heldBits sl * 4, monitorWord sl.mon,
      pointerWord sl.mring, pointerWord sl.xring, pointerWord sl.sring, pointerWord sl.kring]
    ++ loopArea sl.susp sl.cs.loops ++ loopArea [] sl.vs.loops
    ++ progressWords step pass sl.mring ++ progressWords (xProgress sl) 0 sl.xring
    ++ progressWords (headProg sl.sring) 0 sl.sring
    ++ w8 [holdingWord sl.hold, 0]
    ++ (List.range 64).flatMap (fun n => natLe 4 (sl.sem n).pushed.toNat ++ natLe 4 (sl.sem n).done.toNat)
    ++ natLe 16 ((List.range 64).foldl (fun a g => a + (sl.guard g).toNat * 2 ^ (2 * g)) 0)
    ++ unwords 16 ((List.range 8).map fun e => tasteWord (sl.te e))
    ++ unwords 4 ((List.range 16).map fun n => ringRecWord (Sparse.get RingRec.reset co.rings (16 * k + n)))
    ++ w8 [queueWord0 sl, queueWord1 sl]
    ++ w8 ((List.range 4).map fun e => Sparse.get 0 sl.comp e)
    ++ List.replicate 2560 0

/-! ### The image -/

/-- A tile entry (R209). -/
def Tile.word (t : Tile) : Nat :=
  t.low + t.addr * 2 ^ 32 + t.saddr * 2 ^ 64 + t.size * 2 ^ 81 + t.cask * 2 ^ 94 + t.readers * 2 ^ 98 + t.cell * 2 ^ 104
def padBytes (n : Nat) (l : List Byte) : List Byte := l.take n ++ List.replicate (n - l.length) 0
/-- The commands of a ring as its entries stand. -/
def ringArea (w n : Nat) (r : Ring) : List Byte := (List.range n).flatMap fun i => natLe w (Sparse.get 0 r.entries i).toNat
def queueArea (q : CondQueue) : List Byte :=
  padBytes 65536 (q.recs.flatMap fun l => l.flatMap fun v => natLe (2 ^ q.ew) v.toNat)

/-- The parts of the image with their offsets. -/
def State.imageParts (s : State) (c k : Nat) : List (Nat × List Byte) :=
  let sl := s.slotAt c k
  let co := s.core c
  [ (0x00000, s.scalarPart c k),
    (0x01000, (List.range 8).flatMap fun m => natLe 512 (sl.mr m).toNat),
    (0x02000, (List.range 24).flatMap fun r => natLe 4096 (sl.vr r).toNat),
    (0x1A000, co.scratch.read (homeBase k) 0x40000),
    (0x5A000, co.acs.read (acsAddr k 0 0) 0x20000),
    (0x7A000, ringArea 16 256 sl.mring),
    (0x7B000, ringArea 16 256 sl.xring),
    (0x7C000, ringArea 8 256 sl.sring),
    (0x7C800, ringArea 16 16 sl.kring),
    (0x7C900, (List.range 16).flatMap fun g => natLe 32 (sl.greg g).toNat),
    (0x7CB00, (List.range 64).flatMap fun t => natLe 16 (co.tile (64 * k + t)).word),
    (0x7CF00, (List.range 16).flatMap fun n => natLe 16 (sl.handle n).word),
    (0x7D000, (List.range 4).flatMap fun n => padBytes 128 ((sl.mqOf n).flatMap fun v => natLe 2 v.toNat)),
    (0x7D200, (List.range 2).flatMap fun n => padBytes 2048 ((sl.oqOf n).flatMap fun v => natLe 4 v.toNat)),
    (0x7E200, (List.range 4).flatMap fun n => padBytes 1024 ((sl.box n).flatMap fun m => m.data)),
    (0x7F200, (List.range 4).flatMap fun n => queueArea (sl.queue n)),
    (0xBF200, (List.range 32).flatMap fun n => natLe 16 (sl.cap n)),
    (0xBF400, List.replicate 3072 0) ]
/-- Offsets in the image of the poisoned 64-bit words. -/
def State.imagePoison (s : State) (c k : Nat) : List Nat :=
  let sl := s.slotAt c k
  let co := s.core c
  let part (l : List Nat) (lo n at' : Nat) : List Nat :=
    (l.filter fun i => decide (lo ≤ i ∧ i < lo + n)).map fun i => at' + 8 * (i - lo)
  let oqs := (List.range 2).flatMap fun q => (Sparse.get [] sl.oqPoison q).map fun i => 0x7D200 + 2048 * q + i / 2 * 8
  part sl.vpoison 0 12288 0x2000 ++ part co.scratchPoison (homeBase k / 8) 32768 0x1A000
    ++ part co.acsPoison (acsAddr k 0 0 / 8) 16384 0x5A000 ++ oqs

/-- Writes the image of a slot at `va` through a function's translation, with its poison; a part that cannot be written
is left out (notes/assumptions/15.md). -/
def State.writeImage (s : State) (f va c k : Nat) : State :=
  let p := (s.partOfFn f).getD (s.slotAt c k).t.part
  let bad := s.imagePoison c k
  let s := (s.imageParts c k).foldl (fun s (o, l) =>
    match s.pieces none f p .wr (va + o) l.length with
    | .ok ps => s.pwrites none ps l
    | .error _ => s) s
  bad.foldl (fun s o =>
    match s.xlate none f p (va + o) .wr with
    | .ok pa => if isHost pa then s else { s with memPoison := addKey (pa / 64) s.memPoison }
    | .error _ => s) s

/-! ### Restoring (R441) -/

/-- The bits of a number that must be zero. -/
def zerosAt (v : Nat) (l : List (Nat × Nat)) : Bool := l.all fun (lo, n) => bitsN v lo n == 0
/-- Reserved bits of the scalar part, of its loop words and queue words. -/
def scalarOk (v : Nat) : Bool :=
  let w (o : Nat) : Nat := bitsN v (8 * o) 64
  let q0 := w 0x5D0
  let q1 := w 0x5D8
  zerosAt (w 0x100) [(6, 2), (14, 2), (22, 2), (30, 2), (38, 26)]
    && zerosAt (w 0x108) [(6, 2), (14, 2), (22, 2), (30, 2), (38, 26)]
    && zerosAt (w 0x118) [(11, 53)] && zerosAt (w 0x140) [(25, 39)] && zerosAt (w 0x158) [(1, 63)]
    && zerosAt (w 0x160) [(8, 24), (61, 3)] && (List.range 8).all (fun i => zerosAt (bitsN v (8 * (0x168 + 4 * i)) 32) [(24, 2), (27, 5)])
    && zerosAt (w 0x188) [(52, 12)] && zerosAt (w 0x190) [(7, 57)] && zerosAt (w 0x198) [(1, 5), (52, 12)]
    && (List.range 4).all (fun i => zerosAt (w (0x1A0 + 8 * i)) [(9, 7), (25, 6), (32, 32)])
    && (List.range 8).all (fun i => zerosAt (w (0x1C0 + 32 * i)) [(52, 9)] && zerosAt (w (0x1C8 + 32 * i)) [(63, 1)]
      && zerosAt (w (0x1D8 + 32 * i)) [(32, 32)])
    && (List.range 3).all (fun i => zerosAt (w (0x2C8 + 16 * i)) [(12, 51)])
    && w 0x2F8 == 0 && bitsN v (8 * 0x600) (8 * 2560) == 0
    && (List.range 4).all (fun n => let x := bitsN q0 (16 * n) 16
      decide (bitsN x 0 12 ≤ 2048) && (bitsN x 0 12 != 0 || x == 0))
    && zerosAt q1 [(10, 6), (26, 38)] && decide (bitsN q1 0 10 ≤ 512 ∧ bitsN q1 16 10 ≤ 512)

/-- A loop from its words, with what the image does not hold taken from the live loop. -/
def loopOf (l : HwLoop) (v : Nat) : HwLoop :=
  { l with
    id := bitsN v 122 5, start := BitVec.ofNat 64 (bitsN v 0 52), stop := BitVec.ofNat 64 (bitsN v 64 52)
    stages := bitsN v 116 3 + 1, base := bitsN v 119 3, np := bitN v 61, limit := bitsN v 128 32, pass := bitsN v 160 32
    remain := bitsN v 192 32 }
def loopZero : HwLoop :=
  { id := 0, start := 0, stop := 0, stages := 1, base := 0, np := false, total := 0, limit := 0, pass := 0, remain := 0,
    cut := false, iters := 0, rowSums := [], colSums := [] }
/-- The loops of an area, innermost first, those suspended (or not) alone. -/
def loopsOf (susp : Bool) (live : List HwLoop) (v : Nat) : List HwLoop :=
  let ws := ((List.range 4).map fun i => bitsN v (256 * i) 256).filter fun x => bitN x 63 && bitN x 62 == susp
  ((List.range ws.length).map fun i =>
    let x := nth 0 ws i
    loopOf (nth { loopZero with total := bitsN x 128 32 } live.reverse i) x).reverse
/-- The innermost loops of a handler that have no place in the image beside the suspended ones (R431, R440): they stay live
(notes/assumptions/15.md). -/
def Slot.loopsLeft (sl : Slot) : List HwLoop := sl.cs.loops.take (sl.susp.length + sl.cs.loops.length - 4)
/-- A ring from its area and pointer word. -/
def ringOfImage (id : RingId) (w : Nat) (l : List Byte) (ptr : Nat) (r : Ring) : Ring :=
  let es := words w (ringCap id) l
  { r with
    entries := (List.range (ringCap id)).foldl (fun m i => Sparse.set 0 m i (BitVec.ofNat 128 (nth 0 es i))) []
    rp := BitVec.ofNat 9 (bitsN ptr 0 9), wp := BitVec.ofNat 9 (bitsN ptr 16 9), closed := bitN ptr 31 }
def setHeld (b : Bool) (h : Option Code) : Option Code := if b then some (h.getD fIllegal) else none
/-- A ring restored over a live one: the state of a head that the image changes starts again; its progress, whether
it has begun and whether it is held are the image's. -/
def ringRestored (id : RingId) (old new : Ring) (prog : Nat) (begun held : Bool) : Ring :=
  let h := if old.len ≠ 0 ∧ new.len ≠ 0 ∧ old.headBits id = new.headBits id then old.head else HeadSt.reset
  { new with head := { h with prog := if begun then prog else 0, begun := begun, held := setHeld held h.held } }
/-- Units of an M head of a pass and step count; a pass after the first begins with the end of the one before. -/
def mUnits (sl : Slot) (pass step : Nat) : Nat :=
  if mProgress sl = (pass, step) then sl.mring.head.prog
  else (pass - 1) * passUnits (mmaRegs sl (sl.mring.headBits .m)).rows + (if step = 0 ∧ pass ≤ 1 then 0 else step + 1)

/-- What a WBAR without an arrival waits for: a phase that is over (notes/assumptions/15.md). -/
def noArrival : Nat × Nat := (2 ^ 16, 1)
/-- The scalar part put back: everything but snapshots, SYS_SEED, SYS_CYCLE and SYS_TIME. -/
def Slot.restoreScalar (sl : Slot) (v : Nat) : Slot :=
  let w (o : Nat) : Nat := bitsN v (8 * o) 64
  let word (o : Nat) : Word := BitVec.ofNat 64 (w o)
  let held := w 0x190 / 4
  let cloops := bitsN v (8 * 0x1C0) 1024
  let p := BitVec.ofNat 8 (w 0x160)
  { sl with
    x := (List.range 32).foldl (fun m r => if r = 0 then m else Sparse.set 0 m r (word (8 * r))) []
    flags := word 0x100, fen := word 0x108, cause := word 0x118, epc := word 0x120, eva := word 0x128, tvec := word 0x130
    scr := word 0x138, sysId := word 0x140, priv := word 0x158
    p := p ||| 1, vshape := BitVec.ofNat 32 (w 0x160 / 2 ^ 32)
    acc := (List.range 8).foldl (fun m n => Sparse.set 0 m n (BitVec.ofNat 32 (bitsN v (8 * (0x168 + 4 * n)) 32))) []
    cra := word 0x188, hm := bitN (w 0x190) 0, wbar := if bitN (w 0x190) 1 then some ((sl.wbar.orElse fun _ => sl.barWait).getD noArrival) else none
    mon := { sl.mon with armed := bitN (w 0x198) 0, granule := bitsN (w 0x198) 6 46 }
    cs := { sl.cs with loops := sl.loopsLeft ++ loopsOf false sl.cs.loops cloops }
    susp := loopsOf true sl.susp cloops
    vs := { sl.vs with loops := loopsOf false sl.vs.loops (bitsN v (8 * 0x240) 1024), heldAt := setHeld (bitN held 1) sl.vs.heldAt }
    sems := (rangeFrom 1 63).foldl (fun m n =>
      let x := w (0x300 + 8 * n)
      Sparse.set Sem.reset m n ⟨BitVec.ofNat 32 x, BitVec.ofNat 32 (x / 2 ^ 32)⟩) []
    gd := (rangeFrom 1 63).foldl (fun m g => Sparse.set 0 m g (BitVec.ofNat 2 (bitsN v (8 * 0x500 + 2 * g) 2))) []
    comp := (List.range 4).foldl (fun m e => Sparse.set 0 m e (w (0x5E0 + 8 * e))) [] }

/-- The rest of the register parts, `read` giving the bytes at an image offset; `v` is the scalar part. -/
def Slot.restoreParts (sl : Slot) (v : Nat) (read : Nat → Nat → List Byte) : Slot :=
  let w (o : Nat) : Nat := bitsN v (8 * o) 64
  let ring (id : RingId) (width area n ptr prg hb : Nat) (units : Ring → Nat) : Ring :=
    let old := sl.ring id
    let new := ringOfImage id width (read area (width * n)) (w ptr) old
    ringRestored id old new (units { new with head := old.head }) (bitN (w (prg + 8)) 63) (bitN (w 0x190) (2 + hb))
  let handle (x : Nat) : CbHandle := ⟨bitN x 0, BitVec.ofNat 2 (bitsN x 1 2), bitsN x 3 8, bitsN x 11 7⟩
  let queue (n : Nat) : CondQueue :=
    let x := bitsN (w 0x5D0) (16 * n) 16
    let cnt := bitsN x 0 12
    if cnt = 0 then CondQueue.reset
    else
      let fld := bitsN x 12 2 + 1
      let ew := bitsN x 14 2
      let vs := words (2 ^ ew) (cnt * fld) (read (0x7F200 + 65536 * n) 65536)
      { recs := (List.range cnt).map fun i => (List.range fld).map fun j => BitVec.ofNat 64 (nth 0 vs (i * fld + j))
        fld := fld, ew := ew }
  { sl with
    m := (rangeFrom 1 7).foldl (fun l m => Sparse.set 0 l m (BitVec.ofNat 4096 (leNat (read (0x1000 + 512 * m) 512)))) []
    v := (List.range 24).foldl (fun l r => Sparse.set 0 l r (BitVec.ofNat 32768 (leNat (read (0x2000 + 4096 * r) 4096)))) []
    mring := ring .m 16 0x7A000 256 0x1A0 0x2C0 2 fun n => mUnits { sl with mring := n } (bitsN (w 0x2C8) 0 12) (w 0x2C0)
    xring := ring .x 16 0x7B000 256 0x1A8 0x2D0 3 fun n => w 0x2D0 * xUnit { sl with xring := n }
    sring := ring .s 8 0x7C000 256 0x1B0 0x2E0 4 fun _ => w 0x2E0
    kring := ringOfImage .k 16 (read 0x7C800 256) (w 0x1B8) sl.kring
    g := (List.range 16).foldl (fun l g => Sparse.set 0 l g (BitVec.ofNat 256 (leNat (read (0x7C900 + 32 * g) 32)))) []
    cb := (List.range 16).foldl (fun l n => Sparse.set CbHandle.reset l n (handle (leNat (read (0x7CF00 + 16 * n) 16)))) []
    mq := (List.range 4).foldl (fun l n =>
      Sparse.set [] l n ((words 2 (sl.mqOf n).length (read (0x7D000 + 128 * n) 128)).map (BitVec.ofNat 16))) []
    oq := (List.range 2).foldl (fun l n =>
      Sparse.set [] l n ((words 4 (bitsN (w 0x5D8) (16 * n) 10) (read (0x7D200 + 2048 * n) 2048)).map (BitVec.ofNat 32))) []
    q := (List.range 4).foldl (fun l n => Sparse.set CondQueue.reset l n (queue n)) []
    inbox := (List.range 4).foldl (fun l n =>
      let ms := sl.box n
      Sparse.set [] l n ((List.range ms.length).map fun i =>
        { nth ⟨[], 0, 0, 0, 0, 0⟩ ms i with data := read (0x7E200 + 1024 * n + 64 * i) 64 })) []
    ch := (List.range 32).foldl (fun l n => Sparse.set 0 l n (BitVec.ofNat 128 (leNat (read (0xBF200 + 16 * n) 16)))) [] }

/-- Reserved bits outside the scalar part: stream registers, handles, capabilities, the tail. -/
def partsOk (read : Nat → Nat → List Byte) : Bool :=
  ((List.range 16).all fun g => let x := leNat (read (0x7C900 + 32 * g) 32)
      zerosAt x [(57, 7), (118, 10), (191, 1), (255, 1)])
    && ((List.range 16).all fun n => leNat (read (0x7CF00 + 16 * n) 16) / 2 ^ 18 == 0)
    && ((List.range 32).all fun n => zerosAt (leNat (read (0xBF200 + 16 * n) 16)) [(6, 2), (11, 5), (48, 16), (96, 32)])
    && (read 0xBF400 3072).all (· == 0)

/-- Words of 64 bits that come from a poisoned granule: their index from the first byte. -/
def State.wordsPoisoned (s : State) : List (Nat × Nat) → Nat → List Nat
  | [], _ => []
  | (pa, n) :: t, o =>
    (if isHost pa then [] else
      ((List.range (n / 8)).filter fun i => poisoned s.memPoison 64 (pa + 8 * i) 8).map fun i => o / 8 + i)
      ++ s.wordsPoisoned t (o + n)

/-- Restores a slot from its image at `va`; an image that cannot be read, or that has a reserved bit set, stops the
task. -/
def State.restoreImage (s : State) (f va c k : Nat) : State :=
  let sl := s.slotAt c k
  let p := sl.t.part
  match s.pieces none f p .rd va imageBytes with
  | .error (code, a) => s.stopTask c k code 0 (BitVec.ofNat 64 a)
  | .ok ps =>
    let l := s.preads ps
    let read (o n : Nat) : List Byte := (l.drop o).take n
    let v := leNat (read 0 4096)
    let bad := s.wordsPoisoned ps 0
    if !scalarOk v || !partsOk read then s.stopTask c k fIllegal 0 0
    else
      let poison (lo n at' : Nat) : List Nat := (bad.filter fun i => decide (lo / 8 ≤ i ∧ i < lo / 8 + n)).map fun i => i - lo / 8 + at'
      let put (old : List Nat) (lo n at' : Nat) : List Nat :=
        (poison lo n at').foldl (fun l i => addKey i l) (old.filter fun i => !decide (at' ≤ i ∧ i < at' + n))
      let s := s.putSlot c k { (sl.restoreScalar v).restoreParts v read with
        vpoison := put [] 0x2000 12288 0
        oqPoison := (List.range 2).foldl (fun m q => Sparse.set [] m q
          ((poison (0x7D200 + 2048 * q) 256 0).flatMap fun i => [2 * i, 2 * i + 1])) [] }
      s.modCore c fun co =>
        { co with
          scratch := co.scratch.write (homeBase k) (read 0x1A000 0x40000)
          scratchPoison := put co.scratchPoison 0x1A000 32768 (homeBase k / 8)
          acs := co.acs.write (acsAddr k 0 0) (read 0x5A000 0x20000)
          acsPoison := put co.acsPoison 0x5A000 16384 (acsAddr k 0 0 / 8) }

end Sys2Proof.Machine
end

