-- ==== Sys2Proof/Machine/Switch.lean ====
section
/-! DEFINITION. Switching a function out and in (R436, R437, R441 to R443), and TLB
invalidation (R230). -/

namespace Sys2Proof.Machine

/-- The slots that hold a task of a function, in core and slot order. -/
def State.slotsOf (s : State) (f : Nat) : List SlotId :=
  s.cores.flatMap fun (c, co) => (co.slots.filter fun (_, sl) => sl.task.isSome && sl.t.fn == f).map fun (k, _) => ⟨c, k⟩

/-! ### Streams of a stopped slot go on -/

/-- Every stop that has been served is taken back. -/
def Slot.resume (sl : Slot) : Slot :=
  let go (x : StreamSt) : StreamSt := { x with stopReq := none, stopped := false, atStop := false }
  let sl := (sl.refill .c).refill .v
  { sl with cs := go sl.cs, vs := go sl.vs, estop := [], estopped := [] }
/-- One stream alone goes on (R454). -/
def Slot.resumeStrm (sl : Slot) (st : Strm) : Slot :=
  match st with
  | .c | .v => (sl.refill st).modSs st fun ss => { ss with stopReq := none, stopped := false, atStop := false }
  | st => { sl with estop := sl.estop.put (strmNo st) none, estopped := sl.estopped.put (strmNo st) false }
/-- The held re-fire of a slot is requested (R399). -/
def State.heldRefires (s : State) (m : SlotId) : State :=
  if (s.slotAt m.core m.slot).heldRefire then
    (s.modSlot m.core m.slot fun sl => { sl with heldRefire := false }).requestRefire m.core m.slot
  else s
/-- A switch-out that stopped the streams of a halted slot is over; they stand halted. -/
def Slot.servedOut (sl : Slot) : Slot :=
  let served (c : Option StopCause) : Option StopCause := if c = some .switchOut then none else c
  { sl with
    cs := { sl.cs with stopReq := served sl.cs.stopReq }, vs := { sl.vs with stopReq := served sl.vs.stopReq }
    estop := sl.estop.map fun (i, c) => (i, served c) }
/-- A slot resumes unless it is to stop, to restart, or is halted; one that was stepping goes on with that stream alone. -/
def State.resumeSlot (s : State) (m : SlotId) : State :=
  let sl := s.slotAt m.core m.slot
  if sl.t.stopping.isSome || sl.t.refiring then s
  else
    match sl.dbg.st with
    | .running => s.modSlot m.core m.slot (·.resume)
    | .stepping => s.modSlot m.core m.slot fun sl =>
        { sl with cs := { sl.cs with stopReq := none }, vs := { sl.vs with stopReq := none }, estop := [] }.resumeStrm
          (strmOf sl.dbg.stepStrm)
    | .halting | .halted => s.modSlot m.core m.slot (·.servedOut)

/-! ### Out -/

/-- A switch-out is requested. A task not yet launched stays as it is. -/
def State.switchOut (s : State) (f : Nat) : State :=
  if (s.fn f).sw ≠ .isIn ∨ !(s.fn f).ready then s
  else
    (s.slotsOf f).foldl (fun s m =>
      if (s.slotAt m.core m.slot).t.launched then s.requestAll m.core m.slot .switchOut
      else s.modSlot m.core m.slot fun sl => { sl with out := true }) (s.modFn f fun fn => { fn with sw := .goingOut })
/-- `SWITCH_OUT`. -/
def execSwitchOut (f : Nat) (s : State) : Out := .next (s.switchOut f)

/-- The place of a slot's image: ranked by its core among the partition's (R436). -/
def State.imageAt (s : State) (f : Nat) (m : SlotId) : Nat :=
  let j := ((s.part (s.slotAt m.core m.slot).t.part).cores.filter fun c => decide (c < m.core)).length
  (s.fn f).ctxbase.toNat + imageBytes * (8 * j + m.slot)
/-- A slot leaves: its image, and the re-fire that shared the drain. -/
def State.slotOut (s : State) (f : Nat) (m : SlotId) : State :=
  let sl := s.slotAt m.core m.slot
  let s := if (s.fn f).save && sl.t.launched then s.writeImage f (s.imageAt f m) m.core m.slot else s
  s.modSlot m.core m.slot fun sl => { sl.modTask fun t => { t with refiring := false } with
    out := true, heldRefire := sl.heldRefire || sl.t.refiring }
/-- `SWITCH_OUT_COMPLETE`: every stream has stopped, and no task of the function is about to stop. -/
def execSwitchOutComplete (f : Nat) (s : State) : Out :=
  let ms := s.slotsOf f
  let done (m : SlotId) : Bool :=
    let sl := s.slotAt m.core m.slot
    !sl.t.launched || (sl.allStopped && sl.t.stopping.isNone)
  if (s.fn f).sw ≠ .goingOut ∨ !ms.all done then .next s
  else
    let s := ms.foldl (fun s m => s.slotOut f m) s
    .next (s.modFn f fun fn => { fn with sw := .out, saved := fn.save })

/-! ### In -/

/-- Queue tails written meanwhile take effect (R94). -/
def Func.takeTails (fn : Func) : Func :=
  { fn with queues := fn.queues.map fun (i, q) =>
      match q.heldTail with
      | some v => (i, { q.setTail v with heldTail := none })
      | none => (i, q) }
/-- A slot comes in: its image, and its monitor (R441, steps 1 and 3). -/
def State.slotIn (s : State) (f : Nat) (m : SlotId) : State :=
  let s := if (s.fn f).saved && (s.slotAt m.core m.slot).t.launched then s.restoreImage f (s.imageAt f m) m.core m.slot else s
  s.modSlot m.core m.slot fun sl => { sl with mon := { sl.mon with recheck := sl.mon.armed } }
/-- The raises that were held are applied (R442). -/
def State.slotRaises (s : State) (m : SlotId) : State :=
  let held := (s.slotAt m.core m.slot).heldRaises
  held.foldl (fun s (rss, off, v) => s.collRaise m rss off v)
    (s.modSlot m.core m.slot fun sl => { sl with out := false, heldRaises := [] })
/-- Held events are applied, every slot resumes, ST is IN, and the queues are read again (R441, steps 2 and 4). -/
def State.endSwitchIn (s : State) (f : Nat) : State :=
  let ms := s.slotsOf f
  let s := (ms.foldl (fun s m => s.slotRaises m) s).modFn f fun fn => { fn.takeTails with sw := .isIn }
  ms.foldl (fun s m => s.resumeSlot m) (ms.foldl (fun s m => s.heldRefires m) s)
/-- A switch-in is requested: ST is GOING IN while a slot is to resume, until the next cycle (notes/assumptions/24.md). -/
def State.switchIn (s : State) (f : Nat) : State :=
  if (s.fn f).sw ≠ .out then s
  else if (s.slotsOf f).isEmpty then s.endSwitchIn f
  else (s.slotsOf f).foldl (fun s m => s.slotIn f m) (s.modFn f fun fn => { fn with sw := .goingIn })
/-- `SWITCH_IN`. -/
def execSwitchIn (f : Nat) (s : State) : Out := .next (s.switchIn f)

/-! ### TLB invalidation -/

/-- log2 of the page that SZ names, 52 for every translation. -/
def tlbLog : Nat → Nat
  | 0 => 16 | 1 => 21 | 2 => 30 | _ => 52
/-- `TLBINV_WRITE`. -/
def execTlbinvWrite (o : BarWrite) (s : State) : Out :=
  let fn := s.fn o.fn
  if !fn.ready || o.off != 0x300 || fn.tlbBusy then .next s
  else
    .next (s.modFn o.fn fun fn =>
      { fn with tlbVa := BitVec.ofNat 64 (bitsN o.v.toNat 16 36 * 2 ^ 16), tlbSz := bitsN o.v.toNat 0 2, tlbBusy := true })
/-- `TLB_INVALIDATION_COMPLETE`: every TLB has dropped the translations of the range. -/
def execTlbInvalidationComplete (f : Nat) (s : State) : Out :=
  let fn := s.fn f
  if !fn.tlbBusy then .next s
  else
    let n := 2 ^ tlbLog fn.tlbSz
    let lo := fn.tlbVa.toNat / n * n
    let hit (e : TlbEntry) : Bool := e.fn == f && decide (e.va < lo + n ∧ lo < e.va + 2 ^ e.lg)
    .next ({ s with tlb := s.tlb.filter fun e => !hit e }.modFn f fun fn => { fn with tlbBusy := false })

end Sys2Proof.Machine
end

