-- ==== Sys2Proof/Machine/Debug.lean ====
section
/-! DEFINITION. Debugging (R452 to R456), trace units (R457, R463), counter banks (R461 to R463), reset of a function
(R464). -/

namespace Sys2Proof.Machine

/-! ### The slot a function debugs (R452) -/

def State.dbgSlot (s : State) (f : Nat) : SlotId :=
  ⟨bitsN (s.fn f).dbgSel.toNat 0 8, bitsN (s.fn f).dbgSel.toNat 8 3⟩
/-- OWN: the slot's task is the function's, or the function is the physical one. -/
def State.dbgOwns (s : State) (f : Nat) : Bool :=
  let m := s.dbgSlot f
  let sl := s.slotAt m.core m.slot
  decide (m.core < 192) && (f == 0 || (sl.task.isSome && sl.t.fn == f))
/-- SSTRM. -/
def State.dbgStrm (s : State) (f : Nat) : Nat := bitsN (s.fn f).dbgCtl.toNat 3 3
/-- A debug command of a function acts on the launched task of its slot. -/
def State.dbgActs (s : State) (f : Nat) : Bool :=
  let m := s.dbgSlot f
  (s.fn f).ready && s.dbgOwns f && (s.slotAt m.core m.slot).t.launched

/-! ### What a sample latches (R455) -/

/-- The stage of the next word to issue: its predicate's place among the loop's stage predicates. -/
def State.stageOf (s : State) (m : SlotId) (st : Strm) (l : HwLoop) : Nat :=
  match s.fetch m.core m.slot st with
  | .error _ => 7
  | .ok w =>
    let p := bitsN w.toNat (if bitsN w.toNat 0 2 = 0 then 24 else 29) 3
    if l.base ≠ 0 ∧ l.base ≤ p ∧ p < l.base + l.stages then p - l.base else 7
/-- LID, LACT, STAGE and ITER of a stream. -/
def State.sample (s : State) (m : SlotId) (n : Nat) : State :=
  let sl := s.slotAt m.core m.slot
  let put (lid : Nat) (lact : Bool) (stage iter : Nat) : State :=
    s.modSlot m.core m.slot fun sl => { sl with dbg := { sl.dbg with lid := lid, lact := lact, stage := stage, iter := iter % 2 ^ 32 } }
  match strmOf n with
  | .m => put 0 false 0 (mProgress sl).2
  | .x => put 0 false 0 (xProgress sl)
  | .s => put 0 false 0 (headProg sl.sring)
  | st =>
    match (sl.ss st).loops with
    | l :: _ => put l.id true (s.stageOf m st l) l.pass
    | [] => put 0 false 0 0

/-! ### Halt, resume, step, dump, sample -/

def execDbgHalt (f : Nat) (s : State) : Out :=
  let m := s.dbgSlot f
  let st := (s.slotAt m.core m.slot).dbg.st
  if !s.dbgActs f || !(st == .running || st == .stepping) then .next s else .next (s.haltSlot m.core m.slot 1)
/-- `DBG_HALTED`: the requests are served; the stream that stopped last is sampled. -/
def execDbgHalted (o : SlotId) (s : State) : Out :=
  let sl := s.slotAt o.core o.slot
  if sl.dbg.st ≠ .halting ∨ !sl.allStopped ∨ sl.t.stopping.isSome ∨ sl.t.refiring then .next s
  else
    let s := s.sample o sl.dbg.stepStrm
    .next (s.modSlot o.core o.slot fun sl =>
      let served (x : StreamSt) : StreamSt := if x.stopReq = some .halt then { x with stopReq := none } else x
      { sl with
        cs := served sl.cs, vs := served sl.vs
        estop := sl.estop.map fun (i, c) => (i, if c = some .halt then none else c)
        dbg := { sl.dbg with st := .halted } })
def execDbgResume (f : Nat) (s : State) : Out :=
  let m := s.dbgSlot f
  if !s.dbgActs f || (s.slotAt m.core m.slot).dbg.st != .halted then .next s
  else
    let s := s.modSlot m.core m.slot fun sl => { sl with dbg := { sl.dbg with st := .running, reason := 0 } }
    if (s.slotAt m.core m.slot).out then .next s else .next ((s.heldRefires m).resumeSlot m)
/-- `DBG_STEP`: one instruction of the C or V stream, or one head of a ring, may run. -/
def execDbgStep (f : Nat) (s : State) : Out :=
  let m := s.dbgSlot f
  let n := s.dbgStrm f
  let sl := s.slotAt m.core m.slot
  if !s.dbgActs f || sl.dbg.st != .halted || sl.out || decide (n > 4) then .next s
  else
    .next (s.modSlot m.core m.slot fun sl =>
      let rp := (sl.ring (ringOf (strmOf n))).rp
      { sl.resumeStrm (strmOf n) with
        dbg := { sl.dbg with st := .stepping, stepStrm := n, stepRp := rp, stepDone := false } })
/-- The step's work is done, and its packets have left their ports (R454). -/
def State.stepEnded (s : State) (m : SlotId) : Bool :=
  let sl := s.slotAt m.core m.slot
  let n := sl.dbg.stepStrm
  (if n < 2 then sl.dbg.stepDone else sl.dbg.stepRp != (sl.ring (ringOf (strmOf n))).rp)
    && (s.fn sl.t.fn).ports.all fun (_, l) => l.isEmpty
def execDbgStepEnd (o : SlotId) (s : State) : Out :=
  let sl := s.slotAt o.core o.slot
  if sl.dbg.st ≠ .stepping ∨ !s.stepEnded o then .next s
  else
    .next (s.modSlot o.core o.slot fun sl =>
      let n := sl.dbg.stepStrm
      let sl := { sl with dbg := { sl.dbg with st := .halted, reason := 3 } }
      if n < 2 then sl.modSs (strmOf n) fun ss => { ss with stopped := true } else { sl with estopped := sl.estopped.put n true })
def execDbgDump (f : Nat) (s : State) : Out :=
  let m := s.dbgSlot f
  if !s.dbgActs f || (s.slotAt m.core m.slot).dbg.st != .halted then .next s
  else .next ((s.writeImage f (s.fn f).dbgDump.toNat m.core m.slot).modFn f fun fn => { fn with dbgDone := true })
def execDbgSample (f : Nat) (s : State) : Out :=
  let n := s.dbgStrm f
  if !s.dbgActs f || decide (n > 4) then .next s
  else .next ((s.sample (s.dbgSlot f) n).modFn f fun fn => { fn with dbgDone := true })

/-! ### Trace units (R457, R463) -/

/-- The partition whose trace units a function claims. -/
def State.trPart (s : State) (f : Nat) : Option Nat :=
  if f = 0 then some (bitsN (s.fn 0).trcfg.toNat 18 5) else s.partOfFn f
def State.trEn (s : State) (f : Nat) : Bool := bitN (s.fn f).trcfg.toNat 0
/-- The function that holds a partition's trace units. -/
def State.trHolder (s : State) (p : Nat) : Option Nat :=
  (List.range 129).find? fun f => (s.fn f).trClaim && s.trPart f == some p
def State.setTrClaim (s : State) (f : Nat) (b : Bool) : State := s.modFn f fun fn => { fn with trClaim := b }
/-- The units of a partition become free: a frozen guest first, else the lowest function that waits. -/
def State.trRelease (s : State) (p : Nat) : State :=
  match (s.part p).trFrozen with
  | some g => (s.setTrClaim g true).modPart p fun q => { q with trFrozen := none }
  | none =>
    match (List.range 129).find? fun f => s.trEn f && s.trPart f == some p with
    | some f => s.setTrClaim f true
    | none => s
/-- A function gives up what it holds or waits for. -/
def State.trLeave (s : State) (f : Nat) : State :=
  match s.trPart f with
  | none => s
  | some p =>
    let held := (s.fn f).trClaim
    let s := (s.modFn f fun fn => { fn with trClaim := false, trcfg := fn.trcfg &&& ~~~1 }).modPart p fun q =>
      { q with trFrozen := if q.trFrozen = some f then none else q.trFrozen }
    if held then s.trRelease p else s
/-- A function claims; the physical function takes the units from a guest. -/
def State.trTake (s : State) (f : Nat) : State :=
  match s.trPart f with
  | none => s
  | some p =>
    match s.trHolder p with
    | none => s.setTrClaim f true
    | some g =>
      if f = 0 ∧ g ≠ 0 then ((s.setTrClaim g false).setTrClaim 0 true).modPart p fun q => { q with trFrozen := some g } else s
/-- The bits of TRCFG that are not reserved. -/
def trcfgBits : Word := 0x7FFFFF
/-- `TRACE_CLAIM`: a write of TRCFG. -/
def execTraceClaim (o : BarWrite) (s : State) : Out :=
  let lsz := bitsN o.v.toNat 1 5
  if !(s.fn o.fn).ready || o.off != 0x688 || decide (lsz < 8 ∨ 20 < lsz) then .next s
  else
    let v := o.v &&& trcfgBits
    let old := (s.fn o.fn).trcfg
    let same := old.getLsbD 0 && v.getLsbD 0 && (o.fn != 0 || bitsN old.toNat 18 5 == bitsN v.toNat 18 5)
    let s := if same then s else s.trLeave o.fn
    let s := s.modFn o.fn fun fn => { fn with trcfg := v }
    .next (if same || !v.getLsbD 0 then s else s.trTake o.fn)

/-! ### Counter banks (R461, R463) -/

def Core.bank (co : Core) (b : Nat) : CounterBank := Sparse.get CounterBank.reset co.banks b
def Core.putBank (co : Core) (b : Nat) (x : CounterBank) : Core := { co with banks := co.banks.put b x }
/-- CNTSEL: core and bank. -/
def State.cntSel (s : State) (f : Nat) : Nat × Nat :=
  (bitsN (s.fn f).cntSel.toNat 0 8, bitsN (s.fn f).cntSel.toNat 8 3)
/-- DCSH of a partition (R227): a partition without cores allocates nothing, so that DCSH is 0 at reset
(notes/assumptions/26.md). -/
def State.dcShared (s : State) (p : Nat) : Bool :=
  (s.part p).coreMask != 0 &&
    (List.range 20).any fun q => q != p && (s.part q).coreMask != 0 && ((s.part p).dcWays &&& (s.part q).dcWays) != 0
/-- A core's lines share ways with another partition's. -/
def State.coreShared (s : State) (c : Nat) : Bool :=
  match s.partOfCore c with
  | some p => s.dcShared p
  | none => false
/-- The bits of CNTCFG that hold a value; CLR does not. -/
def cntcfgBits : Word := 0xFFFFDFFFFFFFF
def CounterBank.clear (b : CounterBank) : CounterBank := { b with counts := [0, 0, 0, 0], ovf := 0, shared := false }
/-- A function holds the bank from here on: the counts cover the time it holds it. -/
def CounterBank.take (b : CounterBank) (f : Nat) : CounterBank :=
  let b := { b with holder := some f, kept := b.kept.filter fun (g, _) => g != f }
  if b.last = some f then b else { b.clear with last := some f }
/-- The holder's configuration; CLR zeroes the counters. -/
def CounterBank.configure (b : CounterBank) (f : Nat) (v : Word) : CounterBank :=
  let b := { b.take f with cfg := v &&& cntcfgBits }
  if v.getLsbD 33 then b.clear else b
/-- A claim. -/
def CounterBank.claim (b : CounterBank) (f : Nat) (v : Word) : CounterBank :=
  let wait : CounterBank :=
    { b with pending := b.pending.put f (v &&& cntcfgBits), kept := b.kept.filter fun (g, _) => g != f }
  match b.holder with
  | none => b.configure f v
  | some g =>
    if g = f then b.configure f v
    else if f = 0 then { b with frozen := some (g, b.cfg, b.counts, b.ovf, b.shared) }.configure 0 v
    else
      match b.frozen with
      | some (h, _, n, ov, sh) =>
        if h = f then
          { b with frozen := some (f, v &&& cntcfgBits,
              if v.getLsbD 33 then ([0, 0, 0, 0], 0, false) else (n, ov, sh)) }
        else wait
      | none => wait
/-- A release: a frozen guest is restored, else the lowest-numbered pending configuration is applied. -/
def CounterBank.release (b : CounterBank) (f : Nat) : CounterBank :=
  if b.holder ≠ some f then
    { b with
      pending := b.pending.filter fun (g, _) => g != f
      frozen := b.frozen.bind fun x => if x.1 = f then none else some x }
  else
    match b.frozen with
    | some (g, cfg, n, ov, sh) =>
      { b with holder := some g, last := some g, cfg := cfg, counts := n, ovf := ov, shared := sh, frozen := none }
    | none =>
      match b.pending with
      | (g, cfg) :: t => { b.take g with cfg := cfg, pending := t }
      | [] => { b with holder := none }
/-- CNTCFG as a function reads it. -/
def CounterBank.cfgOf (b : CounterBank) (f : Nat) : Word :=
  if b.holder = some f then b.cfg
  else
    let off := (b.pending.lookup f).getD (Sparse.get CounterBank.reset.cfg b.kept f)
    match b.frozen with
    | some (g, cfg, _) => if g = f then cfg else off
    | none => off
/-- What a write of CNTCFG with EN = 0 leaves of its fields; CLR by the holder zeroes the counters. -/
def CounterBank.keep (b : CounterBank) (f : Nat) (v : Word) : CounterBank :=
  let b := if v.getLsbD 33 && b.holder == some f then b.clear else b
  { b with kept := Sparse.set CounterBank.reset.cfg b.kept f (v &&& cntcfgBits) }
/-- A function may claim banks of a core. -/
def State.cntMay (s : State) (f c : Nat) : Bool :=
  decide (c < 192) && (f == 0 || (match s.partOfCore c with | some p => s.partOfFn f == some p | none => false))
def State.modBank (s : State) (c b : Nat) (g : CounterBank → CounterBank) : State :=
  s.modCore c fun co => co.putBank b (g (co.bank b))
/-- `CNT_CLAIM`: a write of CNTCFG with EN = 1. -/
def execCntClaim (o : BarWrite) (s : State) : Out :=
  let (c, b) := s.cntSel o.fn
  if !(s.fn o.fn).ready || o.off != 0x6C8 || !o.v.getLsbD 32 || !s.cntMay o.fn c then .next s
  else .next (s.modBank c b fun x => x.claim o.fn o.v)
/-- A write of CNTCFG with EN = 0: the fields stay written, and the bank is released. -/
def State.cntOff (s : State) (f : Nat) (v : Word) : State :=
  let (c, b) := s.cntSel f
  if decide (192 ≤ c) then s else s.modBank c b fun x => (x.keep f v).release f
/-- `CNT_RELEASE`: EN becomes 0 and the other fields stay. -/
def execCntRelease (f : Nat) (s : State) : Out :=
  let (c, b) := s.cntSel f
  if !(s.fn f).ready then .next s else .next (s.cntOff f (((s.core c).bank b).cfgOf f &&& 0xFFFFCFFFFFFFF))
/-- `CNT_CLEAR`: the holder zeroes its counters. -/
def execCntClear (f : Nat) (s : State) : Out :=
  let (c, b) := s.cntSel f
  if !(s.fn f).ready || decide (192 ≤ c) || ((s.core c).bank b).holder != some f then .next s
  else .next (s.modBank c b (·.clear))

/-- The scratchpad run of a tile's buffer that begins at granule `buf`, on core c. -/
def State.tileRun (s : State) (c : Nat) (x : ReadRef) : List (Nat × Nat) :=
  if x.core = c then [(64 * x.buf, (s.tileAt c x.abs).bytes)] else []
/-- The scratchpad run that the C stream's next instruction accesses by itself, or that of the record it works on. -/
def State.cpRuns (s : State) (c k : Nat) : List (Nat × Nat) :=
  let sl := s.slotAt c k
  let home (a : Word) (n : Nat) : List (Nat × Nat) := if a.toNat < 0x40000 then [(homeBase k + a.toNat, n)] else []
  let rec' (top : BitVec 12) (wr : Bool) : List (Nat × Nat) :=
    match s.place c k top wr with
    | .tile d a => s.tileRun c ⟨d, a, (s.tileAt d a).addr⟩
    | .wait _ => []
  if !(sl.t.launched && !sl.out && !sl.cs.ended && !sl.cs.stopped) then []
  else
    match s.fetch c k .c with
    | .error _ => []
    | .ok w =>
      match decodeC w with
      | .ok (.ldxB o, _) => home (sl.xr o.a + o.imm.signExtend 64) 1
      | .ok (.ldxH o, _) => home (sl.xr o.a + o.imm.signExtend 64) 2
      | .ok (.ldxW o, _) => home (sl.xr o.a + o.imm.signExtend 64) 4
      | .ok (.ldxD o, _) => home (sl.xr o.a + o.imm.signExtend 64) 8
      | .ok (.stxB o, _) => home (sl.xr o.a + o.imm.signExtend 64) 1
      | .ok (.stxH o, _) => home (sl.xr o.a + o.imm.signExtend 64) 2
      | .ok (.stxW o, _) => home (sl.xr o.a + o.imm.signExtend 64) 4
      | .ok (.stxD o, _) => home (sl.xr o.a + o.imm.signExtend 64) 8
      | .ok (.chsnd o, _) => home (sl.xr o.a + zext16 o.imm) 64
      | .ok (.chrcv o, _) => home (sl.xr o.a + zext16 o.imm) 64
      | .ok (.coll o, _) => home (sl.xr o.a + (match o.off with | .i16 v => zext16 v | .i32 v => v.signExtend 64)) 128
      | .ok (.skinit o, _) => rec' o.top true
      | .ok (.skmrg o, _) => rec' o.top true ++ rec' ((sl.xr o.a).setWidth 12) false
      | .ok (.skmrgR o, _) => rec' o.top true
      | .ok (.skqnt o, _) | .ok (.sktop o, _) | .ok (.sktopC o, _) => rec' o.top false
      | .ok (.skest o, _) | .ok (.skestX o, _) => rec' o.top false
      | _ => []
/-- The scratchpad runs that requester r of core c accesses: the buffers that the MXE's, the CPE's or the SIE's holder reads or
fills with its running command, the tile of the VXE's holder's next instruction, and what the C streams access (R460;
notes/assumptions/47.md). -/
def State.bankRuns (s : State) (c r : Nat) : List (Nat × Nat) :=
  let head (e : Engine) (id : RingId) (f : HeadSt → List ReadRef) : List (Nat × Nat) :=
    match ((s.core c).eng e).holder with
    | some k => let h := s.headAt c k id; if h.phase = .active then (f h).flatMap (s.tileRun c) else []
    | none => []
  let vxe (wr : Bool) : List (Nat × Nat) :=
    match (s.core c).vxe.holder with
    | some k => ((s.vTops c k).filter (·.wr == wr)).flatMap fun o =>
        match s.place c k o.top wr with
        | .tile d a => s.tileRun c ⟨d, a, (s.tileAt d a).addr⟩
        | .wait _ => []
    | none => []
  match r with
  | 0 | 1 => head .mxe .m (·.reads)
  | 2 => head .mxe .m (·.dst.toList)
  | 3 => vxe false
  | 4 => vxe true
  | 5 => head .cpe .x (·.dst.toList)
  | 6 => head .cpe .x (·.reads)
  | 7 => head .sie .s fun h => h.reads ++ h.dst.toList
  | 8 => (List.range 8).flatMap (s.cpRuns c)
  | _ => []
/-- Bytes [a, a+n) have a granule in bank b (R208). -/
def meetsBank (b : Nat) (x : Nat × Nat) : Bool :=
  x.2 != 0 && decide ((b + 32 - x.1 / 64 % 32) % 32 ≤ (x.1 + x.2 - 1) / 64 - x.1 / 64)
def State.onBank (s : State) (c b r : Nat) : Bool := (s.bankRuns c r).any (meetsBank b)
/-- The waits on a bank that this cycle has counted. -/
def State.waitsOn (s : State) (c b : Nat) : Nat :=
  (s.did.filter fun d => match d.ord with | .bank c' _ b' => c' == c && b' == b | _ => false).length
/-- An access of requester r waits on bank b in this cycle, since another requester's is served: a matrix cell grows, with the
event 0x20 of the banks that select it (R208, R460, R462). Of the requesters that reach a bank all but one may wait. -/
def State.bankWait (s : State) (c r b : Nat) : State :=
  let others := ((List.range 9).filter fun q => q != r && s.onBank c b q).length
  if b > 31 ∨ (s.core c).frozen ∨ !s.onBank c b r ∨ others ≤ s.waitsOn c b then s
  else
    let picks (cfg : Word) : Bool :=
      let q := bitsN cfg.toNat 42 4
      (q == 15 || q == r) && (cfg.getLsbD 51 || bitsN cfg.toNat 46 5 == b)
    s.modCore c fun co =>
      { co with
        matrix := Sparse.set 0 co.matrix (32 * r + b)
          (let v := Sparse.get 0 co.matrix (32 * r + b); if v = 0xFFFFFFFF then v else v + 1)
        banks := co.banks.map fun (i, x) => (i, if picks x.cfg then counterBump x 0x20 0 false 1 else x) }

/-! ### Reset of a function -/

/-- Every register at its reset value; packets under way, packet numbers and collectives are no registers. -/
def Func.resetRegs (fn : Func) : Func :=
  { Func.reset with
    ready := true, pseq := fn.pseq, colls := fn.colls, ports := fn.ports, past := fn.past, deficit := fn.deficit }
/-- The trace units and counter banks that the function holds or waits for become free, and its configurations go. -/
def State.leaveUnits (s : State) (f : Nat) : State :=
  let s := s.trLeave f
  { s with cores := s.cores.map fun (c, co) =>
      (c, { co with banks := co.banks.map fun (i, b) =>
              let b := b.release f
              (i, { b with last := if b.last = some f then none else b.last, kept := b.kept.filter fun (g, _) => g != f }) }) }
/-- `FUNCTION_RESET` of a VF: its tasks are stopped, and when none is left its registers are reset. -/
def execFunctionReset (f : Nat) (s : State) : Out :=
  if f = 0 ∨ f > 128 ∨ !((s.fn f).ready || (s.fn f).flr) then .next s
  else
    let ms := s.slotsOf f
    if ms.isEmpty then .next (((s.leaveUnits f).modFn f (·.resetRegs)).eventAll 4)
    else
      let s := s.modFn f fun fn => { fn with ready := false, flr := true, sw := .isIn }
      .next (ms.foldl (fun s m =>
        (s.modSlot m.core m.slot fun sl => { sl with out := false }).stopTask m.core m.slot 0 7 0) s)

end Sys2Proof.Machine
end

