-- ==== Sys2Proof/Machine/HostRegs.lean ====
section
/-! DEFINITION. What the host reaches: registers of BAR0 read and written (R91 to R94, R111, R156, R414, R448, R452 to R473),
the windows of BAR2 (R381, R467), interrupts (R469). -/

namespace Sys2Proof.Machine

/-! ### Offsets -/

/-- The partition whose configuration block holds an offset of the PF's BAR0, and the offset in it (R473). -/
def pcfgAt (off : Nat) : Option (Nat × Nat) :=
  if 0x100000 ≤ off ∧ off < 0x240000 then some ((off - 0x100000) / 0x10000, off % 0x10000) else none
/-- Bits [51:lo] of an address register; the others, which must be 0, are dropped (notes/assumptions/7.md). -/
def addrBits (lo : Nat) (v : Word) : Word := BitVec.ofNat 64 (bitsN v.toNat lo (52 - lo) * 2 ^ lo)

/-! ### Reads -/

def swNo : SwState → Nat
  | .isIn => 0 | .goingOut => 1 | .out => 2 | .goingIn => 3
def dbgNo : DbgSt → Nat
  | .running => 0 | .halting => 1 | .halted => 2 | .stepping => 3
/-- FN_STATUS (R466); in recovery mode only the PF enumerates, and no other function answers (R471;
notes/assumptions/7.md). -/
def State.fnStatus (s : State) (f : Nat) : Nat :=
  let fn := s.fn f
  if f ≠ 0 ∧ s.mgmt.recov then 0
  else b2n fn.ready + b2n fn.berr * 2 + fn.bstep * 4 + b2n (f == 0 && s.mgmt.recov) * 32 + b2n (fn.sw == .out) * 64
    + b2n (s.mgmt.throttle != 0) * 128
/-- QPROG (R92). -/
def qprog (fn : Func) (q : LQueue) : Nat :=
  q.head.toNat + b2n (fn.sw != .isIn) * 2 ^ 32 + b2n q.overrun * 2 ^ 33
    + b2n (q.fab && decide ((q.tail - q.head).toNat ≥ 2 ^ q.lsz)) * 2 ^ 34
/-- DBGSTAT (R452). -/
def State.dbgStat (s : State) (f : Nat) : Nat :=
  if !s.dbgOwns f then b2n (s.fn f).dbgDone * 8
  else
    let m := s.dbgSlot f
    let sl := s.slotAt m.core m.slot
    let d := sl.dbg
    dbgNo d.st + 4 + b2n (s.fn f).dbgDone * 8 + d.reason * 2 ^ 4 + d.lid * 2 ^ 8 + b2n d.lact * 2 ^ 13 + d.stage * 2 ^ 14
      + sl.t.depth % 256 * 2 ^ 17 + d.iter * 2 ^ 32
/-- A function waits for the bank it selects, or was displaced from it. -/
def CounterBank.waits (b : CounterBank) (f : Nat) : Bool :=
  b.pending.any (fun (g, _) => g == f) || (match b.frozen with | some (g, _) => g == f | none => false)
/-- The counters, OVF and SHARED that a function reads: its own, or its frozen ones. -/
def CounterBank.countsOf (b : CounterBank) (f : Nat) : List (BitVec 48) × BitVec 4 × Bool :=
  if b.holder = some f then (b.counts, b.ovf, b.shared)
  else
    match b.frozen with
    | some (g, _, x) => if g = f then x else ([], 0, false)
    | none => ([], 0, false)
/-- CNTSTAT (R461). -/
def State.cntStat (s : State) (f : Nat) : Nat :=
  let (c, i) := s.cntSel f
  let b := (s.core c).bank i
  let held := b.holder == some f
  (if b.waits f then stBusy.toNat else 0) + b2n held * 2 ^ 8
    + b2n ((b.countsOf f).2.2 || (held && s.coreShared c)) * 2 ^ 9 + (b.countsOf f).2.1.toNat * 2 ^ 10
def vecOf (fn : Func) (v : Nat) : Vector := Sparse.get Vector.reset fn.vecs v

/-- The registers of a launch register block below 0x1000, by 8-byte offset. -/
def State.blockRead (s : State) (f off : Nat) : Nat :=
  let fn := s.fn f
  let (c, i) := s.cntSel f
  let bank := (s.core c).bank i
  if off < 0x200 then
    let q := fn.q (off / 0x40)
    match off % 0x40 with
    | 0 => q.base.toNat
    | 8 => b2n q.en + b2n q.fab * 2 + q.lsz * 4
    | 0x18 => qprog fn q
    | _ => 0
  else if 0x400 ≤ off ∧ off < 0x600 then (Sparse.get 0 fn.ringTab ((off - 0x400) / 8)).toNat
  else if 0x6E0 ≤ off ∧ off < 0x700 then (nth 0 (bank.countsOf f).1 ((off - 0x6E0) / 8)).toNat
  else
    match off with
    | 0x200 => fn.jbase.toNat
    | 0x208 => b2n fn.jen + fn.jlsz * 2
    | 0x210 => fn.eseq % 2 ^ 64
    | 0x280 => match s.partOfFn f with | some p => (s.part p).lcstat.toNat | none => 0
    | 0x300 => b2n fn.tlbBusy * 2 ^ 63
    | 0x600 => fn.frbase.toNat
    | 0x608 => b2n fn.fren + fn.frlsz * 2
    | 0x640 => fn.dbgSel.toNat
    | 0x648 => fn.dbgCtl.toNat
    | 0x650 => s.dbgStat f
    | 0x658 => fn.dbgDump.toNat
    | 0x680 => fn.trbase.toNat
    | 0x688 => fn.trcfg.toNat
    | 0x690 => fn.rnum % 2 ^ 64
    | 0x6C0 => fn.cntSel.toNat
    | 0x6C8 => (bank.cfgOf f).toNat
    | 0x6D0 => s.cntStat f
    | _ => 0

/-- A register of a function record. -/
def Func.recordRead (fn : Func) (o : Nat) : Nat :=
  match o with
  | 0x00 => fn.tkdef.toNat
  | 0x08 => fn.ptroot.toNat
  | 0x10 => fn.ctxbase.toNat
  | 0x18 => b2n fn.save * 4 + swNo fn.sw * 8
  | 0x20 => fn.wbase.toNat
  | 0x28 => fn.wlog
  | _ => 0
/-- A function record of a partition: that of a function outside its mask reads as written. -/
def State.recordRead (s : State) (p f o : Nat) : Nat :=
  if (s.part p).funcMask.getLsbD f then (s.fn f).recordRead o
  else match (s.part p).fnRec.lookup (8 * f + o / 8) with
    | some v => v.toNat
    | none => Func.reset.recordRead o
/-- A register of a partition configuration block (R473). -/
def State.pcfgRead (s : State) (p o : Nat) : Nat :=
  let q := s.part p
  if o < 0x18 then bitsN q.coreMask.toNat (8 * o) 64
  else if 0x20 ≤ o ∧ o < 0xA0 then bitsN (Sparse.get 0 q.hbm ((o - 0x20) / 16)).toNat (8 * (o % 16)) 64
  else if 0xA0 ≤ o ∧ o < 0x120 then bitsN (Sparse.get 0 q.hostR ((o - 0xA0) / 16)).toNat (8 * (o % 16)) 64
  else if 0x150 ≤ o ∧ o < 0x168 then bitsN q.funcMask.toNat (8 * (o - 0x150)) 64
  else if 0x200 ≤ o ∧ o < 0x800 then
    let c := (o - 0x200) / 8
    if q.coreMask.getLsbD c then (s.core c).eccLog.toNat else 0
  else if 0x800 ≤ o ∧ o < 0x2840 then s.recordRead p ((o - 0x800) / 64) (o % 64)
  else if 0x3000 ≤ o ∧ o < 0xB100 then (Sparse.get 0x10084 q.portDrr ((o - 0x3000) / 8)).toNat
  else if 0xC000 ≤ o ∧ o < 0xC800 then (Sparse.get 0 q.acl ((o - 0xC000) / 8)).toNat
  else
    match o with
    | 0x120 => q.dcWays.toNat + b2n (s.dcShared p) * 2 ^ 32
    | 0x128 => q.qeBal.toNat
    | 0x130 => (List.range q.dies.length).foldl (fun a j => a + (q.queue j).length * 2 ^ (8 * j)) 0
    | 0x138 => q.poolBase.toNat
    | 0x140 => q.bindBase.toNat
    | 0x148 => q.cellar.toNat
    | 0xFFF8 => b2n q.pcfgErr
    | _ => 0

/-- RMCTL and RMIDX (R472). -/
def mailRead (m : Mgmt) (o : Nat) : Nat :=
  match o with
  | 0 => b2n m.rmBusy * 4 + m.rmStat * 8
  | 8 => m.rmIdx
  | _ => 0
/-- What the host reads at an 8-byte offset of a function's BAR0 (R465). Before READY only FN_STATUS answers. -/
def State.barRead (s : State) (f off : Nat) : Word :=
  let fn := s.fn f
  BitVec.ofNat 64 <|
    if off = 0x1000 then s.fnStatus f
    else if f = 0 ∧ s.mgmt.recov ∧ 0x8000 ≤ off ∧ off < 0xA000 then mailRead s.mgmt (off - 0x8000)
    else if !fn.ready then 0
    else if off < 0x1000 then s.blockRead f off
    else if off = 0x1008 then fn.evlog.toNat
    else if 0x1040 ≤ off ∧ off < 0x1060 then (vecOf fn ((off - 0x1040) / 8)).icoal.toNat
    else if 0x2000 ≤ off ∧ off < 0x2040 then
      let v := vecOf fn ((off - 0x2000) / 16)
      if off % 16 = 0 then v.addr.toNat else v.data.toNat + b2n v.masked * 2 ^ 32
    else if off = 0x3000 then (List.range 4).foldl (fun a v => a + b2n (vecOf fn v).pend * 2 ^ v) 0
    else if f ≠ 0 then 0
    else if 0x8000 ≤ off ∧ off < 0xA000 then mailRead s.mgmt (off - 0x8000)
    else
      match pcfgAt off with
      | some (p, o) => s.pcfgRead p o
      | none => 0

/-! ### Plain writes -/

def State.modMgmt (s : State) (f : Mgmt → Mgmt) : State := { s with mgmt := f s.mgmt }
/-- The mailbox takes a command: it is reachable and idle. -/
def State.mailOpen (s : State) : Bool := ((s.fn 0).ready || s.mgmt.recov) && !s.mgmt.rmBusy

/-- A ring's EN and LSZ, the old ones when LSZ lies outside its range. -/
def ringCfg (lo hi : Nat) (v : Word) (old : Bool × Nat) : Bool × Nat :=
  let l := bitsN v.toNat 1 5
  if l < lo ∨ hi < l then old else (v.getLsbD 0, l)
def State.blockWrite (s : State) (f off : Nat) (v : Word) : State :=
  if off < 0x200 then
    if off % 0x40 = 0 then s.modQ f (off / 0x40) fun q => if q.en then q else { q with base := addrBits 12 v } else s
  else if 0x400 ≤ off ∧ off < 0x600 then
    s.modFn f fun fn => { fn with ringTab := Sparse.set 0 fn.ringTab ((off - 0x400) / 8) (v &&& 0x7FF) }
  else
    match off with
    | 0x200 => s.modFn f fun fn => { fn with jbase := addrBits 12 v }
    | 0x208 => s.modFn f fun fn =>
        let (en, l) := ringCfg 8 16 v (fn.jen, fn.jlsz)
        { fn with jen := en, jlsz := l }
    | 0x600 => s.modFn f fun fn => { fn with frbase := addrBits 12 v }
    | 0x608 => s.modFn f fun fn =>
        let (en, l) := ringCfg 4 16 v (fn.fren, fn.frlsz)
        { fn with fren := en, frlsz := l }
    | 0x640 => s.modFn f fun fn => { fn with dbgSel := v &&& 0x7FF }
    | 0x648 =>
        let s := s.modFn f fun fn => { fn with dbgCtl := v &&& 0x78 }
        let m := s.dbgSlot f
        if s.dbgOwns f then s.modSlot m.core m.slot fun sl => { sl with dbg := { sl.dbg with brken := v.getLsbD 6 } } else s
    | 0x658 => s.modFn f fun fn => { fn with dbgDump := addrBits 16 v }
    | 0x680 => s.modFn f fun fn => { fn with trbase := addrBits 12 v }
    | 0x6C0 => s.modFn f fun fn => { fn with cntSel := v &&& 0x7FF }
    | 0x6C8 => if v.getLsbD 32 then s else s.cntOff f v
    | _ => s

/-- Banks that count while the ways are shared remember it (R461). -/
def State.latchShared (s : State) : State :=
  { s with cores := s.cores.map fun (c, co) =>
      (c, { co with banks := co.banks.map fun (i, b) =>
              (i, if b.holder.isSome && s.coreShared c then { b with shared := true } else b) }) }
/-- A register of a function record. -/
def Func.recordWrite (fn : Func) (o : Nat) (v : Word) : Func :=
  match o with
  | 0x00 => { fn with tkdef := v &&& 0xFFFFFFFF000000FF }
  | 0x08 => { fn with ptroot := addrBits 16 v }
  | 0x10 => { fn with ctxbase := addrBits 16 v }
  | 0x18 => { fn with save := v.getLsbD 2 }
  | 0x20 => { fn with wbase := addrBits 16 v }
  | 0x28 => let l := bitsN v.toNat 0 6; if 16 ≤ l ∧ l ≤ 40 then { fn with wlog := l } else fn
  | _ => fn
/-- A write of a function record: outside the mask the A9 ignores it and it reads as written; a REQ is acted on. -/
def State.recordWrite (s : State) (p f o : Nat) (v : Word) : State :=
  if (s.part p).funcMask.getLsbD f then
    let s := s.modFn f fun fn => fn.recordWrite o v
    if o ≠ 0x18 then s
    else match bitsN v.toNat 0 2 with | 1 => s.switchOut f | 2 => s.switchIn f | _ => s
  else
    let w := ((Func.reset.recordWrite o (BitVec.ofNat 64 (s.recordRead p f o))).recordWrite o v).recordRead o
    s.modPart p fun q => { q with fnRec := q.fnRec.put (8 * f + o / 8) (BitVec.ofNat 64 w) }
/-- The registers of a function record, by offset. -/
def recordRegs : List Nat := [0x00, 0x08, 0x10, 0x18, 0x20, 0x28]
/-- Function records as a function mask changes from that of partition `p` to `m`: a record taken into use is loaded, one
left is kept as it reads. -/
def State.remask (s : State) (p : Nat) (m : BitVec 192) : State :=
  (List.range 129).foldl (fun s f =>
    match (s.part p).funcMask.getLsbD f, m.getLsbD f with
    | false, true => s.modFn f fun fn =>
        recordRegs.foldl (fun fn o => fn.recordWrite o (BitVec.ofNat 64 (s.recordRead p f o))) fn
    | true, false =>
      let q := recordRegs.foldl (fun l o => Sparse.put l (8 * f + o / 8) (BitVec.ofNat 64 ((s.fn f).recordRead o % 2 ^ 64))) (s.part p).fnRec
      (s.modPart p fun x => { x with fnRec := q }).modFn f fun fn =>
        recordRegs.foldl (fun fn o => fn.recordWrite o (BitVec.ofNat 64 (Func.reset.recordRead o))) fn
    | _, _ => s) s
def State.pcfgWrite (s : State) (p o : Nat) (v : Word) : State :=
  if 0x800 ≤ o ∧ o < 0x2840 then
    s.recordWrite p ((o - 0x800) / 64) (o % 64) v
  else if 0x3000 ≤ o ∧ o < 0xB100 then
    s.modPart p fun q => { q with portDrr := Sparse.set 0x10084 q.portDrr ((o - 0x3000) / 8) (v &&& 0xFFFFFF) }
  else if 0xC000 ≤ o ∧ o < 0xC800 then
    s.modPart p fun q => { q with acl := Sparse.set 0 q.acl ((o - 0xC000) / 8) (v &&& 0x3FFFFFFFFF) }
  else
    match o with
    | 0x120 => (s.latchShared.modPart p fun q => { q with dcWays := v.setWidth 32 }).latchShared
    | 0x128 => s.modPart p fun q => { q with qeBal := v &&& 0x1FF }
    | 0x140 => s.modPart p fun q => { q with bindBase := addrBits 16 v }
    | 0x148 => s.modPart p fun q => { q with cellar := addrBits 22 v }
    | 0xFFF8 => s.modPart p fun q => { q with pcfgErr := v.getLsbD 0 }
    | _ => s
/-- ICOAL and the MSI-X table (R468, R469). -/
def Func.vecWrite (fn : Func) (now off : Nat) (v : Word) : Func :=
  let put (i : Nat) (x : Vector) : Func := { fn with vecs := fn.vecs.put i (x.settle now) }
  if off < 0x2000 then let i := (off - 0x1040) / 8; put i { vecOf fn i with icoal := v &&& 0xFFFFFFFFFFFF }
  else
    let i := (off - 0x2000) / 16
    if off % 16 = 0 then put i { vecOf fn i with addr := v }
    else put i { vecOf fn i with data := v.setWidth 32, masked := v.getLsbD 32, pend := (vecOf fn i).pend && v.getLsbD 32 }
/-- `REGISTER_WRITE`: an 8-byte write to a register without an event of its own; elsewhere it does nothing (R8, R465). -/
def execRegisterWrite (o : BarWrite) (s : State) : Out :=
  if o.fn = 0 ∧ o.off = 0x8008 then
    .next (if s.mailOpen then s.modMgmt fun m => { m with rmIdx := o.v.toNat } else s)
  else if !(s.fn o.fn).ready || decide (o.fn > 128) || decide (o.off % 8 ≠ 0) then .next s
  else if o.off < 0x1000 then .next (s.blockWrite o.fn o.off o.v)
  else if (0x1040 ≤ o.off ∧ o.off < 0x1060) ∨ (0x2000 ≤ o.off ∧ o.off < 0x2040) then
    .next (s.modFn o.fn fun fn => fn.vecWrite s.now o.off o.v)
  else if o.fn ≠ 0 then .next s
  else
    match pcfgAt o.off with
    | some (p, x) => .next (s.pcfgWrite p x o.v)
    | none => .next s

/-! ### Masks, ranges and the pool base (R473) -/

/-- No core or function of a partition setting holds a seated task, nor slots that are held for a gang (R127;
notes/assumptions/42.md). -/
def State.noneSeated (s : State) (q : Part) : Bool :=
  (s.cores.all fun (c, co) => co.slots.all fun (_, sl) =>
    sl.task.isNone || !(q.coreMask.getLsbD c || q.funcMask.getLsbD sl.t.fn))
  && s.parts.all fun (p, x) => x.gangs.all fun h =>
    !((h.slots.any fun k => q.coreMask.getLsbD k.core) || q.funcMask.getLsbD (s.lrecOwner p h.entry.recIdx))
/-- The setting that a write of a mask or range gives; BASE of an HBM range has bits [34:23] zero. -/
def Part.maskWrite (q : Part) (o : Nat) (v : Word) : Option Part :=
  let part (old lo x : Nat) : Nat := setBitsN old (64 * lo) 64 x
  let range (rs : Sparse (BitVec 128)) (o base : Nat) : Sparse (BitVec 128) :=
    let w := bitsN v.toNat 0 (if o % 16 < 8 then base else 35)
    Sparse.set 0 rs (o / 16) (BitVec.ofNat 128 (part (Sparse.get 0 rs (o / 16)).toNat (o % 16 / 8) w))
  if o < 0x18 then some { q with coreMask := BitVec.ofNat 192 (part q.coreMask.toNat (o / 8) v.toNat) }
  else if 0x20 ≤ o ∧ o < 0xA0 then some { q with hbm := range q.hbm (o - 0x20) 23 }
  else if 0xA0 ≤ o ∧ o < 0x120 then some { q with hostR := range q.hostR (o - 0xA0) 35 }
  else if 0x150 ≤ o ∧ o < 0x168 then
    some { q with funcMask := BitVec.ofNat 192 (part q.funcMask.toNat ((o - 0x150) / 8) v.toNat % 2 ^ 129) }
  else none
/-- A setting takes no core and no function of another partition (R115; notes/assumptions/42.md). -/
def State.maskFree (s : State) (p : Nat) (q : Part) : Bool :=
  (List.range 20).all fun r => r == p ||
    ((s.part r).coreMask &&& q.coreMask == 0 && (s.part r).funcMask &&& q.funcMask == 0)
/-- `PCFG_MASK_WRITE`. -/
def execPcfgMaskWrite (o : BarWrite) (s : State) : Out :=
  if !(s.fn 0).ready || o.fn != 0 || decide (o.off % 8 ≠ 0) then .next s
  else
    match pcfgAt o.off with
    | none => .next s
    | some (p, x) =>
      match (s.part p).maskWrite x o.v with
      | none => .next s
      | some q =>
        if s.noneSeated (s.part p) && s.noneSeated q && s.maskFree p q then
          .next ((s.remask p q.funcMask).modPart p fun r => { q with fnRec := r.fnRec })
        else .next (s.modPart p fun q => { q with pcfgErr := true })
/-- `POOLBASE_WRITE`: the 4,096 records at the new base are zeroed, and every record is IDLE (R26). -/
def execPoolbaseWrite (o : BarWrite) (s : State) : Out :=
  if !(s.fn 0).ready || o.fn != 0 then .next s
  else
    match pcfgAt o.off with
    | some (p, 0x138) =>
      let q := s.part p
      let busy := q.recs.any fun (_, r) => r.st == .armed || r.st == .ready || r.st == .running
      if busy || !s.noneSeated q then .next (s.modPart p fun q => { q with pcfgErr := true })
      else
        let b := addrBits 16 o.v
        .next ((s.modPart p fun q => { q with poolBase := b, recs := [] }).pwrite none b.toNat (List.replicate 0x40000 0))
    | _ => .next s

/-! ### Interrupts (R469) -/

/-- `INTERRUPT_COALESCE_TIMEOUT` of vector `q`. -/
def execInterruptCoalesceTimeout (o : QueueRef) (s : State) : Out :=
  if o.q > 3 then .next s
  else .next (s.modFn o.fn fun fn => { fn with vecs := fn.vecs.put o.q ((vecOf fn o.q).settle s.now) })
/-- `MSIX_UNMASK`. -/
def execMsixUnmask (o : QueueRef) (s : State) : Out :=
  if o.q > 3 ∨ !(s.fn o.fn).ready then .next s
  else .next (s.modFn o.fn fun fn =>
    { fn with vecs := fn.vecs.put o.q ({ vecOf fn o.q with masked := false, pend := false }.settle s.now) })

/-! ### The window (R381, R467) -/

/-- The bytes the host reads: those of device writes that no `PUBH` has released are the ones before. -/
def State.hostRead (s : State) : List (Nat × Nat) → List Byte
  | [] => []
  | (pa, n) :: t =>
    (((s.mem.read pa n).zip (rangeFrom pa n)).map fun (b, a) =>
      match s.hidden.lookup a with
      | some x => x.old
      | none => b) ++ s.hostRead t
/-- The device virtual address of a window access, inside the window. -/
def State.winVa (s : State) (f off len : Nat) : Option Nat :=
  let fn := s.fn f
  if 16 ≤ fn.wlog ∧ off + len ≤ 2 ^ fn.wlog then some (fn.wbase.toNat + off) else none
def State.winPieces (s : State) (f off len : Nat) (a : Acc) : Option (List (Nat × Nat)) :=
  match s.winVa f off len, s.partOfFn f with
  | some va, some p => (s.pieces none f p a va len).toOption
  | _, _ => none
/-- `HOST_WINDOW_READ`: what the host gets, and whether the completer aborts. -/
def execHostWindowRead (o : WinRead) (s : State) : Out :=
  let put (l : List Byte) (abort : Bool) : Out := .next (s.modFn o.fn fun fn => { fn with winData := l, winAbort := abort })
  if !(s.fn o.fn).ready then put (List.replicate o.len 0) false
  else
    match s.winPieces o.fn o.off o.len .rd with
    | none => put (List.replicate o.len 0xFF) true
    | some ps => if s.ppoison ps then put (List.replicate o.len 0xFF) true else put (s.hostRead ps) false
/-- `HOST_WINDOW_WRITE`: a write that does not translate is dropped and reported. -/
def execHostWindowWrite (o : WinWrite) (s : State) : Out :=
  if !(s.fn o.fn).ready then .next s
  else
    match s.winPieces o.fn o.off o.data.length .wr with
    | none => .next (s.event o.fn 5 0)
    | some ps => .next (s.pwrites none ps o.data)
/-- `ATS_INVALIDATION`: the address translation cache drops the pages of a function's host memory. -/
def execAtsInvalidation (f : Nat) (s : State) : Out :=
  .next { s with atc := s.atc.filter fun (g, _) => g / 2 ^ 35 != f }

end Sys2Proof.Machine
end

