-- ==== Sys2Proof/Machine/MemInstr.lean ====
section
/-! DEFINITION. Loads, stores and atomics of the C stream (R189 to R191, R369 to R374), the monitor (R383,
R384). Accesses are performed in the order of moves (notes/assumptions/8.md); order forms and scopes govern what a later
`PUBH` releases to the host (R364, R365, R381). -/

namespace Sys2Proof.Machine

/-! ### Device memory (R189) -/

def ldExt (n : Nat) (unsigned : Bool) (v : Nat) : Word :=
  BitVec.ofNat 64 (if unsigned then v else wrapN (sextN v (8 * n)) 64)
/-- A read of bytes [pa, pa+n) takes up what was released there: at once with .AQ, else with the next acquiring fence
(R365, R370). -/
def State.readAt (s : State) (aq : Bool) (sc : Scope) (pa n : Nat) : State :=
  let k := s.myId
  (s.places.filter fun x => x.live.any fun a => decide (pa ≤ a ∧ a < pa + n)).foldl (fun s x =>
    let s := if scopeHas x.scope x.rel k then s.pass (.place x.no) (.taken k x.rel x.scope) else s
    if aq && syncs x.rel x.scope k sc.toNat then s.pass (.place x.no) s.agent else s) s
/-- The bytes that an atomic writes carry on an earlier release there (R365). -/
def RelPlace.revive (x : RelPlace) (pa n : Nat) : RelPlace :=
  { x with live := x.live ++ ((rangeFrom pa n).filter fun a => decide (x.pa ≤ a ∧ a < x.pa + x.n) && !x.live.contains a) }
/-- A releasing write of bytes [pa, pa+n) leaves there what `w` knows. -/
def State.releaseAt (s : State) (w : Agent) (sc pa n : Nat) : State :=
  let knows (w : Agent) : Bool := s.hidden.any fun (_, x) => x.writes.any (·.known.contains w)
  if !knows w then s
  else
    let l := s.places.filter fun x => knows (.place x.no)
    let no := l.foldl (fun m x => max m (x.no + 1)) 0
    { s with places := l ++ [(⟨no, pa, n, s.myId, sc, rangeFrom pa n⟩ : RelPlace)] }.pass w (.place no)
/-- With .RL the release comes before the operation's own accesses: what it covers is set apart (R364, R369, R372). -/
def State.setApart (s : State) (rl : Bool) : State := if rl then s.pass s.agent (.own s.myId) else s
/-- A write of bytes [pa, pa+n) releases there: with .RL what was set apart, and what the stream's release fences covered
(R365, R370). -/
def State.writeAt (s : State) (rl atomic : Bool) (sc : Scope) (pa n : Nat) : State :=
  let s := if atomic then { s with places := s.places.map (·.revive pa n) } else s
  let s := if rl then (s.releaseAt (.own s.myId) sc.toNat pa n).forget (.own s.myId) else s
  (List.range 5).foldl (fun s f => s.releaseAt (.fence s.myId f) f pa n) s
/-- The physical address of an access that has been checked. -/
def State.paOf (s : State) (va : Word) (n : Nat) (a : Acc) : Nat :=
  match s.dataPa va n a with
  | .ok pa => pa
  | .error _ => 0

def ld (n : Nat) (unsigned : Bool) (o : LdOp) : State → Out :=
  instr o.pr (immLen o.off) fun s =>
    let va := s.me.xr o.a + immWord o.off
    let aq := o.ord.getLsbD 0
    let s := if aq then s.dropEarly s.agent else s
    (s.load va n).then fun r =>
      let t := if (s.earlyAt va.toNat n).isSome then r.2 else r.2.readAt aq o.scope (s.paOf va n .rd) n
      .done (t.setX o.d (ldExt n unsigned r.1))
def execLdB (o : LdOp) : State → Out := ld 1 false o
def execLdH (o : LdOp) : State → Out := ld 2 false o
def execLdW (o : LdOp) : State → Out := ld 4 false o
def execLdD (o : LdOp) : State → Out := ld 8 false o
def execLdBu (o : LdOp) : State → Out := ld 1 true o
def execLdHu (o : LdOp) : State → Out := ld 2 true o
def execLdWu (o : LdOp) : State → Out := ld 4 true o
def st (n : Nat) (o : StOp) : State → Out :=
  instr o.pr (immLen o.off) fun s =>
    let va := s.me.xr o.a + immWord o.off
    let rl := o.ord.getLsbD 1
    ((s.setApart rl).store va n (s.me.xr o.b).toNat).then fun t => .done (t.writeAt rl false o.scope (s.paOf va n .wr) n)
def execStB (o : StOp) : State → Out := st 1 o
def execStH (o : StOp) : State → Out := st 2 o
def execStW (o : StOp) : State → Out := st 4 o
def execStD (o : StOp) : State → Out := st 8 o

/-! ### Home region (R190) -/

def ldx (n : Nat) (o : LdxOp) : State → Out :=
  instr o.pr 8 fun s =>
    let a := s.me.xr o.a + o.imm.signExtend 64
    (homeChk a n).then fun _ =>
      if s.homePoison a.toNat n then .trap fPoison a
      else .done (s.setX o.d (BitVec.ofNat 64 (s.homeNat a.toNat n)))
def execLdxB (o : LdxOp) : State → Out := ldx 1 o
def execLdxH (o : LdxOp) : State → Out := ldx 2 o
def execLdxW (o : LdxOp) : State → Out := ldx 4 o
def execLdxD (o : LdxOp) : State → Out := ldx 8 o
def stx (n : Nat) (o : StxOp) : State → Out :=
  instr o.pr 8 fun s =>
    let a := s.me.xr o.a + o.imm.signExtend 64
    (homeChk a n).then fun _ => .done (s.homeWrite a.toNat (natLe n (s.me.xr o.b).toNat))
def execStxB (o : StxOp) : State → Out := stx 1 o
def execStxH (o : StxOp) : State → Out := stx 2 o
def execStxW (o : StxOp) : State → Out := stx 4 o
def execStxD (o : StxOp) : State → Out := stx 8 o

/-! ### Atomics (R372, R373) -/

def atomSize (dbl : Bool) : Nat := if dbl then 8 else 4
/-- One atomic at `va`: f gives the new value, none when nothing is written. -/
def atomic (d : Reg) (va : Word) (ord : BitVec 2) (sc : Scope) (dbl : Bool) (f : Nat → Option Nat) (s : State) : Res :=
  let n := atomSize dbl
  (s.dataPa va n .rw).then fun pa =>
    if isHost pa then .trap fPerm va
    else if (s.part s.me.t.part).inPool pa n then .trap fPerm va
    else if poisoned s.memPoison 64 pa n then .trap fPoison va
    else
      let old := s.mem.nat pa n
      let s := (((s.setApart (ord.getLsbD 1)).observe s.agent pa n).readAt (ord.getLsbD 0) sc pa n)
      let s := match f old with
        | some v => (((s.pwrite (some s.agent) pa (natLe n v)).madeAt va.toNat pa n).wrote).writeAt (ord.getLsbD 1) true sc pa n
        | none => s.forget (.own s.myId)
      .done (s.setX d (ldExt n false old))
/-- f(old, v) on the size's bits. -/
def amo (f : Nat → Nat → Nat → Nat) (o : AmoOp) : State → Out :=
  instr o.pr 8 fun s =>
    let w := 8 * atomSize o.dbl
    let v := (s.me.xr o.b).toNat % 2 ^ w
    atomic o.d (s.me.xr o.a + o.imm.signExtend 64) o.ord o.scope o.dbl (fun old => some (f w old v)) s
def execAmoAdd (o : AmoOp) : State → Out := amo (fun w a b => (a + b) % 2 ^ w) o
def execAmoAnd (o : AmoOp) : State → Out := amo (fun _ a b => a &&& b) o
def execAmoOr (o : AmoOp) : State → Out := amo (fun _ a b => a ||| b) o
def execAmoXor (o : AmoOp) : State → Out := amo (fun _ a b => a ^^^ b) o
def execAmoMin (o : AmoOp) : State → Out := amo (fun w a b => if sextN a w < sextN b w then a else b) o
def execAmoMax (o : AmoOp) : State → Out := amo (fun w a b => if sextN a w < sextN b w then b else a) o
def execAmoMinu (o : AmoOp) : State → Out := amo (fun _ a b => min a b) o
def execAmoMaxu (o : AmoOp) : State → Out := amo (fun _ a b => max a b) o
def execAmoXchg (o : AmoOp) : State → Out := amo (fun _ _ b => b) o
def execCas (o : CasOp) : State → Out :=
  instr o.pr 8 fun s =>
    let w := 8 * atomSize o.dbl
    atomic o.d (s.me.xr o.a) o.ord o.scope o.dbl
      (fun old => if old = (s.me.xr o.b).toNat % 2 ^ w then some ((s.me.xr o.c).toNat % 2 ^ w) else none) s

/-! ### Fences (R370, R371): every earlier access has been performed -/

/-- What earlier reads took up is acquired; what is known now goes with later writes (R370). -/
def State.fence (s : State) (aq rl : Bool) (sc : Scope) : State :=
  let k := s.myId
  let s := if aq then s.passIf (fun w => match w with
    | .taken j r _ => j == k && scopeHas sc.toNat k r
    | _ => false) s.agent else s
  if rl then s.pass s.agent (.fence k sc.toNat) else s
def execFenceAq (o : FenceOp) : State → Out := instr o.pr 8 fun s => .done (s.fence true false o.scope)
def execFenceRl (o : FenceOp) : State → Out := instr o.pr 8 fun s => .done (s.fence false true o.scope)
def execFenceAr (o : FenceOp) : State → Out := instr o.pr 8 fun s => .done (s.fence true true o.scope)
def execFenceSc (o : FenceOp) : State → Out := instr o.pr 8 fun s => .done (s.fence true true o.scope)

/-! ### Monitor (R383, R384) -/

def execMon (o : MonOp) : State → Out :=
  instr o.pr 8 fun s =>
    let va := s.me.xr o.a + o.imm.signExtend 64
    (s.dataPa va 1 .rd).then fun pa =>
      if isHost pa then .trap fPerm va
      else .done (s.modMe fun sl =>
        { sl with mon := { armed := true, granule := va.toNat / 64, pa := pa / 64, written := false, recheck := s.me.mon.recheck } })

/-- The result of an `MWAIT` now, if it has one. -/
def mwaitCode (s : State) (sl : Slot) (deadline : Nat) : Option Nat :=
  if sl.mon.recheck then some 0x84
  else if !sl.mon.armed then some 3
  else if sl.mon.written then some 0
  else if deadline ≠ 0 ∧ deadline ≤ s.now then some 2
  else none
/-- The monitor is disarmed and X[d] receives the code. -/
def mwaitEnd (s : State) (d : Reg) (code : Nat) : State :=
  (s.dropEarly s.agent).modMe fun sl => { sl with mon := Monitor.reset }.setX d (BitVec.ofNat 64 code)
def execMwait (o : RR) : State → Out :=
  instr o.pr 8 fun s =>
    match mwaitCode s s.me (s.me.xr o.a).toNat with
    | some c => .done (mwaitEnd s o.d c)
    | none => .wait s (.monitor o.d (s.me.xr o.a).toNat)

/-- A waiting `MWAIT` returns: after a write, at its deadline, or without cause; not once a stop is requested, nor in a freeze
(R226). -/
def execMwaitWake (o : MwaitWakeArgs) (s : State) : Out :=
  let sl := s.slotAt o.core o.slot
  if (s.core o.core).frozen then .next s else
  match sl.cs.waiting, sl.cs.stopReq with
  | some (.monitor d dl), none =>
    let code := match o.cause with
      | .written => if sl.mon.written then some 0 else none
      | .deadline => if dl ≠ 0 ∧ dl ≤ s.now then some 2 else none
      | .spurious => some 1
    match code with
    | some c => .next (s.completed ⟨o.core, o.slot⟩ fun s => (mwaitEnd s d c).advance 8)
    | none => .next s
  | _, _ => .next s

end Sys2Proof.Machine
end

