-- ==== Sys2Proof/Machine/Mgmt.lean ====
section
/-! DEFINITION. Bring-up (R464), storage errors (R226), recovery (R470 to R472), the trust processor (R474), power and
temperature (R475, R476) and the management controller (R477). -/

namespace Sys2Proof.Machine

/-- An event in every function of the partitions that `sel` picks (R468). -/
def State.eventParts (s : State) (sel : Nat → Bool) (kind core : Nat) : State :=
  ((List.range 20).filter sel).foldl (fun s p => (s.part p).fns.foldl (fun s f => s.event f kind core) s) s

/-! ### Bring-up -/

/-- Step 3: a core's stores, register files and tables are zeroed, with correct SECDED. -/
def Core.zeroed (co : Core) : Core :=
  { co with
    scratch := [], scratchPoison := [], acs := [], acsPoison := [], ttb := [], rings := []
    slots := co.slots.map fun (k, sl) => (k, { sl with v := [], vpoison := [] }) }
/-- Step 5: the partition configuration blocks, ECCLOG and the function records among them, take their reset values, and the
currency table holds only the root. -/
def State.blocksReset (s : State) : State :=
  { s with
    parts := [], curs := [(0, Currency.root)]
    cores := s.cores.map fun (c, co) => (c, { co with eccLog := 0 })
    funcs := s.funcs.map fun (f, fn) => (f, recordRegs.foldl (fun fn o =>
      fn.recordWrite o (BitVec.ofNat 64 (Func.reset.recordRead o))) { fn with wlog := Func.reset.wlog }) }
/-- The work of the steps before step n: 3 zeroes the cores' stores, 4 scrubs HBM when SCRUB says so and leaves its ECC valid,
5 resets the partition configuration blocks and sets SYS_TIME. -/
def State.upTo (s : State) (n timeNs : Nat) : State :=
  let s := if 3 < n then { s with cores := s.cores.map fun (c, co) => (c, co.zeroed) } else s
  let s := if 4 < n then { s with mem := if s.mgmt.scrub then s.mem.filter (fun (a, _) => isHost a) else s.mem, memPoison := [] } else s
  if 5 < n then { s.blocksReset with time := 756 * timeNs } else s
/-- The bytes of chunks in the order of their indices. -/
def chunkBytes (cs : Sparse (List Byte)) : List Byte := cs.flatMap (·.2)
/-- Chunks hold an image followed by its signature (66 bytes of each of its two numbers), and the signature holds (R470). -/
def imageOk (cs : Sparse (List Byte)) : Bool :=
  let l := chunkBytes cs
  let n := l.length - 132
  decide (132 ≤ l.length) && Config.signatureHolds Config.bootKey (Config.sha512 (l.take n)) (l.drop n)
/-- The image in flash verifies; that of the factory does (notes/assumptions/4.md). -/
def Mgmt.verified (m : Mgmt) : Bool :=
  match m.flash with
  | none => true
  | some cs => imageOk cs
/-- `BRING_UP`, once after reset: the step that fails leaves READY at 0 in every function; an image that does not verify
fails the first step and begins recovery mode. -/
def execBringUp (o : BringUpArgs) (s : State) : Out :=
  let m := s.mgmt
  if m.broughtUp || m.upFailed then .next s
  else
    let fail := if !m.verified then 1 else o.fail
    if fail ≠ 0 ∧ fail ≤ 6 then
      let s := (List.range Config.numFuncs).foldl (fun s f => s.modFn f fun fn => { fn with berr := true, bstep := fail })
        (s.upTo fail o.timeNs)
      .next (s.modMgmt fun m => { m with upFailed := true, recov := fail == 1 })
    else
      let s := (s.upTo 6 o.timeNs).modMgmt fun m => { m with broughtUp := true, lastTick := o.timeNs }
      .next ((List.range Config.numFuncs).foldl (fun s f => (s.modFn f fun fn => { fn with ready := true }).event f 4 0) s)
/-- A byte of HBM after a reset of the module: undefined (R464). -/
def State.afterReset (s : State) : Nat × Byte → Nat × Byte
  | (a, b) => if isHost a then (a, b) else (a, Config.hbmAfterReset s.mgmt.resets a)
/-- A reset of the module: every register returns to its reset value, and flash keeps its image, which `BRING_UP` verifies
next (R471, R472). Host memory stays, and what HBM holds is undefined. -/
def State.moduleReset (s : State) : State :=
  { State.reset with
    agenda := s.agenda, seq := s.seq, memPoison := s.memPoison.filter fun g => isHost (64 * g)
    mem := (s.mem.map s.afterReset).filter fun (_, b) => b != 0
    mgmt := { Mgmt.reset with flash := s.mgmt.flash, spdmCount := s.mgmt.spdmCount, dev := s.mgmt.dev, scrub := s.mgmt.scrub,
                              resets := s.mgmt.resets + 1 } }

/-! ### Storage errors (R226) -/

/-- 64-bit words of a store. -/
def storeWords : Nat → Nat
  | 0 => 786432 | 1 => 131072 | 2 => 98304 | _ => 2 ^ 20
/-- ECCLOG: one error more, the counts saturating. -/
def eccNote (log : Word) (uncorr : Bool) (store word : Nat) : Word :=
  let v := log.toNat
  let up (x : Nat) (b : Bool) : Nat := if b then min 65535 (x + 1) else x
  BitVec.ofNat 64 (up (bitsN v 0 16) (!uncorr) + up (bitsN v 16 16) uncorr * 2 ^ 16 + store % 4 * 2 ^ 32 + word % 2 ^ 20 * 2 ^ 34)
/-- A freeze of 24 cycles from now; each of its cycles leaves quanta and starvation counts where they are (Core.pass). -/
def Core.freeze (co : Core) (now : Nat) : Core := { co with frozen := true, freezeUntil := now + 24 }
/-- `ECC_CORRECTABLE`: HBM and the die caches correct without a freeze. -/
def execEccCorrectable (o : EccArgs) (s : State) : Out :=
  if o.core ≥ 192 ∨ o.store > 3 ∨ o.word ≥ storeWords o.store then .next s
  else .next (s.modCore o.core fun co => { co.freeze s.cycle with eccLog := eccNote co.eccLog false o.store o.word })
def execFreezeEnd (c : Nat) (s : State) : Out :=
  if (s.core c).frozen ∧ (s.core c).freezeUntil ≤ s.cycle then .next (s.modCore c fun co => { co with frozen := false })
  else .next s

/-- What an uncorrectable error does to the store. -/
def State.spoil (s : State) (o : EccArgs) : State :=
  match o.store with
  | 0 => s.modCore o.core fun co => { co with scratchPoison := addKey o.word co.scratchPoison }
  | 1 => s.modCore o.core fun co => { co with acsPoison := addKey o.word co.acsPoison }
  | 2 => s.modSlot o.core (o.word / 12288) fun sl => { sl with vpoison := addKey (o.word % 12288) sl.vpoison }
  | _ => (List.range 8).foldl (fun s k => s.stopTask o.core k fPoison 7 0) s
/-- The partition concerned by an error: that of the core, or for a granule of HBM the one whose range holds it. -/
def Part.concerned (q : Part) (o : EccArgs) : Bool :=
  if o.store = 4 then q.paOk (64 * o.word) else q.coreMask.getLsbD o.core
/-- `ECC_UNCORRECTABLE`: logged for the core's stores, and an event of every function of the partition concerned. -/
def execEccUncorrectable (o : EccArgs) (s : State) : Out :=
  let told (s : State) : State := s.eventParts (fun p => (s.part p).concerned o) 2 o.core
  if o.core ≥ 192 then .next s
  else if o.store = 4 then
    if o.word ≥ 2 ^ 33 then .next s else .next (told { s with memPoison := addKey o.word s.memPoison })
  else if o.store > 4 ∨ o.word ≥ storeWords o.store then .next s
  else
    .next (told ((s.spoil o).modCore o.core fun co => { co with eccLog := eccNote co.eccLog true o.store o.word }))

/-! ### The recovery mailbox (R472) -/

/-- A command runs, and will report a status. -/
def Mgmt.mailRun (m : Mgmt) (stat : Nat) (commit : Bool) : Mgmt := { m with rmBusy := true, rmNext := stat, rmCommitOk := commit }
def execRecoveryErase (s : State) : Out :=
  if !s.mailOpen then .next s
  else .next (s.modMgmt fun m => { m.mailRun 0 false with staged := [], stagedNext := 0, erased := true })
/-- A chunk, with its index in RMIDX; one out of increasing order is not taken. -/
def execRecoveryWriteChunk (o : ChunkWrite) (s : State) : Out :=
  if !s.mailOpen then .next s
  else
    .next (s.modMgmt fun m =>
      if m.erased && decide (m.stagedNext ≤ m.rmIdx) && o.data.length == 4096 then
        { m.mailRun 0 false with staged := m.staged.put m.rmIdx o.data, stagedNext := m.rmIdx + 1 }
      else m.mailRun 2 false)
/-- Verify and commit: the loaded image is verified as the boot ROM does, whatever the event's argument says. -/
def execRecoveryCommit (_ : Bool) (s : State) : Out :=
  if !s.mailOpen then .next s
  else .next (s.modMgmt fun m =>
    if !m.erased || m.stagedNext == 0 then m.mailRun 2 false
    else m.mailRun (if imageOk m.staged then 0 else 1) (imageOk m.staged))
/-- A mailbox command finishes; a verified image is in flash. -/
def execRecoveryCommandDone (s : State) : Out :=
  if !s.mgmt.rmBusy then .next s
  else
    .next (s.modMgmt fun m =>
      let m := { m with rmBusy := false, rmStat := m.rmNext }
      if m.rmCommitOk then { m with flash := some m.staged, rmCommitOk := false, erased := false } else m)

/-! ### Power and temperature (R475, R476), in tenths of a watt and of a degree -/

def tempLimit : Nat := 1050
/-- A throttle step; its change is an event of every function of a partition. -/
def State.setThrottle (s : State) (n : Nat) : State :=
  if n = s.mgmt.throttle then s else (s.modMgmt fun m => { m with throttle := n }).eventParts (fun _ => true) 3 0
/-- `THROTTLE_TICK`, every 100 µs. -/
def execThrottleTick (o : Sensors) (s : State) : Out :=
  let m := s.mgmt
  if !m.broughtUp || decide (s.now < m.lastTick + 100000) then .next s
  else
    let hot := decide (m.powerLimit < o.power ∨ tempLimit < o.temp)
    let cool := decide (100 * o.power < 95 * m.powerLimit ∧ 100 * o.temp < 95 * tempLimit)
    let since := if cool then some (m.coolSince.getD s.now) else none
    let down := m.throttle != 0 && (match since with | some t => decide (t + 10000000 ≤ s.now) | none => false)
    let n := if hot then min 3 (m.throttle + 1) else if down then m.throttle - 1 else m.throttle
    let s := s.modMgmt fun m =>
      { m with
        power := o.power, temp := o.temp, lastTick := s.now
        coolSince := if down then some s.now else since
        hotSince := if n = 3 ∧ tempLimit < o.temp then some (m.hotSince.getD s.now) else none }
    .next (s.setThrottle n)
/-- `THROTTLE_SHUTDOWN`: step 3 has stood for 1 s with the temperature above its limit. -/
def execThrottleShutdown (s : State) : Out :=
  match s.mgmt.hotSince with
  | none => .next s
  | some t =>
    if s.now < t + 1000000000 then .next s
    else
      let s := s.modMgmt fun m => { m with hotSince := some s.now }
      .next (s.cores.foldl (fun s (c, co) => (co.slots.filter fun (_, sl) => sl.task.isSome).foldl (fun s (k, _) =>
        s.stopTask c k 0 7 0) s) s)

/-! ### The management controller (R477) -/

/-- The power limit, at most 2,400 W. -/
def execMgcSetPowerLimit (n : Nat) (s : State) : Out :=
  let v := min n 24000
  if v = s.mgmt.powerLimit then .next s
  else .next ((s.modMgmt fun m => { m with powerLimit := v }).cause 0 3)
def execMgcSetScrub (b : Bool) (s : State) : Out := .next (s.modMgmt fun m => { m with scrub := b })
/-- A reading: power, temperature and throttle step as they stand are delivered. -/
def execMgcReadSensors (s : State) : Out :=
  .next (s.modMgmt fun m => { m with sensorReads := m.sensorReads + 1, sensed := some ⟨m.power, m.temp, m.throttle⟩ })

/-! ### The trust processor (R474): what it answers is a free value (notes/assumptions/4.md) -/

def spdm (o : SpdmReq) (f : Mgmt → Mgmt) (s : State) : Out :=
  .next (s.modMgmt fun m =>
    f { m with spdmCount := m.spdmCount + 1, spdmLast := Config.spdmAnswer Config.identityKey m.spdmCount o.body })
def execGetVersion (o : SpdmReq) (s : State) : Out := spdm o (fun m => { m with spdmAlgos := false }) s
def execGetCapabilities (o : SpdmReq) (s : State) : Out := spdm o id s
/-- ECDSA P-521 with SHA-512: there is no other algorithm. -/
def execNegotiateAlgorithms (o : SpdmReq) (s : State) : Out := spdm o (fun m => { m with spdmAlgos := true }) s
def execGetDigests (o : SpdmReq) (s : State) : Out := spdm o id s
def execGetCertificate (o : SpdmReq) (s : State) : Out := spdm o id s
def execChallenge (o : SpdmReq) (s : State) : Out := spdm o id s
/-- The bytes of the partition configuration blocks. -/
def State.pcfgBytes (s : State) : List Byte :=
  (List.range 20).flatMap fun p => (List.range 8192).flatMap fun i => natLe 8 (s.pcfgRead p (8 * i) % 2 ^ 64)
/-- Digests of the boot ROM, of the firmware image in flash, and of the partition configuration blocks; in recovery mode the
firmware digest is all zeros (R471). -/
def State.measurements (s : State) : List (List Byte) :=
  let image := match s.mgmt.flash with
    | none => Config.factoryImage
    | some cs => (chunkBytes cs).take ((chunkBytes cs).length - 132)
  [Config.sha512 Config.bootRom, if s.mgmt.recov then List.replicate 64 0 else Config.sha512 image, Config.sha512 s.pcfgBytes]
def execGetMeasurements (o : SpdmReq) (s : State) : Out := spdm o (fun m => { m with spdmMeas := s.measurements }) s

end Sys2Proof.Machine
end

