-- ==== Sys2Proof/Machine/Scalar.lean ====
section
/-! DEFINITION. Integer, bit, constant, compare and predicate instructions of the C stream (R165 to R173). -/

namespace Sys2Proof.Machine

/-! ### Integer ALU row (R165) -/

/-- Shift and rotate amounts are s[5:0]. -/
def shAmt (s : Word) : Nat := s.toNat % 64
def opShl (a s : Word) : Word := a <<< shAmt s
def opShr (a s : Word) : Word := a >>> shAmt s
def opSra (a s : Word) : Word := a.sshiftRight (shAmt s)
def opRol (a s : Word) : Word := a.rotateLeft (shAmt s)
def opMin (a s : Word) : Word := if a.slt s then a else s
def opMax (a s : Word) : Word := if a.slt s then s else a
def opMinu (a s : Word) : Word := if a.ult s then a else s
def opMaxu (a s : Word) : Word := if a.ult s then s else a
def opAndn (a s : Word) : Word := a &&& ~~~s
def opOrn (a s : Word) : Word := a ||| ~~~s

def execAdd (o : RRR) : State → Out := rrr (· + ·) o
def execSub (o : RRR) : State → Out := rrr (· - ·) o
def execAnd (o : RRR) : State → Out := rrr (· &&& ·) o
def execOr (o : RRR) : State → Out := rrr (· ||| ·) o
def execXor (o : RRR) : State → Out := rrr (· ^^^ ·) o
def execAndn (o : RRR) : State → Out := rrr opAndn o
def execOrn (o : RRR) : State → Out := rrr opOrn o
def execShl (o : RRR) : State → Out := rrr opShl o
def execShr (o : RRR) : State → Out := rrr opShr o
def execSra (o : RRR) : State → Out := rrr opSra o
def execRol (o : RRR) : State → Out := rrr opRol o
def execMin (o : RRR) : State → Out := rrr opMin o
def execMax (o : RRR) : State → Out := rrr opMax o
def execMinu (o : RRR) : State → Out := rrr opMinu o
def execMaxu (o : RRR) : State → Out := rrr opMaxu o
def execAddImm (o : RRI) : State → Out := rri (· + ·) o
def execSubImm (o : RRI) : State → Out := rri (· - ·) o
def execAndImm (o : RRI) : State → Out := rri (· &&& ·) o
def execOrImm (o : RRI) : State → Out := rri (· ||| ·) o
def execXorImm (o : RRI) : State → Out := rri (· ^^^ ·) o
def execAndnImm (o : RRI) : State → Out := rri opAndn o
def execOrnImm (o : RRI) : State → Out := rri opOrn o
def execShlImm (o : RRI) : State → Out := rri opShl o
def execShrImm (o : RRI) : State → Out := rri opShr o
def execSraImm (o : RRI) : State → Out := rri opSra o
def execRolImm (o : RRI) : State → Out := rri opRol o
def execMinImm (o : RRI) : State → Out := rri opMin o
def execMaxImm (o : RRI) : State → Out := rri opMax o
def execMinuImm (o : RRI) : State → Out := rri opMinu o
def execMaxuImm (o : RRI) : State → Out := rri opMaxu o

/-! ### Multiply and divide row (R166) -/

def minInt64 : Word := 0x8000000000000000
def allOnes64 : Word := 0xFFFFFFFFFFFFFFFF
def opMulh (a s : Word) : Word := BitVec.ofInt 64 (a.toInt * s.toInt / 2 ^ 64)
def opMulhu (a s : Word) : Word := BitVec.ofNat 64 (a.toNat * s.toNat / 2 ^ 64)
/-- The overflowing case of DIV and REM. -/
def divOvf (a s : Word) : Bool := a == minInt64 && s == allOnes64
def opDiv (a s : Word) : Word × Fl :=
  if s = 0 then (allOnes64, flDZ) else if divOvf a s then (minInt64, flOF) else (a.sdiv s, 0)
def opDivu (a s : Word) : Word × Fl := if s = 0 then (allOnes64, flDZ) else (a / s, 0)
def opRem (a s : Word) : Word × Fl :=
  if s = 0 then (a, flDZ) else if divOvf a s then (0, flOF) else (a.srem s, 0)
def opRemu (a s : Word) : Word × Fl := if s = 0 then (a, flDZ) else (a % s, 0)

def execMul (o : RRR) : State → Out := rrr (· * ·) o
def execMulh (o : RRR) : State → Out := rrr opMulh o
def execMulhu (o : RRR) : State → Out := rrr opMulhu o
def execDiv (o : RRR) : State → Out := rrrFl opDiv o
def execDivu (o : RRR) : State → Out := rrrFl opDivu o
def execRem (o : RRR) : State → Out := rrrFl opRem o
def execRemu (o : RRR) : State → Out := rrrFl opRemu o
def execMulImm (o : RRI) : State → Out := rri (· * ·) o
def execMulhImm (o : RRI) : State → Out := rri opMulh o
def execMulhuImm (o : RRI) : State → Out := rri opMulhu o
def execDivImm (o : RRI) : State → Out := rriFl opDiv o
def execDivuImm (o : RRI) : State → Out := rriFl opDivu o
def execRemImm (o : RRI) : State → Out := rriFl opRem o
def execRemuImm (o : RRI) : State → Out := rriFl opRemu o

/-! ### Bit-count row (R167) -/

/-- The bits of a word, lowest first. -/
def wordBits (a : Word) : List Bool := (List.range 64).map a.getLsbD
def bitsWord (l : List Bool) : Nat := l.foldr (fun b n => b2n b + 2 * n) 0
def opClz (a : Word) : Word := BitVec.ofNat 64 ((wordBits a).reverse.takeWhile (!·)).length
def opCtz (a : Word) : Word := BitVec.ofNat 64 ((wordBits a).takeWhile (!·)).length
def opPopc (a : Word) : Word := BitVec.ofNat 64 ((wordBits a).filter id).length
def opBrev (a : Word) : Word := BitVec.ofNat 64 (bitsWord (wordBits a).reverse)

def execClz (o : RR) : State → Out := rr opClz o
def execCtz (o : RR) : State → Out := rr opCtz o
def execPopc (o : RR) : State → Out := rr opPopc o
def execBrev (o : RR) : State → Out := rr opBrev o
def execMov (o : RR) : State → Out := rr id o

/-! ### Field row (R168) -/

/-- X[d] ← f(pos, len, X[a], old X[d]). -/
def fieldOp (f : Nat → Nat → Nat → Nat → Nat) (o : FieldOp) : State → Out :=
  instr o.pr 8 fun s =>
    let v := f o.pos.toNat o.len.toNat (s.me.xr o.a).toNat (s.me.xr o.d).toNat
    .done (s.setX o.d (BitVec.ofNat 64 v))
def execSext (o : FieldOp) : State → Out := fieldOp (fun _ n a _ => wrapN (sextN a n) 64) o
def execZext (o : FieldOp) : State → Out := fieldOp (fun _ n a _ => a % 2 ^ n) o
def execBext (o : FieldOp) : State → Out := fieldOp (fun p n a _ => bitsN a p n) o
def execBins (o : FieldOp) : State → Out := fieldOp (fun p n a d => setBitsN d p n a) o

/-! ### Constants, selection and addresses (R169 to R171) -/

def execLi (o : Li16) : State → Out := instr o.pr 8 fun s => .done (s.setX o.d (o.imm.signExtend 64))
def execLiK96 (o : Li32) : State → Out := instr o.pr 12 fun s => .done (s.setX o.d (o.lit.signExtend 64))
def execLiHi (o : Li32) : State → Out :=
  instr o.pr 12 fun s => .done (s.setX o.d (o.lit.setWidth 64 <<< 32))
/-- Never predicated: p and pn select. -/
def execSel (o : RRR) : State → Out :=
  instrAlways 4 fun s =>
    .done (s.setX o.d (if (s.me.pr o.pr.p ^^ o.pr.pn) then s.me.xr o.a else s.me.xr o.b))
/-- The base is the instruction's own address when a = 0. -/
def leaBase (s : State) (a : Reg) : Word := if a = 0 then s.pc else s.me.xr a
def execLea (o : RRR) : State → Out := instr o.pr 4 fun s => .done (s.setX o.d (leaBase s o.a + s.me.xr o.b))
def execLeaImm (o : RRI) : State → Out :=
  instr o.pr (immLen o.imm) fun s => .done (s.setX o.d (leaBase s o.a + immWord o.imm))

/-! ### Compare row (R172) -/

def cmpR (f : Word → Word → Bool) (o : CmpR) : State → Out :=
  instr o.pr 4 fun s => .done (s.setP o.d (f (s.me.xr o.a) (s.me.xr o.b)))
def cmpI (f : Word → Word → Bool) (o : CmpI) : State → Out :=
  instr o.pr (immLen o.imm) fun s => .done (s.setP o.d (f (s.me.xr o.a) (immWord o.imm)))
def ccEq (a b : Word) : Bool := a == b
def ccNe (a b : Word) : Bool := a != b
def ccLt (a b : Word) : Bool := a.slt b
def ccGe (a b : Word) : Bool := !a.slt b
def ccLtu (a b : Word) : Bool := a.ult b
def ccGeu (a b : Word) : Bool := !a.ult b
def execCmpEq (o : CmpR) : State → Out := cmpR ccEq o
def execCmpNe (o : CmpR) : State → Out := cmpR ccNe o
def execCmpLt (o : CmpR) : State → Out := cmpR ccLt o
def execCmpGe (o : CmpR) : State → Out := cmpR ccGe o
def execCmpLtu (o : CmpR) : State → Out := cmpR ccLtu o
def execCmpGeu (o : CmpR) : State → Out := cmpR ccGeu o
def execCmpEqImm (o : CmpI) : State → Out := cmpI ccEq o
def execCmpNeImm (o : CmpI) : State → Out := cmpI ccNe o
def execCmpLtImm (o : CmpI) : State → Out := cmpI ccLt o
def execCmpGeImm (o : CmpI) : State → Out := cmpI ccGe o
def execCmpLtuImm (o : CmpI) : State → Out := cmpI ccLtu o
def execCmpGeuImm (o : CmpI) : State → Out := cmpI ccGeu o

/-! ### Predicate logic (R173) -/

def pred2 (f : Bool → Bool → Bool) (o : PRRR) : State → Out :=
  instr o.pr 4 fun s => .done (s.setP o.d (f (s.me.pr o.a) (s.me.pr o.b)))
def execPand (o : PRRR) : State → Out := pred2 (· && ·) o
def execPor (o : PRRR) : State → Out := pred2 (· || ·) o
def execPxor (o : PRRR) : State → Out := pred2 (· ^^ ·) o
def execPnot (o : PRR) : State → Out := instr o.pr 4 fun s => .done (s.setP o.d (!s.me.pr o.a))

end Sys2Proof.Machine
end

