-- ==== Sys2Proof/Machine/ScalarFp.lean ====
section
/-! DEFINITION. Scalar floating point (R174 to R182). Operands are the low bits of a register; a result is
written zero-extended; flags go to CFL. -/

namespace Sys2Proof.Machine

/-- X[d] and CFL from two operands. -/
def fp2 (pr : Pred) (d a b : Reg) (f : Nat → Nat → Nat × Fl) : State → Out :=
  instr pr 8 fun s =>
    let r := f (s.me.xr a).toNat (s.me.xr b).toNat
    .done ((s.setX d (BitVec.ofNat 64 r.1)).orFlags r.2)
def fp1 (pr : Pred) (d a : Reg) (f : Nat → Nat × Fl) : State → Out :=
  instr pr 8 fun s =>
    let r := f (s.me.xr a).toNat
    .done ((s.setX d (BitVec.ofNat 64 r.1)).orFlags r.2)

/-! Arithmetic row (R176 to R178) -/

def execFadd (o : FpRRR) : State → Out := fp2 o.pr o.d o.a o.b (fpAdd o.fmt.toNat o.rm.toNat o.ovf)
def execFsub (o : FpRRR) : State → Out := fp2 o.pr o.d o.a o.b (fpSub o.fmt.toNat o.rm.toNat o.ovf)
def execFmul (o : FpRRR) : State → Out := fp2 o.pr o.d o.a o.b (fpMul o.fmt.toNat o.rm.toNat o.ovf)
def execFdiv (o : FpRRR) : State → Out := fp2 o.pr o.d o.a o.b (fpDiv o.fmt.toNat o.rm.toNat o.ovf)
def execFmin (o : FpRRRx) : State → Out := fp2 o.pr o.d o.a o.b (fpMinMax false o.fmt.toNat)
def execFmax (o : FpRRRx) : State → Out := fp2 o.pr o.d o.a o.b (fpMinMax true o.fmt.toNat)
def execFsqrt (o : FpRR) : State → Out := fp1 o.pr o.d o.a (fpSqrt o.fmt.toNat o.rm.toNat o.ovf)

/-- R179. -/
def execFfma (o : FpRRRR) : State → Out :=
  instr o.pr 8 fun s =>
    let v (r : Reg) := fdec o.fmt.toNat 0 (s.me.xr r).toNat
    let r := fpFma o.fmt.toNat o.rm.toNat o.ovf (v o.a) (v o.b) (v o.c)
    .done ((s.setX o.d (BitVec.ofNat 64 r.1)).orFlags r.2)

/-! Compare (R180) -/

def fcmp (cc : Nat) (o : FcmpOp) : State → Out :=
  instr o.pr 8 fun s =>
    let r := fpCmp cc o.fmt.toNat (s.me.xr o.a).toNat (s.me.xr o.b).toNat
    .done ((s.setP o.d r.1).orFlags r.2)
def execFcmpEq (o : FcmpOp) : State → Out := fcmp 0 o
def execFcmpNe (o : FcmpOp) : State → Out := fcmp 1 o
def execFcmpLt (o : FcmpOp) : State → Out := fcmp 2 o
def execFcmpLe (o : FcmpOp) : State → Out := fcmp 3 o
def execFcmpUn (o : FcmpOp) : State → Out := fcmp 4 o

/-! Conversions (R181) -/

def execFcvtFf (o : FcvtFF) : State → Out :=
  fp1 o.pr o.d o.a fun a => fpCvt o.fmt.toNat 0 o.rm.toNat o.ovf (fdec o.g.toNat 0 a)
def execFcvtFi (o : FpRR) : State → Out :=
  fp1 o.pr o.d o.a fun a =>
    fpToInt 64 true (-(2 ^ 63)) (2 ^ 63 - 1) o.rm.toNat o.ovf (fdec o.fmt.toNat 0 a)
def execFcvtFu (o : FpRR) : State → Out :=
  fp1 o.pr o.d o.a fun a => fpToInt 64 false 0 (2 ^ 64 - 1) o.rm.toNat o.ovf (fdec o.fmt.toNat 0 a)
def execFcvtIf (o : FpRR) : State → Out :=
  fp1 o.pr o.d o.a fun a => fpOfInt o.fmt.toNat 0 o.rm.toNat o.ovf (sextN a 64)
def execFcvtUf (o : FpRR) : State → Out :=
  fp1 o.pr o.d o.a fun a => fpOfInt o.fmt.toNat 0 o.rm.toNat o.ovf a

/-! Classes and signs (R182): no flag -/

def execFclass (o : FpRRx) : State → Out := fp1 o.pr o.d o.a fun a => (fpClass o.fmt.toNat a, 0)
def execFsgn (o : FpRRRx) : State → Out :=
  fp2 o.pr o.d o.a o.b fun a b => (fpSetSign o.fmt.toNat a (fpSign o.fmt.toNat b), 0)
def execFsgnN (o : FpRRRx) : State → Out :=
  fp2 o.pr o.d o.a o.b fun a b => (fpSetSign o.fmt.toNat a (!fpSign o.fmt.toNat b), 0)
def execFsgnX (o : FpRRRx) : State → Out :=
  fp2 o.pr o.d o.a o.b fun a b =>
    (fpSetSign o.fmt.toNat a (fpSign o.fmt.toNat a ^^ fpSign o.fmt.toNat b), 0)

end Sys2Proof.Machine
end

