-- ==== Sys2Proof/Machine/Tickets.lean ====
section
/-! DEFINITION. Ticket, currency and generator instructions (R158 to R162). -/

namespace Sys2Proof.Machine

/-- CUR of a function (R152). -/
def Func.cur (f : Func) : Nat := bitsN f.tkdef.toNat 0 8
/-- The task is privileged (R46). -/
def Slot.privileged (sl : Slot) : Bool := bitN sl.priv.toNat 0

/-- A currency that the task may grant in. -/
def mayGrant (s : State) (k : Nat) : Bool :=
  decide (k ≤ 255) && (s.cur? k).valid && (s.me.privileged || s.below (s.fn s.me.t.fn).cur 5 k)
/-- The new ISSUED of k when a holding `old` becomes (k, h); none past the limit. -/
def regrant (s : State) (old : Holding) (k h : Nat) : Option State :=
  let s := s.withdraw old
  if (s.cur? k).issued + h > 0xFFFFFFFF then none
  else some (s.modCur k fun c => { c with issued := c.issued + h })

def execTkset (o : TksetOp) : State → Out :=
  instr o.pr (regLitLen o.amt) fun s =>
    let h := (s.me.regLit o.amt).toNat
    let k := (s.me.xr o.b).toNat
    if h > 0xFFFFFFFF then .trap fBound 0
    else if !mayGrant s k then .trap fCurrency 0
    else
      match regrant s s.me.hold k h with
      | none => .trap fCurrency 0
      | some s => .done (s.modMe fun sl => { sl with hold := ⟨k, h⟩ })
def execTksetT (o : TksetTOp) : State → Out :=
  instr o.pr (regLitLen o.amt) fun s =>
    let h := (s.me.regLit o.amt).toNat
    let k := (s.me.xr o.b).toNat
    let c := s.cur.core
    let a := 64 * s.cur.slot + o.t.toNat
    if h > 0xFFFFFFFF then .trap fBound 0
    else if !mayGrant s k then .trap fCurrency 0
    else if o.t.toNat > 63 then .trap fBound 0
    else if !(s.tileAt c a).valid then .trap fTilestate 0
    else
      match regrant s (s.tileAt c a).hold k h with
      | none => .trap fCurrency 0
      | some s => .done (s.modTile c a fun t => { t with hold := ⟨k, h⟩ })

/-- A currency that the task may read. -/
def mayRead (s : State) (k : Nat) : Bool :=
  decide (k ≤ 255) && (s.cur? k).valid
    && (s.me.privileged || (s.cur? k).owner == s.me.t.part)
def execTkget (o : TkgetOp) : State → Out :=
  instr o.pr (wideLen o.wide) fun s =>
    let c := s.cur.core
    let i := s.cur.slot
    let k := (s.me.xr o.a).toNat
    let put (v : Nat) : Res := .done (s.setX o.d (BitVec.ofNat 64 v))
    match o.sel.toNat with
    | 0 => put (s.me.hold.amt + s.me.hold.cur * 2 ^ 32)
    | 1 => put (s.effective c i .mxe)
    | 2 => put (s.effective c i .vxe)
    | 3 => put (s.effective c i .cpe)
    | 4 => put (s.effective c i .sie)
    | 5 => put (s.base c i)
    | 6 => if mayRead s k then put (s.value k) else .trap fCurrency 0
    | 7 => if mayRead s k then put (s.cur? k).issued else .trap fCurrency 0
    | 8 => put (s.fn s.me.t.fn).cur
    | _ => .trap fIllegal 0

/-! ### Generator -/

/-- `DRSEED`: every state of the core and SYS_SEED. -/
def Core.seedAll (co : Core) (v : BitVec 32) : Core :=
  (List.range 6).foldl (fun co e => co.setGen e (v + BitVec.ofNat 32 e)) { co with seed := v }
def execDrseed (o : DrseedOp) : State → Out :=
  instr o.pr (match o.src with | .sum _ _ => 8 | .lit _ => 12) fun s =>
    let v : BitVec 32 := match o.src with
      | .sum a imm => (s.me.xr a + zext16 imm).setWidth 32
      | .lit v => v
    .done (s.modCore s.cur.core (·.seedAll v))
def execDrnext (o : DrnextOp) : State → Out :=
  instr o.pr (wideLen o.wide) fun s =>
    let x := (s.core s.cur.core).gen o.e.toNat
    .done (s.setX o.d (x ++ step32 x))

/-! ### Currencies -/

/-- FUNDING or RESV of an entry replaced within ISSUED of `top`; none past the limit. -/
def adjust (s : State) (top old new : Nat) : Option State :=
  let v := (s.cur? top).issued - old + new
  if v > 0xFFFFFFFF then none else some (s.modCur top fun c => { c with issued := v })

/-- The checks that `CURSET` and `CURSET.CLR` share. -/
def cursetChk (s : State) (o : CursetOp) (f : Nat) : Chk Unit :=
  let x := (s.me.xr o.b).toNat
  let ow := bitsN x 8 5
  if !s.me.privileged then bad fPriv
  else failIf (decide (x / 2 ^ 13 ≠ 0 ∨ f > 0xFFFFFFFF ∨ o.k = 0) || !(decide (ow ≤ 19) || ow == 31)) fCurrency
def execCurset (o : CursetOp) : State → Out :=
  instr o.pr (regLitLen o.amt) fun s =>
    let f := (s.me.regLit o.amt).toNat
    let x := (s.me.xr o.b).toNat
    let p := bitsN x 0 8
    let ow := bitsN x 8 5
    let k := o.k.toNat
    let e := s.cur? k
    (cursetChk s o f).then fun _ =>
      if e.valid then
        if p ≠ e.parent ∨ ow ≠ e.owner then .trap fCurrency 0
        else
          match adjust s p e.funding f with
          | none => .trap fCurrency 0
          | some s => .done (s.modCur k fun c => { c with funding := f })
      else
        let pe := s.cur? p
        if !pe.valid || pe.depth == 4 then .trap fCurrency 0
        else
          match adjust s p 0 f with
          | none => .trap fCurrency 0
          | some s =>
            .done (s.modCur k fun c =>
              { c with parent := p, owner := ow, funding := f, resv := 0, depth := pe.depth + 1, valid := true })
def execCursetClr (o : CursetOp) : State → Out :=
  instr o.pr (regLitLen o.amt) fun s =>
    let k := o.k.toNat
    let e := s.cur? k
    (cursetChk s o (s.me.regLit o.amt).toNat).then fun _ =>
      if !e.valid || e.issued != 0 then .trap fCurrency 0
      else
        .done ((s.modCur e.parent fun c => { c with issued := c.issued - e.funding }).modCur k fun c =>
          { c with valid := false })
def execCuriss (o : CurissOp) : State → Out :=
  instr o.pr (regLitLen o.amt) fun s =>
    let r := (s.me.regLit o.amt).toNat
    let k := o.k.toNat
    let e := s.cur? k
    if !s.me.privileged then .trap fPriv 0
    else if r > 0xFFFFFFFF || !e.valid then .trap fCurrency 0
    else
      match adjust s k e.resv r with
      | none => .trap fCurrency 0
      | some s => .done (s.modCur k fun c => { c with resv := r })

end Sys2Proof.Machine
end

