-- ==== Sys2Proof/Machine/Dispatch.lean ====
section
/-! DEFINITION. One arm a constructor: the call of that instruction's meaning. -/

namespace Sys2Proof.Machine

def exec (i : Instr) (s : State) : Host.Outcome State Fault Refusal :=
  match i with
  | .add o => Sys2Proof.Machine.execAdd o s
  | .sub o => Sys2Proof.Machine.execSub o s
  | .and o => Sys2Proof.Machine.execAnd o s
  | .or o => Sys2Proof.Machine.execOr o s
  | .xor o => Sys2Proof.Machine.execXor o s
  | .andn o => Sys2Proof.Machine.execAndn o s
  | .orn o => Sys2Proof.Machine.execOrn o s
  | .shl o => Sys2Proof.Machine.execShl o s
  | .shr o => Sys2Proof.Machine.execShr o s
  | .sra o => Sys2Proof.Machine.execSra o s
  | .rol o => Sys2Proof.Machine.execRol o s
  | .min o => Sys2Proof.Machine.execMin o s
  | .max o => Sys2Proof.Machine.execMax o s
  | .minu o => Sys2Proof.Machine.execMinu o s
  | .maxu o => Sys2Proof.Machine.execMaxu o s
  | .addImm o => Sys2Proof.Machine.execAddImm o s
  | .subImm o => Sys2Proof.Machine.execSubImm o s
  | .andImm o => Sys2Proof.Machine.execAndImm o s
  | .orImm o => Sys2Proof.Machine.execOrImm o s
  | .xorImm o => Sys2Proof.Machine.execXorImm o s
  | .andnImm o => Sys2Proof.Machine.execAndnImm o s
  | .ornImm o => Sys2Proof.Machine.execOrnImm o s
  | .shlImm o => Sys2Proof.Machine.execShlImm o s
  | .shrImm o => Sys2Proof.Machine.execShrImm o s
  | .sraImm o => Sys2Proof.Machine.execSraImm o s
  | .rolImm o => Sys2Proof.Machine.execRolImm o s
  | .minImm o => Sys2Proof.Machine.execMinImm o s
  | .maxImm o => Sys2Proof.Machine.execMaxImm o s
  | .minuImm o => Sys2Proof.Machine.execMinuImm o s
  | .maxuImm o => Sys2Proof.Machine.execMaxuImm o s
  | .mul o => Sys2Proof.Machine.execMul o s
  | .mulh o => Sys2Proof.Machine.execMulh o s
  | .mulhu o => Sys2Proof.Machine.execMulhu o s
  | .div o => Sys2Proof.Machine.execDiv o s
  | .divu o => Sys2Proof.Machine.execDivu o s
  | .rem o => Sys2Proof.Machine.execRem o s
  | .remu o => Sys2Proof.Machine.execRemu o s
  | .mulImm o => Sys2Proof.Machine.execMulImm o s
  | .mulhImm o => Sys2Proof.Machine.execMulhImm o s
  | .mulhuImm o => Sys2Proof.Machine.execMulhuImm o s
  | .divImm o => Sys2Proof.Machine.execDivImm o s
  | .divuImm o => Sys2Proof.Machine.execDivuImm o s
  | .remImm o => Sys2Proof.Machine.execRemImm o s
  | .remuImm o => Sys2Proof.Machine.execRemuImm o s
  | .clz o => Sys2Proof.Machine.execClz o s
  | .ctz o => Sys2Proof.Machine.execCtz o s
  | .popc o => Sys2Proof.Machine.execPopc o s
  | .brev o => Sys2Proof.Machine.execBrev o s
  | .mov o => Sys2Proof.Machine.execMov o s
  | .sext o => Sys2Proof.Machine.execSext o s
  | .zext o => Sys2Proof.Machine.execZext o s
  | .bext o => Sys2Proof.Machine.execBext o s
  | .bins o => Sys2Proof.Machine.execBins o s
  | .li o => Sys2Proof.Machine.execLi o s
  | .liK96 o => Sys2Proof.Machine.execLiK96 o s
  | .liHi o => Sys2Proof.Machine.execLiHi o s
  | .sel o => Sys2Proof.Machine.execSel o s
  | .lea o => Sys2Proof.Machine.execLea o s
  | .leaImm o => Sys2Proof.Machine.execLeaImm o s
  | .cmpEq o => Sys2Proof.Machine.execCmpEq o s
  | .cmpNe o => Sys2Proof.Machine.execCmpNe o s
  | .cmpLt o => Sys2Proof.Machine.execCmpLt o s
  | .cmpGe o => Sys2Proof.Machine.execCmpGe o s
  | .cmpLtu o => Sys2Proof.Machine.execCmpLtu o s
  | .cmpGeu o => Sys2Proof.Machine.execCmpGeu o s
  | .cmpEqImm o => Sys2Proof.Machine.execCmpEqImm o s
  | .cmpNeImm o => Sys2Proof.Machine.execCmpNeImm o s
  | .cmpLtImm o => Sys2Proof.Machine.execCmpLtImm o s
  | .cmpGeImm o => Sys2Proof.Machine.execCmpGeImm o s
  | .cmpLtuImm o => Sys2Proof.Machine.execCmpLtuImm o s
  | .cmpGeuImm o => Sys2Proof.Machine.execCmpGeuImm o s
  | .pand o => Sys2Proof.Machine.execPand o s
  | .por o => Sys2Proof.Machine.execPor o s
  | .pxor o => Sys2Proof.Machine.execPxor o s
  | .pnot o => Sys2Proof.Machine.execPnot o s
  | .fadd o => Sys2Proof.Machine.execFadd o s
  | .fsub o => Sys2Proof.Machine.execFsub o s
  | .fmul o => Sys2Proof.Machine.execFmul o s
  | .fdiv o => Sys2Proof.Machine.execFdiv o s
  | .fmin o => Sys2Proof.Machine.execFmin o s
  | .fmax o => Sys2Proof.Machine.execFmax o s
  | .fsqrt o => Sys2Proof.Machine.execFsqrt o s
  | .ffma o => Sys2Proof.Machine.execFfma o s
  | .fcmpEq o => Sys2Proof.Machine.execFcmpEq o s
  | .fcmpNe o => Sys2Proof.Machine.execFcmpNe o s
  | .fcmpLt o => Sys2Proof.Machine.execFcmpLt o s
  | .fcmpLe o => Sys2Proof.Machine.execFcmpLe o s
  | .fcmpUn o => Sys2Proof.Machine.execFcmpUn o s
  | .fcvtFf o => Sys2Proof.Machine.execFcvtFf o s
  | .fcvtFi o => Sys2Proof.Machine.execFcvtFi o s
  | .fcvtFu o => Sys2Proof.Machine.execFcvtFu o s
  | .fcvtIf o => Sys2Proof.Machine.execFcvtIf o s
  | .fcvtUf o => Sys2Proof.Machine.execFcvtUf o s
  | .fclass o => Sys2Proof.Machine.execFclass o s
  | .fsgn o => Sys2Proof.Machine.execFsgn o s
  | .fsgnN o => Sys2Proof.Machine.execFsgnN o s
  | .fsgnX o => Sys2Proof.Machine.execFsgnX o s
  | .bp o => Sys2Proof.Machine.execBp o s
  | .jr o => Sys2Proof.Machine.execJr o s
  | .call o => Sys2Proof.Machine.execCall o s
  | .callr o => Sys2Proof.Machine.execCallr o s
  | .ret o => Sys2Proof.Machine.execRet o s
  | .hloop o => Sys2Proof.Machine.execHloop o s
  | .hloopNp o => Sys2Proof.Machine.execHloopNp o s
  | .ldB o => Sys2Proof.Machine.execLdB o s
  | .ldH o => Sys2Proof.Machine.execLdH o s
  | .ldW o => Sys2Proof.Machine.execLdW o s
  | .ldD o => Sys2Proof.Machine.execLdD o s
  | .ldBu o => Sys2Proof.Machine.execLdBu o s
  | .ldHu o => Sys2Proof.Machine.execLdHu o s
  | .ldWu o => Sys2Proof.Machine.execLdWu o s
  | .stB o => Sys2Proof.Machine.execStB o s
  | .stH o => Sys2Proof.Machine.execStH o s
  | .stW o => Sys2Proof.Machine.execStW o s
  | .stD o => Sys2Proof.Machine.execStD o s
  | .ldxB o => Sys2Proof.Machine.execLdxB o s
  | .ldxH o => Sys2Proof.Machine.execLdxH o s
  | .ldxW o => Sys2Proof.Machine.execLdxW o s
  | .ldxD o => Sys2Proof.Machine.execLdxD o s
  | .stxB o => Sys2Proof.Machine.execStxB o s
  | .stxH o => Sys2Proof.Machine.execStxH o s
  | .stxW o => Sys2Proof.Machine.execStxW o s
  | .stxD o => Sys2Proof.Machine.execStxD o s
  | .amoAdd o => Sys2Proof.Machine.execAmoAdd o s
  | .amoAnd o => Sys2Proof.Machine.execAmoAnd o s
  | .amoOr o => Sys2Proof.Machine.execAmoOr o s
  | .amoXor o => Sys2Proof.Machine.execAmoXor o s
  | .amoMin o => Sys2Proof.Machine.execAmoMin o s
  | .amoMax o => Sys2Proof.Machine.execAmoMax o s
  | .amoMinu o => Sys2Proof.Machine.execAmoMinu o s
  | .amoMaxu o => Sys2Proof.Machine.execAmoMaxu o s
  | .amoXchg o => Sys2Proof.Machine.execAmoXchg o s
  | .cas o => Sys2Proof.Machine.execCas o s
  | .fenceAq o => Sys2Proof.Machine.execFenceAq o s
  | .fenceRl o => Sys2Proof.Machine.execFenceRl o s
  | .fenceAr o => Sys2Proof.Machine.execFenceAr o s
  | .fenceSc o => Sys2Proof.Machine.execFenceSc o s
  | .acq o => Sys2Proof.Machine.execAcq o s
  | .rel o => Sys2Proof.Machine.execRel o s
  | .tryacq o => Sys2Proof.Machine.execTryacq o s
  | .mon o => Sys2Proof.Machine.execMon o s
  | .mwait o => Sys2Proof.Machine.execMwait o s
  | .mwaitWake o => Sys2Proof.Machine.execMwaitWake o s
  | .bar o => Sys2Proof.Machine.execBar o s
  | .mset o => Sys2Proof.Machine.execMset o s
  | .msetG o => Sys2Proof.Machine.execMsetG o s
  | .mgo o => Sys2Proof.Machine.execMgo o s
  | .xpsh o => Sys2Proof.Machine.execXpsh o s
  | .vgo o => Sys2Proof.Machine.execVgo o s
  | .sgo o => Sys2Proof.Machine.execSgo o s
  | .noteC o => Sys2Proof.Machine.execNoteC o s
  | .noteM o => Sys2Proof.Machine.execNoteM o s
  | .noteX o => Sys2Proof.Machine.execNoteX o s
  | .noteS o => Sys2Proof.Machine.execNoteS o s
  | .semr o => Sys2Proof.Machine.execSemr o s
  | .semw o => Sys2Proof.Machine.execSemw o s
  | .gset o => Sys2Proof.Machine.execGset o s
  | .gsetN o => Sys2Proof.Machine.execGsetN o s
  | .gsetX o => Sys2Proof.Machine.execGsetX o s
  | .gsetClr o => Sys2Proof.Machine.execGsetClr o s
  | .tstat o => Sys2Proof.Machine.execTstat o s
  | .tfree o => Sys2Proof.Machine.execTfree o s
  | .tfreeU o => Sys2Proof.Machine.execTfreeU o s
  | .tbind o => Sys2Proof.Machine.execTbind o s
  | .cbdef o => Sys2Proof.Machine.execCbdef o s
  | .cbdefT o => Sys2Proof.Machine.execCbdefT o s
  | .cbadvP o => Sys2Proof.Machine.execCbadvP o s
  | .cbadvC o => Sys2Proof.Machine.execCbadvC o s
  | .cbqry o => Sys2Proof.Machine.execCbqry o s
  | .ckpin o => Sys2Proof.Machine.execCkpin o s
  | .ckpinClr o => Sys2Proof.Machine.execCkpinClr o s
  | .cktkt o => Sys2Proof.Machine.execCktkt o s
  | .pubv o => Sys2Proof.Machine.execPubv o s
  | .seal o => Sys2Proof.Machine.execSeal o s
  | .sealR o => Sys2Proof.Machine.execSealR o s
  | .remoteSealArrival o => Sys2Proof.Machine.execRemoteSealArrival o s
  | .taste o => Sys2Proof.Machine.execTaste o s
  | .tasteR o => Sys2Proof.Machine.execTasteR o s
  | .vnq o => Sys2Proof.Machine.execVnq o s
  | .vnqR o => Sys2Proof.Machine.execVnqR o s
  | .vnqE o => Sys2Proof.Machine.execVnqE o s
  | .setdef o => Sys2Proof.Machine.execSetdef o s
  | .setlw o => Sys2Proof.Machine.execSetlw o s
  | .settlement o => Sys2Proof.Machine.execSettlement o s
  | .skinit o => Sys2Proof.Machine.execSkinit o s
  | .skmrg o => Sys2Proof.Machine.execSkmrg o s
  | .skmrgR o => Sys2Proof.Machine.execSkmrgR o s
  | .skqnt o => Sys2Proof.Machine.execSkqnt o s
  | .skest o => Sys2Proof.Machine.execSkest o s
  | .skestX o => Sys2Proof.Machine.execSkestX o s
  | .sktop o => Sys2Proof.Machine.execSktop o s
  | .sktopC o => Sys2Proof.Machine.execSktopC o s
  | .tkset o => Sys2Proof.Machine.execTkset o s
  | .tksetT o => Sys2Proof.Machine.execTksetT o s
  | .tkget o => Sys2Proof.Machine.execTkget o s
  | .yield o => Sys2Proof.Machine.execYield o s
  | .drseed o => Sys2Proof.Machine.execDrseed o s
  | .drnext o => Sys2Proof.Machine.execDrnext o s
  | .curset o => Sys2Proof.Machine.execCurset o s
  | .cursetClr o => Sys2Proof.Machine.execCursetClr o s
  | .curiss o => Sys2Proof.Machine.execCuriss o s
  | .larm o => Sys2Proof.Machine.execLarm o s
  | .lpatch o => Sys2Proof.Machine.execLpatch o s
  | .lsend o => Sys2Proof.Machine.execLsend o s
  | .lqry o => Sys2Proof.Machine.execLqry o s
  | .chsnd o => Sys2Proof.Machine.execChsnd o s
  | .chrcv o => Sys2Proof.Machine.execChrcv o s
  | .chcapRd o => Sys2Proof.Machine.execChcapRd o s
  | .chcapNar o => Sys2Proof.Machine.execChcapNar o s
  | .chcapClr o => Sys2Proof.Machine.execChcapClr o s
  | .pubh o => Sys2Proof.Machine.execPubh o s
  | .coll o => Sys2Proof.Machine.execColl o s
  | .collAbt o => Sys2Proof.Machine.execCollAbt o s
  | .trap o => Sys2Proof.Machine.execTrap o s
  | .eret o => Sys2Proof.Machine.execEret o s
  | .sysrd o => Sys2Proof.Machine.execSysrd o s
  | .syswr o => Sys2Proof.Machine.execSyswr o s
  | .tfence o => Sys2Proof.Machine.execTfence o s
  | .flags o => Sys2Proof.Machine.execFlags o s
  | .brk o => Sys2Proof.Machine.execBrk o s
  | .halt o => Sys2Proof.Machine.execHalt o s
  | .nop o => Sys2Proof.Machine.execNop o s
  | .wait o => Sys2Proof.Machine.execWait o s
  | .viadd o => Sys2Proof.Machine.execViadd o s
  | .visub o => Sys2Proof.Machine.execVisub o s
  | .vimul o => Sys2Proof.Machine.execVimul o s
  | .vand o => Sys2Proof.Machine.execVand o s
  | .vor o => Sys2Proof.Machine.execVor o s
  | .vxor o => Sys2Proof.Machine.execVxor o s
  | .vshl o => Sys2Proof.Machine.execVshl o s
  | .vshr o => Sys2Proof.Machine.execVshr o s
  | .vsra o => Sys2Proof.Machine.execVsra o s
  | .viaddImm o => Sys2Proof.Machine.execViaddImm o s
  | .visubImm o => Sys2Proof.Machine.execVisubImm o s
  | .vimulImm o => Sys2Proof.Machine.execVimulImm o s
  | .vandImm o => Sys2Proof.Machine.execVandImm o s
  | .vorImm o => Sys2Proof.Machine.execVorImm o s
  | .vxorImm o => Sys2Proof.Machine.execVxorImm o s
  | .vshlImm o => Sys2Proof.Machine.execVshlImm o s
  | .vshrImm o => Sys2Proof.Machine.execVshrImm o s
  | .vsraImm o => Sys2Proof.Machine.execVsraImm o s
  | .vimad o => Sys2Proof.Machine.execVimad o s
  | .vcmpEqF o => Sys2Proof.Machine.execVcmpEqF o s
  | .vcmpNeF o => Sys2Proof.Machine.execVcmpNeF o s
  | .vcmpLtF o => Sys2Proof.Machine.execVcmpLtF o s
  | .vcmpLeF o => Sys2Proof.Machine.execVcmpLeF o s
  | .vcmpUnF o => Sys2Proof.Machine.execVcmpUnF o s
  | .vcmpEq o => Sys2Proof.Machine.execVcmpEq o s
  | .vcmpNe o => Sys2Proof.Machine.execVcmpNe o s
  | .vcmpLt o => Sys2Proof.Machine.execVcmpLt o s
  | .vcmpGe o => Sys2Proof.Machine.execVcmpGe o s
  | .vcmpLtu o => Sys2Proof.Machine.execVcmpLtu o s
  | .vcmpGeu o => Sys2Proof.Machine.execVcmpGeu o s
  | .vsel o => Sys2Proof.Machine.execVsel o s
  | .vmov o => Sys2Proof.Machine.execVmov o s
  | .vbcst o => Sys2Proof.Machine.execVbcst o s
  | .vbcstE o => Sys2Proof.Machine.execVbcstE o s
  | .viota o => Sys2Proof.Machine.execViota o s
  | .vshp o => Sys2Proof.Machine.execVshp o s
  | .vshpK96 o => Sys2Proof.Machine.execVshpK96 o s
  | .vmlogAnd o => Sys2Proof.Machine.execVmlogAnd o s
  | .vmlogOr o => Sys2Proof.Machine.execVmlogOr o s
  | .vmlogXor o => Sys2Proof.Machine.execVmlogXor o s
  | .vmlogAndn o => Sys2Proof.Machine.execVmlogAndn o s
  | .vmlogNot o => Sys2Proof.Machine.execVmlogNot o s
  | .vmlogCnt o => Sys2Proof.Machine.execVmlogCnt o s
  | .vmlogFst o => Sys2Proof.Machine.execVmlogFst o s
  | .vadd o => Sys2Proof.Machine.execVadd o s
  | .vsub o => Sys2Proof.Machine.execVsub o s
  | .vmul o => Sys2Proof.Machine.execVmul o s
  | .vdiv o => Sys2Proof.Machine.execVdiv o s
  | .vmin o => Sys2Proof.Machine.execVmin o s
  | .vmax o => Sys2Proof.Machine.execVmax o s
  | .vsqrt o => Sys2Proof.Machine.execVsqrt o s
  | .vabs o => Sys2Proof.Machine.execVabs o s
  | .vneg o => Sys2Proof.Machine.execVneg o s
  | .vfma o => Sys2Proof.Machine.execVfma o s
  | .vfms o => Sys2Proof.Machine.execVfms o s
  | .vrcp o => Sys2Proof.Machine.execVrcp o s
  | .vrsq o => Sys2Proof.Machine.execVrsq o s
  | .vexp2 o => Sys2Proof.Machine.execVexp2 o s
  | .vlog2 o => Sys2Proof.Machine.execVlog2 o s
  | .vsin o => Sys2Proof.Machine.execVsin o s
  | .vcos o => Sys2Proof.Machine.execVcos o s
  | .vsigm o => Sys2Proof.Machine.execVsigm o s
  | .vtanh o => Sys2Proof.Machine.execVtanh o s
  | .vcvtFf o => Sys2Proof.Machine.execVcvtFf o s
  | .vcvtFpToElem o => Sys2Proof.Machine.execVcvtFpToElem o s
  | .vcvtElemToFp o => Sys2Proof.Machine.execVcvtElemToFp o s
  | .vcvtFpToIntfmt o => Sys2Proof.Machine.execVcvtFpToIntfmt o s
  | .vcvtIntfmtToFp o => Sys2Proof.Machine.execVcvtIntfmtToFp o s
  | .vcvtElemToElem o => Sys2Proof.Machine.execVcvtElemToElem o s
  | .vredsF o => Sys2Proof.Machine.execVredsF o s
  | .vredsSq o => Sys2Proof.Machine.execVredsSq o s
  | .vredsI o => Sys2Proof.Machine.execVredsI o s
  | .vredxMax o => Sys2Proof.Machine.execVredxMax o s
  | .vredxMin o => Sys2Proof.Machine.execVredxMin o s
  | .vredxImax o => Sys2Proof.Machine.execVredxImax o s
  | .vredxImin o => Sys2Proof.Machine.execVredxImin o s
  | .vredxUmax o => Sys2Proof.Machine.execVredxUmax o s
  | .vredxUmin o => Sys2Proof.Machine.execVredxUmin o s
  | .vredxArg o => Sys2Proof.Machine.execVredxArg o s
  | .bV o => Sys2Proof.Machine.execBV o s
  | .hloopV o => Sys2Proof.Machine.execHloopV o s
  | .vld o => Sys2Proof.Machine.execVld o s
  | .vldX o => Sys2Proof.Machine.execVldX o s
  | .vst o => Sys2Proof.Machine.execVst o s
  | .vstX o => Sys2Proof.Machine.execVstX o s
  | .vgath o => Sys2Proof.Machine.execVgath o s
  | .vgathQ o => Sys2Proof.Machine.execVgathQ o s
  | .vscat o => Sys2Proof.Machine.execVscat o s
  | .vacld o => Sys2Proof.Machine.execVacld o s
  | .vacst o => Sys2Proof.Machine.execVacst o s
  | .vcmpr o => Sys2Proof.Machine.execVcmpr o s
  | .vexpd o => Sys2Proof.Machine.execVexpd o s
  | .vslup o => Sys2Proof.Machine.execVslup o s
  | .vsldn o => Sys2Proof.Machine.execVsldn o s
  | .vtrg o => Sys2Proof.Machine.execVtrg o s
  | .vqpsh o => Sys2Proof.Machine.execVqpsh o s
  | .vqpop o => Sys2Proof.Machine.execVqpop o s
  | .vrbal o => Sys2Proof.Machine.execVrbal o s
  | .vrbalClr o => Sys2Proof.Machine.execVrbalClr o s
  | .vskq o => Sys2Proof.Machine.execVskq o s
  | .vskh o => Sys2Proof.Machine.execVskh o s
  | .vskd o => Sys2Proof.Machine.execVskd o s
  | .vclipq o => Sys2Proof.Machine.execVclipq o s
  | .noteV o => Sys2Proof.Machine.execNoteV o s
  | .haltV o => Sys2Proof.Machine.execHaltV o s
  | .flagsV o => Sys2Proof.Machine.execFlagsV o s
  | .tfenceV o => Sys2Proof.Machine.execTfenceV o s
  | .kernelStart o => Sys2Proof.Machine.execKernelStart o s
  | .mma o => Sys2Proof.Machine.execMma o s
  | .mmas o => Sys2Proof.Machine.execMmas o s
  | .mmaStepEnd o => Sys2Proof.Machine.execMmaStepEnd o s
  | .coOperativeGroupForm o => Sys2Proof.Machine.execCoOperativeGroupForm o s
  | .mzero o => Sys2Proof.Machine.execMzero o s
  | .mzeroSet o => Sys2Proof.Machine.execMzeroSet o s
  | .mzeroSetz o => Sys2Proof.Machine.execMzeroSetz o s
  | .mexp o => Sys2Proof.Machine.execMexp o s
  | .mimp o => Sys2Proof.Machine.execMimp o s
  | .mnote o => Sys2Proof.Machine.execMnote o s
  | .xcpyL o => Sys2Proof.Machine.execXcpyL o s
  | .xcpyS o => Sys2Proof.Machine.execXcpyS o s
  | .xcpyT o => Sys2Proof.Machine.execXcpyT o s
  | .xcpyR o => Sys2Proof.Machine.execXcpyR o s
  | .xfil o => Sys2Proof.Machine.execXfil o s
  | .xfilM o => Sys2Proof.Machine.execXfilM o s
  | .xgth o => Sys2Proof.Machine.execXgth o s
  | .xsct o => Sys2Proof.Machine.execXsct o s
  | .xmeta o => Sys2Proof.Machine.execXmeta o s
  | .xmetaT o => Sys2Proof.Machine.execXmetaT o s
  | .xrack o => Sys2Proof.Machine.execXrack o s
  | .xfetch o => Sys2Proof.Machine.execXfetch o s
  | .xpub o => Sys2Proof.Machine.execXpub o s
  | .xpubM o => Sys2Proof.Machine.execXpubM o s
  | .xsend o => Sys2Proof.Machine.execXsend o s
  | .xhost o => Sys2Proof.Machine.execXhost o s
  | .xnote o => Sys2Proof.Machine.execXnote o s
  | .cpeBurstComplete o => Sys2Proof.Machine.execCpeBurstComplete o s
  | .sbmp o => Sys2Proof.Machine.execSbmp o s
  | .srle o => Sys2Proof.Machine.execSrle o s
  | .sidx o => Sys2Proof.Machine.execSidx o s
  | .snote o => Sys2Proof.Machine.execSnote o s
  | .headDecide o => Sys2Proof.Machine.execHeadDecide o s
  | .commandComplete o => Sys2Proof.Machine.execCommandComplete o s
  | .draw o => Sys2Proof.Machine.execDraw o s
  | .quantumExpiry o => Sys2Proof.Machine.execQuantumExpiry o s
  | .trapEntry o => Sys2Proof.Machine.execTrapEntry o s
  | .drainEnd o => Sys2Proof.Machine.execDrainEnd o s
  | .refireRestart o => Sys2Proof.Machine.execRefireRestart o s
  | .taskStop o => Sys2Proof.Machine.execTaskStop o s
  | .taskRetire o => Sys2Proof.Machine.execTaskRetire o s
  | .packetNop o => Sys2Proof.Machine.execPacketNop o s
  | .packetArm o => Sys2Proof.Machine.execPacketArm o s
  | .packetDec o => Sys2Proof.Machine.execPacketDec o s
  | .packetPatch o => Sys2Proof.Machine.execPacketPatch o s
  | .packetPatcharm o => Sys2Proof.Machine.execPacketPatcharm o s
  | .peerPacketArrival o => Sys2Proof.Machine.execPeerPacketArrival o s
  | .qtailWrite o => Sys2Proof.Machine.execQtailWrite o s
  | .qcfgWrite o => Sys2Proof.Machine.execQcfgWrite o s
  | .timeTrigger o => Sys2Proof.Machine.execTimeTrigger o s
  | .gateOpen o => Sys2Proof.Machine.execGateOpen o s
  | .chunkCut o => Sys2Proof.Machine.execChunkCut o s
  | .seatTask o => Sys2Proof.Machine.execSeatTask o s
  | .gangSeat o => Sys2Proof.Machine.execGangSeat o s
  | .taskLaunch o => Sys2Proof.Machine.execTaskLaunch o s
  | .balanceExchange o => Sys2Proof.Machine.execBalanceExchange o s
  | .balanceArrival o => Sys2Proof.Machine.execBalanceArrival o s
  | .rackComplete o => Sys2Proof.Machine.execRackComplete o s
  | .fetchBackComplete o => Sys2Proof.Machine.execFetchBackComplete o s
  | .eccCorrectable o => Sys2Proof.Machine.execEccCorrectable o s
  | .freezeEnd o => Sys2Proof.Machine.execFreezeEnd o s
  | .eccUncorrectable o => Sys2Proof.Machine.execEccUncorrectable o s
  | .collAdd o => Sys2Proof.Machine.execCollAdd o s
  | .collAddw o => Sys2Proof.Machine.execCollAddw o s
  | .collWfwd o => Sys2Proof.Machine.execCollWfwd o s
  | .collMrg o => Sys2Proof.Machine.execCollMrg o s
  | .collCut o => Sys2Proof.Machine.execCollCut o s
  | .collFwd o => Sys2Proof.Machine.execCollFwd o s
  | .collAbortPacket o => Sys2Proof.Machine.execCollAbortPacket o s
  | .collSlotSend o => Sys2Proof.Machine.execCollSlotSend o s
  | .collMemberDone o => Sys2Proof.Machine.execCollMemberDone o s
  | .drrVisit o => Sys2Proof.Machine.execDrrVisit o s
  | .switchOut o => Sys2Proof.Machine.execSwitchOut o s
  | .switchOutComplete o => Sys2Proof.Machine.execSwitchOutComplete o s
  | .switchIn o => Sys2Proof.Machine.execSwitchIn o s
  | .tlbinvWrite o => Sys2Proof.Machine.execTlbinvWrite o s
  | .tlbInvalidationComplete o => Sys2Proof.Machine.execTlbInvalidationComplete o s
  | .dbgHalt o => Sys2Proof.Machine.execDbgHalt o s
  | .dbgHalted o => Sys2Proof.Machine.execDbgHalted o s
  | .dbgResume o => Sys2Proof.Machine.execDbgResume o s
  | .dbgStep o => Sys2Proof.Machine.execDbgStep o s
  | .dbgStepEnd o => Sys2Proof.Machine.execDbgStepEnd o s
  | .dbgDump o => Sys2Proof.Machine.execDbgDump o s
  | .dbgSample o => Sys2Proof.Machine.execDbgSample o s
  | .cntClaim o => Sys2Proof.Machine.execCntClaim o s
  | .cntRelease o => Sys2Proof.Machine.execCntRelease o s
  | .cntClear o => Sys2Proof.Machine.execCntClear o s
  | .traceClaim o => Sys2Proof.Machine.execTraceClaim o s
  | .poolbaseWrite o => Sys2Proof.Machine.execPoolbaseWrite o s
  | .pcfgMaskWrite o => Sys2Proof.Machine.execPcfgMaskWrite o s
  | .registerWrite o => Sys2Proof.Machine.execRegisterWrite o s
  | .recoveryErase => Sys2Proof.Machine.execRecoveryErase s
  | .recoveryWriteChunk o => Sys2Proof.Machine.execRecoveryWriteChunk o s
  | .recoveryCommit o => Sys2Proof.Machine.execRecoveryCommit o s
  | .recoveryCommandDone => Sys2Proof.Machine.execRecoveryCommandDone s
  | .interruptCoalesceTimeout o => Sys2Proof.Machine.execInterruptCoalesceTimeout o s
  | .msixUnmask o => Sys2Proof.Machine.execMsixUnmask o s
  | .bringUp o => Sys2Proof.Machine.execBringUp o s
  | .functionReset o => Sys2Proof.Machine.execFunctionReset o s
  | .throttleTick o => Sys2Proof.Machine.execThrottleTick o s
  | .throttleShutdown => Sys2Proof.Machine.execThrottleShutdown s
  | .mgcSetPowerLimit o => Sys2Proof.Machine.execMgcSetPowerLimit o s
  | .mgcSetScrub o => Sys2Proof.Machine.execMgcSetScrub o s
  | .mgcReadSensors => Sys2Proof.Machine.execMgcReadSensors s
  | .getVersion o => Sys2Proof.Machine.execGetVersion o s
  | .getCapabilities o => Sys2Proof.Machine.execGetCapabilities o s
  | .negotiateAlgorithms o => Sys2Proof.Machine.execNegotiateAlgorithms o s
  | .getDigests o => Sys2Proof.Machine.execGetDigests o s
  | .getCertificate o => Sys2Proof.Machine.execGetCertificate o s
  | .challenge o => Sys2Proof.Machine.execChallenge o s
  | .getMeasurements o => Sys2Proof.Machine.execGetMeasurements o s
  | .hostWindowRead o => Sys2Proof.Machine.execHostWindowRead o s
  | .hostWindowWrite o => Sys2Proof.Machine.execHostWindowWrite o s
  | .atsInvalidation o => Sys2Proof.Machine.execAtsInvalidation o s
  | .waitTargetReached o => Sys2Proof.Machine.execWaitTargetReached o s
  | .setlwDeadline o => Sys2Proof.Machine.execSetlwDeadline o s
  | .chrcvDeadline o => Sys2Proof.Machine.execChrcvDeadline o s

end Sys2Proof.Machine
end

