-- ==== Sys2Proof/Machine/Turn.lean ====
section
/-! DEFINITION. Moves of the machine: the next instruction of a stream, the head of a ring at its engine, an event of an
agenda (notes/assumptions/2.md). -/

namespace Sys2Proof.Machine

/-! ### Commands with their meanings -/

/-- The meaning of the command in a ring. -/
def runM (w : BitVec 128) : Option (State → Out) :=
  match copOf w with
  | 1 => some (execMma (mmaOf w))
  | 2 => some (execMmas (mmaOf w))
  | 3 => (match (ext w 29 2).toNat with
    | 0 => some (execMzero (mzeroOf w))
    | 1 => some (execMzeroSet (mzeroOf w))
    | 2 => some (execMzeroSetz (mzeroOf w))
    | _ => none)
  | 4 => some (execMexp (mxfOf w))
  | 5 => some (execMimp (mxfOf w))
  | 6 => some (execMnote (headOf w))
  | _ => none
def runX (w : BitVec 128) : Option (State → Out) :=
  match copOf w, (ext w 60 3).toNat with
  | 1, 0 => some (execXcpyL (xOf w))
  | 1, 1 => some (execXcpyS (xOf w))
  | 1, 2 => some (execXcpyT (xOf w))
  | 1, 3 => some (execXcpyR (xOf w))
  | 2, 0 => some (execXfil (xOf w))
  | 2, 1 => some (execXfilM (xOf w))
  | 3, 0 => some (execXgth (xOf w))
  | 4, 0 => some (execXsct (xOf w))
  | 5, 0 => some (execXmeta (xOf w))
  | 5, 1 => some (execXmetaT (xOf w))
  | 6, 0 => some (execXrack (xOf w))
  | 7, 0 => some (execXfetch (xOf w))
  | 8, 0 => some (execXpub (xOf w))
  | 8, 1 => some (execXpubM (xOf w))
  | 9, 0 => some (execXsend (xOf w))
  | 10, 0 => some (execXhost (xOf w))
  | 11, 0 => some (execXnote (headOf w))
  | _, _ => none
def runS (w : BitVec 128) : Option (State → Out) :=
  match copOf w with
  | 1 => some (execSbmp (sOf w))
  | 2 => some (execSrle (sOf w))
  | 3 => some (execSidx (sOf w))
  | 4 => some (execSnote (headOfS w))
  | _ => none
def runCmd (r : RingId) (w : BitVec 128) : Option (State → Out) :=
  match r with
  | .m => runM w
  | .x => runX w
  | .s => runS w
  | .k => none

/-! ### The next instruction of a stream -/

/-- `f` on the next state. -/
def Out.map (o : Out) (f : State → State) : Out :=
  match o with
  | .next s => .next (f s)
  | .fault e => .fault e
  | .refused r => .refused r

/-- A C instruction that did not end up waiting counts as issued (R462). -/
def State.noteIssue (c k : Nat) (s : State) : State :=
  if (s.slotAt c k).cs.waiting.isSome then s else s.count c 3 (some k)
/-- The device access of an instruction of the current C stream: its predicate, address, bytes and kind (R189, R372, R382). -/
def State.dataAccess (s : State) (i : Instr) : Option (Pred × Word × Nat × Acc) :=
  let x (r : Reg) : Word := s.me.xr r
  let ld (o : LdOp) (n : Nat) := some (o.pr, x o.a + immWord o.off, n, Acc.rd)
  let st (o : StOp) (n : Nat) := some (o.pr, x o.a + immWord o.off, n, Acc.wr)
  let amo (o : AmoOp) := some (o.pr, x o.a + o.imm.signExtend 64, atomSize o.dbl, Acc.rw)
  match i with
  | .ldB o | .ldBu o => ld o 1
  | .ldH o | .ldHu o => ld o 2
  | .ldW o | .ldWu o => ld o 4
  | .ldD o => ld o 8
  | .stB o => st o 1
  | .stH o => st o 2
  | .stW o => st o 4
  | .stD o => st o 8
  | .amoAdd o | .amoAnd o | .amoOr o | .amoXor o | .amoMin o | .amoMax o | .amoMinu o | .amoMaxu o | .amoXchg o => amo o
  | .cas o => some (o.pr, x o.a, atomSize o.dbl, .rw)
  | .mon o => some (o.pr, x o.a + o.imm.signExtend 64, 1, .rd)
  | .lsend o => if lsendCap (s.me.cap o.c.toNat) then some (o.pr, x o.a, 64, .rd) else none
  | .pubh o => some (o.pr, x o.a + o.imm.signExtend 64, 8, .rw)
  | _ => none
/-- The misses of an instruction's own access, once, where its predicate holds and its address is aligned (R462). -/
def State.dataMisses (s : State) (i : Instr) : State :=
  match s.dataAccess i with
  | some (pr, va, n, a) =>
    if s.me.cs.waiting.isSome || !(s.me.pr pr.p ^^ pr.pn) || va.toNat % n != 0 then s
    else s.misses s.cur.core s.cur.slot a va.toNat n
  | none => s
/-- Fetch, decode and execution of the next word of the current slot's C stream (R50, R51, R163), with what the counters count
of it. -/
def State.cIssue (s : State) : Out :=
  let c := s.cur.core
  let k := s.cur.slot
  let s := s.fetchMisses c k .c
  match s.fetch c k .c with
  | .error (code, eva) => .next (s.trapEntry c k code .c s.pc eva)
  | .ok w =>
    match decodeC w with
    | .error .illegal => .next (s.trapEntry c k fIllegal .c s.pc 0)
    | .error .format => .next (s.trapEntry c k fFormat .c s.pc 0)
    | .ok (i, _) => Out.map (exec i (s.dataMisses i)) (State.noteIssue c k)

/-- A core issues nothing while it is frozen; a slot needs a launched task that is not switched out. -/
def State.slotRuns (s : State) (c k : Nat) : Bool :=
  !(s.core c).frozen && (s.slotAt c k).t.launched && !(s.slotAt c k).out
/-- A debugger steps the stream. -/
def Slot.steps (sl : Slot) (st : Strm) : Bool := sl.dbg.st == .stepping && sl.dbg.stepStrm == strmNo st
/-- The instruction of a step has completed when the stream does not wait. -/
def State.noteStep (c k : Nat) (st : Strm) (s : State) : State :=
  if ((s.slotAt c k).ss st).waiting.isSome then s
  else s.modSlot c k fun sl => { sl with dbg := { sl.dbg with stepDone := true } }
/-- A V instruction that took its stream on, or parked it, counts as completed (R462). -/
def State.noteV (c k : Nat) (old : StreamSt) (s : State) : State :=
  let new := (s.slotAt c k).vs
  let parked := new.waiting == some .kernel && old.waiting != some .kernel
  let on := new.waiting.isNone && (new.pc != old.pc || new.loops != old.loops || new.ended != old.ended)
  if parked || on then s.count c 4 (some k) else s

/-- The C stream of a slot may issue. -/
def State.cpCan (s : State) (c k : Nat) : Bool :=
  let sl := s.slotAt c k
  s.slotRuns c k && !sl.cs.ended && !(sl.steps .c && sl.dbg.stepDone) && !sl.cs.stopped && !sl.cs.canStop
/-- A slot's C stream executes the word at its program counter. -/
def State.cRun (s : State) (c k : Nat) : Out :=
  let step := (s.slotAt c k).steps .c
  Out.map ({ s with cur := ⟨c, k, .c⟩ } : State).cIssue fun t => if step then t.noteStep c k .c else t
def State.setFetched (s : State) (c k : Nat) (b : Bool) : State :=
  if (s.slotAt c k).cs.fetched == b then s else s.modSlot c k fun sl => { sl with cs := { sl.cs with fetched := b } }
/-- The CP of core c has issued for slot k. -/
def State.issuedFor (s : State) (c k : Nat) : State := s.modCore c fun co => { co with issued := true, cpNext := (k + 1) % 8 }
/-- The slots in the order of the CP's round robin. -/
def Core.cpOrder (co : Core) : List Nat := (List.range 8).map fun i => (co.cpNext + i) % 8
/-- The CP issues for the first slot of the list that is ready (R133): its word has been fetched (`x` names the slot whose
word comes now), and its instruction does not wait. The word of an instruction that waits stays fetched, as that of `x` does
when another slot is served. -/
def cpIssue (c : Nat) (x : Option Nat) : List Nat → State → Out
  | [], s => .next s
  | j :: rest, s =>
    if !(((s.slotAt c j).cs.fetched || x == some j) && s.cpCan c j) then cpIssue c x rest s
    else
      match s.cRun c j with
      | .next t =>
        if (t.slotAt c j).cs.waiting.isSome then cpIssue c x rest (t.setFetched c j true)
        else
          let t := t.setFetched c j false
          .next ((match x with | some k => (if k = j then t else t.setFetched c k true) | none => t).issuedFor c j)
      | o => o

/-- The C stream's turn: its drain ends, or its next word arrives, and the CP issues unless it has issued in this cycle. -/
def cTurn (c k : Nat) (s : State) : Out :=
  let s := { s with cur := ⟨c, k, .c⟩ }
  let sl := s.slotAt c k
  if s.cpCan c k then
    if (s.core c).issued then .next (s.setFetched c k true) else cpIssue c (some k) (s.core c).cpOrder s
  else if s.slotRuns c k && !sl.cs.ended && !sl.cs.stopped then execDrainEnd ⟨c, k, .c⟩ s
  else .next s
/-- The V stream's turn: its slot holds the VXE (R134), or a debugger steps it. -/
def vTurn (c k : Nat) (s : State) : Out :=
  let sl := s.slotAt c k
  let s := { s with cur := ⟨c, k, .v⟩ }
  if !s.slotRuns c k || sl.vs.ended || sl.vs.heldAt.isSome || sl.vs.stopped then .next s
  else if sl.vs.canStop then execDrainEnd ⟨c, k, .v⟩ s
  else if sl.steps .v then
    if sl.dbg.stepDone then .next s else Out.map (s.refillV c k).vIssue fun s => (s.noteV c k sl.vs).noteStep c k .v
  else if (s.core c).vxe.holder ≠ some k then .next s
  else Out.map (s.refillV c k).vIssue fun s => s.noteV c k sl.vs
/-- The holder's command in parts: a burst, steps up to a stop point, a granule (R240, R256, R292). -/
def partRun (c k : Nat) (r : RingId) (w : BitVec 128) : Option (State → Out) :=
  match r with
  | .x => some (execCpeBurstComplete ⟨c, k⟩)
  | .s => some (execSieGranule ⟨c, k⟩)
  | .m => if copOf w = 1 ∨ copOf w = 2 then some (execMmaStepEnd ⟨c, k⟩) else none
  | .k => none
/-- A ring's turn: its head completes, runs at the engine that its slot holds (in one piece, or one part of it), or goes on
towards it. -/
def ringTurn (c k : Nat) (r : RingId) (part : Bool) (s : State) : Out :=
  let st := strmOfRing r
  let s := { s with cur := ⟨c, k, st⟩ }
  let sl := s.slotAt c k
  let q := sl.ring r
  if !s.slotRuns c k then .next s
  else if q.head.phase = .finished then execCommandComplete ⟨c, k, r⟩ s
  else if sl.stopping st && s.drained ⟨c, k, st⟩ then execDrainEnd ⟨c, k, st⟩ s
  else if sl.headRuns r then
    match engineOf st, runCmd r (q.headBits r) with
    | some e, some run =>
      if ((s.core c).eng e).holder = some k then
        (if part then (partRun c k r (q.headBits r)).getD run else run) s
      else .next s
    | _, _ => .next s
  else execHeadDecide ⟨c, k, r⟩ s
def streamTurn (c k : Nat) (st : Strm) (s : State) : Out :=
  match st with
  | .c => cTurn c k s
  | .v => vTurn c k s
  | st => ringTurn c k (ringOf st) false s

/-! ### A TLB keeps a translation (R230) -/

/-- A walk for a slot's task on a core (or, from 192, for a die) whose result a TLB keeps; the oldest entry makes room. The
access that made the walk has counted it. -/
def State.tlbFill (s : State) (c k f : Nat) (va : Word) : State :=
  if c < 192 ∧ !((s.slotAt c k).task.isSome && (s.slotAt c k).t.fn == f) then s else
  let cap := if c < 192 then 1024 else 32768
  match (s.partOfFn f).map fun p => s.walk f p va.toNat false levels (s.fn f).ptroot.toNat with
  | some (.ok l) =>
    let base := va.toNat / 2 ^ l.lg * 2 ^ l.lg
    let old := s.tlb.filter fun e => !(e.core == c && e.fn == f && e.va == base)
    let mine := old.filter fun e => e.core == c
    let old := if mine.length < cap then old else (match mine.head? with | some e => old.erase e | none => old)
    { s with tlb := old ++ [⟨c, f, base, l.lg, BitVec.ofNat 64 l.pte⟩] }
  | _ => s

/-- A C stream that runs reads early for a later load (R367; notes/assumptions/8.md). -/
def State.readEarly (s : State) (c k : Nat) (va : Word) : State :=
  let cs := (s.slotAt c k).cs
  if s.slotRuns c k && !cs.ended && !cs.stopped && cs.waiting.isNone then s.earlyRead c k va else s

/-! ### Events of an agenda -/

/-- The rows of the table that are events of an agenda: what the machine does by itself, or the outside does to it. Draws,
the ends of quanta, launches and balance exchanges are no such events: they come with the clock (Machine/Cycle.lean). -/
def isEvent : Instr → Bool
  | .headDecide _ | .commandComplete _ | .trapEntry _ | .drainEnd _
  | .refireRestart _ | .taskStop _ | .taskRetire _ | .packetNop _ | .packetArm _ | .packetDec _
  | .packetPatch _ | .packetPatcharm _ | .peerPacketArrival _ | .qtailWrite _ | .qcfgWrite _ | .timeTrigger _
  | .gateOpen _ | .chunkCut _ | .seatTask _ | .gangSeat _ 
  | .balanceArrival _ | .rackComplete _ | .fetchBackComplete _ | .eccCorrectable _ | .freezeEnd _
  | .eccUncorrectable _ | .collAdd _ | .collAddw _ | .collWfwd _ | .collMrg _ | .collCut _ | .collFwd _
  | .collAbortPacket _ | .collSlotSend _ | .collMemberDone _ | .drrVisit _ | .switchOut _
  | .switchOutComplete _ | .switchIn _ | .tlbinvWrite _ | .tlbInvalidationComplete _ | .dbgHalt _
  | .dbgHalted _ | .dbgResume _ | .dbgStep _ | .dbgStepEnd _ | .dbgDump _ | .dbgSample _ | .cntClaim _
  | .cntRelease _ | .cntClear _ | .traceClaim _ | .poolbaseWrite _ | .pcfgMaskWrite _ | .registerWrite _
  | .recoveryErase | .recoveryWriteChunk _ | .recoveryCommit _ | .recoveryCommandDone
  | .interruptCoalesceTimeout _ | .msixUnmask _ | .bringUp _ | .functionReset _ | .throttleTick _
  | .throttleShutdown | .mgcSetPowerLimit _ | .mgcSetScrub _ | .mgcReadSensors | .getVersion _
  | .getCapabilities _ | .negotiateAlgorithms _ | .getDigests _ | .getCertificate _ | .challenge _
  | .getMeasurements _ | .hostWindowRead _ | .hostWindowWrite _ | .atsInvalidation _ | .waitTargetReached _
  | .setlwDeadline _ | .chrcvDeadline _ | .mmaStepEnd _ | .coOperativeGroupForm _ | .cpeBurstComplete _
  | .mwaitWake _ | .remoteSealArrival _ | .settlement _ | .kernelStart _ => true
  | _ => false

/-- One move. -/
def State.act (s : State) : Act → Out
  | .stream c k st => streamTurn c k st s
  | .event i => if isEvent i then exec i s else .next s
  | .peerTile x => .next (s.peerTile x)
  | .peerMessage m => .next (s.peerMessage m)
  | .tlbFill c k f va => .next (s.tlbFill c k f va)
  | .earlyRead c k va => .next (s.readEarly c k va)
  | .bankWait c r b => .next (s.bankWait c r b)
  | .reset => .next s.moduleReset
  | .idle => .next s

end Sys2Proof.Machine
end

