-- ==== Sys2Proof/Machine/Cycle.lean ====
section
/-! DEFINITION. Core cycles: what comes with the clock, the order that the manual gives the events of one cycle, and the
cycle that passes when no agenda names a move (notes/assumptions/2.md). -/

namespace Sys2Proof.Machine

/-- The state after a move; no move stops the module. -/
def Out.getD (o : Out) (s : State) : State :=
  match o with
  | .next t => t
  | _ => s
/-- A move numbered on its own. -/
def State.also (s : State) (f : State → Out) : State := let t := (f s).getD s; { t with seq := t.seq + 1 }

/-! ### What comes with the clock -/

/-- SYS_TIME units of 1/756 ns in a core cycle of a throttle step (R476; notes/assumptions/6.md). -/
def cycleUnits : Nat → Nat
  | 0 => 280 | 1 => 315 | 2 => 360 | _ => 420
/-- In a freeze quanta and starvation counts stand still (R226). -/
def EngineSt.standStill (x : EngineSt) : EngineSt :=
  { x with quantumStart := x.quantumStart + 1, readySince := x.readySince.map fun (k, t) => (k, t + 1) }
/-- The present cycle of a core has passed: a freeze that is over ends, and the CP may issue again. -/
def Core.pass (co : Core) (now : Nat) : Core :=
  let co := if co.frozen then { co with mxe := co.mxe.standStill, vxe := co.vxe.standStill, cpe := co.cpe.standStill,
                                        sie := co.sie.standStill } else co
  { co with issued := false, frozen := co.frozen && decide (now < co.freezeUntil) }
/-- Events of the die caches that a core counts in this cycle (R227, R462): of an uncached partition (MASK 0) there are none;
evictions and waits that another partition makes count only while the two share ways (DCSH). -/
def State.dieCache (s : State) (c ev : Nat) : Nat :=
  match s.partOfCore c with
  | none => 0
  | some p =>
    if (s.part p).dcWays = 0 then 0
    else
      let foreign := if (ev = 0x13 ∨ ev = 0x14) ∧ s.dcShared p then Config.dieCacheForeign c ev s.cycle else 0
      let n := Config.dieCacheEvents c ev s.cycle + foreign
      if ev = 0x14 then min n 1 else n
/-- The events of a core cycle that the counters count (R462). -/
def State.countCycle (s : State) (c : Nat) : State :=
  let co := s.core c
  let s := s.count c (if co.frozen then 2 else 1) none
  let s := allEngines.foldl (fun s e => match (co.eng e).holder with
    | some k => s.count c (5 + engNo e) (some k)
    | none => s) s
  [0x11, 0x12, 0x13, 0x14].foldl (fun s ev => s.count c ev none (s.dieCache c ev)) s
/-- The clock moves on: SYS_CYCLE and SYS_TIME, freezes, and messages whose hold is over (R226, R469). -/
def State.clock (s : State) : State :=
  let s := s.cores.foldl (fun s (c, _) => s.countCycle c) s
  let s := { s with cycle := s.cycle + 1, time := s.time + cycleUnits s.mgmt.throttle, did := [] }
  { s with
    cores := s.cores.map fun (c, co) => (c, co.pass s.cycle)
    funcs := s.funcs.map fun (f, fn) => (f, { fn with vecs := fn.vecs.map fun (v, x) => (v, x.settle s.now) }) }
/-- What has been under way for as long as its rule allows arrives: an entry in transit (R128), a remote seal (R393). -/
def State.arrivals (s : State) : State :=
  let s := s.parts.foldl (fun s (p, q) => q.transit.foldl (fun s t =>
    if t.since + 512 ≤ s.cycle then s.modPart p (·.arrive t.die) else s) s) s
  s.cores.foldl (fun s (c, co) => co.sealsIn.foldl (fun s (a, t) => if t + 64 ≤ s.cycle then s.landNow c a else s) s) s
/-- The engines of the cores that run tasks, quanta and draws: candidates are the slots ready when the cycle begins, so that
all that became ready in one cycle enter one draw, and a `DRSEED` of the same cycle comes after it (R144, R147, R161). -/
def State.drawAll (s : State) : State :=
  let cs := (s.cores.filter fun (_, co) => co.slots.any fun (_, sl) => sl.task.isSome).map (·.1)
  let s := cs.foldl (fun s c => allEngines.foldl (fun s e => (execQuantumExpiry ⟨c, e⟩ s).getD s) s) s
  cs.foldl (fun s c => allEngines.foldl (fun s e => (execDraw ⟨c, e⟩ s).getD s) s) s.noteReady
/-- A task seated in an earlier cycle starts (R124, R127). -/
def State.launchAll (s : State) : State :=
  s.cores.foldl (fun s (c, co) => co.slots.foldl (fun s (k, sl) =>
    if sl.task.isSome && !sl.t.launched then s.also (execTaskLaunch ⟨c, k⟩) else s) s) s
/-! ### The order of the events of a cycle -/

/-- At most one such event in a cycle. -/
def Order.once : Order → Bool
  | .gate _ | .die _ _ | .bank _ _ _ => true
  | _ => false
/-- The event comes too late in its cycle: one of a later rank has been (R34, R88, R350, R392, R401, R428, R463). -/
def Did.late (d : Did) (done : List Did) : Bool :=
  done.any fun x => x.ord == d.ord && (decide (d.rank < x.rank) || d.ord.once)

/-- Ranks among the operations on a partition's records (R34, R88): completions by record, settlements by group,
instructions by core and slot, packets by function and queue. -/
def qeCompletion (i : Nat) : Nat := i
def qeSettlement (g : Nat) : Nat := 0x10000 + g
def qeInstr (c k : Nat) : Nat := 0x20000 + 8 * c + k
def qePacket (f q : Nat) : Nat := 0x30000 + 8 * f + q
/-- A gate comes after the operations that make its record READY. -/
def qeGate : Nat := 0x40000

/-- What has become of a tile (R211, R392), in the rows' order; `racking`: its cask is being racked. -/
def tileDid (c a : Nat) (racking : Bool) (x y : Tile) : List Did :=
  let pub := decide (x.vint < y.vint)
  let freed := x.valid && (!y.valid || decide (y.vint < x.vint))
  (if freed then [⟨.vintage c a, 0⟩, ⟨.tile c a, 8⟩] else [])
    ++ (if pub then [⟨.vintage c a, 1⟩, ⟨.tile c a, 4⟩] else [])
    ++ (if !x.sealed && y.sealed then [⟨.vintage c a, 2⟩] else [])
    ++ (if !x.spent && y.spent then [⟨.vintage c a, 3⟩] else [])
    ++ (if (x.st == .empty && y.st == .filling) || (!x.sfill && y.sfill) then [⟨.tile c a, 0⟩] else [])
    ++ (if x.readers < y.readers then [⟨.tile c a, 7⟩] else [])
    ++ (if y.readers < x.readers then [⟨.tile c a, 9⟩] else [])
    ++ (if x.st == .ready && y.st == .draining then [⟨.tile c a, if racking then 10 else 8⟩] else [])
    ++ (if !x.racked && y.racked then [⟨.tile c a, 10⟩] else [])
    ++ (if x.racked && (!y.racked || y.st != x.st) then [⟨.tile c a, 11⟩] else [])
/-- A slot's task is seated, gone: a slot that becomes free is so from the next cycle (R118). -/
def slotDid (c k : Nat) (x y : Slot) : List Did :=
  (if x.task.isNone && y.task.isSome then [⟨.slot c k, 1⟩] else [])
    ++ (if x.task.isSome && y.task.isNone then [⟨.slot c k, 2⟩] else [])
/-- What a move did to a core's tiles, slots and residency generator. -/
def coreDid (s t : State) : List Did :=
  t.cores.flatMap fun (c, co) =>
    let old := s.core c
    (if old.ttb = co.ttb then [] else co.ttb.flatMap fun (a, y) =>
      tileDid c a ((co.cask (caskOf a y)).copy == .racking) (Sparse.get Tile.reset old.ttb a) y)
      ++ co.slots.flatMap (fun (k, y) => slotDid c k (old.slot k) y)
      ++ (if old.gen 4 = co.gen 4 then [] else [⟨.gen c, 0⟩])
/-- Gangs held on die index j (R127). -/
def Part.held (q : Part) (j : Nat) : Nat := (q.gangs.filter fun h => h.die == j).length
/-- What a move did to a partition: records that completed, groups that settled, gates that opened, entries seated. -/
def partDid (s t : State) : List Did :=
  t.parts.flatMap fun (p, q) =>
    let old := s.part p
    (q.recs.filter fun (i, r) => (s.lrec p i).gen != r.gen).map (fun (i, _) => (⟨.qe p, qeCompletion i⟩ : Did))
      ++ (q.settle.filter fun (g, x) => x.latch && !(old.settleAt g).latch).map (fun (g, _) => ⟨.qe p, qeSettlement g⟩)
      ++ (if old.gates < q.gates then [⟨.gate p, 0⟩, ⟨.qe p, qeGate⟩] else [])
      ++ ((List.range q.dies.length).filter fun j =>
        decide ((q.queue j).length < (old.queue j).length) || decide (q.held j < old.held j)).map (fun j => ⟨.die p j, 0⟩)
/-- A fault of stream st of a slot was taken or held by the move. -/
def faultDid (s t : State) (c k : Nat) (st : Strm) : List Did :=
  let x := s.slotAt c k
  let y := t.slotAt c k
  let held (sl : Slot) : Bool :=
    match st with
    | .c => false
    | .v => sl.vs.heldAt.isSome
    | st => (sl.ring (ringOf st)).head.held.isSome
  if (held y && !held x) || (y.hm && !x.hm) || (y.t.stopping.isSome && x.t.stopping.isNone) then [⟨.fault c k, strmNo st⟩] else []
/-- The tile that an operand of a slot comes to now. -/
def opDid (s : State) (c k rank : Nat) (o : Operand) : List Did :=
  match s.place c k o.top o.wr with
  | .tile c a => [⟨.vintage c a, rank⟩]
  | .wait _ => []
/-- The tile of a capability register comes to an event of a rank. -/
def capDid (s : State) (c k : Nat) (r : Reg) (rank : Nat) : List Did :=
  let e := (s.slotAt c k).cap r.toNat
  if capObj e < 512 then [⟨.vintage (capCore e) (capObj e), rank⟩] else []
/-- What the C instruction that slot k is about to execute does, in the orders of a cycle. -/
def cDid (s : State) (c k : Nat) : List Did :=
  let p := (s.slotAt c k).t.part
  let own (t : BitVec 6) (rank : Nat) : List Did := [⟨.vintage c (64 * k + t.toNat), rank⟩]
  let smu : List Did := [⟨.smu c, 2 * k⟩]
  ⟨.fault c k, 0⟩ ::
    (match s.fetch c k .c with
    | .error _ => []
    | .ok w =>
      match decodeC w with
      | .ok (.larm _, _) | .ok (.lpatch _, _) | .ok (.lqry _, _) => [⟨.qe p, qeInstr c k⟩]
      | .ok (.drseed _, _) => [⟨.gen c, 1⟩]
      | .ok (.pubv o, _) => own o.t 1
      | .ok (.seal o, _) => own o.t 2
      | .ok (.sealR o, _) => capDid s c k o.c 2
      | .ok (.taste o, _) => own o.t 4
      | .ok (.tasteR o, _) => capDid s c k o.c 4
      | .ok (.skinit o, _) => smu ++ opDid s c k 1 ⟨o.top, true⟩
      | .ok (.skmrg _, _) | .ok (.skmrgR _, _) | .ok (.skqnt _, _) | .ok (.skest _, _) | .ok (.skestX _, _)
      | .ok (.sktop _, _) | .ok (.sktopC _, _) => smu
      | _ => [])
/-- What a head that is about to complete publishes. -/
def headDid (s : State) (c k : Nat) (r : RingId) : List Did :=
  let h := s.headAt c k r
  if h.phase != .finished then []
  else match h.dst with
    | some d => [⟨.vintage d.core d.abs, 1⟩]
    | none => []
/-- What the move of a stream does: the slot for which the CP issued, a V-stream store or summary, a head. -/
def streamDid (c k : Nat) (st : Strm) (s t : State) : List Did :=
  match st with
  | .c =>
    if (t.core c).issued && !(s.core c).issued then cDid s c (((t.core c).cpNext + 7) % 8) else []
  | .v =>
    let smu : List Did := match s.fieldsAt c k .v with
      | some f => if f.op = 0x60 ∨ f.op = 0x61 then [⟨.smu c, 2 * k + 1⟩] else []
      | none => []
    faultDid s t c k .v ++ smu ++ ((s.vTops c k).filter (·.wr)).flatMap (opDid s c k 1)
  | st => faultDid s t c k st ++ headDid s c k (ringOf st)
/-- The claim of a counter bank that a register write settles (R463). -/
def claimDid (s : State) (f : Nat) : List Did := let (c, b) := s.cntSel f; [⟨.counter c b, f⟩]
/-- The claim of trace units that a write of TRCFG has settled: of the partition whose units it names. -/
def trClaimDid (t : State) (f : Nat) : List Did := ((t.trPart f).map fun p => Did.mk (.traceUnits p) f).toList
/-- What an event of an agenda does beyond what shows in the state. -/
def eventDid (i : Instr) (s t : State) : List Did :=
  let packet (o : QueueRef) : List Did :=
    if s.queueReady o.fn o.q then ((s.partOfFn o.fn).map fun p => Did.mk (.qe p) (qePacket o.fn o.q)).toList else []
  match i with
  | .commandComplete o => headDid s o.core o.slot o.ring
  | .headDecide o => faultDid s t o.core o.slot (strmOfRing o.ring)
  | .cpeBurstComplete o => faultDid s t o.core o.slot .x
  | .mmaStepEnd o => faultDid s t o.core o.slot .m
  | .remoteSealArrival o => [⟨.vintage o.core o.abs, 2⟩]
  | .packetNop o | .packetArm o | .packetDec o | .packetPatch o | .packetPatcharm o => packet o
  | .cntClear f | .cntRelease f => claimDid s f
  | .cntClaim o | .registerWrite o => claimDid s o.fn
  | .traceClaim o => trClaimDid t o.fn
  | _ => []

/-! ### Moves in their cycle -/

/-- A move, and what it does in the orders of a cycle beyond what shows in the state. -/
structure Move where
  run : State → Out
  did : State → State → List Did
/-- The move of an agenda. -/
def Act.move (a : Act) : Move :=
  ⟨fun s => s.act a, match a with
    | .stream c k st => streamDid c k st
    | .event i => eventDid i
    | .bankWait c r b => fun _ _ => [⟨.bank c r b, 0⟩]
    | _ => fun _ _ => []⟩
/-- A move is over. -/
def State.after (s : State) : State := { s with seq := s.seq + 1 }
/-- The events of a move are noted. -/
def State.note (s : State) (l : List Did) : State := { s with did := l ++ s.did }
/-- The move in the present cycle; none when it comes too late in it. -/
def Move.now (m : Move) (s : State) : Option Out :=
  match m.run s with
  | .next t =>
    let l := m.did s t ++ coreDid s t ++ partDid s t
    if l.any fun d => d.late s.did then none else some (.next (t.note l).after)
  | o => some o
/-- The cores whose CP has a fetched word and has not issued in this cycle. -/
def State.idleCps (s : State) : List Nat :=
  (s.cores.filter fun (_, co) => !co.issued && co.slots.any fun (_, sl) => sl.cs.fetched).map (·.1)
/-- The CP of a core issues one of the words that were fetched before (R133). -/
def issueMove (c : Nat) : Move := ⟨fun s => cpIssue c none (s.core c).cpOrder s, streamDid c 0 .c⟩
/-- The CPs of the cores issue. Answers the cores whose instruction comes too late in the cycle, too. -/
def State.issueFetched (s : State) : List Nat → State × List Nat
  | [] => (s, [])
  | c :: t =>
    match (issueMove c).now s with
    | none => let r := s.issueFetched t; (r.1, c :: r.2)
    | some o => (o.getD s).issueFetched t
/-- A core cycle ends: the CPs that still can issue do, and the lending cycles that have formed are reported (R156). The next
one begins, in which the CPs that came too late issue first. -/
def State.nextCycle (s : State) : State :=
  let (s, late) := s.issueFetched s.idleCps
  let s := (s.parts.foldl (fun s (p, _) => s.lendCycles p) s).flushTrace.clock
  let s := (s.funcs.filter fun (_, fn) => fn.sw == .goingIn).foldl (fun s (f, _) => s.endSwitchIn f) s
  let s := s.arrivals
  let s := s.parts.foldl (fun s (p, _) => (execBalanceExchange p s).getD s) s
  (s.launchAll.drawAll.issueFetched late).1
/-- n core cycles pass. -/
def State.tick (s : State) : Nat → State
  | 0 => s
  | n + 1 => s.nextCycle.tick n

/-- The move in this cycle, or, when it comes too late in it, in the first later one in which it is in time. A cycle begins
with what comes with its clock alone, so that the second of them is such a cycle at the latest unless the CPs' instructions of
its beginning come before it again; n bounds the tries. -/
def Move.within (m : Move) : Nat → State → Out
  | 0, s => (m.run s).map State.after
  | n + 1, s =>
    match m.now s with
    | some o => o
    | none => m.within n (s.tick 1)
def Move.make (m : Move) (s : State) : Out := m.within 64 s

/-! ### The cycle without an agenda -/

def stepMove (f : State → Out) : Move := ⟨f, fun _ _ => []⟩
/-- A co-operative group with slot k of core c as its first member, when every member's head is there (R296). -/
def groupMove (c k : Nat) (s : State) : Out :=
  let sl := s.slotAt c k
  let m := mmaRegs sl (sl.mring.headBits .m)
  let want := (groupCores c m.coopN).map fun x => (groupSlot s x sl.t.part m.coopN m.c.ctag.toNat).map fun k => SlotId.mk x k
  if sl.mring.len = 0 ∨ !sl.coop ∨ want.any (·.isNone) then .next s
  else execCoOperativeGroupForm ⟨want.filterMap id⟩ s
/-- The ends of a slot's task, its drains and its debugger's commands. -/
def endMoves (c k : Nat) : List Move :=
  let o : SlotId := ⟨c, k⟩
  ([Strm.c, .v, .m, .x, .s].map fun st => stepMove (execDrainEnd ⟨c, k, st⟩))
    ++ [execRefireRestart o, execTaskStop o, execTaskRetire o, execDbgHalted o, execDbgStepEnd o].map stepMove
/-- What a slot's streams and heads do in a cycle. -/
def slotMoves (c k : Nat) : List Move :=
  [⟨cTurn c k, streamDid c k .c⟩, stepMove (execHeadDecide ⟨c, k, .k⟩),
    ⟨vTurn c k, streamDid c k .v⟩]
    ++ ([RingId.m, .x, .s].map fun r => ⟨ringTurn c k r true, streamDid c k (strmOfRing r)⟩) ++ [stepMove (groupMove c k)]
def Core.seated (co : Core) : List Nat := (co.slots.filter fun (_, sl) => sl.task.isSome).map (·.1)
def coreMoves (c : Nat) (co : Core) : List Move :=
  co.seated.flatMap (slotMoves c)
    ++ co.casks.flatMap (fun (k, _) => [stepMove (execRackComplete ⟨c, k⟩), stepMove (execFetchBackComplete ⟨c, k⟩)])
    ++ co.sealsIn.map (fun (a, _) => stepMove (execRemoteSealArrival ⟨c, a⟩))
def partMoves (p : Nat) (q : Part) : List Move :=
  let l : List (State → Out) := q.recs.map (fun (i, _) => execTimeTrigger ⟨p, i⟩) ++ [execGateOpen p]
    ++ (List.range q.dies.length).flatMap (fun j =>
      [execChunkCut ⟨p, j⟩, execBalanceArrival ⟨p, j⟩, execGangSeat ⟨p, j⟩, execSeatTask ⟨p, j⟩])
  l.map stepMove
/-- The next packet of a queue, of whichever kind. -/
def queueMoves (f q : Nat) : List Move :=
  ([execPacketNop ⟨f, q⟩, execPacketArm ⟨f, q⟩, execPacketDec ⟨f, q⟩, execPacketPatch ⟨f, q⟩, execPacketPatcharm ⟨f, q⟩] :
    List (State → Out)).map fun m => ⟨m, fun s _ =>
      if s.queueReady f q then ((s.partOfFn f).map fun p => Did.mk (.qe p) (qePacket f q)).toList else []⟩
def funcMoves (f : Nat) (fn : Func) : List Move :=
  let l : List (State → Out) := (if fn.flr then [execFunctionReset f] else [])
    ++ [execSwitchOutComplete f, execTlbInvalidationComplete f]
    ++ fn.colls.flatMap (fun c => [execCollSlotSend ⟨f, c.cid⟩, execCollMemberDone ⟨f, c.cid⟩])
    ++ fn.ports.map (fun (k, _) => execDrrVisit ⟨k, f⟩)
  l.map stepMove
/-- Everything that the machine may do by itself in a cycle: the operations on records in the order of R88. -/
def State.moves (s : State) : List Move :=
  stepMove (execBringUp ⟨0, 0⟩) :: s.cores.flatMap (fun (c, co) => co.seated.flatMap (endMoves c))
    ++ s.parts.flatMap (fun (p, q) => q.settle.map fun (g, _) => stepMove (execSettlement ⟨p, g⟩))
    ++ s.cores.flatMap (fun (c, co) => coreMoves c co)
    ++ s.funcs.flatMap (fun (f, fn) => fn.queues.flatMap fun (q, _) => queueMoves f q)
    ++ s.parts.flatMap (fun (p, q) => partMoves p q) ++ s.funcs.flatMap (fun (f, fn) => funcMoves f fn)
    ++ [stepMove execRecoveryCommandDone, stepMove execThrottleShutdown]
/-- Every move that is in time is made. -/
def makeAll : List Move → State → Out
  | [], s => .next s
  | m :: rest, s =>
    match m.now s with
    | none => makeAll rest s
    | some (.next t) => makeAll rest t
    | some o => o
/-- One core cycle of the whole machine. -/
def State.wholeCycle (s : State) : Out := (makeAll s.moves s).map fun t => { t with cur := s.cur }

end Sys2Proof.Machine
end

