-- ==== Sys2Proof/Machine/Step.lean ====
section
/-! DEFINITION. One step of the module: cycles pass and the move that the agenda names is made; without an agenda, one core
cycle in which the whole machine moves (notes/assumptions/2.md). -/

namespace Sys2Proof.Machine

/-- One step: the next turn of the agenda, or a core cycle in which everything moves that can. -/
def step (s : State) : Out :=
  match s.agenda with
  | t :: rest => t.act.move.make (({ s with agenda := rest } : State).tick t.cycles)
  | [] => (s.tick 1).wholeCycle

/-- Two page-table levels at 1 GiB and above map the first GiB of device virtual memory to the first GiB of HBM, readable,
writable and executable. -/
def Mem.firstGiB (m : Mem) : Mem := (m.setNat 0x40000000 8 0x40010001).setNat 0x40010000 8 0x1F

/-- s with the instruction of `nbits` bits `w` where the next step fetches: core 0, slot 0 holds a launched task of
function 0 whose C stream (the V stream, if the C stream's map does not hold the word) stands at address 0, where the
word lies, and the next move is that stream's (notes/assumptions/17.md). -/
def State.withFetchWord (s : State) (nbits w : Nat) : State :=
  let bits := BitVec.ofNat 96 (w % 2 ^ nbits)
  let inC := match decodeC bits with | .ok _ => true | .error _ => false
  let run (ss : StreamSt) : StreamSt :=
    { ss with pc := 0, ended := false, stopped := false, stopReq := none, waiting := none, heldAt := none, loops := [], atStop := false,
              fetched := false }
  let task : Task := { noTask with launched := true, mates := [⟨0, 0⟩] }
  let sl := s.slotAt 0 0
  let sl := { sl with task := some task, out := false, dbg := { sl.dbg with st := .running } }
  let sl := if inC then { sl with cs := run sl.cs } else { sl with vs := run sl.vs }
  let s := s.modCore 0 fun co =>
    let co := { co.putSlot 0 sl with frozen := false, issued := false, cpNext := 0 }
    if inC then co else { co with vxe := co.vxe.start 0 s.cycle }
  let s := s.modFn 0 fun fn => { fn with ptroot := 0x40000000 }
  let s := s.modPart 0 fun p => { p with hbm := Sparse.put p.hbm 0 (0x8000 * 2 ^ 64) }
  { s with
    mem := s.mem.firstGiB.write 0 (natLe 16 bits.toNat)
    memPoison := s.memPoison.filter fun i => !([0, 16777216, 16778240] : List Nat).contains i
    tlb := []
    did := []
    agenda := [⟨0, .stream 0 0 (if inC then .c else .v)⟩] }

end Sys2Proof.Machine
end

