-- ==== Sys2Proof/Safety.lean ====
section
/-! DEFINITION. What counts as a safe state and a safe run, and the conditions in which the claims are stated. -/

namespace Sys2Proof.Machine

/-- The stores of the state in their canonical form: physical memory, and each core's scratchpad and accumulator store. -/
def State.storesWf (s : State) : Bool :=
  s.mem.wf && s.cores.all fun (_, co) => co.scratch.wf && co.acs.wf

/-- The lists of a slot from which its vector registers, masks, conditional streams and general registers read are in their
canonical form. -/
def Slot.filesWf (sl : Slot) : Bool :=
  Sparse.wfFrom (0 : Word) 0 sl.x && Sparse.wfFrom (0 : VWord) 0 sl.v && Sparse.wfFrom (0 : MWord) 0 sl.m
    && Sparse.wfFrom CondQueue.reset 0 sl.q
/-- Those of every slot, and the port queues and deficits of every function, are. -/
def State.filesWf (s : State) : Bool :=
  (s.cores.all fun (_, co) => co.slots.all fun (_, sl) => sl.filesWf)
    && s.funcs.all fun (_, fn) => Sparse.wfFrom [] 0 fn.ports && Sparse.wfFrom 0 0 fn.deficit

/-- A step ends in a next state: neither a fault nor a refusal. -/
def Out.isNext : Out → Bool
  | .next _ => true
  | .fault _ => false
  | .refused _ => false

/-- n steps from s all end in next states. -/
def SafeRun (n : Nat) (s : State) : Prop := Out.isNext (Sys2Proof.core.run n s) = true

/-- t is s but for the model's own record of what the host may see of device writes, for the translations that the address
translation cache keeps, and for early reads that are given up (notes/assumptions/8.md and 16.md). -/
def OnlyKnown (s t : State) : Prop :=
  ∃ h p a e, (∀ x ∈ e, x ∈ s.early) ∧ t = { s with hidden := h, places := p, atc := a, early := e }
/-- The operand `top` of the current instruction names tile a of core c: it resolves to it now, or did when the instruction
began to wait (R213). -/
def State.names (s : State) (top : BitVec 12) (wr : Bool) (c a : Nat) : Prop :=
  let r := s.resolvedAt (top.toNat + 4096 * b2n wr)
  r = some (c, a) ∨ (r = none ∧ topCheck s.me top wr = .ok () ∧ s.place s.cur.core s.cur.slot top wr = .tile c a)
/-- The instruction waits, with the operand that it has resolved through a circular buffer. -/
def State.parks (s : State) (top : BitVec 12) (wr : Bool) (c a : Nat) (w : WaitFor) : Res :=
  let key := top.toNat + 4096 * b2n wr
  if (s.resolvedAt key).isSome || top.getLsbD 11 then (Res.wait s w).keep key c a else .wait s w
/-- The current instruction is a C stream's and its predicate holds, so it executes (R55). -/
def State.cRuns (s : State) (pr : Pred) : Prop := s.cur.strm = .c ∧ (s.me.pr pr.p ^^ pr.pn) = true
/-- Its predicate does not hold. -/
def State.cSkips (s : State) (pr : Pred) : Prop := s.cur.strm = .c ∧ (s.me.pr pr.p ^^ pr.pn) = false
/-- The current instruction is a V stream's, which is neither ended, stopped nor held. -/
def State.vRuns (s : State) : Prop :=
  s.cur.strm = .v ∧ s.me.vs.ended = false ∧ s.me.vs.stopped = false ∧ s.me.vs.heldAt = none

/-- V[d] takes f's values in the active elements and keeps the others, and the flags of the active elements are raised
(R55, R304). -/
def State.vLanes (s : State) (pr : Pred) (d : Reg) (f : Nat → Nat × Fl) : State :=
  let sl := s.me
  let rs := (List.range sl.n).map fun i =>
    if sl.active pr i then f i else (vElem (sl.vr d.toNat).toNat sl.eb i, 0)
  (s.modMe fun sl => sl.putElems d.toNat sl.eb (rs.map (·.1)) (sl.active pr)).orFlags (orFl (rs.map (·.2)))
/-- V[d] takes f's values in the active elements and keeps the others. -/
def State.vPut (s : State) (pr : Pred) (d : Reg) (f : Nat → Nat) : State :=
  s.modMe fun sl => sl.putElems d.toNat sl.eb ((List.range sl.n).map fun i =>
    if sl.active pr i then f i else vElem (sl.vr d.toNat).toNat sl.eb i) (sl.active pr)
/-- The active elements of V[b] go to the scratchpad of core c at `base + adr i`, the highest element number last; a word written
whole loses its poison (R226, R323). -/
def State.vScatter (s : State) (pr : Pred) (b : Reg) (c base : Nat) (adr : Nat → Nat) : State :=
  let sl := s.me
  ((List.range sl.n).foldl (fun s i =>
    if sl.active pr i then s.spWrite c (base + adr i) (natLe sl.eb (vElem (sl.vr b.toNat).toNat sl.eb i)) else s) s).modCore c
      fun co => co.clearWhole sl.eb (((List.range sl.n).filter (sl.active pr)).map fun i => base + adr i)
/-- M[d] takes f's bits in the active elements and keeps the others; the bits above are 0 (R310). -/
def State.vMask (s : State) (pr : Pred) (d : PReg) (f : Nat → Bool × Fl) : State :=
  let sl := s.me
  let rs := (List.range sl.n).map fun i => if sl.active pr i then f i else ((sl.mr d.toNat).getLsbD i, 0)
  (s.modMe fun sl => sl.putMask d.toNat (rs.map (·.1))).orFlags (orFl (rs.map (·.2)))
/-- Element i of V[r], as wide as VSHAPE says. -/
def State.lane (s : State) (r : Reg) (i : Nat) : BitVec (8 * s.me.eb) :=
  BitVec.ofNat (8 * s.me.eb) (vElem (s.me.vr r.toNat).toNat s.me.eb i)
/-- Active elements of V[a] from `lo` on, `m` elements at most. -/
def State.takingPart (s : State) (pr : Pred) (a : Reg) (lo m : Nat) : List Nat :=
  ((rangeFrom lo m).filter (s.me.active pr)).map (vElem (s.me.vr a.toNat).toNat s.me.eb)
/-- Element 0 of V[d] takes f of the active elements of V[a], or elements 0, 1, … take f of each row's (R321). -/
def State.vReduce (s : State) (pr : Pred) (row : Bool) (d a : Reg) (f : List Nat → Nat × Fl) : State :=
  let cols := vCols s.me.vshape
  let rs := if row then (List.range (vRows s.me.vshape)).map fun r => f (s.takingPart pr a (r * cols) cols)
    else [f (s.takingPart pr a 0 s.me.n)]
  (s.modMe fun sl => sl.putElems d.toNat sl.eb (rs.map (·.1)) fun _ => true).orFlags (orFl (rs.map (·.2)))
/-- No active element of V[r] lies in a poisoned word (R226). -/
def State.vClean (s : State) (pr : Pred) (r : Reg) : Prop :=
  s.me.readsPoison r.toNat s.me.eb s.me.n (s.me.active pr) = false

/-- The conditions in which a command is pushed at once (R136, R192): its ring is present and open, it is no forward wait, the
pushed count of its semaphore does not wrap, and the ring has room. -/
def Pushable (s : State) (r : RingId) (w : BitVec 128) : Prop :=
  (s.me.ring r).present = true ∧ (s.me.ring r).closed = false ∧
  (cAws w = 0 ∨ cAwc r w ≤ (s.me.sem (cAws w)).pushed.toNat) ∧
  (cRss w = 0 ∨ (s.me.sem (cRss w)).pushed ≠ 0xFFFFFFFF) ∧ (s.me.ring r).room r = true

/-- A command is a forward wait (R136): its ring is present and open, and it awaits a count above what is pushed. -/
def ForwardWait (s : State) (r : RingId) (w : BitVec 128) : Prop :=
  (s.me.ring r).present = true ∧ (s.me.ring r).closed = false ∧ cAws w ≠ 0 ∧ (s.me.sem (cAws w)).pushed.toNat < cAwc r w

/-- The head of a ring of the current slot may work: taken by its engine's rules, neither held nor stalled nor stopped, and no
stop is requested of its stream. -/
def State.headWorks (s : State) (r : RingId) : Prop :=
  s.me.headRuns r = true ∧ (s.me.ring r).len ≠ 0 ∧ s.me.stopping (strmOfRing r) = false
/-- No scratchpad and no accumulator store holds a poisoned word. -/
def State.unpoisoned (s : State) : Prop := ∀ c, (s.core c).scratchPoison = [] ∧ (s.core c).acsPoison = []
/-- The head of ring r of the current slot has done all its work. -/
def State.ends (s : State) (r : RingId) (i : Instr) : Prop :=
  ∃ t, exec i s = .next t ∧ (t.headAt s.cur.core s.cur.slot r).phase = .finished
/-- The units of the head's command from where it stands all complete, and what it does last does too; that gives u. -/
def State.unitsGive (s : State) (r : RingId) (p : Plan) (u : State) : Prop :=
  ∃ t, runUnits p.unit (fun _ => false) (p.n - (s.me.ring r).head.prog) (s.beginHead s.cur.core s.cur.slot r)
    (s.me.ring r).head.prog = (p.n, .ok t) ∧ p.last t = .ok u
/-- The head of slot k has done its n units. -/
def State.headFinished (s : State) (c k : Nat) (r : RingId) (n : Nat) : State :=
  (s.modHead c k r fun h => { h with prog := n }).modHead c k r fun h => { h with phase := .finished }

end Sys2Proof.Machine
end

