-- ==== Sys2Proof/Certificates/Slice0/Obligations.lean ====
section
/-! DEFINITION. The statements for the provers. Each docstring names the rules of the manual it comes from, and the log entry
(notes/assumptions) of a choice of the model that it rests on. -/

open Sys2Proof Sys2Proof.Machine

/-- R165, R166: every row of the integer ALU writes its result to X[d] and goes on at the next word, from registers (K32) and
with an immediate (K64, K96). Products, quotients and remainders, with the flag DZ for a zero divisor and OF for −2^63 ÷ −1. -/
def Obligations.IntegerArithmeticResults : Prop :=
  (
  (∀ (s : State) (o : RRR), s.cRuns o.pr →
    let a := s.me.xr o.a
    let b := s.me.xr o.b
    let n := b.toNat % 64
    let gives (v : Word) : Out := .next ((s.setX o.d v).advance 4)
    exec (.add o) s = gives (a + b) ∧ exec (.sub o) s = gives (a - b) ∧
    exec (.and o) s = gives (a &&& b) ∧ exec (.or o) s = gives (a ||| b) ∧ exec (.xor o) s = gives (a ^^^ b) ∧
    exec (.andn o) s = gives (a &&& ~~~b) ∧ exec (.orn o) s = gives (a ||| ~~~b) ∧
    exec (.shl o) s = gives (BitVec.ofNat 64 (a.toNat * 2 ^ n)) ∧
    exec (.shr o) s = gives (BitVec.ofNat 64 (a.toNat / 2 ^ n)) ∧
    exec (.sra o) s = gives (BitVec.ofInt 64 (a.toInt / 2 ^ n)) ∧
    exec (.rol o) s = gives (BitVec.ofNat 64 (a.toNat * 2 ^ n + a.toNat / 2 ^ (64 - n))) ∧
    exec (.min o) s = gives (BitVec.ofInt 64 (min a.toInt b.toInt)) ∧
    exec (.max o) s = gives (BitVec.ofInt 64 (max a.toInt b.toInt)) ∧
    exec (.minu o) s = gives (BitVec.ofNat 64 (min a.toNat b.toNat)) ∧
    exec (.maxu o) s = gives (BitVec.ofNat 64 (max a.toNat b.toNat))) ∧
  (∀ (s : State) (o : RRI), s.cRuns o.pr →
    let a := s.me.xr o.a
    let b := immWord o.imm
    let n := b.toNat % 64
    let gives (v : Word) : Out := .next ((s.setX o.d v).advance (immLen o.imm))
    exec (.addImm o) s = gives (a + b) ∧ exec (.subImm o) s = gives (a - b) ∧
    exec (.andImm o) s = gives (a &&& b) ∧ exec (.orImm o) s = gives (a ||| b) ∧ exec (.xorImm o) s = gives (a ^^^ b) ∧
    exec (.andnImm o) s = gives (a &&& ~~~b) ∧ exec (.ornImm o) s = gives (a ||| ~~~b) ∧
    exec (.shlImm o) s = gives (BitVec.ofNat 64 (a.toNat * 2 ^ n)) ∧
    exec (.shrImm o) s = gives (BitVec.ofNat 64 (a.toNat / 2 ^ n)) ∧
    exec (.sraImm o) s = gives (BitVec.ofInt 64 (a.toInt / 2 ^ n)) ∧
    exec (.rolImm o) s = gives (BitVec.ofNat 64 (a.toNat * 2 ^ n + a.toNat / 2 ^ (64 - n))) ∧
    exec (.minImm o) s = gives (BitVec.ofInt 64 (min a.toInt b.toInt)) ∧
    exec (.maxImm o) s = gives (BitVec.ofInt 64 (max a.toInt b.toInt)) ∧
    exec (.minuImm o) s = gives (BitVec.ofNat 64 (min a.toNat b.toNat)) ∧
    exec (.maxuImm o) s = gives (BitVec.ofNat 64 (max a.toNat b.toNat)))) ∧
  (
  let q (a b : Word) : Word × Fl :=
    if b = 0 then (BitVec.ofInt 64 (-1), flDZ)
    else if a.toInt = -2 ^ 63 ∧ b.toInt = -1 then (a, flOF) else (BitVec.ofInt 64 (a.toInt.tdiv b.toInt), 0)
  let r (a b : Word) : Word × Fl :=
    if b = 0 then (a, flDZ)
    else if a.toInt = -2 ^ 63 ∧ b.toInt = -1 then (0, flOF) else (BitVec.ofInt 64 (a.toInt.tmod b.toInt), 0)
  let qu (a b : Word) : Word × Fl :=
    if b = 0 then (BitVec.ofInt 64 (-1), flDZ) else (BitVec.ofNat 64 (a.toNat / b.toNat), 0)
  let ru (a b : Word) : Word × Fl := if b = 0 then (a, flDZ) else (BitVec.ofNat 64 (a.toNat % b.toNat), 0)
  (∀ (s : State) (o : RRR), s.cRuns o.pr →
    let a := s.me.xr o.a
    let b := s.me.xr o.b
    let gives (v : Word) : Out := .next ((s.setX o.d v).advance 4)
    let both (v : Word × Fl) : Out := .next (((s.setX o.d v.1).orFlags v.2).advance 4)
    exec (.mul o) s = gives (BitVec.ofNat 64 (a.toNat * b.toNat)) ∧
    exec (.mulh o) s = gives (BitVec.ofInt 64 (a.toInt * b.toInt / 2 ^ 64)) ∧
    exec (.mulhu o) s = gives (BitVec.ofNat 64 (a.toNat * b.toNat / 2 ^ 64)) ∧
    exec (.div o) s = both (q a b) ∧ exec (.divu o) s = both (qu a b) ∧
    exec (.rem o) s = both (r a b) ∧ exec (.remu o) s = both (ru a b)) ∧
  (∀ (s : State) (o : RRI), s.cRuns o.pr →
    let a := s.me.xr o.a
    let b := immWord o.imm
    let gives (v : Word) : Out := .next ((s.setX o.d v).advance (immLen o.imm))
    let both (v : Word × Fl) : Out := .next (((s.setX o.d v.1).orFlags v.2).advance (immLen o.imm))
    exec (.mulImm o) s = gives (BitVec.ofNat 64 (a.toNat * b.toNat)) ∧
    exec (.mulhImm o) s = gives (BitVec.ofInt 64 (a.toInt * b.toInt / 2 ^ 64)) ∧
    exec (.mulhuImm o) s = gives (BitVec.ofNat 64 (a.toNat * b.toNat / 2 ^ 64)) ∧
    exec (.divImm o) s = both (q a b) ∧ exec (.divuImm o) s = both (qu a b) ∧
    exec (.remImm o) s = both (r a b) ∧ exec (.remuImm o) s = both (ru a b)))

/-- R167 to R171, R172 and R173: bit counts, fields, constants, `SEL` (which its predicate does not stop) and `LEA`. Comparisons
and predicate logic write P[d]. -/
def Obligations.FieldConstantCompareResults : Prop :=
  (
  (∀ (s : State) (o : RR), s.cRuns o.pr →
    let a := s.me.xr o.a
    let gives (v : Word) : Out := .next ((s.setX o.d v).advance 4)
    (∃ n : Nat, exec (.clz o) s = gives (BitVec.ofNat 64 n) ∧ n ≤ 64 ∧ a.toNat < 2 ^ (64 - n) ∧ (n < 64 → 2 ^ (63 - n) ≤ a.toNat)) ∧
    (∃ n : Nat, exec (.ctz o) s = gives (BitVec.ofNat 64 n) ∧ n ≤ 64 ∧ (∀ i, i < n → a.getLsbD i = false) ∧
      (n < 64 → a.getLsbD n = true)) ∧
    exec (.popc o) s = gives (BitVec.ofNat 64 ((List.range 64).countP fun i => a.getLsbD i)) ∧
    (∃ v : Word, exec (.brev o) s = gives v ∧ ∀ i, i < 64 → v.getLsbD i = a.getLsbD (63 - i)) ∧
    exec (.mov o) s = gives a) ∧
  (∀ (s : State) (o : FieldOp), s.cRuns o.pr →
    let a := s.me.xr o.a
    let d := s.me.xr o.d
    let n := o.len.toNat
    let p := o.pos.toNat
    let gives (v : Word) : Out := .next ((s.setX o.d v).advance 8)
    exec (.sext o) s = gives (BitVec.ofNat 64 (wrapN (sextN a.toNat n) 64)) ∧
    exec (.zext o) s = gives (BitVec.ofNat 64 (a.toNat % 2 ^ n)) ∧
    exec (.bext o) s = gives (BitVec.ofNat 64 (a.toNat / 2 ^ p % 2 ^ n)) ∧
    exec (.bins o) s = gives (BitVec.ofNat 64 (d.toNat - d.toNat / 2 ^ p % 2 ^ n * 2 ^ p + a.toNat % 2 ^ n * 2 ^ p))) ∧
  (∀ (s : State) (o : Li16), s.cRuns o.pr → exec (.li o) s = .next ((s.setX o.d (BitVec.ofInt 64 o.imm.toInt)).advance 8)) ∧
  (∀ (s : State) (o : Li32), s.cRuns o.pr →
    exec (.liK96 o) s = .next ((s.setX o.d (BitVec.ofInt 64 o.lit.toInt)).advance 12) ∧
    exec (.liHi o) s = .next ((s.setX o.d (BitVec.ofNat 64 (o.lit.toNat * 2 ^ 32))).advance 12)) ∧
  (∀ (s : State) (o : RRR), s.cur.strm = .c →
    exec (.sel o) s = .next ((s.setX o.d (if (s.me.pr o.pr.p ^^ o.pr.pn) = true then s.me.xr o.a else s.me.xr o.b)).advance 4)) ∧
  (∀ (s : State) (o : RRR), s.cRuns o.pr →
    exec (.lea o) s = .next ((s.setX o.d ((if o.a = 0 then s.me.cs.pc else s.me.xr o.a) + s.me.xr o.b)).advance 4)) ∧
  (∀ (s : State) (o : RRI), s.cRuns o.pr →
    exec (.leaImm o) s =
      .next ((s.setX o.d ((if o.a = 0 then s.me.cs.pc else s.me.xr o.a) + immWord o.imm)).advance (immLen o.imm)))) ∧
  (
  (∀ (s : State) (o : CmpR), s.cRuns o.pr →
    let a := s.me.xr o.a
    let b := s.me.xr o.b
    let gives (v : Bool) : Out := .next ((s.setP o.d v).advance 4)
    exec (.cmpEq o) s = gives (decide (a = b)) ∧ exec (.cmpNe o) s = gives (decide (a ≠ b)) ∧
    exec (.cmpLt o) s = gives (decide (a.toInt < b.toInt)) ∧ exec (.cmpGe o) s = gives (decide (b.toInt ≤ a.toInt)) ∧
    exec (.cmpLtu o) s = gives (decide (a.toNat < b.toNat)) ∧ exec (.cmpGeu o) s = gives (decide (b.toNat ≤ a.toNat))) ∧
  (∀ (s : State) (o : CmpI), s.cRuns o.pr →
    let a := s.me.xr o.a
    let b := immWord o.imm
    let gives (v : Bool) : Out := .next ((s.setP o.d v).advance (immLen o.imm))
    exec (.cmpEqImm o) s = gives (decide (a = b)) ∧ exec (.cmpNeImm o) s = gives (decide (a ≠ b)) ∧
    exec (.cmpLtImm o) s = gives (decide (a.toInt < b.toInt)) ∧ exec (.cmpGeImm o) s = gives (decide (b.toInt ≤ a.toInt)) ∧
    exec (.cmpLtuImm o) s = gives (decide (a.toNat < b.toNat)) ∧ exec (.cmpGeuImm o) s = gives (decide (b.toNat ≤ a.toNat))) ∧
  (∀ (s : State) (o : PRRR), s.cRuns o.pr →
    let gives (v : Bool) : Out := .next ((s.setP o.d v).advance 4)
    exec (.pand o) s = gives (s.me.pr o.a && s.me.pr o.b) ∧ exec (.por o) s = gives (s.me.pr o.a || s.me.pr o.b) ∧
    exec (.pxor o) s = gives (s.me.pr o.a ^^ s.me.pr o.b)) ∧
  (∀ (s : State) (o : PRR), s.cRuns o.pr → exec (.pnot o) s = .next ((s.setP o.d (!s.me.pr o.a)).advance 4)))

/-- R174 to R182: each instruction writes its result to X[d] or P[d], sets the C stream's flags, and goes on 8 bytes further. -/
def Obligations.ScalarFpResults : Prop :=
  (∀ (s : State) (o : FpRRR), s.cRuns o.pr →
    let a := (s.me.xr o.a).toNat
    let b := (s.me.xr o.b).toNat
    let gives (v : Nat × Fl) : Out := .next (((s.setX o.d (BitVec.ofNat 64 v.1)).orFlags v.2).advance 8)
    exec (.fadd o) s = gives (fpAdd o.fmt.toNat o.rm.toNat o.ovf a b) ∧
    exec (.fsub o) s = gives (fpSub o.fmt.toNat o.rm.toNat o.ovf a b) ∧
    exec (.fmul o) s = gives (fpMul o.fmt.toNat o.rm.toNat o.ovf a b) ∧
    exec (.fdiv o) s = gives (fpDiv o.fmt.toNat o.rm.toNat o.ovf a b)) ∧
  (∀ (s : State) (o : FpRRRx), s.cRuns o.pr →
    let a := (s.me.xr o.a).toNat
    let b := (s.me.xr o.b).toNat
    let f := o.fmt.toNat
    let gives (v : Nat × Fl) : Out := .next (((s.setX o.d (BitVec.ofNat 64 v.1)).orFlags v.2).advance 8)
    exec (.fmin o) s = gives (fpMinMax false f a b) ∧ exec (.fmax o) s = gives (fpMinMax true f a b) ∧
    exec (.fsgn o) s = gives (fpSetSign f a (fpSign f b), 0) ∧
    exec (.fsgnN o) s = gives (fpSetSign f a (!fpSign f b), 0) ∧
    exec (.fsgnX o) s = gives (fpSetSign f a (fpSign f a ^^ fpSign f b), 0)) ∧
  (∀ (s : State) (o : FpRR), s.cRuns o.pr →
    let a := (s.me.xr o.a).toNat
    let rm := o.rm.toNat
    let gives (v : Nat × Fl) : Out := .next (((s.setX o.d (BitVec.ofNat 64 v.1)).orFlags v.2).advance 8)
    exec (.fsqrt o) s = gives (fpSqrt o.fmt.toNat rm o.ovf a) ∧
    exec (.fcvtFi o) s = gives (fpToInt 64 true (-(2 ^ 63)) (2 ^ 63 - 1) rm o.ovf (fdec o.fmt.toNat 0 a)) ∧
    exec (.fcvtFu o) s = gives (fpToInt 64 false 0 (2 ^ 64 - 1) rm o.ovf (fdec o.fmt.toNat 0 a)) ∧
    exec (.fcvtIf o) s = gives (fpOfInt o.fmt.toNat 0 rm o.ovf (s.me.xr o.a).toInt) ∧
    exec (.fcvtUf o) s = gives (fpOfInt o.fmt.toNat 0 rm o.ovf a)) ∧
  (∀ (s : State) (o : FcvtFF), s.cRuns o.pr →
    let v := fpCvt o.fmt.toNat 0 o.rm.toNat o.ovf (fdec o.g.toNat 0 (s.me.xr o.a).toNat)
    exec (.fcvtFf o) s = .next (((s.setX o.d (BitVec.ofNat 64 v.1)).orFlags v.2).advance 8)) ∧
  (∀ (s : State) (o : FpRRRR), s.cRuns o.pr →
    let x (r : Reg) := fdec o.fmt.toNat 0 (s.me.xr r).toNat
    let v := fpFma o.fmt.toNat o.rm.toNat o.ovf (x o.a) (x o.b) (x o.c)
    exec (.ffma o) s = .next (((s.setX o.d (BitVec.ofNat 64 v.1)).orFlags v.2).advance 8)) ∧
  (∀ (s : State) (o : FpRRx), s.cRuns o.pr →
    exec (.fclass o) s =
      .next (((s.setX o.d (BitVec.ofNat 64 (fpClass o.fmt.toNat (s.me.xr o.a).toNat))).orFlags 0).advance 8)) ∧
  (∀ (s : State) (o : FcmpOp), s.cRuns o.pr →
    let gives (cc : Nat) : Out :=
      let v := fpCmp cc o.fmt.toNat (s.me.xr o.a).toNat (s.me.xr o.b).toNat
      .next (((s.setP o.d v.1).orFlags v.2).advance 8)
    exec (.fcmpEq o) s = gives 0 ∧ exec (.fcmpNe o) s = gives 1 ∧ exec (.fcmpLt o) s = gives 2 ∧
    exec (.fcmpLe o) s = gives 3 ∧ exec (.fcmpUn o) s = gives 4)

/-- R183, R184, R187, R206, R187: branches and calls. While no hardware loop is active every branch leads to its target; `CALL`
and `CALLR` leave the address of the next word in X[d] and read their sources first. `JR`, `CALL`, `CALLR` and `RET` raise
F_ILLEGAL while a hardware loop is active. -/
def Obligations.BranchResults : Prop :=
  (
  (∀ (s : State) (o : BpOp), s.cRuns o.pr →
    exec (.bp o) s = .next (s.jumpTo (s.me.cs.pc + BitVec.ofInt 64 (4 * (immWord o.off).toInt)))) ∧
  (∀ (s : State) (o : BpOp), s.cSkips o.pr → exec (.bp o) s = .next (s.advance (immLen o.off))) ∧
  (∀ (s : State) (off : Imm), s.vRuns →
    exec (.bV off) s = .next (s.jumpTo (s.me.vs.pc + BitVec.ofInt 64 (4 * (immWord off).toInt)))) ∧
  (∀ (s : State) (o : JrOp), s.cRuns o.pr → s.me.cs.loops = [] →
    exec (.jr o) s = .next (s.jumpTo (s.me.xr o.a)) ∧
    exec (.ret o) s = .next ((s.addDepth 255).jumpTo (s.me.xr o.a))) ∧
  (∀ (s : State) (o : CallOp), s.cRuns o.pr → s.me.cs.loops = [] →
    exec (.call o) s = .next (((s.setX o.d (s.me.cs.pc + BitVec.ofNat 64 (immLen o.off))).addDepth 1).jumpTo
      (s.me.cs.pc + BitVec.ofInt 64 (4 * (immWord o.off).toInt)))) ∧
  (∀ (s : State) (o : RR), s.cRuns o.pr → s.me.cs.loops = [] →
    exec (.callr o) s = .next (((s.setX o.d (s.me.cs.pc + 4)).addDepth 1).jumpTo (s.me.xr o.a)))) ∧
  (
  ∀ (s : State) (l : HwLoop) (ls : List HwLoop), s.me.cs.loops = l :: ls →
    let traps : Out := .next (s.trapEntry s.cur.core s.cur.slot fIllegal .c s.me.cs.pc 0)
    (∀ o : JrOp, s.cRuns o.pr → exec (.jr o) s = traps ∧ exec (.ret o) s = traps) ∧
    (∀ o : CallOp, s.cRuns o.pr → exec (.call o) s = traps) ∧
    (∀ o : RR, s.cRuns o.pr → exec (.callr o) s = traps))

/-- R186: `HLOOP` of n iterations with fewer than four loops active and a body inside the innermost one. With n = 0 it goes on
behind the body, with the first pass's stage predicates written; otherwise the body is entered with the new loop innermost. -/
def Obligations.HardwareLoopStarts : Prop :=
  ∀ (s : State) (o : HloopOp) (np : Bool) (n : Nat) (st : Strm),
    s.cur.strm = st → n < 2 ^ 32 → (s.me.ss st).loops.length < 4 →
    let len := regLitLen o.cnt
    let start := (s.me.ss st).pc + BitVec.ofNat 64 len
    let stop := start + BitVec.ofNat 64 (4 * o.len.toNat)
    (∀ l ls, (s.me.ss st).loops = l :: ls → start.toNat + 4 * o.len.toNat ≤ l.stop.toNat) →
    let gives (r : Out) : Prop :=
      (n = 0 → ∃ t, r = .next (t.advance (len + 4 * o.len.toNat)) ∧ ∃ l : HwLoop, l.base = o.b.toNat ∧ l.stages = o.c.toNat + 1 ∧
        l.limit = 0 ∧ l.pass = 0 ∧ t = s.modMe fun sl => sl.startPass st l) ∧
      (n ≠ 0 → ∃ t l, r = .next t ∧ l.start = start ∧ l.stop = stop ∧ l.stages = o.c.toNat + 1 ∧ l.base = o.b.toNat ∧
        l.total = n ∧ l.limit = n ∧ l.pass = 0 ∧ l.np = np ∧
        t = s.modMe fun sl => (sl.modSs st fun ss =>
          { ss with pc := start, loops := l :: ss.loops, waiting := none, resolved := [], atStop := false }).startPass st l)
    (st = .c → (s.me.regLit o.cnt).toNat = n → gives (exec (if np then .hloopNp o else .hloop o) s)) ∧
    (s.vRuns → st = .v →
      (∀ a, o.cnt = .reg a → s.me.vpoisoned a.toNat 0 4 = false ∧ VWord.nat (s.me.vr a.toNat) 0 4 = n) →
      (∀ v, o.cnt = .lit v → v.toNat = n) → gives (exec (.hloopV ⟨np, o⟩) s))

/-- R189, R26, R190: a load of n bytes whose address is aligned, translates for reading and is not poisoned writes the
little-endian value, sign- or zero-extended, to X[d]: the value in memory, unless the load has no .AQ and the stream has read
these bytes early, and then the value read early. Of the rest of the state only the model's record of what the host may see,
the translations that its address translation cache keeps, and early reads given up can change. A store of the low n bytes of
X[b] whose address is aligned, translates for writing and is outside the launch pool writes them at that physical address,
least significant first. Accesses to the slot's 256 KiB home region. (Log entry 8: early reads are the model's; log entry 16:
the cache.) -/
def Obligations.LoadAndStoreResults : Prop :=
  (
  ∀ (s : State) (o : LdOp) (pa : Nat), s.cRuns o.pr →
    let va := s.me.xr o.a + immWord o.off
    let sx (n v : Nat) : Word := BitVec.ofInt 64 (BitVec.ofNat (8 * n) v).toInt
    let zx (_ v : Nat) : Word := BitVec.ofNat 64 v
    let gives (n : Nat) (f : Nat → Nat → Word) (r : Out) : Prop :=
      s.dataPa va n .rd = .ok pa → (isHost pa = true ∨ poisoned s.memPoison 64 pa n = false) →
        ((o.ord.getLsbD 0 = true ∨ s.earlyAt va.toNat n = none) →
          ∃ t, OnlyKnown s t ∧ r = .next ((t.setX o.d (f n (s.mem.nat pa n))).advance (immLen o.off))) ∧
        (∀ e, o.ord.getLsbD 0 = false → s.earlyAt va.toNat n = some e →
          ∃ t, OnlyKnown s t ∧
            r = .next ((t.setX o.d (f n (e.val / 2 ^ (8 * (va.toNat - e.va)) % 2 ^ (8 * n)))).advance (immLen o.off)))
    gives 1 sx (exec (.ldB o) s) ∧ gives 2 sx (exec (.ldH o) s) ∧ gives 4 sx (exec (.ldW o) s) ∧ gives 8 zx (exec (.ldD o) s) ∧
    gives 1 zx (exec (.ldBu o) s) ∧ gives 2 zx (exec (.ldHu o) s) ∧ gives 4 zx (exec (.ldWu o) s)) ∧
  (
  ∀ (s : State) (o : StOp) (pa : Nat), s.cRuns o.pr →
    let va := s.me.xr o.a + immWord o.off
    let gives (n : Nat) (r : Out) : Prop :=
      s.dataPa va n .wr = .ok pa → (isHost pa = true ∨ (s.part s.me.t.part).inPool pa n = false) →
        ∃ t, OnlyKnown (s.pwrite (some s.agent) pa (natLe n (s.me.xr o.b).toNat)).wrote t ∧ r = .next (t.advance (immLen o.off))
    gives 1 (exec (.stB o) s) ∧ gives 2 (exec (.stH o) s) ∧ gives 4 (exec (.stW o) s) ∧ gives 8 (exec (.stD o) s)) ∧
  (
  (∀ (s : State) (o : LdxOp), s.cRuns o.pr →
    let a := (s.me.xr o.a + BitVec.ofInt 64 o.imm.toInt).toNat
    let gives (n : Nat) (r : Out) : Prop :=
      a < 0x40000 → a % n = 0 → (s.core s.cur.core).spoisoned (0x40000 * s.cur.slot + a) n = false →
        r = .next ((s.setX o.d (BitVec.ofNat 64 ((s.core s.cur.core).scratch.nat (0x40000 * s.cur.slot + a) n))).advance 8)
    gives 1 (exec (.ldxB o) s) ∧ gives 2 (exec (.ldxH o) s) ∧ gives 4 (exec (.ldxW o) s) ∧ gives 8 (exec (.ldxD o) s)) ∧
  (∀ (s : State) (o : StxOp), s.cRuns o.pr →
    let a := (s.me.xr o.a + BitVec.ofInt 64 o.imm.toInt).toNat
    let gives (n : Nat) (r : Out) : Prop :=
      a < 0x40000 → a % n = 0 →
        r = .next ((s.modCore s.cur.core
          (·.swrite (0x40000 * s.cur.slot + a) (natLe n (s.me.xr o.b).toNat))).wrote.advance 8)
    gives 1 (exec (.stxB o) s) ∧ gives 2 (exec (.stxH o) s) ∧ gives 4 (exec (.stxW o) s) ∧ gives 8 (exec (.stxD o) s)))

/-- R189, R190, R229, R26: a load or store of device memory that is not aligned raises F_ALIGN with its address; one that is
and does not translate raises the fault of the translation; a load of poisoned HBM raises F_POISON and a store to the launch
pool F_PERM. A home access outside the region raises F_BOUND with its offset, a misaligned one F_ALIGN, and a load of a
poisoned word F_POISON. Every width of each is meant. -/
def Obligations.AccessFaults : Prop :=
  let dev (s : State) (va : Word) (n : Nat) (a : Acc) (r : Out) : Prop :=
    let traps (c : Code) : Out := .next (s.trapEntry s.cur.core s.cur.slot c .c s.me.cs.pc va)
    (va.toNat % n ≠ 0 → r = traps fAlign) ∧
    (∀ c, va.toNat % n = 0 → s.xlate (some s.cur.core) s.me.t.fn s.me.t.part va.toNat a = .error c → r = traps c) ∧
    (∀ pa, s.dataPa va n a = .ok pa → isHost pa = false →
      (a = .rd → poisoned s.memPoison 64 pa n = true → r = traps fPoison) ∧
      (a = .wr → (s.part s.me.t.part).inPool pa n = true → r = traps fPerm))
  let home (s : State) (a : Word) (n : Nat) (rd : Bool) (r : Out) : Prop :=
    let traps (c : Code) : Out := .next (s.trapEntry s.cur.core s.cur.slot c .c s.me.cs.pc a)
    (0x40000 ≤ a.toNat → r = traps fBound) ∧
    (a.toNat < 0x40000 → a.toNat % n ≠ 0 → r = traps fAlign) ∧
    (a.toNat < 0x40000 → a.toNat % n = 0 → rd = true →
      (s.core s.cur.core).spoisoned (0x40000 * s.cur.slot + a.toNat) n = true → r = traps fPoison)
  (∀ (s : State) (o : LdOp), s.cRuns o.pr →
    let va := s.me.xr o.a + immWord o.off
    dev s va 1 .rd (exec (.ldB o) s) ∧ dev s va 2 .rd (exec (.ldH o) s) ∧ dev s va 4 .rd (exec (.ldW o) s) ∧
    dev s va 8 .rd (exec (.ldD o) s) ∧ dev s va 1 .rd (exec (.ldBu o) s) ∧ dev s va 2 .rd (exec (.ldHu o) s) ∧
    dev s va 4 .rd (exec (.ldWu o) s)) ∧
  (∀ (s : State) (o : StOp), s.cRuns o.pr →
    let va := s.me.xr o.a + immWord o.off
    dev s va 1 .wr (exec (.stB o) s) ∧ dev s va 2 .wr (exec (.stH o) s) ∧ dev s va 4 .wr (exec (.stW o) s) ∧
    dev s va 8 .wr (exec (.stD o) s)) ∧
  (∀ (s : State) (o : LdxOp), s.cRuns o.pr →
    let a := s.me.xr o.a + BitVec.ofInt 64 o.imm.toInt
    home s a 1 true (exec (.ldxB o) s) ∧ home s a 2 true (exec (.ldxH o) s) ∧ home s a 4 true (exec (.ldxW o) s) ∧
    home s a 8 true (exec (.ldxD o) s)) ∧
  (∀ (s : State) (o : StxOp), s.cRuns o.pr →
    let a := s.me.xr o.a + BitVec.ofInt 64 o.imm.toInt
    home s a 1 false (exec (.stxB o) s) ∧ home s a 2 false (exec (.stxH o) s) ∧ home s a 4 false (exec (.stxW o) s) ∧
    home s a 8 false (exec (.stxD o) s))

/-- R372, R373, R370, R371, R383, R384: an atomic on HBM outside the launch pool writes its new value and returns the old one,
sign-extended. A fence completes; `MON` arms the monitor on the granule it names, and a pending RECHECK stays; the first `MWAIT` after a restore returns 0x84, 3
when the monitor is not armed, 0 after a write, 2 at its deadline, and waits otherwise; a waiting `MWAIT` that no stop is
requested of and no freeze holds may return with code 1. (Log entry 8: the order of memory is the model's.) -/
def Obligations.AtomicFenceMonitorResults : Prop :=
  (
  (∀ (s : State) (o : AmoOp) (pa : Nat), s.cRuns o.pr →
    let n := if o.dbl then 8 else 4
    let va := s.me.xr o.a + BitVec.ofInt 64 o.imm.toInt
    s.dataPa va n .rw = .ok pa → isHost pa = false → (s.part s.me.t.part).inPool pa n = false →
    poisoned s.memPoison 64 pa n = false →
      let w := 8 * n
      let old := s.mem.nat pa n
      let v := (s.me.xr o.b).toNat % 2 ^ w
      let gives (new : Nat) (r : Out) : Prop :=
        ∃ t, OnlyKnown (s.pwrite (some s.agent) pa (natLe n new)).wrote t ∧ r = .next ((t.setX o.d (ldExt n false old)).advance 8)
      gives ((old + v) % 2 ^ w) (exec (.amoAdd o) s) ∧ gives (old &&& v) (exec (.amoAnd o) s) ∧
      gives (old ||| v) (exec (.amoOr o) s) ∧ gives (old ^^^ v) (exec (.amoXor o) s) ∧
      gives (if sextN old w < sextN v w then old else v) (exec (.amoMin o) s) ∧
      gives (if sextN old w < sextN v w then v else old) (exec (.amoMax o) s) ∧
      gives (min old v) (exec (.amoMinu o) s) ∧ gives (max old v) (exec (.amoMaxu o) s) ∧ gives v (exec (.amoXchg o) s)) ∧
  (∀ (s : State) (o : CasOp) (pa : Nat), s.cRuns o.pr →
    let n := if o.dbl then 8 else 4
    s.dataPa (s.me.xr o.a) n .rw = .ok pa → isHost pa = false → (s.part s.me.t.part).inPool pa n = false →
    poisoned s.memPoison 64 pa n = false →
      let old := s.mem.nat pa n
      let new := (s.me.xr o.c).toNat % 2 ^ (8 * n)
      (old = (s.me.xr o.b).toNat % 2 ^ (8 * n) → ∃ t, OnlyKnown (s.pwrite (some s.agent) pa (natLe n new)).wrote t ∧
        exec (.cas o) s = .next ((t.setX o.d (ldExt n false old)).advance 8)) ∧
      (old ≠ (s.me.xr o.b).toNat % 2 ^ (8 * n) → ∃ t, OnlyKnown s t ∧
        exec (.cas o) s = .next ((t.setX o.d (ldExt n false old)).advance 8)))) ∧
  (
  (∀ (s : State) (o : FenceOp), s.cRuns o.pr →
    let gives (r : Out) : Prop := ∃ t, OnlyKnown s t ∧ r = .next (t.advance 8)
    gives (exec (.fenceAq o) s) ∧ gives (exec (.fenceRl o) s) ∧ gives (exec (.fenceAr o) s) ∧ gives (exec (.fenceSc o) s)) ∧
  (∀ (s : State) (o : MonOp) (pa : Nat), s.cRuns o.pr →
    let va := s.me.xr o.a + BitVec.ofInt 64 o.imm.toInt
    s.dataPa va 1 .rd = .ok pa → isHost pa = false →
      exec (.mon o) s = .next ((s.modMe fun sl =>
        { sl with mon := { armed := true, granule := va.toNat / 64, pa := pa / 64, written := false, recheck := s.me.mon.recheck } }).advance 8)) ∧
  (∀ (s : State) (o : RR), s.cRuns o.pr →
    let dl := (s.me.xr o.a).toNat
    let m := s.me.mon
    let ends (code : Nat) : Prop := ∃ t, OnlyKnown s t ∧ exec (.mwait o) s =
      .next ((t.modMe fun sl => { sl with mon := Monitor.reset }.setX o.d (BitVec.ofNat 64 code)).advance 8)
    (m.recheck = true → ends 0x84) ∧
    (m.recheck = false → m.armed = false → ends 3) ∧
    (m.recheck = false → m.armed = true → m.written = true → ends 0) ∧
    (m.recheck = false → m.armed = true → m.written = false → dl ≠ 0 → dl ≤ s.now → ends 2) ∧
    (m.recheck = false → m.armed = true → m.written = false → (dl = 0 ∨ s.now < dl) →
      exec (.mwait o) s = .next (s.modMe fun sl => { sl with cs := { sl.cs with waiting := some (.monitor o.d dl) } }))) ∧
  (∀ (s : State) (c k dl : Nat) (d : Reg), (s.slotAt c k).cs.waiting = some (.monitor d dl) → (s.slotAt c k).cs.stopReq = none →
    (s.core c).frozen = false →
    let ends (code : Nat) (r : Out) : Prop := ∃ f : State → State, (∀ u, OnlyKnown u (f u)) ∧ r = .next (s.completed ⟨c, k⟩ fun u =>
      ((f u).modMe fun sl => { sl with mon := Monitor.reset }.setX d (BitVec.ofNat 64 code)).advance 8)
    ends 1 (exec (.mwaitWake ⟨c, k, .spurious⟩) s) ∧
    ((s.slotAt c k).mon.written = true → ends 0 (exec (.mwaitWake ⟨c, k, .written⟩) s)) ∧
    (dl ≠ 0 → dl ≤ s.now → ends 2 (exec (.mwaitWake ⟨c, k, .deadline⟩) s))))

/-- R192 to R197, R136, R194: an accepted command is appended to its ring, and the pushed count of its raised semaphore grows by
1. A command, kernel entry or note that awaits a count above the semaphore's pushed count is a forward wait: F_FWAIT, nothing
pushed, from each of the pushing instructions. `MSET` and
`MSET.G` write a nest row or a word of a stream register that no pending command reads. -/
def Obligations.PushResults : Prop :=
  (
  (∀ (s : State) (o : PushRR), s.cRuns o.pr →
    let w := s.me.xr o.b ++ s.me.xr o.a
    Pushable s .m w →
    ((copOf w = 1 ∧ mgoCheck s.me (mmaOf w) false = .ok ()) ∨ (copOf w = 2 ∧ mgoCheck s.me (mmaOf w) true = .ok ()) ∨
      copOf w = 3 ∨ ((copOf w = 4 ∨ copOf w = 5) ∧ mxfCheck (mxfOf w) = .ok ())) →
      exec (.mgo o) s = .next ((s.modMe (·.pushCmd .m w)).advance 8)) ∧
  (∀ (s : State) (o : PushRRL), s.cRuns o.pr → o.lit = none →
    let w := s.me.xr o.b ++ s.me.xr o.a
    (Pushable s .x w → 1 ≤ copOf w → copOf w ≤ 10 →
      exec (.xpsh o) s = .next ((s.modMe (·.pushCmd .x w)).advance 8)) ∧
    (Pushable s .k w → copOf w = 1 → ext w 23 9 = 0 → ext w 96 32 = 0 →
      (ext w 32 32).toNat % 4 = 0 → s.me.t.vbase ≤ (ext w 32 32).toNat → (ext w 32 32).toNat < s.me.t.vbase + s.me.t.vsize →
      exec (.vgo o) s = .next ((s.modMe (·.pushCmd .k w)).advance 8))) ∧
  (∀ (s : State) (o : PushRRL) (v : BitVec 32), s.cRuns o.pr → o.lit = some v →
    let w := s.me.xr o.b ++ s.me.xr o.a
    (let w' := BitVec.ofNat 128 (setBitsN w.toNat 64 32 v.toNat)
     Pushable s .x w' → 1 ≤ copOf w' → copOf w' ≤ 10 →
      exec (.xpsh o) s = .next ((s.modMe (·.pushCmd .x w')).advance 12)) ∧
    (let w' := BitVec.ofNat 128 (setBitsN w.toNat 32 32 v.toNat)
     Pushable s .k w' → copOf w' = 1 → ext w' 23 9 = 0 → ext w' 96 32 = 0 →
      (ext w' 32 32).toNat % 4 = 0 → s.me.t.vbase ≤ (ext w' 32 32).toNat → (ext w' 32 32).toNat < s.me.t.vbase + s.me.t.vsize →
      exec (.vgo o) s = .next ((s.modMe (·.pushCmd .k w')).advance 12))) ∧
  (∀ (s : State) (o : JrOp), s.cRuns o.pr →
    let w : BitVec 128 := (0 : Word) ++ s.me.xr o.a
    Pushable s .s w → 1 ≤ copOf w → copOf w ≤ 3 → exec (.sgo o) s = .next ((s.modMe (·.pushCmd .s w)).advance 8)) ∧
  (∀ (s : State) (o : NoteOp), s.cRuns o.pr →
    let n := (s.me.xr o.a).toNat
    let gives (r : RingId) (max : Nat) (x : Out) : Prop :=
      n ≤ max → Pushable s r (noteBits r o.w.toNat n o.r.toNat) →
        x = .next ((s.modMe (·.pushNote r o.w.toNat n o.r.toNat)).advance 8)
    gives .m 0xFFFFFFFF (exec (.noteM o) s) ∧ gives .x 0xFFFFFFFF (exec (.noteX o) s) ∧ gives .s 0xFFFF (exec (.noteS o) s))) ∧
  (
  let traps (s : State) : Out := .next (s.trapEntry s.cur.core s.cur.slot fFwait .c s.me.cs.pc 0)
  (∀ (s : State) (o : PushRR), s.cRuns o.pr →
    let w := s.me.xr o.b ++ s.me.xr o.a
    ForwardWait s .m w →
    ((copOf w = 1 ∧ mgoCheck s.me (mmaOf w) false = .ok ()) ∨ (copOf w = 2 ∧ mgoCheck s.me (mmaOf w) true = .ok ()) ∨
      copOf w = 3 ∨ ((copOf w = 4 ∨ copOf w = 5) ∧ mxfCheck (mxfOf w) = .ok ())) → exec (.mgo o) s = traps s) ∧
  (∀ (s : State) (o : PushRRL), s.cRuns o.pr →
    let w := s.me.xr o.b ++ s.me.xr o.a
    (let w' := match o.lit with | none => w | some v => BitVec.ofNat 128 (setBitsN w.toNat 64 32 v.toNat)
     ForwardWait s .x w' → 1 ≤ copOf w' → copOf w' ≤ 10 → exec (.xpsh o) s = traps s) ∧
    (let w' := match o.lit with | none => w | some v => BitVec.ofNat 128 (setBitsN w.toNat 32 32 v.toNat)
     ForwardWait s .k w' → copOf w' = 1 → ext w' 23 9 = 0 → ext w' 96 32 = 0 →
      (ext w' 32 32).toNat % 4 = 0 → s.me.t.vbase ≤ (ext w' 32 32).toNat → (ext w' 32 32).toNat < s.me.t.vbase + s.me.t.vsize →
      exec (.vgo o) s = traps s)) ∧
  (∀ (s : State) (o : JrOp), s.cRuns o.pr →
    let w : BitVec 128 := (0 : Word) ++ s.me.xr o.a
    ForwardWait s .s w → 1 ≤ copOf w → copOf w ≤ 3 → exec (.sgo o) s = traps s) ∧
  (∀ (s : State) (o : NoteOp), s.cRuns o.pr →
    let n := (s.me.xr o.a).toNat
    let gives (r : RingId) (max : Nat) (x : Out) : Prop :=
      n ≤ max → ForwardWait s r (noteBits r o.w.toNat n o.r.toNat) → x = traps s
    gives .m 0xFFFFFFFF (exec (.noteM o) s) ∧ gives .x 0xFFFFFFFF (exec (.noteX o) s) ∧ gives .s 0xFFFF (exec (.noteS o) s))) ∧
  (
  (∀ (s : State) (o : MsetOp), s.cRuns o.pr →
    let v := s.me.regLit o.val
    o.row.toNat < 6 → v.toNat < 2 ^ 35 → (∀ c ∈ s.me.pendingMma, c.nset ≠ o.set) →
      exec (.mset o) s = .next ((s.modMe fun sl =>
        { sl with nest := Sparse.set 0 sl.nest (8 * o.set.toNat + o.row.toNat) v }).advance (regLitLen o.val))) ∧
  (∀ (s : State) (o : MsetGOp), s.cRuns o.pr →
    let v := s.me.regLit o.val
    v &&& gResv o.w.toNat = 0 → (∀ c ∈ s.me.pendingMma, c.gs ≠ o.g ∧ c.gb ≠ o.g) →
      exec (.msetG o) s = .next ((s.modMe fun sl =>
        { sl with g := Sparse.set 0 sl.g o.g.toNat (gSetWord (sl.greg o.g.toNat) o.w.toNat v) }).advance (regLitLen o.val))))

/-- R135, R138 to R141, R142, R197, R198, R142: `SEMR` pushes and raises; `SEMW` whose count is reached reads both counts; `GSET`
resolves a guard that no undecided command would see change. `NOTE.C` without an await ends the C stream; its open rings,
when they have room, each receive a note and close, and so does the kernel queue. `HALT` of the V stream raises for the
kernel that runs and, with an entry at hand that its guard lets run, starts it at its offset of the image; with an empty open
queue it parks, and a parked stream starts the next entry; `NOTE.V` drops the queue and ends the stream. -/
def Obligations.SemaphoreGuardKernelResults : Prop :=
  (
  (∀ (s : State) (o : SemrOp), s.cRuns o.pr → (o.s = 0 ∨ (s.me.sem o.s.toNat).pushed ≠ 0xFFFFFFFF) →
    exec (.semr o) s = .next ((s.modMe fun sl => (sl.pushSem o.s.toNat).raiseSem o.s.toNat).advance 8)) ∧
  (∀ (s : State) (o : SemwOp), s.cRuns o.pr →
    let n := (s.me.xr o.a).toNat
    let x := s.me.sem o.s.toNat
    n ≤ 0xFFFFFFFF → (o.s = 0 ∨ (n ≤ x.pushed.toNat ∧ n ≤ x.done.toNat)) →
      ∃ t, OnlyKnown s t ∧ exec (.semw o) s = .next ((t.setX o.d (x.pushed ++ x.done)).advance 8)) ∧
  (∀ (s : State) (pr : Pred) (g : BitVec 6), s.cRuns pr →
    let ok (v : BitVec 2) : Prop := s.me.guard g.toNat = v ∨ s.me.guard g.toNat = 0 ∨ g.toNat ∉ s.me.undecidedGuards
    let gives (v : BitVec 2) : Out := .next ((s.modMe (·.setGuard g.toNat v)).advance 8)
    (∀ b : PReg, ok (if s.me.pr b = true then 1 else 2) →
      exec (.gset ⟨pr, b, g⟩) s = gives (if s.me.pr b = true then 1 else 2)) ∧
    (∀ b : PReg, ok (if s.me.pr b = true then 2 else 1) →
      exec (.gsetN ⟨pr, b, g⟩) s = gives (if s.me.pr b = true then 2 else 1)) ∧
    (∀ a : Reg, ok (if s.me.xr a = 0 then 2 else 1) →
      exec (.gsetX ⟨pr, a, g⟩) s = gives (if s.me.xr a = 0 then 2 else 1)) ∧
    (ok 0 → exec (.gsetClr ⟨pr, g⟩) s = gives 0))) ∧
  (
  ∀ (s : State) (o : NoteOp), s.cRuns o.pr → o.w = 0 → (s.me.xr o.a).toNat ≤ 0xFFFFFFFF →
    s.me.unresolvedPending = false → (o.r = 0 ∨ (s.me.sem o.r.toNat).pushed ≠ 0xFFFFFFFF) →
    (∀ r ∈ [RingId.m, .x, .s], (s.me.ring r).room r = true) →
      ∃ t, exec (.noteC o) s = .next t ∧ t.me.cs.ended = true ∧ t.me.cs.waiting = none ∧ t.me.kring.closed = true ∧
        (∀ r ∈ [RingId.m, .x, .s], (s.me.ring r).present = true → (t.me.ring r).closed = true) ∧
        (∀ r ∈ [RingId.m, .x, .s], (s.me.ring r).present = true → (s.me.ring r).closed = false →
          ∃ no, t.me.ring r = { (s.me.ring r).push r (noteBits r 0 0 0) no with closed := true }) ∧
        t.me.sems = ((s.me.pushSem o.r.toNat).raiseSem o.r.toNat).sems ∧
        t.me.x = s.me.x ∧ t.me.p = s.me.p ∧ t.mem = s.mem) ∧
  (
  (∀ (s : State) (pr : Pred), s.vRuns →
    let q := s.me.kring
    let w := q.headBits .k
    let raised := match s.me.kernel with | some u => s.me.raiseSem (cRss u) | none => s.me
    q.len ≠ 0 → q.head.phase = .fresh → s.me.guard (cGds w) = 1 → w.getLsbD 22 = false →
    (cAws w = 0 ∨ cAwc .k w ≤ (raised.sem (cAws w)).done.toNat) →
      (∃ t, exec (.haltV pr) s = .next t ∧ t.me.kernel = some w ∧ t.me.kring = q.pop ∧ t.me.vs.waiting = none ∧
        t.me.sems = raised.sems ∧ t.me.vs.pc = s.me.t.entry + BitVec.ofNat 64 (ext w 32 32).toNat) ∧
      (s.me.vs.waiting = some .kernel → s.me.vs.stopReq = none → (s.core s.cur.core).frozen = false →
        ∃ t, exec (.kernelStart s.myId) s = .next t ∧ t.me.kernel = some w ∧ t.me.vs.waiting = none ∧
          t.me.vs.pc = s.me.t.entry + BitVec.ofNat 64 (ext w 32 32).toNat)) ∧
  (∀ (s : State) (pr : Pred), s.vRuns → s.me.kring.len = 0 → s.me.kring.closed = false →
    ∃ t, exec (.haltV pr) s = .next t ∧ t.me.vs.waiting = some .kernel ∧ t.me.vs.pc = s.me.vs.pc ∧ t.me.kernel = none ∧
      t.me.sems = (match s.me.kernel with | some u => s.me.raiseSem (cRss u) | none => s.me).sems) ∧
  (∀ (s : State) (pr : Pred), s.vRuns →
    ∃ t, exec (.noteV pr) s = .next t ∧ t.me.vs.ended = true ∧ t.me.kernel = none ∧ t.me.kring.len = 0 ∧
      t.me.kring.closed = true))

/-- R221, R211, R222, R217: `TSTAT` reads the entry of a valid tile; `TFREE` empties a tile that no command fills, and `TFREE.U` also undefines one
that has no reader; `CKPIN` and `CKPIN.CLR` do nothing to a home tile and pin or unpin the cask of another; `CKTKT` reports
it. A tile that is not valid raises F_TILESTATE in each, and a number above 63 F_BOUND. -/
def Obligations.TileInstructionResults : Prop :=
  (∀ (s : State) (o : TileDA), s.cRuns o.pr →
    let n := (s.me.xr o.a + o.t.setWidth 64).toNat
    let abs := 64 * s.cur.slot + n
    let t := s.tileAt s.cur.core abs
    let k := caskOf abs t
    let co := s.core s.cur.core
    (64 ≤ n →
      let traps : Out := .next (s.trapEntry s.cur.core s.cur.slot fBound .c s.me.cs.pc 0)
      exec (.tstat o) s = traps ∧ exec (.cktkt o) s = traps) ∧
    (n < 64 →
      (t.valid = true → exec (.tstat o) s =
        .next ((s.setX o.d (BitVec.ofNat 64 (t.low + t.size * 2 ^ 32 + t.cask * 2 ^ 48))).advance 8)) ∧
      (t.valid = false →
        let traps : Out := .next (s.trapEntry s.cur.core s.cur.slot fTilestate .c s.me.cs.pc 0)
        exec (.tstat o) s = traps ∧ exec (.cktkt o) s = traps) ∧
      (t.valid = true → t.home = true → exec (.cktkt o) s = .next ((s.setX o.d 0).advance 8)) ∧
      (t.valid = true → t.home = false → exec (.cktkt o) s = .next ((s.setX o.d (BitVec.ofNat 64
        (min 0xFFFFFFFF (s.caskTickets s.cur.core k) + s.caskWeight s.cur.core k * 2 ^ 32
          + (if (co.cask k).racked then 0 else 2 ^ 56) + (if (co.cask k).pin then 2 ^ 57 else 0)
          + (if co.caskIdle k then 2 ^ 58 else 0)))).advance 8)))) ∧
  (∀ (s : State) (o : TileA), s.cRuns o.pr →
    let n := (s.me.xr o.a + o.t.setWidth 64).toNat
    let c := s.cur.core
    let abs := 64 * s.cur.slot + n
    let t := s.tileAt c abs
    let k := caskOf abs t
    (64 ≤ n →
      let traps : Out := .next (s.trapEntry s.cur.core s.cur.slot fBound .c s.me.cs.pc 0)
      exec (.tfree o) s = traps ∧ exec (.tfreeU o) s = traps ∧ exec (.ckpin o) s = traps ∧ exec (.ckpinClr o) s = traps) ∧
    (n < 64 → t.valid = false →
      let traps : Out := .next (s.trapEntry s.cur.core s.cur.slot fTilestate .c s.me.cs.pc 0)
      exec (.tfree o) s = traps ∧ exec (.tfreeU o) s = traps ∧ exec (.ckpin o) s = traps ∧ exec (.ckpinClr o) s = traps) ∧
    (n < 64 → t.valid = true →
      (t.busy = false → exec (.tfree o) s = .next ((s.freeTile c abs).advance 8)) ∧
      (t.busy = false → t.readers = 0 → exec (.tfreeU o) s = .next (((s.freeTile c abs).undefTile c abs).advance 8)) ∧
      (t.home = true → exec (.ckpin o) s = .next (s.advance 8) ∧ exec (.ckpinClr o) s = .next (s.advance 8)) ∧
      (t.home = false → ((s.core c).cask k).pipe = false →
        exec (.ckpinClr o) s = .next ((s.setPin c k false).advance 8) ∧
        ((s.fetchCask c k).2 = true → exec (.ckpin o) s = .next (((s.fetchCask c k).1.setPin c k true).advance 8)))))

/-- R218, R219, R220, R221, R223: `CBDEF` makes a ring of EMPTY tiles and a handle with both roles; `CBDEF.T` defines home
tiles, and tiles of a cask that is racked or holds no pool range, each with its cellar range and racked; `CBADV` moves the
producer's or consumer's count, and the consumer's frees what it passes; `CBQRY` reads the record. `TBIND` of a range writes the first free entry of the
bind table and answers its number. -/
def Obligations.CircularBufferResults : Prop :=
  (
  (∀ (s : State) (o : CbdefOp), s.cRuns o.pr →
    let k := s.cur.slot
    let t := o.t.toNat
    let depth := o.depth.toNat + 1
    t + depth ≤ 64 →
    (∀ i, i < depth → (s.tileAt s.cur.core (64 * k + t + i)).valid = true ∧ (s.tileAt s.cur.core (64 * k + t + i)).st = .empty) →
      exec (.cbdef o) s = .next (((s.modCore s.cur.core fun co =>
        co.putRing (16 * k + o.n.toNat) { ft := 64 * k + t, depth := depth, pptr := 0, cptr := 0, pipe := false, inst := [] }).modMe fun sl =>
          { sl with cb := Sparse.set CbHandle.reset sl.cb o.n.toNat ⟨true, 3, s.cur.core, 16 * k + o.n.toNat⟩ }).advance 8)) ∧
  (∀ (s : State) (o : CbdefTOp), s.cRuns o.pr →
    let d := (s.me.regLit o.val).toNat
    let k := s.cur.slot
    let gran := d % 2 ^ 13
    let hoff := d / 2 ^ 15 % 2 ^ 12
    let span := if d.testBit 14 then 2 * gran else gran
    let cnt := o.cnt.toNat + 1
    d < 2 ^ 27 → 0 < gran → gran ≤ 4096 → o.t.toNat + cnt ≤ 64 → d.testBit 13 = true → hoff + cnt * span ≤ 4096 →
    (∀ i, i < cnt → (s.tileAt s.cur.core (64 * k + o.t.toNat + i)).valid = false) →
      exec (.cbdefT o) s = .next (((List.range cnt).foldl (fun t i =>
        let a := 0x1000 * k + hoff + i * span
        t.putTile s.cur.core (64 * k + o.t.toNat + i)
          { Tile.reset with valid := true, size := gran, shd := d.testBit 14, home := true, addr := a,
                            saddr := if d.testBit 14 then a + gran else 0 }) s).advance (regLitLen o.val))) ∧
  (∀ (s : State) (o : CbdefTOp) (cells : List Nat), s.cRuns o.pr →
    let d := (s.me.regLit o.val).toNat
    let k := s.cur.slot
    let gran := d % 2 ^ 13
    let cask := d / 2 ^ 15 % 2 ^ 12
    let span := if d.testBit 14 then 2 * gran else gran
    let cnt := o.cnt.toNat + 1
    d < 2 ^ 27 → 0 < gran → gran ≤ 4096 → o.t.toNat + cnt ≤ 64 → d.testBit 13 = false → cask < 16 →
    (∀ i, i < cnt → (s.tileAt s.cur.core (64 * k + o.t.toNat + i)).valid = false) →
    ((s.core s.cur.core).cask (16 * k + cask)).holds = false →
    cellarFit ((s.core s.cur.core).cellarTaken k) span cnt = some cells →
      exec (.cbdefT o) s = .next (((List.range cnt).foldl (fun t i =>
        t.putTile s.cur.core (64 * k + o.t.toNat + i)
          { Tile.reset with valid := true, size := gran, shd := d.testBit 14, cask := cask, cell := nth 0 cells i, racked := true }) s).advance
            (regLitLen o.val))) ∧
  (∀ (s : State) (o : CbadvOp), s.cRuns o.pr →
    let h := s.me.handle o.n.toNat
    let r := s.ringRec h
    let n := (s.me.xr o.a + o.add.setWidth 64).toNat
    h.valid = true →
      ((h.role = 1 ∨ h.role = 3) → n ≤ r.free → n < 128 →
        (∀ i, i < n → let t := s.tileAt h.rcore (r.tile (r.pptr + i)); t.valid = true ∧ t.st = .ready ∧ t.sfill = false) →
        exec (.cbadvP o) s = .next ((s.modCore h.rcore fun co => co.putRing h.ring { r with pptr := (r.pptr + n) % 128 }).advance 8)) ∧
      ((h.role = 2 ∨ h.role = 3) → n ≤ r.filled → n < 128 →
        (∀ i, i < n → let t := s.tileAt h.rcore (r.tile (r.cptr + i)); t.valid = true ∧ t.busy = false) →
        exec (.cbadvC o) s = .next (((((List.range n).map fun i => r.tile (r.cptr + i)).foldl (fun s a => s.freeTile h.rcore a) s).modCore
          h.rcore fun co => co.putRing h.ring { r with cptr := (r.cptr + n) % 128 }).advance 8))) ∧
  (∀ (s : State) (o : CbqryOp), s.cRuns o.pr →
    let h := s.me.handle o.n.toNat
    let r := s.ringRec h
    h.valid = true →
      exec (.cbqry o) s = .next ((s.setX o.d (BitVec.ofNat 64 (r.filled + r.free * 2 ^ 8 + r.depth * 2 ^ 16 + r.pptr * 2 ^ 24
        + r.cptr * 2 ^ 32 + r.ft * 2 ^ 40))).advance 8))) ∧
  (
  ∀ (s : State) (o : TbindOp) (i : Nat), s.cRuns o.pr →
    let base := (s.me.xr o.a).toNat
    let size := (s.me.xr o.b).toNat
    base % 64 = 0 → size % 64 = 0 → size ≠ 0 → size / 64 ≤ 0xFFFFFFFF → base + size ≤ 2 ^ 52 →
    i < 4096 → (s.bindEntry i).testBit 0 = false → (∀ j, j < i → (s.bindEntry j).testBit 0 = true) →
    poisoned s.memPoison 64 s.bindBase (16 * (i + 1)) = false →
      exec (.tbind o) s = .next (((s.pwrite none (s.bindBase + 16 * i)
        (natLe 16 (1 + o.o.toNat * 2 ^ 16 + size / 64 * 2 ^ 32 + base * 2 ^ 64))).wrote.setX o.d (BitVec.ofNat 64 i)).advance 8))

/-- R428: a trap of a slot with a handler, outside handler mode, with its C stream alive and no drain under way, writes CAUSE,
EPC and EVA, sets HM, keeps where the C stream goes on in CRA, suspends its loops, and goes on at TVEC. -/
def Obligations.TrapEntryTakesTheHandler : Prop :=
  ∀ (s : State) (c k : Nat) (code : Code) (st : Strm) (epc eva : Word),
    let sl := s.slotAt c k
    sl.tvec ≠ 0 → sl.hm = false → sl.cs.ended = false → sl.stopping st = false →
      let t := (s.trapEntry c k code st epc eva).slotAt c k
      t.cause = BitVec.ofNat 64 (code.toNat + 256 * strmNo st) ∧ t.epc = epc ∧ t.eva = eva ∧ t.hm = true ∧
      t.cra = (if st = .c then epc else sl.cs.pc) ∧ t.cs.pc = sl.tvec ∧ t.susp = sl.cs.loops ∧ t.cs.loops = [] ∧
      t.cs.waiting = none ∧ t.x = sl.x ∧ t.p = sl.p ∧ t.v = sl.v ∧ t.flags = sl.flags ∧ t.fen = sl.fen ∧ t.tvec = sl.tvec ∧
      t.scr = sl.scr ∧ (st ≠ .v → t.vs.heldAt = sl.vs.heldAt) ∧ (st = .v → t.vs.heldAt = some code) ∧
      (s.trapEntry c k code st epc eva).mem = s.mem

/-- R428, R429, R200, R428, R430: without a handler, or in handler mode for a fault of the C stream, the task is stopped with the
code: its five streams are asked to stop, STOPC of its record takes the code, and the code, the stream and EVA are kept for
the fault record. `TRAP` enters the handler with code 0, EVA its immediate, and EPC the next instruction, and stops the task
as `HALT` does where there is none to enter; `ERET` from a trap of the C stream leaves handler mode and goes
on at EPC with the suspended loops whose body holds it; outside handler mode it raises F_ILLEGAL. (Log entry 37: the EPC that TRAP saves.) -/
def Obligations.UnhandledTrapsAndEret : Prop :=
  (
  ∀ (s : State) (c k : Nat) (code : Code) (st : Strm) (epc eva : Word),
    let sl := s.slotAt c k
    (sl.tvec = 0 ∨ (sl.hm = true ∧ st = .c)) → (sl.stopping st = false ∨ code = 0) → sl.task.isSome = true → sl.t.stopping = none →
      let t := (s.trapEntry c k code st epc eva).slotAt c k
      t.t.stopping = some code ∧ t.t.stopStrm = strmNo st ∧ t.t.stopEva = eva ∧ t.hm = sl.hm ∧ t.x = sl.x ∧
      ((s.trapEntry c k code st epc eva).lrec sl.t.part sl.t.recIdx).stopc = code ∧
      (sl.cs.ended = false → t.cs.stopReq = some (strongest sl.cs.stopReq .fault)) ∧
      (sl.vs.ended = false → t.vs.stopReq = some (strongest sl.vs.stopReq .fault)) ∧
      (∀ r ∈ [Strm.m, .x, .s], Sparse.get none t.estop (strmNo r) = some (strongest (Sparse.get none sl.estop (strmNo r)) .fault))) ∧
  (
  (∀ (s : State) (o : TrapOp), s.cRuns o.pr →
    (s.me.tvec ≠ 0 → s.me.hm = false → exec (.trap o) s =
      .next (s.trapEntry s.cur.core s.cur.slot 0 .c (s.me.cs.pc + 8) (BitVec.ofNat 64 o.imm.toNat))) ∧
    ((s.me.tvec = 0 ∨ s.me.hm = true) → exec (.trap o) s = .next ((s.stopTask s.cur.core s.cur.slot 0 7 0).advance 8))) ∧
  (∀ (s : State) (pr : Pred), s.cRuns pr → s.me.hm = true → s.me.cause.toNat / 256 % 8 = 0 →
      ∃ t, exec (.eret pr) s = .next t ∧ t.me.cs.loops = (leaveLoops s.me.epc s.me.susp).1 ∧ t.me.susp = [] ∧ t.me.hm = false ∧ t.me.cs.pc = s.me.epc ∧ t.me.cs.waiting = none ∧ t.me.x = s.me.x ∧
        t.me.wbar = none ∧ t.me.barWait = s.me.wbar ∧ t.me.vs.heldAt = none ∧ t.mem = s.mem) ∧
  (∀ (s : State) (pr : Pred), s.cRuns pr → s.me.hm = false →
    exec (.eret pr) s = .next (s.trapEntry s.cur.core s.cur.slot fIllegal .c s.me.cs.pc 0)))

/-- R46, R47, R199, R202, R203, R204, R205, R435, R205, R408, R428: `SYSRD` and `SYSWR` of every number of R46's table; a number
that is not listed, and a write of a register that may only be read, raise F_ILLEGAL. `TFENCE` goes on when no enabled flag
of its streams is set and raises F_ARITH otherwise; `FLAGS` takes the stream's six flags; `NOP` does nothing, `BRK` nothing
unless breakpoints are enabled; `HALT` stops the task with code 0; `WAIT` answers 0x82 when its time has passed and waits
until it has come. The events of a waiting stream. A `TRAP_ENTRY` of a launched task with a code that R432 lets enter
a handler is the trap itself, and with any other code of a trap nothing; when the target of a
waiting `WAIT` has come, it completes with 0; when the deadline of a waiting `SETLW` has come before the group has settled,
it completes with 2. (Log entry 36: an unlisted number is refused at decode.) -/
def Obligations.SystemRegisterResults : Prop :=
  (
  (∀ (s : State) (o : SysrdOp), s.cRuns o.pr →
    let sl := s.me
    let gives (v : Word) : Prop := exec (.sysrd o) s = .next ((s.setX o.d v).advance 8)
    (o.num = 0 → gives sl.flags) ∧ (o.num = 1 → gives sl.fen) ∧
    (o.num = 2 → gives (BitVec.ofNat 64 (s.core s.cur.core).seed.toNat)) ∧ (o.num = 3 → gives sl.cause) ∧
    (o.num = 4 → gives sl.epc) ∧ (o.num = 5 → gives sl.eva) ∧ (o.num = 6 → gives sl.tvec) ∧ (o.num = 7 → gives sl.scr) ∧
    (o.num = 8 → gives sl.sysId) ∧ (o.num = 9 → gives (BitVec.ofNat 64 s.cycle)) ∧
    (o.num = 10 → gives (BitVec.ofNat 64 s.now)) ∧ (o.num = 11 → gives sl.priv) ∧
    (11 < o.num.toNat → exec (.sysrd o) s = .next (s.trapEntry s.cur.core s.cur.slot fIllegal .c sl.cs.pc 0))) ∧
  (∀ (s : State) (o : SyswrOp), s.cRuns o.pr →
    let v := s.me.xr o.a
    let gives (f : Slot → Slot) : Prop := exec (.syswr o) s = .next ((s.modMe f).advance 8)
    (o.num = 0 → gives fun sl => { sl with flags := v &&& 0x3F3F3F3F3F }) ∧
    (o.num = 1 → gives fun sl => { sl with fen := v &&& 0x3F3F3F3F3F }) ∧
    (o.num = 4 → gives fun sl => { sl with epc := v }) ∧ (o.num = 6 → gives fun sl => { sl with tvec := v }) ∧
    (o.num = 7 → gives fun sl => { sl with scr := v }) ∧
    ((o.num = 2 ∨ o.num = 3 ∨ o.num = 5 ∨ 8 ≤ o.num.toNat) →
      exec (.syswr o) s = .next (s.trapEntry s.cur.core s.cur.slot fIllegal .c s.me.cs.pc 0)))) ∧
  (
  (∀ (s : State) (pr : Pred), s.cRuns pr →
    (s.me.flags &&& s.me.fen &&& 0x3F3F3F003F = 0 → exec (.tfence pr) s = .next (s.advance 4)) ∧
    (s.me.flags &&& s.me.fen &&& 0x3F3F3F003F ≠ 0 →
      exec (.tfence pr) s = .next (s.trapEntry s.cur.core s.cur.slot fArith .c s.me.cs.pc 0)) ∧
    exec (.nop pr) s = .next (s.advance 4) ∧
    (s.me.dbg.brken = false → exec (.brk pr) s = .next (s.advance 4)) ∧
    (s.me.dbg.brken = true → exec (.brk pr) s = .next ((s.haltSlot s.cur.core s.cur.slot 2).advance 4)) ∧
    exec (.halt pr) s = .next ((s.stopTask s.cur.core s.cur.slot 0 7 0).advance 4)) ∧
  (∀ (s : State) (pr : Pred), s.vRuns → s.me.flags &&& s.me.fen &&& 0x3F00 = 0 → exec (.tfenceV pr) s = .next (s.advance 4)) ∧
  (∀ (s : State) (o : DOp), s.cRuns o.pr →
    exec (.flags o) s = .next (((s.modMe fun sl => { sl with flags := sl.flags &&& 0xFFFFFFFFFFFFFFC0 }).setX o.d
      (BitVec.ofNat 64 (s.me.flags.toNat % 64))).advance 4)) ∧
  (∀ (s : State) (o : DOp), s.vRuns →
    exec (.flagsV o) s = .next ((s.modMe fun sl => { sl with flags := sl.flags &&& 0xFFFFFFFFFFFFC0FF }.putVDouble o.d.toNat
      (sl.flags.toNat / 256 % 64)).advance 4)) ∧
  (∀ (s : State) (o : WaitOp), s.cRuns o.pr →
    let t := s.me.xr o.a + BitVec.ofNat 64 o.imm.toNat
    (t.toNat < s.now → s.me.cs.waiting ≠ some (.time t) → exec (.wait o) s = .next ((s.setX o.d 0x82).advance 8)) ∧
    (t.toNat = s.now ∨ (t.toNat < s.now ∧ s.me.cs.waiting = some (.time t)) → exec (.wait o) s = .next ((s.setX o.d 0).advance 8)) ∧
    (s.now < t.toNat →
      exec (.wait o) s = .next (s.modMe fun sl => { sl with cs := { sl.cs with waiting := some (.time t) } })))) ∧
  (
  (∀ (s : State) (o : TrapArgs), (s.slotAt o.core o.slot).t.launched = true →
    let entered : Out := .next (s.trapEntry o.core o.slot o.code o.strm o.epc o.eva)
    (0 < o.code.toNat → o.code.toNat ≤ 0x10 → o.code ≠ fDepunder → o.code ≠ fSkew → exec (.trapEntry o) s = entered) ∧
    (o.code = 0 → o.strm = .c → (s.slotAt o.core o.slot).tvec ≠ 0 → (s.slotAt o.core o.slot).hm = false →
      exec (.trapEntry o) s = entered) ∧
    (0x10 < o.code.toNat ∨ o.code = fDepunder ∨ o.code = fSkew → exec (.trapEntry o) s = .next s)) ∧
  (∀ (s : State) (c k : Nat) (t : Word) (w : BitVec 96) (op : WaitOp) (l : Len), t.toNat ≤ s.now →
    (s.slotAt c k).cs.waiting = some (.time t) → (s.slotAt c k).cs.stopReq = none → (s.core c).frozen = false →
    s.fetch c k .c = .ok w → decodeC w = .ok (.wait op, l) →
    let u : State := { s with cur := ⟨c, k, .c⟩ }
    u.cRuns op.pr → u.me.xr op.a + BitVec.ofNat 64 op.imm.toNat = t →
      exec (.waitTargetReached ⟨c, k⟩) s = .next (s.completed ⟨c, k⟩ fun s => (s.setX op.d 0).advance 8)) ∧
  (∀ (s : State) (c k g dl : Nat) (w : BitVec 96) (op : SetlwOp) (l : Len), dl ≠ 0 → dl ≤ s.now →
    (s.slotAt c k).cs.waiting = some (.settle g dl) → (s.slotAt c k).cs.stopReq = none → (s.core c).frozen = false →
    s.fetch c k .c = .ok w → decodeC w = .ok (.setlw op, l) →
    let u : State := { s with cur := ⟨c, k, .c⟩ }
    let x := (u.part u.me.t.part).settleAt op.g.toNat
    u.cRuns op.pr → x.latch = false → (u.me.xr op.a).toNat = dl →
      exec (.setlwDeadline ⟨c, k⟩) s = .next (s.completed ⟨c, k⟩ fun s => (s.setX op.d 2).advance 8)))

/-- R376, R377, R385: `ACQ` and `TRYACQ` take an object that nobody holds and answer BROKEN once; the holder is told so, and
`TRYACQ` is told of another holder; `ACQ` of an object that another slot holds waits in its queue, and one that waited and has
been given the object in a freeze answers with BROKEN; `REL` of the own object gives it to the first waiter that no stop makes
withdraw, whose `ACQ` then has executed unless its core is frozen, and of any other object does nothing. The last arrival at a barrier completes the phase: the
barrier is empty again with its phase one higher, and X[d] is the new phase; an earlier arrival counts and waits for the
phase to change, and then ends with the same number. -/
def Obligations.SyncObjectAndBarrierResults : Prop :=
  (
  (∀ (s : State) (o : AcqOp), s.cRuns o.pr →
    let n := (s.me.xr o.a + o.imm.setWidth 64).toNat
    let p := s.me.t.part
    let x := (s.part p).obj n
    let gives (i : Instr) (v : Nat) : Prop := exec i s = .next ((s.setX o.d (BitVec.ofNat 64 (v + x.relcnt.toNat * 2 ^ 32))).advance 8)
    n ≤ 65535 →
      (x.held = none → ∀ i, i = .acq o ∨ i = .tryacq o → ∃ t, OnlyKnown s t ∧ exec i s = .next (((t.modPart p fun q =>
          q.setObj n { x with held := some s.myId, broken := false, waiters := x.waiters.filter (· != s.myId) }).setX o.d
            (BitVec.ofNat 64 (1 + (if x.broken then 8 else 0) + x.relcnt.toNat * 2 ^ 32))).advance 8)) ∧
      (x.held = some s.myId → (∀ n' d' sc', s.me.cs.waiting ≠ some (.object n' d' sc')) → gives (.acq o) 3 ∧ gives (.tryacq o) 3) ∧
      (x.held = some s.myId → (∃ n' d' sc', s.me.cs.waiting = some (.object n' d' sc')) →
        exec (.acq o) s = .next (((s.modPart p fun q => q.setObj n { x with broken := false }).setX o.d
          (BitVec.ofNat 64 (1 + (if x.broken then 8 else 0) + x.relcnt.toNat * 2 ^ 32))).advance 8)) ∧
      (∀ w, x.held = some w → w ≠ s.myId → gives (.tryacq o) 4 ∧
        exec (.acq o) s = .next ((s.modPart p fun q => q.setObj n
          { x with waiters := if x.waiters.contains s.myId then x.waiters else x.waiters ++ [s.myId] }).modMe fun sl =>
            { sl with cs := { sl.cs with waiting := some (.object n o.d o.scope.toNat) } })) ∧
      (x.held ≠ some s.myId → gives (.rel o) 16) ∧
      (x.held = some s.myId → x.waiters = [] → ∃ t, OnlyKnown s t ∧ exec (.rel o) s =
        .next (((t.setX o.d (BitVec.ofNat 64 (1 + (x.relcnt + 1).toNat * 2 ^ 32))).modPart p fun q =>
          q.setObj n { x with held := none, relcnt := x.relcnt + 1 }).advance 8)) ∧
      (∀ w, x.held = some s.myId → (x.waiters.find? fun w => (s.slotAt w.core w.slot).cs.stopReq.isNone) = some w → w ≠ s.myId →
        (∃ n' d' sc', (s.slotAt w.core w.slot).cs.waiting = some (.object n' d' sc')) →
          ∃ t, exec (.rel o) s = .next t ∧ ((t.part p).obj n).held = some w ∧ ((t.part p).obj n).relcnt = x.relcnt + 1 ∧
            ((s.core w.core).frozen = false → (t.slotAt w.core w.slot).cs.waiting = none) ∧
            ((s.core w.core).frozen = true → (t.slotAt w.core w.slot).cs.waiting = (s.slotAt w.core w.slot).cs.waiting)))) ∧
  (
  ∀ (s : State) (o : BarOp), s.cRuns o.pr →
    let p := s.me.t.part
    let b := o.b.toNat
    let n := (s.me.xr o.a).toNat
    let x := (s.part p).bar b
    let u := (s.trace s.cur.core s.cur.slot 7 .c 0 b).pass s.agent (.bar p b x.phase.toNat s.myId o.scope.toNat)
    (∀ ph, s.me.barWait = some (b, ph) →
      (x.phase.toNat ≠ ph → exec (.bar o) s = .next ((barEnd s b o.d o.scope (ph + 1)).advance 8)) ∧
      (x.phase.toNat = ph → exec (.bar o) s = .next (s.modMe fun sl => { sl with cs := { sl.cs with waiting := some (.barrier b ph) } }))) ∧
    (s.me.barWait = none → 0 < n → n ≤ 65535 → (x.arrived = 0 ∨ x.expect = n) →
      (x.arrived + 1 = n → exec (.bar o) s = .next ((barEnd (u.modPart p fun q =>
        q.setBar b { expect := 0, arrived := 0, phase := x.phase + 1 }) b o.d o.scope (x.phase.toNat + 1)).advance 8)) ∧
      (x.arrived + 1 ≠ n → exec (.bar o) s = .next (((u.modPart p fun q => q.setBar b
        { x with expect := n, arrived := x.arrived + 1 }).modMe fun sl => { sl with barWait := some (b, x.phase.toNat) }).modMe fun sl =>
          { sl with cs := { sl.cs with waiting := some (.barrier b x.phase.toNat) } }))) ∧
    (s.me.barWait = none → (n = 0 ∨ 65535 < n ∨ (0 < x.arrived ∧ x.expect ≠ n)) →
      exec (.bar o) s = .next (s.trapEntry s.cur.core s.cur.slot fBound .c s.me.cs.pc 0)))

/-- R389, R403, R404: `PUBV` exchanges the buffers of a tile, makes it READY at the next vintage and reports the vintage, and of
a tile sealed since the task's run began drops the shadow and reports SEALED; `SEAL` reports the final vintage and whether
the tile was sealed already; `SEAL.R` does so from afar, and its arrival seals the tile. (Log entry 10: when a remote seal
arrives.) -/
def Obligations.PublishAndSealResults : Prop :=
  (∀ (s : State) (o : DTile), s.cRuns o.pr →
    let c := s.cur.core
    let a := 64 * s.cur.slot + o.t.toNat
    let t := s.tileAt c a
    t.valid = true → (∀ x ∈ (s.core c).sealsIn, x.1 ≠ a) →
      (t.shd = true → t.sfill = true → t.sealed = false → s.shadowBusy c a = false → t.vint < 65534 → (s.core c).regsOn a = [] →
        exec (.pubv o) s = .next ((((s.putTile c a
            { t with addr := t.saddr, saddr := t.addr, sfill := false, sfillCmd := false, st := .ready, vint := t.vint + 1,
                     oldReaders := t.readers }).count c 0x16 (some s.cur.slot)).setX o.d
              (BitVec.ofNat 64 (t.vint + 1))).advance 8)) ∧
      (t.shd = true → t.sealed = true → s.shadowBusy c a = false → s.me.t.runStart ≤ t.sealAt →
        exec (.pubv o) s = .next (((s.putTile c a { t with sfill := false, sfillCmd := false }).setX o.d
          (BitVec.ofNat 64 (t.vint + 0x85 * 2 ^ 16))).advance 8)) ∧
      (t.vint ≠ 0 → t.sealed = false → t.sfill = false →
        exec (.seal o) s = .next (((s.putTile c a { t with sealed := true, sealAt := s.seq, sfillCmd := false }).setX o.d
          (BitVec.ofNat 64 t.vint)).advance 8)) ∧
      (t.vint ≠ 0 → t.sealed = true → exec (.seal o) s = .next ((s.setX o.d (BitVec.ofNat 64 (t.vint + 2 ^ 16))).advance 8)) ∧
      (t.vint = 0 → exec (.seal o) s = .next (s.trapEntry c s.cur.slot fTilestate .c s.me.cs.pc 0))) ∧
  (∀ (s : State) (o : DCap), s.cRuns o.pr →
    let cap := s.me.cap o.c.toNat
    let c := capCore cap
    let a := capObj cap
    let t := s.tileAt c a
    capGrants cap 4 4 = true → capDev cap = s.mgmt.dev → a < 512 → t.valid = true → t.vint ≠ 0 →
      (t.sealed = true → exec (.sealR o) s = .next ((s.setX o.d (BitVec.ofNat 64 (t.vint + 2 ^ 16))).advance 8)) ∧
      (t.sealed = false → (∀ x ∈ (s.core c).sealsIn, x.1 ≠ a) → exec (.sealR o) s =
        .next (((s.modCore c fun co => { co with sealsIn := co.sealsIn ++ [(a, s.cycle)] }).setX o.d (BitVec.ofNat 64 t.vint)).advance 8)) ∧
      (t.sealed = false → (∃ x ∈ (s.core c).sealsIn, x.1 = a) → exec (.sealR o) s =
        .next (((s.modCore c fun co => co).setX o.d (BitVec.ofNat 64 (t.vint + 2 ^ 16))).advance 8))) ∧
  (∀ (s : State) (o : TileRef), (∃ x ∈ (s.core o.core).sealsIn, x.1 = o.abs) →
    exec (.remoteSealArrival o) s = .next ((s.modCore o.core fun co =>
      { co with sealsIn := co.sealsIn.filter fun x => x.1 != o.abs }).sealTile o.core o.abs))

/-- R394, R395, R405, R406: `TASTE` of an acceptable input registers its entry as TASTED at the tile's vintage and reports it,
and of any other input leaves the entry at WAIT, where it waits until the input is acceptable; `TASTE.R` does the same through
a capability; `VNQ` reports a tile and an entry. -/
def Obligations.TasteResults : Prop :=
  (∀ (s : State) (e : Nat) (d : Reg) (fin : Bool) (m lc : Word) (oc a : Nat) (i : Instr) (pr : Pred), s.cRuns pr →
    ((∃ o : TasteOp, i = .taste o ∧ o.pr = pr ∧ o.e.toNat = e ∧ o.d = d ∧ o.fin = fin ∧ s.me.xr o.a = m ∧ s.me.xr o.b = lc ∧
        oc = s.cur.core ∧ a = 64 * s.cur.slot + o.t.toNat) ∨
      (∃ o : TasteROp, i = .tasteR o ∧ o.pr = pr ∧ o.e.toNat = e ∧ o.d = d ∧ o.fin = fin ∧ s.me.xr o.a = m ∧ s.me.xr o.b = lc ∧
        capGrants (s.me.cap o.c.toNat) 4 2 = true ∧ capDev (s.me.cap o.c.toNat) = s.mgmt.dev ∧
        oc = capCore (s.me.cap o.c.toNat) ∧ a = capObj (s.me.cap o.c.toNat) ∧ a < 512)) →
    (s.tileAt oc a).valid = true → m.toNat ≤ 65534 → lc.toNat < 128 → (s.core oc).regs.length < 256 →
    (s.core (s.me.te e).core).regOf s.cur.core s.cur.slot e = none → (s.me.te e).lcValid = false → s.me.cs.waiting = none →
      let t := s.tileAt oc a
      let te : Taste := { st := .wait, core := oc, abs := a, fin := fin, minv := m.toNat, lcValid := lc.getLsbD 6,
                          lc := lc.toNat % 64, tv := 0 }
      let final := s.me.finalEff fin
      ((t.sealed = true ∨ (final = false ∧ max m.toNat 1 ≤ t.vint)) →
        exec i s = .next ((((((s.modMe (·.setTe e te)).modCore oc fun co =>
          { co with regs := ⟨a, s.cur.core, s.cur.slot, e, t.vint⟩ :: co.regs }).modTile oc a fun t => { t with spent := false }).modMe (·.setTe e { te with st := .tasted, tv := t.vint })).setX d
            (BitVec.ofNat 64 (t.vint + (if t.sealed then 2 ^ 16 else 0) + (if final then 2 ^ 19 else 0)
              + s.me.t.refcnt * 2 ^ 24))).advance 8)) ∧
      (¬ (t.sealed = true ∨ (final = false ∧ max m.toNat 1 ≤ t.vint)) →
        ∃ w, exec i s = .next ((s.modMe (·.setTe e te)).modMe fun sl => { sl with cs := { sl.cs with waiting := some w } }))) ∧
  (∀ (s : State) (o : TasteOp), s.cRuns o.pr → s.me.cs.waiting.isSome = true →
    let c := s.cur.core
    let a := (s.me.te o.e.toNat).abs
    let e := o.e.toNat
    let m := s.me.xr o.a
    let t := s.tileAt c a
    let final := s.me.finalEff o.fin
    (s.me.te o.e.toNat).core = c → (t.sealed = true ∨ (final = false ∧ max m.toNat 1 ≤ t.vint)) → (s.core c).regs.length < 256 →
      exec (.taste o) s = .next (((((s.modCore c fun co =>
        { co with regs := ⟨a, c, s.cur.slot, e, t.vint⟩ :: co.regs }).modTile c a fun t => { t with spent := false }).modMe
          (·.setTe e { st := .tasted, core := c, abs := a, fin := o.fin, minv := m.toNat, lcValid := (s.me.xr o.b).getLsbD 6,
                       lc := (s.me.xr o.b).toNat % 64, tv := t.vint })).setX o.d
            (BitVec.ofNat 64 (t.vint + (if t.sealed then 2 ^ 16 else 0) + (if final then 2 ^ 19 else 0)
              + s.me.t.refcnt * 2 ^ 24))).advance 8)) ∧
  (∀ (s : State) (o : DTile), s.cRuns o.pr → (s.tileAt s.cur.core (64 * s.cur.slot + o.t.toNat)).valid = true →
    exec (.vnq o) s = .next ((s.setX o.d (vnqWord s s.cur.core (64 * s.cur.slot + o.t.toNat))).advance 8)) ∧
  (∀ (s : State) (o : DCap), s.cRuns o.pr →
    let cap := s.me.cap o.c.toNat
    (capGrants cap 4 2 = true → capDev cap = s.mgmt.dev → capObj cap < 512 → (s.tileAt (capCore cap) (capObj cap)).valid = true →
      exec (.vnqR o) s = .next ((s.setX o.d (vnqWord s (capCore cap) (capObj cap))).advance 8)) ∧
    (capGrants cap 4 2 = false → exec (.vnqR o) s = .next (s.trapEntry s.cur.core s.cur.slot fCap .c s.me.cs.pc 0))) ∧
  (∀ (s : State) (o : VnqEOp), s.cRuns o.pr →
    let te := s.me.te o.e.toNat
    exec (.vnqE o) s = .next ((s.setX o.d (BitVec.ofNat 64 ((if te.st = .tasted ∨ te.st = .pending then te.tv else 0)
      + tasteStNo te.st * 2 ^ 16 + (if s.me.finalEff te.fin then 2 ^ 19 else 0) + s.me.t.refcnt * 2 ^ 24
      + s.me.t.refire * 2 ^ 28))).advance 8))

/-- R400, R407, R408, R216: `SETDEF` replaces a settle group and clears its latch; `SETLW` of an undefined group answers 3; of a defined one it answers 0
once the group is latched and 2 when its deadline has come, and else waits; a settlement latches a defined group whose condition
holds. `RACK_COMPLETE` ends a racking and `FETCH_BACK_COMPLETE` a fetch-back, after which the cask is resident; neither
changes anything when no such copy is under way or the core is frozen, nor ever a tile of another cask. (Log entry 9: a copy is one event.) -/
def Obligations.SettleAndCaskResults : Prop :=
  (
  (∀ (s : State) (o : SetdefOp), s.cRuns o.pr →
    let x := (s.me.xr o.a).toNat
    let d := (s.me.xr o.b).toNat
    let n := d % 2 ^ 7
    let ws := (List.range n).map fun i => s.homeNat (x + 4 * i) 4
    x % 4 = 0 → d < 2 ^ 20 → n ≤ 64 → x + 4 * n ≤ 0x40000 →
    (∀ w ∈ ws, w < 2 ^ 17 ∧ (s.part s.me.t.part).coreMask.getLsbD (w / 2 ^ 9) = true) → (n = 0 ∨ s.homePoison x (4 * n) = false) →
      exec (.setdef o) s = .next (((s.modPart s.me.t.part fun q => q.setSettle o.g.toNat
        { defined := n != 0, members := settleMembers ws, rel := n != 0 && d.testBit 19,
          ridx := if n = 0 then 0 else d / 2 ^ 7 % 2 ^ 12, latch := false }).setX o.d 0).advance 8)) ∧
  (∀ (s : State) (o : SetlwOp), s.cRuns o.pr →
    let x := (s.part s.me.t.part).settleAt o.g.toNat
    let dl := (s.me.xr o.a).toNat
    (x.defined = false → s.me.cs.waiting = none → exec (.setlw o) s = .next ((s.setX o.d 3).advance 8)) ∧
    (x.defined = true → x.latch = true → exec (.setlw o) s = .next ((s.setX o.d 0).advance 8)) ∧
    (x.defined = true → x.latch = false → dl ≠ 0 → dl ≤ s.now → exec (.setlw o) s = .next ((s.setX o.d 2).advance 8)) ∧
    (x.defined = true → x.latch = false → (dl = 0 ∨ s.now < dl) →
      exec (.setlw o) s = .next (s.modMe fun sl => { sl with cs := { sl.cs with waiting := some (.settle o.g.toNat dl) } }))) ∧
  (∀ (s : State) (p g : Nat),
    let x := (s.part p).settleAt g
    x.defined = true → x.latch = false → s.settled x = true →
      ∃ t, exec (.settlement ⟨p, g⟩) s = .next t ∧ (t.part p).settleAt g = { x with latch := true })) ∧
  (
  (∀ (s : State) (o : CaskRef), ∃ t, exec (.rackComplete o) s = .next t ∧
    (((s.core o.core).cask o.cask).copy ≠ .racking ∨ (s.core o.core).frozen = true → t = s) ∧
    (((s.core o.core).cask o.cask).copy = .racking → (s.core o.core).frozen = false → ((t.core o.core).cask o.cask).copy = .none ∧
      ((t.core o.core).cask o.cask).racked = ((s.core o.core).cask o.cask).racked) ∧
    (∀ a, (∀ x, (a, x) ∉ (s.core o.core).caskTiles o.cask) → t.tileAt o.core a = s.tileAt o.core a) ∧ t.mem = s.mem) ∧
  (∀ (s : State) (o : CaskRef), ∃ t, exec (.fetchBackComplete o) s = .next t ∧
    (((s.core o.core).cask o.cask).copy ≠ .fetching ∨ (s.core o.core).frozen = true → t = s) ∧
    (((s.core o.core).cask o.cask).copy = .fetching → (s.core o.core).frozen = false →
      ((t.core o.core).cask o.cask).racked = false ∧ ((t.core o.core).cask o.cask).copy = .none) ∧
    (∀ a, (∀ x, (a, x) ∉ (s.core o.core).caskTiles o.cask) → t.tileAt o.core a = s.tileAt o.core a) ∧ t.mem = s.mem))

/-- R31, R29, R31, R107 to R109: a decrement of an ARMED record takes one from its COUNT and, at the last, makes it READY; a
decrement that finds another state or a COUNT of 0 sets STOPC to F_DEPUNDER, withdraws a READY record, and leaves any other
in its state (R33). `LARM` has no effect on a record that is held; it arms any other whose image passes its checks, from the
image, READY at once where INIT is 0; a refused arm keeps the state and sets STOPC. `LQRY` reads. `LPATCH` writes the field
of the image, and no other byte. (Log entries 38: the TAG of a DEPUNDER entry; 41: a poisoned image is refused.) -/
def Obligations.DecrementResults : Prop :=
  (
  ∀ (s : State) (p i tag : Nat) (from' : Option (Nat × Nat)),
    let r := s.lrec p i
    let t := (s.decrement p i tag from').lrec p i
    (r.st = .armed → 2 ≤ r.count → t.st = .armed ∧ t.count = r.count - 1) ∧
    (r.st = .armed → r.count = 1 → t.st = .ready ∧ t.count = 0 ∧ t.stamp = (s.part p).nextStamp ∧
      ((s.decrement p i tag from').part p).nextStamp = (s.part p).nextStamp + 1) ∧
    (r.st ≠ .armed ∨ r.count = 0 → t.stopc = fDepunder ∧ t.count = r.count ∧
      t.st = (if r.st = .ready then .stopped else r.st) ∧ (r.st = .running → t.depunder = true)) ∧
    t.gen = r.gen ∧ t.held = r.held ∧ t.owner = r.owner) ∧
  (
  (∀ (s : State) (o : LarmOp), s.cRuns o.pr →
    let i := (s.me.xr o.a + o.imm.setWidth 64).toNat
    let p := s.me.t.part
    let r := s.lrec p i
    let len := if o.wide then 12 else 8
    let v := s.lrecImage p i
    let held := r.st = .armed ∨ r.st = .ready ∨ r.st = .running
    let gives (u : State) (c : Code) : Prop :=
      exec (.larm o) s = .next (((u.setX o.d (recStatus u p i c.toNat)).modMe fun sl => sl.modTask fun t => { t with wrote := true }).advance len)
    i ≤ 4095 →
      exec (.lqry o) s = .next ((s.setX o.d (recStatus s p i r.stopc.toNat)).advance len) ∧
      (held → gives s 0) ∧
      (¬ held → poisoned s.memPoison 64 (s.lrecAddr p i) 64 = true → gives (s.setLrec p i { r with stopc := fPoison }) fPoison) ∧
      (¬ held → poisoned s.memPoison 64 (s.lrecAddr p i) 64 = false → ∀ c, armCheck v = some c →
        gives (s.setLrec p i { r with stopc := c }) c) ∧
      (¬ held → poisoned s.memPoison 64 (s.lrecAddr p i) 64 = false → armCheck v = none →
        ∃ u, gives u 0 ∧ (u.lrec p i).st = (if v / 2 ^ 32 % 2 ^ 16 = 0 then .ready else .armed) ∧
          (u.lrec p i).held = BitVec.ofNat 512 v ∧ (u.lrec p i).count = v / 2 ^ 32 % 2 ^ 16 ∧
          (u.lrec p i).gen = r.gen)) ∧
  (∀ (s : State) (o : LpatchOp), s.cRuns o.pr →
    let i := (s.me.xr o.a + o.imm.setWidth 64).toNat
    let p := s.me.t.part
    let v := (s.me.regLit o.val).toNat
    let gives (lo n : Nat) : Prop :=
      let at' := s.lrecAddr p i + lo / 8
      let m := (lo % 8 + n + 7) / 8
      let u := s.pwrite none at' (natLe m (setBitsN (s.mem.nat at' m) (lo % 8) n v))
      exec (.lpatch o) s = .next (((u.setX o.d (recStatus u p i 0)).modMe fun sl => sl.modTask fun t => { t with wrote := true }).advance
        (regLitLen o.val))
    i ≤ 4095 →
      (o.sel = 0 → v ≤ 3 → gives 3 2) ∧ (o.sel = 1 → v ≤ 0xFFFF → gives 32 16) ∧ (o.sel = 2 → v ≤ 0xFFFF → gives 48 16) ∧
      (o.sel = 3 → v ≤ 0xFFFFFFFF → gives 256 32) ∧ (o.sel = 4 → gives 384 64) ∧
      (o.sel = 5 → v < 2 ^ 52 → v % 4 = 0 → gives 320 64) ∧ (o.sel = 6 → v < 2 ^ 52 → v % 4 = 0 → gives 192 64) ∧
      (o.sel = 7 → v < 2 ^ 52 → v % 128 = 0 → gives 64 64)))

/-- R93, R97, R91, R93, R99, R101, R105, R400, R401: a packet that the QE takes, in its queue's turn, moves HEAD and receives the next PSEQ; accepted
and not stale, it is journalled ACCEPT and has the effect of its KIND; stale, it is journalled STALE and has none. A tail
write moves TAIL, or sets OVERRUN beyond the ring; a write of QCFG that sets EN empties the queue; an admitted peer packet is
stored at TAIL; a READY record whose time has come becomes eligible; a settled group is latched and its record decremented.
(Log entry 11: reserved packets.) -/
def Obligations.QueueEngineResults : Prop :=
  (
  ∀ (s : State) (f q p v : Nat), s.queueReady f q = true → s.queueTurn f q = true → s.packetAt f q = .ok v →
    packetCheck v = .ok () → s.partOfFn f = some p →
    let i := v / 2 ^ 8 % 2 ^ 12
    let tag := v / 2 ^ 32 % 2 ^ 32
    let pseq := (s.fn f).pseq
    let s1 := (s.modFn f fun fn => { fn.putQ q { fn.q q with head := (fn.q q).head + 1 } with pseq := fn.pseq + 1 }).modPart p
      fun x => { x with lastQ := 8 * f + q + 1 }
    let t := s1.journal f ⟨1, pseq, 0, q, i, tag, (s.lrec p i).gen.toNat⟩
    let op : List Instr := [.packetNop ⟨f, q⟩, .packetArm ⟨f, q⟩, .packetDec ⟨f, q⟩, .packetPatch ⟨f, q⟩, .packetPatcharm ⟨f, q⟩]
    let ev := op.getD (v % 16) (.packetNop ⟨f, q⟩)
    ((v.testBit 25 = false ∨ (s.lrec p i).gen.toNat = v / 2 ^ 128 % 2 ^ 32) →
      (v % 16 = 0 → exec (.packetNop ⟨f, q⟩) s = .next t) ∧
      (v % 16 = 1 → exec (.packetArm ⟨f, q⟩) s = .next (t.arm p i (some (f, pseq, q, tag))).1) ∧
      (v % 16 = 2 → exec (.packetDec ⟨f, q⟩) s = .next (t.decrement p i tag (some (pseq, q)))) ∧
      (∀ lo n, patchCheck (v / 2 ^ 20 % 2 ^ 5) (v / 2 ^ 64 % 2 ^ 64) = .ok (lo, n) →
        let at' := t.lrecAddr p i + lo / 8
        let m := (lo % 8 + n + 7) / 8
        let u := t.pwrite none at' (natLe m (setBitsN (t.mem.nat at' m) (lo % 8) n (v / 2 ^ 64 % 2 ^ 64)))
        (v % 16 = 3 → exec (.packetPatch ⟨f, q⟩) s = .next u) ∧
        (v % 16 = 4 → exec (.packetPatcharm ⟨f, q⟩) s = .next (u.arm p i (some (f, pseq, q, tag))).1))) ∧
    (v.testBit 25 = true → (s.lrec p i).gen.toNat ≠ v / 2 ^ 128 % 2 ^ 32 → v % 16 < 5 →
      exec ev s = .next (s1.journal f ⟨3, pseq, 0, q, i, tag, (s.lrec p i).gen.toNat⟩))) ∧
  (
  (∀ (s : State) (f n : Nat) (v : Word), (s.fn f).ready = true → n < 8 →
    let q := (s.fn f).q n
    let v32 : BitVec 32 := v.setWidth 32
    (q.fab = false → (s.fn f).sw = .isIn → q.overrun = false →
      exec (.qtailWrite ⟨f, n, v⟩) s = .next (s.modQ f n fun q =>
        if 2 ^ q.lsz < (v32 - q.head).toNat then { q with overrun := true } else { q with tail := v32 })) ∧
    (q.en = false → 4 ≤ v.toNat / 4 % 16 → v.toNat / 4 % 16 ≤ 12 → v.getLsbD 0 = true →
      exec (.qcfgWrite ⟨f, n, v⟩) s = .next (s.modQ f n fun q =>
        { q with fab := v.getLsbD 1, lsz := v.toNat / 4 % 16, en := true, head := 0, tail := 0, overrun := false, heldTail := none }))) ∧
  (∀ (s : State) (o : PeerPacket) (p : Nat) (ps : List (Nat × Nat)), s.partOfFn o.fn = some p →
    let q := (s.fn o.fn).q o.q
    (s.part p).admits o.sdev o.spart o.fn o.q (o.pkt.toNat % 16) = true → q.en = true → q.fab = true → o.q < 8 →
    (q.tail - q.head).toNat < 2 ^ q.lsz → (s.fn o.fn).sw = .isIn →
    s.pieces none o.fn p .wr (q.base.toNat + 64 * (q.tail.toNat % 2 ^ q.lsz)) 64 = .ok ps →
      exec (.peerPacketArrival o) s = .next ((s.pwrites none ps (natLe 64 o.pkt.toNat)).modQ o.fn o.q fun q => { q with tail := q.tail + 1 })) ∧
  (∀ (s : State) (p i : Nat),
    let r := s.lrec p i
    r.st = .ready → r.eligible = false → r.held.toNat / 2 ^ 384 % 2 ^ 64 ≤ s.now →
      ∃ t, exec (.timeTrigger ⟨p, i⟩) s = .next t ∧ t.lrec p i = { r with eligible := true } ∧ t.mem = s.mem) ∧
  (∀ (s : State) (p g : Nat),
    let x := (s.part p).settleAt g
    let u := s.modPart p fun q => q.setSettle g { x with latch := true }
    x.defined = true → x.latch = false → s.settled x = true →
      (x.rel = false → exec (.settlement ⟨p, g⟩) s = .next u) ∧
      (x.rel = true → exec (.settlement ⟨p, g⟩) s = .next (u.decrement p x.ridx (0x80000000 + g) none))))

/-- R210, R354, R358, R359, R354, R360, R361: `SKINIT` writes a new summary into the tile: an EMPTY tile becomes READY, a READY
one without readers is rewritten, a shadow takes it and sets SFILL, a sealed shadow discards it. `SKMRG` and `SKMRG.R` merge
a READY source into a READY tile. The queries of a READY summary: `SKQNT` a quantile, `SKEST` and `SKEST.X` the weight, count
or estimate and the other count, `SKTOP` and `SKTOP.C` the entry of a rank, 0 beyond the last; a summary of another kind
raises F_FORMAT. -/
def Obligations.SummaryResults : Prop :=
  (
  (∀ (s : State) (o : SkinitOp) (c a : Nat), s.cRuns o.pr → s.names o.top true c a →
    let t := s.tileAt c a
    let r := newRec o.kind.toNat ((s.me.xr o.a).toNat % 2 ^ 32)
    let done (u : State) : Prop := exec (.skinit o) s = .next (u.advance 8)
    t.valid = true → t.racked = false → recSize o.kind.toNat ≤ t.bytes →
      (t.shd = false → t.sealed = false → t.st = .empty → done ((s.putRec c t.at r).tileReady c a).wrote) ∧
      (t.shd = false → t.sealed = false → t.st = .ready → t.readers = 0 → done (s.putRec c t.at r).wrote) ∧
      (t.shd = true → t.sealed = false → t.sfillCmd = false → t.oldReaders = 0 →
        ¬ (t.st = .draining ∧ ((s.core c).cask (caskOf a t)).copy = .racking) →
        done ((s.putRec c t.shadowAt r).modTile c a fun t => { t with sfill := true }).wrote) ∧
      (t.shd = true → t.sealed = true → done (s.putCore c (s.core c))) ∧
      (t.shd = false → t.sealed = true →
        exec (.skinit o) s = .next (s.trapEntry s.cur.core s.cur.slot fVintage .c s.me.cs.pc 0))) ∧
  (∀ (s : State) (i : Instr) (pr : Pred) (c a sc sa : Nat) (src dst : Rec), s.cRuns pr →
    ((∃ o : SkmrgOp, i = .skmrg o ∧ o.pr = pr ∧ s.names o.top true c a ∧ (s.me.xr o.a).toNat < 2 ^ 12 ∧
        s.names ((s.me.xr o.a).setWidth 12) false sc sa ∧ ¬ (sc = c ∧ sa = a)) ∨
      (∃ o : SkmrgROp, i = .skmrgR o ∧ o.pr = pr ∧ s.names o.top true c a ∧ capGrants (s.me.cap o.c.toNat) 4 2 = true ∧
        capDev (s.me.cap o.c.toNat) = s.mgmt.dev ∧ sc = capCore (s.me.cap o.c.toNat) ∧ sa = capObj (s.me.cap o.c.toNat) ∧ sa < 512)) →
    let t := s.tileAt c a
    let u := s.tileAt sc sa
    t.valid = true → t.racked = false → t.shd = false → t.sealed = false → t.st = .ready → t.readers = 0 →
    u.valid = true → u.racked = false → u.st = .ready → s.storeWaits sc sa = false →
    s.recAt sc u.at u.bytes = .ok src → s.recAt c t.at t.bytes = .ok dst → mergeable dst src = true →
      let m := dst.merge src ((s.core s.cur.core).gen 5)
      exec i s = .next ((((s.putRec c t.at m.1).modCore s.cur.core fun co => co.setGen 5 m.2).wrote).advance 8))) ∧
  (
  ∀ (s : State) (pr : Pred) (top : BitVec 12) (d x : Reg) (c a : Nat) (r : Rec), s.cRuns pr → s.names top false c a →
    let t := s.tileAt c a
    t.valid = true → t.racked = false → t.st = .ready → s.storeWaits c a = false → s.recAt c t.at t.bytes = .ok r →
      let gives (i : Instr) (v : Nat) : Prop := exec i s = .next ((s.setX d (BitVec.ofNat 64 v)).advance 8)
      let n := (s.me.xr x).toNat
      (∀ q, r = .qsk q →
        (∀ m e, quantileArg (fdec 0 0 n) = some (m, e) → gives (.skqnt ⟨pr, d, x, top⟩) ((q.quantile m e).getD 0x7FC00000)) ∧
        gives (.skest ⟨pr, d, top⟩) (min (2 ^ 64 - 1) q.weight) ∧ gives (.skestX ⟨pr, d, top⟩) q.errb ∧
        exec (.sktop ⟨pr, d, x, top⟩) s = .next (s.trapEntry s.cur.core s.cur.slot fFormat .c s.me.cs.pc 0)) ∧
      (∀ h, r = .hhs h →
        gives (.skest ⟨pr, d, top⟩) h.entries.length ∧ gives (.skestX ⟨pr, d, top⟩) h.count ∧
        (∀ e, topEntry h n = some e → gives (.sktop ⟨pr, d, x, top⟩) (e.key + e.err * 2 ^ 32) ∧ gives (.sktopC ⟨pr, d, x, top⟩) e.cnt) ∧
        (topEntry h n = none → gives (.sktop ⟨pr, d, x, top⟩) 0 ∧ gives (.sktopC ⟨pr, d, x, top⟩) 0)) ∧
      (∀ k, r = .dcs k → gives (.skest ⟨pr, d, top⟩) k.estimate ∧ gives (.skestX ⟨pr, d, top⟩) k.zeros))

/-- R155, R158, R159, R162, R159 to R161: `TKSET` and `TKSET.T` replace the holding of the slot and of a tile, and move ISSUED of
both currencies; `DRSEED` sets every generator state of the core and `DRNEXT` reads one and its successor; `TKGET` reads. A
privileged `CURSET` makes a currency below its parent or replaces its funding, `CURSET.CLR` removes one that has issued
nothing, `CURISS` replaces a reserve; all keep ISSUED of the currency above; each raises F_PRIV for other tasks. -/
def Obligations.TicketAndCurrencyResults : Prop :=
  (
  (∀ (s : State) (o : TksetOp), s.cRuns o.pr →
    let h := (s.me.regLit o.amt).toNat
    let k := (s.me.xr o.b).toNat
    let u := s.withdraw s.me.hold
    h ≤ 0xFFFFFFFF → k ≤ 255 → (s.cur? k).valid = true → (s.me.privileged = true ∨ s.below (s.fn s.me.t.fn).cur 5 k = true) →
      ((u.cur? k).issued + h ≤ 0xFFFFFFFF → exec (.tkset o) s = .next (((u.modCur k fun c => { c with issued := c.issued + h }).modMe fun sl =>
        { sl with hold := ⟨k, h⟩ }).advance (regLitLen o.amt))) ∧
      (0xFFFFFFFF < (u.cur? k).issued + h → exec (.tkset o) s = .next (s.trapEntry s.cur.core s.cur.slot fCurrency .c s.me.cs.pc 0))) ∧
  (∀ (s : State) (o : TksetTOp), s.cRuns o.pr →
    let h := (s.me.regLit o.amt).toNat
    let k := (s.me.xr o.b).toNat
    let a := 64 * s.cur.slot + o.t.toNat
    let u := s.withdraw (s.tileAt s.cur.core a).hold
    h ≤ 0xFFFFFFFF → k ≤ 255 → (s.cur? k).valid = true → (s.me.privileged = true ∨ s.below (s.fn s.me.t.fn).cur 5 k = true) →
    o.t.toNat ≤ 63 → (s.tileAt s.cur.core a).valid = true → (u.cur? k).issued + h ≤ 0xFFFFFFFF →
      exec (.tksetT o) s = .next (((u.modCur k fun c => { c with issued := c.issued + h }).modTile s.cur.core a fun t =>
        { t with hold := ⟨k, h⟩ }).advance (regLitLen o.amt))) ∧
  (∀ (s : State) (o : TkgetOp), s.cRuns o.pr →
    let k := (s.me.xr o.a).toNat
    let gives (v : Nat) : Prop := exec (.tkget o) s = .next ((s.setX o.d (BitVec.ofNat 64 v)).advance (if o.wide then 12 else 8))
    (o.sel = 0 → gives (s.me.hold.amt + s.me.hold.cur * 2 ^ 32)) ∧
    (o.sel = 1 → gives (s.effective s.cur.core s.cur.slot .mxe)) ∧ (o.sel = 2 → gives (s.effective s.cur.core s.cur.slot .vxe)) ∧
    (o.sel = 3 → gives (s.effective s.cur.core s.cur.slot .cpe)) ∧ (o.sel = 4 → gives (s.effective s.cur.core s.cur.slot .sie)) ∧
    (o.sel = 5 → gives (s.base s.cur.core s.cur.slot)) ∧ (o.sel = 6 → mayRead s k = true → gives (s.value k)) ∧
    (o.sel = 7 → mayRead s k = true → gives (s.cur? k).issued) ∧ (o.sel = 8 → gives (s.fn s.me.t.fn).cur)) ∧
  (∀ (s : State) (o : DrseedOp), s.cRuns o.pr →
    let v : BitVec 32 := match o.src with
      | .sum a imm => (s.me.xr a + imm.setWidth 64).setWidth 32
      | .lit v => v
    ∃ t : State, exec (.drseed o) s = .next (t.advance (match o.src with | .sum _ _ => 8 | .lit _ => 12)) ∧ (t.core s.cur.core).seed = v ∧
      (∀ e < 6, (t.core s.cur.core).gen e = v + BitVec.ofNat 32 e) ∧ (∀ c, c ≠ s.cur.core → t.core c = s.core c) ∧ t.mem = s.mem) ∧
  (∀ (s : State) (o : DrnextOp), s.cRuns o.pr →
    let x := (s.core s.cur.core).gen o.e.toNat
    exec (.drnext o) s = .next ((s.setX o.d (x ++ step32 x)).advance (if o.wide then 12 else 8)))) ∧
  (
  (∀ (s : State) (o : CursetOp), s.cRuns o.pr → s.me.privileged = true →
    let f := (s.me.regLit o.amt).toNat
    let x := (s.me.xr o.b).toNat
    let p := x % 2 ^ 8
    let ow := x / 2 ^ 8
    let k := o.k.toNat
    let e := s.cur? k
    let v := (s.cur? p).issued - (if e.valid then e.funding else 0) + f
    f ≤ 0xFFFFFFFF → k ≠ 0 → (ow ≤ 19 ∨ ow = 31) →
      (e.valid = true → p = e.parent → ow = e.owner → v ≤ 0xFFFFFFFF →
        exec (.curset o) s = .next (((s.modCur p fun c => { c with issued := v }).modCur k fun c => { c with funding := f }).advance
          (regLitLen o.amt))) ∧
      (e.valid = false → (s.cur? p).valid = true → (s.cur? p).depth ≠ 4 → v ≤ 0xFFFFFFFF →
        exec (.curset o) s = .next (((s.modCur p fun c => { c with issued := v }).modCur k fun c =>
          { c with parent := p, owner := ow, funding := f, resv := 0, depth := (s.cur? p).depth + 1, valid := true }).advance
          (regLitLen o.amt))) ∧
      (e.valid = true → e.issued = 0 →
        exec (.cursetClr o) s = .next (((s.modCur e.parent fun c => { c with issued := c.issued - e.funding }).modCur k fun c =>
          { c with valid := false }).advance (regLitLen o.amt))) ∧
      ((e.valid = false ∨ e.issued ≠ 0) →
        exec (.cursetClr o) s = .next (s.trapEntry s.cur.core s.cur.slot fCurrency .c s.me.cs.pc 0))) ∧
  (∀ (s : State) (o : CurissOp), s.cRuns o.pr → s.me.privileged = true →
    let r := (s.me.regLit o.amt).toNat
    let k := o.k.toNat
    let v := (s.cur? k).issued - (s.cur? k).resv + r
    r ≤ 0xFFFFFFFF → (s.cur? k).valid = true → v ≤ 0xFFFFFFFF →
      exec (.curiss o) s = .next (((s.modCur k fun c => { c with issued := v }).modCur k fun c => { c with resv := r }).advance
        (regLitLen o.amt))) ∧
  (∀ (s : State) (o : CursetOp) (q : CurissOp), s.me.privileged = false →
    (s.cRuns o.pr → exec (.curset o) s = .next (s.trapEntry s.cur.core s.cur.slot fPriv .c s.me.cs.pc 0) ∧
      exec (.cursetClr o) s = .next (s.trapEntry s.cur.core s.cur.slot fPriv .c s.me.cs.pc 0)) ∧
    (s.cRuns q.pr → exec (.curiss q) s = .next (s.trapEntry s.cur.core s.cur.slot fPriv .c s.me.cs.pc 0))))

/-- R108, R409 to R412: `LSEND` reads 64 bytes and appends them as a packet to a launch queue of a function of this device that
admits it, and counts one use of a limited capability; a packet for another device joins the queue of its port, and the
instruction ends when it has left; without the capability it raises F_CAP. A message to a slot
of this device that holds a task and whose inbox has room is appended there with its sender, and the status gives the number
then in the inbox; with a full inbox it waits; a message to a slot without a task answers 1, and to a partition that does not
admit the sender F_PERM. (To a slot of another device, which of these it is, and LEFT, are free values: log entry 13; an
accepted one has left its port when it completes.) `CHRCV` takes
the oldest message into the home region; with none, it answers 2 at its deadline, and else waits. (Log entry 22: the codes
and LEFT of a message.) -/
def Obligations.MessageResults : Prop :=
  (
  ∀ (s : State) (o : LsendOp), s.cRuns o.pr →
    let e := s.me.cap o.c.toNat
    let va := s.me.xr o.a
    let len := if o.wide then 12 else 8
    let idle : Prop := ∀ no c n d v, s.me.cs.waiting ≠ some (.sent no c n d v)
    let ok : Prop := e % 2 = 1 ∧ capValid e = true ∧ e.testBit 1 = true ∧ capKind e = 3 ∧ capAllow e ≠ 0 ∧
      capObj e / 8 % 256 ≤ 128 ∧ (capObj e).testBit 11 = false
    (idle → ok → ∀ pa t, s.dataPa va 64 .rd = .ok pa → (isHost pa = true ∨ poisoned s.memPoison 64 pa 64 = false) → capDev e = s.mgmt.dev →
      (s.observe s.agent pa 64).peerPacket
        ⟨s.mgmt.dev, s.me.t.part, capObj e / 8 % 256, capObj e % 8, BitVec.ofNat 512 (leNat (s.mem.read pa 64))⟩ = some t →
        exec (.lsend o) s = .next ((t.modMe fun sl => (sl.useAllow o.c.toNat).setX o.d 0).advance len)) ∧
    (idle → ¬ ok → exec (.lsend o) s = .next (s.trapEntry s.cur.core s.cur.slot fCap .c s.me.cs.pc 0)) ∧
    (idle → ok → ∀ pa, s.dataPa va 64 .rd = .ok pa → (isHost pa = true ∨ poisoned s.memPoison 64 pa 64 = false) → capDev e ≠ s.mgmt.dev →
      ((s.fn s.me.t.fn).port 0).length < 8 →
        let x : PortPacket := ⟨.queue (capDev e) (capObj e / 8 % 256) (capObj e % 8) s.me.t.part, 0, s.mem.read pa 64, s.seq⟩
        ∃ t, OnlyKnown s t ∧ exec (.lsend o) s = .next ((t.modFn s.me.t.fn fun fn =>
          { fn with ports := Sparse.set [] fn.ports 0 (fn.port 0 ++ [x]) }).modMe fun sl =>
            { sl with cs := { sl.cs with waiting := some (.sent s.seq o.c.toNat len o.d 0) } })) ∧
    (∀ no c n d v, s.me.cs.waiting = some (.sent no c n d v) →
      ((s.fn s.me.t.fn).unsent no = true →
        exec (.lsend o) s = .next (s.modMe fun sl => { sl with cs := { sl.cs with waiting := some (.sent no c n d v) } })) ∧
      ((s.fn s.me.t.fn).unsent no = false → exec (.lsend o) s =
        .next ((s.modMe fun sl => (sl.useAllow c).setX d v).advance len)))) ∧
  (
  (∀ (s : State) (o : ChsndOp), s.cRuns o.pr →
    let e := s.me.cap o.c.toNat
    let off := (s.me.xr o.a + o.imm.setWidth 64).toNat
    let c := capCore e
    let k := capSlot e
    let ib := capObj e
    let rx := s.slotAt c k
    let m := (s.core s.cur.core).scratch.read (homeBase s.cur.slot + off) 64
    (∀ no c n d v, s.me.cs.waiting ≠ some (.sent no c n d v)) →
    capGrants e 2 1 = true → ib ≤ 3 → capAllow e ≠ 0 → off % 64 = 0 → off + 64 ≤ 0x40000 → s.homePoison off 64 = false →
    capDev e = s.mgmt.dev →
      (s.admitsMsg s.mgmt.dev s.me.t.part c = true → rx.task.isSome = true → (rx.box ib).length < 16 → rx.out = false →
        ∃ t, OnlyKnown s t ∧ exec (.chsnd o) s = .next ((((t.modMe fun sl => sl.useAllow o.c.toNat).modSlot c k fun sl =>
          sl.setBox ib (sl.box ib ++ [⟨m, s.mgmt.dev, s.cur.core, s.cur.slot, s.seq, o.scope.toNat⟩])).setX o.d
            (BitVec.ofNat 64 (((rx.box ib).length + 1) * 2 ^ 28))).advance 8)) ∧
      (s.admitsMsg s.mgmt.dev s.me.t.part c = true → rx.task = none → exec (.chsnd o) s = .next ((s.setX o.d 1).advance 8)) ∧
      (s.admitsMsg s.mgmt.dev s.me.t.part c = false → exec (.chsnd o) s = .next ((s.setX o.d (BitVec.ofNat 64 fPerm.toNat)).advance 8)) ∧
      (s.admitsMsg s.mgmt.dev s.me.t.part c = true → rx.task.isSome = true → 16 ≤ (rx.box ib).length →
        exec (.chsnd o) s = .next (s.modMe fun sl => { sl with cs := { sl.cs with waiting := some (.inbox c k ib (e.testBit 3)) } }))) ∧
  (∀ (s : State) (o : ChsndOp), s.cRuns o.pr →
    let e := s.me.cap o.c.toNat
    let off := (s.me.xr o.a + o.imm.setWidth 64).toNat
    let ib := capObj e
    let m := (s.core s.cur.core).scratch.read (homeBase s.cur.slot + off) 64
    let x := Config.peerAnswer s.seq
    let p : PortPacket := ⟨.inbox (capDev e) (capCore e) (capSlot e) ib s.me.t.part s.cur.core s.cur.slot, 0, m, s.seq⟩
    capGrants e 2 1 = true → ib ≤ 3 → capAllow e ≠ 0 → off % 64 = 0 → off + 64 ≤ 0x40000 → s.homePoison off 64 = false →
    (∀ no c n d v, s.me.cs.waiting ≠ some (.sent no c n d v)) → capDev e ≠ s.mgmt.dev → ((s.fn s.me.t.fn).port 0).length < 8 →
    exec (.chsnd o) s = .next (
      if x % 4 = 0 then (s.setX o.d (BitVec.ofNat 64 fPerm.toNat)).advance 8
      else if x % 4 = 1 then (s.setX o.d 1).advance 8
      else if x % 4 = 2 then s.modMe fun sl => { sl with cs := { sl.cs with
        waiting := some (.inbox (farCore (capDev e) (capCore e)) (capSlot e) ib (e.testBit 3)) } }
      else (s.modFn s.me.t.fn fun fn => { fn with ports := Sparse.set [] fn.ports 0 (fn.port 0 ++ [p]) }).modMe fun sl =>
        { sl with cs := { sl.cs with waiting := some (.sent s.seq o.c.toNat 8 o.d (BitVec.ofNat 64 (x / 4 % 17 * 2 ^ 28))) } })) ∧
  (∀ (s : State) (o : ChsndOp), s.cRuns o.pr → ∀ no c n d v, s.me.cs.waiting = some (.sent no c n d v) →
    ((s.fn s.me.t.fn).unsent no = true →
      exec (.chsnd o) s = .next (s.modMe fun sl => { sl with cs := { sl.cs with waiting := some (.sent no c n d v) } })) ∧
    ((s.fn s.me.t.fn).unsent no = false → exec (.chsnd o) s = .next ((s.modMe fun sl => (sl.useAllow c).setX d v).advance 8))) ∧
  (∀ (s : State) (o : ChrcvOp), s.cRuns o.pr →
    let e := s.me.cap o.c.toNat
    let off := (s.me.xr o.a + o.imm.setWidth 64).toNat
    let ib := capObj e
    let dl := (s.me.xr o.b).toNat
    capGrants e 2 2 = true → ib ≤ 3 → capDev e = s.mgmt.dev → capCore e = s.cur.core → capSlot e = s.cur.slot →
    off % 64 = 0 → off + 64 ≤ 0x40000 →
      (∀ m rest, s.me.box ib = m :: rest → ∃ t, OnlyKnown s t ∧ exec (.chrcv o) s = .next (((t.modMe fun sl =>
        sl.setBox ib rest).homeWrite off m.data).setX o.d (BitVec.ofNat 64 (m.sdev * 2 ^ 8 + m.score * 2 ^ 17 + m.sslot * 2 ^ 25
          + rest.length * 2 ^ 28)) |>.advance 8)) ∧
      (s.me.box ib = [] → dl ≠ 0 → dl ≤ s.now → exec (.chrcv o) s = .next ((s.setX o.d 2).advance 8)) ∧
      (s.me.box ib = [] → (dl = 0 ∨ s.now < dl) →
        exec (.chrcv o) s = .next (s.modMe fun sl => { sl with cs := { sl.cs with waiting := some (.message ib dl) } }))) ∧
  (∀ (s : State) (c k ib dl : Nat) (w : BitVec 96) (op : ChrcvOp) (l : Len), dl ≠ 0 → dl ≤ s.now →
    (s.slotAt c k).cs.waiting = some (.message ib dl) → (s.slotAt c k).cs.stopReq = none → (s.core c).frozen = false →
    s.fetch c k .c = .ok w → decodeC w = .ok (.chrcv op, l) →
    let u : State := { s with cur := ⟨c, k, .c⟩ }
    let e := u.me.cap op.c.toNat
    let off := (u.me.xr op.a + op.imm.setWidth 64).toNat
    u.cRuns op.pr → capGrants e 2 2 = true → capObj e ≤ 3 → capDev e = s.mgmt.dev → capCore e = c → capSlot e = k →
    off % 64 = 0 → off + 64 ≤ 0x40000 → (u.me.xr op.b).toNat = dl → u.me.box (capObj e) = [] →
      exec (.chrcvDeadline ⟨c, k⟩) s = .next (s.completed ⟨c, k⟩ fun s => (s.setX op.d 2).advance 8)))

/-- R413, R381, R382: `CHCAP.RD` reads a half of a capability; `CHCAP.NAR` makes one with fewer permissions and takes its uses
from the original unless that is unlimited; `CHCAP.CLR` clears one. `PUBH` adds one to a doubleword of host memory, after the
writes that the slot knows of have reached the host, and returns it; where the host refuses it, and at an address that is not
the host's, it raises F_PERM with nothing done. (Log entry 22: which capabilities are invalid; log entry 46: whether the host
refuses is a free value.) -/
def Obligations.CapabilityAndPubhResults : Prop :=
  (
  (∀ (s : State) (o : ChcapRdOp), s.cRuns o.pr → exec (.chcapRd o) s = .next ((s.setX o.d
    (BitVec.ofNat 64 (s.me.cap o.c.toNat / (if o.w then 2 ^ 64 else 1) % 2 ^ 64))).advance 8)) ∧
  (∀ (s : State) (o : RRRR), s.cRuns o.pr →
    let e := s.me.cap o.c.toNat
    let k := (s.me.xr o.b).toNat
    let n := setBitsN (setBitsN e 1 5 (bitsN e 1 5 &&& bitsN (s.me.xr o.a).toNat 1 5)) 64 32 k
    capValid e = true → (capKind e ≠ 2 ∨ capObj e ≤ 3) → k ≤ 0xFFFFFFFF →
      (capAllow e = 0xFFFFFFFF → exec (.chcapNar o) s = .next ((s.modMe fun sl => sl.setCap o.d.toNat n).advance 8)) ∧
      (capAllow e ≠ 0xFFFFFFFF → k ≤ capAllow e → exec (.chcapNar o) s = .next ((s.modMe fun sl =>
        (sl.setCap o.c.toNat (setBitsN e 64 32 (capAllow e - k))).setCap o.d.toNat n).advance 8)) ∧
      (capAllow e ≠ 0xFFFFFFFF → capAllow e < k →
        exec (.chcapNar o) s = .next (s.trapEntry s.cur.core s.cur.slot fBound .c s.me.cs.pc 0))) ∧
  (∀ (s : State) (o : ChcapClrOp), s.cRuns o.pr →
    exec (.chcapClr o) s = .next ((s.modMe fun sl => sl.setCap o.c.toNat 0).advance 8))) ∧
  (
  ∀ (s : State) (o : PubhOp) (pa : Nat), s.cRuns o.pr →
    let va := s.me.xr o.a + o.imm.signExtend 64
    let n := (s.mem.nat pa 8 + 1) % 2 ^ 64
    s.dataPa va 8 .rw = .ok pa →
      (isHost pa = true → ∃ t, OnlyKnown (s.pwrite (some s.agent) pa (natLe 8 n)).wrote t ∧
        let u := t.setX o.d (BitVec.ofNat 64 n)
        exec (.pubh o) s = .next (if Config.fetchAddRefused s.seq then s.trapEntry s.cur.core s.cur.slot fPerm .c s.me.cs.pc va
          else (if o.irq then u.cause s.me.t.fn 0 else u).advance 8)) ∧
      (isHost pa = false → exec (.pubh o) s = .next (s.trapEntry s.cur.core s.cur.slot fPerm .c s.me.cs.pc va)))

/-- R41, R332, R424: every step keeps the vector registers, masks, conditional streams and general registers of every slot, and
the port queues and deficits of every function, in their canonical form (keys rising, no entry equal to what an unlisted one
reads as), whatever else holds in the state it starts from. (The form is the model's: log entry 1.) -/
def Obligations.RegisterFilesStayCanonical : Prop :=
  ∀ s t : State, s.filesWf = true → step s = .next t → t.filesWf = true

/-- R308, R309: the integer and bitwise instructions act in each active element at the element's width and wrap; shifts take the
count modulo the width; a poisoned operand element raises F_POISON. (Log entry 39: poison counts by active element.) -/
def Obligations.VectorIntegerResults : Prop :=
  (∀ (s : State) (pr : Pred) (d a b c : Reg) (imm : Imm), s.vRuns → s.vClean pr a →
    let w := 8 * s.me.eb
    let x := s.lane a
    let y := s.lane b
    let k : BitVec w := BitVec.ofNat w (immWord imm).toNat
    let gives (i : Instr) (f : Nat → BitVec w) : Prop := exec i s = .next ((s.vLanes pr d fun i => ((f i).toNat, 0)).advance 4)
    let givesI (i : Instr) (f : Nat → BitVec w) : Prop :=
      exec i s = .next ((s.vLanes pr d fun i => ((f i).toNat, 0)).advance (immLen imm))
    (s.vClean pr b →
      gives (.viadd ⟨pr, d, a, b⟩) (fun i => x i + y i) ∧ gives (.visub ⟨pr, d, a, b⟩) (fun i => x i - y i) ∧
      gives (.vimul ⟨pr, d, a, b⟩) (fun i => x i * y i) ∧ gives (.vand ⟨pr, d, a, b⟩) (fun i => x i &&& y i) ∧
      gives (.vor ⟨pr, d, a, b⟩) (fun i => x i ||| y i) ∧ gives (.vxor ⟨pr, d, a, b⟩) (fun i => x i ^^^ y i) ∧
      gives (.vshl ⟨pr, d, a, b⟩) (fun i => x i <<< ((y i).toNat % w)) ∧
      gives (.vshr ⟨pr, d, a, b⟩) (fun i => x i >>> ((y i).toNat % w)) ∧
      gives (.vsra ⟨pr, d, a, b⟩) (fun i => (x i).sshiftRight ((y i).toNat % w)) ∧
      (s.vClean pr c → exec (.vimad ⟨pr, d, a, b, c⟩) s =
        .next ((s.vLanes pr d fun i => ((x i * y i + s.lane c i).toNat, 0)).advance 8))) ∧
    givesI (.viaddImm ⟨pr, d, a, imm⟩) (fun i => x i + k) ∧ givesI (.visubImm ⟨pr, d, a, imm⟩) (fun i => x i - k) ∧
    givesI (.vimulImm ⟨pr, d, a, imm⟩) (fun i => x i * k) ∧ givesI (.vandImm ⟨pr, d, a, imm⟩) (fun i => x i &&& k) ∧
    givesI (.vorImm ⟨pr, d, a, imm⟩) (fun i => x i ||| k) ∧ givesI (.vxorImm ⟨pr, d, a, imm⟩) (fun i => x i ^^^ k) ∧
    givesI (.vshlImm ⟨pr, d, a, imm⟩) (fun i => x i <<< (k.toNat % w)) ∧
    givesI (.vshrImm ⟨pr, d, a, imm⟩) (fun i => x i >>> (k.toNat % w)) ∧
    givesI (.vsraImm ⟨pr, d, a, imm⟩) (fun i => (x i).sshiftRight (k.toNat % w))) ∧
  (∀ (s : State) (o : RRR), s.vRuns → ¬ s.vClean o.pr o.a →
    exec (.viadd o) s = .next (s.finish 4 (.trap fPoison 0)))

/-- R310, R311, R43, R312 to R314: the compares write the mask of the relation in active elements, the integer ones without
flags, the floating-point ones with their flags and only in a format as wide as an element; `VSEL` writes every element from
the register that the mask selects. Moves, broadcasts and `VIOTA` in active elements; `VSHP` sets VSHAPE, and traps with
F_BOUND on a shape that R43 refuses; the mask instructions act on as many bits as VSHAPE has elements and clear the others. -/
def Obligations.VectorCompareMoveMaskResults : Prop :=
  (
  (∀ (s : State) (pr : Pred) (d : PReg) (a b : Reg), s.vRuns → s.vClean pr a → s.vClean pr b →
    let x := s.lane a
    let y := s.lane b
    let gives (i : Instr) (f : Nat → Bool) : Prop := exec i s = .next ((s.vMask pr d fun i => (f i, 0)).advance 8)
    gives (.vcmpEq ⟨pr, d, a, b⟩) (fun i => x i == y i) ∧ gives (.vcmpNe ⟨pr, d, a, b⟩) (fun i => x i != y i) ∧
    gives (.vcmpLt ⟨pr, d, a, b⟩) (fun i => (x i).slt (y i)) ∧ gives (.vcmpGe ⟨pr, d, a, b⟩) (fun i => (y i).sle (x i)) ∧
    gives (.vcmpLtu ⟨pr, d, a, b⟩) (fun i => (x i).ult (y i)) ∧ gives (.vcmpGeu ⟨pr, d, a, b⟩) (fun i => (y i).ule (x i)) ∧
    (∀ fmt : BitVec 5,
      let o : FcmpOp := ⟨pr, d, a, b, fmt⟩
      let givesF (i : Instr) (cc : Nat) : Prop :=
        exec i s = .next ((s.vMask pr d fun i => fpCmp cc fmt.toNat (x i).toNat (y i).toNat).advance 8)
      fmtWidth fmt.toNat = 8 * s.me.eb →
        givesF (.vcmpEqF o) 0 ∧ givesF (.vcmpNeF o) 1 ∧ givesF (.vcmpLtF o) 2 ∧ givesF (.vcmpLeF o) 3 ∧ givesF (.vcmpUnF o) 4)) ∧
  (∀ (s : State) (o : RRR), s.vRuns →
    let sel := s.me.active o.pr
    s.me.readsPoison o.a.toNat s.me.eb s.me.n sel = false → s.me.readsPoison o.b.toNat s.me.eb s.me.n (fun i => !sel i) = false →
      exec (.vsel o) s = .next ((s.modMe fun sl => sl.putElems o.d.toNat sl.eb ((List.range sl.n).map fun i =>
        if sel i then (s.lane o.a i).toNat else (s.lane o.b i).toNat) fun _ => true).advance 4))) ∧
  (
  (∀ (s : State) (pr : Pred) (d a : Reg) (imm : Imm) (k : BitVec 16) (wide : Bool), s.vRuns →
    let w := 8 * s.me.eb
    let n : BitVec w := BitVec.ofNat w (immWord imm).toNat
    (s.vClean pr a → exec (.vmov ⟨pr, d, a, wide⟩) s =
      .next ((s.vLanes pr d fun i => ((s.lane a i).toNat, 0)).advance (if wide then 12 else 8))) ∧
    exec (.vbcst ⟨pr, d, imm⟩) s = .next ((s.vLanes pr d fun _ => (n.toNat, 0)).advance (immLen imm)) ∧
    exec (.viota ⟨pr, d, imm⟩) s = .next ((s.vLanes pr d fun i => ((BitVec.ofNat w i + n).toNat, 0)).advance (immLen imm)) ∧
    (k.toNat < s.me.n → s.me.vpoisoned a.toNat (s.me.eb * k.toNat) s.me.eb = false →
      exec (.vbcstE ⟨pr, d, a, k⟩) s = .next ((s.modMe fun sl => sl.putElems d.toNat sl.eb ((List.range sl.n).map fun i =>
        if sl.active pr i then (s.lane a k.toNat).toNat else vElem (sl.vr d.toNat).toNat sl.eb i) (sl.active pr)).advance 8)) ∧
    (s.me.n ≤ k.toNat → exec (.vbcstE ⟨pr, d, a, k⟩) s = .next (s.finish 8 (.trap fBound 0)))) ∧
  (∀ (s : State) (a : Reg) (v : BitVec 32), s.vRuns →
    (vshapeOk v = true → exec (.vshpK96 v) s = .next ((s.modMe fun sl => { sl with vshape := v &&& 0x1FFFFFFF }).advance 12)) ∧
    (vshapeOk v = false → exec (.vshpK96 v) s = .next (s.finish 12 (.trap fBound 0))) ∧
    (s.me.vpoisoned a.toNat 0 4 = false → (s.me.vr a.toNat).setWidth 32 = v → vshapeOk v = true →
      exec (.vshp a) s = .next ((s.modMe fun sl => { sl with vshape := v &&& 0x1FFFFFFF }).advance 8))) ∧
  (∀ (s : State) (d a b : PReg) (r : Reg), s.vRuns →
    let low : MWord := BitVec.ofNat 4096 (2 ^ s.me.n - 1)
    let x := s.me.mr a.toNat
    let y := s.me.mr b.toNat
    let gives (i : Instr) (m : MWord) : Prop := exec i s = .next ((s.modMe fun sl => sl.setM d.toNat (m &&& low)).advance 8)
    let ones := (List.range s.me.n).filter fun i => x.getLsbD i
    gives (.vmlogAnd ⟨d, a, b⟩) (x &&& y) ∧ gives (.vmlogOr ⟨d, a, b⟩) (x ||| y) ∧ gives (.vmlogXor ⟨d, a, b⟩) (x ^^^ y) ∧
    gives (.vmlogAndn ⟨d, a, b⟩) (x &&& ~~~y) ∧ gives (.vmlogNot ⟨d, a⟩) (~~~x) ∧
    exec (.vmlogCnt ⟨r, a⟩) s = .next ((s.modMe fun sl => sl.putVDouble r.toNat ones.length).advance 8) ∧
    exec (.vmlogFst ⟨r, a⟩) s = .next ((s.modMe fun sl => sl.putVDouble r.toNat (ones.head?.getD 0xFFFFFFFFFFFFFFFF)).advance 8)))

/-- R305, R315, R316, R317, R321: the floating-point arithmetic and the special functions act in each active element in the
format and rounding of the instruction and raise the flags of the active elements; a format of another width than the element
is F_ILLEGAL. the reductions of the active elements, of the whole register or of each row: the rounded exact sum, of squares
too, the wrapped or saturated integer sum, the greatest and the least in each reading; `VREDX.ARG` gives the lowest number of
an element that holds the greatest value, all ones when there is none. (Log entries 3 (which value within the bound) and 39
(an empty sum).) -/
def Obligations.VectorFpResults : Prop :=
  (
  (∀ (s : State) (pr : Pred) (d a b c : Reg) (fmt : BitVec 5) (rm : BitVec 2) (ovf : Bool), s.vRuns → fmtWidth fmt.toNat = 8 * s.me.eb →
    s.vClean pr a →
    let f := fmt.toNat
    let x (i : Nat) : Nat := (s.lane a i).toNat
    let y (i : Nat) : Nat := (s.lane b i).toNat
    let gives (i : Instr) (g : Nat → Nat × Fl) : Prop := exec i s = .next ((s.vLanes pr d g).advance 8)
    let v (r : Reg) (i : Nat) : FVal := fdec f 0 (s.lane r i).toNat
    (s.vClean pr b →
      gives (.vadd ⟨pr, d, a, b, fmt, rm, ovf⟩) (fun i => fpAdd f rm.toNat ovf (x i) (y i)) ∧
      gives (.vsub ⟨pr, d, a, b, fmt, rm, ovf⟩) (fun i => fpSub f rm.toNat ovf (x i) (y i)) ∧
      gives (.vmul ⟨pr, d, a, b, fmt, rm, ovf⟩) (fun i => fpMul f rm.toNat ovf (x i) (y i)) ∧
      gives (.vdiv ⟨pr, d, a, b, fmt, rm, ovf⟩) (fun i => fpDiv f rm.toNat ovf (x i) (y i)) ∧
      gives (.vmin ⟨pr, d, a, b, fmt⟩) (fun i => fpMinMax false f (x i) (y i)) ∧
      gives (.vmax ⟨pr, d, a, b, fmt⟩) (fun i => fpMinMax true f (x i) (y i)) ∧
      (s.vClean pr c →
        gives (.vfma ⟨pr, d, a, b, c, fmt, rm, ovf⟩) (fun i => fpFma f rm.toNat ovf (v a i) (v b i) (v c i)) ∧
        gives (.vfms ⟨pr, d, a, b, c, fmt, rm, ovf⟩) (fun i => fpFma f rm.toNat ovf (v a i) (v b i) (v c i).negate))) ∧
    gives (.vsqrt ⟨pr, d, a, fmt, rm, ovf⟩) (fun i => fpSqrt f rm.toNat ovf (x i)) ∧
    gives (.vabs ⟨pr, d, a, fmt⟩) (fun i => (fpSetSign f (x i) false, 0)) ∧
    gives (.vneg ⟨pr, d, a, fmt⟩) (fun i => (fpSetSign f (x i) (!fpSign f (x i)), 0)) ∧
    gives (.vrcp ⟨pr, d, a, fmt, ovf⟩) (fun i => specialFn 0 f ovf (x i)) ∧
    gives (.vrsq ⟨pr, d, a, fmt, ovf⟩) (fun i => specialFn 1 f ovf (x i)) ∧
    gives (.vexp2 ⟨pr, d, a, fmt, ovf⟩) (fun i => specialFn 2 f ovf (x i)) ∧
    gives (.vlog2 ⟨pr, d, a, fmt, ovf⟩) (fun i => specialFn 3 f ovf (x i)) ∧
    gives (.vsin ⟨pr, d, a, fmt, ovf⟩) (fun i => specialFn 4 f ovf (x i)) ∧
    gives (.vcos ⟨pr, d, a, fmt, ovf⟩) (fun i => specialFn 5 f ovf (x i)) ∧
    gives (.vsigm ⟨pr, d, a, fmt, ovf⟩) (fun i => specialFn 6 f ovf (x i)) ∧
    gives (.vtanh ⟨pr, d, a, fmt, ovf⟩) (fun i => specialFn 7 f ovf (x i))) ∧
  (∀ (s : State) (o : FpRRR), s.vRuns → fmtWidth o.fmt.toNat ≠ 8 * s.me.eb →
    exec (.vadd o) s = .next (s.finish 8 (.trap fIllegal 0)))) ∧
  (
  ∀ (s : State) (pr : Pred) (d a : Reg) (fmt : BitVec 5) (rm : BitVec 2) (ovf row : Bool), s.vRuns → s.vClean pr a →
    let w := 8 * s.me.eb
    let f := fmt.toNat
    let gives (i : Instr) (g : List Nat → Nat × Fl) : Prop := exec i s = .next ((s.vReduce pr row d a g).advance 8)
    let ints (xs : List Nat) : List Int := xs.map fun x => (BitVec.ofNat w x).toInt
    (fmtWidth f = w →
      gives (.vredsF ⟨pr, d, a, fmt, rm, ovf, row⟩) (fpSum f rm.toNat ovf false) ∧
      gives (.vredsSq ⟨pr, d, a, fmt, rm, ovf, row⟩) (fpSum f rm.toNat ovf true) ∧
      gives (.vredxMax ⟨pr, d, a, fmt, row⟩) (fpExt true f) ∧ gives (.vredxMin ⟨pr, d, a, fmt, row⟩) (fpExt false f) ∧
      exec (.vredxArg ⟨pr, d, a, fmt⟩) s = .next ((s.modMe fun sl => sl.putVDouble d.toNat
        ((argMaxF f (s.me.vr a.toNat).toNat s.me.eb ((List.range s.me.n).filter (s.me.active pr))).getD 0xFFFFFFFFFFFFFFFF)).advance 8)) ∧
    gives (.vredsI ⟨pr, d, a, ovf, row⟩) (fun xs => intToInt w true ovf ((ints xs).foldl (· + ·) 0)) ∧
    gives (.vredxImax ⟨pr, d, a, row⟩) (fun xs => (wrapN ((ints xs).foldl max (-(2 ^ (w - 1)))) w, 0)) ∧
    gives (.vredxImin ⟨pr, d, a, row⟩) (fun xs => (wrapN ((ints xs).foldl min (2 ^ (w - 1) - 1)) w, 0)) ∧
    gives (.vredxUmax ⟨pr, d, a, row⟩) (fun xs => (xs.foldl max 0, 0)) ∧
    gives (.vredxUmin ⟨pr, d, a, row⟩) (fun xs => (xs.foldl min (2 ^ w - 1), 0)))

/-- R319, R320: the conversions read n elements at the source's width and write n at the destination's; both must fit a register,
else F_BOUND. -/
def Obligations.VectorConversionResults : Prop :=
  ∀ (s : State) (o : VcvtOp), s.vRuns →
    let n := s.me.n
    let f := o.fmt.toNat
    let c := o.c.toNat
    let drdg := o.imm.toNat % 4
    let srdg := o.imm.toNat / 4 % 4
    let ib := 2 ^ (o.imm.toNat / 16 % 4)
    let signed := !o.imm.getLsbD 6
    let x := (s.me.vr o.a.toNat).toNat
    let fp (e : Nat) : FVal := fdec c srdg e
    let lo : Int := if signed then -(2 ^ (8 * ib - 1)) else 0
    let hi : Int := if signed then 2 ^ (8 * ib - 1) - 1 else 2 ^ (8 * ib) - 1
    let int (sgn : Bool) (eb e : Nat) : Int := if sgn then sextN e (8 * eb) else e
    let gives (i : Instr) (sb db : Nat) (g : Nat → Nat × Fl) : Prop :=
      (n * max sb db ≤ 4096 → s.me.readsPoison o.a.toNat sb n (s.me.active o.pr) = false →
        let rs := (List.range n).map fun i =>
          if s.me.active o.pr i then g (vElem x sb i) else (vElem (s.me.vr o.d.toNat).toNat db i, 0)
        exec i s = .next (((s.modMe fun sl => sl.putElems o.d.toNat db (rs.map (·.1)) (sl.active o.pr)).orFlags
          (orFl (rs.map (·.2)))).advance 8)) ∧
      (4096 < n * max sb db → exec i s = .next (s.finish 8 (.trap fBound 0)))
    gives (.vcvtFf o) (fmtBytes c) (fmtBytes f) (fun e => fpCvt f drdg o.rm.toNat o.ovf (fp e)) ∧
    gives (.vcvtFpToElem o) (fmtBytes c) ib (fun e => fpToInt (8 * ib) signed lo hi o.rm.toNat o.ovf (fp e)) ∧
    gives (.vcvtElemToFp o) ib (fmtBytes f) (fun e => fpOfInt f drdg o.rm.toNat o.ovf (int signed ib e)) ∧
    gives (.vcvtFpToIntfmt o) (fmtBytes c) (fmtBytes f) (fun e => fpToIfmt f o.rm.toNat o.ovf (fp e)) ∧
    gives (.vcvtIntfmtToFp o) (fmtBytes c) (fmtBytes f) (fun e => fpOfInt f drdg o.rm.toNat o.ovf (idec c e)) ∧
    gives (.vcvtElemToElem o) (2 ^ (c % 4)) ib
      (fun e => intToInt (8 * ib) signed o.ovf (int (!o.c.getLsbD 2) (2 ^ (c % 4)) e))

/-- R322 to R325, R210, R322, R323, R325: `VLD`, `VGATH` and `VGATH.Q` load the active elements of a READY tile from the
addresses of their entries; an element beyond the tile raises F_BOUND, and `VGATH.Q` pops its offsets, waits while there
are too few, and raises F_POISON for a poisoned one. `VST` and `VSCAT` store the active elements into an EMPTY tile, which
becomes READY, into a READY one without readers, and into a shadow, which sets SFILL, unless its tile drains for racking; a
sealed shadow discards them. -/
def Obligations.VectorMemoryResults : Prop :=
  (
  ∀ (s : State) (pr : Pred) (d r : Reg) (top : BitVec 12) (off : Option (BitVec 32)) (c a : Nat), s.vRuns →
    s.names top false c a →
    let t := s.tileAt c a
    let eb := s.me.eb
    let cols := vCols s.me.vshape
    let act := s.me.active pr
    let offs := Sparse.get [] s.me.oq r.toNat
    let k := ((List.range s.me.n).filter act).length
    let fits (adr : Nat → Nat) : Prop := (∀ i, i < s.me.n → act i = true → adr i + eb ≤ t.bytes ∧ s.spPoisoned c (t.at + adr i) eb = false)
    let loads (adr : Nat → Nat) : State := s.vPut pr d fun i => leNat (s.spRead c (t.at + adr i) eb)
    let at' (o st i : Nat) : Nat := o + i / cols * st + i % cols * eb
    let o0 := (off.getD 0).toNat % 2 ^ 32
    let w (lo : Nat) : Nat := VWord.nat (s.me.vr r.toNat) lo 4
    let o1 := (w 0 + (off.getD 0).toNat) % 2 ^ 32
    let st1 := if w 4 = 0 then cols * eb else w 4
    t.valid = true → t.racked = false → t.st = .ready → s.storeWaits c a = false →
      (o0 % eb = 0 → fits (at' o0 (cols * eb)) →
        exec (.vld ⟨pr, d, top, off⟩) s = .next ((loads (at' o0 (cols * eb))).advance (optLen off))) ∧
      (o0 % eb = 0 → (∃ i, i < s.me.n ∧ act i = true ∧ t.bytes < at' o0 (cols * eb) i + eb) →
        exec (.vld ⟨pr, d, top, off⟩) s = .next (s.finish (optLen off) (.trap fBound 0))) ∧
      (o1 % eb = 0 → st1 % eb = 0 → s.me.vpoisoned r.toNat 0 8 = false → fits (at' o1 st1) →
        exec (.vldX ⟨pr, d, r, top, off⟩) s = .next ((loads (at' o1 st1)).advance (optLen off))) ∧
      (s.vClean pr r → fits (fun i => (s.lane r i).toNat * eb) →
        exec (.vgath ⟨pr, d, r, top⟩) s = .next ((loads fun i => (s.lane r i).toNat * eb).advance 8)) ∧
      (k ≤ offs.length → (∀ j ∈ Sparse.get [] s.me.oqPoison r.toNat, k ≤ j) →
        fits (fun i => (nth 0 offs (activeBefore act i)).toNat * eb) →
        exec (.vgathQ ⟨pr, d, r, top⟩) s = .next (((loads fun i => (nth 0 offs (activeBefore act i)).toNat * eb).modMe fun sl =>
          { sl with oq := Sparse.set [] sl.oq r.toNat ((Sparse.get [] sl.oq r.toNat).drop k),
                    oqPoison := Sparse.set [] sl.oqPoison r.toNat
                      (((Sparse.get [] sl.oqPoison r.toNat).filter (k ≤ ·)).map (· - k)) }).advance 8)) ∧
      (k ≤ offs.length → (∃ j ∈ Sparse.get [] s.me.oqPoison r.toNat, j < k) →
        (∀ i, i < s.me.n → act i = true → (nth 0 offs (activeBefore act i)).toNat * eb + eb ≤ t.bytes) →
        exec (.vgathQ ⟨pr, d, r, top⟩) s = .next (s.finish 8 (.trap fPoison 0))) ∧
      (offs.length < k → exec (.vgathQ ⟨pr, d, r, top⟩) s = .next (s.finish 8 (s.parks top false c a .queue)))) ∧
  (
  ∀ (s : State) (i : Instr) (pr : Pred) (b r : Reg) (top : BitVec 12) (off : Option (BitVec 32)) (c a len : Nat) (adr : Nat → Nat), s.vRuns →
    s.names top true c a →
    let t := s.tileAt c a
    let eb := s.me.eb
    let cols := vCols s.me.vshape
    let w (lo : Nat) : Nat := VWord.nat (s.me.vr r.toNat) lo 4
    let at' (o st i : Nat) : Nat := o + i / cols * st + i % cols * eb
    let o0 := (off.getD 0).toNat % 2 ^ 32
    let o1 := (w 0 + (off.getD 0).toNat) % 2 ^ 32
    let st1 := if w 4 = 0 then cols * eb else w 4
    (i = .vst ⟨pr, b, top, off⟩ ∧ adr = at' o0 (cols * eb) ∧ len = optLen off ∧ o0 % eb = 0 ∨
      i = .vstX ⟨pr, r, b, top, off⟩ ∧ adr = at' o1 st1 ∧ len = optLen off ∧ o1 % eb = 0 ∧ st1 % eb = 0 ∧
        s.me.vpoisoned r.toNat 0 8 = false ∨
      i = .vscat ⟨pr, r, b, top⟩ ∧ adr = (fun i => (s.lane r i).toNat * eb) ∧ len = 8 ∧ s.vClean pr r) →
    t.valid = true → t.racked = false → s.vClean pr b →
    (∀ i, i < s.me.n → s.me.active pr i = true → adr i + eb ≤ t.bytes) →
      (t.shd = false → t.sealed = false → t.st = .empty → (s.core c).regsOn a = [] →
        exec i s = .next ((((s.vScatter pr b c t.at adr).tileReady c a).wrote).advance len)) ∧
      (t.shd = false → t.sealed = false → t.st = .ready → t.readers = 0 →
        exec i s = .next (((s.vScatter pr b c t.at adr).wrote).advance len)) ∧
      (t.shd = true → t.sealed = false → t.sfillCmd = false → t.oldReaders = 0 →
        ¬ (t.st = .draining ∧ ((s.core c).cask (caskOf a t)).copy = .racking) →
        exec i s = .next ((((s.vScatter pr b c t.shadowAt adr).modTile c a fun t => { t with sfill := true }).wrote).advance len)) ∧
      (t.shd = true → t.sealed = true → exec i s = .next (s.advance len)))

/-- R304, R326, R327, R329 to R331: elements written to a vector register whose list is canonical read back; elements beyond
them, and every other register, keep their values. `VACLD` reads elements of a view of the accumulator store into a register
and `VACST` writes them, converted both ways (an element that a running `MMA` also writes may be lost: a free value, log entry
43); an invalid view, or a slice that leaves it, raises F_BOUND. `VCMPR` packs the selected elements, `VEXPD` spreads them,
the slides shift active elements by a distance, and `VTRG` transposes eight registers. -/
def Obligations.VectorAccumulatorAndPermutationResults : Prop :=
  (∀ (sl : Slot) (d eb : Nat) (vals : List Nat) (new : Nat → Bool), 0 < eb → eb * vals.length ≤ 4096 →
    Sparse.wfFrom (0 : VWord) 0 sl.v = true →
    let t := sl.putElems d eb vals new
    (∀ i (h : i < vals.length), vElem (t.vr d).toNat eb i = vals[i] % 2 ^ (8 * eb)) ∧
    (∀ i, vals.length ≤ i → vElem (t.vr d).toNat eb i = vElem (sl.vr d).toNat eb i) ∧
    (∀ r, r ≠ d → t.vr r = sl.vr r) ∧ t.m = sl.m ∧ t.flags = sl.flags ∧ t.vshape = sl.vshape) ∧
  (
  ∀ (s : State) (o : VacOp) (v : View), s.vRuns →
    let act := s.me.active o.pr
    let co := s.core s.cur.core
    let eb := s.me.eb
    let af := o.afmt.toNat
    let ab := accBytes af
    let cols := vCols s.me.vshape
    let adr (i : Nat) : Nat := v.addr s.cur.slot af (o.r0.toNat + i / cols) (8 * o.cg.toNat + i % cols)
    let out (i : Nat) : Nat × Fl :=
      let x := co.acs.nat (adr i) ab
      if af < 2 then fpCvt o.fmt.toNat 0 o.rm.toNat o.ovf (fdec (accFmt af) 0 x)
      else intToInt (8 * eb) true o.ovf (BitVec.ofNat (8 * ab) x).toInt
    let conv (i : Nat) : Nat × Fl :=
      let e := (s.lane o.r i).toNat
      if af < 2 then fpCvt (accFmt af) 0 o.rm.toNat o.ovf (fdec o.fmt.toNat 0 e)
      else intToInt (8 * ab) true o.ovf (BitVec.ofNat (8 * eb) e).toInt
    let on := (List.range s.me.n).filter act
    let rs := (on.filter fun i => !s.me.vacstLost s.cur.slot (adr i)).map fun i => (adr i, (conv i).1)
    vacCheck s.me o = .ok v →
      ((∀ i, i < s.me.n → act i = true → poisoned co.acsPoison 8 (adr i) ab = false) →
        exec (.vacld o) s = .next ((s.vLanes o.pr o.r out).advance 8)) ∧
      (s.vClean o.pr o.r → exec (.vacst o) s = .next ((((s.modCore s.cur.core fun co =>
        let co := rs.foldl (fun (co : Core) (r : Nat × Nat) => co.awrite r.1 (natLe ab r.2)) co
        { co with acsPoison := clearHalves co.acsPoison (rs.map (·.1)) }).wrote).orFlags (orFl (on.map fun i => (conv i).2))).advance 8))) ∧
  (∀ (s : State) (o : VacOp), s.vRuns →
    let w := s.me.view o.view.toNat
    let v := viewOf w
    (viewOk w = false ∨ v.mr < o.r0.toNat + vRows s.me.vshape ∨ v.nc o.afmt.toNat < 8 * o.cg.toNat + vCols s.me.vshape) →
      exec (.vacld o) s = .next (s.finish 8 (.trap fBound 0)) ∧ exec (.vacst o) s = .next (s.finish 8 (.trap fBound 0))) ∧
  (
  (∀ (s : State) (o : RR), s.vRuns →
    let sel := s.me.selected o.pr
    (s.vClean o.pr o.a → exec (.vcmpr o) s = .next ((s.modMe fun sl => sl.putElems o.d.toNat sl.eb ((List.range sl.n).map fun j =>
      match sel[j]? with | some i => (s.lane o.a i).toNat | none => (s.lane o.d j).toNat) fun j => decide (j < sel.length)).advance 4)) ∧
    (s.me.readsPoison o.a.toNat s.me.eb sel.length (fun _ => true) = false →
      exec (.vexpd o) s = .next ((s.vPut o.pr o.d fun i => (s.lane o.a (activeBefore (s.me.active o.pr) i)).toNat).advance 4))) ∧
  (∀ (s : State) (pr : Pred) (d a : Reg) (dist : SlideDist) (m : Nat), s.vRuns → slideDist s.me dist = (m, false) →
    let n := s.me.n
    let up (i : Nat) : Option Nat := if s.me.active pr i = true ∧ m ≤ i then some (i - m) else none
    let dn (i : Nat) : Option Nat := if s.me.active pr i = true ∧ i + m < n then some (i + m) else none
    let gives (i : Instr) (src : Nat → Option Nat) : Prop :=
      (∀ i j, i < n → src i = some j → s.me.vpoisoned a.toNat (s.me.eb * j) s.me.eb = false) →
        exec i s = .next ((s.modMe fun sl => sl.putElems d.toNat sl.eb ((List.range n).map fun i =>
          match src i with | some j => (s.lane a j).toNat | none => (s.lane d i).toNat) fun i => (src i).isSome).advance 8)
    gives (.vslup ⟨pr, d, a, dist⟩) up ∧ gives (.vsldn ⟨pr, d, a, dist⟩) dn) ∧
  (∀ (s : State) (o : VtrgOp), s.vRuns →
    let a := o.a.toNat
    let w := 2 ^ o.w.toNat
    (∀ r, r < 8 → s.me.readsPoison (a + r) w (4096 / w) (fun _ => true) = false) → Sparse.wfFrom (0 : VWord) 0 s.me.v = true →
      ∃ t : State, exec (.vtrg o) s = .next (t.advance 8) ∧
        (∀ r j, r < 8 → j < 4096 / w → vElem (t.me.vr (a + r)).toNat w j = vElem (s.me.vr (a + j % 8)).toNat w (j / 8 * 8 + r)) ∧
        (∀ r, (r < a ∨ a + 8 ≤ r) → t.me.vr r = s.me.vr r) ∧ t.me.flags = s.me.flags ∧ t.mem = s.mem))

/-- R332 to R334, R356, R357: `VQPSH` appends the records of the selected elements to a conditional stream, `VQPOP` takes the
oldest, as many as there are elements, puts field f of record i into element i of V[d + f] and keeps the others, and tells in
its mask which elements it filled, every other bit zero; `VRBAL` reads the number and the shape
of the records. The vector summary instructions enter the active elements into a READY summary of their kind, and `VCLIPQ`
clips the active elements to quantiles of one. -/
def Obligations.ConditionalStreamAndSummaryResults : Prop :=
  (
  (∀ (s : State) (o : VqpshOp), s.vRuns →
    let x := s.me.condQ o.q
    let fld := o.c.toNat + 1
    let sel := s.me.selected o.pr
    let rec' (i : Nat) : List Word := (List.range fld).map fun f => BitVec.ofNat 64 (vElem (s.me.vr (o.a.toNat + f)).toNat s.me.eb i)
    (x.recs = [] ∨ (x.fld = fld ∧ x.ew = vEw s.me.vshape)) → x.recs.length + sel.length ≤ 2048 →
    (∀ f, f < fld → s.me.readsPoison (o.a.toNat + f) s.me.eb s.me.n (s.me.active o.pr) = false) →
      exec (.vqpsh o) s = .next ((s.modMe fun sl => sl.setCondQ o.q ⟨x.recs ++ sel.map rec', fld, vEw sl.vshape⟩).advance 8)) ∧
  (∀ (s : State) (o : VqpopOp), s.vRuns →
    let x := s.me.condQ o.q
    let fld := o.c.toNat + 1
    let k := min s.me.n x.recs.length
    (x.recs = [] ∨ (x.fld = fld ∧ x.ew = vEw s.me.vshape)) → s.me.filesWf = true →
      ∃ t : State, exec (.vqpop o) s = .next (t.advance 8) ∧ (t.me.condQ o.q).recs = x.recs.drop k ∧
        (s.me.eb * s.me.n ≤ 4096 → ∀ f i, f < fld → vElem (t.me.vr (o.d.toNat + f)).toNat s.me.eb i =
          if i < k then (nth 0 (nth [] x.recs i) f).toNat % 2 ^ (8 * s.me.eb)
          else vElem (s.me.vr (o.d.toNat + f)).toNat s.me.eb i) ∧
        (∀ r, (r < o.d.toNat ∨ o.d.toNat + fld ≤ r) → t.me.vr r = s.me.vr r) ∧
        (o.b ≠ 0 → ∀ i, i < 4096 → (t.me.mr o.b.toNat).getLsbD i = decide (i < k)) ∧
        t.me.flags = s.me.flags ∧ t.mem = s.mem) ∧
  (∀ (s : State) (o : VrbalOp), s.vRuns →
    let x := s.me.condQ o.q
    let shape := if x.recs = [] then 0x10 else x.fld - 1 + x.ew * 4
    let put (sl : Slot) : Slot :=
      let sl := sl.putVDouble o.d.toNat x.recs.length
      { sl.setV o.d.toNat (VWord.put (sl.vr o.d.toNat) 8 8 shape) with vpoison := clearPoison sl.vpoison 8 (4096 * o.d.toNat + 8) 8 }
    exec (.vrbal o) s = .next ((s.modMe put).advance 8) ∧
    exec (.vrbalClr o) s = .next ((s.modMe fun sl => (put sl).setCondQ o.q CondQueue.reset).advance 8))) ∧
  (
  (∀ (s : State) (pr : Pred) (a : Reg) (top : BitVec 12) (fmt : BitVec 5) (c t : Nat) (r : Rec), s.vRuns →
    s.names top true c t →
    let tile := s.tileAt c t
    let xs := (s.me.selected pr).map fun i => (s.lane a i).toNat
    let x := (s.core s.cur.core).gen 5
    let gives (i : Instr) (kind : Nat) (m : Rec × BitVec 32) : Prop := s.recOf c tile.at tile.bytes kind = .ok r →
      exec i s = .next ((((s.putRec c tile.at m.1).modCore s.cur.core fun co => co.setGen 5 m.2).wrote).advance 8)
    tile.valid = true → tile.racked = false → tile.shd = false → tile.sealed = false → tile.st = .ready → tile.readers = 0 →
    s.vClean pr a →
      (∀ q, r = .qsk q → fmtWidth fmt.toNat = 8 * s.me.eb → gives (.vskq ⟨pr, a, fmt, top⟩) 1
        (let m := xs.foldl (fun (m : Qsk × BitVec 32) v => m.1.enter m.2 (fpCvt 1 0 0 false (fdec fmt.toNat 0 v)).1) (q, x)
         (.qsk m.1, m.2))) ∧
      (∀ h, r = .hhs h → s.me.eb ≠ 8 → gives (.vskh ⟨pr, a, top⟩) 2 (.hhs (xs.foldl Hhs.enter h), x)) ∧
      (∀ h, r = .dcs h → gives (.vskd ⟨pr, a, top⟩) 3 (.dcs (xs.foldl Dcs.enter h), x))) ∧
  (∀ (s : State) (o : VclipqOp) (c t : Nat) (k : Qsk) (ql qh : Option (Nat × Int)), s.vRuns → fmtWidth o.fmt.toNat = 8 * s.me.eb →
    clipArgs s.me o.c o.mode.toNat = .ok (ql, qh) →
    s.names o.top false c t →
    let tile := s.tileAt c t
    tile.valid = true → tile.racked = false → tile.st = .ready → s.storeWaits c t = false → s.vClean o.pr o.a →
    s.recOf c tile.at tile.bytes 1 = .ok (.qsk k) →
      exec (.vclipq o) s = .next ((s.vLanes o.pr o.d fun i => clipElem o.fmt.toNat (clipBound k o.fmt.toNat 2 ql)
        (clipBound k o.fmt.toNat 3 qh) (s.lane o.a i).toNat).advance 8)))

/-- R138, R240 to R249, R256: an X or S command whose units all complete is finished, with the state that the units of its plan
give, in order; a unit that faults stops it there and traps with its code and address. A copy between tiles, a fill, a
publication and a message always end; a command whose last unit stands next ends when that unit's addresses translate, its
sources are readable and its queue has room. A command at a stop point of which a stop is requested does nothing. (Log
entries 5: units beyond a failing one; 12: what a tile of another module holds.) -/
def Obligations.RingCommandsComplete : Prop :=
  (∀ (s u : State) (c : XCmd), s.headWorks .x →
    let gives (i : Instr) (q : XKind) : Prop := s.unitsGive .x (xPlan q c s s.me.xring.head) u →
      exec i s = .next (u.headFinished s.cur.core s.cur.slot .x (xPlan q c s s.me.xring.head).n)
    gives (.xcpyL c) .cpyL ∧ gives (.xcpyS c) .cpyS ∧ gives (.xcpyT c) .cpyT ∧ gives (.xcpyR c) .cpyR ∧ gives (.xfil c) .fil ∧
    gives (.xfilM c) .filM ∧ gives (.xgth c) .gth ∧ gives (.xsct c) .sct ∧ gives (.xmeta c) .mqM ∧ gives (.xmetaT c) .mqT ∧
    gives (.xrack c) .rack ∧ gives (.xfetch c) .fetch ∧ gives (.xpub c) .pub ∧ gives (.xpubM c) .pubM ∧ gives (.xsend c) .send ∧
    gives (.xhost c) .host) ∧
  (∀ (s u : State) (c : SCmd), s.headWorks .s →
    let gives (i : Instr) (cop : Nat) : Prop := s.unitsGive .s (sPlan cop c s s.me.sring.head) u →
      exec i s = .next (u.headFinished s.cur.core s.cur.slot .s (sPlan cop c s s.me.sring.head).n)
    gives (.sbmp c) 1 ∧ gives (.srle c) 2 ∧ gives (.sidx c) 3) ∧
  (∀ (s : State) (c : SCmd) (code : Code) (eva : Word), s.headWorks .s →
    let p := sPlan 3 c s s.me.sring.head
    let b := s.beginHead s.cur.core s.cur.slot .s
    let j := s.me.sring.head.prog
    j < p.n → p.unit b j = .fault code eva →
      exec (.sidx c) s = .next ((b.modHead s.cur.core s.cur.slot .s fun h => { h with prog := j }).headFault s.cur.core s.cur.slot .s
        code eva)) ∧
  (∀ (s t : State) (o : SlotId) (q : XKind),
    let r := s.ringAt o.core o.slot .x
    let s' : State := { s with cur := ⟨o.core, o.slot, .x⟩ }
    let p := xPlan q (xOf (r.headBits .x)) s' r.head
    xKind (r.headBits .x) = some q → (s.core o.core).cpe.holder = some o.slot → (s.core o.core).frozen = false →
    s'.headWorks .x → r.head.prog + 1 < p.n →
    p.stop (r.head.prog + 1) = true → p.unit (s'.beginHead o.core o.slot .x) r.head.prog = .ok t →
      exec (.cpeBurstComplete o) s =
        .next { (t.modHead o.core o.slot .x fun h => { h with prog := r.head.prog + 1 }) with cur := s.cur }) ∧
  (∀ (s : State) (o : SlotId) (q : XKind),
    let r := s.ringAt o.core o.slot .x
    let s' : State := { s with cur := ⟨o.core, o.slot, .x⟩ }
    xKind (r.headBits .x) = some q → (q = .fil ∨ q = .cpyT ∨ q = .cpyR ∨ q = .send) → (s.core o.core).cpe.holder = some o.slot →
    (s.core o.core).frozen = false → s'.headWorks .x → r.head.prog + 1 < (xPlan q (xOf (r.headBits .x)) s' r.head).n →
      ∃ t, exec (.cpeBurstComplete o) s = .next t ∧ (t.headAt o.core o.slot .x).prog = r.head.prog + 1) ∧
  (∀ (s : State) (c : XCmd), s.headWorks .x →
    let h := s.me.xring.head
    let d := h.desc.toNat
    let e := dElem d
    let m := elemUnits e
    let n := min e 2048
    let j := h.prog
    let shd := c.h.shd
    let ends := s.ends .x
    let reads (a : Nat) : Prop := ∃ ps, s.xPieces .rd (a + j % m * n) n a = .ok ps
    let writes (shd : Bool) (a : Nat) : Prop := ∃ ps, s.xPieces .wr (shadowVa d shd a + j % m * n) n a = .ok ps
    let mqRoom : Prop := (s.me.mqOf (c.opnd.toNat % 4)).length < 64
    let own := s.tileAt s.cur.core (xOwn s.cur.slot c)
    let k := caskOf (xOwn s.cur.slot c) own
    let cask := (s.core s.cur.core).cask k
    let b := s.beginHead s.cur.core s.cur.slot .x
    (ends (.xcpyT c) ∧ ends (.xcpyR c) ∧ ends (.xfil c) ∧ ends (.xsend c) ∧ ends (.xpub c) ∧ ends (.xpubM c)) ∧
    (∀ a, j + 1 = dCount d * m → dAddr d (j / m) = .ok a →
      (reads a → ends (.xcpyL c)) ∧ (writes shd a → ends (.xcpyS c) ∧ ends (.xfilM c))) ∧
    (∀ a, j + 1 = dBound d 0 * m → idxAddr s h d (j / m) = .ok a →
      (reads a → ends (.xgth c)) ∧ (writes false a → ends (.xsct c))) ∧
    (∀ a ps, j + 1 = dCount d → dAddr d j = .ok a → mqRoom → s.xPieces .rd a 2 a = .ok ps → s.ppoison ps = false →
      popCount16 (leNat (s.preads ps)) ≤ 8 → ends (.xmeta c)) ∧
    (j + 1 = xMetaCount c → mqRoom → s.spPoisoned (opAt h 0).1 ((opAt h 0).2 + 2 * j) 2 = false →
      popCount16 (leNat (s.spRead (opAt h 0).1 ((opAt h 0).2 + 2 * j) 2)) ≤ 8 → ends (.xmetaT c)) ∧
    (j = 0 →
      (own.home = true ∨ (cask.racked = true ∧ cask.copy = .none) → ends (.xrack c)) ∧
      (own.home = false → cask.copy = .none → cask.racked = false → cask.pin = false → (s.core s.cur.core).caskIdle k = true →
        exec (.xrack c) s = .next ((b.startRack s.cur.core k).modHead s.cur.core s.cur.slot .x fun h => { h with prog := 1 })) ∧
      (own.home = true ∨ cask.racked = false → ends (.xfetch c))) ∧
    (∀ cnt a, j + 1 = xHostCount c * m →
      let hp := (dHptr d + j / m) % 2 ^ 64
      (hp + 2 ^ 64 - cnt) % 2 ^ 64 < dBound d 0 → elemAddr e ((dBase d : Int) + (hp % dBound d 0 * e : Nat)) = .ok a →
      (h.hostC = some cnt → writes false a → ends (.xhost c)) ∧
      (∀ ps qs, h.hostC = none → dSva d % 8 = 0 → s.xPieces .rd (dSva d) 8 (dSva d) = .ok ps → s.ppoison ps = false →
        leNat (s.preads ps) = cnt →
        (s.misses s.cur.core s.cur.slot .rd (dSva d) 8).xPieces .wr (shadowVa d false a + j % m * n) n a = .ok qs →
          ends (.xhost c)))) ∧
  (∀ (s : State) (c : SCmd), s.headWorks .s →
    let h := s.me.sring.head
    let x : SrcTile := ⟨(opAt h 0).1, (opAt h 0).2, (s.opSize h.ops 0).getD 0⟩
    let gives (i : Instr) (cop : Nat) : Prop :=
      let n := srcTotal s x cop c
      (∃ q, srcPos s x cop c n = .ok q) →
        (n ≤ h.prog → s.ends .s i) ∧
        (∀ p, h.prog + 1 = n → srcPos s x cop c h.prog = .ok (some p) → (s.me.oqOf c.oq.toNat).length < 512 →
          srcBase s x + p < 2 ^ 32 → s.ends .s i)
    gives (.sbmp c) 1 ∧ gives (.srle c) 2 ∧ gives (.sidx c) 3) ∧
  (∀ (s : State) (c : XCmd) (d : SCmd),
    (s.me.headHalts .x = true → exec (.xfil c) s = .next s ∧ exec (.xcpyL c) s = .next s) ∧
    (s.me.headHalts .s = true → exec (.sbmp d) s = .next s ∧ exec (.sidx d) s = .next s))

/-- R244, R255: what the units of a fill and of an index list come to. `XFIL` leaves its pattern in every byte of an unshadowed
destination and nowhere else; `SIDX` appends the base and each entry to its offset queue. -/
def Obligations.FillAndIndexResults : Prop :=
  (∀ (s : State) (c : XCmd) (d : ReadRef) (n : Nat), s.headWorks .x → s.me.xring.head.prog = 0 → s.me.xring.head.dst = some d →
    s.me.xring.head.dshd = false → s.opSize s.me.xring.head.ops 0 = some n → n % 64 = 0 → s.storesWf = true →
      ∃ t, exec (.xfil c) s = .next t ∧
        (∀ a, 64 * d.buf ≤ a → a < 64 * d.buf + n →
          (t.core d.core).scratch.byte a = BitVec.ofNat 8 (c.opnd.toNat / 2 ^ (8 * ((a - 64 * d.buf) % 4)))) ∧
        (∀ a, (a < 64 * d.buf ∨ 64 * d.buf + n ≤ a) → (t.core d.core).scratch.byte a = (s.core d.core).scratch.byte a) ∧
        (∀ k, k ≠ d.core → (t.core k).scratch = (s.core k).scratch)) ∧
  (∀ (s : State) (c : SCmd), s.headWorks .s → s.me.sring.head.prog = 0 →
    let x : SrcTile := ⟨(opAt s.me.sring.head 0).1, (opAt s.me.sring.head 0).2, (s.opSize s.me.sring.head.ops 0).getD 0⟩
    let w := 2 ^ c.wid.toNat
    let n := srcCount s x
    let entry (j : Nat) : Nat := leNat (s.spRead x.core (x.at' + (8 + j * w)) w)
    let q := c.oq.toNat
    8 + n * w ≤ x.bytes → s.spPoisoned x.core x.at' 8 = false → (∀ j, j < n → s.spPoisoned x.core (x.at' + (8 + j * w)) w = false) →
    (∀ j, j < n → srcBase s x + entry j < 2 ^ 32) → (s.me.oqOf q).length + n ≤ 512 →
      ∃ t, exec (.sidx c) s = .next t ∧
        t.me.oqOf q = s.me.oqOf q ++ (List.range n).map (fun j => BitVec.ofNat 32 (srcBase s x + entry j)) ∧
        (∀ q', q' ≠ q → t.me.oqOf q' = s.me.oqOf q') ∧ t.me.x = s.me.x ∧ t.me.v = s.me.v ∧ t.me.flags = s.me.flags)

/-- R142, R292, R299 to R302: `MZERO` zeroes the view that its register names, `MZERO.SET` sets the register, and `MZERO.SETZ`
does both; `MEXP` and `MIMP` do their one unit, and end; `MMA` and `MMAS` of a slot without a group do all their units, and end
where nothing that they read is poisoned and their metadata is at hand; `MMA_STEP_END` does those up to the end of the next
step; the last pass of a refining command publishes its vintage; a note raises and ends its stream; a group forms of the
members that wait for it. (Log entry 39: matrix corners.) -/
def Obligations.MatrixResults : Prop :=
  (∀ (s : State) (c : MzeroCmd), s.headWorks .m → s.me.mring.head.prog = 0 →
    let b := s.beginHead s.cur.core s.cur.slot .m
    let n := c.accv.toNat
    let fin (u : State) : State := u.headFinished s.cur.core s.cur.slot .m 1
    let set (u : State) : State := u.modMe fun sl => { sl with acc := Sparse.set 0 sl.acc n c.view }
    (viewOk (b.me.view n) = true →
      exec (.mzero c) s = .next (fin (zeroView b b.cur.core b.cur.slot (viewOf (b.me.view n))))) ∧
    exec (.mzeroSet c) s = .next (fin (set b)) ∧
    (viewOk c.view = true → exec (.mzeroSetz c) s = .next (fin (set (zeroView b b.cur.core b.cur.slot (viewOf c.view)))))) ∧
  (∀ (s u : State) (c : MxfCmd), s.headWorks .m → s.me.mring.head.prog = 0 →
    let b := s.beginHead s.cur.core s.cur.slot .m
    (mexpRun c b = .ok u → exec (.mexp c) s = .next (u.headFinished s.cur.core s.cur.slot .m 1)) ∧
    (mimpRun c b = .ok u → exec (.mimp c) s = .next (u.headFinished s.cur.core s.cur.slot .m 1))) ∧
  (∀ (s : State) (c : MxfCmd), s.headWorks .m →
    let src := opAt s.me.mring.head 0
    let v := viewOf (s.me.view c.accv.toNat)
    let a := c.afmt.toNat
    s.ends .m (.mexp c) ∧
    (s.spPoisoned src.1 (src.2 + c.off.toNat) (mxfBytes c.raw c.pl c.fmt.toNat a 1 (v.nc a) * v.mr) = false → s.ends .m (.mimp c))) ∧
  (∀ (s : State) (c : MmaCmd), s.headWorks .m → s.me.coop = false → (s.core s.cur.core).frozen = false →
    let h := s.me.mring.head
    let m := mmaRegs s.me (s.me.mring.headBits .m)
    let n := m.passes * passUnits m.rows
    h.sealCut = false →
      (m.c.pv = 0 → s.unpoisoned → (m.s2 = true → m.steps * (m.ks / 16) ≤ (s.me.mqOf m.c.mq.toNat).length) →
        s.ends .m (.mma c) ∧ s.ends .m (.mmas c)) ∧
      (∀ d, m.c.pv ≠ 0 → h.dst = some d → h.prog + 1 = n → (∀ x ∈ (s.core d.core).sealsIn, x.1 ≠ d.abs) →
        let t := s.tileAt d.core d.abs
        t.sealed = false → t.oldReaders = 0 → t.vint < 65534 → ∀ i, i = .mma c ∨ i = .mmas c →
          ∃ u, exec i s = .next u ∧ (u.headAt s.cur.core s.cur.slot .m).phase = .finished ∧
            (u.tileAt d.core d.abs).vint = t.vint + 1 ∧ (u.tileAt d.core d.abs).st = .ready)) ∧
  (∀ (s : State) (o : SlotId),
    let s' : State := { s with cur := ⟨o.core, o.slot, .m⟩ }
    let sl := s.slotAt o.core o.slot
    let w := sl.mring.headBits .m
    let m := mmaRegs sl w
    s'.headWorks .m → sl.coop = false → (s.core o.core).frozen = false → (s.core o.core).mxe.holder = some o.slot →
    (copOf w = 1 ∨ copOf w = 2) → sl.mring.head.sealCut = false → m.c.pv = 0 → s.unpoisoned →
    (m.s2 = true → m.ks / 16 ≤ (sl.mqOf m.c.mq.toNat).length) → sl.mring.head.prog < passUnits m.rows →
      ∃ t, exec (.mmaStepEnd o) s = .next t ∧ sl.mring.head.prog < (t.headAt o.core o.slot .m).prog) ∧
  (∀ (s t : State) (c : MmaCmd), s.headWorks .m → s.me.coop = false → (s.core s.cur.core).frozen = false →
    let m := mmaRegs s.me (s.me.mring.headBits .m)
    let n := m.passes * passUnits m.rows
    let j := s.me.mring.head.prog
    let unit := mmaUnit s.myId s.myId
    let b := s.beginHead s.cur.core s.cur.slot .m
    let at' (t : State) (j : Nat) : State := t.modHead s.cur.core s.cur.slot .m fun h =>
      if h.phase = .finished then h else { h with prog := j, phase := if j ≥ n then .finished else h.phase }
    (runUnits unit (fun _ => false) (n - j) b j = (n, .ok t) →
      exec (.mma c) s = .next (at' t n) ∧ exec (.mmas c) s = .next (at' t n)) ∧
    ((copOf (s.me.mring.headBits .m) = 1 ∨ copOf (s.me.mring.headBits .m) = 2) → s.cur.strm = .m →
      (s.core s.cur.core).mxe.holder = some s.cur.slot → j + 1 < n → j + 1 ≠ 1 → (j + 1) % passUnits m.rows ≠ 0 →
      (j + 1) % passUnits m.rows ≠ m.steps + 1 → unit b j = .ok t →
        exec (.mmaStepEnd s.myId) s = .next { at' t (j + 1) with cur := s.cur })) ∧
  (∀ (s : State) (h : CmdHead) (r : RingId) (i : Instr),
    (r = .m ∧ i = .mnote h ∨ r = .x ∧ i = .xnote h ∨ r = .s ∧ i = .snote h) →
    (s.me.ring r).len ≠ 0 → (s.me.ring r).head.phase = .decided →
      exec i s = .next ((s.modMe fun sl => sl.modRing r fun q => { q.pop with ended := true }).raiseCmd
        ⟨s.cur.core, s.cur.slot, strmOfRing r⟩ (cRss ((s.me.ring r).headBits r)))) ∧
  (∀ (s : State) (x : SlotId) (ms : List SlotId),
    let sl := s.slotAt x.core x.slot
    let m := mmaRegs sl (sl.mring.headBits .m)
    let cores := groupCores x.core m.coopN
    1 < m.coopN → cores.map (fun c => (groupSlot s c sl.t.part m.coopN m.c.ctag.toNat).map (SlotId.mk c)) = (x :: ms).map some →
    (∀ c ∈ cores, (s.core c).group = []) → (∀ y ∈ x :: ms, groupKey (s.slotAt y.core y.slot) = groupKey sl) →
      exec (.coOperativeGroupForm ⟨x :: ms⟩) s =
        .next ((x :: ms).foldl (fun s y => s.modCore y.core fun co => { co with group := x :: ms }) s))

/-- R137, R138: a fresh head waits for its guard, then for its semaphore; the guard decides whether it runs or is dropped, and a
dropped one raises and leaves; a finished command releases its tiles, raises and leaves; a head that must wait changes
nothing, and so does every head of a frozen core (R226). (Log entry 35: operands are checked until they are taken.) -/
def Obligations.RingHeadResults : Prop :=
  (∀ (s : State) (c k : Nat) (r : RingId), r ≠ .k → (s.slotAt c k).headLive r = true → (s.core c).frozen = false →
    let s' : State := { s with cur := ⟨c, k, strmOfRing r⟩ }
    let sl := s.slotAt c k
    let q := sl.ring r
    let w := q.headBits r
    let reached := cAws w = 0 ∨ cAwc r w ≤ (sl.sem (cAws w)).done.toNat
    let raised (s : State) : State := ((s.learn (cAws w) (cAwc r w)).modSlot c k fun sl => sl.modRing r (·.pop)).raiseCmd
      ⟨c, k, strmOfRing r⟩ (cRss w)
    (q.head.phase = .fresh → checkCmd r w = none → (r = .m → copOf w ≠ 1 ∧ copOf w ≠ 2) →
      (sl.guard (cGds w) = 0 → exec (.headDecide ⟨c, k, r⟩) s =
        .next { (s'.modHead c k r fun h => { h with waitFor := some .guard }) with cur := s.cur }) ∧
      (sl.guard (cGds w) ≠ 0 → (sl.guard (cGds w) = 1 ↔ w.getLsbD 22 = true) → ∀ u,
        u = s'.modHead c k r (fun h => { h with phase := .awaitDrop, waitFor := none }) →
          (reached → exec (.headDecide ⟨c, k, r⟩) s = .next { raised u with cur := s.cur }) ∧
          (¬ reached → exec (.headDecide ⟨c, k, r⟩) s = .next { u with cur := s.cur }))) ∧
    (q.head.phase = .awaitDrop → reached → exec (.headDecide ⟨c, k, r⟩) s = .next { raised s' with cur := s.cur }) ∧
    ((q.head.phase = .awaitRun ∨ q.head.phase = .awaitDrop) → ¬ reached → exec (.headDecide ⟨c, k, r⟩) s = .next s)) ∧
  (∀ (s : State) (c k : Nat),
    let q := (s.slotAt c k).sring
    let s' : State := { s with cur := ⟨c, k, .s⟩ }
    q.head.phase = .finished → q.head.held = none → q.len ≠ 0 → (s.slotAt c k).out = false → q.head.dst = none →
    q.head.sealCut = false → q.head.dshd = false → (s.core c).frozen = false →
      exec (.commandComplete ⟨c, k, .s⟩) s = .next { s'.retireHead c k .s 0 0 with cur := s.cur }) ∧
  (∀ (s : State) (o : HeadRef), ((s.headAt o.core o.slot o.ring).phase ≠ .finished ∨ (s.core o.core).frozen = true) →
    exec (.commandComplete o) s = .next s)

/-- R144 to R148, R160, R425 to R427: a draw at an idle engine gives it to one of the ready slots; a quantum that ends without
another ready slot is followed by the next; `YIELD` has no effect at an engine that the slot does not hold, or alone, and else
starts a drain whose draw excludes it; the drain of a C stream ends with it stopped, or going on after a pre-emption, and a
waiting instruction has done nothing unless its packet has left; no draw and no quantum ends in a frozen core (R226). (Log entry 35: when the draw of a YIELD is made.) -/
def Obligations.EngineResults : Prop :=
  (∀ (s : State) (c : Nat) (e : Engine), (s.core c).frozen = true →
    exec (.draw ⟨c, e⟩) s = .next s ∧ exec (.quantumExpiry ⟨c, e⟩) s = .next s) ∧
  (∀ (s : State) (c : Nat) (e : Engine), ((s.core c).eng e).holder = none → (s.core c).frozen = false →
    (s.candidates c e = [] → exec (.draw ⟨c, e⟩) s =
      .next (if ((s.core c).eng e).exclude = none then s else s.modEng c e fun x => { x with exclude := none })) ∧
    (s.candidates c e ≠ [] → ∃ t k, exec (.draw ⟨c, e⟩) s = .next t ∧ k ∈ s.candidates c e ∧ ((t.core c).eng e).holder = some k ∧
      (((s.core c).eng e).exclude = some k → ∀ i ∈ s.candidates c e, i = k))) ∧
  (∀ (s : State) (c h : Nat) (e : Engine),
    let x := (s.core c).eng e
    x.holder = some h → (s.core c).frozen = false →
      exec (.draw ⟨c, e⟩) s = .next s ∧
      ((x.draining = true ∨ s.cycle < x.quantumStart + quantum e) → exec (.quantumExpiry ⟨c, e⟩) s = .next s) ∧
      (x.draining = false → x.quantumStart + quantum e ≤ s.cycle → (∀ k ∈ s.candidates c e, k = h) →
        exec (.quantumExpiry ⟨c, e⟩) s = .next (s.modEng c e fun x => { x with quantumStart := x.quantumStart + quantum e })) ∧
      (x.draining = false → x.quantumStart + quantum e ≤ s.cycle → (∃ k ∈ s.candidates c e, k ≠ h) →
        ∃ t : State, exec (.quantumExpiry ⟨c, e⟩) s = .next t ∧ ((t.core c).eng e).holder = some h ∧
          ((((t.core c).eng e).draining = false ∧ ((t.core c).eng e).quantumStart = x.quantumStart + quantum e) ∨
            (((t.core c).eng e).draining = true ∧ ∃ k ∈ s.candidates c e, k ≠ h ∧ ((t.core c).eng e).next = some k)))) ∧
  (∀ (s : State) (o : YieldOp), s.cRuns o.pr →
    let len := if o.wide then 12 else 8
    let c := s.cur.core
    let k := s.cur.slot
    let x := (s.core c).mxe
    ((∀ e, o.mask.getLsbD (engNo e) = true → ((s.core c).eng e).holder ≠ some k ∨ ∀ j ∈ s.candidates c e, j = k) →
      exec (.yield o) s = .next (s.advance len)) ∧
    (o.mask = 1 → x.holder = some k → x.draining = false → (∃ j ∈ s.candidates c .mxe, j ≠ k) →
      exec (.yield o) s = .next (((s.modEng c .mxe fun x => { x with draining := true, next := none, exclude := some k }).requestStop c k .m
        .yield).advance len))) ∧
  (∀ (s : State) (c k : Nat) (cause : StopCause),
    let sl := s.slotAt c k
    sl.cs.stopReq = some cause → sl.cs.canStop = true → sl.dbg.st ≠ .halting →
    (∀ no n d m v, sl.cs.waiting = some (.sent no n d m v) → (s.fn sl.t.fn).unsent no = true) →
      ∃ t, exec (.drainEnd ⟨c, k, .c⟩) s = .next t ∧
        (cause = .preempt ∨ cause = .yield → (∀ l rest, sl.cs.loops = l :: rest → l.cut = false) → (t.slotAt c k).cs = { sl.cs with stopReq := none, stopped := false, atStop := false }) ∧
        (cause ≠ .preempt → cause ≠ .yield → (t.slotAt c k).cs = { sl.cs with waiting := none, resolved := [], stopped := true }) ∧
        (t.slotAt c k).x = sl.x ∧ (t.slotAt c k).vs = sl.vs ∧ t.mem = s.mem)

/-- R417, R418, R422: `COLL` lists the collective of its descriptor, pushes its semaphore and answers 0; `COLL.ABT` answers 1 for
an unknown CID and else ends this member's part with ABORTED. A descriptor that is misaligned, beyond the home region or
poisoned, whose fields or ring entry are wrong, whose BYTES does not fit, whose shadow is refused, whose CID is live or whose
semaphore would wrap traps, in this order. (Log entry 23.) -/
def Obligations.CollectiveInstructionResults : Prop :=
  (∀ (s : State) (o : CollOp) (d : Nat), s.cRuns o.pr →
    let off := s.me.xr o.a + (match o.off with | .i16 v => v.setWidth 64 | .i32 v => v.signExtend 64)
    let f := s.me.t.fn
    let len := match o.off with | .i16 _ => 8 | .i32 _ => 12
    let late := decide (kTw d ≠ 0 ∧ kT0 d < s.now)
    let c : Coll :=
      { cid := kCid d, core := s.cur.core, slot := s.cur.slot, desc := BitVec.ofNat 1024 d, descOff := off.toNat, hops := 0,
        tok := late, flags := 0, skew := false, late := late, code := 0, sent := 0, queue := [], ended := false }
    (collCheck s off = .ok d → ∃ u, OnlyKnown s u ∧ exec (.coll o) s = .next (((((u.modFn f fun fn =>
      { fn with colls := fn.colls ++ [c], past := Sparse.set 0 fn.past c.cid 0 }).modMe fun sl =>
        (sl.pushSem (kRss d)).modTask fun t => { t with colls := t.colls ++ [kCid d] }).setX o.d 0).advance len))) ∧
    (let traps (code : Code) (eva : Word) : Prop := exec (.coll o) s = .next (s.trapEntry s.cur.core s.cur.slot code .c s.me.cs.pc eva)
     let v := s.homeNat off.toNat 128
     let there := off.toNat % 128 = 0 ∧ off.toNat + 128 ≤ 0x40000 ∧ s.homePoison off.toNat 128 = false
     let fields := kFieldsOk v = true ∧ (Sparse.get 0 (s.fn f).ringTab (kRing v)).toNat.testBit 0 = true
     let bytes := kBytesOk v (collKind s v) = true
     let shadow := kSva v = 0 ∨ s.shadowChk (kShadow v) = .ok ()
     (off.toNat % 128 ≠ 0 → traps fAlign off) ∧
     (off.toNat % 128 = 0 → 0x40000 < off.toNat + 128 → traps fBound off) ∧
     (off.toNat % 128 = 0 → off.toNat + 128 ≤ 0x40000 → s.homePoison off.toNat 128 = true → traps fPoison off) ∧
     (there → ¬ fields → traps fIllegal 0) ∧
     (there → fields → ¬ bytes → traps fBound 0) ∧
     (∀ code eva, there → fields → bytes → kSva v ≠ 0 → s.shadowChk (kShadow v) = .error (code, eva) → traps code eva) ∧
     (there → fields → bytes → shadow → (s.collOf f (kCid v) ≠ none ∨ kRss v ≠ 0 ∧ (s.me.sem (kRss v)).pushed = 0xFFFFFFFF) →
       traps fBound 0))) ∧
  (∀ (s : State) (o : RR), s.cRuns o.pr →
    let f := s.me.t.fn
    let cid := (s.me.xr o.a).toNat % 2 ^ 16
    (s.collOf f cid = none → exec (.collAbt o) s = .next ((s.setX o.d 1).advance 8)) ∧
    (∀ c, s.collOf f cid = some c → exec (.collAbt o) s = .next ((((s.endColl f c true).sendAbort f c.cid).setX o.d 0).advance 8)))

/-- R416, R419, R420, R422 to R424: a packet of a live collective is worked on under its operation: forwarded with its route
counted down, summed, merged or cut into the result; without a live collective it is dropped. An abort packet ends the part
and is forwarded once, also where the part has ended before, whose chunks it drops. The oldest packet to forward leaves when it is due, with TOK
once the member has set SKEW, then the member's own chunks; a part that has received and sent all ends. A port serves its
functions in turn. (Log entries 14 and 23.) -/
def Obligations.CollectivePacketResults : Prop :=
  (∀ (s : State) (o : CollPacket),
    let h := o.hdr.toNat
    let op := h / 2 ^ 64 % 2 ^ 3
    let gives (i : Instr) (t : State) : Prop := exec i s = .next t
    let cid := h % 2 ^ 16
    (s.collOf o.fn cid = none → gives (.collAdd o) s ∧ gives (.collAddw o) s ∧ gives (.collWfwd o) s ∧ gives (.collMrg o) s ∧
      gives (.collCut o) s ∧ gives (.collFwd o) s ∧
      (Sparse.get 0 (s.fn o.fn).past cid = 0 → gives (.collAbortPacket o) s) ∧
      (∀ r t, Sparse.get 0 (s.fn o.fn).past cid = r + 1 →
        (s.modFn o.fn (·.dropChunks cid)).toPort o.fn (s.ringNext o.fn r) (abortPacket cid) = some t →
        gives (.collAbortPacket o) (t.modFn o.fn fun fn => { fn with past := Sparse.set 0 fn.past cid 0 }))) ∧
    (∀ c, s.collOf o.fn (h % 2 ^ 16) = some c → packetFits c.desc.toNat o = true →
      (op = 1 → gives (.collAdd o) (s.collWork o c)) ∧ (op = 2 → gives (.collAddw o) (s.collWork o c)) ∧
      (op = 3 → gives (.collWfwd o) (s.collWork o c)) ∧ (op = 4 → gives (.collMrg o) (s.collWork o c)) ∧
      (op = 5 → gives (.collCut o) (s.collWork o c)) ∧ (op = 6 → gives (.collFwd o) (s.collWork o c)) ∧
      gives (.collAbortPacket o) ((s.endColl o.fn c true).sendAbort o.fn c.cid)) ∧
    (∀ c, s.collOf o.fn cid = some c → packetFits c.desc.toNat o = true → kTw c.desc.toNat = 0 →
      let d := c.desc.toNat
      let route := routeNext (h / 2 ^ 64 % 2 ^ 192)
      let off := let (m, j) := kFrom d (pHop h + 1) (pSeg h); (kChunk d m j).1
      let onward (c : Coll) (mix : Nat) (l : List Byte) : Coll := { c with hops := c.hops + 1, queue := c.queue ++
        [⟨.member, packHdr c.cid (bitsN h 16 9) mix (pHop h + 1) (c.tok || pTok h) (pSeg h) route, l, 0⟩] }
      (op = 6 → route ≠ 0 → gives (.collFwd o) (s.putColl o.fn (onward c (pMix h) o.data))) ∧
      (let n := o.data.length
       let u := s.collMisses c false off n
       (∀ x, op = 1 → kFmt d ≤ 5 → route ≠ 0 → u.collRead c off n = .ok x →
        let y := collAddBytes d o.data x
        gives (.collAdd o) (u.putColl o.fn (onward { c with flags := c.flags ||| y.2 } (pMix h) y.1))) ∧
       (∀ x t, op = 2 → kFmt d ≤ 5 → route ≠ 0 → u.collRead c off n = .ok x →
        let y := collAddBytes d o.data x
        let c' := { c with hops := c.hops + 1, flags := c.flags ||| y.2 }
        (u.collMisses c true off y.1.length).collWrite o.fn c' off y.1 = .ok t →
        gives (.collAddw o) (t.putColl o.fn (onward { c with flags := c.flags ||| y.2 } (pMix h) y.1))) ∧
       (∀ x l, op = 4 → kFmt d = 6 → route ≠ 0 → u.collRead c off n = .ok x →
        collMergeBytes (pMix h) o.data x = .ok l →
        gives (.collMrg o) (u.putColl o.fn (onward c (pMix h + 1) l))) ∧
       (∀ t, (s.collMisses c true off n).collWrite o.fn { c with hops := c.hops + 1, flags := c.flags ||| 0 } off o.data = .ok t →
        (op = 3 → route ≠ 0 → gives (.collWfwd o) (t.putColl o.fn (onward c (pMix h) o.data))) ∧
        (op = 5 → gives (.collCut o) (t.putColl o.fn { c with hops := c.hops + 1 })))))) ∧
  (∀ (s : State) (f cid : Nat) (c : Coll), s.collOf f cid = some c →
    ((s.fn f).colls.any (fun c => c.cid == cid && c.ended)) = false →
    (∀ x rest t, c.queue = x :: rest → kTw c.desc.toNat = 0 →
      s.toPort f (s.nextPort f c) { x with hdr := x.hdr ||| (if c.tok then 1 <<< 44 else 0) } = some t →
      exec (.collSlotSend ⟨f, cid⟩) s = .next (t.putColl f { c with queue := rest })) ∧
    (∀ l t, c.queue = [] → kTw c.desc.toNat = 0 → c.sent < kOwn c.desc.toNat →
      let d := c.desc.toNat
      let at_ := kChunk d (kMidx d) c.sent
      let u := s.collMisses c false at_.1 at_.2
      u.collRead c at_.1 at_.2 = .ok l →
      u.toPort f (u.nextPort f c)
        ⟨.member, packHdr c.cid s.mgmt.dev 0 0 c.tok (kSegNo d (kMidx d) c.sent) (kRoute d), l, 0⟩ = some t →
      exec (.collSlotSend ⟨f, cid⟩) s = .next (t.putColl f { c with sent := c.sent + 1 })) ∧
    (c.queue = [] → kOwn c.desc.toNat ≤ c.sent → exec (.collSlotSend ⟨f, cid⟩) s = .next s) ∧
    (kArrivals c.desc.toNat ≤ c.hops → kOwn c.desc.toNat ≤ c.sent → c.queue = [] → kSva c.desc.toNat = 0 →
      exec (.collMemberDone ⟨f, cid⟩) s = .next (s.endColl f c false)) ∧
    (c.hops < kArrivals c.desc.toNat → exec (.collMemberDone ⟨f, cid⟩) s = .next s)) ∧
  (∀ (s : State) (k f : Nat), s.drrNext k ≠ some f → exec (.drrVisit ⟨k, f⟩) s = .next s) ∧
  (∀ (s : State) (k f : Nat) (x : PortPacket), s.drrNext k = some f → (s.fn f).port k = [x] → s.partOfFn f = none →
    Sparse.wfFrom [] 0 (s.fn f).ports = true → Sparse.wfFrom 0 0 (s.fn f).deficit = true →
    1 + (x.data.length + 31) / 32 ≤ Sparse.get 0 (s.fn f).deficit k + 0x84 →
      ∃ t, exec (.drrVisit ⟨k, f⟩) s = .next t ∧ (t.fn f).port k = [] ∧ Sparse.get 0 (t.fn f).deficit k = 0 ∧
        Sparse.get 0 t.portLast k = f + 1 ∧ t.mem = s.mem)

/-- R15, R16, R84, R211, R397, R444, R445, R447: a seated task is launched with X1 to X5 as seating set them and every other
scalar register zero, and a header off its alignment stops it; a re-fire restarts it once every stream has stopped, with the
same registers and one re-fire more counted; a task retires once its streams and collectives have ended, or ends once the
drain of its stop has ended, and its slot is free then, without holding or monitor. -/
def Obligations.TaskLifeResults : Prop :=
  let alone (s : State) (c k : Nat) : Prop := (s.slotAt c k).task.isSome = true ∧ (s.slotAt c k).t.mates = [⟨c, k⟩]
  let launched (s : State) (c k : Nat) (u : State) : Prop :=
    let t := (s.slotAt c k).t
    let sl := u.slotAt c k
    sl.t.launched = true ∧ sl.xr 1 = t.x1 ∧ sl.xr 2 = t.x2 ∧ sl.xr 3 = t.x3 ∧ sl.xr 4 = t.card ∧ sl.xr 5 = t.x5 ∧
      (∀ r : Reg, 5 < r.toNat → sl.xr r = 0)
  let freed (u : State) (c k : Nat) : Prop :=
    (u.slotAt c k).task = none ∧ (u.slotAt c k).hold = Holding.reset ∧ (u.slotAt c k).mon = Monitor.reset
  (∀ (s : State) (c k : Nat),
    let sl := s.slotAt c k
    (sl.task = none ∨ sl.t.launched = true ∨ sl.out = true → exec (.taskLaunch ⟨c, k⟩) s = .next s) ∧
    (alone s c k → sl.t.launched = false → sl.out = false → ∃ u : State, exec (.taskLaunch ⟨c, k⟩) s = .next u ∧ launched s c k u ∧
      (sl.t.entry.toNat % 256 ≠ 0 → sl.t.stopping = none → (u.slotAt c k).t.stopping ≠ none))) ∧
  (∀ (s : State) (c k : Nat), alone s c k →
    let sl := s.slotAt c k
    ((sl.t.launched = false ∨ sl.t.refiring = false ∨ sl.t.stopping ≠ none ∨ sl.allStopped = false ∨ sl.out = true) →
      exec (.refireRestart ⟨c, k⟩) s = .next s) ∧
    (sl.t.launched = true → sl.t.refiring = true → sl.t.stopping = none → sl.allStopped = true → sl.out = false →
      (s.fn sl.t.fn).sw = .isIn → ∃ u : State, exec (.refireRestart ⟨c, k⟩) s = .next u ∧ launched s c k u ∧
        (u.slotAt c k).t.refcnt = sl.t.refcnt + 1 ∧ (u.slotAt c k).t.refiring = false)) ∧
  (∀ (s : State) (c k : Nat),
    let sl := s.slotAt c k
    ((sl.t.launched = false ∨ sl.t.stopping ≠ none ∨ sl.t.refiring = true ∨ sl.anyRunning = true ∨ sl.t.colls ≠ [] ∨ sl.out = true) →
      exec (.taskRetire ⟨c, k⟩) s = .next s) ∧
    (sl.t.launched = true → sl.t.stopping = none → sl.t.refiring = false → sl.anyRunning = false → sl.t.colls = [] → sl.out = false →
      ∃ u, exec (.taskRetire ⟨c, k⟩) s = .next u ∧ freed u c k)) ∧
  (∀ (s : State) (c k : Nat),
    let sl := s.slotAt c k
    ((sl.task = none ∨ sl.t.stopping = none ∨ sl.allStopped = false ∨ sl.out = true) → exec (.taskStop ⟨c, k⟩) s = .next s) ∧
    (sl.task ≠ none → sl.t.stopping ≠ none → sl.allStopped = true → sl.out = false →
      ∃ u, exec (.taskStop ⟨c, k⟩) s = .next u ∧ freed u c k))

/-- R30, R102, R103, R122: the gate that opens is that of an eligible ready record of most urgent priority, and none opens while
four jobs deal; a record without a job completes at once, after its DISPATCH entry, one whose card or descriptor is refused
stops, and another runs its job; a chunk is cut by the formula, from the job
whose turn it is, onto the tail of its die's queue of at most 64 entries. (Log entry 34: DISPATCH is journalled when the gate
opens.) -/
def Obligations.GateAndChunkResults : Prop :=
  (∀ (s : State) (p : Nat),
    (s.gate p = none → exec (.gateOpen p) s = .next s) ∧
    (4 ≤ ((s.part p).jobs.filter (s.part p).undealt).length → exec (.gateOpen p) s = .next s) ∧
    (∀ i, s.gate p = some i → ∃ r, (i, r) ∈ (s.part p).recs ∧ r.st = .ready ∧ r.eligible = true ∧
      ∀ x ∈ (s.part p).recs, x.2.st = .ready → x.2.eligible = true → r.h 3 2 ≤ x.2.h 3 2) ∧
    (∀ i, s.gate p = some i → (s.lrec p i).h 64 64 = 0 →
      let r := s.lrec p i
      let s' := (s.journal (s.lrecOwner p i) ⟨5, r.armPseq, 0, 0, i, 0, r.gen.toNat⟩).modPart p fun q => { q with gates := q.gates + 1 }
      exec (.gateOpen p) s = .next ((s'.setLrec p i { r with st := .running }).completeLrec p i)) ∧
    (∀ i, s.gate p = some i → (s.lrec p i).h 64 64 ≠ 0 →
      let r := s.lrec p i
      let f := s.lrecOwner p i
      let s' := (s.journal f ⟨5, r.armPseq, 0, 0, i, 0, r.gen.toNat⟩).modPart p fun q => { q with gates := q.gates + 1 }
      (∀ e, s'.openWork f p r = .error e → exec (.gateOpen p) s = .next (s'.stopLrec p i e)) ∧
      (∀ d, s'.openWork f p r = .ok d →
        let n := (nth 0 d.cards 0).records
        (n = 0 → exec (.gateOpen p) s = .next ((s'.setLrec p i { r with st := .running }).completeLrec p i)) ∧
        (n ≠ 0 → ∃ u : State, exec (.gateOpen p) s = .next u ∧ (u.lrec p i).st = .running ∧ (u.part p).gates = (s.part p).gates + 1 ∧
          ∃ x ∈ (u.part p).jobs, x.recIdx = i ∧ x.n = n ∧ x.cards = d.cards ∧ x.live = 0 ∧ x.stopCode = none)))) ∧
  (∀ (s : State) (p j : Nat),
    let q := s.part p
    (64 ≤ (q.queue j).length + q.inTransit j → exec (.chunkCut ⟨p, j⟩) s = .next s) ∧
    (q.nextCut j = none → exec (.chunkCut ⟨p, j⟩) s = .next s) ∧
    (∀ x a n rest, (q.queue j).length + q.inTransit j < 64 → q.nextCut j = some x → nth [] x.uncut j = (a, n) :: rest → x.gang = false →
      let rem := n + sumN (rest.map (·.2))
      let pd := 8 * (q.dieCores j).length
      let m := min (max (ceilDiv rem (2 * pd)) (max 1 ((nth 0 x.cards 0).f 144 16))) (min rem n)
      ∃ u : State, exec (.chunkCut ⟨p, j⟩) s = .next u ∧
        (u.part p).queue j = q.queue j ++ [{ recIdx := x.recIdx, first := a, count := m, passed := 0, hasD := x.hasD, gang := false }]))

/-- R16, R124, R127, R128: the slot taken is free, on a core with most free slots; a seated task has its chunk's arguments and
waits for its launch; a held gang is seated whole once its rings stand; an exchange happens in a cycle that is a multiple of
4,096, and of two dies the deeper pushes half the difference, youngest first; an entry in transit joins the tail of its
queue. -/
def Obligations.SeatAndBalanceResults : Prop :=
  (∀ (s : State) (p j : Nat) (k : SlotId), s.bestSlot p j = some k → k.core ∈ (s.part p).dieCores j ∧ k.slot ∈ s.freeSlots p k.core ∧
    ∀ c ∈ (s.part p).dieCores j, (s.freeSlots p c).length ≤ (s.freeSlots p k.core).length) ∧
  (∀ (s : State) (p j : Nat),
    (s.seatPick p j = .none → exec (.seatTask ⟨p, j⟩) s = .next s) ∧
    (∀ n k e x, s.seatPick p j = .one n k → ((s.part p).queue j)[n]? = some e → (s.part p).job e.recIdx = some x →
      let c := nth 0 x.cards 0
      ∃ u : State, exec (.seatTask ⟨p, j⟩) s = .next u ∧ ((u.slotAt k.core k.slot).task.isSome = true) ∧
        (let t := (u.slotAt k.core k.slot).t
        t.launched = false ∧ t.x1 = BitVec.ofNat 64 (c.f 64 64 + e.first * c.f 128 16) ∧ t.x2 = BitVec.ofNat 64 e.count ∧
          t.x3 = BitVec.ofNat 64 e.first ∧ t.card = nth 0 x.cardAddrs 0 ∧ t.entry = BitVec.ofNat 64 (c.f 0 64) ∧ t.mates = [k]))) ∧
  (∀ (s : State) (p j : Nat),
    ((s.part p).gangs.find? (fun h => h.die == j) = none → (∀ n l, s.seatPick p j ≠ .gang n l) → exec (.gangSeat ⟨p, j⟩) s = .next s) ∧
    (∀ h x, (s.part p).gangs.find? (fun h => h.die == j) = some h → (s.part p).job h.entry.recIdx = some x →
      x.pipes.pipes.length ≤ h.rings.length → h.racking = [] → s.seats (s.lrecOwner p h.entry.recIdx) = true →
      ∃ u : State, exec (.gangSeat ⟨p, j⟩) s = .next u ∧ ∀ k ∈ h.slots, (u.slotAt k.core k.slot).task.isSome = true ∧
        (u.slotAt k.core k.slot).t.mates = h.slots) ∧
    (∀ n l e x, (s.part p).gangs.find? (fun h => h.die == j) = none → s.seatPick p j = .gang n l →
      ((s.part p).queue j)[n]? = some e → (s.part p).job e.recIdx = some x → x.pipes.pipes = [] →
      s.seats (s.lrecOwner p e.recIdx) = true →
      ∃ u : State, exec (.gangSeat ⟨p, j⟩) s = .next u ∧ ∀ k ∈ l, (u.slotAt k.core k.slot).task.isSome = true ∧
        (u.slotAt k.core k.slot).t.mates = l)) ∧
  (∀ (s : State) (p : Nat),
    (s.cycle % 4096 ≠ 0 → exec (.balanceExchange p) s = .next s) ∧
    (s.cycle % 4096 = 0 → (s.part p).lastExchange ≠ s.cycle →
      let q := s.part p
      let q' := { q with lastExchange := s.cycle }
      ((q.qeBal.getLsbD 8 = false ∨ q.dies.length < 2) → exec (.balanceExchange p) s = .next (s.putPart p q')) ∧
      (q.qeBal.getLsbD 8 = true → q.dies.length = 2 → ∀ x y, x = (q.queue 0).length → y = (q.queue 1).length →
        (x ≤ y + q.qeBal.toNat % 256 → y ≤ x + q.qeBal.toNat % 256 → exec (.balanceExchange p) s = .next (s.putPart p q')) ∧
        (y + q.qeBal.toNat % 256 < x → (∀ e ∈ q.queue 0, e.hasD = false) →
          let m := min ((x - y) / 2) (64 - y - q.inTransit 1)
          exec (.balanceExchange p) s = .next (s.putPart p { q'.setQueue 0 ((q.queue 0).take (x - m)) with
            transit := q.transit ++ ((q.queue 0).drop (x - m)).reverse.map fun e => { die := 1, entry := e, since := s.cycle } }))))) ∧
  (∀ (s : State) (p j : Nat),
    let q := s.part p
    ∃ u : State, exec (.balanceArrival ⟨p, j⟩) s = .next u ∧
      (u.part p).queue j = q.queue j ++ ((q.transit.find? fun t => t.die == j).toList.map fun t => t.entry))

/-- R230, R436, R437, R441, R464: a switch-out is taken only while the function is in and asks every launched slot to stop; it is
out once all of them have; a switch-in is taken only while it is out: with seated tasks ST reads GOING IN and their monitors are
to recheck, and a function without seated tasks is in again at once, with the queue tails written meanwhile in effect. A
function reset with no task left gives up trace units and counter banks, returns the registers to their reset values with READY 1, and
is told to every function. `TLBINV` is busy until the translations of its range are gone. (Log entries 24 and 25.) -/
def Obligations.SwitchResults : Prop :=
  (∀ (s : State) (f : Nat),
    let fn := s.fn f
    ((fn.sw ≠ .isIn ∨ fn.ready = false) → exec (.switchOut f) s = .next s) ∧
    (fn.sw = .isIn → fn.ready = true → ∃ u : State, exec (.switchOut f) s = .next u ∧ (u.fn f).sw = .goingOut ∧
      (∀ c k, (u.slotAt c k).x = (s.slotAt c k).x ∧ (u.slotAt c k).task = (s.slotAt c k).task) ∧
      ∀ m ∈ s.slotsOf f, (s.slotAt m.core m.slot).t.launched = true →
        let sl := s.slotAt m.core m.slot
        let t := u.slotAt m.core m.slot
        (sl.cs.ended = false → t.cs.stopReq = some (strongest sl.cs.stopReq .switchOut)) ∧
        (sl.vs.ended = false → t.vs.stopReq = some (strongest sl.vs.stopReq .switchOut)) ∧
        ∀ r ∈ [Strm.m, .x, .s], Sparse.get none t.estop (strmNo r) = some (strongest (Sparse.get none sl.estop (strmNo r)) .switchOut)) ∧
    ((fn.sw ≠ .goingOut ∨ ∃ m ∈ s.slotsOf f, (s.slotAt m.core m.slot).t.launched = true ∧
        (s.slotAt m.core m.slot).allStopped = false) → exec (.switchOutComplete f) s = .next s) ∧
    (fn.sw = .goingOut → fn.save = false → (∀ m ∈ s.slotsOf f, (s.slotAt m.core m.slot).t.launched = true →
        (s.slotAt m.core m.slot).allStopped = true ∧ (s.slotAt m.core m.slot).t.stopping = none) →
      ∃ u : State, exec (.switchOutComplete f) s = .next u ∧ (u.fn f).sw = .out ∧ u.mem = s.mem ∧
        ∀ m ∈ s.slotsOf f, (u.slotAt m.core m.slot).out = true ∧ (u.slotAt m.core m.slot).x = (s.slotAt m.core m.slot).x) ∧
    (fn.sw ≠ .out → exec (.switchIn f) s = .next s) ∧
    (fn.sw = .out → s.slotsOf f = [] →
      exec (.switchIn f) s = .next (s.modFn f fun fn => { fn.takeTails with sw := .isIn })) ∧
    (fn.sw = .out → s.slotsOf f ≠ [] → fn.saved = false → ∃ u : State, exec (.switchIn f) s = .next u ∧ (u.fn f).sw = .goingIn ∧
      ∀ m ∈ s.slotsOf f, (u.slotAt m.core m.slot).mon.recheck = (s.slotAt m.core m.slot).mon.armed ∧
        (u.slotAt m.core m.slot).x = (s.slotAt m.core m.slot).x)) ∧
  (∀ (s : State) (f : Nat),
    ((f = 0 ∨ 128 < f ∨ ((s.fn f).ready = false ∧ (s.fn f).flr = false)) → exec (.functionReset f) s = .next s) ∧
    (f ≠ 0 → f ≤ 128 → ((s.fn f).ready = true ∨ (s.fn f).flr = true) → s.slotsOf f = [] →
      exec (.functionReset f) s = .next (((s.leaveUnits f).modFn f (·.resetRegs)).eventAll 4)) ∧
    (f ≠ 0 → f ≤ 128 → (s.fn f).ready = true → s.slotsOf f ≠ [] → ∃ u : State, exec (.functionReset f) s = .next u ∧
      (u.fn f).ready = false ∧
      ∀ m ∈ s.slotsOf f, (s.slotAt m.core m.slot).task.isSome = true → (u.slotAt m.core m.slot).t.stopping ≠ none)) ∧
  (∀ (s : State) (f : Nat) (v : Word),
    let fn := s.fn f
    ((fn.ready = false ∨ fn.tlbBusy = true) → exec (.tlbinvWrite ⟨f, 0x300, v⟩) s = .next s) ∧
    (fn.ready = true → fn.tlbBusy = false → exec (.tlbinvWrite ⟨f, 0x300, v⟩) s = .next (s.modFn f fun fn =>
      { fn with tlbVa := v &&& 0xFFFFFFFFF0000, tlbSz := v.toNat % 4, tlbBusy := true })) ∧
    (fn.tlbBusy = false → exec (.tlbInvalidationComplete f) s = .next s) ∧
    (fn.tlbBusy = true → ∃ u : State, exec (.tlbInvalidationComplete f) s = .next u ∧ (u.fn f).tlbBusy = false ∧
      (∀ e ∈ u.tlb, e ∈ s.tlb) ∧ (∀ e ∈ s.tlb, e.fn ≠ f → e ∈ u.tlb) ∧
      (fn.tlbSz = 0 → fn.tlbVa.toNat % 2 ^ 16 = 0 → ∀ e ∈ u.tlb, e.fn = f → e.va + 2 ^ e.lg ≤ fn.tlbVa.toNat ∨ fn.tlbVa.toNat + 2 ^ 16 ≤ e.va)))

/-- R26, R91, R115, R381, R436, R465, R467 to R469, R472, R473: a plain register takes what is written and keeps its reserved bits
zero, and RMIDX in recovery too; a REQ written to FN_SWCTL is acted on; masks and the pool base change only while no task is
seated and, of masks, where no other partition has the core or function, and PCFGERR tells otherwise; a window access through
a window that is not there aborts or is reported; unmasking and the end of a hold settle a vector; an ATS invalidation drops
the function's translations. (Log entries 16, 20 and 42.) -/
def Obligations.HostAccessResults : Prop :=
  (∀ (s : State) (f : Nat) (v : Word),
    let ready := (s.fn f).ready = true ∧ f ≤ 128
    let w (off : Nat) : Instr := .registerWrite ⟨f, off, v⟩
    (∀ o, (f ≠ 0 ∨ o ≠ 0x8008) → (s.fn f).ready = false → exec (.registerWrite ⟨f, o, v⟩) s = .next s) ∧
    (exec (.registerWrite ⟨0, 0x8008, v⟩) s = .next (if s.mgmt.rmBusy = false ∧ ((s.fn 0).ready = true ∨ s.mgmt.recov = true)
      then { s with mgmt := { s.mgmt with rmIdx := v.toNat } } else s)) ∧
    (ready → exec (w 0x200) s = .next (s.modFn f fun fn => { fn with jbase := v &&& 0xFFFFFFFFFF000 })) ∧
    (ready → exec (w 0x600) s = .next (s.modFn f fun fn => { fn with frbase := v &&& 0xFFFFFFFFFF000 })) ∧
    (ready → (8 ≤ v.toNat / 2 % 32 ∧ v.toNat / 2 % 32 ≤ 16) →
      exec (w 0x208) s = .next (s.modFn f fun fn => { fn with jen := v.getLsbD 0, jlsz := v.toNat / 2 % 32 })) ∧
    (ready → ¬ (8 ≤ v.toNat / 2 % 32 ∧ v.toNat / 2 % 32 ≤ 16) → ∃ u : State, exec (w 0x208) s = .next u ∧
      ∀ g, (u.fn g) = s.fn g) ∧
    (ready → exec (w 0x640) s = .next (s.modFn f fun fn => { fn with dbgSel := v &&& 0x7FF })) ∧
    (ready → exec (w 0x6C0) s = .next (s.modFn f fun fn => { fn with cntSel := v &&& 0x7FF }))) ∧
  (∀ (s : State) (p : Nat) (v : Word), (s.fn 0).ready = true → p < 20 →
    let base := 0x100000 + 0x10000 * p
    exec (.registerWrite ⟨0, base + 0x128, v⟩) s = .next (s.modPart p fun q => { q with qeBal := v &&& 0x1FF }) ∧
    exec (.registerWrite ⟨0, base + 0x148, v⟩) s = .next (s.modPart p fun q => { q with cellar := v &&& 0xFFFFFFFC00000 }) ∧
    (∀ f, f < 129 → (s.part p).funcMask.getLsbD f = true →
      let t := s.modFn f fun fn => { fn with save := v.getLsbD 2 }
      exec (.registerWrite ⟨0, base + 0x800 + 64 * f + 0x18, v⟩) s =
        .next (if v.toNat % 4 = 1 then t.switchOut f else if v.toNat % 4 = 2 then t.switchIn f else t)) ∧
    (∀ q : Part, q = { s.part p with coreMask := BitVec.ofNat 192 (setBitsN (s.part p).coreMask.toNat 0 64 v.toNat) } →
      exec (.pcfgMaskWrite ⟨0, base, v⟩) s = .next (if s.noneSeated (s.part p) && s.noneSeated q && s.maskFree p q then s.putPart p q
        else s.modPart p fun q => { q with pcfgErr := true })) ∧
    (((∃ x ∈ (s.part p).recs, x.2.st = .armed ∨ x.2.st = .ready ∨ x.2.st = .running) ∨ s.noneSeated (s.part p) = false) →
      exec (.poolbaseWrite ⟨0, base + 0x138, v⟩) s = .next (s.modPart p fun q => { q with pcfgErr := true })) ∧
    ((∀ x ∈ (s.part p).recs, x.2.st ≠ .armed ∧ x.2.st ≠ .ready ∧ x.2.st ≠ .running) → s.noneSeated (s.part p) = true →
      exec (.poolbaseWrite ⟨0, base + 0x138, v⟩) s = .next ((s.modPart p fun q =>
        { q with poolBase := v &&& 0xFFFFFFFFF0000, recs := [] }).pwrite none (v &&& 0xFFFFFFFFF0000).toNat (List.replicate 0x40000 0)))) ∧
  (∀ (s : State) (f q : Nat), q ≤ 3 →
    let x := vecOf (s.fn f) q
    exec (.interruptCoalesceTimeout ⟨f, q⟩) s = .next (s.modFn f fun fn => { fn with vecs := fn.vecs.put q (x.settle s.now) }) ∧
    ((s.fn f).ready = true → exec (.msixUnmask ⟨f, q⟩) s = .next (s.modFn f fun fn =>
      { fn with vecs := fn.vecs.put q ({ x with masked := false, pend := false }.settle s.now) }))) ∧
  (∀ (s : State) (f off n : Nat) (l : List Byte),
    ((s.fn f).ready = false → exec (.hostWindowRead ⟨f, off, n⟩) s =
      .next (s.modFn f fun fn => { fn with winData := List.replicate n 0, winAbort := false }) ∧ exec (.hostWindowWrite ⟨f, off, l⟩) s = .next s) ∧
    ((s.fn f).ready = true → 2 ^ (s.fn f).wlog < off + n → exec (.hostWindowRead ⟨f, off, n⟩) s =
      .next (s.modFn f fun fn => { fn with winData := List.replicate n 0xFF, winAbort := true })) ∧
    ((s.fn f).ready = true → 2 ^ (s.fn f).wlog < off + l.length → exec (.hostWindowWrite ⟨f, off, l⟩) s = .next (s.event f 5 0)) ∧
    (∀ p ps, (s.fn f).ready = true → 16 ≤ (s.fn f).wlog → s.partOfFn f = some p →
      (off + n ≤ 2 ^ (s.fn f).wlog → s.pieces none f p .rd ((s.fn f).wbase.toNat + off) n = .ok ps → s.ppoison ps = false →
        exec (.hostWindowRead ⟨f, off, n⟩) s = .next (s.modFn f fun fn => { fn with winData := s.hostRead ps, winAbort := false })) ∧
      (off + l.length ≤ 2 ^ (s.fn f).wlog → s.pieces none f p .wr ((s.fn f).wbase.toNat + off) l.length = .ok ps →
        exec (.hostWindowWrite ⟨f, off, l⟩) s = .next (s.pwrites none ps l))) ∧
    exec (.atsInvalidation f) s = .next { s with atc := s.atc.filter fun (g, _) => g / 2 ^ 35 != f })

/-- R452 to R457, R461, R463: each debug command acts in the state that takes it and else changes nothing; a halt is reported
once every stream has stopped; a step lets one thing run and ends halted with REASON 3; a free bank goes to whoever claims
it, a guest waits for a held one, and the physical function takes it, the guest's configuration and counts being kept; a new
holder's counts begin at zero; the holder alone clears it, and a write with EN 0 releases it and keeps the other fields.
(Log entries 26 and 27.) -/
def Obligations.DebugAndCounterResults : Prop :=
  (∀ (s : State) (f : Nat),
    let m := s.dbgSlot f
    let sl := s.slotAt m.core m.slot
    let set (d : SlotDbg) : State := s.modSlot m.core m.slot fun sl => { sl with dbg := d }
    (s.dbgActs f = false → exec (.dbgHalt f) s = .next s ∧ exec (.dbgResume f) s = .next s ∧ exec (.dbgStep f) s = .next s ∧
      exec (.dbgDump f) s = .next s ∧ exec (.dbgSample f) s = .next s) ∧
    (s.dbgActs f = true →
      (sl.dbg.st = .running ∨ sl.dbg.st = .stepping → exec (.dbgHalt f) s = .next (s.haltSlot m.core m.slot 1)) ∧
      (sl.dbg.st = .halting ∨ sl.dbg.st = .halted → exec (.dbgHalt f) s = .next s) ∧
      (sl.dbg.st ≠ .halted → exec (.dbgResume f) s = .next s ∧ exec (.dbgStep f) s = .next s ∧ exec (.dbgDump f) s = .next s) ∧
      (sl.dbg.st = .halted → sl.out = true → exec (.dbgResume f) s = .next (set { sl.dbg with st := .running, reason := 0 })) ∧
      (sl.dbg.st = .halted → sl.out = false → sl.heldRefire = false → sl.t.stopping = none → sl.t.refiring = false →
        exec (.dbgResume f) s = .next ((set { sl.dbg with st := .running, reason := 0 }).modSlot m.core m.slot (·.resume))) ∧
      (sl.dbg.st = .halted → sl.out = false → s.dbgStrm f < 2 → exec (.dbgStep f) s =
        .next (s.modSlot m.core m.slot fun sl => { sl.resumeStrm (strmOf (s.dbgStrm f)) with dbg := { sl.dbg with
          st := .stepping, stepStrm := s.dbgStrm f, stepRp := (sl.ring (ringOf (strmOf (s.dbgStrm f)))).rp, stepDone := false } })) ∧
      (sl.dbg.st = .halted → sl.out = false → 2 ≤ s.dbgStrm f → s.dbgStrm f ≤ 4 → exec (.dbgStep f) s =
        .next (s.modSlot m.core m.slot fun sl => { sl with
          estop := sl.estop.put (s.dbgStrm f) none, estopped := sl.estopped.put (s.dbgStrm f) false, dbg := { sl.dbg with
            st := .stepping, stepStrm := s.dbgStrm f, stepRp := (sl.ring (ringOf (strmOf (s.dbgStrm f)))).rp, stepDone := false } })) ∧
      (sl.dbg.st = .halted → exec (.dbgDump f) s =
        .next ((s.writeImage f (s.fn f).dbgDump.toNat m.core m.slot).modFn f fun fn => { fn with dbgDone := true })) ∧
      (s.dbgStrm f ≤ 4 → exec (.dbgSample f) s = .next ((s.sample m (s.dbgStrm f)).modFn f fun fn => { fn with dbgDone := true })))) ∧
  (∀ (s : State) (c k : Nat),
    let sl := s.slotAt c k
    ((sl.dbg.st ≠ .halting ∨ sl.allStopped = false) → exec (.dbgHalted ⟨c, k⟩) s = .next s) ∧
    (sl.dbg.st = .halting → sl.allStopped = true → sl.t.stopping = none → sl.t.refiring = false →
      ∃ u : State, exec (.dbgHalted ⟨c, k⟩) s = .next u ∧ (u.slotAt c k).dbg.st = .halted ∧ (u.slotAt c k).x = sl.x ∧ u.mem = s.mem) ∧
    ((sl.dbg.st ≠ .stepping ∨ s.stepEnded ⟨c, k⟩ = false) → exec (.dbgStepEnd ⟨c, k⟩) s = .next s) ∧
    (sl.dbg.st = .stepping → s.stepEnded ⟨c, k⟩ = true → ∃ u : State, exec (.dbgStepEnd ⟨c, k⟩) s = .next u ∧
      (u.slotAt c k).dbg = { sl.dbg with st := .halted, reason := 3 } ∧ (u.slotAt c k).x = sl.x ∧ u.mem = s.mem)) ∧
  (∀ (s : State) (f : Nat) (v : Word), (s.fn f).ready = true → (s.cntSel f).1 < 192 →
    let c := (s.cntSel f).1
    let b := (s.cntSel f).2
    let x := (s.core c).bank b
    let claim (y : CounterBank) : Prop := exec (.cntClaim ⟨f, 0x6C8, v⟩) s = .next (s.modBank c b fun _ => y)
    let others (y : CounterBank) (g : Nat) : Sparse Word := y.kept.filter fun (h, _) => h != g
    let set (y : CounterBank) : CounterBank :=
      let z := { y with holder := some f, last := some f, kept := others y f, cfg := v &&& 0xFFFFDFFFFFFFF }
      if v.getLsbD 33 = true ∨ y.last ≠ some f then { z with counts := [0, 0, 0, 0], ovf := 0, shared := false } else z
    let w := x.cfg &&& 0xFFFFCFFFFFFFF
    let y := { x with kept := Sparse.set CounterBank.reset.cfg x.kept f w }
    (v.getLsbD 32 = false → exec (.cntClaim ⟨f, 0x6C8, v⟩) s = .next s) ∧
    (v.getLsbD 32 = true → s.cntMay f c = true →
      (x.holder = none ∨ x.holder = some f → claim (set x)) ∧
      (∀ g, x.holder = some g → g ≠ f → f = 0 → claim (set { x with frozen := some (g, x.cfg, x.counts, x.ovf, x.shared) })) ∧
      (∀ g, x.holder = some g → g ≠ f → f ≠ 0 → (∀ h r, x.frozen = some (h, r) → h ≠ f) →
        claim { x with pending := x.pending.put f (v &&& 0xFFFFDFFFFFFFF), kept := others x f }) ∧
      (∀ g cfg n ov sh, x.holder = some g → g ≠ f → f ≠ 0 → x.frozen = some (f, cfg, n, ov, sh) → claim { x with
        frozen := some (f, v &&& 0xFFFFDFFFFFFFF, if v.getLsbD 33 then ([0, 0, 0, 0], 0, false) else (n, ov, sh)) })) ∧
    (v.getLsbD 32 = false → f ≤ 128 → exec (.registerWrite ⟨f, 0x6C8, v⟩) s = .next (s.cntOff f v)) ∧
    (x.holder = some f →
      exec (.cntClear f) s = .next (s.modBank c b fun x => { x with counts := [0, 0, 0, 0], ovf := 0, shared := false }) ∧
      (x.frozen = none → x.pending = [] → exec (.cntRelease f) s = .next (s.modBank c b fun _ => { y with holder := none })) ∧
      (∀ g cfg n ov sh, x.frozen = some (g, cfg, n, ov, sh) → exec (.cntRelease f) s = .next (s.modBank c b fun _ =>
        { y with holder := some g, last := some g, cfg := cfg, counts := n, ovf := ov, shared := sh, frozen := none })) ∧
      (∀ g cfg rest, x.frozen = none → x.pending = (g, cfg) :: rest → x.last ≠ some g → exec (.cntRelease f) s =
        .next (s.modBank c b fun _ => { y with
          holder := some g, last := some g, cfg := cfg, pending := rest, kept := others y g, counts := [0, 0, 0, 0], ovf := 0,
          shared := false }))) ∧
    (x.holder ≠ some f → exec (.cntClear f) s = .next s)) ∧
  (∀ (s : State) (f : Nat) (v : Word), (s.fn f).ready = true →
    let lsz := v.toNat / 2 % 32
    (lsz < 8 ∨ 20 < lsz → exec (.traceClaim ⟨f, 0x688, v⟩) s = .next s) ∧
    (∀ p, 8 ≤ lsz → lsz ≤ 20 → v.getLsbD 0 = true → f ≠ 0 → s.partOfFn f = some p → (s.fn f).trcfg.getLsbD 0 = false →
      (∀ g, (s.fn g).trClaim = false) → (s.part p).trFrozen = none → ∃ u : State, exec (.traceClaim ⟨f, 0x688, v⟩) s = .next u ∧
        (u.fn f).trcfg = v &&& 0x7FFFFF ∧ (u.fn f).trClaim = true))

/-- R226, R464, R468, R470 to R477: a correctable error freezes its core for 24 cycles and is counted; an uncorrectable one
poisons its word or stops the core's tasks, and is counted; it is told as event kind 2 to the functions of the partitions that
hold the core, or the granule of an HBM error; bring-up sets READY in every function or stops at the step
that fails; the mailbox takes its commands while idle, chunks by rising RMIDX, and a commit changes the flash image only when the
staged image verifies; the throttle moves one step at a time; the management controller's settings stand; the trust processor
answers (log entry 4: what it answers is a free value), and its measurements have the firmware digest zero in recovery mode. (Log entries 4, 28, 29 and 30.) -/
def Obligations.ManagementResults : Prop :=
  let up (x : Nat) : Nat := min 65535 (x + 1)
  (∀ (s : State) (o : EccArgs),
    let v := (s.core o.core).eccLog.toNat
    let log (a b : Nat) : Word := BitVec.ofNat 64 (a + b * 2 ^ 16 + o.store * 2 ^ 32 + o.word * 2 ^ 34)
    (192 ≤ o.core → exec (.eccCorrectable o) s = .next s ∧ exec (.eccUncorrectable o) s = .next s) ∧
    (o.core < 192 → o.store ≤ 3 → o.word < storeWords o.store →
      (∃ u : State, exec (.eccCorrectable o) s = .next u ∧ (u.core o.core).frozen = true ∧ (u.core o.core).freezeUntil = s.cycle + 24 ∧
        (u.core o.core).eccLog = log (up (v % 2 ^ 16)) (v / 2 ^ 16 % 2 ^ 16)) ∧
      (∃ t u : State, exec (.eccUncorrectable o) s = .next u ∧ u = t.eventParts (fun p => (t.part p).coreMask.getLsbD o.core) 2 o.core ∧
        (u.core o.core).eccLog = log (v % 2 ^ 16) (up (v / 2 ^ 16 % 2 ^ 16)) ∧
        (o.store = 0 → o.word ∈ (u.core o.core).scratchPoison) ∧ (o.store = 1 → o.word ∈ (u.core o.core).acsPoison) ∧
        (o.store = 2 → o.word % 12288 ∈ (u.slotAt o.core (o.word / 12288)).vpoison) ∧
        (o.store = 3 → ∀ k < 8, (s.slotAt o.core k).task.isSome = true → (u.slotAt o.core k).t.stopping ≠ none))) ∧
    (o.core < 192 → o.store = 4 →
      let t := { s with memPoison := addKey o.word s.memPoison }
      (o.word < 2 ^ 33 → exec (.eccUncorrectable o) s = .next (t.eventParts (fun p => (t.part p).paOk (64 * o.word)) 2 o.core)) ∧
      (2 ^ 33 ≤ o.word → exec (.eccUncorrectable o) s = .next s))) ∧
  (∀ (s : State) (c : Nat),
    (((s.core c).frozen = false ∨ s.cycle < (s.core c).freezeUntil) → exec (.freezeEnd c) s = .next s) ∧
    ((s.core c).frozen = true → (s.core c).freezeUntil ≤ s.cycle →
      exec (.freezeEnd c) s = .next (s.modCore c fun co => { co with frozen := false }))) ∧
  (∀ (s : State) (o : BringUpArgs),
    let m := s.mgmt
    (m.broughtUp = true ∨ m.upFailed = true → exec (.bringUp o) s = .next s) ∧
    (m.broughtUp = false → m.upFailed = false →
      (m.verified = false → ∃ u : State, exec (.bringUp o) s = .next u ∧ u.mgmt = { m with upFailed := true, recov := true } ∧
        ∀ f, f < 129 → (u.fn f).berr = true ∧ (u.fn f).bstep = 1 ∧ (u.fn f).ready = (s.fn f).ready) ∧
      (m.verified = true → 0 < o.fail → o.fail ≤ 6 → ∃ u : State, exec (.bringUp o) s = .next u ∧
        ∀ f, f < 129 → (u.fn f).berr = true ∧ (u.fn f).bstep = o.fail ∧ (u.fn f).ready = (s.fn f).ready) ∧
      (m.verified = true → o.fail = 0 → ∃ u : State, exec (.bringUp o) s = .next u ∧ u.mgmt.broughtUp = true ∧
        ∀ f, f < 129 → (u.fn f).ready = true))) ∧
  (∀ (s : State), let m := s.mgmt
    let gives (i : Instr) (n : Mgmt) : Prop := exec i s = .next { s with mgmt := n }
    (m.rmBusy = true → (∀ o, gives (.recoveryWriteChunk o) m) ∧ (∀ b, gives (.recoveryCommit b) m) ∧ gives .recoveryErase m) ∧
    (m.rmBusy = false → ((s.fn 0).ready = true ∨ m.recov = true) →
      gives .recoveryErase { m with rmBusy := true, rmNext := 0, rmCommitOk := false, staged := [], stagedNext := 0, erased := true } ∧
      (∀ o, (m.erased = false ∨ m.rmIdx < m.stagedNext ∨ o.data.length ≠ 4096) →
        gives (.recoveryWriteChunk o) { m with rmBusy := true, rmNext := 2, rmCommitOk := false }) ∧
      (∀ o, m.erased = true → m.stagedNext ≤ m.rmIdx → o.data.length = 4096 →
        gives (.recoveryWriteChunk o) { m with rmBusy := true, rmNext := 0, rmCommitOk := false,
                                               staged := m.staged.put m.rmIdx o.data, stagedNext := m.rmIdx + 1 }) ∧
      (∀ b, (m.erased = false ∨ m.stagedNext = 0) → gives (.recoveryCommit b) { m with rmBusy := true, rmNext := 2, rmCommitOk := false }) ∧
      (∀ b, m.erased = true → m.stagedNext ≠ 0 →
        gives (.recoveryCommit b) { m with rmBusy := true, rmNext := if imageOk m.staged then 0 else 1, rmCommitOk := imageOk m.staged })) ∧
    (m.rmBusy = true → m.rmCommitOk = false → gives .recoveryCommandDone { m with rmBusy := false, rmStat := m.rmNext }) ∧
    (m.rmBusy = true → m.rmCommitOk = true → gives .recoveryCommandDone
      { m with rmBusy := false, rmStat := m.rmNext, flash := some m.staged, rmCommitOk := false, erased := false }) ∧
    (m.rmBusy = false → gives .recoveryCommandDone m) ∧
    (∀ b, gives (.mgcSetScrub b) { m with scrub := b }) ∧
    gives .mgcReadSensors { m with sensorReads := m.sensorReads + 1, sensed := some ⟨m.power, m.temp, m.throttle⟩ } ∧
    (m.powerLimit ≤ 24000 → gives (.mgcSetPowerLimit m.powerLimit) m) ∧
    (∀ n, min n 24000 ≠ m.powerLimit → exec (.mgcSetPowerLimit n) s =
      .next (({ s with mgmt := { m with powerLimit := min n 24000 } } : State).cause 0 3)) ∧
    (∀ o : SpdmReq,
      let a := { m with spdmCount := m.spdmCount + 1, spdmLast := Config.spdmAnswer Config.identityKey m.spdmCount o.body }
      gives (.getVersion o) { a with spdmAlgos := false } ∧ gives (.getCapabilities o) a ∧
      gives (.negotiateAlgorithms o) { a with spdmAlgos := true } ∧ gives (.getDigests o) a ∧ gives (.getCertificate o) a ∧
      gives (.challenge o) a ∧ gives (.getMeasurements o) { a with spdmMeas := s.measurements } ∧
      s.measurements.length = 3 ∧ (m.recov = true → s.measurements[1]? = some (List.replicate 64 0)))) ∧
  (∀ (s : State) (o : Sensors),
    let m := s.mgmt
    (m.broughtUp = false ∨ s.now < m.lastTick + 100000 → exec (.throttleTick o) s = .next s) ∧
    (m.broughtUp = true → m.lastTick + 100000 ≤ s.now → ∃ u : State, exec (.throttleTick o) s = .next u ∧ u.mgmt.lastTick = s.now ∧
      ((m.powerLimit < o.power ∨ 1050 < o.temp) → u.mgmt.throttle = min 3 (m.throttle + 1)) ∧
      (o.power ≤ m.powerLimit → o.temp ≤ 1050 → u.mgmt.throttle = m.throttle ∨ u.mgmt.throttle + 1 = m.throttle) ∧
      (o.power ≤ m.powerLimit → o.temp ≤ 1050 → (95 * m.powerLimit ≤ 100 * o.power ∨ 95 * 1050 ≤ 100 * o.temp) →
        u.mgmt.throttle = m.throttle)) ∧
    (m.hotSince = none → exec .throttleShutdown s = .next s) ∧
    (∀ t, m.hotSince = some t → s.now < t + 1000000000 → exec .throttleShutdown s = .next s) ∧
    (∀ t, m.hotSince = some t → t + 1000000000 ≤ s.now → ∃ u : State, exec .throttleShutdown s = .next u ∧
      ∀ c k sl, (k, sl) ∈ (s.core c).slots → sl.task.isSome = true → (s.slotAt c k).task.isSome = true →
        (u.slotAt c k).t.stopping ≠ none))

/-- R42: X0, P0, M0, SEM0 and GD0 are fixed in every slot: they read as the rule says, and writes, raises and pushes of them are
discarded. A wait on SEM0 is satisfied at once, whatever its count: `SEMW` of it completes, a command with await semaphore 0
does not wait at the head of its ring, and one with raise semaphore 0 raises nothing. -/
def Obligations.FixedRegisters : Prop :=
  (∀ (sl : Slot) (v : Word) (b : Bool) (m : MWord) (n : Sem) (g : BitVec 2),
    sl.xr 0 = 0 ∧ sl.setX 0 v = sl ∧ sl.pr 0 = true ∧ sl.setP 0 b = sl ∧ sl.mr 0 = ~~~(0 : MWord) ∧ sl.setM 0 m = sl ∧
    sl.sem 0 = Sem.reset ∧ sl.setSem 0 n = sl ∧ sl.raiseSem 0 = sl ∧ sl.pushSem 0 = sl ∧ sl.guard 0 = 1 ∧ sl.setGuard 0 g = sl) ∧
  (∀ (s : State) (pr : Pred) (a b : Reg) (i : Imm), s.cRuns pr →
    exec (.add ⟨pr, 0, a, b⟩) s = .next (s.advance 4) ∧ exec (.addImm ⟨pr, 0, a, i⟩) s = .next (s.advance (immLen i)) ∧
    exec (.cmpEq ⟨pr, 0, a, b⟩) s = .next (s.advance 4)) ∧
  (∀ (s : State) (o : SemwOp), s.cRuns o.pr → o.s = 0 → (s.me.xr o.a).toNat ≤ 0xFFFFFFFF →
    exec (.semw o) s = .next ((s.setX o.d 0).advance 8)) ∧
  (∀ (s : State) (o : SemrOp), s.cRuns o.pr → o.s = 0 → exec (.semr o) s = .next (s.advance 8)) ∧
  (∀ (sl : Slot) (r : RingId) (w : BitVec 128), cAws w = 0 → cRss w = 0 → sl.pushCheck r w = .ok ()) ∧
  (∀ (s : State) (c k : Nat) (r : RingId), r ≠ .k → (s.slotAt c k).headLive r = true → (s.core c).frozen = false →
    let sl := s.slotAt c k
    let q := sl.ring r
    let w := q.headBits r
    cAws w = 0 →
      (q.head.phase = .awaitDrop → ∃ t, exec (.headDecide ⟨c, k, r⟩) s = .next t ∧ (t.slotAt c k).ring r = q.pop ∧
        (cRss w = 0 → (t.slotAt c k).sems = sl.sems)) ∧
      (q.head.phase = .awaitRun → ∃ t, exec (.headDecide ⟨c, k, r⟩) s = .next t ∧ ((t.slotAt c k).ring r).head.phase ≠ .awaitRun))

/-- R91, R129, R150, R228, R436, R457, R461, R464, R469, R473: reset. Memory lists nothing, no slot holds a task, no function is
ready, and the registers have the reset values of their rules; the root is the only valid currency entry; the stores are in
their canonical form. (Log entries 1 and 18: memory and slots before any launch.) -/
def Obligations.ResetState : Prop :=
  State.reset.storesWf = true ∧ State.reset.mem = [] ∧ State.reset.cycle = 0 ∧ State.reset.mgmt.scrub = false ∧
  (∀ c k, (State.reset.slotAt c k).task = none ∧ (State.reset.core c).seed = 0 ∧ (State.reset.core c).eccLog = 0) ∧
  (∀ c e, e < 6 → (State.reset.core c).gen e = BitVec.ofNat 32 e) ∧
  (∀ c b, ((State.reset.core c).bank b).cfg.toNat = 0xFF * 2 ^ 34) ∧
  (∀ f, let fn := State.reset.fn f
    fn.ready = false ∧ fn.tkdef.toNat = 2 ^ 32 ∧ fn.ptroot = 0 ∧ fn.ctxbase = 0 ∧ fn.save = true ∧ fn.sw = .isIn ∧ fn.wbase = 0 ∧
      fn.jlsz = 8 ∧ fn.frlsz = 8 ∧ fn.trcfg.toNat = 8 * 2 + 0xFFF * 2 ^ 6 ∧ fn.tlbBusy = false ∧ (∀ q, (fn.q q).en = false ∧ (fn.q q).base = 0) ∧
      (∀ v, (vecOf fn v).icoal = 1)) ∧
  (∀ p, let q := State.reset.part p
    q.coreMask = 0 ∧ q.funcMask = 0 ∧ q.qeBal.toNat = 8 + 2 ^ 8 ∧ q.poolBase = 0 ∧ q.bindBase = 0 ∧ q.cellar = 0 ∧ q.dcWays = 0xFFFFFFFF) ∧
  (State.reset.cur? 0).valid = true ∧ (∀ k, k ≠ 0 → (State.reset.cur? k).valid = false)

/-- R50, R51, R63, R133, R134, R163: one step. When the agenda names a stream that may issue, the step runs the instruction
that its word decodes to, after a V stream's loop cut at its end has been filled again and the translation misses of the access
have been counted; it counts the instruction and does what follows every move. The word of a C instruction that waits stays
fetched. An undecodable word traps; an event of the agenda is executed. What the engines run for a word is `exec` of what it decodes to. (That the agenda names the move, and that the
orders of a cycle are kept by moving a late move to the next one, is the model's: log entry 2; no event of the present cycle
has been noted here, and no other slot of the core has a word fetched.) -/
def Obligations.StepRunsDecoded : Prop :=
  (∀ (s : State) (n c k : Nat) (st : Strm) (rest : List Turn), s.agenda = ⟨n, .stream c k st⟩ :: rest → (st = .c ∨ st = .v) → k < 8 →
    let u : State := { ({ s with agenda := rest } : State).tick n with cur := ⟨c, k, st⟩ }
    let ss := (u.slotAt c k).ss st
    let mayRun : Prop :=
      if st = .c then u.cpCan c k = true ∧ (u.core c).issued = false ∧ ∀ j, j ≠ k → (u.slotAt c j).cs.fetched = false
      else u.slotRuns c k = true ∧ ss.ended = false ∧ ss.heldAt = none ∧ ss.stopped = false ∧ ss.canStop = false ∧
        (u.core c).vxe.holder = some k
    let leads (t : State) : Prop :=
      if st = .c then
        ((t.slotAt c k).cs.waiting = none → ∃ l, step s = .next (((t.setFetched c k false).issuedFor c k).note l).after) ∧
        ((t.slotAt c k).cs.waiting ≠ none → (∀ j, j ≠ k → (t.slotAt c j).cs.fetched = false) →
          ∃ l, step s = .next ((t.setFetched c k true).note l).after)
      else ∃ l, step s = .next ((t.noteV c k ss).note l).after
    let b : State := (if st = .c then u else u.refillV c k).fetchMisses c k st
    mayRun → (u.slotAt c k).dbg.st ≠ .stepping → u.did = [] →
      (∀ w i l, b.fetch c k st = .ok w → (if st = .c then decodeC w else decodeV w) = .ok (i, l) →
        ∃ t, exec i (if st = .c then b.dataMisses i else b) = .next t ∧ leads (if st = .c then t.noteIssue c k else t)) ∧
      (∀ w e, b.fetch c k st = .ok w → (if st = .c then decodeC w else decodeV w) = .error e →
        leads (b.trapEntry c k (if e = .format then fFormat else fIllegal) st ss.pc 0)) ∧
      (∀ e va, b.fetch c k st = .error (e, va) → leads (b.trapEntry c k e st ss.pc va))) ∧
  (∀ (s : State) (n : Nat) (i : Instr) (rest : List Turn), s.agenda = ⟨n, .event i⟩ :: rest → isEvent i = true →
    let u := ({ s with agenda := rest } : State).tick n
    u.did = [] → ∃ t l, exec i u = .next t ∧ step s = .next (t.note l).after) ∧
  (∀ (r : RingId) (w : BitVec 128) (i : Instr), decodeCmd r w = .ok i → ∃ run, runCmd r w = some run ∧ ∀ s, run s = exec i s)

/-- R55: a C-stream instruction whose predicate does not hold only advances the program counter; `SEL` alone gives p another
role. -/
def Obligations.SkippedInstructions : Prop :=
  ∀ (s : State) (i : Instr) (f : Fields), s.cur.strm = .c → fieldsC i = some f → (∀ o, i ≠ .sel o) →
    (s.me.pr f.p ^^ f.pn) = false → exec i s = .next (s.advance f.len.bytes)

/-- R186 to R188: at the end of a pass the innermost loop starts its next pass with the stage predicates of that pass, or ends
after limit + S − 1 passes and leaves them; a requested stop cuts the limit to the iterations begun and ends after the
epilogue (at once when S = 1), and on resumption the loop starts again with the iterations that remain; where no further
iteration was due the loop runs to its end. When an inner loop ends at the last word of the enclosing body, the enclosing
loop's pass ends too. Elsewhere the stream goes on. -/
def Obligations.LoopPassResults : Prop :=
  ∀ (s : State) (len : Nat) (l : HwLoop) (rest : List HwLoop), s.cur.strm = .c → s.me.cs.loops = l :: rest →
    let next := s.me.cs.pc + BitVec.ofNat 64 len
    let t := s.advance len
    let at' (pc : Word) (loops : List HwLoop) : Prop :=
      t.me.cs = { s.me.cs with pc := pc, loops := loops, waiting := none, resolved := [], atStop := t.me.cs.atStop } ∧ t.me.x = s.me.x
    let kept (pc : Word) (loops : List HwLoop) : Prop := at' pc loops ∧ t.me.p = s.me.p
    let begun (l' : HwLoop) (out : List HwLoop) : Prop :=
      at' l'.start (l' :: out) ∧ t.me.cs.atStop = false ∧ (l'.base = 0 → t.me.p = s.me.p) ∧ (l'.base ≠ 0 → l'.base + l'.stages ≤ 8 →
        (∀ j, j < l'.stages → t.me.pr (BitVec.ofNat 3 (l'.base + j)) = decide (j ≤ l'.pass ∧ l'.pass - j < l'.limit)) ∧
        (∀ p : PReg, p.toNat < l'.base ∨ l'.base + l'.stages ≤ p.toNat → t.me.pr p = s.me.pr p))
    let asked := s.me.cs.stopReq ≠ none
    let cuts := asked ∧ l.np = false ∧ (∀ x ∈ rest, x.np = false ∧ x.cut = false) ∧ l.cut = false ∧ l.pass + 1 < l.limit
    let cutL : HwLoop := { l with pass := l.pass + 1, limit := l.pass + 1, remain := l.total - (l.pass + 1), cut := true }
    let ends := next = l.stop ∧ l.cut = false ∧ l.pass + 2 = l.limit + l.stages ∧ (asked → l.limit ≤ l.pass + 1)
    (next ≠ l.stop → kept next (l :: rest)) ∧
    (next = l.stop → s.me.cs.stopReq = none → l.pass + 2 ≠ l.limit + l.stages → begun { l with pass := l.pass + 1 } rest) ∧
    (next = l.stop → asked → l.limit ≤ l.pass + 1 → l.pass + 2 ≠ l.limit + l.stages → begun { l with pass := l.pass + 1 } rest) ∧
    (ends → rest = [] → kept next []) ∧
    (ends → ∀ r more, rest = r :: more → r.stop ≠ next → kept next rest) ∧
    (ends → ∀ r more, rest = r :: more → r.stop = next → s.me.cs.stopReq = none → r.cut = false →
      (r.pass + 2 ≠ r.limit + r.stages → begun { r with pass := r.pass + 1 } more) ∧
      (r.pass + 2 = r.limit + r.stages → more = [] → kept next [])) ∧
    (next = l.stop → cuts → 1 < l.stages → begun cutL rest) ∧
    (next = l.stop → cuts → l.stages = 1 → kept l.start (cutL :: rest) ∧ t.me.cs.atStop = true) ∧
    (next = l.stop → l.cut = true → l.pass + 2 = l.limit + l.stages →
      (asked → kept l.start ({ l with pass := l.pass + 1 } :: rest) ∧ t.me.cs.atStop = true) ∧
      (s.me.cs.stopReq = none → begun l.refilled rest)) ∧
    (l.cut = true → l.pass + 1 = l.limit + l.stages →
      let u := s.me.resume
      u.cs = { s.me.cs with loops := l.refilled :: rest, stopReq := none, stopped := false, atStop := false } ∧ u.x = s.me.x ∧
        (l.base ≠ 0 → l.base + l.stages ≤ 8 → ∀ j, j < l.stages →
          u.pr (BitVec.ofNat 3 (l.base + j)) = decide (j = 0 ∧ 0 < l.remain)))

/-- R41, R55, R165 to R182: outside loops, a register instruction of the C stream changes of the whole machine only X[d] (a
comparison and predicate logic P[d] instead), the slot's flags where its rule names some, and the stream's place. -/
def Obligations.RegisterInstructionFrame : Prop :=
  let frame (s : State) (d : Option Reg) (q : Option PReg) (fl : Bool) (i : Instr) : Prop :=
    s.cur.strm = .c → s.me.cs.loops = [] → ∃ t : State, exec i s = .next t ∧
      (∀ r : Reg, some r ≠ d → t.me.xr r = s.me.xr r) ∧ (∀ p : PReg, some p ≠ q → t.me.pr p = s.me.pr p) ∧
      (fl = false → t.me.flags = s.me.flags) ∧ (∀ a, t.mem.byte a = s.mem.byte a) ∧
      t = s.modMe fun sl => { sl with x := t.me.x, p := t.me.p, flags := t.me.flags, cs := t.me.cs }
  (∀ (s : State) (o : RRR) (f : RRR → Instr), f ∈ [Instr.add, .sub, .and, .or, .xor, .andn, .orn, .shl, .shr, .sra, .rol, .min, .max,
    .minu, .maxu, .mul, .mulh, .mulhu, .sel, .lea] → frame s (some o.d) none false (f o)) ∧
  (∀ (s : State) (o : RRR) (f : RRR → Instr), f ∈ [Instr.div, .divu, .rem, .remu] → frame s (some o.d) none true (f o)) ∧
  (∀ (s : State) (o : RRI) (f : RRI → Instr), f ∈ [Instr.addImm, .subImm, .andImm, .orImm, .xorImm, .andnImm, .ornImm, .shlImm, .shrImm,
    .sraImm, .rolImm, .minImm, .maxImm, .minuImm, .maxuImm, .mulImm, .mulhImm, .mulhuImm, .leaImm] → frame s (some o.d) none false (f o)) ∧
  (∀ (s : State) (o : RRI) (f : RRI → Instr), f ∈ [Instr.divImm, .divuImm, .remImm, .remuImm] → frame s (some o.d) none true (f o)) ∧
  (∀ (s : State) (o : RR) (f : RR → Instr), f ∈ [Instr.clz, .ctz, .popc, .brev, .mov] → frame s (some o.d) none false (f o)) ∧
  (∀ (s : State) (o : FieldOp) (f : FieldOp → Instr), f ∈ [Instr.sext, .zext, .bext, .bins] → frame s (some o.d) none false (f o)) ∧
  (∀ (s : State) (o : CmpR) (f : CmpR → Instr), f ∈ [Instr.cmpEq, .cmpNe, .cmpLt, .cmpGe, .cmpLtu, .cmpGeu] →
    frame s none (some o.d) false (f o)) ∧
  (∀ (s : State) (o : CmpI) (f : CmpI → Instr), f ∈ [Instr.cmpEqImm, .cmpNeImm, .cmpLtImm, .cmpGeImm, .cmpLtuImm, .cmpGeuImm] →
    frame s none (some o.d) false (f o)) ∧
  (∀ (s : State) (o : PRRR) (f : PRRR → Instr), f ∈ [Instr.pand, .por, .pxor] → frame s none (some o.d) false (f o)) ∧
  (∀ (s : State) (o : FpRRR) (f : FpRRR → Instr), f ∈ [Instr.fadd, .fsub, .fmul, .fdiv] → frame s (some o.d) none true (f o)) ∧
  (∀ (s : State) (o : FcmpOp) (f : FcmpOp → Instr), f ∈ [Instr.fcmpEq, .fcmpNe, .fcmpLt, .fcmpLe, .fcmpUn] → frame s none (some o.d) true (f o)) ∧
  (∀ (s : State) (o : Li16), frame s (some o.d) none false (.li o)) ∧
  (∀ (s : State) (o : Li32) (f : Li32 → Instr), f ∈ [Instr.liK96, .liHi] → frame s (some o.d) none false (f o)) ∧
  (∀ (s : State) (o : PRR), frame s none (some o.d) false (.pnot o)) ∧
  (∀ (s : State) (o : FpRRRx) (f : FpRRRx → Instr), f ∈ [Instr.fmin, .fmax] → frame s (some o.d) none true (f o)) ∧
  (∀ (s : State) (o : FpRRRx) (f : FpRRRx → Instr), f ∈ [Instr.fsgn, .fsgnN, .fsgnX] → frame s (some o.d) none false (f o)) ∧
  (∀ (s : State) (o : FpRR) (f : FpRR → Instr), f ∈ [Instr.fsqrt, .fcvtFi, .fcvtFu, .fcvtIf, .fcvtUf] → frame s (some o.d) none true (f o)) ∧
  (∀ (s : State) (o : FpRRRR), frame s (some o.d) none true (.ffma o)) ∧
  (∀ (s : State) (o : FcvtFF), frame s (some o.d) none true (.fcvtFf o)) ∧
  (∀ (s : State) (o : FpRRx), frame s (some o.d) none false (.fclass o))

/-- R41, R55, R189, R190, R372, R373: outside loops, a load from memory or from the home region changes no byte of memory or scratchpad and no register but X[d]; a store and an
atomic change no byte of memory outside the bytes at the address they compute, and a home-region store none of memory and
none of the scratchpad outside its own; a compare-and-swap that does not match stores nothing; what a device store leaves reads back as the bytes stored. Memory is in its canonical
form (StoresStayCanonical). -/
def Obligations.MemoryInstructionFrame : Prop :=
  let rest (s t : State) (d : Option Reg) : Prop :=
    (∀ r : Reg, some r ≠ d → t.me.xr r = s.me.xr r) ∧ (∀ p : PReg, t.me.pr p = s.me.pr p) ∧ t.me.flags = s.me.flags ∧
    t.me.cs.loops = [] ∧
    (∀ c k, (c ≠ s.cur.core ∨ k ≠ s.cur.slot) → (t.slotAt c k).x = (s.slotAt c k).x ∧ (t.slotAt c k).p = (s.slotAt c k).p ∧
      (t.slotAt c k).v = (s.slotAt c k).v ∧ (t.slotAt c k).flags = (s.slotAt c k).flags ∧ (t.slotAt c k).task = (s.slotAt c k).task) ∧
    t.curs = s.curs ∧ t.parts = s.parts
  let outside (s t : State) (pa n : Nat) : Prop := ∀ a, a < pa ∨ pa + n ≤ a → t.mem.byte a = s.mem.byte a
  (∀ (s : State) (o : LdOp) (pa n : Nat) (f : LdOp → Instr),
    (f, n) ∈ [(Instr.ldB, 1), (.ldH, 2), (.ldW, 4), (.ldD, 8), (.ldBu, 1), (.ldHu, 2), (.ldWu, 4)] → s.cRuns o.pr → s.me.cs.loops = [] →
    s.dataPa (s.me.xr o.a + immWord o.off) n .rd = .ok pa → (isHost pa = true ∨ poisoned s.memPoison 64 pa n = false) →
      ∃ t, exec (f o) s = .next t ∧ rest s t (some o.d) ∧ t.mem = s.mem) ∧
  (∀ (s : State) (o : LdxOp) (n : Nat) (f : LdxOp → Instr), (f, n) ∈ [(Instr.ldxB, 1), (.ldxH, 2), (.ldxW, 4), (.ldxD, 8)] → s.cRuns o.pr →
    s.me.cs.loops = [] →
    let a := (s.me.xr o.a + BitVec.ofInt 64 o.imm.toInt).toNat
    a < 0x40000 → a % n = 0 → poisoned (s.core s.cur.core).scratchPoison 8 (0x40000 * s.cur.slot + a) n = false →
      ∃ t : State, exec (f o) s = .next t ∧ rest s t (some o.d) ∧ t.mem = s.mem ∧ t.cores = (s.modMe fun _ => t.me).cores) ∧
  (∀ (s : State) (o : StOp) (pa n : Nat) (f : StOp → Instr), (f, n) ∈ [(Instr.stB, 1), (.stH, 2), (.stW, 4), (.stD, 8)] → s.cRuns o.pr →
    s.me.cs.loops = [] → s.mem.wf = true → s.dataPa (s.me.xr o.a + immWord o.off) n .wr = .ok pa →
    (isHost pa = true ∨ (s.part s.me.t.part).inPool pa n = false) →
      ∃ t, exec (f o) s = .next t ∧ rest s t none ∧ outside s t pa n ∧ t.mem.nat pa n = (s.me.xr o.b).toNat % 256 ^ n) ∧
  (∀ (s : State) (o : StxOp) (n : Nat) (f : StxOp → Instr), (f, n) ∈ [(Instr.stxB, 1), (.stxH, 2), (.stxW, 4), (.stxD, 8)] → s.cRuns o.pr →
    s.me.cs.loops = [] → (s.core s.cur.core).scratch.wf = true →
    let a := (s.me.xr o.a + BitVec.ofInt 64 o.imm.toInt).toNat
    a < 0x40000 → a % n = 0 →
      ∃ t : State, exec (f o) s = .next t ∧ rest s t none ∧ t.mem = s.mem ∧ ∀ i, (i < 0x40000 * s.cur.slot + a ∨ 0x40000 * s.cur.slot + a + n ≤ i) →
        (t.core s.cur.core).scratch.byte i = (s.core s.cur.core).scratch.byte i) ∧
  (∀ (s : State) (o : AmoOp) (pa : Nat) (f : AmoOp → Instr), f ∈ [Instr.amoAdd, .amoAnd, .amoOr, .amoXor, .amoMin, .amoMax, .amoMinu, .amoMaxu,
    .amoXchg] → s.cRuns o.pr → s.me.cs.loops = [] → s.mem.wf = true →
    let n := if o.dbl then 8 else 4
    s.dataPa (s.me.xr o.a + BitVec.ofInt 64 o.imm.toInt) n .rw = .ok pa → isHost pa = false → (s.part s.me.t.part).inPool pa n = false →
    poisoned s.memPoison 64 pa n = false → ∃ t, exec (f o) s = .next t ∧ rest s t (some o.d) ∧ outside s t pa n) ∧
  (∀ (s : State) (o : CasOp) (pa : Nat), s.cRuns o.pr → s.me.cs.loops = [] → s.mem.wf = true →
    let n := if o.dbl then 8 else 4
    s.dataPa (s.me.xr o.a) n .rw = .ok pa → isHost pa = false → (s.part s.me.t.part).inPool pa n = false →
    poisoned s.memPoison 64 pa n = false → ∃ t, exec (.cas o) s = .next t ∧ rest s t (some o.d) ∧ outside s t pa n ∧
      (s.mem.nat pa n ≠ (s.me.xr o.b).toNat % 256 ^ n → t.mem = s.mem))

/-- R51 to R54, R63: for every well-formed instruction of the C stream, decoding its word gives it back with its length; and a
word that decodes is, up to its length, the word of what it decodes to. -/
def Obligations.ControlWordsRoundTrip : Prop :=
  (∀ (i : Instr) (w : BitVec 96) (l : Len), i.wf = true → encode false i = some (w, l) → decodeC w = .ok (i, l)) ∧
  (∀ (w : BitVec 96) (i : Instr) (l : Len), decodeC w = .ok (i, l) →
    ∃ v, encode false i = some (v, l) ∧ v.toNat = w.toNat % 256 ^ l.bytes)

/-- R51 to R54, R63, R67: the same of the V stream's words. -/
def Obligations.VectorWordsRoundTrip : Prop :=
  (∀ (i : Instr) (w : BitVec 96) (l : Len), i.wf = true → encode true i = some (w, l) → decodeV w = .ok (i, l)) ∧
  (∀ (w : BitVec 96) (i : Instr) (l : Len), decodeV w = .ok (i, l) →
    ∃ v, encode true i = some (v, l) ∧ v.toNat = w.toNat % 256 ^ l.bytes)

/-- R70 to R73: the same of the engines' commands, in the ring of their engine. -/
def Obligations.CommandsRoundTrip : Prop :=
  (∀ (i : Instr) (w : BitVec 128), i.wf = true → bitsCmd i = some w → ∃ r, decodeCmd r w = .ok i) ∧
  (∀ (r : RingId) (w : BitVec 128) (i : Instr), decodeCmd r w = .ok i → bitsCmd i = some w)

/-- In every state whose stores are in their canonical form (keys rising, no entry equal to what an unlisted one reads as: log
entry 1), every step leaves them so. (The form is the model's: log entry 1.) -/
def Obligations.StoresStayCanonical : Prop :=
  ∀ s t : State, s.storesWf = true → step s = .next t → t.storesWf = true

/-- R51 to R54, R63, R65, R67, R70 to R73: words written out from the manual's layouts, and what they decode to; a word of zeros
and a word of length code 11 are illegal. -/
def Obligations.WordsDecode : Prop :=
  decodeC 0x00104604#96 = .ok (.add ⟨⟨0, false⟩, 3, 1, 2⟩, .k32) ∧
  decodeC 0x0B104604#96 = .ok (.add ⟨⟨3, true⟩, 3, 1, 2⟩, .k32) ∧
  decodeC 0x0008300600004701#96 = .ok (.ldD ⟨⟨0, false⟩, 3, 1, 0, 3, .i16 8⟩, .k64) ∧
  decodeC 0x50000000400004422#96 = .ok (.cmpLtImm ⟨⟨0, false⟩, 2, 1, .i32 5⟩, .k96) ∧
  decodeC 0x0000000000104149#96 = .ok (.xpsh ⟨⟨0, false⟩, 1, 2, none⟩, .k64) ∧
  decodeC 0x000001D8#96 = .ok (.halt ⟨0, false⟩, .k32) ∧
  decodeC 0#96 = .error .illegal ∧ decodeC 0x00104607#96 = .error .illegal ∧
  decodeV 0x00104604#96 = .ok (.viadd ⟨⟨0, false⟩, 3, 1, 2⟩, .k32) ∧
  decodeV 0x0000008000104681#96 = .ok (.vadd ⟨⟨0, false⟩, 3, 1, 2, 1, 0, false⟩, .k64) ∧
  decodeV 0#96 = .error .illegal ∧
  decodeCmd .x 0x7000000000000142B#128 = .ok (.xnote ⟨2, 5, 0, false, false, 7⟩)

/-- R66, R69: a word whose major opcode the stream's map leaves unassigned raises F_ILLEGAL when the stream comes to it. -/
def Obligations.UnassignedOpcodesAreIllegal : Prop :=
  let between (lo hi op : Nat) : Prop := lo ≤ op ∧ op ≤ hi
  let freeC (op : Nat) : Prop := op = 0 ∨ between 0x0A 0x1F op ∨ between 0x25 0x2F op ∨ between 0x36 0x3F op ∨ between 0x4A 0x4F op ∨
    between 0x5B 0x5F op ∨ between 0x6D 0x6F op ∨ between 0x79 0x7E op ∨ op = 0x7F
  let freeV (op : Nat) : Prop := op = 0 ∨ between 0x03 0x07 op ∨ between 0x0D 0x1F op ∨ between 0x25 0x2F op ∨ between 0x31 0x34 op ∨
    between 0x36 0x3F op ∨ between 0x43 0x4F op ∨ op = 0x54 ∨ between 0x56 0x5F op ∨ between 0x62 0x6F op ∨ between 0x70 0x72 op ∨
    between 0x78 0x7E op ∨ op = 0x7F
  ∀ (s : State) (w : BitVec 96),
    let c := s.cur.core
    let k := s.cur.slot
    let b (st : Strm) : State := s.fetchMisses c k st
    (freeC (w.toNat / 4 % 128) → decodeC w = .error .illegal ∧
      (s.cur.strm = .c → (b .c).fetch c k .c = .ok w → s.cIssue = .next ((b .c).trapEntry c k fIllegal .c s.me.cs.pc 0))) ∧
    (freeV (w.toNat / 4 % 128) → decodeV w = .error .illegal ∧
      (s.cur.strm = .v → (b .v).fetch c k .v = .ok w → s.vIssue = .next ((b .v).trapEntry c k fIllegal .v s.me.vs.pc 0)))
end

