-- ==== Sys2Proof/Laws/Exec.lean ====
section
/-! SUPPORT. What `exec` calls for each instruction. -/

namespace Sys2Proof.Machine

@[simp] theorem exec_add (o : RRR) (s : State) : exec (.add o) s = execAdd o s := rfl
@[simp] theorem exec_sub (o : RRR) (s : State) : exec (.sub o) s = execSub o s := rfl
@[simp] theorem exec_and (o : RRR) (s : State) : exec (.and o) s = execAnd o s := rfl
@[simp] theorem exec_or (o : RRR) (s : State) : exec (.or o) s = execOr o s := rfl
@[simp] theorem exec_xor (o : RRR) (s : State) : exec (.xor o) s = execXor o s := rfl
@[simp] theorem exec_andn (o : RRR) (s : State) : exec (.andn o) s = execAndn o s := rfl
@[simp] theorem exec_orn (o : RRR) (s : State) : exec (.orn o) s = execOrn o s := rfl
@[simp] theorem exec_shl (o : RRR) (s : State) : exec (.shl o) s = execShl o s := rfl
@[simp] theorem exec_shr (o : RRR) (s : State) : exec (.shr o) s = execShr o s := rfl
@[simp] theorem exec_sra (o : RRR) (s : State) : exec (.sra o) s = execSra o s := rfl
@[simp] theorem exec_rol (o : RRR) (s : State) : exec (.rol o) s = execRol o s := rfl
@[simp] theorem exec_min (o : RRR) (s : State) : exec (.min o) s = execMin o s := rfl
@[simp] theorem exec_max (o : RRR) (s : State) : exec (.max o) s = execMax o s := rfl
@[simp] theorem exec_minu (o : RRR) (s : State) : exec (.minu o) s = execMinu o s := rfl
@[simp] theorem exec_maxu (o : RRR) (s : State) : exec (.maxu o) s = execMaxu o s := rfl
@[simp] theorem exec_addImm (o : RRI) (s : State) : exec (.addImm o) s = execAddImm o s := rfl
@[simp] theorem exec_subImm (o : RRI) (s : State) : exec (.subImm o) s = execSubImm o s := rfl
@[simp] theorem exec_andImm (o : RRI) (s : State) : exec (.andImm o) s = execAndImm o s := rfl
@[simp] theorem exec_orImm (o : RRI) (s : State) : exec (.orImm o) s = execOrImm o s := rfl
@[simp] theorem exec_xorImm (o : RRI) (s : State) : exec (.xorImm o) s = execXorImm o s := rfl
@[simp] theorem exec_andnImm (o : RRI) (s : State) : exec (.andnImm o) s = execAndnImm o s := rfl
@[simp] theorem exec_ornImm (o : RRI) (s : State) : exec (.ornImm o) s = execOrnImm o s := rfl
@[simp] theorem exec_shlImm (o : RRI) (s : State) : exec (.shlImm o) s = execShlImm o s := rfl
@[simp] theorem exec_shrImm (o : RRI) (s : State) : exec (.shrImm o) s = execShrImm o s := rfl
@[simp] theorem exec_sraImm (o : RRI) (s : State) : exec (.sraImm o) s = execSraImm o s := rfl
@[simp] theorem exec_rolImm (o : RRI) (s : State) : exec (.rolImm o) s = execRolImm o s := rfl
@[simp] theorem exec_minImm (o : RRI) (s : State) : exec (.minImm o) s = execMinImm o s := rfl
@[simp] theorem exec_maxImm (o : RRI) (s : State) : exec (.maxImm o) s = execMaxImm o s := rfl
@[simp] theorem exec_minuImm (o : RRI) (s : State) : exec (.minuImm o) s = execMinuImm o s := rfl
@[simp] theorem exec_maxuImm (o : RRI) (s : State) : exec (.maxuImm o) s = execMaxuImm o s := rfl
@[simp] theorem exec_mul (o : RRR) (s : State) : exec (.mul o) s = execMul o s := rfl
@[simp] theorem exec_mulh (o : RRR) (s : State) : exec (.mulh o) s = execMulh o s := rfl
@[simp] theorem exec_mulhu (o : RRR) (s : State) : exec (.mulhu o) s = execMulhu o s := rfl
@[simp] theorem exec_div (o : RRR) (s : State) : exec (.div o) s = execDiv o s := rfl
@[simp] theorem exec_divu (o : RRR) (s : State) : exec (.divu o) s = execDivu o s := rfl
@[simp] theorem exec_rem (o : RRR) (s : State) : exec (.rem o) s = execRem o s := rfl
@[simp] theorem exec_remu (o : RRR) (s : State) : exec (.remu o) s = execRemu o s := rfl
@[simp] theorem exec_mulImm (o : RRI) (s : State) : exec (.mulImm o) s = execMulImm o s := rfl
@[simp] theorem exec_mulhImm (o : RRI) (s : State) : exec (.mulhImm o) s = execMulhImm o s := rfl
@[simp] theorem exec_mulhuImm (o : RRI) (s : State) : exec (.mulhuImm o) s = execMulhuImm o s := rfl
@[simp] theorem exec_divImm (o : RRI) (s : State) : exec (.divImm o) s = execDivImm o s := rfl
@[simp] theorem exec_divuImm (o : RRI) (s : State) : exec (.divuImm o) s = execDivuImm o s := rfl
@[simp] theorem exec_remImm (o : RRI) (s : State) : exec (.remImm o) s = execRemImm o s := rfl
@[simp] theorem exec_remuImm (o : RRI) (s : State) : exec (.remuImm o) s = execRemuImm o s := rfl
@[simp] theorem exec_clz (o : RR) (s : State) : exec (.clz o) s = execClz o s := rfl
@[simp] theorem exec_ctz (o : RR) (s : State) : exec (.ctz o) s = execCtz o s := rfl
@[simp] theorem exec_popc (o : RR) (s : State) : exec (.popc o) s = execPopc o s := rfl
@[simp] theorem exec_brev (o : RR) (s : State) : exec (.brev o) s = execBrev o s := rfl
@[simp] theorem exec_mov (o : RR) (s : State) : exec (.mov o) s = execMov o s := rfl
@[simp] theorem exec_sext (o : FieldOp) (s : State) : exec (.sext o) s = execSext o s := rfl
@[simp] theorem exec_zext (o : FieldOp) (s : State) : exec (.zext o) s = execZext o s := rfl
@[simp] theorem exec_bext (o : FieldOp) (s : State) : exec (.bext o) s = execBext o s := rfl
@[simp] theorem exec_bins (o : FieldOp) (s : State) : exec (.bins o) s = execBins o s := rfl
@[simp] theorem exec_li (o : Li16) (s : State) : exec (.li o) s = execLi o s := rfl
@[simp] theorem exec_liK96 (o : Li32) (s : State) : exec (.liK96 o) s = execLiK96 o s := rfl
@[simp] theorem exec_liHi (o : Li32) (s : State) : exec (.liHi o) s = execLiHi o s := rfl
@[simp] theorem exec_sel (o : RRR) (s : State) : exec (.sel o) s = execSel o s := rfl
@[simp] theorem exec_lea (o : RRR) (s : State) : exec (.lea o) s = execLea o s := rfl
@[simp] theorem exec_leaImm (o : RRI) (s : State) : exec (.leaImm o) s = execLeaImm o s := rfl
@[simp] theorem exec_cmpEq (o : CmpR) (s : State) : exec (.cmpEq o) s = execCmpEq o s := rfl
@[simp] theorem exec_cmpNe (o : CmpR) (s : State) : exec (.cmpNe o) s = execCmpNe o s := rfl
@[simp] theorem exec_cmpLt (o : CmpR) (s : State) : exec (.cmpLt o) s = execCmpLt o s := rfl
@[simp] theorem exec_cmpGe (o : CmpR) (s : State) : exec (.cmpGe o) s = execCmpGe o s := rfl
@[simp] theorem exec_cmpLtu (o : CmpR) (s : State) : exec (.cmpLtu o) s = execCmpLtu o s := rfl
@[simp] theorem exec_cmpGeu (o : CmpR) (s : State) : exec (.cmpGeu o) s = execCmpGeu o s := rfl
@[simp] theorem exec_cmpEqImm (o : CmpI) (s : State) : exec (.cmpEqImm o) s = execCmpEqImm o s := rfl
@[simp] theorem exec_cmpNeImm (o : CmpI) (s : State) : exec (.cmpNeImm o) s = execCmpNeImm o s := rfl
@[simp] theorem exec_cmpLtImm (o : CmpI) (s : State) : exec (.cmpLtImm o) s = execCmpLtImm o s := rfl
@[simp] theorem exec_cmpGeImm (o : CmpI) (s : State) : exec (.cmpGeImm o) s = execCmpGeImm o s := rfl
@[simp] theorem exec_cmpLtuImm (o : CmpI) (s : State) : exec (.cmpLtuImm o) s = execCmpLtuImm o s := rfl
@[simp] theorem exec_cmpGeuImm (o : CmpI) (s : State) : exec (.cmpGeuImm o) s = execCmpGeuImm o s := rfl
@[simp] theorem exec_pand (o : PRRR) (s : State) : exec (.pand o) s = execPand o s := rfl
@[simp] theorem exec_por (o : PRRR) (s : State) : exec (.por o) s = execPor o s := rfl
@[simp] theorem exec_pxor (o : PRRR) (s : State) : exec (.pxor o) s = execPxor o s := rfl
@[simp] theorem exec_pnot (o : PRR) (s : State) : exec (.pnot o) s = execPnot o s := rfl
@[simp] theorem exec_fadd (o : FpRRR) (s : State) : exec (.fadd o) s = execFadd o s := rfl
@[simp] theorem exec_fsub (o : FpRRR) (s : State) : exec (.fsub o) s = execFsub o s := rfl
@[simp] theorem exec_fmul (o : FpRRR) (s : State) : exec (.fmul o) s = execFmul o s := rfl
@[simp] theorem exec_fdiv (o : FpRRR) (s : State) : exec (.fdiv o) s = execFdiv o s := rfl
@[simp] theorem exec_fmin (o : FpRRRx) (s : State) : exec (.fmin o) s = execFmin o s := rfl
@[simp] theorem exec_fmax (o : FpRRRx) (s : State) : exec (.fmax o) s = execFmax o s := rfl
@[simp] theorem exec_fsqrt (o : FpRR) (s : State) : exec (.fsqrt o) s = execFsqrt o s := rfl
@[simp] theorem exec_ffma (o : FpRRRR) (s : State) : exec (.ffma o) s = execFfma o s := rfl
@[simp] theorem exec_fcmpEq (o : FcmpOp) (s : State) : exec (.fcmpEq o) s = execFcmpEq o s := rfl
@[simp] theorem exec_fcmpNe (o : FcmpOp) (s : State) : exec (.fcmpNe o) s = execFcmpNe o s := rfl
@[simp] theorem exec_fcmpLt (o : FcmpOp) (s : State) : exec (.fcmpLt o) s = execFcmpLt o s := rfl
@[simp] theorem exec_fcmpLe (o : FcmpOp) (s : State) : exec (.fcmpLe o) s = execFcmpLe o s := rfl
@[simp] theorem exec_fcmpUn (o : FcmpOp) (s : State) : exec (.fcmpUn o) s = execFcmpUn o s := rfl
@[simp] theorem exec_fcvtFf (o : FcvtFF) (s : State) : exec (.fcvtFf o) s = execFcvtFf o s := rfl
@[simp] theorem exec_fcvtFi (o : FpRR) (s : State) : exec (.fcvtFi o) s = execFcvtFi o s := rfl
@[simp] theorem exec_fcvtFu (o : FpRR) (s : State) : exec (.fcvtFu o) s = execFcvtFu o s := rfl
@[simp] theorem exec_fcvtIf (o : FpRR) (s : State) : exec (.fcvtIf o) s = execFcvtIf o s := rfl
@[simp] theorem exec_fcvtUf (o : FpRR) (s : State) : exec (.fcvtUf o) s = execFcvtUf o s := rfl
@[simp] theorem exec_fclass (o : FpRRx) (s : State) : exec (.fclass o) s = execFclass o s := rfl
@[simp] theorem exec_fsgn (o : FpRRRx) (s : State) : exec (.fsgn o) s = execFsgn o s := rfl
@[simp] theorem exec_fsgnN (o : FpRRRx) (s : State) : exec (.fsgnN o) s = execFsgnN o s := rfl
@[simp] theorem exec_fsgnX (o : FpRRRx) (s : State) : exec (.fsgnX o) s = execFsgnX o s := rfl
@[simp] theorem exec_bp (o : BpOp) (s : State) : exec (.bp o) s = execBp o s := rfl
@[simp] theorem exec_jr (o : JrOp) (s : State) : exec (.jr o) s = execJr o s := rfl
@[simp] theorem exec_call (o : CallOp) (s : State) : exec (.call o) s = execCall o s := rfl
@[simp] theorem exec_callr (o : RR) (s : State) : exec (.callr o) s = execCallr o s := rfl
@[simp] theorem exec_ret (o : JrOp) (s : State) : exec (.ret o) s = execRet o s := rfl
@[simp] theorem exec_hloop (o : HloopOp) (s : State) : exec (.hloop o) s = execHloop o s := rfl
@[simp] theorem exec_hloopNp (o : HloopOp) (s : State) : exec (.hloopNp o) s = execHloopNp o s := rfl
@[simp] theorem exec_ldB (o : LdOp) (s : State) : exec (.ldB o) s = execLdB o s := rfl
@[simp] theorem exec_ldH (o : LdOp) (s : State) : exec (.ldH o) s = execLdH o s := rfl
@[simp] theorem exec_ldW (o : LdOp) (s : State) : exec (.ldW o) s = execLdW o s := rfl
@[simp] theorem exec_ldD (o : LdOp) (s : State) : exec (.ldD o) s = execLdD o s := rfl
@[simp] theorem exec_ldBu (o : LdOp) (s : State) : exec (.ldBu o) s = execLdBu o s := rfl
@[simp] theorem exec_ldHu (o : LdOp) (s : State) : exec (.ldHu o) s = execLdHu o s := rfl
@[simp] theorem exec_ldWu (o : LdOp) (s : State) : exec (.ldWu o) s = execLdWu o s := rfl
@[simp] theorem exec_stB (o : StOp) (s : State) : exec (.stB o) s = execStB o s := rfl
@[simp] theorem exec_stH (o : StOp) (s : State) : exec (.stH o) s = execStH o s := rfl
@[simp] theorem exec_stW (o : StOp) (s : State) : exec (.stW o) s = execStW o s := rfl
@[simp] theorem exec_stD (o : StOp) (s : State) : exec (.stD o) s = execStD o s := rfl
@[simp] theorem exec_ldxB (o : LdxOp) (s : State) : exec (.ldxB o) s = execLdxB o s := rfl
@[simp] theorem exec_ldxH (o : LdxOp) (s : State) : exec (.ldxH o) s = execLdxH o s := rfl
@[simp] theorem exec_ldxW (o : LdxOp) (s : State) : exec (.ldxW o) s = execLdxW o s := rfl
@[simp] theorem exec_ldxD (o : LdxOp) (s : State) : exec (.ldxD o) s = execLdxD o s := rfl
@[simp] theorem exec_stxB (o : StxOp) (s : State) : exec (.stxB o) s = execStxB o s := rfl
@[simp] theorem exec_stxH (o : StxOp) (s : State) : exec (.stxH o) s = execStxH o s := rfl
@[simp] theorem exec_stxW (o : StxOp) (s : State) : exec (.stxW o) s = execStxW o s := rfl
@[simp] theorem exec_stxD (o : StxOp) (s : State) : exec (.stxD o) s = execStxD o s := rfl
@[simp] theorem exec_amoAdd (o : AmoOp) (s : State) : exec (.amoAdd o) s = execAmoAdd o s := rfl
@[simp] theorem exec_amoAnd (o : AmoOp) (s : State) : exec (.amoAnd o) s = execAmoAnd o s := rfl
@[simp] theorem exec_amoOr (o : AmoOp) (s : State) : exec (.amoOr o) s = execAmoOr o s := rfl
@[simp] theorem exec_amoXor (o : AmoOp) (s : State) : exec (.amoXor o) s = execAmoXor o s := rfl
@[simp] theorem exec_amoMin (o : AmoOp) (s : State) : exec (.amoMin o) s = execAmoMin o s := rfl
@[simp] theorem exec_amoMax (o : AmoOp) (s : State) : exec (.amoMax o) s = execAmoMax o s := rfl
@[simp] theorem exec_amoMinu (o : AmoOp) (s : State) : exec (.amoMinu o) s = execAmoMinu o s := rfl
@[simp] theorem exec_amoMaxu (o : AmoOp) (s : State) : exec (.amoMaxu o) s = execAmoMaxu o s := rfl
@[simp] theorem exec_amoXchg (o : AmoOp) (s : State) : exec (.amoXchg o) s = execAmoXchg o s := rfl
@[simp] theorem exec_cas (o : CasOp) (s : State) : exec (.cas o) s = execCas o s := rfl
@[simp] theorem exec_fenceAq (o : FenceOp) (s : State) : exec (.fenceAq o) s = execFenceAq o s := rfl
@[simp] theorem exec_fenceRl (o : FenceOp) (s : State) : exec (.fenceRl o) s = execFenceRl o s := rfl
@[simp] theorem exec_fenceAr (o : FenceOp) (s : State) : exec (.fenceAr o) s = execFenceAr o s := rfl
@[simp] theorem exec_fenceSc (o : FenceOp) (s : State) : exec (.fenceSc o) s = execFenceSc o s := rfl
@[simp] theorem exec_acq (o : AcqOp) (s : State) : exec (.acq o) s = execAcq o s := rfl
@[simp] theorem exec_rel (o : AcqOp) (s : State) : exec (.rel o) s = execRel o s := rfl
@[simp] theorem exec_tryacq (o : AcqOp) (s : State) : exec (.tryacq o) s = execTryacq o s := rfl
@[simp] theorem exec_mon (o : MonOp) (s : State) : exec (.mon o) s = execMon o s := rfl
@[simp] theorem exec_mwait (o : RR) (s : State) : exec (.mwait o) s = execMwait o s := rfl
@[simp] theorem exec_mwaitWake (o : MwaitWakeArgs) (s : State) : exec (.mwaitWake o) s = execMwaitWake o s := rfl
@[simp] theorem exec_bar (o : BarOp) (s : State) : exec (.bar o) s = execBar o s := rfl
@[simp] theorem exec_mset (o : MsetOp) (s : State) : exec (.mset o) s = execMset o s := rfl
@[simp] theorem exec_msetG (o : MsetGOp) (s : State) : exec (.msetG o) s = execMsetG o s := rfl
@[simp] theorem exec_mgo (o : PushRR) (s : State) : exec (.mgo o) s = execMgo o s := rfl
@[simp] theorem exec_xpsh (o : PushRRL) (s : State) : exec (.xpsh o) s = execXpsh o s := rfl
@[simp] theorem exec_vgo (o : PushRRL) (s : State) : exec (.vgo o) s = execVgo o s := rfl
@[simp] theorem exec_sgo (o : JrOp) (s : State) : exec (.sgo o) s = execSgo o s := rfl
@[simp] theorem exec_noteC (o : NoteOp) (s : State) : exec (.noteC o) s = execNoteC o s := rfl
@[simp] theorem exec_noteM (o : NoteOp) (s : State) : exec (.noteM o) s = execNoteM o s := rfl
@[simp] theorem exec_noteX (o : NoteOp) (s : State) : exec (.noteX o) s = execNoteX o s := rfl
@[simp] theorem exec_noteS (o : NoteOp) (s : State) : exec (.noteS o) s = execNoteS o s := rfl
@[simp] theorem exec_semr (o : SemrOp) (s : State) : exec (.semr o) s = execSemr o s := rfl
@[simp] theorem exec_semw (o : SemwOp) (s : State) : exec (.semw o) s = execSemw o s := rfl
@[simp] theorem exec_gset (o : GsetPOp) (s : State) : exec (.gset o) s = execGset o s := rfl
@[simp] theorem exec_gsetN (o : GsetPOp) (s : State) : exec (.gsetN o) s = execGsetN o s := rfl
@[simp] theorem exec_gsetX (o : GsetXOp) (s : State) : exec (.gsetX o) s = execGsetX o s := rfl
@[simp] theorem exec_gsetClr (o : GsetCOp) (s : State) : exec (.gsetClr o) s = execGsetClr o s := rfl
@[simp] theorem exec_tstat (o : TileDA) (s : State) : exec (.tstat o) s = execTstat o s := rfl
@[simp] theorem exec_tfree (o : TileA) (s : State) : exec (.tfree o) s = execTfree o s := rfl
@[simp] theorem exec_tfreeU (o : TileA) (s : State) : exec (.tfreeU o) s = execTfreeU o s := rfl
@[simp] theorem exec_tbind (o : TbindOp) (s : State) : exec (.tbind o) s = execTbind o s := rfl
@[simp] theorem exec_cbdef (o : CbdefOp) (s : State) : exec (.cbdef o) s = execCbdef o s := rfl
@[simp] theorem exec_cbdefT (o : CbdefTOp) (s : State) : exec (.cbdefT o) s = execCbdefT o s := rfl
@[simp] theorem exec_cbadvP (o : CbadvOp) (s : State) : exec (.cbadvP o) s = execCbadvP o s := rfl
@[simp] theorem exec_cbadvC (o : CbadvOp) (s : State) : exec (.cbadvC o) s = execCbadvC o s := rfl
@[simp] theorem exec_cbqry (o : CbqryOp) (s : State) : exec (.cbqry o) s = execCbqry o s := rfl
@[simp] theorem exec_ckpin (o : TileA) (s : State) : exec (.ckpin o) s = execCkpin o s := rfl
@[simp] theorem exec_ckpinClr (o : TileA) (s : State) : exec (.ckpinClr o) s = execCkpinClr o s := rfl
@[simp] theorem exec_cktkt (o : TileDA) (s : State) : exec (.cktkt o) s = execCktkt o s := rfl
@[simp] theorem exec_pubv (o : DTile) (s : State) : exec (.pubv o) s = execPubv o s := rfl
@[simp] theorem exec_seal (o : DTile) (s : State) : exec (.seal o) s = execSeal o s := rfl
@[simp] theorem exec_sealR (o : DCap) (s : State) : exec (.sealR o) s = execSealR o s := rfl
@[simp] theorem exec_remoteSealArrival (o : TileRef) (s : State) : exec (.remoteSealArrival o) s = execRemoteSealArrival o s := rfl
@[simp] theorem exec_taste (o : TasteOp) (s : State) : exec (.taste o) s = execTaste o s := rfl
@[simp] theorem exec_tasteR (o : TasteROp) (s : State) : exec (.tasteR o) s = execTasteR o s := rfl
@[simp] theorem exec_vnq (o : DTile) (s : State) : exec (.vnq o) s = execVnq o s := rfl
@[simp] theorem exec_vnqR (o : DCap) (s : State) : exec (.vnqR o) s = execVnqR o s := rfl
@[simp] theorem exec_vnqE (o : VnqEOp) (s : State) : exec (.vnqE o) s = execVnqE o s := rfl
@[simp] theorem exec_setdef (o : SetdefOp) (s : State) : exec (.setdef o) s = execSetdef o s := rfl
@[simp] theorem exec_setlw (o : SetlwOp) (s : State) : exec (.setlw o) s = execSetlw o s := rfl
@[simp] theorem exec_settlement (o : PartGroup) (s : State) : exec (.settlement o) s = execSettlement o s := rfl
@[simp] theorem exec_skinit (o : SkinitOp) (s : State) : exec (.skinit o) s = execSkinit o s := rfl
@[simp] theorem exec_skmrg (o : SkmrgOp) (s : State) : exec (.skmrg o) s = execSkmrg o s := rfl
@[simp] theorem exec_skmrgR (o : SkmrgROp) (s : State) : exec (.skmrgR o) s = execSkmrgR o s := rfl
@[simp] theorem exec_skqnt (o : SkqOp) (s : State) : exec (.skqnt o) s = execSkqnt o s := rfl
@[simp] theorem exec_skest (o : SkestOp) (s : State) : exec (.skest o) s = execSkest o s := rfl
@[simp] theorem exec_skestX (o : SkestOp) (s : State) : exec (.skestX o) s = execSkestX o s := rfl
@[simp] theorem exec_sktop (o : SkqOp) (s : State) : exec (.sktop o) s = execSktop o s := rfl
@[simp] theorem exec_sktopC (o : SkqOp) (s : State) : exec (.sktopC o) s = execSktopC o s := rfl
@[simp] theorem exec_tkset (o : TksetOp) (s : State) : exec (.tkset o) s = execTkset o s := rfl
@[simp] theorem exec_tksetT (o : TksetTOp) (s : State) : exec (.tksetT o) s = execTksetT o s := rfl
@[simp] theorem exec_tkget (o : TkgetOp) (s : State) : exec (.tkget o) s = execTkget o s := rfl
@[simp] theorem exec_yield (o : YieldOp) (s : State) : exec (.yield o) s = execYield o s := rfl
@[simp] theorem exec_drseed (o : DrseedOp) (s : State) : exec (.drseed o) s = execDrseed o s := rfl
@[simp] theorem exec_drnext (o : DrnextOp) (s : State) : exec (.drnext o) s = execDrnext o s := rfl
@[simp] theorem exec_curset (o : CursetOp) (s : State) : exec (.curset o) s = execCurset o s := rfl
@[simp] theorem exec_cursetClr (o : CursetOp) (s : State) : exec (.cursetClr o) s = execCursetClr o s := rfl
@[simp] theorem exec_curiss (o : CurissOp) (s : State) : exec (.curiss o) s = execCuriss o s := rfl
@[simp] theorem exec_larm (o : LarmOp) (s : State) : exec (.larm o) s = execLarm o s := rfl
@[simp] theorem exec_lpatch (o : LpatchOp) (s : State) : exec (.lpatch o) s = execLpatch o s := rfl
@[simp] theorem exec_lsend (o : LsendOp) (s : State) : exec (.lsend o) s = execLsend o s := rfl
@[simp] theorem exec_lqry (o : LarmOp) (s : State) : exec (.lqry o) s = execLqry o s := rfl
@[simp] theorem exec_chsnd (o : ChsndOp) (s : State) : exec (.chsnd o) s = execChsnd o s := rfl
@[simp] theorem exec_chrcv (o : ChrcvOp) (s : State) : exec (.chrcv o) s = execChrcv o s := rfl
@[simp] theorem exec_chcapRd (o : ChcapRdOp) (s : State) : exec (.chcapRd o) s = execChcapRd o s := rfl
@[simp] theorem exec_chcapNar (o : RRRR) (s : State) : exec (.chcapNar o) s = execChcapNar o s := rfl
@[simp] theorem exec_chcapClr (o : ChcapClrOp) (s : State) : exec (.chcapClr o) s = execChcapClr o s := rfl
@[simp] theorem exec_pubh (o : PubhOp) (s : State) : exec (.pubh o) s = execPubh o s := rfl
@[simp] theorem exec_coll (o : CollOp) (s : State) : exec (.coll o) s = execColl o s := rfl
@[simp] theorem exec_collAbt (o : RR) (s : State) : exec (.collAbt o) s = execCollAbt o s := rfl
@[simp] theorem exec_trap (o : TrapOp) (s : State) : exec (.trap o) s = execTrap o s := rfl
@[simp] theorem exec_eret (o : Pred) (s : State) : exec (.eret o) s = execEret o s := rfl
@[simp] theorem exec_sysrd (o : SysrdOp) (s : State) : exec (.sysrd o) s = execSysrd o s := rfl
@[simp] theorem exec_syswr (o : SyswrOp) (s : State) : exec (.syswr o) s = execSyswr o s := rfl
@[simp] theorem exec_tfence (o : Pred) (s : State) : exec (.tfence o) s = execTfence o s := rfl
@[simp] theorem exec_flags (o : DOp) (s : State) : exec (.flags o) s = execFlags o s := rfl
@[simp] theorem exec_brk (o : Pred) (s : State) : exec (.brk o) s = execBrk o s := rfl
@[simp] theorem exec_halt (o : Pred) (s : State) : exec (.halt o) s = execHalt o s := rfl
@[simp] theorem exec_nop (o : Pred) (s : State) : exec (.nop o) s = execNop o s := rfl
@[simp] theorem exec_wait (o : WaitOp) (s : State) : exec (.wait o) s = execWait o s := rfl
@[simp] theorem exec_viadd (o : RRR) (s : State) : exec (.viadd o) s = execViadd o s := rfl
@[simp] theorem exec_visub (o : RRR) (s : State) : exec (.visub o) s = execVisub o s := rfl
@[simp] theorem exec_vimul (o : RRR) (s : State) : exec (.vimul o) s = execVimul o s := rfl
@[simp] theorem exec_vand (o : RRR) (s : State) : exec (.vand o) s = execVand o s := rfl
@[simp] theorem exec_vor (o : RRR) (s : State) : exec (.vor o) s = execVor o s := rfl
@[simp] theorem exec_vxor (o : RRR) (s : State) : exec (.vxor o) s = execVxor o s := rfl
@[simp] theorem exec_vshl (o : RRR) (s : State) : exec (.vshl o) s = execVshl o s := rfl
@[simp] theorem exec_vshr (o : RRR) (s : State) : exec (.vshr o) s = execVshr o s := rfl
@[simp] theorem exec_vsra (o : RRR) (s : State) : exec (.vsra o) s = execVsra o s := rfl
@[simp] theorem exec_viaddImm (o : RRI) (s : State) : exec (.viaddImm o) s = execViaddImm o s := rfl
@[simp] theorem exec_visubImm (o : RRI) (s : State) : exec (.visubImm o) s = execVisubImm o s := rfl
@[simp] theorem exec_vimulImm (o : RRI) (s : State) : exec (.vimulImm o) s = execVimulImm o s := rfl
@[simp] theorem exec_vandImm (o : RRI) (s : State) : exec (.vandImm o) s = execVandImm o s := rfl
@[simp] theorem exec_vorImm (o : RRI) (s : State) : exec (.vorImm o) s = execVorImm o s := rfl
@[simp] theorem exec_vxorImm (o : RRI) (s : State) : exec (.vxorImm o) s = execVxorImm o s := rfl
@[simp] theorem exec_vshlImm (o : RRI) (s : State) : exec (.vshlImm o) s = execVshlImm o s := rfl
@[simp] theorem exec_vshrImm (o : RRI) (s : State) : exec (.vshrImm o) s = execVshrImm o s := rfl
@[simp] theorem exec_vsraImm (o : RRI) (s : State) : exec (.vsraImm o) s = execVsraImm o s := rfl
@[simp] theorem exec_vimad (o : RRRR) (s : State) : exec (.vimad o) s = execVimad o s := rfl
@[simp] theorem exec_vcmpEqF (o : FcmpOp) (s : State) : exec (.vcmpEqF o) s = execVcmpEqF o s := rfl
@[simp] theorem exec_vcmpNeF (o : FcmpOp) (s : State) : exec (.vcmpNeF o) s = execVcmpNeF o s := rfl
@[simp] theorem exec_vcmpLtF (o : FcmpOp) (s : State) : exec (.vcmpLtF o) s = execVcmpLtF o s := rfl
@[simp] theorem exec_vcmpLeF (o : FcmpOp) (s : State) : exec (.vcmpLeF o) s = execVcmpLeF o s := rfl
@[simp] theorem exec_vcmpUnF (o : FcmpOp) (s : State) : exec (.vcmpUnF o) s = execVcmpUnF o s := rfl
@[simp] theorem exec_vcmpEq (o : CmpR) (s : State) : exec (.vcmpEq o) s = execVcmpEq o s := rfl
@[simp] theorem exec_vcmpNe (o : CmpR) (s : State) : exec (.vcmpNe o) s = execVcmpNe o s := rfl
@[simp] theorem exec_vcmpLt (o : CmpR) (s : State) : exec (.vcmpLt o) s = execVcmpLt o s := rfl
@[simp] theorem exec_vcmpGe (o : CmpR) (s : State) : exec (.vcmpGe o) s = execVcmpGe o s := rfl
@[simp] theorem exec_vcmpLtu (o : CmpR) (s : State) : exec (.vcmpLtu o) s = execVcmpLtu o s := rfl
@[simp] theorem exec_vcmpGeu (o : CmpR) (s : State) : exec (.vcmpGeu o) s = execVcmpGeu o s := rfl
@[simp] theorem exec_vsel (o : RRR) (s : State) : exec (.vsel o) s = execVsel o s := rfl
@[simp] theorem exec_vmov (o : VmovOp) (s : State) : exec (.vmov o) s = execVmov o s := rfl
@[simp] theorem exec_vbcst (o : VbcstOp) (s : State) : exec (.vbcst o) s = execVbcst o s := rfl
@[simp] theorem exec_vbcstE (o : VbcstEOp) (s : State) : exec (.vbcstE o) s = execVbcstE o s := rfl
@[simp] theorem exec_viota (o : VbcstOp) (s : State) : exec (.viota o) s = execViota o s := rfl
@[simp] theorem exec_vshp (o : Reg) (s : State) : exec (.vshp o) s = execVshp o s := rfl
@[simp] theorem exec_vshpK96 (o : BitVec 32) (s : State) : exec (.vshpK96 o) s = execVshpK96 o s := rfl
@[simp] theorem exec_vmlogAnd (o : MLog) (s : State) : exec (.vmlogAnd o) s = execVmlogAnd o s := rfl
@[simp] theorem exec_vmlogOr (o : MLog) (s : State) : exec (.vmlogOr o) s = execVmlogOr o s := rfl
@[simp] theorem exec_vmlogXor (o : MLog) (s : State) : exec (.vmlogXor o) s = execVmlogXor o s := rfl
@[simp] theorem exec_vmlogAndn (o : MLog) (s : State) : exec (.vmlogAndn o) s = execVmlogAndn o s := rfl
@[simp] theorem exec_vmlogNot (o : MLogN) (s : State) : exec (.vmlogNot o) s = execVmlogNot o s := rfl
@[simp] theorem exec_vmlogCnt (o : MLogV) (s : State) : exec (.vmlogCnt o) s = execVmlogCnt o s := rfl
@[simp] theorem exec_vmlogFst (o : MLogV) (s : State) : exec (.vmlogFst o) s = execVmlogFst o s := rfl
@[simp] theorem exec_vadd (o : FpRRR) (s : State) : exec (.vadd o) s = execVadd o s := rfl
@[simp] theorem exec_vsub (o : FpRRR) (s : State) : exec (.vsub o) s = execVsub o s := rfl
@[simp] theorem exec_vmul (o : FpRRR) (s : State) : exec (.vmul o) s = execVmul o s := rfl
@[simp] theorem exec_vdiv (o : FpRRR) (s : State) : exec (.vdiv o) s = execVdiv o s := rfl
@[simp] theorem exec_vmin (o : FpRRRx) (s : State) : exec (.vmin o) s = execVmin o s := rfl
@[simp] theorem exec_vmax (o : FpRRRx) (s : State) : exec (.vmax o) s = execVmax o s := rfl
@[simp] theorem exec_vsqrt (o : FpRR) (s : State) : exec (.vsqrt o) s = execVsqrt o s := rfl
@[simp] theorem exec_vabs (o : FpRRx) (s : State) : exec (.vabs o) s = execVabs o s := rfl
@[simp] theorem exec_vneg (o : FpRRx) (s : State) : exec (.vneg o) s = execVneg o s := rfl
@[simp] theorem exec_vfma (o : FpRRRR) (s : State) : exec (.vfma o) s = execVfma o s := rfl
@[simp] theorem exec_vfms (o : FpRRRR) (s : State) : exec (.vfms o) s = execVfms o s := rfl
@[simp] theorem exec_vrcp (o : VspecOp) (s : State) : exec (.vrcp o) s = execVrcp o s := rfl
@[simp] theorem exec_vrsq (o : VspecOp) (s : State) : exec (.vrsq o) s = execVrsq o s := rfl
@[simp] theorem exec_vexp2 (o : VspecOp) (s : State) : exec (.vexp2 o) s = execVexp2 o s := rfl
@[simp] theorem exec_vlog2 (o : VspecOp) (s : State) : exec (.vlog2 o) s = execVlog2 o s := rfl
@[simp] theorem exec_vsin (o : VspecOp) (s : State) : exec (.vsin o) s = execVsin o s := rfl
@[simp] theorem exec_vcos (o : VspecOp) (s : State) : exec (.vcos o) s = execVcos o s := rfl
@[simp] theorem exec_vsigm (o : VspecOp) (s : State) : exec (.vsigm o) s = execVsigm o s := rfl
@[simp] theorem exec_vtanh (o : VspecOp) (s : State) : exec (.vtanh o) s = execVtanh o s := rfl
@[simp] theorem exec_vcvtFf (o : VcvtOp) (s : State) : exec (.vcvtFf o) s = execVcvtFf o s := rfl
@[simp] theorem exec_vcvtFpToElem (o : VcvtOp) (s : State) : exec (.vcvtFpToElem o) s = execVcvtFpToElem o s := rfl
@[simp] theorem exec_vcvtElemToFp (o : VcvtOp) (s : State) : exec (.vcvtElemToFp o) s = execVcvtElemToFp o s := rfl
@[simp] theorem exec_vcvtFpToIntfmt (o : VcvtOp) (s : State) : exec (.vcvtFpToIntfmt o) s = execVcvtFpToIntfmt o s := rfl
@[simp] theorem exec_vcvtIntfmtToFp (o : VcvtOp) (s : State) : exec (.vcvtIntfmtToFp o) s = execVcvtIntfmtToFp o s := rfl
@[simp] theorem exec_vcvtElemToElem (o : VcvtOp) (s : State) : exec (.vcvtElemToElem o) s = execVcvtElemToElem o s := rfl
@[simp] theorem exec_vredsF (o : VredsOp) (s : State) : exec (.vredsF o) s = execVredsF o s := rfl
@[simp] theorem exec_vredsSq (o : VredsOp) (s : State) : exec (.vredsSq o) s = execVredsSq o s := rfl
@[simp] theorem exec_vredsI (o : VredsIOp) (s : State) : exec (.vredsI o) s = execVredsI o s := rfl
@[simp] theorem exec_vredxMax (o : VredxOp) (s : State) : exec (.vredxMax o) s = execVredxMax o s := rfl
@[simp] theorem exec_vredxMin (o : VredxOp) (s : State) : exec (.vredxMin o) s = execVredxMin o s := rfl
@[simp] theorem exec_vredxImax (o : VredxIOp) (s : State) : exec (.vredxImax o) s = execVredxImax o s := rfl
@[simp] theorem exec_vredxImin (o : VredxIOp) (s : State) : exec (.vredxImin o) s = execVredxImin o s := rfl
@[simp] theorem exec_vredxUmax (o : VredxIOp) (s : State) : exec (.vredxUmax o) s = execVredxUmax o s := rfl
@[simp] theorem exec_vredxUmin (o : VredxIOp) (s : State) : exec (.vredxUmin o) s = execVredxUmin o s := rfl
@[simp] theorem exec_vredxArg (o : FpRRx) (s : State) : exec (.vredxArg o) s = execVredxArg o s := rfl
@[simp] theorem exec_bV (o : Imm) (s : State) : exec (.bV o) s = execBV o s := rfl
@[simp] theorem exec_hloopV (o : HloopVOp) (s : State) : exec (.hloopV o) s = execHloopV o s := rfl
@[simp] theorem exec_vld (o : VldOp) (s : State) : exec (.vld o) s = execVld o s := rfl
@[simp] theorem exec_vldX (o : VldXOp) (s : State) : exec (.vldX o) s = execVldX o s := rfl
@[simp] theorem exec_vst (o : VstOp) (s : State) : exec (.vst o) s = execVst o s := rfl
@[simp] theorem exec_vstX (o : VstXOp) (s : State) : exec (.vstX o) s = execVstX o s := rfl
@[simp] theorem exec_vgath (o : VgathOp) (s : State) : exec (.vgath o) s = execVgath o s := rfl
@[simp] theorem exec_vgathQ (o : VgathOp) (s : State) : exec (.vgathQ o) s = execVgathQ o s := rfl
@[simp] theorem exec_vscat (o : VscatOp) (s : State) : exec (.vscat o) s = execVscat o s := rfl
@[simp] theorem exec_vacld (o : VacOp) (s : State) : exec (.vacld o) s = execVacld o s := rfl
@[simp] theorem exec_vacst (o : VacOp) (s : State) : exec (.vacst o) s = execVacst o s := rfl
@[simp] theorem exec_vcmpr (o : RR) (s : State) : exec (.vcmpr o) s = execVcmpr o s := rfl
@[simp] theorem exec_vexpd (o : RR) (s : State) : exec (.vexpd o) s = execVexpd o s := rfl
@[simp] theorem exec_vslup (o : VslideOp) (s : State) : exec (.vslup o) s = execVslup o s := rfl
@[simp] theorem exec_vsldn (o : VslideOp) (s : State) : exec (.vsldn o) s = execVsldn o s := rfl
@[simp] theorem exec_vtrg (o : VtrgOp) (s : State) : exec (.vtrg o) s = execVtrg o s := rfl
@[simp] theorem exec_vqpsh (o : VqpshOp) (s : State) : exec (.vqpsh o) s = execVqpsh o s := rfl
@[simp] theorem exec_vqpop (o : VqpopOp) (s : State) : exec (.vqpop o) s = execVqpop o s := rfl
@[simp] theorem exec_vrbal (o : VrbalOp) (s : State) : exec (.vrbal o) s = execVrbal o s := rfl
@[simp] theorem exec_vrbalClr (o : VrbalOp) (s : State) : exec (.vrbalClr o) s = execVrbalClr o s := rfl
@[simp] theorem exec_vskq (o : VskqOp) (s : State) : exec (.vskq o) s = execVskq o s := rfl
@[simp] theorem exec_vskh (o : VskOp) (s : State) : exec (.vskh o) s = execVskh o s := rfl
@[simp] theorem exec_vskd (o : VskOp) (s : State) : exec (.vskd o) s = execVskd o s := rfl
@[simp] theorem exec_vclipq (o : VclipqOp) (s : State) : exec (.vclipq o) s = execVclipq o s := rfl
@[simp] theorem exec_noteV (o : Pred) (s : State) : exec (.noteV o) s = execNoteV o s := rfl
@[simp] theorem exec_haltV (o : Pred) (s : State) : exec (.haltV o) s = execHaltV o s := rfl
@[simp] theorem exec_flagsV (o : DOp) (s : State) : exec (.flagsV o) s = execFlagsV o s := rfl
@[simp] theorem exec_tfenceV (o : Pred) (s : State) : exec (.tfenceV o) s = execTfenceV o s := rfl
@[simp] theorem exec_kernelStart (o : SlotId) (s : State) : exec (.kernelStart o) s = execKernelStart o s := rfl
@[simp] theorem exec_mma (o : MmaCmd) (s : State) : exec (.mma o) s = execMma o s := rfl
@[simp] theorem exec_mmas (o : MmaCmd) (s : State) : exec (.mmas o) s = execMmas o s := rfl
@[simp] theorem exec_mmaStepEnd (o : SlotId) (s : State) : exec (.mmaStepEnd o) s = execMmaStepEnd o s := rfl
@[simp] theorem exec_coOperativeGroupForm (o : GroupArgs) (s : State) : exec (.coOperativeGroupForm o) s = execCoOperativeGroupForm o s := rfl
@[simp] theorem exec_mzero (o : MzeroCmd) (s : State) : exec (.mzero o) s = execMzero o s := rfl
@[simp] theorem exec_mzeroSet (o : MzeroCmd) (s : State) : exec (.mzeroSet o) s = execMzeroSet o s := rfl
@[simp] theorem exec_mzeroSetz (o : MzeroCmd) (s : State) : exec (.mzeroSetz o) s = execMzeroSetz o s := rfl
@[simp] theorem exec_mexp (o : MxfCmd) (s : State) : exec (.mexp o) s = execMexp o s := rfl
@[simp] theorem exec_mimp (o : MxfCmd) (s : State) : exec (.mimp o) s = execMimp o s := rfl
@[simp] theorem exec_mnote (o : CmdHead) (s : State) : exec (.mnote o) s = execMnote o s := rfl
@[simp] theorem exec_xcpyL (o : XCmd) (s : State) : exec (.xcpyL o) s = execXcpyL o s := rfl
@[simp] theorem exec_xcpyS (o : XCmd) (s : State) : exec (.xcpyS o) s = execXcpyS o s := rfl
@[simp] theorem exec_xcpyT (o : XCmd) (s : State) : exec (.xcpyT o) s = execXcpyT o s := rfl
@[simp] theorem exec_xcpyR (o : XCmd) (s : State) : exec (.xcpyR o) s = execXcpyR o s := rfl
@[simp] theorem exec_xfil (o : XCmd) (s : State) : exec (.xfil o) s = execXfil o s := rfl
@[simp] theorem exec_xfilM (o : XCmd) (s : State) : exec (.xfilM o) s = execXfilM o s := rfl
@[simp] theorem exec_xgth (o : XCmd) (s : State) : exec (.xgth o) s = execXgth o s := rfl
@[simp] theorem exec_xsct (o : XCmd) (s : State) : exec (.xsct o) s = execXsct o s := rfl
@[simp] theorem exec_xmeta (o : XCmd) (s : State) : exec (.xmeta o) s = execXmeta o s := rfl
@[simp] theorem exec_xmetaT (o : XCmd) (s : State) : exec (.xmetaT o) s = execXmetaT o s := rfl
@[simp] theorem exec_xrack (o : XCmd) (s : State) : exec (.xrack o) s = execXrack o s := rfl
@[simp] theorem exec_xfetch (o : XCmd) (s : State) : exec (.xfetch o) s = execXfetch o s := rfl
@[simp] theorem exec_xpub (o : XCmd) (s : State) : exec (.xpub o) s = execXpub o s := rfl
@[simp] theorem exec_xpubM (o : XCmd) (s : State) : exec (.xpubM o) s = execXpubM o s := rfl
@[simp] theorem exec_xsend (o : XCmd) (s : State) : exec (.xsend o) s = execXsend o s := rfl
@[simp] theorem exec_xhost (o : XCmd) (s : State) : exec (.xhost o) s = execXhost o s := rfl
@[simp] theorem exec_xnote (o : CmdHead) (s : State) : exec (.xnote o) s = execXnote o s := rfl
@[simp] theorem exec_cpeBurstComplete (o : SlotId) (s : State) : exec (.cpeBurstComplete o) s = execCpeBurstComplete o s := rfl
@[simp] theorem exec_sbmp (o : SCmd) (s : State) : exec (.sbmp o) s = execSbmp o s := rfl
@[simp] theorem exec_srle (o : SCmd) (s : State) : exec (.srle o) s = execSrle o s := rfl
@[simp] theorem exec_sidx (o : SCmd) (s : State) : exec (.sidx o) s = execSidx o s := rfl
@[simp] theorem exec_snote (o : CmdHead) (s : State) : exec (.snote o) s = execSnote o s := rfl
@[simp] theorem exec_headDecide (o : HeadRef) (s : State) : exec (.headDecide o) s = execHeadDecide o s := rfl
@[simp] theorem exec_commandComplete (o : HeadRef) (s : State) : exec (.commandComplete o) s = execCommandComplete o s := rfl
@[simp] theorem exec_draw (o : EngRef) (s : State) : exec (.draw o) s = execDraw o s := rfl
@[simp] theorem exec_quantumExpiry (o : EngRef) (s : State) : exec (.quantumExpiry o) s = execQuantumExpiry o s := rfl
@[simp] theorem exec_trapEntry (o : TrapArgs) (s : State) : exec (.trapEntry o) s = execTrapEntry o s := rfl
@[simp] theorem exec_drainEnd (o : StrmRef) (s : State) : exec (.drainEnd o) s = execDrainEnd o s := rfl
@[simp] theorem exec_refireRestart (o : SlotId) (s : State) : exec (.refireRestart o) s = execRefireRestart o s := rfl
@[simp] theorem exec_taskStop (o : SlotId) (s : State) : exec (.taskStop o) s = execTaskStop o s := rfl
@[simp] theorem exec_taskRetire (o : SlotId) (s : State) : exec (.taskRetire o) s = execTaskRetire o s := rfl
@[simp] theorem exec_packetNop (o : QueueRef) (s : State) : exec (.packetNop o) s = execPacketNop o s := rfl
@[simp] theorem exec_packetArm (o : QueueRef) (s : State) : exec (.packetArm o) s = execPacketArm o s := rfl
@[simp] theorem exec_packetDec (o : QueueRef) (s : State) : exec (.packetDec o) s = execPacketDec o s := rfl
@[simp] theorem exec_packetPatch (o : QueueRef) (s : State) : exec (.packetPatch o) s = execPacketPatch o s := rfl
@[simp] theorem exec_packetPatcharm (o : QueueRef) (s : State) : exec (.packetPatcharm o) s = execPacketPatcharm o s := rfl
@[simp] theorem exec_peerPacketArrival (o : PeerPacket) (s : State) : exec (.peerPacketArrival o) s = execPeerPacketArrival o s := rfl
@[simp] theorem exec_qtailWrite (o : QueueWrite) (s : State) : exec (.qtailWrite o) s = execQtailWrite o s := rfl
@[simp] theorem exec_qcfgWrite (o : QueueWrite) (s : State) : exec (.qcfgWrite o) s = execQcfgWrite o s := rfl
@[simp] theorem exec_timeTrigger (o : PartRec) (s : State) : exec (.timeTrigger o) s = execTimeTrigger o s := rfl
@[simp] theorem exec_gateOpen (o : Nat) (s : State) : exec (.gateOpen o) s = execGateOpen o s := rfl
@[simp] theorem exec_chunkCut (o : PartDie) (s : State) : exec (.chunkCut o) s = execChunkCut o s := rfl
@[simp] theorem exec_seatTask (o : PartDie) (s : State) : exec (.seatTask o) s = execSeatTask o s := rfl
@[simp] theorem exec_gangSeat (o : PartDie) (s : State) : exec (.gangSeat o) s = execGangSeat o s := rfl
@[simp] theorem exec_taskLaunch (o : SlotId) (s : State) : exec (.taskLaunch o) s = execTaskLaunch o s := rfl
@[simp] theorem exec_balanceExchange (o : Nat) (s : State) : exec (.balanceExchange o) s = execBalanceExchange o s := rfl
@[simp] theorem exec_balanceArrival (o : PartDie) (s : State) : exec (.balanceArrival o) s = execBalanceArrival o s := rfl
@[simp] theorem exec_rackComplete (o : CaskRef) (s : State) : exec (.rackComplete o) s = execRackComplete o s := rfl
@[simp] theorem exec_fetchBackComplete (o : CaskRef) (s : State) : exec (.fetchBackComplete o) s = execFetchBackComplete o s := rfl
@[simp] theorem exec_eccCorrectable (o : EccArgs) (s : State) : exec (.eccCorrectable o) s = execEccCorrectable o s := rfl
@[simp] theorem exec_freezeEnd (o : Nat) (s : State) : exec (.freezeEnd o) s = execFreezeEnd o s := rfl
@[simp] theorem exec_eccUncorrectable (o : EccArgs) (s : State) : exec (.eccUncorrectable o) s = execEccUncorrectable o s := rfl
@[simp] theorem exec_collAdd (o : CollPacket) (s : State) : exec (.collAdd o) s = execCollAdd o s := rfl
@[simp] theorem exec_collAddw (o : CollPacket) (s : State) : exec (.collAddw o) s = execCollAddw o s := rfl
@[simp] theorem exec_collWfwd (o : CollPacket) (s : State) : exec (.collWfwd o) s = execCollWfwd o s := rfl
@[simp] theorem exec_collMrg (o : CollPacket) (s : State) : exec (.collMrg o) s = execCollMrg o s := rfl
@[simp] theorem exec_collCut (o : CollPacket) (s : State) : exec (.collCut o) s = execCollCut o s := rfl
@[simp] theorem exec_collFwd (o : CollPacket) (s : State) : exec (.collFwd o) s = execCollFwd o s := rfl
@[simp] theorem exec_collAbortPacket (o : CollPacket) (s : State) : exec (.collAbortPacket o) s = execCollAbortPacket o s := rfl
@[simp] theorem exec_collSlotSend (o : CollRef) (s : State) : exec (.collSlotSend o) s = execCollSlotSend o s := rfl
@[simp] theorem exec_collMemberDone (o : CollRef) (s : State) : exec (.collMemberDone o) s = execCollMemberDone o s := rfl
@[simp] theorem exec_drrVisit (o : PortFn) (s : State) : exec (.drrVisit o) s = execDrrVisit o s := rfl
@[simp] theorem exec_switchOut (o : Nat) (s : State) : exec (.switchOut o) s = execSwitchOut o s := rfl
@[simp] theorem exec_switchOutComplete (o : Nat) (s : State) : exec (.switchOutComplete o) s = execSwitchOutComplete o s := rfl
@[simp] theorem exec_switchIn (o : Nat) (s : State) : exec (.switchIn o) s = execSwitchIn o s := rfl
@[simp] theorem exec_tlbinvWrite (o : BarWrite) (s : State) : exec (.tlbinvWrite o) s = execTlbinvWrite o s := rfl
@[simp] theorem exec_tlbInvalidationComplete (o : Nat) (s : State) : exec (.tlbInvalidationComplete o) s = execTlbInvalidationComplete o s := rfl
@[simp] theorem exec_dbgHalt (o : Nat) (s : State) : exec (.dbgHalt o) s = execDbgHalt o s := rfl
@[simp] theorem exec_dbgHalted (o : SlotId) (s : State) : exec (.dbgHalted o) s = execDbgHalted o s := rfl
@[simp] theorem exec_dbgResume (o : Nat) (s : State) : exec (.dbgResume o) s = execDbgResume o s := rfl
@[simp] theorem exec_dbgStep (o : Nat) (s : State) : exec (.dbgStep o) s = execDbgStep o s := rfl
@[simp] theorem exec_dbgStepEnd (o : SlotId) (s : State) : exec (.dbgStepEnd o) s = execDbgStepEnd o s := rfl
@[simp] theorem exec_dbgDump (o : Nat) (s : State) : exec (.dbgDump o) s = execDbgDump o s := rfl
@[simp] theorem exec_dbgSample (o : Nat) (s : State) : exec (.dbgSample o) s = execDbgSample o s := rfl
@[simp] theorem exec_cntClaim (o : BarWrite) (s : State) : exec (.cntClaim o) s = execCntClaim o s := rfl
@[simp] theorem exec_cntRelease (o : Nat) (s : State) : exec (.cntRelease o) s = execCntRelease o s := rfl
@[simp] theorem exec_cntClear (o : Nat) (s : State) : exec (.cntClear o) s = execCntClear o s := rfl
@[simp] theorem exec_traceClaim (o : BarWrite) (s : State) : exec (.traceClaim o) s = execTraceClaim o s := rfl
@[simp] theorem exec_poolbaseWrite (o : BarWrite) (s : State) : exec (.poolbaseWrite o) s = execPoolbaseWrite o s := rfl
@[simp] theorem exec_pcfgMaskWrite (o : BarWrite) (s : State) : exec (.pcfgMaskWrite o) s = execPcfgMaskWrite o s := rfl
@[simp] theorem exec_registerWrite (o : BarWrite) (s : State) : exec (.registerWrite o) s = execRegisterWrite o s := rfl
@[simp] theorem exec_recoveryErase (s : State) : exec (.recoveryErase) s = execRecoveryErase s := rfl
@[simp] theorem exec_recoveryWriteChunk (o : ChunkWrite) (s : State) : exec (.recoveryWriteChunk o) s = execRecoveryWriteChunk o s := rfl
@[simp] theorem exec_recoveryCommit (o : Bool) (s : State) : exec (.recoveryCommit o) s = execRecoveryCommit o s := rfl
@[simp] theorem exec_recoveryCommandDone (s : State) : exec (.recoveryCommandDone) s = execRecoveryCommandDone s := rfl
@[simp] theorem exec_interruptCoalesceTimeout (o : QueueRef) (s : State) : exec (.interruptCoalesceTimeout o) s = execInterruptCoalesceTimeout o s := rfl
@[simp] theorem exec_msixUnmask (o : QueueRef) (s : State) : exec (.msixUnmask o) s = execMsixUnmask o s := rfl
@[simp] theorem exec_bringUp (o : BringUpArgs) (s : State) : exec (.bringUp o) s = execBringUp o s := rfl
@[simp] theorem exec_functionReset (o : Nat) (s : State) : exec (.functionReset o) s = execFunctionReset o s := rfl
@[simp] theorem exec_throttleTick (o : Sensors) (s : State) : exec (.throttleTick o) s = execThrottleTick o s := rfl
@[simp] theorem exec_throttleShutdown (s : State) : exec (.throttleShutdown) s = execThrottleShutdown s := rfl
@[simp] theorem exec_mgcSetPowerLimit (o : Nat) (s : State) : exec (.mgcSetPowerLimit o) s = execMgcSetPowerLimit o s := rfl
@[simp] theorem exec_mgcSetScrub (o : Bool) (s : State) : exec (.mgcSetScrub o) s = execMgcSetScrub o s := rfl
@[simp] theorem exec_mgcReadSensors (s : State) : exec (.mgcReadSensors) s = execMgcReadSensors s := rfl
@[simp] theorem exec_getVersion (o : SpdmReq) (s : State) : exec (.getVersion o) s = execGetVersion o s := rfl
@[simp] theorem exec_getCapabilities (o : SpdmReq) (s : State) : exec (.getCapabilities o) s = execGetCapabilities o s := rfl
@[simp] theorem exec_negotiateAlgorithms (o : SpdmReq) (s : State) : exec (.negotiateAlgorithms o) s = execNegotiateAlgorithms o s := rfl
@[simp] theorem exec_getDigests (o : SpdmReq) (s : State) : exec (.getDigests o) s = execGetDigests o s := rfl
@[simp] theorem exec_getCertificate (o : SpdmReq) (s : State) : exec (.getCertificate o) s = execGetCertificate o s := rfl
@[simp] theorem exec_challenge (o : SpdmReq) (s : State) : exec (.challenge o) s = execChallenge o s := rfl
@[simp] theorem exec_getMeasurements (o : SpdmReq) (s : State) : exec (.getMeasurements o) s = execGetMeasurements o s := rfl
@[simp] theorem exec_hostWindowRead (o : WinRead) (s : State) : exec (.hostWindowRead o) s = execHostWindowRead o s := rfl
@[simp] theorem exec_hostWindowWrite (o : WinWrite) (s : State) : exec (.hostWindowWrite o) s = execHostWindowWrite o s := rfl
@[simp] theorem exec_atsInvalidation (o : Nat) (s : State) : exec (.atsInvalidation o) s = execAtsInvalidation o s := rfl
@[simp] theorem exec_waitTargetReached (o : SlotId) (s : State) : exec (.waitTargetReached o) s = execWaitTargetReached o s := rfl
@[simp] theorem exec_setlwDeadline (o : SlotId) (s : State) : exec (.setlwDeadline o) s = execSetlwDeadline o s := rfl
@[simp] theorem exec_chrcvDeadline (o : SlotId) (s : State) : exec (.chrcvDeadline o) s = execChrcvDeadline o s := rfl

end Sys2Proof.Machine
end

