-- ==== Sys2Proof/Laws/Sparse.lean ====
section
/-! SUPPORT. Finite maps and byte memories: reading after writing, and the canonical form. -/

namespace Sys2Proof.Machine

/-! ### `Sparse.get` after `put` and `set` -/

theorem Sparse.get_put_same {α : Type} (d : α) (m : Sparse α) (n : Nat) (v : α) : Sparse.get d (m.put n v) n = v := by
  induction m with
  | nil => simp [Sparse.put, Sparse.get]
  | cons h t ih =>
    obtain ⟨k, w⟩ := h
    simp only [Sparse.put]
    split
    · simp [Sparse.get]
    · split
      · simp [Sparse.get]
      · rename_i h1 h2
        simp [Sparse.get, ih, show ¬ k = n by omega]

theorem Sparse.get_put_other {α : Type} (d : α) (m : Sparse α) (n i : Nat) (v : α) (h : i ≠ n) :
    Sparse.get d (m.put n v) i = Sparse.get d m i := by
  induction m with
  | nil => simp [Sparse.put, Sparse.get, h.symm]
  | cons e t ih =>
    obtain ⟨k, w⟩ := e
    simp only [Sparse.put]
    split
    · simp [Sparse.get, h.symm]
    · split
      · rename_i h1 h2
        simp [Sparse.get, h.symm, show ¬ k = i by omega]
      · simp only [Sparse.get, ih]

@[simp] theorem Sparse.get_put {α : Type} (d : α) (m : Sparse α) (n i : Nat) (v : α) :
    Sparse.get d (m.put n v) i = if i = n then v else Sparse.get d m i := by
  split
  · next h => rw [h, Sparse.get_put_same]
  · next h => exact Sparse.get_put_other d m n i v h

/-- Below the first key a canonical map reads its default. -/
theorem Sparse.get_below {α : Type} [DecidableEq α] (d : α) (m : Sparse α) (lo i : Nat) (hw : Sparse.wfFrom d lo m = true)
    (h : i < lo) : Sparse.get d m i = d := by
  induction m generalizing lo with
  | nil => rfl
  | cons e t ih =>
    obtain ⟨k, w⟩ := e
    simp only [Sparse.wfFrom, Bool.and_eq_true, decide_eq_true_eq] at hw
    simp [Sparse.get, show ¬ k = i by omega, ih (k + 1) hw.2 (by omega)]

theorem Sparse.wfFrom_mono {α : Type} [DecidableEq α] (d : α) (m : Sparse α) (lo lo' : Nat) (h : lo' ≤ lo)
    (hw : Sparse.wfFrom d lo m = true) : Sparse.wfFrom d lo' m = true := by
  cases m with
  | nil => rfl
  | cons e t =>
    obtain ⟨k, w⟩ := e
    simp only [Sparse.wfFrom, Bool.and_eq_true, decide_eq_true_eq] at hw ⊢
    exact ⟨⟨by omega, hw.1.2⟩, hw.2⟩

/-- A canonical map reads what was stored last. -/
theorem Sparse.get_set {α : Type} [DecidableEq α] (d : α) (m : Sparse α) (lo n i : Nat) (v : α)
    (hw : Sparse.wfFrom d lo m = true) : Sparse.get d (Sparse.set d m n v) i = if i = n then v else Sparse.get d m i := by
  induction m generalizing lo with
  | nil =>
    simp only [Sparse.set]
    split
    · next h => simp [Sparse.get, h]
    · grind [Sparse.get]
  | cons e t ih =>
    obtain ⟨k, w⟩ := e
    simp only [Sparse.wfFrom, Bool.and_eq_true, decide_eq_true_eq] at hw
    simp only [Sparse.set]
    split
    · next h1 =>
      split
      · next h2 =>
        split
        · next h3 =>
          subst h3; subst h2
          exact Sparse.get_below _ _ k _ (by simp [Sparse.wfFrom, hw.1.2, hw.2]) h1
        · rfl
      · grind [Sparse.get]
    · split
      · next h1 h2 =>
        subst h2
        split
        · next h3 =>
          split
          · next h4 => subst h4; subst h3; exact Sparse.get_below _ _ _ _ hw.2 (by omega)
          · next h4 => simp [Sparse.get, Ne.symm h4]
        · grind [Sparse.get]
      · next h1 h2 =>
        simp only [Sparse.get, ih (k + 1) hw.2]
        split <;> split <;> first | rfl | omega

/-- Storing keeps the canonical form. -/
theorem Sparse.wfFrom_set {α : Type} [DecidableEq α] (d : α) (m : Sparse α) (lo n : Nat) (v : α) (hn : lo ≤ n)
    (hw : Sparse.wfFrom d lo m = true) : Sparse.wfFrom d lo (Sparse.set d m n v) = true := by
  induction m generalizing lo with
  | nil =>
    simp only [Sparse.set]
    split
    · rfl
    · next h => simp [Sparse.wfFrom, h, hn]
  | cons e t ih =>
    obtain ⟨k, w⟩ := e
    have hw0 := hw
    simp only [Sparse.wfFrom, Bool.and_eq_true, decide_eq_true_eq] at hw
    simp only [Sparse.set]
    split
    · next h1 =>
      split
      · exact hw0
      · next h2 => simp [Sparse.wfFrom, h2, hn, hw.1.2, hw.2, show n + 1 ≤ k by omega]
    · split
      · next h1 h2 =>
        subst h2
        split
        · exact Sparse.wfFrom_mono d t (n + 1) lo (by omega) hw.2
        · next h3 => simp [Sparse.wfFrom, h3, hn, hw.2]
      · next h1 h2 =>
        simp only [Sparse.wfFrom, Bool.and_eq_true, decide_eq_true_eq]
        exact ⟨hw.1, ih (k + 1) (by omega) hw.2⟩

/-! ### Byte memories -/

theorem Mem.wf_place (a lo : Nat) (l : List Byte) (h : lo ≤ a) : Sparse.wfFrom (0 : Byte) lo (Mem.place a l) = true := by
  induction l generalizing a lo with
  | nil => rfl
  | cons b t ih =>
    simp only [Mem.place]
    split
    · exact ih (a + 1) lo (by omega)
    · next hb =>
      simp only [Sparse.wfFrom, Bool.and_eq_true, decide_eq_true_eq, Bool.not_eq_true', decide_eq_false_iff_not]
      exact ⟨⟨h, hb⟩, ih (a + 1) (a + 1) (by omega)⟩

theorem Mem.place_keys (a : Nat) (l : List Byte) : ∀ c ∈ Mem.place a l, a ≤ c.1 ∧ c.1 < a + l.length := by
  induction l generalizing a with
  | nil => simp [Mem.place]
  | cons b t ih =>
    intro c hc
    simp only [Mem.place] at hc
    split at hc
    · have := ih (a + 1) c hc
      simp only [List.length_cons]
      omega
    · rcases List.mem_cons.1 hc with rfl | hc
      · simp
      · have := ih (a + 1) c hc
        simp only [List.length_cons]
        omega

/-- The canonical form of a concatenation. -/
theorem Sparse.wfFrom_append {α : Type} [DecidableEq α] (d : α) (x y : Sparse α) (lo m : Nat)
    (hx : Sparse.wfFrom d lo x = true) (hk : ∀ c ∈ x, c.1 < m) (hm : lo ≤ m) (hy : Sparse.wfFrom d m y = true) :
    Sparse.wfFrom d lo (x ++ y) = true := by
  induction x generalizing lo with
  | nil => exact Sparse.wfFrom_mono d y m lo hm hy
  | cons e t ih =>
    obtain ⟨k, w⟩ := e
    simp only [Sparse.wfFrom, List.cons_append, Bool.and_eq_true, decide_eq_true_eq] at hx ⊢
    have hkm : k < m := hk (k, w) (by simp)
    exact ⟨hx.1, ih (k + 1) hx.2 (fun c hc => hk c (by simp [hc])) (by omega)⟩

theorem Sparse.wfFrom_takeWhile {α : Type} [DecidableEq α] (d : α) (x : Sparse α) (p : Nat × α → Bool) (lo : Nat)
    (hx : Sparse.wfFrom d lo x = true) : Sparse.wfFrom d lo (x.takeWhile p) = true := by
  induction x generalizing lo with
  | nil => rfl
  | cons e t ih =>
    simp only [List.takeWhile_cons]
    simp only [Sparse.wfFrom, Bool.and_eq_true, decide_eq_true_eq] at hx
    split
    · simp only [Sparse.wfFrom, Bool.and_eq_true, decide_eq_true_eq]
      exact ⟨hx.1, ih _ hx.2⟩
    · rfl

theorem Sparse.wfFrom_dropWhile {α : Type} [DecidableEq α] (d : α) (x : Sparse α) (lo m : Nat)
    (hx : Sparse.wfFrom d lo x = true) : Sparse.wfFrom d m (x.dropWhile fun c => decide (c.1 < m)) = true := by
  induction x generalizing lo with
  | nil => rfl
  | cons e t ih =>
    obtain ⟨k, w⟩ := e
    simp only [List.dropWhile_cons]
    simp only [Sparse.wfFrom, Bool.and_eq_true, decide_eq_true_eq] at hx
    split
    · exact ih _ hx.2
    · next h =>
      simp only [decide_eq_true_eq, Nat.not_lt] at h
      simp only [Sparse.wfFrom, Bool.and_eq_true, decide_eq_true_eq]
      exact ⟨⟨h, hx.1.2⟩, hx.2⟩

/-- Writing bytes keeps the canonical form. -/
theorem Mem.wf_write (m : Mem) (a : Nat) (l : List Byte) (h : m.wf = true) : (m.write a l).wf = true := by
  unfold Mem.wf Mem.write at *
  have h1 := Sparse.wfFrom_takeWhile (0 : Byte) m (fun c => decide (c.1 < a)) 0 h
  have h2 : Sparse.wfFrom (0 : Byte) 0 ((m.takeWhile fun c => decide (c.1 < a)) ++ Mem.place a l) = true := by
    refine Sparse.wfFrom_append (0 : Byte) _ _ 0 a h1 ?_ (by omega) (Mem.wf_place a a l (by omega))
    intro c hc
    simpa using List.mem_takeWhile_imp hc
  refine Sparse.wfFrom_append (0 : Byte) _ _ 0 (a + l.length) h2 ?_ (by omega) ?_
  · intro c hc
    rcases List.mem_append.1 hc with hc | hc
    · have : c.1 < a := by simpa using List.mem_takeWhile_imp hc
      omega
    · exact (Mem.place_keys a l c hc).2
  · exact Sparse.wfFrom_dropWhile (0 : Byte) m 0 _ h

theorem Mem.wf_setByte (m : Mem) (a : Nat) (b : Byte) (h : m.wf = true) : (m.setByte a b).wf = true :=
  Sparse.wfFrom_set 0 m 0 a b (by omega) h
theorem Mem.wf_setNat (m : Mem) (a n v : Nat) (h : m.wf = true) : (m.setNat a n v).wf = true :=
  Mem.wf_write m a _ h

/-! ### A byte after a write -/

theorem Sparse.get_append_below {α : Type} (d : α) (x y : Sparse α) (i : Nat) (h : ∀ c ∈ y, c.1 ≠ i) :
    Sparse.get d (x ++ y) i = Sparse.get d x i := by
  induction x with
  | nil =>
    simp only [List.nil_append, Sparse.get]
    induction y with
    | nil => rfl
    | cons e t ih =>
      obtain ⟨k, w⟩ := e
      have := h (k, w) (by simp)
      simp [Sparse.get, this, ih (fun c hc => h c (by simp [hc]))]
  | cons e t ih => obtain ⟨k, w⟩ := e; simp [Sparse.get, ih]

theorem Sparse.get_append_above {α : Type} (d : α) (x y : Sparse α) (i : Nat) (h : ∀ c ∈ x, c.1 ≠ i) :
    Sparse.get d (x ++ y) i = Sparse.get d y i := by
  induction x with
  | nil => rfl
  | cons e t ih =>
    obtain ⟨k, w⟩ := e
    have := h (k, w) (by simp)
    simp [Sparse.get, this, ih (fun c hc => h c (by simp [hc]))]

theorem Sparse.wf_keys {α : Type} [DecidableEq α] (d : α) (x : Sparse α) (lo : Nat) (h : Sparse.wfFrom d lo x = true) :
    ∀ c ∈ x, lo ≤ c.1 := by
  induction x generalizing lo with
  | nil => simp
  | cons e t ih =>
    obtain ⟨k, w⟩ := e
    simp only [Sparse.wfFrom, Bool.and_eq_true, decide_eq_true_eq] at h
    intro c hc
    rcases List.mem_cons.1 hc with rfl | hc
    · exact h.1.1
    · have := ih (k + 1) h.2 c hc; omega

theorem Sparse.get_takeWhile_below {α : Type} [DecidableEq α] (d : α) (x : Sparse α) (lo a i : Nat)
    (h : Sparse.wfFrom d lo x = true) (hi : i < a) :
    Sparse.get d (x.takeWhile fun c => decide (c.1 < a)) i = Sparse.get d x i := by
  induction x generalizing lo with
  | nil => rfl
  | cons e t ih =>
    obtain ⟨k, w⟩ := e
    simp only [Sparse.wfFrom, Bool.and_eq_true, decide_eq_true_eq] at h
    simp only [List.takeWhile_cons]
    split
    · simp only [Sparse.get, ih (k + 1) h.2]
    · next hk =>
      simp only [decide_eq_true_eq, Nat.not_lt] at hk
      simp [Sparse.get, show ¬ k = i by omega, Sparse.get_below d t (k + 1) i h.2 (by omega)]

theorem Sparse.get_dropWhile_above {α : Type} (d : α) (x : Sparse α) (a i : Nat) (hi : a ≤ i) :
    Sparse.get d (x.dropWhile fun c => decide (c.1 < a)) i = Sparse.get d x i := by
  induction x with
  | nil => rfl
  | cons e t ih =>
    obtain ⟨k, w⟩ := e
    simp only [List.dropWhile_cons]
    split
    · next hk =>
      simp only [decide_eq_true_eq] at hk
      simp [Sparse.get, show ¬ k = i by omega, ih]
    · rfl

theorem Mem.get_place (a : Nat) (l : List Byte) (i : Nat) :
    Sparse.get (0 : Byte) (Mem.place a l) i = if a ≤ i ∧ i < a + l.length then nth 0 l (i - a) else 0 := by
  induction l generalizing a with
  | nil => simp [Mem.place, Sparse.get]
  | cons b t ih =>
    simp only [Mem.place]
    have hstep : Sparse.get (0 : Byte) (Mem.place (a + 1) t) i
        = if a + 1 ≤ i ∧ i < a + 1 + t.length then nth 0 t (i - (a + 1)) else 0 := ih (a + 1)
    have hn : a + 1 ≤ i → nth (0 : Byte) (b :: t) (i - a) = nth 0 t (i - (a + 1)) := by
      intro h
      rw [show i - a = (i - (a + 1)) + 1 by omega]
      rfl
    by_cases hi : a = i
    · subst hi
      split
      · next hb => rw [hstep]; simp [nth, hb]
      · simp [Sparse.get, nth]
    · have hrest : Sparse.get (0 : Byte) (Mem.place (a + 1) t) i
          = if a ≤ i ∧ i < a + (b :: t).length then nth 0 (b :: t) (i - a) else 0 := by
        rw [hstep]
        by_cases h : a + 1 ≤ i
        · rw [hn h]; simp only [List.length_cons]
          split <;> split <;> first | rfl | omega
        · have hia : ¬ a ≤ i := by omega
          simp [h, hia]
      split
      · exact hrest
      · simp only [Sparse.get, hi, if_false]; exact hrest

/-- A byte reads as written, and as before outside the bytes written. -/
theorem Mem.byte_write (m : Mem) (a : Nat) (l : List Byte) (i : Nat) (h : m.wf = true) :
    (m.write a l).byte i = if a ≤ i ∧ i < a + l.length then nth 0 l (i - a) else m.byte i := by
  unfold Mem.byte Mem.write
  have hlo : ∀ c ∈ m.takeWhile (fun c => decide (c.1 < a)), c.1 < a := by
    intro c hc; simpa using List.mem_takeWhile_imp hc
  have hhi : ∀ c ∈ m.dropWhile (fun c => decide (c.1 < a + l.length)), a + l.length ≤ c.1 :=
    Sparse.wf_keys (0 : Byte) _ _ (Sparse.wfFrom_dropWhile (0 : Byte) m 0 _ h)
  have hpl := Mem.place_keys a l
  by_cases h1 : i < a
  · rw [Sparse.get_append_below, Sparse.get_append_below, Sparse.get_takeWhile_below (0 : Byte) m 0 a i h h1]
    · rw [if_neg (by omega)]
    · intro c hc; have := hpl c hc; omega
    · intro c hc; have := hhi c hc; omega
  · by_cases h2 : i < a + l.length
    · rw [Sparse.get_append_below, Sparse.get_append_above, Mem.get_place]
      · rw [if_pos (by omega), if_pos (by omega)]
      · intro c hc; have := hlo c hc; omega
      · intro c hc; have := hhi c hc; omega
    · rw [Sparse.get_append_above, Sparse.get_dropWhile_above (0 : Byte) m _ i (by omega)]
      · rw [if_neg (by omega)]
      · intro c hc
        rcases List.mem_append.1 hc with hc | hc
        · have := hlo c hc; omega
        · have := hpl c hc; omega

/-! ### Byte strings -/

@[simp] theorem natLe_length (n v : Nat) : (natLe n v).length = n := by
  induction n generalizing v with
  | zero => rfl
  | succ n ih => simp [natLe, ih]

/-- The little-endian value of a number's low bytes is the number modulo their range (R6). -/
theorem leNat_natLe (n v : Nat) : leNat (natLe n v) = v % 256 ^ n := by
  induction n generalizing v with
  | zero => simp [natLe, leNat, Nat.mod_one]
  | succ n ih =>
    simp only [natLe, leNat, ih, BitVec.toNat_ofNat]
    rw [show (2 : Nat) ^ 8 = 256 by rfl, Nat.pow_succ, Nat.mul_comm (256 ^ n) 256, Nat.mod_mul]

theorem leNat_lt (l : List Byte) : leNat l < 256 ^ l.length := by
  induction l with
  | nil => simp [leNat]
  | cons b t ih =>
    have hb : b.toNat < 256 := b.isLt
    simp only [leNat, List.length_cons, Nat.pow_succ]
    omega
@[simp] theorem Mem.readFrom_length (m : Mem) (a n : Nat) : (Mem.readFrom m a n).length = n := by
  induction n generalizing m a with
  | zero => cases m <;> rfl
  | succ n ih =>
    cases m with
    | nil => simp [Mem.readFrom, ih]
    | cons e t => obtain ⟨k, v⟩ := e; simp only [Mem.readFrom]; split <;> simp [ih]
@[simp] theorem Mem.read_length (m : Mem) (a n : Nat) : (m.read a n).length = n := Mem.readFrom_length _ _ _
theorem Mem.nat_lt (m : Mem) (a n : Nat) : m.nat a n < 2 ^ (8 * n) := by
  have := leNat_lt (m.read a n)
  rw [Mem.read_length] at this
  rwa [Nat.pow_mul]

/-! ### Signed readings -/

theorem sextN_eq (v w : Nat) (h : 0 < w) : sextN v w = (BitVec.ofNat w v).toInt := by
  rw [BitVec.toInt_eq_toNat_cond, BitVec.toNat_ofNat]
  have h2 : 2 ^ w = 2 * 2 ^ (w - 1) := by rw [← Nat.pow_succ']; congr 1; omega
  unfold sextN
  split <;> split <;> omega
theorem ofNat_wrapN (x : Int) : BitVec.ofNat 64 (wrapN x 64) = BitVec.ofInt 64 x := by
  apply BitVec.eq_of_toNat_eq
  simp only [wrapN, BitVec.toNat_ofNat, BitVec.toNat_ofInt]
  omega

end Sys2Proof.Machine
end

