-- ==== Sys2Proof/Laws/State.lean ====
section
/-! SUPPORT. One lemma for each field after each update of the state, and reading a place after writing a place. -/

namespace Sys2Proof.Machine

/-! ### The state's other fields -/

@[simp] theorem State.putCore_cur (s : State) (c : Nat) (v : Core) : (s.putCore c v).cur = s.cur := rfl
@[simp] theorem State.putCore_agenda (s : State) (c : Nat) (v : Core) : (s.putCore c v).agenda = s.agenda := rfl
@[simp] theorem State.putCore_seq (s : State) (c : Nat) (v : Core) : (s.putCore c v).seq = s.seq := rfl
@[simp] theorem State.putCore_did (s : State) (c : Nat) (v : Core) : (s.putCore c v).did = s.did := rfl
@[simp] theorem State.putCore_traced (s : State) (c : Nat) (v : Core) : (s.putCore c v).traced = s.traced := rfl
@[simp] theorem State.putCore_cycle (s : State) (c : Nat) (v : Core) : (s.putCore c v).cycle = s.cycle := rfl
@[simp] theorem State.putCore_time (s : State) (c : Nat) (v : Core) : (s.putCore c v).time = s.time := rfl
@[simp] theorem State.putCore_mem (s : State) (c : Nat) (v : Core) : (s.putCore c v).mem = s.mem := rfl
@[simp] theorem State.putCore_memPoison (s : State) (c : Nat) (v : Core) : (s.putCore c v).memPoison = s.memPoison := rfl
@[simp] theorem State.putCore_hidden (s : State) (c : Nat) (v : Core) : (s.putCore c v).hidden = s.hidden := rfl
@[simp] theorem State.putCore_places (s : State) (c : Nat) (v : Core) : (s.putCore c v).places = s.places := rfl
@[simp] theorem State.putCore_early (s : State) (c : Nat) (v : Core) : (s.putCore c v).early = s.early := rfl
@[simp] theorem State.putCore_atc (s : State) (c : Nat) (v : Core) : (s.putCore c v).atc = s.atc := rfl
@[simp] theorem State.putCore_tlb (s : State) (c : Nat) (v : Core) : (s.putCore c v).tlb = s.tlb := rfl
@[simp] theorem State.putCore_parts (s : State) (c : Nat) (v : Core) : (s.putCore c v).parts = s.parts := rfl
@[simp] theorem State.putCore_funcs (s : State) (c : Nat) (v : Core) : (s.putCore c v).funcs = s.funcs := rfl
@[simp] theorem State.putCore_portLast (s : State) (c : Nat) (v : Core) : (s.putCore c v).portLast = s.portLast := rfl
@[simp] theorem State.putCore_curs (s : State) (c : Nat) (v : Core) : (s.putCore c v).curs = s.curs := rfl
@[simp] theorem State.putCore_mgmt (s : State) (c : Nat) (v : Core) : (s.putCore c v).mgmt = s.mgmt := rfl
@[simp] theorem State.modCore_cur (s : State) (c : Nat) (f : Core → Core) : (s.modCore c f).cur = s.cur := rfl
@[simp] theorem State.modCore_agenda (s : State) (c : Nat) (f : Core → Core) : (s.modCore c f).agenda = s.agenda := rfl
@[simp] theorem State.modCore_seq (s : State) (c : Nat) (f : Core → Core) : (s.modCore c f).seq = s.seq := rfl
@[simp] theorem State.modCore_did (s : State) (c : Nat) (f : Core → Core) : (s.modCore c f).did = s.did := rfl
@[simp] theorem State.modCore_traced (s : State) (c : Nat) (f : Core → Core) : (s.modCore c f).traced = s.traced := rfl
@[simp] theorem State.modCore_cycle (s : State) (c : Nat) (f : Core → Core) : (s.modCore c f).cycle = s.cycle := rfl
@[simp] theorem State.modCore_time (s : State) (c : Nat) (f : Core → Core) : (s.modCore c f).time = s.time := rfl
@[simp] theorem State.modCore_mem (s : State) (c : Nat) (f : Core → Core) : (s.modCore c f).mem = s.mem := rfl
@[simp] theorem State.modCore_memPoison (s : State) (c : Nat) (f : Core → Core) : (s.modCore c f).memPoison = s.memPoison := rfl
@[simp] theorem State.modCore_hidden (s : State) (c : Nat) (f : Core → Core) : (s.modCore c f).hidden = s.hidden := rfl
@[simp] theorem State.modCore_places (s : State) (c : Nat) (f : Core → Core) : (s.modCore c f).places = s.places := rfl
@[simp] theorem State.modCore_early (s : State) (c : Nat) (f : Core → Core) : (s.modCore c f).early = s.early := rfl
@[simp] theorem State.modCore_atc (s : State) (c : Nat) (f : Core → Core) : (s.modCore c f).atc = s.atc := rfl
@[simp] theorem State.modCore_tlb (s : State) (c : Nat) (f : Core → Core) : (s.modCore c f).tlb = s.tlb := rfl
@[simp] theorem State.modCore_parts (s : State) (c : Nat) (f : Core → Core) : (s.modCore c f).parts = s.parts := rfl
@[simp] theorem State.modCore_funcs (s : State) (c : Nat) (f : Core → Core) : (s.modCore c f).funcs = s.funcs := rfl
@[simp] theorem State.modCore_portLast (s : State) (c : Nat) (f : Core → Core) : (s.modCore c f).portLast = s.portLast := rfl
@[simp] theorem State.modCore_curs (s : State) (c : Nat) (f : Core → Core) : (s.modCore c f).curs = s.curs := rfl
@[simp] theorem State.modCore_mgmt (s : State) (c : Nat) (f : Core → Core) : (s.modCore c f).mgmt = s.mgmt := rfl
@[simp] theorem State.putSlot_cur (s : State) (c k : Nat) (v : Slot) : (s.putSlot c k v).cur = s.cur := rfl
@[simp] theorem State.putSlot_agenda (s : State) (c k : Nat) (v : Slot) : (s.putSlot c k v).agenda = s.agenda := rfl
@[simp] theorem State.putSlot_seq (s : State) (c k : Nat) (v : Slot) : (s.putSlot c k v).seq = s.seq := rfl
@[simp] theorem State.putSlot_did (s : State) (c k : Nat) (v : Slot) : (s.putSlot c k v).did = s.did := rfl
@[simp] theorem State.putSlot_traced (s : State) (c k : Nat) (v : Slot) : (s.putSlot c k v).traced = s.traced := rfl
@[simp] theorem State.putSlot_cycle (s : State) (c k : Nat) (v : Slot) : (s.putSlot c k v).cycle = s.cycle := rfl
@[simp] theorem State.putSlot_time (s : State) (c k : Nat) (v : Slot) : (s.putSlot c k v).time = s.time := rfl
@[simp] theorem State.putSlot_mem (s : State) (c k : Nat) (v : Slot) : (s.putSlot c k v).mem = s.mem := rfl
@[simp] theorem State.putSlot_memPoison (s : State) (c k : Nat) (v : Slot) : (s.putSlot c k v).memPoison = s.memPoison := rfl
@[simp] theorem State.putSlot_hidden (s : State) (c k : Nat) (v : Slot) : (s.putSlot c k v).hidden = s.hidden := rfl
@[simp] theorem State.putSlot_places (s : State) (c k : Nat) (v : Slot) : (s.putSlot c k v).places = s.places := rfl
@[simp] theorem State.putSlot_early (s : State) (c k : Nat) (v : Slot) : (s.putSlot c k v).early = s.early := rfl
@[simp] theorem State.putSlot_atc (s : State) (c k : Nat) (v : Slot) : (s.putSlot c k v).atc = s.atc := rfl
@[simp] theorem State.putSlot_tlb (s : State) (c k : Nat) (v : Slot) : (s.putSlot c k v).tlb = s.tlb := rfl
@[simp] theorem State.putSlot_parts (s : State) (c k : Nat) (v : Slot) : (s.putSlot c k v).parts = s.parts := rfl
@[simp] theorem State.putSlot_funcs (s : State) (c k : Nat) (v : Slot) : (s.putSlot c k v).funcs = s.funcs := rfl
@[simp] theorem State.putSlot_portLast (s : State) (c k : Nat) (v : Slot) : (s.putSlot c k v).portLast = s.portLast := rfl
@[simp] theorem State.putSlot_curs (s : State) (c k : Nat) (v : Slot) : (s.putSlot c k v).curs = s.curs := rfl
@[simp] theorem State.putSlot_mgmt (s : State) (c k : Nat) (v : Slot) : (s.putSlot c k v).mgmt = s.mgmt := rfl
@[simp] theorem State.modSlot_cur (s : State) (c k : Nat) (f : Slot → Slot) : (s.modSlot c k f).cur = s.cur := rfl
@[simp] theorem State.modSlot_agenda (s : State) (c k : Nat) (f : Slot → Slot) : (s.modSlot c k f).agenda = s.agenda := rfl
@[simp] theorem State.modSlot_seq (s : State) (c k : Nat) (f : Slot → Slot) : (s.modSlot c k f).seq = s.seq := rfl
@[simp] theorem State.modSlot_did (s : State) (c k : Nat) (f : Slot → Slot) : (s.modSlot c k f).did = s.did := rfl
@[simp] theorem State.modSlot_traced (s : State) (c k : Nat) (f : Slot → Slot) : (s.modSlot c k f).traced = s.traced := rfl
@[simp] theorem State.modSlot_cycle (s : State) (c k : Nat) (f : Slot → Slot) : (s.modSlot c k f).cycle = s.cycle := rfl
@[simp] theorem State.modSlot_time (s : State) (c k : Nat) (f : Slot → Slot) : (s.modSlot c k f).time = s.time := rfl
@[simp] theorem State.modSlot_mem (s : State) (c k : Nat) (f : Slot → Slot) : (s.modSlot c k f).mem = s.mem := rfl
@[simp] theorem State.modSlot_memPoison (s : State) (c k : Nat) (f : Slot → Slot) : (s.modSlot c k f).memPoison = s.memPoison := rfl
@[simp] theorem State.modSlot_hidden (s : State) (c k : Nat) (f : Slot → Slot) : (s.modSlot c k f).hidden = s.hidden := rfl
@[simp] theorem State.modSlot_places (s : State) (c k : Nat) (f : Slot → Slot) : (s.modSlot c k f).places = s.places := rfl
@[simp] theorem State.modSlot_early (s : State) (c k : Nat) (f : Slot → Slot) : (s.modSlot c k f).early = s.early := rfl
@[simp] theorem State.modSlot_atc (s : State) (c k : Nat) (f : Slot → Slot) : (s.modSlot c k f).atc = s.atc := rfl
@[simp] theorem State.modSlot_tlb (s : State) (c k : Nat) (f : Slot → Slot) : (s.modSlot c k f).tlb = s.tlb := rfl
@[simp] theorem State.modSlot_parts (s : State) (c k : Nat) (f : Slot → Slot) : (s.modSlot c k f).parts = s.parts := rfl
@[simp] theorem State.modSlot_funcs (s : State) (c k : Nat) (f : Slot → Slot) : (s.modSlot c k f).funcs = s.funcs := rfl
@[simp] theorem State.modSlot_portLast (s : State) (c k : Nat) (f : Slot → Slot) : (s.modSlot c k f).portLast = s.portLast := rfl
@[simp] theorem State.modSlot_curs (s : State) (c k : Nat) (f : Slot → Slot) : (s.modSlot c k f).curs = s.curs := rfl
@[simp] theorem State.modSlot_mgmt (s : State) (c k : Nat) (f : Slot → Slot) : (s.modSlot c k f).mgmt = s.mgmt := rfl
@[simp] theorem State.putTile_cur (s : State) (c a : Nat) (v : Tile) : (s.putTile c a v).cur = s.cur := rfl
@[simp] theorem State.putTile_agenda (s : State) (c a : Nat) (v : Tile) : (s.putTile c a v).agenda = s.agenda := rfl
@[simp] theorem State.putTile_seq (s : State) (c a : Nat) (v : Tile) : (s.putTile c a v).seq = s.seq := rfl
@[simp] theorem State.putTile_did (s : State) (c a : Nat) (v : Tile) : (s.putTile c a v).did = s.did := rfl
@[simp] theorem State.putTile_traced (s : State) (c a : Nat) (v : Tile) : (s.putTile c a v).traced = s.traced := rfl
@[simp] theorem State.putTile_cycle (s : State) (c a : Nat) (v : Tile) : (s.putTile c a v).cycle = s.cycle := rfl
@[simp] theorem State.putTile_time (s : State) (c a : Nat) (v : Tile) : (s.putTile c a v).time = s.time := rfl
@[simp] theorem State.putTile_mem (s : State) (c a : Nat) (v : Tile) : (s.putTile c a v).mem = s.mem := rfl
@[simp] theorem State.putTile_memPoison (s : State) (c a : Nat) (v : Tile) : (s.putTile c a v).memPoison = s.memPoison := rfl
@[simp] theorem State.putTile_hidden (s : State) (c a : Nat) (v : Tile) : (s.putTile c a v).hidden = s.hidden := rfl
@[simp] theorem State.putTile_places (s : State) (c a : Nat) (v : Tile) : (s.putTile c a v).places = s.places := rfl
@[simp] theorem State.putTile_early (s : State) (c a : Nat) (v : Tile) : (s.putTile c a v).early = s.early := rfl
@[simp] theorem State.putTile_atc (s : State) (c a : Nat) (v : Tile) : (s.putTile c a v).atc = s.atc := rfl
@[simp] theorem State.putTile_tlb (s : State) (c a : Nat) (v : Tile) : (s.putTile c a v).tlb = s.tlb := rfl
@[simp] theorem State.putTile_parts (s : State) (c a : Nat) (v : Tile) : (s.putTile c a v).parts = s.parts := rfl
@[simp] theorem State.putTile_funcs (s : State) (c a : Nat) (v : Tile) : (s.putTile c a v).funcs = s.funcs := rfl
@[simp] theorem State.putTile_portLast (s : State) (c a : Nat) (v : Tile) : (s.putTile c a v).portLast = s.portLast := rfl
@[simp] theorem State.putTile_curs (s : State) (c a : Nat) (v : Tile) : (s.putTile c a v).curs = s.curs := rfl
@[simp] theorem State.putTile_mgmt (s : State) (c a : Nat) (v : Tile) : (s.putTile c a v).mgmt = s.mgmt := rfl
@[simp] theorem State.modTile_cur (s : State) (c a : Nat) (f : Tile → Tile) : (s.modTile c a f).cur = s.cur := rfl
@[simp] theorem State.modTile_agenda (s : State) (c a : Nat) (f : Tile → Tile) : (s.modTile c a f).agenda = s.agenda := rfl
@[simp] theorem State.modTile_seq (s : State) (c a : Nat) (f : Tile → Tile) : (s.modTile c a f).seq = s.seq := rfl
@[simp] theorem State.modTile_did (s : State) (c a : Nat) (f : Tile → Tile) : (s.modTile c a f).did = s.did := rfl
@[simp] theorem State.modTile_traced (s : State) (c a : Nat) (f : Tile → Tile) : (s.modTile c a f).traced = s.traced := rfl
@[simp] theorem State.modTile_cycle (s : State) (c a : Nat) (f : Tile → Tile) : (s.modTile c a f).cycle = s.cycle := rfl
@[simp] theorem State.modTile_time (s : State) (c a : Nat) (f : Tile → Tile) : (s.modTile c a f).time = s.time := rfl
@[simp] theorem State.modTile_mem (s : State) (c a : Nat) (f : Tile → Tile) : (s.modTile c a f).mem = s.mem := rfl
@[simp] theorem State.modTile_memPoison (s : State) (c a : Nat) (f : Tile → Tile) : (s.modTile c a f).memPoison = s.memPoison := rfl
@[simp] theorem State.modTile_hidden (s : State) (c a : Nat) (f : Tile → Tile) : (s.modTile c a f).hidden = s.hidden := rfl
@[simp] theorem State.modTile_places (s : State) (c a : Nat) (f : Tile → Tile) : (s.modTile c a f).places = s.places := rfl
@[simp] theorem State.modTile_early (s : State) (c a : Nat) (f : Tile → Tile) : (s.modTile c a f).early = s.early := rfl
@[simp] theorem State.modTile_atc (s : State) (c a : Nat) (f : Tile → Tile) : (s.modTile c a f).atc = s.atc := rfl
@[simp] theorem State.modTile_tlb (s : State) (c a : Nat) (f : Tile → Tile) : (s.modTile c a f).tlb = s.tlb := rfl
@[simp] theorem State.modTile_parts (s : State) (c a : Nat) (f : Tile → Tile) : (s.modTile c a f).parts = s.parts := rfl
@[simp] theorem State.modTile_funcs (s : State) (c a : Nat) (f : Tile → Tile) : (s.modTile c a f).funcs = s.funcs := rfl
@[simp] theorem State.modTile_portLast (s : State) (c a : Nat) (f : Tile → Tile) : (s.modTile c a f).portLast = s.portLast := rfl
@[simp] theorem State.modTile_curs (s : State) (c a : Nat) (f : Tile → Tile) : (s.modTile c a f).curs = s.curs := rfl
@[simp] theorem State.modTile_mgmt (s : State) (c a : Nat) (f : Tile → Tile) : (s.modTile c a f).mgmt = s.mgmt := rfl
@[simp] theorem State.modMe_cur (s : State) (f : Slot → Slot) : (s.modMe f).cur = s.cur := rfl
@[simp] theorem State.modMe_agenda (s : State) (f : Slot → Slot) : (s.modMe f).agenda = s.agenda := rfl
@[simp] theorem State.modMe_seq (s : State) (f : Slot → Slot) : (s.modMe f).seq = s.seq := rfl
@[simp] theorem State.modMe_did (s : State) (f : Slot → Slot) : (s.modMe f).did = s.did := rfl
@[simp] theorem State.modMe_traced (s : State) (f : Slot → Slot) : (s.modMe f).traced = s.traced := rfl
@[simp] theorem State.modMe_cycle (s : State) (f : Slot → Slot) : (s.modMe f).cycle = s.cycle := rfl
@[simp] theorem State.modMe_time (s : State) (f : Slot → Slot) : (s.modMe f).time = s.time := rfl
@[simp] theorem State.modMe_mem (s : State) (f : Slot → Slot) : (s.modMe f).mem = s.mem := rfl
@[simp] theorem State.modMe_memPoison (s : State) (f : Slot → Slot) : (s.modMe f).memPoison = s.memPoison := rfl
@[simp] theorem State.modMe_hidden (s : State) (f : Slot → Slot) : (s.modMe f).hidden = s.hidden := rfl
@[simp] theorem State.modMe_places (s : State) (f : Slot → Slot) : (s.modMe f).places = s.places := rfl
@[simp] theorem State.modMe_early (s : State) (f : Slot → Slot) : (s.modMe f).early = s.early := rfl
@[simp] theorem State.modMe_atc (s : State) (f : Slot → Slot) : (s.modMe f).atc = s.atc := rfl
@[simp] theorem State.modMe_tlb (s : State) (f : Slot → Slot) : (s.modMe f).tlb = s.tlb := rfl
@[simp] theorem State.modMe_parts (s : State) (f : Slot → Slot) : (s.modMe f).parts = s.parts := rfl
@[simp] theorem State.modMe_funcs (s : State) (f : Slot → Slot) : (s.modMe f).funcs = s.funcs := rfl
@[simp] theorem State.modMe_portLast (s : State) (f : Slot → Slot) : (s.modMe f).portLast = s.portLast := rfl
@[simp] theorem State.modMe_curs (s : State) (f : Slot → Slot) : (s.modMe f).curs = s.curs := rfl
@[simp] theorem State.modMe_mgmt (s : State) (f : Slot → Slot) : (s.modMe f).mgmt = s.mgmt := rfl
@[simp] theorem State.setX_cur (s : State) (d : Reg) (v : Word) : (s.setX d v).cur = s.cur := rfl
@[simp] theorem State.setX_agenda (s : State) (d : Reg) (v : Word) : (s.setX d v).agenda = s.agenda := rfl
@[simp] theorem State.setX_seq (s : State) (d : Reg) (v : Word) : (s.setX d v).seq = s.seq := rfl
@[simp] theorem State.setX_did (s : State) (d : Reg) (v : Word) : (s.setX d v).did = s.did := rfl
@[simp] theorem State.setX_traced (s : State) (d : Reg) (v : Word) : (s.setX d v).traced = s.traced := rfl
@[simp] theorem State.setX_cycle (s : State) (d : Reg) (v : Word) : (s.setX d v).cycle = s.cycle := rfl
@[simp] theorem State.setX_time (s : State) (d : Reg) (v : Word) : (s.setX d v).time = s.time := rfl
@[simp] theorem State.setX_mem (s : State) (d : Reg) (v : Word) : (s.setX d v).mem = s.mem := rfl
@[simp] theorem State.setX_memPoison (s : State) (d : Reg) (v : Word) : (s.setX d v).memPoison = s.memPoison := rfl
@[simp] theorem State.setX_hidden (s : State) (d : Reg) (v : Word) : (s.setX d v).hidden = s.hidden := rfl
@[simp] theorem State.setX_places (s : State) (d : Reg) (v : Word) : (s.setX d v).places = s.places := rfl
@[simp] theorem State.setX_early (s : State) (d : Reg) (v : Word) : (s.setX d v).early = s.early := rfl
@[simp] theorem State.setX_atc (s : State) (d : Reg) (v : Word) : (s.setX d v).atc = s.atc := rfl
@[simp] theorem State.setX_tlb (s : State) (d : Reg) (v : Word) : (s.setX d v).tlb = s.tlb := rfl
@[simp] theorem State.setX_parts (s : State) (d : Reg) (v : Word) : (s.setX d v).parts = s.parts := rfl
@[simp] theorem State.setX_funcs (s : State) (d : Reg) (v : Word) : (s.setX d v).funcs = s.funcs := rfl
@[simp] theorem State.setX_portLast (s : State) (d : Reg) (v : Word) : (s.setX d v).portLast = s.portLast := rfl
@[simp] theorem State.setX_curs (s : State) (d : Reg) (v : Word) : (s.setX d v).curs = s.curs := rfl
@[simp] theorem State.setX_mgmt (s : State) (d : Reg) (v : Word) : (s.setX d v).mgmt = s.mgmt := rfl
@[simp] theorem State.setP_cur (s : State) (d : PReg) (b : Bool) : (s.setP d b).cur = s.cur := rfl
@[simp] theorem State.setP_agenda (s : State) (d : PReg) (b : Bool) : (s.setP d b).agenda = s.agenda := rfl
@[simp] theorem State.setP_seq (s : State) (d : PReg) (b : Bool) : (s.setP d b).seq = s.seq := rfl
@[simp] theorem State.setP_did (s : State) (d : PReg) (b : Bool) : (s.setP d b).did = s.did := rfl
@[simp] theorem State.setP_traced (s : State) (d : PReg) (b : Bool) : (s.setP d b).traced = s.traced := rfl
@[simp] theorem State.setP_cycle (s : State) (d : PReg) (b : Bool) : (s.setP d b).cycle = s.cycle := rfl
@[simp] theorem State.setP_time (s : State) (d : PReg) (b : Bool) : (s.setP d b).time = s.time := rfl
@[simp] theorem State.setP_mem (s : State) (d : PReg) (b : Bool) : (s.setP d b).mem = s.mem := rfl
@[simp] theorem State.setP_memPoison (s : State) (d : PReg) (b : Bool) : (s.setP d b).memPoison = s.memPoison := rfl
@[simp] theorem State.setP_hidden (s : State) (d : PReg) (b : Bool) : (s.setP d b).hidden = s.hidden := rfl
@[simp] theorem State.setP_places (s : State) (d : PReg) (b : Bool) : (s.setP d b).places = s.places := rfl
@[simp] theorem State.setP_early (s : State) (d : PReg) (b : Bool) : (s.setP d b).early = s.early := rfl
@[simp] theorem State.setP_atc (s : State) (d : PReg) (b : Bool) : (s.setP d b).atc = s.atc := rfl
@[simp] theorem State.setP_tlb (s : State) (d : PReg) (b : Bool) : (s.setP d b).tlb = s.tlb := rfl
@[simp] theorem State.setP_parts (s : State) (d : PReg) (b : Bool) : (s.setP d b).parts = s.parts := rfl
@[simp] theorem State.setP_funcs (s : State) (d : PReg) (b : Bool) : (s.setP d b).funcs = s.funcs := rfl
@[simp] theorem State.setP_portLast (s : State) (d : PReg) (b : Bool) : (s.setP d b).portLast = s.portLast := rfl
@[simp] theorem State.setP_curs (s : State) (d : PReg) (b : Bool) : (s.setP d b).curs = s.curs := rfl
@[simp] theorem State.setP_mgmt (s : State) (d : PReg) (b : Bool) : (s.setP d b).mgmt = s.mgmt := rfl
@[simp] theorem State.orFlags_cur (s : State) (f : Fl) : (s.orFlags f).cur = s.cur := rfl
@[simp] theorem State.orFlags_agenda (s : State) (f : Fl) : (s.orFlags f).agenda = s.agenda := rfl
@[simp] theorem State.orFlags_seq (s : State) (f : Fl) : (s.orFlags f).seq = s.seq := rfl
@[simp] theorem State.orFlags_did (s : State) (f : Fl) : (s.orFlags f).did = s.did := rfl
@[simp] theorem State.orFlags_traced (s : State) (f : Fl) : (s.orFlags f).traced = s.traced := rfl
@[simp] theorem State.orFlags_cycle (s : State) (f : Fl) : (s.orFlags f).cycle = s.cycle := rfl
@[simp] theorem State.orFlags_time (s : State) (f : Fl) : (s.orFlags f).time = s.time := rfl
@[simp] theorem State.orFlags_mem (s : State) (f : Fl) : (s.orFlags f).mem = s.mem := rfl
@[simp] theorem State.orFlags_memPoison (s : State) (f : Fl) : (s.orFlags f).memPoison = s.memPoison := rfl
@[simp] theorem State.orFlags_hidden (s : State) (f : Fl) : (s.orFlags f).hidden = s.hidden := rfl
@[simp] theorem State.orFlags_places (s : State) (f : Fl) : (s.orFlags f).places = s.places := rfl
@[simp] theorem State.orFlags_early (s : State) (f : Fl) : (s.orFlags f).early = s.early := rfl
@[simp] theorem State.orFlags_atc (s : State) (f : Fl) : (s.orFlags f).atc = s.atc := rfl
@[simp] theorem State.orFlags_tlb (s : State) (f : Fl) : (s.orFlags f).tlb = s.tlb := rfl
@[simp] theorem State.orFlags_parts (s : State) (f : Fl) : (s.orFlags f).parts = s.parts := rfl
@[simp] theorem State.orFlags_funcs (s : State) (f : Fl) : (s.orFlags f).funcs = s.funcs := rfl
@[simp] theorem State.orFlags_portLast (s : State) (f : Fl) : (s.orFlags f).portLast = s.portLast := rfl
@[simp] theorem State.orFlags_curs (s : State) (f : Fl) : (s.orFlags f).curs = s.curs := rfl
@[simp] theorem State.orFlags_mgmt (s : State) (f : Fl) : (s.orFlags f).mgmt = s.mgmt := rfl
@[simp] theorem State.putPart_cur (s : State) (p : Nat) (v : Part) : (s.putPart p v).cur = s.cur := rfl
@[simp] theorem State.putPart_agenda (s : State) (p : Nat) (v : Part) : (s.putPart p v).agenda = s.agenda := rfl
@[simp] theorem State.putPart_seq (s : State) (p : Nat) (v : Part) : (s.putPart p v).seq = s.seq := rfl
@[simp] theorem State.putPart_did (s : State) (p : Nat) (v : Part) : (s.putPart p v).did = s.did := rfl
@[simp] theorem State.putPart_traced (s : State) (p : Nat) (v : Part) : (s.putPart p v).traced = s.traced := rfl
@[simp] theorem State.putPart_cycle (s : State) (p : Nat) (v : Part) : (s.putPart p v).cycle = s.cycle := rfl
@[simp] theorem State.putPart_time (s : State) (p : Nat) (v : Part) : (s.putPart p v).time = s.time := rfl
@[simp] theorem State.putPart_mem (s : State) (p : Nat) (v : Part) : (s.putPart p v).mem = s.mem := rfl
@[simp] theorem State.putPart_memPoison (s : State) (p : Nat) (v : Part) : (s.putPart p v).memPoison = s.memPoison := rfl
@[simp] theorem State.putPart_hidden (s : State) (p : Nat) (v : Part) : (s.putPart p v).hidden = s.hidden := rfl
@[simp] theorem State.putPart_places (s : State) (p : Nat) (v : Part) : (s.putPart p v).places = s.places := rfl
@[simp] theorem State.putPart_early (s : State) (p : Nat) (v : Part) : (s.putPart p v).early = s.early := rfl
@[simp] theorem State.putPart_atc (s : State) (p : Nat) (v : Part) : (s.putPart p v).atc = s.atc := rfl
@[simp] theorem State.putPart_tlb (s : State) (p : Nat) (v : Part) : (s.putPart p v).tlb = s.tlb := rfl
@[simp] theorem State.putPart_cores (s : State) (p : Nat) (v : Part) : (s.putPart p v).cores = s.cores := rfl
@[simp] theorem State.putPart_funcs (s : State) (p : Nat) (v : Part) : (s.putPart p v).funcs = s.funcs := rfl
@[simp] theorem State.putPart_portLast (s : State) (p : Nat) (v : Part) : (s.putPart p v).portLast = s.portLast := rfl
@[simp] theorem State.putPart_curs (s : State) (p : Nat) (v : Part) : (s.putPart p v).curs = s.curs := rfl
@[simp] theorem State.putPart_mgmt (s : State) (p : Nat) (v : Part) : (s.putPart p v).mgmt = s.mgmt := rfl
@[simp] theorem State.modPart_cur (s : State) (p : Nat) (f : Part → Part) : (s.modPart p f).cur = s.cur := rfl
@[simp] theorem State.modPart_agenda (s : State) (p : Nat) (f : Part → Part) : (s.modPart p f).agenda = s.agenda := rfl
@[simp] theorem State.modPart_seq (s : State) (p : Nat) (f : Part → Part) : (s.modPart p f).seq = s.seq := rfl
@[simp] theorem State.modPart_did (s : State) (p : Nat) (f : Part → Part) : (s.modPart p f).did = s.did := rfl
@[simp] theorem State.modPart_traced (s : State) (p : Nat) (f : Part → Part) : (s.modPart p f).traced = s.traced := rfl
@[simp] theorem State.modPart_cycle (s : State) (p : Nat) (f : Part → Part) : (s.modPart p f).cycle = s.cycle := rfl
@[simp] theorem State.modPart_time (s : State) (p : Nat) (f : Part → Part) : (s.modPart p f).time = s.time := rfl
@[simp] theorem State.modPart_mem (s : State) (p : Nat) (f : Part → Part) : (s.modPart p f).mem = s.mem := rfl
@[simp] theorem State.modPart_memPoison (s : State) (p : Nat) (f : Part → Part) : (s.modPart p f).memPoison = s.memPoison := rfl
@[simp] theorem State.modPart_hidden (s : State) (p : Nat) (f : Part → Part) : (s.modPart p f).hidden = s.hidden := rfl
@[simp] theorem State.modPart_places (s : State) (p : Nat) (f : Part → Part) : (s.modPart p f).places = s.places := rfl
@[simp] theorem State.modPart_early (s : State) (p : Nat) (f : Part → Part) : (s.modPart p f).early = s.early := rfl
@[simp] theorem State.modPart_atc (s : State) (p : Nat) (f : Part → Part) : (s.modPart p f).atc = s.atc := rfl
@[simp] theorem State.modPart_tlb (s : State) (p : Nat) (f : Part → Part) : (s.modPart p f).tlb = s.tlb := rfl
@[simp] theorem State.modPart_cores (s : State) (p : Nat) (f : Part → Part) : (s.modPart p f).cores = s.cores := rfl
@[simp] theorem State.modPart_funcs (s : State) (p : Nat) (f : Part → Part) : (s.modPart p f).funcs = s.funcs := rfl
@[simp] theorem State.modPart_portLast (s : State) (p : Nat) (f : Part → Part) : (s.modPart p f).portLast = s.portLast := rfl
@[simp] theorem State.modPart_curs (s : State) (p : Nat) (f : Part → Part) : (s.modPart p f).curs = s.curs := rfl
@[simp] theorem State.modPart_mgmt (s : State) (p : Nat) (f : Part → Part) : (s.modPart p f).mgmt = s.mgmt := rfl
@[simp] theorem State.putFn_cur (s : State) (f : Nat) (v : Func) : (s.putFn f v).cur = s.cur := rfl
@[simp] theorem State.putFn_agenda (s : State) (f : Nat) (v : Func) : (s.putFn f v).agenda = s.agenda := rfl
@[simp] theorem State.putFn_seq (s : State) (f : Nat) (v : Func) : (s.putFn f v).seq = s.seq := rfl
@[simp] theorem State.putFn_did (s : State) (f : Nat) (v : Func) : (s.putFn f v).did = s.did := rfl
@[simp] theorem State.putFn_traced (s : State) (f : Nat) (v : Func) : (s.putFn f v).traced = s.traced := rfl
@[simp] theorem State.putFn_cycle (s : State) (f : Nat) (v : Func) : (s.putFn f v).cycle = s.cycle := rfl
@[simp] theorem State.putFn_time (s : State) (f : Nat) (v : Func) : (s.putFn f v).time = s.time := rfl
@[simp] theorem State.putFn_mem (s : State) (f : Nat) (v : Func) : (s.putFn f v).mem = s.mem := rfl
@[simp] theorem State.putFn_memPoison (s : State) (f : Nat) (v : Func) : (s.putFn f v).memPoison = s.memPoison := rfl
@[simp] theorem State.putFn_hidden (s : State) (f : Nat) (v : Func) : (s.putFn f v).hidden = s.hidden := rfl
@[simp] theorem State.putFn_places (s : State) (f : Nat) (v : Func) : (s.putFn f v).places = s.places := rfl
@[simp] theorem State.putFn_early (s : State) (f : Nat) (v : Func) : (s.putFn f v).early = s.early := rfl
@[simp] theorem State.putFn_atc (s : State) (f : Nat) (v : Func) : (s.putFn f v).atc = s.atc := rfl
@[simp] theorem State.putFn_tlb (s : State) (f : Nat) (v : Func) : (s.putFn f v).tlb = s.tlb := rfl
@[simp] theorem State.putFn_cores (s : State) (f : Nat) (v : Func) : (s.putFn f v).cores = s.cores := rfl
@[simp] theorem State.putFn_parts (s : State) (f : Nat) (v : Func) : (s.putFn f v).parts = s.parts := rfl
@[simp] theorem State.putFn_portLast (s : State) (f : Nat) (v : Func) : (s.putFn f v).portLast = s.portLast := rfl
@[simp] theorem State.putFn_curs (s : State) (f : Nat) (v : Func) : (s.putFn f v).curs = s.curs := rfl
@[simp] theorem State.putFn_mgmt (s : State) (f : Nat) (v : Func) : (s.putFn f v).mgmt = s.mgmt := rfl
@[simp] theorem State.modFn_cur (s : State) (f : Nat) (g : Func → Func) : (s.modFn f g).cur = s.cur := rfl
@[simp] theorem State.modFn_agenda (s : State) (f : Nat) (g : Func → Func) : (s.modFn f g).agenda = s.agenda := rfl
@[simp] theorem State.modFn_seq (s : State) (f : Nat) (g : Func → Func) : (s.modFn f g).seq = s.seq := rfl
@[simp] theorem State.modFn_did (s : State) (f : Nat) (g : Func → Func) : (s.modFn f g).did = s.did := rfl
@[simp] theorem State.modFn_traced (s : State) (f : Nat) (g : Func → Func) : (s.modFn f g).traced = s.traced := rfl
@[simp] theorem State.modFn_cycle (s : State) (f : Nat) (g : Func → Func) : (s.modFn f g).cycle = s.cycle := rfl
@[simp] theorem State.modFn_time (s : State) (f : Nat) (g : Func → Func) : (s.modFn f g).time = s.time := rfl
@[simp] theorem State.modFn_mem (s : State) (f : Nat) (g : Func → Func) : (s.modFn f g).mem = s.mem := rfl
@[simp] theorem State.modFn_memPoison (s : State) (f : Nat) (g : Func → Func) : (s.modFn f g).memPoison = s.memPoison := rfl
@[simp] theorem State.modFn_hidden (s : State) (f : Nat) (g : Func → Func) : (s.modFn f g).hidden = s.hidden := rfl
@[simp] theorem State.modFn_places (s : State) (f : Nat) (g : Func → Func) : (s.modFn f g).places = s.places := rfl
@[simp] theorem State.modFn_early (s : State) (f : Nat) (g : Func → Func) : (s.modFn f g).early = s.early := rfl
@[simp] theorem State.modFn_atc (s : State) (f : Nat) (g : Func → Func) : (s.modFn f g).atc = s.atc := rfl
@[simp] theorem State.modFn_tlb (s : State) (f : Nat) (g : Func → Func) : (s.modFn f g).tlb = s.tlb := rfl
@[simp] theorem State.modFn_cores (s : State) (f : Nat) (g : Func → Func) : (s.modFn f g).cores = s.cores := rfl
@[simp] theorem State.modFn_parts (s : State) (f : Nat) (g : Func → Func) : (s.modFn f g).parts = s.parts := rfl
@[simp] theorem State.modFn_portLast (s : State) (f : Nat) (g : Func → Func) : (s.modFn f g).portLast = s.portLast := rfl
@[simp] theorem State.modFn_curs (s : State) (f : Nat) (g : Func → Func) : (s.modFn f g).curs = s.curs := rfl
@[simp] theorem State.modFn_mgmt (s : State) (f : Nat) (g : Func → Func) : (s.modFn f g).mgmt = s.mgmt := rfl

/-! ### Places after updates -/

@[simp] theorem State.core_putCore (s : State) (c c' : Nat) (v : Core) :
    (s.putCore c v).core c' = if c' = c then v else s.core c' := by
  simp [State.core, State.putCore]
@[simp] theorem State.core_modCore (s : State) (c c' : Nat) (f : Core → Core) :
    (s.modCore c f).core c' = if c' = c then f (s.core c) else s.core c' := by
  simp [State.modCore]
@[simp] theorem Core.slot_putSlot (co : Core) (k k' : Nat) (v : Slot) :
    (co.putSlot k v).slot k' = if k' = k then v else co.slot k' := by
  simp [Core.slot, Core.putSlot]
@[simp] theorem State.slotAt_putSlot (s : State) (c k c' k' : Nat) (v : Slot) :
    (s.putSlot c k v).slotAt c' k' = if c' = c ∧ k' = k then v else s.slotAt c' k' := by
  unfold State.slotAt State.putSlot
  grind [State.core_putCore, Core.slot_putSlot]
@[simp] theorem State.slotAt_modSlot (s : State) (c k c' k' : Nat) (f : Slot → Slot) :
    (s.modSlot c k f).slotAt c' k' = if c' = c ∧ k' = k then f (s.slotAt c k) else s.slotAt c' k' := by
  simp [State.modSlot]
@[simp] theorem State.me_modMe (s : State) (f : Slot → Slot) : (s.modMe f).me = f s.me := by
  simp [State.me, State.modMe, State.putMe]
theorem State.slotAt_modMe (s : State) (f : Slot → Slot) (c k : Nat) :
    (s.modMe f).slotAt c k = if c = s.cur.core ∧ k = s.cur.slot then f s.me else s.slotAt c k := by
  simp [State.me, State.modMe, State.putMe]
@[simp] theorem State.me_setX (s : State) (d : Reg) (v : Word) : (s.setX d v).me = s.me.setX d v := by simp [State.setX]
@[simp] theorem State.me_setP (s : State) (d : PReg) (b : Bool) : (s.setP d b).me = s.me.setP d b := by simp [State.setP]
@[simp] theorem State.me_orFlags (s : State) (f : Fl) : (s.orFlags f).me = s.me.orFlags s.cur.strm f := by simp [State.orFlags]
@[simp] theorem State.part_putPart (s : State) (p p' : Nat) (v : Part) :
    (s.putPart p v).part p' = if p' = p then v else s.part p' := by
  simp [State.part, State.putPart]
@[simp] theorem State.part_modPart (s : State) (p p' : Nat) (f : Part → Part) :
    (s.modPart p f).part p' = if p' = p then f (s.part p) else s.part p' := by
  simp [State.modPart]
@[simp] theorem State.fn_putFn (s : State) (f f' : Nat) (v : Func) :
    (s.putFn f v).fn f' = if f' = f then v else s.fn f' := by
  simp [State.fn, State.putFn]
@[simp] theorem State.fn_modFn (s : State) (f f' : Nat) (g : Func → Func) :
    (s.modFn f g).fn f' = if f' = f then g (s.fn f) else s.fn f' := by
  simp [State.modFn]
@[simp] theorem Core.tile_putTile (co : Core) (a a' : Nat) (v : Tile) :
    (co.putTile a v).tile a' = if a' = a then v else co.tile a' := by
  simp [Core.tile, Core.putTile]

/-! What an update of one kind leaves of the others. -/


@[simp] theorem Core.putSlot_scratch (co : Core) (k : Nat) (v : Slot) : (co.putSlot k v).scratch = co.scratch := rfl
@[simp] theorem State.core_modMe_scratch (s : State) (g : Slot → Slot) (c : Nat) : ((s.modMe g).core c).scratch = (s.core c).scratch := by
  unfold State.modMe State.putMe State.putSlot; grind [State.core_putCore, Core.putSlot_scratch]
@[simp] theorem Core.putSlot_scratchPoison (co : Core) (k : Nat) (v : Slot) : (co.putSlot k v).scratchPoison = co.scratchPoison := rfl
@[simp] theorem State.core_modMe_scratchPoison (s : State) (g : Slot → Slot) (c : Nat) : ((s.modMe g).core c).scratchPoison = (s.core c).scratchPoison := by
  unfold State.modMe State.putMe State.putSlot; grind [State.core_putCore, Core.putSlot_scratchPoison]
@[simp] theorem Core.putSlot_acs (co : Core) (k : Nat) (v : Slot) : (co.putSlot k v).acs = co.acs := rfl
@[simp] theorem State.core_modMe_acs (s : State) (g : Slot → Slot) (c : Nat) : ((s.modMe g).core c).acs = (s.core c).acs := by
  unfold State.modMe State.putMe State.putSlot; grind [State.core_putCore, Core.putSlot_acs]
@[simp] theorem Core.putSlot_acsPoison (co : Core) (k : Nat) (v : Slot) : (co.putSlot k v).acsPoison = co.acsPoison := rfl
@[simp] theorem State.core_modMe_acsPoison (s : State) (g : Slot → Slot) (c : Nat) : ((s.modMe g).core c).acsPoison = (s.core c).acsPoison := by
  unfold State.modMe State.putMe State.putSlot; grind [State.core_putCore, Core.putSlot_acsPoison]
@[simp] theorem Core.putSlot_ttb (co : Core) (k : Nat) (v : Slot) : (co.putSlot k v).ttb = co.ttb := rfl
@[simp] theorem State.core_modMe_ttb (s : State) (g : Slot → Slot) (c : Nat) : ((s.modMe g).core c).ttb = (s.core c).ttb := by
  unfold State.modMe State.putMe State.putSlot; grind [State.core_putCore, Core.putSlot_ttb]
@[simp] theorem Core.putSlot_rings (co : Core) (k : Nat) (v : Slot) : (co.putSlot k v).rings = co.rings := rfl
@[simp] theorem State.core_modMe_rings (s : State) (g : Slot → Slot) (c : Nat) : ((s.modMe g).core c).rings = (s.core c).rings := by
  unfold State.modMe State.putMe State.putSlot; grind [State.core_putCore, Core.putSlot_rings]
@[simp] theorem Core.putSlot_casks (co : Core) (k : Nat) (v : Slot) : (co.putSlot k v).casks = co.casks := rfl
@[simp] theorem State.core_modMe_casks (s : State) (g : Slot → Slot) (c : Nat) : ((s.modMe g).core c).casks = (s.core c).casks := by
  unfold State.modMe State.putMe State.putSlot; grind [State.core_putCore, Core.putSlot_casks]
@[simp] theorem Core.putSlot_regs (co : Core) (k : Nat) (v : Slot) : (co.putSlot k v).regs = co.regs := rfl
@[simp] theorem State.core_modMe_regs (s : State) (g : Slot → Slot) (c : Nat) : ((s.modMe g).core c).regs = (s.core c).regs := by
  unfold State.modMe State.putMe State.putSlot; grind [State.core_putCore, Core.putSlot_regs]
@[simp] theorem Core.putSlot_sealsIn (co : Core) (k : Nat) (v : Slot) : (co.putSlot k v).sealsIn = co.sealsIn := rfl
@[simp] theorem State.core_modMe_sealsIn (s : State) (g : Slot → Slot) (c : Nat) : ((s.modMe g).core c).sealsIn = (s.core c).sealsIn := by
  unfold State.modMe State.putMe State.putSlot; grind [State.core_putCore, Core.putSlot_sealsIn]
@[simp] theorem Core.putSlot_gens (co : Core) (k : Nat) (v : Slot) : (co.putSlot k v).gens = co.gens := rfl
@[simp] theorem State.core_modMe_gens (s : State) (g : Slot → Slot) (c : Nat) : ((s.modMe g).core c).gens = (s.core c).gens := by
  unfold State.modMe State.putMe State.putSlot; grind [State.core_putCore, Core.putSlot_gens]
@[simp] theorem Core.putSlot_seed (co : Core) (k : Nat) (v : Slot) : (co.putSlot k v).seed = co.seed := rfl
@[simp] theorem State.core_modMe_seed (s : State) (g : Slot → Slot) (c : Nat) : ((s.modMe g).core c).seed = (s.core c).seed := by
  unfold State.modMe State.putMe State.putSlot; grind [State.core_putCore, Core.putSlot_seed]
@[simp] theorem Core.putSlot_mxe (co : Core) (k : Nat) (v : Slot) : (co.putSlot k v).mxe = co.mxe := rfl
@[simp] theorem State.core_modMe_mxe (s : State) (g : Slot → Slot) (c : Nat) : ((s.modMe g).core c).mxe = (s.core c).mxe := by
  unfold State.modMe State.putMe State.putSlot; grind [State.core_putCore, Core.putSlot_mxe]
@[simp] theorem Core.putSlot_vxe (co : Core) (k : Nat) (v : Slot) : (co.putSlot k v).vxe = co.vxe := rfl
@[simp] theorem State.core_modMe_vxe (s : State) (g : Slot → Slot) (c : Nat) : ((s.modMe g).core c).vxe = (s.core c).vxe := by
  unfold State.modMe State.putMe State.putSlot; grind [State.core_putCore, Core.putSlot_vxe]
@[simp] theorem Core.putSlot_cpe (co : Core) (k : Nat) (v : Slot) : (co.putSlot k v).cpe = co.cpe := rfl
@[simp] theorem State.core_modMe_cpe (s : State) (g : Slot → Slot) (c : Nat) : ((s.modMe g).core c).cpe = (s.core c).cpe := by
  unfold State.modMe State.putMe State.putSlot; grind [State.core_putCore, Core.putSlot_cpe]
@[simp] theorem Core.putSlot_sie (co : Core) (k : Nat) (v : Slot) : (co.putSlot k v).sie = co.sie := rfl
@[simp] theorem State.core_modMe_sie (s : State) (g : Slot → Slot) (c : Nat) : ((s.modMe g).core c).sie = (s.core c).sie := by
  unfold State.modMe State.putMe State.putSlot; grind [State.core_putCore, Core.putSlot_sie]
@[simp] theorem Core.putSlot_group (co : Core) (k : Nat) (v : Slot) : (co.putSlot k v).group = co.group := rfl
@[simp] theorem State.core_modMe_group (s : State) (g : Slot → Slot) (c : Nat) : ((s.modMe g).core c).group = (s.core c).group := by
  unfold State.modMe State.putMe State.putSlot; grind [State.core_putCore, Core.putSlot_group]
@[simp] theorem Core.putSlot_issued (co : Core) (k : Nat) (v : Slot) : (co.putSlot k v).issued = co.issued := rfl
@[simp] theorem State.core_modMe_issued (s : State) (g : Slot → Slot) (c : Nat) : ((s.modMe g).core c).issued = (s.core c).issued := by
  unfold State.modMe State.putMe State.putSlot; grind [State.core_putCore, Core.putSlot_issued]
@[simp] theorem Core.putSlot_cpNext (co : Core) (k : Nat) (v : Slot) : (co.putSlot k v).cpNext = co.cpNext := rfl
@[simp] theorem State.core_modMe_cpNext (s : State) (g : Slot → Slot) (c : Nat) : ((s.modMe g).core c).cpNext = (s.core c).cpNext := by
  unfold State.modMe State.putMe State.putSlot; grind [State.core_putCore, Core.putSlot_cpNext]
@[simp] theorem Core.putSlot_freezeUntil (co : Core) (k : Nat) (v : Slot) : (co.putSlot k v).freezeUntil = co.freezeUntil := rfl
@[simp] theorem State.core_modMe_freezeUntil (s : State) (g : Slot → Slot) (c : Nat) : ((s.modMe g).core c).freezeUntil = (s.core c).freezeUntil := by
  unfold State.modMe State.putMe State.putSlot; grind [State.core_putCore, Core.putSlot_freezeUntil]
@[simp] theorem Core.putSlot_frozen (co : Core) (k : Nat) (v : Slot) : (co.putSlot k v).frozen = co.frozen := rfl
@[simp] theorem State.core_modMe_frozen (s : State) (g : Slot → Slot) (c : Nat) : ((s.modMe g).core c).frozen = (s.core c).frozen := by
  unfold State.modMe State.putMe State.putSlot; grind [State.core_putCore, Core.putSlot_frozen]
@[simp] theorem Core.putSlot_eccLog (co : Core) (k : Nat) (v : Slot) : (co.putSlot k v).eccLog = co.eccLog := rfl
@[simp] theorem State.core_modMe_eccLog (s : State) (g : Slot → Slot) (c : Nat) : ((s.modMe g).core c).eccLog = (s.core c).eccLog := by
  unfold State.modMe State.putMe State.putSlot; grind [State.core_putCore, Core.putSlot_eccLog]
@[simp] theorem Core.putSlot_matrix (co : Core) (k : Nat) (v : Slot) : (co.putSlot k v).matrix = co.matrix := rfl
@[simp] theorem State.core_modMe_matrix (s : State) (g : Slot → Slot) (c : Nat) : ((s.modMe g).core c).matrix = (s.core c).matrix := by
  unfold State.modMe State.putMe State.putSlot; grind [State.core_putCore, Core.putSlot_matrix]
@[simp] theorem Core.putSlot_banks (co : Core) (k : Nat) (v : Slot) : (co.putSlot k v).banks = co.banks := rfl
@[simp] theorem State.core_modMe_banks (s : State) (g : Slot → Slot) (c : Nat) : ((s.modMe g).core c).banks = (s.core c).banks := by
  unfold State.modMe State.putMe State.putSlot; grind [State.core_putCore, Core.putSlot_banks]

@[simp] theorem State.part_modMe (s : State) (g : Slot → Slot) (p : Nat) : (s.modMe g).part p = s.part p := rfl
@[simp] theorem State.fn_modMe (s : State) (g : Slot → Slot) (f : Nat) : (s.modMe g).fn f = s.fn f := rfl
@[simp] theorem State.part_modCore (s : State) (c : Nat) (g : Core → Core) (p : Nat) : (s.modCore c g).part p = s.part p := rfl
@[simp] theorem State.fn_modCore (s : State) (c : Nat) (g : Core → Core) (f : Nat) : (s.modCore c g).fn f = s.fn f := rfl
@[simp] theorem State.core_modPart (s : State) (p : Nat) (g : Part → Part) (c : Nat) : (s.modPart p g).core c = s.core c := rfl
@[simp] theorem State.fn_modPart (s : State) (p : Nat) (g : Part → Part) (f : Nat) : (s.modPart p g).fn f = s.fn f := rfl
@[simp] theorem State.core_modFn (s : State) (f : Nat) (g : Func → Func) (c : Nat) : (s.modFn f g).core c = s.core c := rfl
@[simp] theorem State.part_modFn (s : State) (f : Nat) (g : Func → Func) (p : Nat) : (s.modFn f g).part p = s.part p := rfl

/-! ### The slot's other registers -/

@[simp] theorem Slot.setX_p (sl : Slot) (d : Reg) (v : Word) : (sl.setX d v).p = sl.p := by unfold Slot.setX; split <;> rfl
@[simp] theorem Slot.setX_v (sl : Slot) (d : Reg) (v : Word) : (sl.setX d v).v = sl.v := by unfold Slot.setX; split <;> rfl
@[simp] theorem Slot.setX_vpoison (sl : Slot) (d : Reg) (v : Word) : (sl.setX d v).vpoison = sl.vpoison := by unfold Slot.setX; split <;> rfl
@[simp] theorem Slot.setX_vshape (sl : Slot) (d : Reg) (v : Word) : (sl.setX d v).vshape = sl.vshape := by unfold Slot.setX; split <;> rfl
@[simp] theorem Slot.setX_m (sl : Slot) (d : Reg) (v : Word) : (sl.setX d v).m = sl.m := by unfold Slot.setX; split <;> rfl
@[simp] theorem Slot.setX_g (sl : Slot) (d : Reg) (v : Word) : (sl.setX d v).g = sl.g := by unfold Slot.setX; split <;> rfl
@[simp] theorem Slot.setX_acc (sl : Slot) (d : Reg) (v : Word) : (sl.setX d v).acc = sl.acc := by unfold Slot.setX; split <;> rfl
@[simp] theorem Slot.setX_nest (sl : Slot) (d : Reg) (v : Word) : (sl.setX d v).nest = sl.nest := by unfold Slot.setX; split <;> rfl
@[simp] theorem Slot.setX_sems (sl : Slot) (d : Reg) (v : Word) : (sl.setX d v).sems = sl.sems := by unfold Slot.setX; split <;> rfl
@[simp] theorem Slot.setX_gd (sl : Slot) (d : Reg) (v : Word) : (sl.setX d v).gd = sl.gd := by unfold Slot.setX; split <;> rfl
@[simp] theorem Slot.setX_cb (sl : Slot) (d : Reg) (v : Word) : (sl.setX d v).cb = sl.cb := by unfold Slot.setX; split <;> rfl
@[simp] theorem Slot.setX_ch (sl : Slot) (d : Reg) (v : Word) : (sl.setX d v).ch = sl.ch := by unfold Slot.setX; split <;> rfl
@[simp] theorem Slot.setX_mq (sl : Slot) (d : Reg) (v : Word) : (sl.setX d v).mq = sl.mq := by unfold Slot.setX; split <;> rfl
@[simp] theorem Slot.setX_oq (sl : Slot) (d : Reg) (v : Word) : (sl.setX d v).oq = sl.oq := by unfold Slot.setX; split <;> rfl
@[simp] theorem Slot.setX_oqPoison (sl : Slot) (d : Reg) (v : Word) : (sl.setX d v).oqPoison = sl.oqPoison := by unfold Slot.setX; split <;> rfl
@[simp] theorem Slot.setX_q (sl : Slot) (d : Reg) (v : Word) : (sl.setX d v).q = sl.q := by unfold Slot.setX; split <;> rfl
@[simp] theorem Slot.setX_inbox (sl : Slot) (d : Reg) (v : Word) : (sl.setX d v).inbox = sl.inbox := by unfold Slot.setX; split <;> rfl
@[simp] theorem Slot.setX_mring (sl : Slot) (d : Reg) (v : Word) : (sl.setX d v).mring = sl.mring := by unfold Slot.setX; split <;> rfl
@[simp] theorem Slot.setX_xring (sl : Slot) (d : Reg) (v : Word) : (sl.setX d v).xring = sl.xring := by unfold Slot.setX; split <;> rfl
@[simp] theorem Slot.setX_sring (sl : Slot) (d : Reg) (v : Word) : (sl.setX d v).sring = sl.sring := by unfold Slot.setX; split <;> rfl
@[simp] theorem Slot.setX_kring (sl : Slot) (d : Reg) (v : Word) : (sl.setX d v).kring = sl.kring := by unfold Slot.setX; split <;> rfl
@[simp] theorem Slot.setX_flags (sl : Slot) (d : Reg) (v : Word) : (sl.setX d v).flags = sl.flags := by unfold Slot.setX; split <;> rfl
@[simp] theorem Slot.setX_fen (sl : Slot) (d : Reg) (v : Word) : (sl.setX d v).fen = sl.fen := by unfold Slot.setX; split <;> rfl
@[simp] theorem Slot.setX_cause (sl : Slot) (d : Reg) (v : Word) : (sl.setX d v).cause = sl.cause := by unfold Slot.setX; split <;> rfl
@[simp] theorem Slot.setX_epc (sl : Slot) (d : Reg) (v : Word) : (sl.setX d v).epc = sl.epc := by unfold Slot.setX; split <;> rfl
@[simp] theorem Slot.setX_eva (sl : Slot) (d : Reg) (v : Word) : (sl.setX d v).eva = sl.eva := by unfold Slot.setX; split <;> rfl
@[simp] theorem Slot.setX_tvec (sl : Slot) (d : Reg) (v : Word) : (sl.setX d v).tvec = sl.tvec := by unfold Slot.setX; split <;> rfl
@[simp] theorem Slot.setX_scr (sl : Slot) (d : Reg) (v : Word) : (sl.setX d v).scr = sl.scr := by unfold Slot.setX; split <;> rfl
@[simp] theorem Slot.setX_sysId (sl : Slot) (d : Reg) (v : Word) : (sl.setX d v).sysId = sl.sysId := by unfold Slot.setX; split <;> rfl
@[simp] theorem Slot.setX_priv (sl : Slot) (d : Reg) (v : Word) : (sl.setX d v).priv = sl.priv := by unfold Slot.setX; split <;> rfl
@[simp] theorem Slot.setX_cs (sl : Slot) (d : Reg) (v : Word) : (sl.setX d v).cs = sl.cs := by unfold Slot.setX; split <;> rfl
@[simp] theorem Slot.setX_vs (sl : Slot) (d : Reg) (v : Word) : (sl.setX d v).vs = sl.vs := by unfold Slot.setX; split <;> rfl
@[simp] theorem Slot.setX_hm (sl : Slot) (d : Reg) (v : Word) : (sl.setX d v).hm = sl.hm := by unfold Slot.setX; split <;> rfl
@[simp] theorem Slot.setX_cra (sl : Slot) (d : Reg) (v : Word) : (sl.setX d v).cra = sl.cra := by unfold Slot.setX; split <;> rfl
@[simp] theorem Slot.setX_wbar (sl : Slot) (d : Reg) (v : Word) : (sl.setX d v).wbar = sl.wbar := by unfold Slot.setX; split <;> rfl
@[simp] theorem Slot.setX_susp (sl : Slot) (d : Reg) (v : Word) : (sl.setX d v).susp = sl.susp := by unfold Slot.setX; split <;> rfl
@[simp] theorem Slot.setX_barWait (sl : Slot) (d : Reg) (v : Word) : (sl.setX d v).barWait = sl.barWait := by unfold Slot.setX; split <;> rfl
@[simp] theorem Slot.setX_mon (sl : Slot) (d : Reg) (v : Word) : (sl.setX d v).mon = sl.mon := by unfold Slot.setX; split <;> rfl
@[simp] theorem Slot.setX_taste (sl : Slot) (d : Reg) (v : Word) : (sl.setX d v).taste = sl.taste := by unfold Slot.setX; split <;> rfl
@[simp] theorem Slot.setX_kernel (sl : Slot) (d : Reg) (v : Word) : (sl.setX d v).kernel = sl.kernel := by unfold Slot.setX; split <;> rfl
@[simp] theorem Slot.setX_kernelPtr (sl : Slot) (d : Reg) (v : Word) : (sl.setX d v).kernelPtr = sl.kernelPtr := by unfold Slot.setX; split <;> rfl
@[simp] theorem Slot.setX_kernelNo (sl : Slot) (d : Reg) (v : Word) : (sl.setX d v).kernelNo = sl.kernelNo := by unfold Slot.setX; split <;> rfl
@[simp] theorem Slot.setX_pushNo (sl : Slot) (d : Reg) (v : Word) : (sl.setX d v).pushNo = sl.pushNo := by unfold Slot.setX; split <;> rfl
@[simp] theorem Slot.setX_vreads (sl : Slot) (d : Reg) (v : Word) : (sl.setX d v).vreads = sl.vreads := by unfold Slot.setX; split <;> rfl
@[simp] theorem Slot.setX_hold (sl : Slot) (d : Reg) (v : Word) : (sl.setX d v).hold = sl.hold := by unfold Slot.setX; split <;> rfl
@[simp] theorem Slot.setX_comp (sl : Slot) (d : Reg) (v : Word) : (sl.setX d v).comp = sl.comp := by unfold Slot.setX; split <;> rfl
@[simp] theorem Slot.setX_estop (sl : Slot) (d : Reg) (v : Word) : (sl.setX d v).estop = sl.estop := by unfold Slot.setX; split <;> rfl
@[simp] theorem Slot.setX_estopped (sl : Slot) (d : Reg) (v : Word) : (sl.setX d v).estopped = sl.estopped := by unfold Slot.setX; split <;> rfl
@[simp] theorem Slot.setX_dbg (sl : Slot) (d : Reg) (v : Word) : (sl.setX d v).dbg = sl.dbg := by unfold Slot.setX; split <;> rfl
@[simp] theorem Slot.setX_task (sl : Slot) (d : Reg) (v : Word) : (sl.setX d v).task = sl.task := by unfold Slot.setX; split <;> rfl
@[simp] theorem Slot.setX_heldRaises (sl : Slot) (d : Reg) (v : Word) : (sl.setX d v).heldRaises = sl.heldRaises := by unfold Slot.setX; split <;> rfl
@[simp] theorem Slot.setX_heldRefire (sl : Slot) (d : Reg) (v : Word) : (sl.setX d v).heldRefire = sl.heldRefire := by unfold Slot.setX; split <;> rfl
@[simp] theorem Slot.setX_out (sl : Slot) (d : Reg) (v : Word) : (sl.setX d v).out = sl.out := by unfold Slot.setX; split <;> rfl
@[simp] theorem Slot.setP_x (sl : Slot) (d : PReg) (b : Bool) : (sl.setP d b).x = sl.x := by unfold Slot.setP; split <;> rfl
@[simp] theorem Slot.setP_v (sl : Slot) (d : PReg) (b : Bool) : (sl.setP d b).v = sl.v := by unfold Slot.setP; split <;> rfl
@[simp] theorem Slot.setP_vpoison (sl : Slot) (d : PReg) (b : Bool) : (sl.setP d b).vpoison = sl.vpoison := by unfold Slot.setP; split <;> rfl
@[simp] theorem Slot.setP_vshape (sl : Slot) (d : PReg) (b : Bool) : (sl.setP d b).vshape = sl.vshape := by unfold Slot.setP; split <;> rfl
@[simp] theorem Slot.setP_m (sl : Slot) (d : PReg) (b : Bool) : (sl.setP d b).m = sl.m := by unfold Slot.setP; split <;> rfl
@[simp] theorem Slot.setP_g (sl : Slot) (d : PReg) (b : Bool) : (sl.setP d b).g = sl.g := by unfold Slot.setP; split <;> rfl
@[simp] theorem Slot.setP_acc (sl : Slot) (d : PReg) (b : Bool) : (sl.setP d b).acc = sl.acc := by unfold Slot.setP; split <;> rfl
@[simp] theorem Slot.setP_nest (sl : Slot) (d : PReg) (b : Bool) : (sl.setP d b).nest = sl.nest := by unfold Slot.setP; split <;> rfl
@[simp] theorem Slot.setP_sems (sl : Slot) (d : PReg) (b : Bool) : (sl.setP d b).sems = sl.sems := by unfold Slot.setP; split <;> rfl
@[simp] theorem Slot.setP_gd (sl : Slot) (d : PReg) (b : Bool) : (sl.setP d b).gd = sl.gd := by unfold Slot.setP; split <;> rfl
@[simp] theorem Slot.setP_cb (sl : Slot) (d : PReg) (b : Bool) : (sl.setP d b).cb = sl.cb := by unfold Slot.setP; split <;> rfl
@[simp] theorem Slot.setP_ch (sl : Slot) (d : PReg) (b : Bool) : (sl.setP d b).ch = sl.ch := by unfold Slot.setP; split <;> rfl
@[simp] theorem Slot.setP_mq (sl : Slot) (d : PReg) (b : Bool) : (sl.setP d b).mq = sl.mq := by unfold Slot.setP; split <;> rfl
@[simp] theorem Slot.setP_oq (sl : Slot) (d : PReg) (b : Bool) : (sl.setP d b).oq = sl.oq := by unfold Slot.setP; split <;> rfl
@[simp] theorem Slot.setP_oqPoison (sl : Slot) (d : PReg) (b : Bool) : (sl.setP d b).oqPoison = sl.oqPoison := by unfold Slot.setP; split <;> rfl
@[simp] theorem Slot.setP_q (sl : Slot) (d : PReg) (b : Bool) : (sl.setP d b).q = sl.q := by unfold Slot.setP; split <;> rfl
@[simp] theorem Slot.setP_inbox (sl : Slot) (d : PReg) (b : Bool) : (sl.setP d b).inbox = sl.inbox := by unfold Slot.setP; split <;> rfl
@[simp] theorem Slot.setP_mring (sl : Slot) (d : PReg) (b : Bool) : (sl.setP d b).mring = sl.mring := by unfold Slot.setP; split <;> rfl
@[simp] theorem Slot.setP_xring (sl : Slot) (d : PReg) (b : Bool) : (sl.setP d b).xring = sl.xring := by unfold Slot.setP; split <;> rfl
@[simp] theorem Slot.setP_sring (sl : Slot) (d : PReg) (b : Bool) : (sl.setP d b).sring = sl.sring := by unfold Slot.setP; split <;> rfl
@[simp] theorem Slot.setP_kring (sl : Slot) (d : PReg) (b : Bool) : (sl.setP d b).kring = sl.kring := by unfold Slot.setP; split <;> rfl
@[simp] theorem Slot.setP_flags (sl : Slot) (d : PReg) (b : Bool) : (sl.setP d b).flags = sl.flags := by unfold Slot.setP; split <;> rfl
@[simp] theorem Slot.setP_fen (sl : Slot) (d : PReg) (b : Bool) : (sl.setP d b).fen = sl.fen := by unfold Slot.setP; split <;> rfl
@[simp] theorem Slot.setP_cause (sl : Slot) (d : PReg) (b : Bool) : (sl.setP d b).cause = sl.cause := by unfold Slot.setP; split <;> rfl
@[simp] theorem Slot.setP_epc (sl : Slot) (d : PReg) (b : Bool) : (sl.setP d b).epc = sl.epc := by unfold Slot.setP; split <;> rfl
@[simp] theorem Slot.setP_eva (sl : Slot) (d : PReg) (b : Bool) : (sl.setP d b).eva = sl.eva := by unfold Slot.setP; split <;> rfl
@[simp] theorem Slot.setP_tvec (sl : Slot) (d : PReg) (b : Bool) : (sl.setP d b).tvec = sl.tvec := by unfold Slot.setP; split <;> rfl
@[simp] theorem Slot.setP_scr (sl : Slot) (d : PReg) (b : Bool) : (sl.setP d b).scr = sl.scr := by unfold Slot.setP; split <;> rfl
@[simp] theorem Slot.setP_sysId (sl : Slot) (d : PReg) (b : Bool) : (sl.setP d b).sysId = sl.sysId := by unfold Slot.setP; split <;> rfl
@[simp] theorem Slot.setP_priv (sl : Slot) (d : PReg) (b : Bool) : (sl.setP d b).priv = sl.priv := by unfold Slot.setP; split <;> rfl
@[simp] theorem Slot.setP_cs (sl : Slot) (d : PReg) (b : Bool) : (sl.setP d b).cs = sl.cs := by unfold Slot.setP; split <;> rfl
@[simp] theorem Slot.setP_vs (sl : Slot) (d : PReg) (b : Bool) : (sl.setP d b).vs = sl.vs := by unfold Slot.setP; split <;> rfl
@[simp] theorem Slot.setP_hm (sl : Slot) (d : PReg) (b : Bool) : (sl.setP d b).hm = sl.hm := by unfold Slot.setP; split <;> rfl
@[simp] theorem Slot.setP_cra (sl : Slot) (d : PReg) (b : Bool) : (sl.setP d b).cra = sl.cra := by unfold Slot.setP; split <;> rfl
@[simp] theorem Slot.setP_wbar (sl : Slot) (d : PReg) (b : Bool) : (sl.setP d b).wbar = sl.wbar := by unfold Slot.setP; split <;> rfl
@[simp] theorem Slot.setP_susp (sl : Slot) (d : PReg) (b : Bool) : (sl.setP d b).susp = sl.susp := by unfold Slot.setP; split <;> rfl
@[simp] theorem Slot.setP_barWait (sl : Slot) (d : PReg) (b : Bool) : (sl.setP d b).barWait = sl.barWait := by unfold Slot.setP; split <;> rfl
@[simp] theorem Slot.setP_mon (sl : Slot) (d : PReg) (b : Bool) : (sl.setP d b).mon = sl.mon := by unfold Slot.setP; split <;> rfl
@[simp] theorem Slot.setP_taste (sl : Slot) (d : PReg) (b : Bool) : (sl.setP d b).taste = sl.taste := by unfold Slot.setP; split <;> rfl
@[simp] theorem Slot.setP_kernel (sl : Slot) (d : PReg) (b : Bool) : (sl.setP d b).kernel = sl.kernel := by unfold Slot.setP; split <;> rfl
@[simp] theorem Slot.setP_kernelPtr (sl : Slot) (d : PReg) (b : Bool) : (sl.setP d b).kernelPtr = sl.kernelPtr := by unfold Slot.setP; split <;> rfl
@[simp] theorem Slot.setP_kernelNo (sl : Slot) (d : PReg) (b : Bool) : (sl.setP d b).kernelNo = sl.kernelNo := by unfold Slot.setP; split <;> rfl
@[simp] theorem Slot.setP_pushNo (sl : Slot) (d : PReg) (b : Bool) : (sl.setP d b).pushNo = sl.pushNo := by unfold Slot.setP; split <;> rfl
@[simp] theorem Slot.setP_vreads (sl : Slot) (d : PReg) (b : Bool) : (sl.setP d b).vreads = sl.vreads := by unfold Slot.setP; split <;> rfl
@[simp] theorem Slot.setP_hold (sl : Slot) (d : PReg) (b : Bool) : (sl.setP d b).hold = sl.hold := by unfold Slot.setP; split <;> rfl
@[simp] theorem Slot.setP_comp (sl : Slot) (d : PReg) (b : Bool) : (sl.setP d b).comp = sl.comp := by unfold Slot.setP; split <;> rfl
@[simp] theorem Slot.setP_estop (sl : Slot) (d : PReg) (b : Bool) : (sl.setP d b).estop = sl.estop := by unfold Slot.setP; split <;> rfl
@[simp] theorem Slot.setP_estopped (sl : Slot) (d : PReg) (b : Bool) : (sl.setP d b).estopped = sl.estopped := by unfold Slot.setP; split <;> rfl
@[simp] theorem Slot.setP_dbg (sl : Slot) (d : PReg) (b : Bool) : (sl.setP d b).dbg = sl.dbg := by unfold Slot.setP; split <;> rfl
@[simp] theorem Slot.setP_task (sl : Slot) (d : PReg) (b : Bool) : (sl.setP d b).task = sl.task := by unfold Slot.setP; split <;> rfl
@[simp] theorem Slot.setP_heldRaises (sl : Slot) (d : PReg) (b : Bool) : (sl.setP d b).heldRaises = sl.heldRaises := by unfold Slot.setP; split <;> rfl
@[simp] theorem Slot.setP_heldRefire (sl : Slot) (d : PReg) (b : Bool) : (sl.setP d b).heldRefire = sl.heldRefire := by unfold Slot.setP; split <;> rfl
@[simp] theorem Slot.setP_out (sl : Slot) (d : PReg) (b : Bool) : (sl.setP d b).out = sl.out := by unfold Slot.setP; split <;> rfl
@[simp] theorem Slot.setM_x (sl : Slot) (i : Nat) (v : MWord) : (sl.setM i v).x = sl.x := by unfold Slot.setM; split <;> rfl
@[simp] theorem Slot.setM_p (sl : Slot) (i : Nat) (v : MWord) : (sl.setM i v).p = sl.p := by unfold Slot.setM; split <;> rfl
@[simp] theorem Slot.setM_v (sl : Slot) (i : Nat) (v : MWord) : (sl.setM i v).v = sl.v := by unfold Slot.setM; split <;> rfl
@[simp] theorem Slot.setM_vpoison (sl : Slot) (i : Nat) (v : MWord) : (sl.setM i v).vpoison = sl.vpoison := by unfold Slot.setM; split <;> rfl
@[simp] theorem Slot.setM_vshape (sl : Slot) (i : Nat) (v : MWord) : (sl.setM i v).vshape = sl.vshape := by unfold Slot.setM; split <;> rfl
@[simp] theorem Slot.setM_g (sl : Slot) (i : Nat) (v : MWord) : (sl.setM i v).g = sl.g := by unfold Slot.setM; split <;> rfl
@[simp] theorem Slot.setM_acc (sl : Slot) (i : Nat) (v : MWord) : (sl.setM i v).acc = sl.acc := by unfold Slot.setM; split <;> rfl
@[simp] theorem Slot.setM_nest (sl : Slot) (i : Nat) (v : MWord) : (sl.setM i v).nest = sl.nest := by unfold Slot.setM; split <;> rfl
@[simp] theorem Slot.setM_sems (sl : Slot) (i : Nat) (v : MWord) : (sl.setM i v).sems = sl.sems := by unfold Slot.setM; split <;> rfl
@[simp] theorem Slot.setM_gd (sl : Slot) (i : Nat) (v : MWord) : (sl.setM i v).gd = sl.gd := by unfold Slot.setM; split <;> rfl
@[simp] theorem Slot.setM_cb (sl : Slot) (i : Nat) (v : MWord) : (sl.setM i v).cb = sl.cb := by unfold Slot.setM; split <;> rfl
@[simp] theorem Slot.setM_ch (sl : Slot) (i : Nat) (v : MWord) : (sl.setM i v).ch = sl.ch := by unfold Slot.setM; split <;> rfl
@[simp] theorem Slot.setM_mq (sl : Slot) (i : Nat) (v : MWord) : (sl.setM i v).mq = sl.mq := by unfold Slot.setM; split <;> rfl
@[simp] theorem Slot.setM_oq (sl : Slot) (i : Nat) (v : MWord) : (sl.setM i v).oq = sl.oq := by unfold Slot.setM; split <;> rfl
@[simp] theorem Slot.setM_oqPoison (sl : Slot) (i : Nat) (v : MWord) : (sl.setM i v).oqPoison = sl.oqPoison := by unfold Slot.setM; split <;> rfl
@[simp] theorem Slot.setM_q (sl : Slot) (i : Nat) (v : MWord) : (sl.setM i v).q = sl.q := by unfold Slot.setM; split <;> rfl
@[simp] theorem Slot.setM_inbox (sl : Slot) (i : Nat) (v : MWord) : (sl.setM i v).inbox = sl.inbox := by unfold Slot.setM; split <;> rfl
@[simp] theorem Slot.setM_mring (sl : Slot) (i : Nat) (v : MWord) : (sl.setM i v).mring = sl.mring := by unfold Slot.setM; split <;> rfl
@[simp] theorem Slot.setM_xring (sl : Slot) (i : Nat) (v : MWord) : (sl.setM i v).xring = sl.xring := by unfold Slot.setM; split <;> rfl
@[simp] theorem Slot.setM_sring (sl : Slot) (i : Nat) (v : MWord) : (sl.setM i v).sring = sl.sring := by unfold Slot.setM; split <;> rfl
@[simp] theorem Slot.setM_kring (sl : Slot) (i : Nat) (v : MWord) : (sl.setM i v).kring = sl.kring := by unfold Slot.setM; split <;> rfl
@[simp] theorem Slot.setM_flags (sl : Slot) (i : Nat) (v : MWord) : (sl.setM i v).flags = sl.flags := by unfold Slot.setM; split <;> rfl
@[simp] theorem Slot.setM_fen (sl : Slot) (i : Nat) (v : MWord) : (sl.setM i v).fen = sl.fen := by unfold Slot.setM; split <;> rfl
@[simp] theorem Slot.setM_cause (sl : Slot) (i : Nat) (v : MWord) : (sl.setM i v).cause = sl.cause := by unfold Slot.setM; split <;> rfl
@[simp] theorem Slot.setM_epc (sl : Slot) (i : Nat) (v : MWord) : (sl.setM i v).epc = sl.epc := by unfold Slot.setM; split <;> rfl
@[simp] theorem Slot.setM_eva (sl : Slot) (i : Nat) (v : MWord) : (sl.setM i v).eva = sl.eva := by unfold Slot.setM; split <;> rfl
@[simp] theorem Slot.setM_tvec (sl : Slot) (i : Nat) (v : MWord) : (sl.setM i v).tvec = sl.tvec := by unfold Slot.setM; split <;> rfl
@[simp] theorem Slot.setM_scr (sl : Slot) (i : Nat) (v : MWord) : (sl.setM i v).scr = sl.scr := by unfold Slot.setM; split <;> rfl
@[simp] theorem Slot.setM_sysId (sl : Slot) (i : Nat) (v : MWord) : (sl.setM i v).sysId = sl.sysId := by unfold Slot.setM; split <;> rfl
@[simp] theorem Slot.setM_priv (sl : Slot) (i : Nat) (v : MWord) : (sl.setM i v).priv = sl.priv := by unfold Slot.setM; split <;> rfl
@[simp] theorem Slot.setM_cs (sl : Slot) (i : Nat) (v : MWord) : (sl.setM i v).cs = sl.cs := by unfold Slot.setM; split <;> rfl
@[simp] theorem Slot.setM_vs (sl : Slot) (i : Nat) (v : MWord) : (sl.setM i v).vs = sl.vs := by unfold Slot.setM; split <;> rfl
@[simp] theorem Slot.setM_hm (sl : Slot) (i : Nat) (v : MWord) : (sl.setM i v).hm = sl.hm := by unfold Slot.setM; split <;> rfl
@[simp] theorem Slot.setM_cra (sl : Slot) (i : Nat) (v : MWord) : (sl.setM i v).cra = sl.cra := by unfold Slot.setM; split <;> rfl
@[simp] theorem Slot.setM_wbar (sl : Slot) (i : Nat) (v : MWord) : (sl.setM i v).wbar = sl.wbar := by unfold Slot.setM; split <;> rfl
@[simp] theorem Slot.setM_susp (sl : Slot) (i : Nat) (v : MWord) : (sl.setM i v).susp = sl.susp := by unfold Slot.setM; split <;> rfl
@[simp] theorem Slot.setM_barWait (sl : Slot) (i : Nat) (v : MWord) : (sl.setM i v).barWait = sl.barWait := by unfold Slot.setM; split <;> rfl
@[simp] theorem Slot.setM_mon (sl : Slot) (i : Nat) (v : MWord) : (sl.setM i v).mon = sl.mon := by unfold Slot.setM; split <;> rfl
@[simp] theorem Slot.setM_taste (sl : Slot) (i : Nat) (v : MWord) : (sl.setM i v).taste = sl.taste := by unfold Slot.setM; split <;> rfl
@[simp] theorem Slot.setM_kernel (sl : Slot) (i : Nat) (v : MWord) : (sl.setM i v).kernel = sl.kernel := by unfold Slot.setM; split <;> rfl
@[simp] theorem Slot.setM_kernelPtr (sl : Slot) (i : Nat) (v : MWord) : (sl.setM i v).kernelPtr = sl.kernelPtr := by unfold Slot.setM; split <;> rfl
@[simp] theorem Slot.setM_kernelNo (sl : Slot) (i : Nat) (v : MWord) : (sl.setM i v).kernelNo = sl.kernelNo := by unfold Slot.setM; split <;> rfl
@[simp] theorem Slot.setM_pushNo (sl : Slot) (i : Nat) (v : MWord) : (sl.setM i v).pushNo = sl.pushNo := by unfold Slot.setM; split <;> rfl
@[simp] theorem Slot.setM_vreads (sl : Slot) (i : Nat) (v : MWord) : (sl.setM i v).vreads = sl.vreads := by unfold Slot.setM; split <;> rfl
@[simp] theorem Slot.setM_hold (sl : Slot) (i : Nat) (v : MWord) : (sl.setM i v).hold = sl.hold := by unfold Slot.setM; split <;> rfl
@[simp] theorem Slot.setM_comp (sl : Slot) (i : Nat) (v : MWord) : (sl.setM i v).comp = sl.comp := by unfold Slot.setM; split <;> rfl
@[simp] theorem Slot.setM_estop (sl : Slot) (i : Nat) (v : MWord) : (sl.setM i v).estop = sl.estop := by unfold Slot.setM; split <;> rfl
@[simp] theorem Slot.setM_estopped (sl : Slot) (i : Nat) (v : MWord) : (sl.setM i v).estopped = sl.estopped := by unfold Slot.setM; split <;> rfl
@[simp] theorem Slot.setM_dbg (sl : Slot) (i : Nat) (v : MWord) : (sl.setM i v).dbg = sl.dbg := by unfold Slot.setM; split <;> rfl
@[simp] theorem Slot.setM_task (sl : Slot) (i : Nat) (v : MWord) : (sl.setM i v).task = sl.task := by unfold Slot.setM; split <;> rfl
@[simp] theorem Slot.setM_heldRaises (sl : Slot) (i : Nat) (v : MWord) : (sl.setM i v).heldRaises = sl.heldRaises := by unfold Slot.setM; split <;> rfl
@[simp] theorem Slot.setM_heldRefire (sl : Slot) (i : Nat) (v : MWord) : (sl.setM i v).heldRefire = sl.heldRefire := by unfold Slot.setM; split <;> rfl
@[simp] theorem Slot.setM_out (sl : Slot) (i : Nat) (v : MWord) : (sl.setM i v).out = sl.out := by unfold Slot.setM; split <;> rfl
@[simp] theorem Slot.setSem_x (sl : Slot) (i : Nat) (v : Sem) : (sl.setSem i v).x = sl.x := by unfold Slot.setSem; split <;> rfl
@[simp] theorem Slot.setSem_p (sl : Slot) (i : Nat) (v : Sem) : (sl.setSem i v).p = sl.p := by unfold Slot.setSem; split <;> rfl
@[simp] theorem Slot.setSem_v (sl : Slot) (i : Nat) (v : Sem) : (sl.setSem i v).v = sl.v := by unfold Slot.setSem; split <;> rfl
@[simp] theorem Slot.setSem_vpoison (sl : Slot) (i : Nat) (v : Sem) : (sl.setSem i v).vpoison = sl.vpoison := by unfold Slot.setSem; split <;> rfl
@[simp] theorem Slot.setSem_vshape (sl : Slot) (i : Nat) (v : Sem) : (sl.setSem i v).vshape = sl.vshape := by unfold Slot.setSem; split <;> rfl
@[simp] theorem Slot.setSem_m (sl : Slot) (i : Nat) (v : Sem) : (sl.setSem i v).m = sl.m := by unfold Slot.setSem; split <;> rfl
@[simp] theorem Slot.setSem_g (sl : Slot) (i : Nat) (v : Sem) : (sl.setSem i v).g = sl.g := by unfold Slot.setSem; split <;> rfl
@[simp] theorem Slot.setSem_acc (sl : Slot) (i : Nat) (v : Sem) : (sl.setSem i v).acc = sl.acc := by unfold Slot.setSem; split <;> rfl
@[simp] theorem Slot.setSem_nest (sl : Slot) (i : Nat) (v : Sem) : (sl.setSem i v).nest = sl.nest := by unfold Slot.setSem; split <;> rfl
@[simp] theorem Slot.setSem_gd (sl : Slot) (i : Nat) (v : Sem) : (sl.setSem i v).gd = sl.gd := by unfold Slot.setSem; split <;> rfl
@[simp] theorem Slot.setSem_cb (sl : Slot) (i : Nat) (v : Sem) : (sl.setSem i v).cb = sl.cb := by unfold Slot.setSem; split <;> rfl
@[simp] theorem Slot.setSem_ch (sl : Slot) (i : Nat) (v : Sem) : (sl.setSem i v).ch = sl.ch := by unfold Slot.setSem; split <;> rfl
@[simp] theorem Slot.setSem_mq (sl : Slot) (i : Nat) (v : Sem) : (sl.setSem i v).mq = sl.mq := by unfold Slot.setSem; split <;> rfl
@[simp] theorem Slot.setSem_oq (sl : Slot) (i : Nat) (v : Sem) : (sl.setSem i v).oq = sl.oq := by unfold Slot.setSem; split <;> rfl
@[simp] theorem Slot.setSem_oqPoison (sl : Slot) (i : Nat) (v : Sem) : (sl.setSem i v).oqPoison = sl.oqPoison := by unfold Slot.setSem; split <;> rfl
@[simp] theorem Slot.setSem_q (sl : Slot) (i : Nat) (v : Sem) : (sl.setSem i v).q = sl.q := by unfold Slot.setSem; split <;> rfl
@[simp] theorem Slot.setSem_inbox (sl : Slot) (i : Nat) (v : Sem) : (sl.setSem i v).inbox = sl.inbox := by unfold Slot.setSem; split <;> rfl
@[simp] theorem Slot.setSem_mring (sl : Slot) (i : Nat) (v : Sem) : (sl.setSem i v).mring = sl.mring := by unfold Slot.setSem; split <;> rfl
@[simp] theorem Slot.setSem_xring (sl : Slot) (i : Nat) (v : Sem) : (sl.setSem i v).xring = sl.xring := by unfold Slot.setSem; split <;> rfl
@[simp] theorem Slot.setSem_sring (sl : Slot) (i : Nat) (v : Sem) : (sl.setSem i v).sring = sl.sring := by unfold Slot.setSem; split <;> rfl
@[simp] theorem Slot.setSem_kring (sl : Slot) (i : Nat) (v : Sem) : (sl.setSem i v).kring = sl.kring := by unfold Slot.setSem; split <;> rfl
@[simp] theorem Slot.setSem_flags (sl : Slot) (i : Nat) (v : Sem) : (sl.setSem i v).flags = sl.flags := by unfold Slot.setSem; split <;> rfl
@[simp] theorem Slot.setSem_fen (sl : Slot) (i : Nat) (v : Sem) : (sl.setSem i v).fen = sl.fen := by unfold Slot.setSem; split <;> rfl
@[simp] theorem Slot.setSem_cause (sl : Slot) (i : Nat) (v : Sem) : (sl.setSem i v).cause = sl.cause := by unfold Slot.setSem; split <;> rfl
@[simp] theorem Slot.setSem_epc (sl : Slot) (i : Nat) (v : Sem) : (sl.setSem i v).epc = sl.epc := by unfold Slot.setSem; split <;> rfl
@[simp] theorem Slot.setSem_eva (sl : Slot) (i : Nat) (v : Sem) : (sl.setSem i v).eva = sl.eva := by unfold Slot.setSem; split <;> rfl
@[simp] theorem Slot.setSem_tvec (sl : Slot) (i : Nat) (v : Sem) : (sl.setSem i v).tvec = sl.tvec := by unfold Slot.setSem; split <;> rfl
@[simp] theorem Slot.setSem_scr (sl : Slot) (i : Nat) (v : Sem) : (sl.setSem i v).scr = sl.scr := by unfold Slot.setSem; split <;> rfl
@[simp] theorem Slot.setSem_sysId (sl : Slot) (i : Nat) (v : Sem) : (sl.setSem i v).sysId = sl.sysId := by unfold Slot.setSem; split <;> rfl
@[simp] theorem Slot.setSem_priv (sl : Slot) (i : Nat) (v : Sem) : (sl.setSem i v).priv = sl.priv := by unfold Slot.setSem; split <;> rfl
@[simp] theorem Slot.setSem_cs (sl : Slot) (i : Nat) (v : Sem) : (sl.setSem i v).cs = sl.cs := by unfold Slot.setSem; split <;> rfl
@[simp] theorem Slot.setSem_vs (sl : Slot) (i : Nat) (v : Sem) : (sl.setSem i v).vs = sl.vs := by unfold Slot.setSem; split <;> rfl
@[simp] theorem Slot.setSem_hm (sl : Slot) (i : Nat) (v : Sem) : (sl.setSem i v).hm = sl.hm := by unfold Slot.setSem; split <;> rfl
@[simp] theorem Slot.setSem_cra (sl : Slot) (i : Nat) (v : Sem) : (sl.setSem i v).cra = sl.cra := by unfold Slot.setSem; split <;> rfl
@[simp] theorem Slot.setSem_wbar (sl : Slot) (i : Nat) (v : Sem) : (sl.setSem i v).wbar = sl.wbar := by unfold Slot.setSem; split <;> rfl
@[simp] theorem Slot.setSem_susp (sl : Slot) (i : Nat) (v : Sem) : (sl.setSem i v).susp = sl.susp := by unfold Slot.setSem; split <;> rfl
@[simp] theorem Slot.setSem_barWait (sl : Slot) (i : Nat) (v : Sem) : (sl.setSem i v).barWait = sl.barWait := by unfold Slot.setSem; split <;> rfl
@[simp] theorem Slot.setSem_mon (sl : Slot) (i : Nat) (v : Sem) : (sl.setSem i v).mon = sl.mon := by unfold Slot.setSem; split <;> rfl
@[simp] theorem Slot.setSem_taste (sl : Slot) (i : Nat) (v : Sem) : (sl.setSem i v).taste = sl.taste := by unfold Slot.setSem; split <;> rfl
@[simp] theorem Slot.setSem_kernel (sl : Slot) (i : Nat) (v : Sem) : (sl.setSem i v).kernel = sl.kernel := by unfold Slot.setSem; split <;> rfl
@[simp] theorem Slot.setSem_kernelPtr (sl : Slot) (i : Nat) (v : Sem) : (sl.setSem i v).kernelPtr = sl.kernelPtr := by unfold Slot.setSem; split <;> rfl
@[simp] theorem Slot.setSem_kernelNo (sl : Slot) (i : Nat) (v : Sem) : (sl.setSem i v).kernelNo = sl.kernelNo := by unfold Slot.setSem; split <;> rfl
@[simp] theorem Slot.setSem_pushNo (sl : Slot) (i : Nat) (v : Sem) : (sl.setSem i v).pushNo = sl.pushNo := by unfold Slot.setSem; split <;> rfl
@[simp] theorem Slot.setSem_vreads (sl : Slot) (i : Nat) (v : Sem) : (sl.setSem i v).vreads = sl.vreads := by unfold Slot.setSem; split <;> rfl
@[simp] theorem Slot.setSem_hold (sl : Slot) (i : Nat) (v : Sem) : (sl.setSem i v).hold = sl.hold := by unfold Slot.setSem; split <;> rfl
@[simp] theorem Slot.setSem_comp (sl : Slot) (i : Nat) (v : Sem) : (sl.setSem i v).comp = sl.comp := by unfold Slot.setSem; split <;> rfl
@[simp] theorem Slot.setSem_estop (sl : Slot) (i : Nat) (v : Sem) : (sl.setSem i v).estop = sl.estop := by unfold Slot.setSem; split <;> rfl
@[simp] theorem Slot.setSem_estopped (sl : Slot) (i : Nat) (v : Sem) : (sl.setSem i v).estopped = sl.estopped := by unfold Slot.setSem; split <;> rfl
@[simp] theorem Slot.setSem_dbg (sl : Slot) (i : Nat) (v : Sem) : (sl.setSem i v).dbg = sl.dbg := by unfold Slot.setSem; split <;> rfl
@[simp] theorem Slot.setSem_task (sl : Slot) (i : Nat) (v : Sem) : (sl.setSem i v).task = sl.task := by unfold Slot.setSem; split <;> rfl
@[simp] theorem Slot.setSem_heldRaises (sl : Slot) (i : Nat) (v : Sem) : (sl.setSem i v).heldRaises = sl.heldRaises := by unfold Slot.setSem; split <;> rfl
@[simp] theorem Slot.setSem_heldRefire (sl : Slot) (i : Nat) (v : Sem) : (sl.setSem i v).heldRefire = sl.heldRefire := by unfold Slot.setSem; split <;> rfl
@[simp] theorem Slot.setSem_out (sl : Slot) (i : Nat) (v : Sem) : (sl.setSem i v).out = sl.out := by unfold Slot.setSem; split <;> rfl
@[simp] theorem Slot.setGuard_x (sl : Slot) (i : Nat) (v : BitVec 2) : (sl.setGuard i v).x = sl.x := by unfold Slot.setGuard; split <;> rfl
@[simp] theorem Slot.setGuard_p (sl : Slot) (i : Nat) (v : BitVec 2) : (sl.setGuard i v).p = sl.p := by unfold Slot.setGuard; split <;> rfl
@[simp] theorem Slot.setGuard_v (sl : Slot) (i : Nat) (v : BitVec 2) : (sl.setGuard i v).v = sl.v := by unfold Slot.setGuard; split <;> rfl
@[simp] theorem Slot.setGuard_vpoison (sl : Slot) (i : Nat) (v : BitVec 2) : (sl.setGuard i v).vpoison = sl.vpoison := by unfold Slot.setGuard; split <;> rfl
@[simp] theorem Slot.setGuard_vshape (sl : Slot) (i : Nat) (v : BitVec 2) : (sl.setGuard i v).vshape = sl.vshape := by unfold Slot.setGuard; split <;> rfl
@[simp] theorem Slot.setGuard_m (sl : Slot) (i : Nat) (v : BitVec 2) : (sl.setGuard i v).m = sl.m := by unfold Slot.setGuard; split <;> rfl
@[simp] theorem Slot.setGuard_g (sl : Slot) (i : Nat) (v : BitVec 2) : (sl.setGuard i v).g = sl.g := by unfold Slot.setGuard; split <;> rfl
@[simp] theorem Slot.setGuard_acc (sl : Slot) (i : Nat) (v : BitVec 2) : (sl.setGuard i v).acc = sl.acc := by unfold Slot.setGuard; split <;> rfl
@[simp] theorem Slot.setGuard_nest (sl : Slot) (i : Nat) (v : BitVec 2) : (sl.setGuard i v).nest = sl.nest := by unfold Slot.setGuard; split <;> rfl
@[simp] theorem Slot.setGuard_sems (sl : Slot) (i : Nat) (v : BitVec 2) : (sl.setGuard i v).sems = sl.sems := by unfold Slot.setGuard; split <;> rfl
@[simp] theorem Slot.setGuard_cb (sl : Slot) (i : Nat) (v : BitVec 2) : (sl.setGuard i v).cb = sl.cb := by unfold Slot.setGuard; split <;> rfl
@[simp] theorem Slot.setGuard_ch (sl : Slot) (i : Nat) (v : BitVec 2) : (sl.setGuard i v).ch = sl.ch := by unfold Slot.setGuard; split <;> rfl
@[simp] theorem Slot.setGuard_mq (sl : Slot) (i : Nat) (v : BitVec 2) : (sl.setGuard i v).mq = sl.mq := by unfold Slot.setGuard; split <;> rfl
@[simp] theorem Slot.setGuard_oq (sl : Slot) (i : Nat) (v : BitVec 2) : (sl.setGuard i v).oq = sl.oq := by unfold Slot.setGuard; split <;> rfl
@[simp] theorem Slot.setGuard_oqPoison (sl : Slot) (i : Nat) (v : BitVec 2) : (sl.setGuard i v).oqPoison = sl.oqPoison := by unfold Slot.setGuard; split <;> rfl
@[simp] theorem Slot.setGuard_q (sl : Slot) (i : Nat) (v : BitVec 2) : (sl.setGuard i v).q = sl.q := by unfold Slot.setGuard; split <;> rfl
@[simp] theorem Slot.setGuard_inbox (sl : Slot) (i : Nat) (v : BitVec 2) : (sl.setGuard i v).inbox = sl.inbox := by unfold Slot.setGuard; split <;> rfl
@[simp] theorem Slot.setGuard_mring (sl : Slot) (i : Nat) (v : BitVec 2) : (sl.setGuard i v).mring = sl.mring := by unfold Slot.setGuard; split <;> rfl
@[simp] theorem Slot.setGuard_xring (sl : Slot) (i : Nat) (v : BitVec 2) : (sl.setGuard i v).xring = sl.xring := by unfold Slot.setGuard; split <;> rfl
@[simp] theorem Slot.setGuard_sring (sl : Slot) (i : Nat) (v : BitVec 2) : (sl.setGuard i v).sring = sl.sring := by unfold Slot.setGuard; split <;> rfl
@[simp] theorem Slot.setGuard_kring (sl : Slot) (i : Nat) (v : BitVec 2) : (sl.setGuard i v).kring = sl.kring := by unfold Slot.setGuard; split <;> rfl
@[simp] theorem Slot.setGuard_flags (sl : Slot) (i : Nat) (v : BitVec 2) : (sl.setGuard i v).flags = sl.flags := by unfold Slot.setGuard; split <;> rfl
@[simp] theorem Slot.setGuard_fen (sl : Slot) (i : Nat) (v : BitVec 2) : (sl.setGuard i v).fen = sl.fen := by unfold Slot.setGuard; split <;> rfl
@[simp] theorem Slot.setGuard_cause (sl : Slot) (i : Nat) (v : BitVec 2) : (sl.setGuard i v).cause = sl.cause := by unfold Slot.setGuard; split <;> rfl
@[simp] theorem Slot.setGuard_epc (sl : Slot) (i : Nat) (v : BitVec 2) : (sl.setGuard i v).epc = sl.epc := by unfold Slot.setGuard; split <;> rfl
@[simp] theorem Slot.setGuard_eva (sl : Slot) (i : Nat) (v : BitVec 2) : (sl.setGuard i v).eva = sl.eva := by unfold Slot.setGuard; split <;> rfl
@[simp] theorem Slot.setGuard_tvec (sl : Slot) (i : Nat) (v : BitVec 2) : (sl.setGuard i v).tvec = sl.tvec := by unfold Slot.setGuard; split <;> rfl
@[simp] theorem Slot.setGuard_scr (sl : Slot) (i : Nat) (v : BitVec 2) : (sl.setGuard i v).scr = sl.scr := by unfold Slot.setGuard; split <;> rfl
@[simp] theorem Slot.setGuard_sysId (sl : Slot) (i : Nat) (v : BitVec 2) : (sl.setGuard i v).sysId = sl.sysId := by unfold Slot.setGuard; split <;> rfl
@[simp] theorem Slot.setGuard_priv (sl : Slot) (i : Nat) (v : BitVec 2) : (sl.setGuard i v).priv = sl.priv := by unfold Slot.setGuard; split <;> rfl
@[simp] theorem Slot.setGuard_cs (sl : Slot) (i : Nat) (v : BitVec 2) : (sl.setGuard i v).cs = sl.cs := by unfold Slot.setGuard; split <;> rfl
@[simp] theorem Slot.setGuard_vs (sl : Slot) (i : Nat) (v : BitVec 2) : (sl.setGuard i v).vs = sl.vs := by unfold Slot.setGuard; split <;> rfl
@[simp] theorem Slot.setGuard_hm (sl : Slot) (i : Nat) (v : BitVec 2) : (sl.setGuard i v).hm = sl.hm := by unfold Slot.setGuard; split <;> rfl
@[simp] theorem Slot.setGuard_cra (sl : Slot) (i : Nat) (v : BitVec 2) : (sl.setGuard i v).cra = sl.cra := by unfold Slot.setGuard; split <;> rfl
@[simp] theorem Slot.setGuard_wbar (sl : Slot) (i : Nat) (v : BitVec 2) : (sl.setGuard i v).wbar = sl.wbar := by unfold Slot.setGuard; split <;> rfl
@[simp] theorem Slot.setGuard_susp (sl : Slot) (i : Nat) (v : BitVec 2) : (sl.setGuard i v).susp = sl.susp := by unfold Slot.setGuard; split <;> rfl
@[simp] theorem Slot.setGuard_barWait (sl : Slot) (i : Nat) (v : BitVec 2) : (sl.setGuard i v).barWait = sl.barWait := by unfold Slot.setGuard; split <;> rfl
@[simp] theorem Slot.setGuard_mon (sl : Slot) (i : Nat) (v : BitVec 2) : (sl.setGuard i v).mon = sl.mon := by unfold Slot.setGuard; split <;> rfl
@[simp] theorem Slot.setGuard_taste (sl : Slot) (i : Nat) (v : BitVec 2) : (sl.setGuard i v).taste = sl.taste := by unfold Slot.setGuard; split <;> rfl
@[simp] theorem Slot.setGuard_kernel (sl : Slot) (i : Nat) (v : BitVec 2) : (sl.setGuard i v).kernel = sl.kernel := by unfold Slot.setGuard; split <;> rfl
@[simp] theorem Slot.setGuard_kernelPtr (sl : Slot) (i : Nat) (v : BitVec 2) : (sl.setGuard i v).kernelPtr = sl.kernelPtr := by unfold Slot.setGuard; split <;> rfl
@[simp] theorem Slot.setGuard_kernelNo (sl : Slot) (i : Nat) (v : BitVec 2) : (sl.setGuard i v).kernelNo = sl.kernelNo := by unfold Slot.setGuard; split <;> rfl
@[simp] theorem Slot.setGuard_pushNo (sl : Slot) (i : Nat) (v : BitVec 2) : (sl.setGuard i v).pushNo = sl.pushNo := by unfold Slot.setGuard; split <;> rfl
@[simp] theorem Slot.setGuard_vreads (sl : Slot) (i : Nat) (v : BitVec 2) : (sl.setGuard i v).vreads = sl.vreads := by unfold Slot.setGuard; split <;> rfl
@[simp] theorem Slot.setGuard_hold (sl : Slot) (i : Nat) (v : BitVec 2) : (sl.setGuard i v).hold = sl.hold := by unfold Slot.setGuard; split <;> rfl
@[simp] theorem Slot.setGuard_comp (sl : Slot) (i : Nat) (v : BitVec 2) : (sl.setGuard i v).comp = sl.comp := by unfold Slot.setGuard; split <;> rfl
@[simp] theorem Slot.setGuard_estop (sl : Slot) (i : Nat) (v : BitVec 2) : (sl.setGuard i v).estop = sl.estop := by unfold Slot.setGuard; split <;> rfl
@[simp] theorem Slot.setGuard_estopped (sl : Slot) (i : Nat) (v : BitVec 2) : (sl.setGuard i v).estopped = sl.estopped := by unfold Slot.setGuard; split <;> rfl
@[simp] theorem Slot.setGuard_dbg (sl : Slot) (i : Nat) (v : BitVec 2) : (sl.setGuard i v).dbg = sl.dbg := by unfold Slot.setGuard; split <;> rfl
@[simp] theorem Slot.setGuard_task (sl : Slot) (i : Nat) (v : BitVec 2) : (sl.setGuard i v).task = sl.task := by unfold Slot.setGuard; split <;> rfl
@[simp] theorem Slot.setGuard_heldRaises (sl : Slot) (i : Nat) (v : BitVec 2) : (sl.setGuard i v).heldRaises = sl.heldRaises := by unfold Slot.setGuard; split <;> rfl
@[simp] theorem Slot.setGuard_heldRefire (sl : Slot) (i : Nat) (v : BitVec 2) : (sl.setGuard i v).heldRefire = sl.heldRefire := by unfold Slot.setGuard; split <;> rfl
@[simp] theorem Slot.setGuard_out (sl : Slot) (i : Nat) (v : BitVec 2) : (sl.setGuard i v).out = sl.out := by unfold Slot.setGuard; split <;> rfl
@[simp] theorem Slot.setV_x (sl : Slot) (i : Nat) (v : VWord) : (sl.setV i v).x = sl.x := rfl
@[simp] theorem Slot.setV_p (sl : Slot) (i : Nat) (v : VWord) : (sl.setV i v).p = sl.p := rfl
@[simp] theorem Slot.setV_vpoison (sl : Slot) (i : Nat) (v : VWord) : (sl.setV i v).vpoison = sl.vpoison := rfl
@[simp] theorem Slot.setV_vshape (sl : Slot) (i : Nat) (v : VWord) : (sl.setV i v).vshape = sl.vshape := rfl
@[simp] theorem Slot.setV_m (sl : Slot) (i : Nat) (v : VWord) : (sl.setV i v).m = sl.m := rfl
@[simp] theorem Slot.setV_g (sl : Slot) (i : Nat) (v : VWord) : (sl.setV i v).g = sl.g := rfl
@[simp] theorem Slot.setV_acc (sl : Slot) (i : Nat) (v : VWord) : (sl.setV i v).acc = sl.acc := rfl
@[simp] theorem Slot.setV_nest (sl : Slot) (i : Nat) (v : VWord) : (sl.setV i v).nest = sl.nest := rfl
@[simp] theorem Slot.setV_sems (sl : Slot) (i : Nat) (v : VWord) : (sl.setV i v).sems = sl.sems := rfl
@[simp] theorem Slot.setV_gd (sl : Slot) (i : Nat) (v : VWord) : (sl.setV i v).gd = sl.gd := rfl
@[simp] theorem Slot.setV_cb (sl : Slot) (i : Nat) (v : VWord) : (sl.setV i v).cb = sl.cb := rfl
@[simp] theorem Slot.setV_ch (sl : Slot) (i : Nat) (v : VWord) : (sl.setV i v).ch = sl.ch := rfl
@[simp] theorem Slot.setV_mq (sl : Slot) (i : Nat) (v : VWord) : (sl.setV i v).mq = sl.mq := rfl
@[simp] theorem Slot.setV_oq (sl : Slot) (i : Nat) (v : VWord) : (sl.setV i v).oq = sl.oq := rfl
@[simp] theorem Slot.setV_oqPoison (sl : Slot) (i : Nat) (v : VWord) : (sl.setV i v).oqPoison = sl.oqPoison := rfl
@[simp] theorem Slot.setV_q (sl : Slot) (i : Nat) (v : VWord) : (sl.setV i v).q = sl.q := rfl
@[simp] theorem Slot.setV_inbox (sl : Slot) (i : Nat) (v : VWord) : (sl.setV i v).inbox = sl.inbox := rfl
@[simp] theorem Slot.setV_mring (sl : Slot) (i : Nat) (v : VWord) : (sl.setV i v).mring = sl.mring := rfl
@[simp] theorem Slot.setV_xring (sl : Slot) (i : Nat) (v : VWord) : (sl.setV i v).xring = sl.xring := rfl
@[simp] theorem Slot.setV_sring (sl : Slot) (i : Nat) (v : VWord) : (sl.setV i v).sring = sl.sring := rfl
@[simp] theorem Slot.setV_kring (sl : Slot) (i : Nat) (v : VWord) : (sl.setV i v).kring = sl.kring := rfl
@[simp] theorem Slot.setV_flags (sl : Slot) (i : Nat) (v : VWord) : (sl.setV i v).flags = sl.flags := rfl
@[simp] theorem Slot.setV_fen (sl : Slot) (i : Nat) (v : VWord) : (sl.setV i v).fen = sl.fen := rfl
@[simp] theorem Slot.setV_cause (sl : Slot) (i : Nat) (v : VWord) : (sl.setV i v).cause = sl.cause := rfl
@[simp] theorem Slot.setV_epc (sl : Slot) (i : Nat) (v : VWord) : (sl.setV i v).epc = sl.epc := rfl
@[simp] theorem Slot.setV_eva (sl : Slot) (i : Nat) (v : VWord) : (sl.setV i v).eva = sl.eva := rfl
@[simp] theorem Slot.setV_tvec (sl : Slot) (i : Nat) (v : VWord) : (sl.setV i v).tvec = sl.tvec := rfl
@[simp] theorem Slot.setV_scr (sl : Slot) (i : Nat) (v : VWord) : (sl.setV i v).scr = sl.scr := rfl
@[simp] theorem Slot.setV_sysId (sl : Slot) (i : Nat) (v : VWord) : (sl.setV i v).sysId = sl.sysId := rfl
@[simp] theorem Slot.setV_priv (sl : Slot) (i : Nat) (v : VWord) : (sl.setV i v).priv = sl.priv := rfl
@[simp] theorem Slot.setV_cs (sl : Slot) (i : Nat) (v : VWord) : (sl.setV i v).cs = sl.cs := rfl
@[simp] theorem Slot.setV_vs (sl : Slot) (i : Nat) (v : VWord) : (sl.setV i v).vs = sl.vs := rfl
@[simp] theorem Slot.setV_hm (sl : Slot) (i : Nat) (v : VWord) : (sl.setV i v).hm = sl.hm := rfl
@[simp] theorem Slot.setV_cra (sl : Slot) (i : Nat) (v : VWord) : (sl.setV i v).cra = sl.cra := rfl
@[simp] theorem Slot.setV_wbar (sl : Slot) (i : Nat) (v : VWord) : (sl.setV i v).wbar = sl.wbar := rfl
@[simp] theorem Slot.setV_susp (sl : Slot) (i : Nat) (v : VWord) : (sl.setV i v).susp = sl.susp := rfl
@[simp] theorem Slot.setV_barWait (sl : Slot) (i : Nat) (v : VWord) : (sl.setV i v).barWait = sl.barWait := rfl
@[simp] theorem Slot.setV_mon (sl : Slot) (i : Nat) (v : VWord) : (sl.setV i v).mon = sl.mon := rfl
@[simp] theorem Slot.setV_taste (sl : Slot) (i : Nat) (v : VWord) : (sl.setV i v).taste = sl.taste := rfl
@[simp] theorem Slot.setV_kernel (sl : Slot) (i : Nat) (v : VWord) : (sl.setV i v).kernel = sl.kernel := rfl
@[simp] theorem Slot.setV_kernelPtr (sl : Slot) (i : Nat) (v : VWord) : (sl.setV i v).kernelPtr = sl.kernelPtr := rfl
@[simp] theorem Slot.setV_kernelNo (sl : Slot) (i : Nat) (v : VWord) : (sl.setV i v).kernelNo = sl.kernelNo := rfl
@[simp] theorem Slot.setV_pushNo (sl : Slot) (i : Nat) (v : VWord) : (sl.setV i v).pushNo = sl.pushNo := rfl
@[simp] theorem Slot.setV_vreads (sl : Slot) (i : Nat) (v : VWord) : (sl.setV i v).vreads = sl.vreads := rfl
@[simp] theorem Slot.setV_hold (sl : Slot) (i : Nat) (v : VWord) : (sl.setV i v).hold = sl.hold := rfl
@[simp] theorem Slot.setV_comp (sl : Slot) (i : Nat) (v : VWord) : (sl.setV i v).comp = sl.comp := rfl
@[simp] theorem Slot.setV_estop (sl : Slot) (i : Nat) (v : VWord) : (sl.setV i v).estop = sl.estop := rfl
@[simp] theorem Slot.setV_estopped (sl : Slot) (i : Nat) (v : VWord) : (sl.setV i v).estopped = sl.estopped := rfl
@[simp] theorem Slot.setV_dbg (sl : Slot) (i : Nat) (v : VWord) : (sl.setV i v).dbg = sl.dbg := rfl
@[simp] theorem Slot.setV_task (sl : Slot) (i : Nat) (v : VWord) : (sl.setV i v).task = sl.task := rfl
@[simp] theorem Slot.setV_heldRaises (sl : Slot) (i : Nat) (v : VWord) : (sl.setV i v).heldRaises = sl.heldRaises := rfl
@[simp] theorem Slot.setV_heldRefire (sl : Slot) (i : Nat) (v : VWord) : (sl.setV i v).heldRefire = sl.heldRefire := rfl
@[simp] theorem Slot.setV_out (sl : Slot) (i : Nat) (v : VWord) : (sl.setV i v).out = sl.out := rfl
@[simp] theorem Slot.orFlags_x (sl : Slot) (st : Strm) (f : Fl) : (sl.orFlags st f).x = sl.x := rfl
@[simp] theorem Slot.orFlags_p (sl : Slot) (st : Strm) (f : Fl) : (sl.orFlags st f).p = sl.p := rfl
@[simp] theorem Slot.orFlags_v (sl : Slot) (st : Strm) (f : Fl) : (sl.orFlags st f).v = sl.v := rfl
@[simp] theorem Slot.orFlags_vpoison (sl : Slot) (st : Strm) (f : Fl) : (sl.orFlags st f).vpoison = sl.vpoison := rfl
@[simp] theorem Slot.orFlags_vshape (sl : Slot) (st : Strm) (f : Fl) : (sl.orFlags st f).vshape = sl.vshape := rfl
@[simp] theorem Slot.orFlags_m (sl : Slot) (st : Strm) (f : Fl) : (sl.orFlags st f).m = sl.m := rfl
@[simp] theorem Slot.orFlags_g (sl : Slot) (st : Strm) (f : Fl) : (sl.orFlags st f).g = sl.g := rfl
@[simp] theorem Slot.orFlags_acc (sl : Slot) (st : Strm) (f : Fl) : (sl.orFlags st f).acc = sl.acc := rfl
@[simp] theorem Slot.orFlags_nest (sl : Slot) (st : Strm) (f : Fl) : (sl.orFlags st f).nest = sl.nest := rfl
@[simp] theorem Slot.orFlags_sems (sl : Slot) (st : Strm) (f : Fl) : (sl.orFlags st f).sems = sl.sems := rfl
@[simp] theorem Slot.orFlags_gd (sl : Slot) (st : Strm) (f : Fl) : (sl.orFlags st f).gd = sl.gd := rfl
@[simp] theorem Slot.orFlags_cb (sl : Slot) (st : Strm) (f : Fl) : (sl.orFlags st f).cb = sl.cb := rfl
@[simp] theorem Slot.orFlags_ch (sl : Slot) (st : Strm) (f : Fl) : (sl.orFlags st f).ch = sl.ch := rfl
@[simp] theorem Slot.orFlags_mq (sl : Slot) (st : Strm) (f : Fl) : (sl.orFlags st f).mq = sl.mq := rfl
@[simp] theorem Slot.orFlags_oq (sl : Slot) (st : Strm) (f : Fl) : (sl.orFlags st f).oq = sl.oq := rfl
@[simp] theorem Slot.orFlags_oqPoison (sl : Slot) (st : Strm) (f : Fl) : (sl.orFlags st f).oqPoison = sl.oqPoison := rfl
@[simp] theorem Slot.orFlags_q (sl : Slot) (st : Strm) (f : Fl) : (sl.orFlags st f).q = sl.q := rfl
@[simp] theorem Slot.orFlags_inbox (sl : Slot) (st : Strm) (f : Fl) : (sl.orFlags st f).inbox = sl.inbox := rfl
@[simp] theorem Slot.orFlags_mring (sl : Slot) (st : Strm) (f : Fl) : (sl.orFlags st f).mring = sl.mring := rfl
@[simp] theorem Slot.orFlags_xring (sl : Slot) (st : Strm) (f : Fl) : (sl.orFlags st f).xring = sl.xring := rfl
@[simp] theorem Slot.orFlags_sring (sl : Slot) (st : Strm) (f : Fl) : (sl.orFlags st f).sring = sl.sring := rfl
@[simp] theorem Slot.orFlags_kring (sl : Slot) (st : Strm) (f : Fl) : (sl.orFlags st f).kring = sl.kring := rfl
@[simp] theorem Slot.orFlags_fen (sl : Slot) (st : Strm) (f : Fl) : (sl.orFlags st f).fen = sl.fen := rfl
@[simp] theorem Slot.orFlags_cause (sl : Slot) (st : Strm) (f : Fl) : (sl.orFlags st f).cause = sl.cause := rfl
@[simp] theorem Slot.orFlags_epc (sl : Slot) (st : Strm) (f : Fl) : (sl.orFlags st f).epc = sl.epc := rfl
@[simp] theorem Slot.orFlags_eva (sl : Slot) (st : Strm) (f : Fl) : (sl.orFlags st f).eva = sl.eva := rfl
@[simp] theorem Slot.orFlags_tvec (sl : Slot) (st : Strm) (f : Fl) : (sl.orFlags st f).tvec = sl.tvec := rfl
@[simp] theorem Slot.orFlags_scr (sl : Slot) (st : Strm) (f : Fl) : (sl.orFlags st f).scr = sl.scr := rfl
@[simp] theorem Slot.orFlags_sysId (sl : Slot) (st : Strm) (f : Fl) : (sl.orFlags st f).sysId = sl.sysId := rfl
@[simp] theorem Slot.orFlags_priv (sl : Slot) (st : Strm) (f : Fl) : (sl.orFlags st f).priv = sl.priv := rfl
@[simp] theorem Slot.orFlags_cs (sl : Slot) (st : Strm) (f : Fl) : (sl.orFlags st f).cs = sl.cs := rfl
@[simp] theorem Slot.orFlags_vs (sl : Slot) (st : Strm) (f : Fl) : (sl.orFlags st f).vs = sl.vs := rfl
@[simp] theorem Slot.orFlags_hm (sl : Slot) (st : Strm) (f : Fl) : (sl.orFlags st f).hm = sl.hm := rfl
@[simp] theorem Slot.orFlags_cra (sl : Slot) (st : Strm) (f : Fl) : (sl.orFlags st f).cra = sl.cra := rfl
@[simp] theorem Slot.orFlags_wbar (sl : Slot) (st : Strm) (f : Fl) : (sl.orFlags st f).wbar = sl.wbar := rfl
@[simp] theorem Slot.orFlags_susp (sl : Slot) (st : Strm) (f : Fl) : (sl.orFlags st f).susp = sl.susp := rfl
@[simp] theorem Slot.orFlags_barWait (sl : Slot) (st : Strm) (f : Fl) : (sl.orFlags st f).barWait = sl.barWait := rfl
@[simp] theorem Slot.orFlags_mon (sl : Slot) (st : Strm) (f : Fl) : (sl.orFlags st f).mon = sl.mon := rfl
@[simp] theorem Slot.orFlags_taste (sl : Slot) (st : Strm) (f : Fl) : (sl.orFlags st f).taste = sl.taste := rfl
@[simp] theorem Slot.orFlags_kernel (sl : Slot) (st : Strm) (f : Fl) : (sl.orFlags st f).kernel = sl.kernel := rfl
@[simp] theorem Slot.orFlags_kernelPtr (sl : Slot) (st : Strm) (f : Fl) : (sl.orFlags st f).kernelPtr = sl.kernelPtr := rfl
@[simp] theorem Slot.orFlags_kernelNo (sl : Slot) (st : Strm) (f : Fl) : (sl.orFlags st f).kernelNo = sl.kernelNo := rfl
@[simp] theorem Slot.orFlags_pushNo (sl : Slot) (st : Strm) (f : Fl) : (sl.orFlags st f).pushNo = sl.pushNo := rfl
@[simp] theorem Slot.orFlags_vreads (sl : Slot) (st : Strm) (f : Fl) : (sl.orFlags st f).vreads = sl.vreads := rfl
@[simp] theorem Slot.orFlags_hold (sl : Slot) (st : Strm) (f : Fl) : (sl.orFlags st f).hold = sl.hold := rfl
@[simp] theorem Slot.orFlags_comp (sl : Slot) (st : Strm) (f : Fl) : (sl.orFlags st f).comp = sl.comp := rfl
@[simp] theorem Slot.orFlags_estop (sl : Slot) (st : Strm) (f : Fl) : (sl.orFlags st f).estop = sl.estop := rfl
@[simp] theorem Slot.orFlags_estopped (sl : Slot) (st : Strm) (f : Fl) : (sl.orFlags st f).estopped = sl.estopped := rfl
@[simp] theorem Slot.orFlags_dbg (sl : Slot) (st : Strm) (f : Fl) : (sl.orFlags st f).dbg = sl.dbg := rfl
@[simp] theorem Slot.orFlags_task (sl : Slot) (st : Strm) (f : Fl) : (sl.orFlags st f).task = sl.task := rfl
@[simp] theorem Slot.orFlags_heldRaises (sl : Slot) (st : Strm) (f : Fl) : (sl.orFlags st f).heldRaises = sl.heldRaises := rfl
@[simp] theorem Slot.orFlags_heldRefire (sl : Slot) (st : Strm) (f : Fl) : (sl.orFlags st f).heldRefire = sl.heldRefire := rfl
@[simp] theorem Slot.orFlags_out (sl : Slot) (st : Strm) (f : Fl) : (sl.orFlags st f).out = sl.out := rfl

/-! ### Fixed registers (R42) and a register after a write -/

@[simp] theorem Slot.xr_zero (sl : Slot) : sl.xr 0 = 0 := rfl
@[simp] theorem Slot.pr_zero (sl : Slot) : sl.pr 0 = true := rfl
@[simp] theorem Slot.mr_zero (sl : Slot) : sl.mr 0 = ~~~(0 : MWord) := rfl
@[simp] theorem Slot.setX_zero (sl : Slot) (v : Word) : sl.setX 0 v = sl := rfl
@[simp] theorem Slot.setP_zero (sl : Slot) (b : Bool) : sl.setP 0 b = sl := rfl
@[simp] theorem Slot.setM_zero (sl : Slot) (v : MWord) : sl.setM 0 v = sl := rfl
/-- A scalar register after a write, X0 apart. -/
theorem Slot.xr_setX (sl : Slot) (d r : Reg) (v : Word) (hw : Sparse.wfFrom (0 : Word) 0 sl.x = true) (hd : d ≠ 0) :
    (sl.setX d v).xr r = if r = d then v else sl.xr r := by
  unfold Slot.xr Slot.setX
  simp only [hd, if_false]
  by_cases h0 : r = 0
  · subst h0; simp only [if_true]; rw [if_neg (Ne.symm hd)]
  · simp only [h0, if_false]
    rw [Sparse.get_set 0 sl.x 0 _ _ _ hw]
    simp only [BitVec.toNat_inj]
/-- A predicate after a write, P0 apart. -/
theorem Slot.pr_setP (sl : Slot) (d q : PReg) (b : Bool) (hd : d ≠ 0) :
    (sl.setP d b).pr q = if q = d then b else sl.pr q := by
  simp only [Slot.setP, hd, if_false, Slot.pr]
  by_cases h0 : q = 0
  · subst h0; exact (by simpa using Or.inl fun h => hd h.symm)
  · have hq : q.toNat < 8 := q.isLt
    have hdq : d.toNat = q.toNat ↔ q = d := by rw [BitVec.toNat_inj]; exact eq_comm
    cases b <;> simp <;> grind

end Sys2Proof.Machine
end

