-- ==== Sys2Proof/Laws/Instr.lean ====
section
/-! SUPPORT. What an instruction does once its body has answered: it completes, branches, waits, traps or is skipped. -/

namespace Sys2Proof.Machine

/-- An instruction of the C stream that executes. -/
theorem instr_c {pr : Pred} {s : State} (h : s.cRuns pr) (len : Nat) (body : State → Res) :
    instr pr len body s = .next (s.settleRes len (body s)) := by
  simp [instr, State.finish, h.1, h.2]
@[simp] theorem settleRes_done (s t : State) (len : Nat) : s.settleRes len (.done t) = t.advance len := rfl
@[simp] theorem settleRes_jump (s t : State) (len : Nat) (pc : Word) : s.settleRes len (.jump t pc) = t.jumpTo pc := rfl
@[simp] theorem settleRes_stay (s t : State) (len : Nat) : s.settleRes len (.stay t) = t := rfl
@[simp] theorem settleRes_skip (s t : State) (len n : Nat) : s.settleRes len (.skip t n) = t.advance n := rfl
@[simp] theorem settleRes_trap (s : State) (len : Nat) (code : Code) (eva : Word) :
    s.settleRes len (.trap code eva) = s.trapEntry s.cur.core s.cur.slot code s.cur.strm s.pc eva := rfl
@[simp] theorem settleRes_wait (s t : State) (len : Nat) (w : WaitFor) :
    s.settleRes len (.wait t w) = t.modMe fun sl => sl.modSs t.cur.strm fun ss => { ss with waiting := some w } := rfl
@[simp] theorem chk_then_ok {α : Type} (a : α) (f : α → Res) : Chk.then (.ok a) f = f a := rfl
@[simp] theorem chk_then_error {α : Type} (e : Code × Word) (f : α → Res) : Chk.then (.error e) f = .trap e.1 e.2 := rfl

/-! The shapes of the C stream's instructions, executed. -/

theorem rrr_c {s : State} {o : RRR} (h : s.cRuns o.pr) (f : Word → Word → Word) :
    rrr f o s = .next ((s.setX o.d (f (s.me.xr o.a) (s.me.xr o.b))).advance 4) := instr_c h _ _
theorem rri_c {s : State} {o : RRI} (h : s.cRuns o.pr) (f : Word → Word → Word) :
    rri f o s = .next ((s.setX o.d (f (s.me.xr o.a) (immWord o.imm))).advance (immLen o.imm)) := instr_c h _ _
theorem rr_c {s : State} {o : RR} (h : s.cRuns o.pr) (f : Word → Word) :
    rr f o s = .next ((s.setX o.d (f (s.me.xr o.a))).advance 4) := instr_c h _ _
theorem rrrFl_c {s : State} {o : RRR} (h : s.cRuns o.pr) (f : Word → Word → Word × Fl) :
    rrrFl f o s = .next (((s.setX o.d (f (s.me.xr o.a) (s.me.xr o.b)).1).orFlags (f (s.me.xr o.a) (s.me.xr o.b)).2).advance 4) :=
  instr_c h _ _
theorem rriFl_c {s : State} {o : RRI} (h : s.cRuns o.pr) (f : Word → Word → Word × Fl) :
    rriFl f o s = .next (((s.setX o.d (f (s.me.xr o.a) (immWord o.imm)).1).orFlags
      (f (s.me.xr o.a) (immWord o.imm)).2).advance (immLen o.imm)) := instr_c h _ _
theorem fieldOp_c {s : State} {o : FieldOp} (h : s.cRuns o.pr) (f : Nat → Nat → Nat → Nat → Nat) :
    fieldOp f o s = .next ((s.setX o.d (BitVec.ofNat 64
      (f o.pos.toNat o.len.toNat (s.me.xr o.a).toNat (s.me.xr o.d).toNat))).advance 8) := instr_c h _ _
theorem cmpR_c {s : State} {o : CmpR} (h : s.cRuns o.pr) (f : Word → Word → Bool) :
    cmpR f o s = .next ((s.setP o.d (f (s.me.xr o.a) (s.me.xr o.b))).advance 4) := instr_c h _ _
theorem cmpI_c {s : State} {o : CmpI} (h : s.cRuns o.pr) (f : Word → Word → Bool) :
    cmpI f o s = .next ((s.setP o.d (f (s.me.xr o.a) (immWord o.imm))).advance (immLen o.imm)) := instr_c h _ _
theorem pred2_c {s : State} {o : PRRR} (h : s.cRuns o.pr) (f : Bool → Bool → Bool) :
    pred2 f o s = .next ((s.setP o.d (f (s.me.pr o.a) (s.me.pr o.b))).advance 4) := instr_c h _ _
theorem fp2_c {s : State} {pr : Pred} {d a b : Reg} (h : s.cRuns pr) (f : Nat → Nat → Nat × Fl) :
    fp2 pr d a b f s = .next (((s.setX d (BitVec.ofNat 64 (f (s.me.xr a).toNat (s.me.xr b).toNat).1)).orFlags
      (f (s.me.xr a).toNat (s.me.xr b).toNat).2).advance 8) := instr_c h _ _
theorem fp1_c {s : State} {pr : Pred} {d a : Reg} (h : s.cRuns pr) (f : Nat → Nat × Fl) :
    fp1 pr d a f s = .next (((s.setX d (BitVec.ofNat 64 (f (s.me.xr a).toNat).1)).orFlags (f (s.me.xr a).toNat).2).advance 8) :=
  instr_c h _ _
theorem fcmp_c {s : State} {o : FcmpOp} (h : s.cRuns o.pr) (cc : Nat) :
    fcmp cc o s = .next (((s.setP o.d (fpCmp cc o.fmt.toNat (s.me.xr o.a).toNat (s.me.xr o.b).toNat).1).orFlags
      (fpCmp cc o.fmt.toNat (s.me.xr o.a).toNat (s.me.xr o.b).toNat).2).advance 8) := instr_c h _ _

theorem instr_c_done {pr : Pred} {len : Nat} {body : State → Res} {s t : State} (h : s.cRuns pr) (hb : body s = .done t) :
    instr pr len body s = .next (t.advance len) := by
  simp [instr, State.finish, State.settleRes, h.1, h.2, hb]
theorem instr_c_jump {pr : Pred} {len : Nat} {body : State → Res} {s t : State} {pc : Word} (h : s.cRuns pr)
    (hb : body s = .jump t pc) : instr pr len body s = .next (t.jumpTo pc) := by
  simp [instr, State.finish, State.settleRes, h.1, h.2, hb]
theorem instr_c_stay {pr : Pred} {len : Nat} {body : State → Res} {s t : State} (h : s.cRuns pr)
    (hb : body s = .stay t) : instr pr len body s = .next t := by
  simp [instr, State.finish, State.settleRes, h.1, h.2, hb]
theorem instr_c_wait {pr : Pred} {len : Nat} {body : State → Res} {s t : State} {w : WaitFor} (h : s.cRuns pr)
    (hb : body s = .wait t w) :
    instr pr len body s = .next (t.modMe fun sl => sl.modSs t.cur.strm fun ss => { ss with waiting := some w }) := by
  simp [instr, State.finish, State.settleRes, h.1, h.2, hb]
theorem instr_c_trap {pr : Pred} {len : Nat} {body : State → Res} {s : State} {code : Code} {eva : Word} (h : s.cRuns pr)
    (hb : body s = .trap code eva) :
    instr pr len body s = .next (s.trapEntry s.cur.core s.cur.slot code .c s.pc eva) := by
  simp [instr, State.finish, State.settleRes, h.1, h.2, hb]
/-- A false predicate: no effect but the program counter's (R55). -/
theorem instr_c_skip {pr : Pred} {len : Nat} {body : State → Res} {s : State} (h : s.cSkips pr) :
    instr pr len body s = .next (s.advance len) := by
  simp [instr, h.1, h.2]
theorem instrAlways_c {len : Nat} {body : State → Res} {s : State} (h : s.cur.strm = .c) :
    instrAlways len body s = .next (s.settleRes len (body s)) := by
  simp [instrAlways, State.finish, h]

/-- Outside loops the next word is next, and nothing else changes. -/
theorem State.advance_plain {s : State} {len : Nat} (h : (s.me.ss s.cur.strm).loops = []) :
    s.advance len = s.modMe fun sl => sl.modSs s.cur.strm fun ss =>
      { ss with pc := (s.me.ss s.cur.strm).pc + BitVec.ofNat 64 len, loops := [], waiting := none, resolved := [], atStop := false } := by
  simp [State.advance, h, passEnds, State.loopExits]
theorem State.jumpTo_plain {s : State} {pc : Word} (h : (s.me.ss s.cur.strm).loops = []) :
    s.jumpTo pc = s.modMe fun sl => sl.modSs s.cur.strm fun ss =>
      { ss with pc := pc, loops := [], waiting := none, resolved := [], atStop := false } := by
  simp [State.jumpTo, h, leaveLoops, State.loopExits]

end Sys2Proof.Machine
end

