-- ==== Sys2Proof/Laws/Hidden.lean ====
section
/-! SUPPORT. What passes knowledge of device writes on (R364, R365), what a host access leaves in the address translation
cache, and what gives early reads up, change nothing else: memory accesses and fences of the C stream as equations. -/

namespace Sys2Proof.Machine

/-- A record of knowledge, places and cached translations in place of another. -/
theorem OnlyKnown.of (s : State) (h : Sparse Hidden) (p : List RelPlace) (a : Sparse Nat) :
    OnlyKnown s { s with hidden := h, places := p, atc := a } := ⟨h, p, a, s.early, fun _ h => h, rfl⟩
theorem OnlyKnown.refl (s : State) : OnlyKnown s s := .of s _ _ _
theorem OnlyKnown.trans {s t u : State} (h : OnlyKnown s t) (g : OnlyKnown t u) : OnlyKnown s u := by
  obtain ⟨_, _, _, _, hs, rfl⟩ := h; obtain ⟨x, y, z, e, gs, rfl⟩ := g; exact ⟨x, y, z, e, fun w hw => hs w (gs w hw), rfl⟩
/-- Early reads given up. -/
theorem onlyKnown_filterEarly (s : State) (p : EarlyRead → Bool) : OnlyKnown s { s with early := s.early.filter p } :=
  ⟨_, _, _, _, fun _ h => (List.mem_filter.mp h).1, rfl⟩
theorem OnlyKnown.ite {c : Prop} [Decidable c] {s a b : State} (ha : OnlyKnown s a) (hb : OnlyKnown s b) :
    OnlyKnown s (if c then a else b) := by split <;> assumption
theorem onlyKnown_foldl {α : Type} (f : State → α → State) (hf : ∀ s a, OnlyKnown s (f s a)) (l : List α) (s : State) :
    OnlyKnown s (l.foldl f s) := by
  induction l generalizing s with
  | nil => exact .refl s
  | cons a t ih => exact (hf s a).trans (ih _)
theorem onlyKnown_mapHidden (s : State) (f : HidWrite → HidWrite) : OnlyKnown s (s.mapHidden f) := by
  unfold State.mapHidden; split
  · exact .refl s
  · exact .of _ _ _ _
theorem onlyKnown_dropEarly (s : State) (w : Agent) : OnlyKnown s (s.dropEarly w) := by
  unfold State.dropEarly; split
  · split
    · exact .refl s
    · exact (onlyKnown_filterEarly s _).trans (onlyKnown_mapHidden _ _)
  · exact .refl s
theorem onlyKnown_overEarly (s : State) (va pa n : Nat) : OnlyKnown s (s.overEarly va pa n) := by
  unfold State.overEarly; split
  · exact .refl s
  · exact onlyKnown_filterEarly s _
theorem onlyKnown_passIf (s : State) (p : Agent → Bool) (v : Agent) : OnlyKnown s (s.passIf p v) := by
  unfold State.passIf
  refine (onlyKnown_dropEarly s v).trans ?_
  dsimp only
  split
  · exact .refl _
  · exact onlyKnown_mapHidden _ _
theorem onlyKnown_pass (s : State) (w v : Agent) : OnlyKnown s (s.pass w v) := onlyKnown_passIf s _ v
theorem onlyKnown_forgetIf (s : State) (p : Agent → Bool) : OnlyKnown s (s.forgetIf p) := onlyKnown_mapHidden s _
theorem onlyKnown_forget (s : State) (w : Agent) : OnlyKnown s (s.forget w) := onlyKnown_forgetIf s _
theorem onlyKnown_forgetRuns (s : State) (k : SlotId) : OnlyKnown s (s.forgetRuns k) := onlyKnown_forgetIf s _
theorem onlyKnown_setApart (s : State) (rl : Bool) : OnlyKnown s (s.setApart rl) := by
  unfold State.setApart; split
  · exact onlyKnown_pass s _ _
  · exact .refl s
theorem onlyKnown_passRun (s : State) (r : StrmRef) (rss d : Nat) : OnlyKnown s (s.passRun r rss d) := by
  unfold State.passRun
  dsimp only
  split
  · exact onlyKnown_forget s _
  · exact (onlyKnown_pass s _ _).trans (onlyKnown_forget _ _)
theorem onlyKnown_learn (s : State) (rss n : Nat) : OnlyKnown s (s.learn rss n) := by
  unfold State.learn
  dsimp only
  split
  · exact .refl s
  · exact onlyKnown_passIf s _ _
theorem onlyKnown_freeWrites (s : State) (k : SlotId) (p : HidWrite → Bool) : OnlyKnown s (s.freeWrites k p) :=
  onlyKnown_mapHidden s _
theorem onlyKnown_releaseHost (s : State) (w : Agent) : OnlyKnown s (s.releaseHost w) := by
  unfold State.releaseHost; split
  · exact .refl s
  · exact .of _ _ _ _
theorem onlyKnown_observe (s : State) (w : Agent) (pa n : Nat) : OnlyKnown s (s.observe w pa n) := by
  unfold State.observe
  refine (OnlyKnown.of s s.hidden s.places (atcFill s.atc pa n)).trans ((onlyKnown_dropEarly _ w).trans ?_)
  dsimp only
  split
  · exact .refl _
  · exact .of _ _ _ _
theorem onlyKnown_mapHiddenAt (s : State) (pa n : Nat) (f : HidWrite → HidWrite) : OnlyKnown s (s.mapHiddenAt pa n f) := .of _ _ _ _
theorem onlyKnown_loaded (s : State) (va pa n : Nat) : OnlyKnown s (s.loaded va pa n) := by
  unfold State.loaded
  split
  · exact (onlyKnown_mapHiddenAt s _ _ _).trans ((onlyKnown_foldl _ (fun u x => onlyKnown_pass u _ _) _ _).trans
      (onlyKnown_dropEarly _ _))
  · exact onlyKnown_observe s _ _ _
theorem onlyKnown_madeAt (s : State) (va pa n : Nat) : OnlyKnown s (s.madeAt va pa n) := by
  unfold State.madeAt; split
  · exact .refl s
  · exact .of _ _ _ _
theorem onlyKnown_readAt (s : State) (aq : Bool) (sc : Scope) (pa n : Nat) : OnlyKnown s (s.readAt aq sc pa n) := by
  unfold State.readAt
  refine onlyKnown_foldl _ (fun u x => ?_) _ s
  dsimp only
  split <;> split
  · exact (onlyKnown_pass u _ _).trans (onlyKnown_pass _ _ _)
  · exact onlyKnown_pass u _ _
  · exact onlyKnown_pass u _ _
  · exact .refl u
theorem onlyKnown_releaseAt (s : State) (w : Agent) (sc pa n : Nat) : OnlyKnown s (s.releaseAt w sc pa n) := by
  unfold State.releaseAt
  dsimp only
  split
  · exact .refl s
  · exact (OnlyKnown.of _ _ _ _).trans (onlyKnown_pass _ _ _)
theorem onlyKnown_writeAt (s : State) (rl atomic : Bool) (sc : Scope) (pa n : Nat) :
    OnlyKnown s (s.writeAt rl atomic sc pa n) := by
  unfold State.writeAt
  dsimp only
  have h1 : OnlyKnown s (if atomic = true then { s with places := s.places.map (·.revive pa n) } else s) := by
    split
    · exact .of _ _ _ _
    · exact .refl s
  refine h1.trans ?_
  generalize (if atomic = true then _ else s) = u
  have h2 : OnlyKnown u (if rl = true then (u.releaseAt (.own u.myId) sc.toNat pa n).forget (.own u.myId) else u) := by
    split
    · exact (onlyKnown_releaseAt u _ _ _ _).trans (onlyKnown_forget _ _)
    · exact .refl u
  refine h2.trans (onlyKnown_foldl _ (fun v f => onlyKnown_releaseAt v _ _ _ _) _ _)
theorem onlyKnown_fence (s : State) (aq rl : Bool) (sc : Scope) : OnlyKnown s (s.fence aq rl sc) := by
  unfold State.fence
  dsimp only
  cases aq <;> cases rl
  · exact .refl s
  · exact onlyKnown_pass s _ _
  · exact onlyKnown_passIf s _ _
  · exact (onlyKnown_passIf s _ _).trans (onlyKnown_pass _ _ _)
/-- A write from a state that differs only in what is known gives a state that differs only in that. -/
theorem onlyKnown_pwrite {s t : State} (h : OnlyKnown s t) (w : Option Agent) (pa : Nat) (l : List Byte) :
    OnlyKnown (s.pwrite w pa l) (t.pwrite w pa l) := by
  obtain ⟨x, y, z, e, he, rfl⟩ := h; exact ⟨_, _, _, e, he, rfl⟩
theorem onlyKnown_wrote {s t : State} (h : OnlyKnown s t) : OnlyKnown s.wrote t.wrote := by
  obtain ⟨x, y, z, e, he, rfl⟩ := h; exact ⟨x, y, z, e, he, rfl⟩
theorem onlyKnown_setX {s t : State} (h : OnlyKnown s t) (d : Reg) (v : Word) : OnlyKnown (s.setX d v) (t.setX d v) := by
  obtain ⟨x, y, z, e, he, rfl⟩ := h; exact ⟨x, y, z, e, he, rfl⟩
theorem OnlyKnown.agent {s t : State} (h : OnlyKnown s t) : t.agent = s.agent := by obtain ⟨_, _, _, _, _, rfl⟩ := h; rfl

/-- A load that passes its checks. -/
theorem load_ok {s : State} {va : Word} {n pa : Nat} (h : s.dataPa va n .rd = .ok pa)
    (hp : isHost pa = true ∨ poisoned s.memPoison 64 pa n = false) :
    s.load va n = .ok (s.loadNat va.toNat pa n, s.loaded va.toNat pa n) := by
  unfold State.load
  rw [h]
  rcases hp with hp | hp <;> simp [hp]
/-- A store that passes its checks. -/
theorem store_ok {s : State} {va : Word} {n pa v : Nat} (h : s.dataPa va n .wr = .ok pa)
    (hp : isHost pa = true ∨ (s.part s.me.t.part).inPool pa n = false) :
    ∃ t, OnlyKnown (s.pwrite (some s.agent) pa (natLe n v)) t ∧ s.store va n v = .ok t.wrote := by
  refine ⟨((s.overEarly va.toNat pa n).pwrite (some s.agent) pa (natLe n v)).madeAt va.toNat pa n,
    (onlyKnown_pwrite (onlyKnown_overEarly s va.toNat pa n) _ _ _).trans (onlyKnown_madeAt _ _ _ _), ?_⟩
  unfold State.store
  rw [h]
  rcases hp with hp | hp <;> simp [hp]
theorem OnlyKnown.me {s t : State} (h : OnlyKnown s t) : t.me = s.me := by obtain ⟨_, _, _, _, _, rfl⟩ := h; rfl
/-- What an access is translated by: cached host pages and all but the model's record of knowledge. -/
theorem walk_known (s : State) (h : Sparse Hidden) (p : List RelPlace) (e : List EarlyRead) (f q va : Nat) :
    ∀ (l : List (Nat × Nat × Bool × Nat)) (bad : Bool) (base : Nat),
      ({ s with hidden := h, places := p, early := e } : State).walk f q va bad l base = s.walk f q va bad l base
  | [], _, _ => rfl
  | _ :: l, bad, base => by
    simp only [State.walk, walk_known s h p e f q va l]
    rfl
theorem dataPa_known (s : State) (h : Sparse Hidden) (p : List RelPlace) (e : List EarlyRead) (va : Word) (n : Nat) (a : Acc) :
    ({ s with hidden := h, places := p, early := e } : State).dataPa va n a = s.dataPa va n a := by
  simp only [State.dataPa, State.xlate, walk_known]
  rfl
/-- Early reads given up, and what is known then. -/
def OnlyEarly (s t : State) : Prop := ∃ h e, (∀ x ∈ e, x ∈ s.early) ∧ t = { s with hidden := h, early := e }
theorem OnlyEarly.refl (s : State) : OnlyEarly s s := ⟨_, _, fun _ h => h, rfl⟩
theorem OnlyEarly.known {s t : State} (h : OnlyEarly s t) : OnlyKnown s t := by
  obtain ⟨x, e, he, rfl⟩ := h; exact ⟨x, s.places, s.atc, e, he, rfl⟩
theorem OnlyEarly.trans {s t u : State} (h : OnlyEarly s t) (g : OnlyEarly t u) : OnlyEarly s u := by
  obtain ⟨_, _, hs, rfl⟩ := h; obtain ⟨x, e, gs, rfl⟩ := g; exact ⟨x, e, fun w hw => hs w (gs w hw), rfl⟩
theorem OnlyEarly.dataPa {s t : State} (h : OnlyEarly s t) (va : Word) (n : Nat) (a : Acc) : t.dataPa va n a = s.dataPa va n a := by
  obtain ⟨x, e, _, rfl⟩ := h; exact dataPa_known s x s.places e va n a
theorem onlyEarly_mapHidden (s : State) (f : HidWrite → HidWrite) : OnlyEarly s (s.mapHidden f) := by
  unfold State.mapHidden; split
  · exact .refl s
  · exact ⟨_, _, fun _ h => h, rfl⟩
theorem onlyEarly_dropEarly (s : State) (w : Agent) : OnlyEarly s (s.dropEarly w) := by
  unfold State.dropEarly; split
  · split
    · exact .refl s
    · exact OnlyEarly.trans ⟨_, _, fun _ h => (List.mem_filter.mp h).1, rfl⟩ (onlyEarly_mapHidden _ _)
  · exact .refl s
theorem onlyEarly_pass (s : State) (w v : Agent) : OnlyEarly s (s.pass w v) := by
  unfold State.pass State.passIf
  refine (onlyEarly_dropEarly s v).trans ?_
  dsimp only
  split
  · exact .refl _
  · exact onlyEarly_mapHidden _ _
theorem onlyEarly_setApart (s : State) (rl : Bool) : OnlyEarly s (s.setApart rl) := by
  unfold State.setApart; split
  · exact onlyEarly_pass s _ _
  · exact .refl s
theorem OnlyKnown.memPoison {s t : State} (h : OnlyKnown s t) : t.memPoison = s.memPoison := by
  obtain ⟨_, _, _, _, _, rfl⟩ := h; rfl
theorem OnlyKnown.part {s t : State} (h : OnlyKnown s t) (p : Nat) : t.part p = s.part p := by
  obtain ⟨_, _, _, _, _, rfl⟩ := h; rfl
/-- A load that its checks let pass: an acquiring one returns from no early read. -/
theorem ld_c {s : State} {o : LdOp} {n pa : Nat} {u : Bool} (hc : s.cRuns o.pr)
    (h : s.dataPa (s.me.xr o.a + immWord o.off) n .rd = .ok pa)
    (hp : isHost pa = true ∨ poisoned s.memPoison 64 pa n = false) :
    let b := if o.ord.getLsbD 0 then s.dropEarly s.agent else s
    ∃ t, OnlyKnown s t ∧ ld n u o s =
      .next ((t.setX o.d (ldExt n u (b.loadNat (s.me.xr o.a + immWord o.off).toNat pa n))).advance (immLen o.off)) := by
  intro b
  have hb : OnlyEarly s b := by
    show OnlyEarly s (if _ then _ else _)
    split
    · exact onlyEarly_dropEarly s _
    · exact .refl s
  have hl := load_ok (s := b) (by rw [hb.dataPa]; exact h) (by rw [hb.known.memPoison]; exact hp)
  unfold ld
  rw [instr_c hc]
  simp only []
  change ∃ t, _ ∧ Host.Outcome.next (s.settleRes _ (Chk.then (b.load _ n) _)) = _
  rw [hl]
  simp only [chk_then_ok, settleRes_done]
  refine ⟨_, ?_, rfl⟩
  refine hb.known.trans ((onlyKnown_loaded b (s.me.xr o.a + immWord o.off).toNat pa n).trans ?_)
  exact .ite (.refl _) (onlyKnown_readAt _ _ _ _ _)
theorem st_c {s : State} {o : StOp} {n pa : Nat} (hc : s.cRuns o.pr)
    (h : s.dataPa (s.me.xr o.a + immWord o.off) n .wr = .ok pa)
    (hp : isHost pa = true ∨ (s.part s.me.t.part).inPool pa n = false) :
    ∃ t, OnlyKnown (s.pwrite (some s.agent) pa (natLe n (s.me.xr o.b).toNat)).wrote t ∧
      st n o s = .next (t.advance (immLen o.off)) := by
  have hb := onlyEarly_setApart s (o.ord.getLsbD 1)
  obtain ⟨u, hu, he⟩ := store_ok (s := s.setApart (o.ord.getLsbD 1)) (v := (s.me.xr o.b).toNat)
    (by rw [hb.dataPa]; exact h) (by rw [hb.known.me, hb.known.part]; exact hp)
  rw [hb.known.agent] at hu
  refine ⟨_, (onlyKnown_wrote ((onlyKnown_pwrite hb.known (some s.agent) pa _).trans hu)).trans
    (onlyKnown_writeAt _ (o.ord.getLsbD 1) false o.scope (s.paOf (s.me.xr o.a + immWord o.off) n .wr) n), ?_⟩
  unfold st
  rw [instr_c hc]
  simp only [he, chk_then_ok, settleRes_done]
/-- An atomic that passes its checks. -/
theorem atomic_ok {s : State} {d : Reg} {va : Word} {ord : BitVec 2} {sc : Scope} {dbl : Bool} {f : Nat → Option Nat} {pa : Nat}
    (h : s.dataPa va (atomSize dbl) .rw = .ok pa) (hh : isHost pa = false)
    (hq : (s.part s.me.t.part).inPool pa (atomSize dbl) = false) (hp : poisoned s.memPoison 64 pa (atomSize dbl) = false) :
    ∃ t, OnlyKnown (match f (s.mem.nat pa (atomSize dbl)) with
        | some v => (s.pwrite (some s.agent) pa (natLe (atomSize dbl) v)).wrote
        | none => s) t ∧
      atomic d va ord sc dbl f s = .done (t.setX d (ldExt (atomSize dbl) false (s.mem.nat pa (atomSize dbl)))) := by
  unfold atomic
  simp only [h, chk_then_ok, hh, hq, hp, Bool.false_eq_true, if_false]
  have hob := (onlyKnown_setApart s (ord.getLsbD 1)).trans ((onlyKnown_observe _ s.agent pa (atomSize dbl)).trans
    (onlyKnown_readAt _ (ord.getLsbD 0) sc pa (atomSize dbl)))
  cases hf : f (s.mem.nat pa (atomSize dbl)) with
  | none => exact ⟨_, hob.trans (onlyKnown_forget _ _), rfl⟩
  | some v =>
    refine ⟨_, ?_, rfl⟩
    rw [hob.agent]
    exact (onlyKnown_wrote ((onlyKnown_pwrite hob (some s.agent) pa (natLe (atomSize dbl) v)).trans
      (onlyKnown_madeAt _ _ _ _))).trans (onlyKnown_writeAt _ _ _ _ _ _)

end Sys2Proof.Machine
end

