-- ==== Sys2Proof/Laws/Scalar.lean ====
section
/-! SUPPORT. The integer operations of R165 to R167 as arithmetic. -/

namespace Sys2Proof.Machine

theorem opShl_eq (a b : Word) : opShl a b = BitVec.ofNat 64 (a.toNat * 2 ^ (b.toNat % 64)) := by
  apply BitVec.eq_of_toNat_eq; simp [opShl, shAmt, Nat.shiftLeft_eq]
theorem opShr_eq (a b : Word) : opShr a b = BitVec.ofNat 64 (a.toNat / 2 ^ (b.toNat % 64)) := by
  apply BitVec.eq_of_toNat_eq
  simp only [opShr, shAmt, BitVec.toNat_ushiftRight, Nat.shiftRight_eq_div_pow, BitVec.toNat_ofNat]
  exact (Nat.mod_eq_of_lt (lt_of_le_of_lt (Nat.div_le_self _ _) a.isLt)).symm
theorem opSra_eq (a b : Word) : opSra a b = BitVec.ofInt 64 (a.toInt / 2 ^ (b.toNat % 64)) := by
  simp [opSra, shAmt, BitVec.sshiftRight, Int.shiftRight_eq_div_pow]
theorem opMin_eq (a b : Word) : opMin a b = BitVec.ofInt 64 (min a.toInt b.toInt) := by
  unfold opMin; rw [BitVec.slt_eq_decide]; split <;> rename_i h <;> simp at h
  · rw [min_eq_left h.le, BitVec.ofInt_toInt]
  · rw [min_eq_right h, BitVec.ofInt_toInt]
theorem opMax_eq (a b : Word) : opMax a b = BitVec.ofInt 64 (max a.toInt b.toInt) := by
  unfold opMax; rw [BitVec.slt_eq_decide]; split <;> rename_i h <;> simp at h
  · rw [max_eq_right h.le, BitVec.ofInt_toInt]
  · rw [max_eq_left h, BitVec.ofInt_toInt]
theorem opMinu_eq (a b : Word) : opMinu a b = BitVec.ofNat 64 (min a.toNat b.toNat) := by
  unfold opMinu; rw [BitVec.ult_eq_decide]; split <;> rename_i h <;> simp at h
  · rw [min_eq_left h.le, BitVec.ofNat_toNat, BitVec.setWidth_eq]
  · rw [min_eq_right h, BitVec.ofNat_toNat, BitVec.setWidth_eq]
theorem opMaxu_eq (a b : Word) : opMaxu a b = BitVec.ofNat 64 (max a.toNat b.toNat) := by
  unfold opMaxu; rw [BitVec.ult_eq_decide]; split <;> rename_i h <;> simp at h
  · rw [max_eq_right h.le, BitVec.ofNat_toNat, BitVec.setWidth_eq]
  · rw [max_eq_left h, BitVec.ofNat_toNat, BitVec.setWidth_eq]

theorem opRol_eq (a b : Word) :
    opRol a b = BitVec.ofNat 64 (a.toNat * 2 ^ (b.toNat % 64) + a.toNat / 2 ^ (64 - b.toNat % 64)) := by
  have hn : b.toNat % 64 < 64 := Nat.mod_lt _ (by omega)
  unfold opRol shAmt
  generalize b.toNat % 64 = n at *
  apply BitVec.eq_of_toNat_eq
  rw [BitVec.rotateLeft_def, Nat.mod_eq_of_lt hn, BitVec.toNat_or]
  simp only [BitVec.toNat_shiftLeft, BitVec.toNat_ushiftRight, Nat.shiftLeft_eq, Nat.shiftRight_eq_div_pow, BitVec.toNat_ofNat]
  have ha := a.isLt
  have hlt : a.toNat / 2 ^ (64 - n) < 2 ^ n := by
    rw [Nat.div_lt_iff_lt_mul (by positivity), ← pow_add]; convert ha using 2; omega
  have hm : a.toNat * 2 ^ n % 2 ^ 64 = 2 ^ n * (a.toNat % 2 ^ (64 - n)) := by
    rw [show (2:Nat)^64 = 2^n * 2^(64-n) by rw [← pow_add]; congr 1; omega, Nat.mul_comm a.toNat, Nat.mul_mod_mul_left]
  have hor : 2 ^ n * (a.toNat % 2 ^ (64 - n)) ||| a.toNat / 2 ^ (64 - n) = 2 ^ n * (a.toNat % 2 ^ (64 - n)) + a.toNat / 2 ^ (64 - n) :=
    (Nat.two_pow_add_eq_or_of_lt hlt _).symm
  rw [hm, hor, Nat.add_mod, hm]
  have : 2 ^ n * (a.toNat % 2 ^ (64 - n)) + a.toNat / 2 ^ (64 - n) < 2 ^ 64 := by
    have h2 : a.toNat % 2 ^ (64 - n) + 1 ≤ 2 ^ (64 - n) := Nat.mod_lt _ (by positivity)
    calc _ < 2 ^ n * (a.toNat % 2 ^ (64 - n)) + 2 ^ n := by omega
      _ = 2 ^ n * (a.toNat % 2 ^ (64 - n) + 1) := by ring
      _ ≤ 2 ^ n * 2 ^ (64 - n) := Nat.mul_le_mul_left _ h2
      _ = 2 ^ 64 := by rw [← pow_add]; congr 1; omega
  rw [Nat.mod_eq_of_lt (lt_of_lt_of_le hlt (Nat.pow_le_pow_right (by omega) hn.le)), Nat.mod_eq_of_lt this]
theorem opMulh_eq (a b : Word) : opMulh a b = BitVec.ofInt 64 (a.toInt * b.toInt / 2 ^ 64) := rfl
theorem divOvf_iff (a b : Word) : divOvf a b = true ↔ a.toInt = -2 ^ 63 ∧ b.toInt = -1 := by
  simp only [divOvf, Bool.and_eq_true, beq_iff_eq, ← BitVec.toInt_inj]
  exact Iff.rfl
theorem opDiv_eq (a b : Word) : opDiv a b =
    if b = 0 then (BitVec.ofInt 64 (-1), flDZ)
    else if a.toInt = -2 ^ 63 ∧ b.toInt = -1 then (a, flOF) else (BitVec.ofInt 64 (a.toInt.tdiv b.toInt), 0) := by
  unfold opDiv
  split
  · rfl
  · by_cases h : divOvf a b = true
    · rw [if_pos h, if_pos ((divOvf_iff a b).1 h)]
      simp only [divOvf, Bool.and_eq_true, beq_iff_eq] at h
      rw [h.1]
    · rw [if_neg h, if_neg (fun h' => h ((divOvf_iff a b).2 h'))]
      rw [← BitVec.ofInt_toInt (x := a.sdiv b), BitVec.toInt_sdiv]
      congr 1
      apply BitVec.eq_of_toInt_eq
      simp
theorem opRem_eq (a b : Word) : opRem a b =
    if b = 0 then (a, flDZ)
    else if a.toInt = -2 ^ 63 ∧ b.toInt = -1 then (0, flOF) else (BitVec.ofInt 64 (a.toInt.tmod b.toInt), 0) := by
  unfold opRem
  split
  · rfl
  · by_cases h : divOvf a b = true
    · rw [if_pos h, if_pos ((divOvf_iff a b).1 h)]
    · rw [if_neg h, if_neg (fun h' => h ((divOvf_iff a b).2 h'))]
      rw [← BitVec.toInt_srem, BitVec.ofInt_toInt]
theorem opDivu_eq (a b : Word) : opDivu a b =
    if b = 0 then (BitVec.ofInt 64 (-1), flDZ) else (BitVec.ofNat 64 (a.toNat / b.toNat), 0) := by
  unfold opDivu; split
  · rfl
  · congr 1; apply BitVec.eq_of_toNat_eq; simp; exact (Nat.mod_eq_of_lt (lt_of_le_of_lt (Nat.div_le_self _ _) a.isLt)).symm
theorem opRemu_eq (a b : Word) : opRemu a b = if b = 0 then (a, flDZ) else (BitVec.ofNat 64 (a.toNat % b.toNat), 0) := by
  unfold opRemu; split
  · rfl
  · congr 1; apply BitVec.eq_of_toNat_eq; simp; exact (Nat.mod_eq_of_lt (lt_of_le_of_lt (Nat.mod_le _ _) a.isLt)).symm

theorem wordBits_length (a : Word) : (wordBits a).length = 64 := by simp [wordBits]
theorem wordBits_get (a : Word) (i : Nat) (h : i < 64) : (wordBits a)[i]? = some (a.getLsbD i) := by
  simp [wordBits, h]
theorem opPopc_eq (a : Word) : opPopc a = BitVec.ofNat 64 ((List.range 64).countP fun i => a.getLsbD i) := by
  simp only [opPopc, wordBits, ← List.countP_eq_length_filter, List.countP_map]; rfl
theorem bitsWord_testBit (l : List Bool) (i : Nat) : (bitsWord l).testBit i = (l[i]?).getD false := by
  induction l generalizing i with
  | nil => simp [bitsWord]
  | cons b t ih =>
    have hb : bitsWord (b :: t) = b2n b + 2 * bitsWord t := rfl
    rw [hb]
    cases i with
    | zero => cases b <;> simp [b2n, Nat.testBit_zero, Nat.add_mod]
    | succ i => cases b <;> simp [b2n, Nat.testBit_succ, ih, Nat.add_div] 
theorem opBrev_bit (a : Word) (i : Nat) (h : i < 64) : (opBrev a).getLsbD i = a.getLsbD (63 - i) := by
  simp only [opBrev, BitVec.getLsbD_ofNat, bitsWord_testBit, h, decide_true, Bool.true_and]
  rw [List.getElem?_reverse (by simp [wordBits_length, h]), wordBits_length, wordBits_get _ _ (by omega)]
  rfl
/-- The number of leading elements that `p` holds of is `n`: it holds of the first n and not of the next. -/
theorem takeWhile_length_spec {α : Type} (p : α → Bool) (l : List α) :
    (l.takeWhile p).length ≤ l.length ∧ (∀ i, i < (l.takeWhile p).length → ∀ x, l[i]? = some x → p x = true) ∧
    (∀ x, l[(l.takeWhile p).length]? = some x → p x = false) := by
  induction l with
  | nil => simp
  | cons a t ih =>
    simp only [List.takeWhile_cons]
    split
    · next h =>
      refine ⟨by simpa using ih.1, ?_, by simpa using ih.2.2⟩
      intro i hi x hx
      cases i with
      | zero => simp at hx; exact hx ▸ h
      | succ i => exact ih.2.1 i (by simpa using hi) x (by simpa using hx)
    · next h => simpa using h
theorem opCtz_spec (a : Word) : ∃ n : Nat, opCtz a = BitVec.ofNat 64 n ∧ n ≤ 64 ∧ (∀ i, i < n → a.getLsbD i = false) ∧
    (n < 64 → a.getLsbD n = true) := by
  obtain ⟨h1, h2, h3⟩ := takeWhile_length_spec (!·) (wordBits a)
  rw [wordBits_length] at h1
  refine ⟨_, rfl, h1, fun i hi => ?_, fun hn => ?_⟩
  · simpa using h2 i hi _ (wordBits_get a i (by omega))
  · simpa using h3 _ (wordBits_get a _ hn)
theorem opClz_spec (a : Word) : ∃ n : Nat, opClz a = BitVec.ofNat 64 n ∧ n ≤ 64 ∧ a.toNat < 2 ^ (64 - n) ∧
    (n < 64 → 2 ^ (63 - n) ≤ a.toNat) := by
  obtain ⟨h1, h2, h3⟩ := takeWhile_length_spec (!·) (wordBits a).reverse
  rw [List.length_reverse, wordBits_length] at h1
  have hg : ∀ i, i < 64 → (wordBits a).reverse[i]? = some (a.getLsbD (63 - i)) := fun i hi => by
    rw [List.getElem?_reverse (by simp [wordBits_length, hi]), wordBits_length, wordBits_get _ _ (by omega)]
  refine ⟨_, rfl, h1, ?_, fun hn => ?_⟩
  · generalize ((wordBits a).reverse.takeWhile (!·)).length = n at *
    by_contra hc
    obtain ⟨i, hi, hb⟩ := Nat.exists_ge_and_testBit_of_ge_two_pow (not_lt.1 hc)
    have hi64 : i < 64 := by
      by_contra h; have := BitVec.getLsbD_of_ge a i (by omega); rw [BitVec.getLsbD] at this; simp_all
    have := h2 (63 - i) (by omega) _ (hg (63 - i) (by omega))
    rw [show 63 - (63 - i) = i by omega] at this
    simp [BitVec.getLsbD, hb] at this
  · have := h3 _ (hg _ hn)
    simp only [Bool.not_eq_eq_eq_not, Bool.not_false] at this
    exact Nat.ge_two_pow_of_testBit this

end Sys2Proof.Machine
end

