-- ==== Sys2Proof/Laws/Trace.lean ====
section
/-! SUPPORT. What trace records, memory writes and events leave of the slots: everything but the monitors (R383). With it:
an instruction of the V stream that completes keeps its engine. -/

namespace Sys2Proof.Machine

theorem Sparse.get_map {α : Type} (d : α) (m : Sparse α) (g : Nat → α → α) (n : Nat) (h : g n d = d) :
    Sparse.get d (m.map fun (k, v) => (k, g k v)) n = g n (Sparse.get d m n) := by
  induction m with
  | nil => simp [Sparse.get, h]
  | cons e t ih =>
    obtain ⟨k, v⟩ := e
    simp only [List.map_cons, Sparse.get]
    split
    · next hk => rw [hk]
    · exact ih

/-- t's slots are s's but for the monitors, and t's current stream is s's. -/
def SameSlots (s t : State) : Prop :=
  t.cur = s.cur ∧ ∀ c k, { t.slotAt c k with mon := (s.slotAt c k).mon } = s.slotAt c k

theorem SameSlots.refl (s : State) : SameSlots s s := ⟨rfl, fun _ _ => rfl⟩
theorem SameSlots.trans {s t u : State} (h : SameSlots s t) (g : SameSlots t u) : SameSlots s u := by
  refine ⟨g.1.trans h.1, fun c k => ?_⟩
  have h1 := h.2 c k
  have h2 := g.2 c k
  rw [← h1, ← h2]
theorem SameSlots.of_cores {s t : State} (h : t.cur = s.cur) (hc : t.cores = s.cores) : SameSlots s t := by
  refine ⟨h, fun c k => ?_⟩
  have : t.slotAt c k = s.slotAt c k := by simp [State.slotAt, State.core, hc]
  rw [this]
/-- One fact about a slot, its monitor apart, goes over. -/
theorem SameSlots.slot {s t : State} (h : SameSlots s t) (c k : Nat) :
    t.slotAt c k = { s.slotAt c k with mon := (t.slotAt c k).mon } := by
  rw [← h.2 c k]

theorem sameSlots_wake (s : State) (pa n : Nat) : SameSlots s (s.wake pa n) := by
  refine ⟨rfl, fun c k => ?_⟩
  have : (s.wake pa n).slotAt c k =
      (fun sl : Slot => if (sl.mon.armed && decide (sl.mon.pa * 64 < pa + n ∧ pa < (sl.mon.pa + 1) * 64)) = true
        then { sl with mon := { sl.mon with written := true } } else sl) (s.slotAt c k) := by
    simp only [State.slotAt, State.core, State.wake, Core.slot]
    rw [Sparse.get_map Core.reset s.cores (fun _ co => { co with slots := co.slots.map fun (k, sl) => (k, if (sl.mon.armed &&
      decide (sl.mon.pa * 64 < pa + n ∧ pa < (sl.mon.pa + 1) * 64)) = true then { sl with mon := { sl.mon with written := true } } else sl) })
      c rfl]
    rw [Sparse.get_map Slot.reset _ (fun _ sl => if (sl.mon.armed && decide (sl.mon.pa * 64 < pa + n ∧
      pa < (sl.mon.pa + 1) * 64)) = true then { sl with mon := { sl.mon with written := true } } else sl) k rfl]
    rfl
  rw [this]
  dsimp only
  split <;> rfl
theorem sameSlots_pwrite (s : State) (w : Option Agent) (pa : Nat) (l : List Byte) : SameSlots s (s.pwrite w pa l) :=
  (sameSlots_wake s pa l.length).trans (.of_cores rfl rfl)
theorem sameSlots_pwrites (s : State) (w : Option Agent) (ps : List (Nat × Nat)) (l : List Byte) :
    SameSlots s (s.pwrites w ps l) := by
  induction ps generalizing s l with
  | nil => exact .refl s
  | cons p t ih => obtain ⟨pa, n⟩ := p; exact (sameSlots_pwrite s w pa _).trans (ih _ _)
theorem sameSlots_event (s : State) (f kind core : Nat) : SameSlots s (s.event f kind core) := .of_cores rfl rfl
theorem sameSlots_ringWrite (s : State) (f va : Nat) (l : List Byte) : SameSlots s (s.ringWrite f va l) := by
  unfold State.ringWrite
  split
  · exact sameSlots_event s f 6 0
  · split
    · exact sameSlots_pwrites s none _ l
    · exact sameSlots_event s f 6 0
theorem sameSlots_trace (s : State) (c k kind : Nat) (st : Strm) (code data : Nat) : SameSlots s (s.trace c k kind st code data) := by
  unfold State.trace
  split
  · exact .refl s
  · dsimp only
    split
    · exact .refl s
    · exact .of_cores rfl rfl
theorem sameSlots_loopExits (s : State) (c k : Nat) (st : Strm) (ls : List HwLoop) : SameSlots s (s.loopExits c k st ls) := by
  unfold State.loopExits
  induction ls generalizing s with
  | nil => exact .refl s
  | cons l t ih => exact (sameSlots_trace s c k 9 st 0 _).trans (ih _)

theorem Slot.setStage_vs (sl : Slot) (st : Strm) (i : Nat) (b : Bool) : (sl.setStage st i b).vs = sl.vs := by
  unfold Slot.setStage; split <;> simp
theorem Slot.startPass_vs (sl : Slot) (st : Strm) (l : HwLoop) : (sl.startPass st l).vs = sl.vs := by
  unfold Slot.startPass
  split
  · rfl
  · generalize List.range l.stages = r
    induction r generalizing sl with
    | nil => rfl
    | cons a t ih => rw [List.foldl_cons, ih, Slot.setStage_vs]

/-- Going on at the next word ends no V stream and leaves it unheld. -/
theorem State.advance_vs (s : State) (len : Nat) (h : s.cur.strm = .v) :
    (s.advance len).cur = s.cur ∧ ((s.advance len).slotAt s.cur.core s.cur.slot).vs.ended = s.me.vs.ended ∧
    ((s.advance len).slotAt s.cur.core s.cur.slot).vs.stopped = s.me.vs.stopped ∧
    ((s.advance len).slotAt s.cur.core s.cur.slot).vs.heldAt = s.me.vs.heldAt ∧
    ((s.advance len).slotAt s.cur.core s.cur.slot).vs.waiting = none := by
  unfold State.advance
  dsimp only
  generalize passEnds _ _ _ = r
  refine ⟨(sameSlots_loopExits _ _ _ _ _).1, ?_⟩
  rw [(sameSlots_loopExits _ _ _ _ _).slot]
  simp only [State.slotAt_modMe, and_self, if_true, h]
  cases r.starts <;> simp [Slot.startPass_vs, Slot.modSs, Slot.setSs, Slot.ss]

theorem State.vTenure_keep {s : State} {c k : Nat} (h1 : (s.slotAt c k).vs.waiting = none) (h2 : (s.slotAt c k).vs.ended = false)
    (h3 : (s.slotAt c k).vs.stopped = false) (h4 : (s.slotAt c k).vs.heldAt = none) : s.vTenure c k = s := by
  simp [State.vTenure, h1, h2, h3, h4]

/-- A completed instruction of the V stream. -/
theorem finish_v_done {s t : State} {len : Nat} (h : s.vRuns) (hc : t.cur = s.cur) (h1 : t.me.vs.ended = s.me.vs.ended)
    (h2 : t.me.vs.stopped = s.me.vs.stopped) (h3 : t.me.vs.heldAt = s.me.vs.heldAt) :
    s.finish len (.done t) = t.advance len := by
  have ha := t.advance_vs len (by rw [hc]; exact h.1)
  rw [hc] at ha
  simp only [State.finish, h.1, if_true, settleRes_done]
  exact State.vTenure_keep ha.2.2.2.2 (by rw [ha.2.1, h1, h.2.1]) (by rw [ha.2.2.1, h2, h.2.2.1]) (by rw [ha.2.2.2.1, h3, h.2.2.2])
/-- A branch of the V stream ends no V stream either. -/
theorem State.jumpTo_vs (s : State) (pc : Word) (h : s.cur.strm = .v) :
    ((s.jumpTo pc).slotAt s.cur.core s.cur.slot).vs.ended = s.me.vs.ended ∧
    ((s.jumpTo pc).slotAt s.cur.core s.cur.slot).vs.stopped = s.me.vs.stopped ∧
    ((s.jumpTo pc).slotAt s.cur.core s.cur.slot).vs.heldAt = s.me.vs.heldAt ∧
    ((s.jumpTo pc).slotAt s.cur.core s.cur.slot).vs.waiting = none := by
  unfold State.jumpTo
  dsimp only
  rw [(sameSlots_loopExits _ _ _ _ _).slot]
  simp [State.slotAt_modMe, h, Slot.modSs, Slot.setSs, Slot.ss]
theorem finish_v_jump {s t : State} {len : Nat} {pc : Word} (h : s.vRuns) (hc : t.cur = s.cur)
    (h1 : t.me.vs.ended = s.me.vs.ended) (h2 : t.me.vs.stopped = s.me.vs.stopped) (h3 : t.me.vs.heldAt = s.me.vs.heldAt) :
    s.finish len (.jump t pc) = t.jumpTo pc := by
  have ha := t.jumpTo_vs pc (by rw [hc]; exact h.1)
  rw [hc] at ha
  simp only [State.finish, h.1, if_true, settleRes_jump]
  exact State.vTenure_keep ha.2.2.2 (by rw [ha.1, h1, h.2.1]) (by rw [ha.2.1, h2, h.2.2.1]) (by rw [ha.2.2.1, h3, h.2.2.2])
theorem instrAlways_v {len : Nat} {body : State → Res} {s : State} : instrAlways len body s = .next (s.finish len (body s)) := rfl
theorem instr_v {pr : Pred} {len : Nat} {body : State → Res} {s : State} (h : s.vRuns) :
    instr pr len body s = .next (s.finish len (body s)) := by
  simp [instr, h.1]

/-! ### Counters and tenures -/

theorem slotAt_modCore {s : State} {c : Nat} {f : Core → Core} (h : ∀ co, (f co).slots = co.slots) (c' k : Nat) :
    (s.modCore c f).slotAt c' k = s.slotAt c' k := by
  simp only [State.slotAt, State.core_modCore]
  split
  · next hc => subst hc; simp [Core.slot, h]
  · rfl
@[simp] theorem State.slotAt_count (s : State) (c ev : Nat) (slot : Option Nat) (n c' k : Nat) :
    (s.count c ev slot n).slotAt c' k = s.slotAt c' k := by
  unfold State.count; rw [slotAt_modCore]; intro co; rfl
@[simp] theorem State.slotAt_modEng (s : State) (c : Nat) (e : Engine) (f : EngineSt → EngineSt) (c' k : Nat) :
    (s.modEng c e f).slotAt c' k = s.slotAt c' k := by
  unfold State.modEng; rw [slotAt_modCore]; intro co; cases e <;> rfl
@[simp] theorem State.count_cur (s : State) (c ev : Nat) (slot : Option Nat) (n : Nat) : (s.count c ev slot n).cur = s.cur := rfl
@[simp] theorem State.modEng_cur (s : State) (c : Nat) (e : Engine) (f : EngineSt → EngineSt) : (s.modEng c e f).cur = s.cur := rfl
/-- The end of a tenure changes a slot's compensation and nothing else of the slots. -/
theorem State.endTenure_slot (s : State) (c k : Nat) (e : Engine) (c' k' : Nat) :
    (s.endTenure c k e).slotAt c' k' = { s.slotAt c' k' with comp := ((s.endTenure c k e).slotAt c' k').comp } := by
  unfold State.endTenure
  dsimp only
  split
  · rfl
  · simp only [State.slotAt_modEng, State.slotAt_modSlot]
    split <;> split <;> simp_all
@[simp] theorem State.endTenure_cur (s : State) (c k : Nat) (e : Engine) : (s.endTenure c k e).cur = s.cur := by
  unfold State.endTenure; dsimp only; split
  · rfl
  · simp only [State.modEng_cur, State.modSlot_cur]; split <;> rfl
theorem State.vTenure_slot (s : State) (c k c' k' : Nat) :
    (s.vTenure c k).slotAt c' k' = { s.slotAt c' k' with comp := ((s.vTenure c k).slotAt c' k').comp } := by
  unfold State.vTenure; dsimp only; split
  · exact s.endTenure_slot c k .vxe c' k'
  · rfl
@[simp] theorem State.vTenure_cur (s : State) (c k : Nat) : (s.vTenure c k).cur = s.cur := by
  unfold State.vTenure; dsimp only; split <;> simp

/-! ### The current slot afterwards -/

theorem State.me_vTenure (s : State) (c k : Nat) : (s.vTenure c k).me = { s.me with comp := (s.vTenure c k).me.comp } := by
  simp only [State.me, State.vTenure_cur]
  exact s.vTenure_slot c k _ _
theorem SameSlots.me {s t : State} (h : SameSlots s t) : t.me = { s.me with mon := t.me.mon } := by
  simp only [State.me, h.1]
  exact h.slot _ _
theorem State.me_trace (s : State) (c k kind : Nat) (st : Strm) (code data : Nat) :
    (s.trace c k kind st code data).me = { s.me with mon := (s.trace c k kind st code data).me.mon } :=
  (sameSlots_trace s c k kind st code data).me
@[simp] theorem State.trace_cur (s : State) (c k kind : Nat) (st : Strm) (code data : Nat) :
    (s.trace c k kind st code data).cur = s.cur := (sameSlots_trace s c k kind st code data).1
@[simp] theorem State.jumpTo_cur (s : State) (pc : Word) : (s.jumpTo pc).cur = s.cur := (sameSlots_loopExits _ _ _ _ _).1
@[simp] theorem State.advance_cur (s : State) (len : Nat) : (s.advance len).cur = s.cur := (sameSlots_loopExits _ _ _ _ _).1
/-- A branch changes the stream's place and loops, and nothing else of its slot but the monitor. -/
theorem State.me_jumpTo (s : State) (pc : Word) : (s.jumpTo pc).me =
    { (s.me.modSs s.cur.strm fun ss => { ss with pc := pc, loops := (leaveLoops pc (s.me.ss s.cur.strm).loops).1, waiting := none, resolved := [], atStop := false })
      with mon := (s.jumpTo pc).me.mon } := by
  refine (sameSlots_loopExits _ _ _ _ _).me.trans ?_
  rw [State.me_modMe]
  rfl

end Sys2Proof.Machine
end

