-- ==== Sys2Proof/Tests/Slice0.lean ====
section
/-! SUPPORT. Tests: words written from the manual's layouts, ill-formed terms that the checks refuse, single steps with results from the
manual's worked examples or worked by hand, and for each obligation with hypotheses (its name after `wit_`) a state and operands that meet
those of each of its clauses. -/

namespace Sys2Proof.Tests
open Sys2Proof Sys2Proof.Machine
set_option Elab.async false

/-- A state in which the C stream of slot 0 of core 0 is about to execute, with the first GiB mapped. -/
def sC : State := State.reset.withFetchWord 32 0x1DC
/-- The same with the V stream, which stands at the start of its task's image. -/
def sV : State :=
  ({ sC with cur := ⟨0, 0, .v⟩ } : State).modMe fun sl => { sl with vs := { sl.vs with pc := 0, ended := false, stopped := false, heldAt := none } }
def ty : Pred := ⟨0, false⟩
/-- A loop of two instructions and two stages, in its first pass. -/
def lp2 : HwLoop :=
  { id := 1, start := 0x100, stop := 0x108, stages := 2, base := 1, np := false, total := 5, limit := 5, pass := 0, remain := 0,
    cut := false, iters := 0, rowSums := [], colSums := [] }
def px (s : State) (r : Nat) (v : Word) : State := s.modMe fun sl => sl.setX (BitVec.ofNat 5 r) v
/-- Tile a of core 0. -/
def tl (s : State) (a : Nat) (t : Tile) : State := s.putTile 0 a t
def home : Tile := { Tile.reset with valid := true, home := true, size := 16 }

theorem wit_IntegerArithmeticResults : sC.cRuns ty := by repeat' constructor
theorem wit_FieldConstantCompareResults : sC.cRuns ⟨3, true⟩ := by repeat' constructor
theorem wit_ScalarFpResults : (sC.setP 3 true).cRuns ⟨3, false⟩ := by repeat' constructor
theorem wit_BranchResults : sC.cRuns ty ∧ sC.cSkips ⟨0, true⟩ ∧ sV.vRuns ∧ sC.me.cs.loops = [] ∧
    (sC.modMe fun sl => { sl with cs := { sl.cs with loops := [lp2] } }).me.cs.loops = lp2 :: [] := by
  repeat' apply And.intro
  all_goals decide +kernel
/-- No loop and a count of 0; three loops and the last address of the innermost. -/
theorem wit_HardwareLoopStarts :
    let t := sC.modMe fun sl => { sl with cs := { sl.cs with pc := 0x100, loops := [lp2, lp2, lp2] } }
    (sC.cur.strm = .c ∧ sC.me.cs.loops.length < 4 ∧ (sC.me.regLit (.reg 0)).toNat = 0) ∧
    (t.me.cs.loops.length < 4 ∧ (t.me.cs.pc + BitVec.ofNat 64 4).toNat + 4 * 1 ≤ lp2.stop.toNat ∧
      (t.me.regLit (.lit 0xFFFFFFFF)).toNat < 2 ^ 32) ∧
    (sV.vRuns ∧ sV.cur.strm = .v ∧ sV.me.vpoisoned 31 0 4 = false ∧ VWord.nat (sV.me.vr 31) 0 4 = 0) := by
  repeat' apply And.intro
  all_goals decide +kernel
/-- A device access at the last doubleword of the mapped GiB, and a home access at the region's last byte. -/
theorem wit_LoadAndStoreResults :
    let t := px sC 1 0x3FFFFFF0
    (t.cRuns ty ∧ t.dataPa (t.me.xr 1 + immWord (.i16 8)) 8 .rd = .ok 0x3FFFFFF8 ∧ poisoned t.memPoison 64 0x3FFFFFF8 8 = false) ∧
    (t.dataPa (t.me.xr 1 + immWord (.i16 8)) 8 .wr = .ok 0x3FFFFFF8 ∧ (t.part t.me.t.part).inPool 0x3FFFFFF8 8 = false) ∧
    (let e : EarlyRead := ⟨0, 0, 0x3FFFFFF8, 0x3FFFFFF8, 7, []⟩
     t.earlyAt 0x3FFFFFF8 8 = none ∧ ({ t with early := [e] } : State).earlyAt 0x3FFFFFFF 1 = some e) ∧
    ((t.me.xr 0 + BitVec.ofInt 64 (0x3FFFF : Int)).toNat = 0x3FFFF ∧ 0x3FFFF % 1 = 0 ∧
      (t.core t.cur.core).spoisoned (0x40000 * t.cur.slot + 0x3FFFF) 1 = false) := by
  repeat' apply And.intro
  all_goals decide +kernel
/-- Misaligned and unmapped addresses, a poisoned granule, the launch pool; home offsets past the end, misaligned and poisoned. -/
theorem wit_AccessFaults :
    let t := px sC 1 0x40000001
    let u := px sC 1 0x100000
    (t.cRuns ty ∧ (t.me.xr 1 + immWord (.i16 0)).toNat % 2 ≠ 0 ∧ (t.me.xr 1).toNat % 8 ≠ 0) ∧
    (t.xlate (some t.cur.core) t.me.t.fn t.me.t.part 0x40000001 .rd = .error fPage ∧ 0x40000000 % 8 = 0 ∧
      t.xlate (some t.cur.core) t.me.t.fn t.me.t.part 0x40000000 .wr = .error fPage) ∧
    (u.dataPa (u.me.xr 1 + immWord (.i16 0)) 8 .rd = .ok 0x100000 ∧ u.dataPa (u.me.xr 1 + immWord (.i16 0)) 8 .wr = .ok 0x100000 ∧
      isHost 0x100000 = false ∧ poisoned ({ u with memPoison := [0x4000] } : State).memPoison 64 0x100000 8 = true ∧
      ({ u with memPoison := [0x4000] } : State).dataPa 0x100000 8 .rd = .ok 0x100000 ∧
      (u.modPart 0 fun q => { q with poolBase := 0x100000 }).dataPa 0x100000 8 .wr = .ok 0x100000 ∧
      ((u.modPart 0 fun q => { q with poolBase := 0x100000 }).part u.me.t.part).inPool 0x100000 8 = true) ∧
    (0x40000 ≤ ((px t 2 0x40000).me.xr 2 + BitVec.ofInt 64 0).toNat ∧ ((px t 2 0x3FFFF).me.xr 2 + BitVec.ofInt 64 0).toNat % 2 ≠ 0 ∧
      ((t.modCore 0 fun co => { co with scratchPoison := [0x7FFF] }).core 0).spoisoned (0x40000 * 0 + 0x3FFF8) 8 = true) := by
  repeat' apply And.intro
  all_goals decide +kernel
/-- An atomic whose value is found and one whose value is not; each way a wait on a monitor ends, with a deadline at the present. -/
theorem wit_AtomicFenceMonitorResults :
    let t := px sC 1 0x100000
    let m (f : Monitor → Monitor) : State := { t.modMe fun sl => { sl with mon := f { sl.mon with armed := true } } with time := 8000 }
    (t.cRuns ty ∧ t.dataPa (t.me.xr 1 + BitVec.ofInt 64 (0 : Int)) 8 .rw = .ok 0x100000 ∧ isHost 0x100000 = false ∧
      (t.part t.me.t.part).inPool 0x100000 8 = false ∧ poisoned t.memPoison 64 0x100000 8 = false ∧
      t.mem.nat 0x100000 8 = (t.me.xr 0).toNat % 2 ^ 64 ∧ t.mem.nat 0x100000 8 ≠ (t.me.xr 1).toNat % 2 ^ 64) ∧
    t.dataPa (t.me.xr 1 + BitVec.ofInt 64 (0 : Int)) 1 .rd = .ok 0x100000 ∧
    (m fun x : Monitor => { x with recheck := true }).me.mon.recheck = true ∧ (t.me.mon.recheck = false ∧ t.me.mon.armed = false) ∧
    ((m fun x => { x with written := true }).me.mon.written = true) ∧
    ((m id).me.mon.written = false ∧ (m id).now ≠ 0 ∧ (m id).now < (m id).now + 1) ∧
    (let w := (((m id).modMe fun sl => { sl with cs := { sl.cs with waiting := some (.monitor 3 10) } }).slotAt 0 0).cs
     w.waiting = some (.monitor 3 10) ∧ w.stopReq = none ∧ ((m id).core 0).frozen = false) := by
  repeat' apply And.intro
  all_goals decide +kernel
theorem test_words_integer :
    decodeC 0xEF104604 = .ok (.maxu ⟨⟨7, true⟩, 3, 1, 2⟩, .k32) ∧
    decodeC 0x80000003E0004605 = .ok (.subImm ⟨⟨7, true⟩, 3, 1, .i16 0x8000⟩, .k64) ∧
    decodeC 0x800000000000001DE0004606 = .ok (.maxuImm ⟨⟨7, true⟩, 3, 1, .i32 0x80000000⟩, .k96) ∧
    decodeC 0x6F104608 = .ok (.remu ⟨⟨7, true⟩, 3, 1, 2⟩, .k32) ∧
    decodeC 0x4F00460C = .ok (.mov ⟨⟨7, true⟩, 3, 1⟩, .k32) := by
  refine ⟨?_, ?_, ?_, ?_, ?_⟩ <;> rfl
theorem test_words_field_and_compare :
    decodeC 0x6C50007E0004611 = .ok (.bins ⟨⟨7, true⟩, 3, 1, 5, 27⟩, .k64) ∧
    decodeC 0xFFFF0001E0000615 = .ok (.li ⟨⟨7, true⟩, 3, 0xFFFF⟩, .k64) ∧
    decodeC 0x700008001E0000616 = .ok (.liHi ⟨⟨7, true⟩, 3, 7⟩, .k96) ∧
    decodeC 0xF104618 = .ok (.sel ⟨⟨7, true⟩, 3, 1, 2⟩, .k32) ∧
    decodeC 0xF10461C = .ok (.lea ⟨⟨7, true⟩, 3, 1, 2⟩, .k32) ∧
    decodeC 0x5F104620 = .ok (.cmpGeu ⟨⟨7, true⟩, 3, 1, 2⟩, .k32) ∧
    decodeC 0x2F104624 = .ok (.pxor ⟨⟨7, true⟩, 3, 1, 2⟩, .k32) := by
  refine ⟨?_, ?_, ?_, ?_, ?_, ?_, ?_⟩ <;> rfl
theorem test_words_scalar_fp :
    decodeC 0x6087E0104681 = .ok (.fdiv ⟨⟨7, true⟩, 3, 1, 2, 1, 2, true⟩, .k64) ∧
    decodeC 0x6081E4104685 = .ok (.ffma ⟨⟨7, true⟩, 3, 1, 2, 4, 1, 2, true⟩, .k64) := by
  refine ⟨?_, ?_⟩ <;> rfl
theorem test_words_control :
    decodeC 0xFFFE0001E00000C1 = .ok (.bp ⟨⟨7, true⟩, .i16 0xFFFE⟩, .k64) ∧
    decodeC 0xF0040C4 = .ok (.jr ⟨⟨7, true⟩, 1⟩, .k32) ∧
    decodeC 0x900000001E00006CA = .ok (.call ⟨⟨7, true⟩, 3, .i32 9⟩, .k96) ∧
    decodeC 0xF0046CC = .ok (.callr ⟨⟨7, true⟩, 3, 1⟩, .k32) ∧
    decodeC 0xF0040D0 = .ok (.ret ⟨⟨7, true⟩, 1⟩, .k32) ∧
    decodeC 0x60000010984D5 = .ok (.hloop ⟨2, .reg 6, 1, 1, 6⟩, .k64) := by
  refine ⟨?_, ?_, ?_, ?_, ?_, ?_⟩ <;> rfl
theorem test_words_memory :
    decodeC 0x8300DE0004701 = .ok (.ldWu ⟨⟨7, true⟩, 3, 1, 0, 3, .i16 8⟩, .k64) ∧
    decodeC 0x800008005E0104106 = .ok (.stW ⟨⟨7, true⟩, 1, 2, 0, 4, .i32 8⟩, .k96) ∧
    decodeC 0x80007E0004709 = .ok (.ldxD ⟨⟨7, true⟩, 3, 1, 8⟩, .k64) ∧
    decodeC 0x80001E010410D = .ok (.stxB ⟨⟨7, true⟩, 1, 2, 8⟩, .k64) ∧
    decodeC 0x3007E0000119 = .ok (.fenceSc ⟨⟨7, true⟩, 3⟩, .k64) ∧
    decodeC 0x3E0004721 = .ok (.mwait ⟨⟨7, true⟩, 3, 1⟩, .k64) := by
  refine ⟨?_, ?_, ?_, ?_, ?_, ?_⟩ <;> rfl
theorem test_words_push :
    decodeC 0xB0001E0004141 = .ok (.mset ⟨⟨7, true⟩, 1, 5, .reg 1⟩, .k64) ∧
    decodeC 0x9002F0003E0000142 = .ok (.msetG ⟨⟨7, true⟩, 15, 2, .lit 9⟩, .k96) ∧
    decodeC 0x1E0104145 = .ok (.mgo ⟨⟨7, true⟩, 1, 2⟩, .k64) ∧
    decodeC 0x104149 = .ok (.xpsh ⟨⟨0, false⟩, 1, 2, none⟩, .k64) ∧
    decodeC 0x10000000001E010414E = .ok (.vgo ⟨⟨7, true⟩, 1, 2, some 0x100⟩, .k96) ∧
    decodeC 0x1E0004151 = .ok (.sgo ⟨⟨7, true⟩, 1⟩, .k64) := by
  refine ⟨?_, ?_, ?_, ?_, ?_, ?_⟩ <;> rfl
theorem test_words_system :
    decodeC 0xFFFF0001E00001C1 = .ok (.trap ⟨⟨7, true⟩, 0xFFFF⟩, .k64) ∧
    decodeC 0xF0001C4 = .ok (.eret ⟨7, true⟩, .k32) ∧
    decodeC 0xB0001E00007C9 = .ok (.sysrd ⟨⟨7, true⟩, 3, 11⟩, .k64) ∧
    decodeC 0x70003E00041C9 = .ok (.syswr ⟨⟨7, true⟩, 1, 7⟩, .k64) ∧
    decodeC 0xF0001CC = .ok (.tfence ⟨7, true⟩, .k32) ∧
    decodeC 0xF0007D0 = .ok (.flags ⟨⟨7, true⟩, 3⟩, .k32) ∧
    decodeC 0xF0001D4 = .ok (.brk ⟨7, true⟩, .k32) ∧
    decodeC 0xF0001D8 = .ok (.halt ⟨7, true⟩, .k32) ∧
    decodeC 0xF0001DC = .ok (.nop ⟨7, true⟩, .k32) ∧
    decodeC 0xFFFF0001E00047E1 = .ok (.wait ⟨⟨7, true⟩, 3, 1, 0xFFFF⟩, .k64) := by
  refine ⟨?_, ?_, ?_, ?_, ?_, ?_, ?_, ?_, ?_, ?_⟩ <;> rfl
theorem test_words_vector_integer :
    decodeV 0x8FADAE04 = .ok (.vsra ⟨⟨7, true⟩, 23, 22, 21⟩, .k32) ∧
    decodeV 0x30000000DE005AE06 = .ok (.vshlImm ⟨⟨7, true⟩, 23, 22, .i32 3⟩, .k96) ∧
    decodeV 0x1F7104609 = .ok (.vimad ⟨⟨7, true⟩, 3, 1, 2, 23⟩, .k64) ∧
    decodeV 0xF104624 = .ok (.vsel ⟨⟨7, true⟩, 3, 1, 2⟩, .k32) ∧
    decodeV 0xF004740 = .ok (.vcmpr ⟨⟨7, true⟩, 3, 1⟩, .k32) ∧
    decodeV 0x1F004740 = .ok (.vexpd ⟨⟨7, true⟩, 3, 1⟩, .k32) := by
  refine ⟨?_, ?_, ?_, ?_, ?_, ?_⟩ <;> rfl
theorem test_words_vector_fp :
    decodeV 0x6087E0104681 = .ok (.vdiv ⟨⟨7, true⟩, 3, 1, 2, 1, 2, true⟩, .k64) ∧
    decodeV 0x6083E4104685 = .ok (.vfms ⟨⟨7, true⟩, 3, 1, 2, 4, 1, 2, true⟩, .k64) ∧
    decodeV 0x408FE0004689 = .ok (.vtanh ⟨⟨7, true⟩, 3, 1, 1, true⟩, .k64) ∧
    decodeV 0x91E0004681 = .ok (.vneg ⟨⟨7, true⟩, 3, 1, 1⟩, .k64) := by
  refine ⟨?_, ?_, ?_, ?_⟩ <;> rfl
/-- R61, R54, R59, R56: a reserved scope, a predicate beyond P7, a register beyond V23, a reserved format and a reserved field are refused. -/
theorem test_words_refused :
    decodeC 0x900400104105 = .error .illegal ∧ decodeC 0x105220 = .error .illegal ∧ decodeV 0x107004 = .error .illegal ∧
    decodeV 0xC0000104681 = .error .format ∧ decodeC 0x3D8 = .error .illegal := by
  refine ⟨?_, ?_, ?_, ?_, ?_⟩ <;> rfl
/-- R70 to R72, R235, R254, R299: commands in their rings, and unassigned opcodes. -/
theorem test_words_commands :
    decodeCmd .x 0x7000000000000000005000002 = .ok (.xfil ⟨⟨0, 0, 0, false, false, 0⟩, false, 5, 0, 0, 7⟩) ∧
    decodeCmd .x 0x0000000000000000000C15051 = .ok (.xcpyL ⟨⟨5, 20, 1, true, true, 0⟩, false, 0, 0, 0, 0⟩) ∧
    decodeCmd .s 0x0830050000000003 = .ok (.sidx ⟨⟨0, 0, 0, false, false, 0⟩, 5, 1, 1, 2⟩) ∧
    decodeCmd .m 0x000000000000000021000003 = .ok (.mzeroSet ⟨⟨0, 0, 0, false, false, 0⟩, 1, 0, 0⟩) ∧
    decodeCmd .m 7 = .error .illegal ∧ decodeCmd .x 0xC = .error .illegal ∧ decodeCmd .s 5 = .error .illegal ∧ decodeCmd .x 0 = .error .illegal := by
  refine ⟨?_, ?_, ?_, ?_, ?_, ?_, ?_, ?_⟩ <;> rfl

/-- Each check of `Instr.wf` refuses a term: limits, formats and places. -/
theorem test_wf_limits : ∀ i ∈ [Instr.sext ⟨ty, 3, 1, 1, 8⟩, .bins ⟨ty, 3, 1, 60, 5⟩, .hloop ⟨0, .reg 1, 6, 2, 4⟩, .ldB ⟨ty, 3, 1, 0, 5, .i16 0⟩,
    .ldB ⟨ty, 3, 1, 2, 3, .i16 0⟩, .stB ⟨ty, 1, 2, 1, 3, .i16 0⟩, .amoAdd ⟨ty, 3, 1, 2, 0, false, 7, 0⟩, .gsetClr ⟨ty, 0⟩, .skinit ⟨ty, 1, 0, 5⟩,
    .skmrg ⟨ty, 1, 0x40⟩, .tkget ⟨ty, 3, 1, 9, false⟩, .drnext ⟨ty, 3, 6, false⟩, .lpatch ⟨ty, 3, 1, 8, .reg 2, 0⟩, .sysrd ⟨ty, 3, 12⟩, .syswr ⟨ty, 1, 2⟩,
    .viadd ⟨ty, 24, 1, 2⟩, .vtrg ⟨3, 0⟩, .vqpsh ⟨ty, 22, 2, 0⟩, .vclipq ⟨ty, 3, 1, 2, 1, 5, 3⟩], i.wf = false := by decide +kernel
theorem test_wf_commands : ∀ i ∈ [Instr.mma { mmaOf 0 with vt := 0x40 }, .mzero ⟨⟨0, 0, 0, false, true, 0⟩, 0, 0, 0⟩, .mzeroSet ⟨⟨0, 0, 0, false, false, 0⟩, 0, 0, 0x1000000⟩,
    .snote ⟨0, 0, 0, false, false, 0x10000⟩, .xfil ⟨⟨0, 0, 0, false, false, 0⟩, true, 5, 0, 0, 0⟩, .xsend ⟨⟨0, 0, 0, false, false, 0⟩, false, 0, 5, 0, 32⟩,
    .sbmp ⟨⟨0, 0, 0, false, false, 0⟩, 5, 0, 0, 1⟩], i.wf = false := by decide +kernel
theorem test_wf_formats : ∀ i ∈ [Instr.fadd ⟨ty, 3, 1, 2, 4, 0, false⟩, .fadd ⟨ty, 3, 1, 2, 0x18, 0, false⟩, .vexp2 ⟨ty, 3, 1, 0, false⟩,
    .vcvtFf ⟨ty, 3, 1, 0x0A, 1, 0, false, 0⟩, .mexp { mxfOf 4 with fmt := 7 }], i.wf = false := by decide +kernel
theorem test_wf_places : ∀ i ∈ [Instr.taskLaunch ⟨192, 0⟩, .taskLaunch ⟨0, 8⟩, .packetNop ⟨129, 0⟩, .qtailWrite ⟨0, 8, 0⟩, .gateOpen 20, .timeTrigger ⟨0, 4096⟩,
    .rackComplete ⟨0, 128⟩, .drrVisit ⟨32, 0⟩, .remoteSealArrival ⟨0, 512⟩, .settlement ⟨0, 64⟩, .coOperativeGroupForm ⟨[⟨0, 0⟩, ⟨1, 0⟩, ⟨2, 0⟩]⟩], i.wf = false := by decide +kernel

/-- Slot 0 of core 0 after one step of s, with the word w first. -/
def after (w : Nat) (f : State → State) : Slot :=
  match step (f (State.reset.withFetchWord 96 w)) with
  | .next t => t.slotAt 0 0
  | _ => Slot.reset
def xy (a b : Word) (s : State) : State := px (px s 1 a) 2 b
/-- R165: wraps. -/
theorem test_add_wraps : (after 0x104604 (xy 0xFFFFFFFFFFFFFFFF 2)).xr 3 = 1 := by decide +kernel
/-- R165: the count modulo 64; R42: a write of X0 is discarded. -/
theorem test_shl_count : (after 0x70104604 (xy 3 65)).xr 3 = 6 ∧ (after 0x104004 (xy 3 65)).xr 0 = 0 := by decide +kernel
/-- R166: division by zero, and the most negative number by −1. -/
theorem test_div_corners : (after 0x30104608 (xy 5 0)).xr 3 = 0xFFFFFFFFFFFFFFFF ∧ (after 0x30104608 (xy 0x8000000000000000 0xFFFFFFFFFFFFFFFF)).xr 3 = 0x8000000000000000 := by decide +kernel
/-- R166: the remainder takes the sign of the dividend. -/
theorem test_rem_sign : (after 0x50104608 (xy 0xFFFFFFFFFFFFFFF9 2)).xr 3 = 0xFFFFFFFFFFFFFFFF := by decide +kernel
/-- R168: X[d] is a source of BINS. -/
theorem test_bins : (after 0x208000600004411 (xy 0xAB 0x112233)).xr 2 = 0x11AB33 := by decide +kernel
/-- R170: unsigned. -/
theorem test_cmp_ltu : (after 0x40104420 (xy 1 0xFFFFFFFFFFFFFFFF)).pr 2 = true ∧ (after 0x20104420 (xy 1 0xFFFFFFFFFFFFFFFF)).pr 2 = false := by decide +kernel
/-- R174, R176: 1 + 2 in FP32, and 1 ÷ 3 rounded to nearest, inexact. -/
theorem test_fp32 : (after 0x8000104681 (xy 0x3F800000 0x40000000)).xr 3 = 0x40400000 ∧ (after 0x8600104681 (xy 0x3F800000 0x40400000)).xr 3 = 0x3EAAAAAB := by decide +kernel
/-- R184: the address of the next word, and the target. -/
theorem test_call : (after 0x40000000006C9 id).xr 3 = 8 ∧ (after 0x40000000006C9 id).cs.pc = 16 := by decide +kernel
/-- R185, R186: the worked example enters its body; a count of 0 skips it. -/
theorem test_hloop : (after 0x60000010984D5 fun s => px s 6 3).cs.pc = 8 ∧ (after 0x60000010984D5 id).cs.pc = 32 ∧ (after 0x60000010984D5 fun s => px s 6 3).cs.loops.length = 1 := by decide +kernel
/-- R189: little-endian, sign-extended. -/
theorem test_load_half : (after 0x300200004701 fun s => px { s with mem := s.mem.write 0x100000 [0xFE, 0xFF] } 1 0x100000).xr 3 = 0xFFFFFFFFFFFFFFFE := by decide +kernel
/-- R189, R428: a misaligned store enters the handler with F_ALIGN and its address. -/
theorem test_store_misaligned : (after 0x300600104105 fun s => (px s 1 0x100004).modMe fun sl => { sl with tvec := 0x800 }).eva = 0x100004 ∧ (after 0x300600104105 fun s => (px s 1 0x100004).modMe fun sl => { sl with tvec := 0x800 }).cs.pc = 0x800 := by decide +kernel
/-- R428, R430: TRAP enters the handler with its immediate. -/
theorem test_trap : (after 0x12340000000001C1 fun s => s.modMe fun sl => { sl with tvec := 0x800 }).eva = 0x1234 ∧ (after 0x12340000000001C1 fun s => s.modMe fun sl => { sl with tvec := 0x800 }).hm = true := by decide +kernel
/-- R55: a predicate that does not hold. -/
theorem test_skipped : (after 0x2104604 (xy 1 2)).xr 3 = 0 ∧ (after 0x2104604 (xy 1 2)).cs.pc = 4 := by decide +kernel
/-- R65: an unassigned opcode stops a task without a handler with F_ILLEGAL. -/
theorem test_illegal : (after 0x1FC id).t.stopping = some fIllegal := by decide +kernel
/-- R197: SEMR pushes and raises. -/
theorem test_semr : ((after 0x5000000000159 id).sem 5).pushed = 1 ∧ ((after 0x5000000000159 id).sem 5).done = 1 := by decide +kernel
/-- The V stream with a shape of one row of eight words. -/
def s8 : State := sV.modMe fun sl => { sl with vshape := 0x08010001 }
/-- Slot 0 of core 0 after an instruction of the V stream, with one row of eight words, V1 holding 1, 2, … and V2 ones. -/
def sVec : State :=
  s8.modMe fun sl => (sl.putElems 1 4 [1, 2, 3, 4, 5, 6, 7, 0xFFFFFFFF] fun _ => true).putElems 2 4 (List.replicate 8 1) fun _ => true
def vElemOf (o : Out) (r i : Nat) : Nat :=
  match o with
  | .next t => vElem (t.me.vr r).toNat 4 i
  | _ => 0
/-- R308: wraps at the element's width, and the next element is not touched. -/
theorem test_viadd_wraps : vElemOf (exec (.viadd ⟨ty, 3, 1, 2⟩) sVec) 3 7 = 0 ∧ vElemOf (exec (.viadd ⟨ty, 3, 1, 2⟩) sVec) 3 0 = 2 ∧
    vElemOf (exec (.viadd ⟨ty, 3, 1, 2⟩) sVec) 3 8 = 0 := by decide +kernel
/-- R321: the sum of the elements, of which the last is −1. -/
theorem test_vreds_int : vElemOf (exec (.vredsI ⟨ty, 3, 1, false, false⟩) sVec) 3 0 = 27 := by decide +kernel
/-- R330: elements move up by two, and the first two stay. -/
theorem test_vslup : vElemOf (exec (.vslup ⟨ty, 2, 1, .imm 2⟩) sVec) 2 2 = 1 ∧ vElemOf (exec (.vslup ⟨ty, 2, 1, .imm 2⟩) sVec) 2 1 = 1 ∧
    vElemOf (exec (.vslup ⟨ty, 2, 1, .imm 2⟩) sVec) 2 7 = 6 := by decide +kernel
/-- R188: a loop cut to one iteration starts again, at the epilogue's end, with the four that remain. -/
theorem test_loop_refill :
    let l := { lp2 with cut := true, limit := 1, remain := 4, pass := 1 }
    let s := sC.modMe fun sl => { sl with cs := { sl.cs with pc := 0x104, loops := [l] } }
    ((s.advance 4).me.cs.loops.map fun l => (l.pass, l.limit, l.cut)) = [(0, 4, false)] ∧ (s.advance 4).me.cs.pc = 0x100 := by decide +kernel
/-- R31: a count of 1 becomes READY. -/
theorem test_decrement :
    let s := sC.modPart 0 fun q => { q with recs := q.recs.put 9 { Record.reset with st := .armed, count := 1 } }
    ((s.decrement 0 9 0 none).lrec 0 9).st = .ready ∧ ((s.decrement 0 9 0 none).lrec 0 9).count = 0 := by decide +kernel
/-- An open ring of a launched task. -/
def ring0 : Ring := { Ring.reset with present := true, ended := false }
def withRing (s : State) (r : RingId) (x : Ring) : State := s.modMe (·.modRing r fun _ => x)
/-- All four rings open, with the pair X1, X2 holding a command. -/
def sP (w : BitVec 128) : State :=
  px (px (withRing (withRing (withRing (withRing sC .m ring0) .x ring0) .s ring0) .k ring0) 1 (w.setWidth 64)) 2 (w.extractLsb' 64 64)
theorem wit_PushResults :
    ((sP 3).cRuns ty ∧ Pushable (sP 3) .m 3 ∧ copOf 3 = 3) ∧
    (copOf 4 = 4 ∧ mxfCheck (mxfOf 4) = .ok ()) ∧
    (let s := (sP 1).modMe fun sl => { sl with g := [(0, 1#256), (1, 2#256)] }
     mgoCheck s.me (mmaOf 0x20000001) false = .ok () ∧ Pushable s .m 0x20000001) ∧
    (Pushable (sP 10) .x 10 ∧ (sP 10).me.xr 2 ++ (sP 10).me.xr 1 = 10#128 ∧ copOf 10 ≤ 10) ∧
    (let s := (sP 1).modMe fun sl => sl.modTask fun t => { t with vbase := 0x100, vsize := 0x80 }
     let w : BitVec 128 := 0x17C00000001
     Pushable s .k w ∧ copOf w = 1 ∧ ext w 23 9 = 0 ∧ ext w 96 32 = 0 ∧ (ext w 32 32).toNat % 4 = 0 ∧
       s.me.t.vbase ≤ (ext w 32 32).toNat ∧ (ext w 32 32).toNat < s.me.t.vbase + s.me.t.vsize) ∧
    (Pushable (sP 3) .s ((0 : Word) ++ (sP 3).me.xr 1) ∧ copOf 3 ≤ 3) ∧
    (((sP 0xFFFF).me.xr 1).toNat ≤ 0xFFFF ∧ Pushable (sP 0xFFFF) .s (noteBits .s 0 0xFFFF 0)) ∧
    (let w (n : Nat) : BitVec 128 := BitVec.ofNat 128 (n + 2 ^ 4 + 2 ^ 64)
     let s := (sP (w 0x20000001)).modMe fun sl => { sl with g := [(0, 1#256), (1, 2#256)] }
     let k := (sP (w 0x17C00000001)).modMe fun sl => sl.modTask fun t => { t with vbase := 0x100, vsize := 0x80 }
     (ForwardWait (sP (w 3)) .m (w 3) ∧ copOf (w 3) = 3) ∧ (ForwardWait s .m (w 0x20000001) ∧ mgoCheck s.me (mmaOf (w 0x20000001)) false = .ok ()) ∧
       (copOf (w 4) = 4 ∧ mxfCheck (mxfOf (w 4)) = .ok ()) ∧ (ForwardWait (sP (w 10)) .x (w 10) ∧ copOf (w 10) = 10) ∧
       (ForwardWait k .k (w 0x17C00000001) ∧ ext (w 0x17C00000001) 23 9 = 0 ∧ ext (w 0x17C00000001) 96 32 = 0) ∧
       (ForwardWait (sP 0x1000011) .s 0x1000011 ∧ copOf 0x1000011 = 1) ∧
       (ForwardWait (sP 5) .m (noteBits .m 1 5 0) ∧ ForwardWait (sP 0xFFFF) .s (noteBits .s 1 0xFFFF 0))) ∧
    (((sP 0x7FFFFFFFF).me.xr 1).toNat < 2 ^ 35 ∧ (sP 3).me.pendingMma = []) ∧
    (sP 0x1FFFFFFFFFFFFFF).me.xr 1 &&& gResv 0 = 0 := by
  repeat' apply And.intro
  all_goals decide +kernel
theorem wit_SemaphoreGuardKernelResults :
    let e : BitVec 128 := 0x1
    let q := { ring0 with wp := 1, entries := [(0, e)] }
    let v := withRing sV .k q
    (sC.cRuns ty ∧ (sC.me.sem 63).pushed ≠ 0xFFFFFFFF) ∧
    ((px sC 1 0).me.xr 1 = 0 ∧ 0 ≤ (sC.me.sem 5).done.toNat) ∧
    (sC.me.guard 7 = 0 ∧ 8 ∉ sC.me.undecidedGuards) ∧
    (sC.me.unresolvedPending = false ∧ (∀ r ∈ [RingId.m, .x, .s], ((sP 3).me.ring r).room r = true) ∧ ((sP 3).me.ring .m).present = true ∧
      ((sP 3).me.ring .m).closed = false) ∧
    (v.vRuns ∧ v.me.kernel = none ∧ v.me.kring.len ≠ 0 ∧ v.me.kring.head.phase = .fresh ∧ v.me.guard (cGds (v.me.kring.headBits .k)) = 1 ∧
      (v.me.kring.headBits .k).getLsbD 22 = false ∧ cAws (v.me.kring.headBits .k) = 0) ∧
    (let u := v.modMe fun sl => { sl with kernel := some e }
     u.vRuns ∧ u.me.kernel = some e ∧ u.me.kring.len ≠ 0 ∧ cAws (u.me.kring.headBits .k) = 0) ∧
    ((v.modMe fun sl => { sl with vs := { sl.vs with waiting := some .kernel } }).me.vs.waiting = some .kernel ∧ v.me.vs.stopReq = none ∧
      (v.core v.cur.core).frozen = false) ∧
    ((withRing sV .k ring0).vRuns ∧ (withRing sV .k ring0).me.kring.len = 0 ∧ (withRing sV .k ring0).me.kring.closed = false) := by
  repeat' apply And.intro
  all_goals decide +kernel
/-- Tile 63: of the home region, of a cask that is resident, and not valid. -/
theorem wit_TileInstructionResults :
    let t := tl sC 63 home
    let u := tl sC 63 { home with home := false, cask := 15 }
    ((t.me.xr 0 + (63#16).setWidth 64).toNat = 63 ∧ (t.tileAt 0 63).valid = true ∧ (t.tileAt 0 63).home = true ∧
      (t.tileAt 0 63).busy = false ∧ (t.tileAt 0 63).readers = 0) ∧
    ((u.tileAt 0 63).home = false ∧ caskOf 63 (u.tileAt 0 63) = 15 ∧ ((u.core 0).cask 15).pipe = false ∧ (u.fetchCask 0 15).2 = true) ∧
    64 ≤ ((px t 1 64).me.xr 1 + (0#16).setWidth 64).toNat ∧ (sC.tileAt 0 63).valid = false := by
  repeat' apply And.intro
  all_goals decide +kernel
/-- Rings that end at tile 63, home tiles that end with the region, and a full and an empty ring. -/
theorem wit_CircularBufferResults :
    let t := tl (tl sC 62 home) 63 home
    let r : RingRec := { ft := 0, depth := 2, pptr := 0, cptr := 0, pipe := false, inst := [] }
    let h (r : RingRec) (x : Tile) : State :=
      ((tl (tl sC 0 x) 1 x).modCore 0 fun co => co.putRing 3 r).modMe fun sl => { sl with cb := [(3, ⟨true, 3, 0, 3⟩)] }
    (62 + 2 ≤ 64 ∧ ∀ i, i < 2 → (t.tileAt 0 (62 + i)).valid = true ∧ (t.tileAt 0 (62 + i)).st = .empty) ∧
    (4096 + 0 * 4096 ≤ 4096 ∧ (4096 + 2 ^ 13).testBit 13 = true ∧ ∀ i, i < 1 → (sC.tileAt 0 (63 + i)).valid = false) ∧
    (let s := sC.modCask 0 15 fun x => { x with racked := true }
     let d := 4096 + 15 * 2 ^ 15
     d < 2 ^ 27 ∧ d % 2 ^ 13 = 4096 ∧ d / 2 ^ 15 % 2 ^ 12 = 15 ∧ ((s.core 0).cask 15).holds = false ∧ (s.tileAt 0 63).valid = false ∧
       cellarFit ((s.core 0).cellarTaken 0) 4096 1 = some [0]) ∧
    (let s := h r { home with st := .ready }
     (s.me.handle 3).valid = true ∧ (s.me.handle 3).role = 3 ∧ 2 ≤ (s.ringRec (s.me.handle 3)).free ∧
       ∀ i, i < 2 → (s.tileAt 0 ((s.ringRec (s.me.handle 3)).tile i)).st = .ready) ∧
    (let s := h { r with pptr := 2 } { home with st := .ready }
     2 ≤ (s.ringRec (s.me.handle 3)).filled ∧ ∀ i, i < 2 → (s.tileAt 0 ((s.ringRec (s.me.handle 3)).tile i)).busy = false) ∧
    (0x40 % 64 = 0 ∧ 0x40 / 64 ≤ 0xFFFFFFFF ∧ (2 ^ 52 - 64) + 64 ≤ 2 ^ 52 ∧ (sC.bindEntry 0).testBit 0 = false ∧
      poisoned sC.memPoison 64 sC.bindBase 16 = false) := by
  repeat' apply And.intro
  all_goals decide +kernel
theorem wit_TrapEntryTakesTheHandler :
    let t := sC.modMe fun sl => { sl with tvec := 0x800 }
    (t.slotAt 0 0).tvec ≠ 0 ∧ (t.slotAt 0 0).hm = false ∧ (t.slotAt 0 0).cs.ended = false ∧ (t.slotAt 0 0).stopping .v = false := by
  repeat' apply And.intro
  all_goals decide +kernel
theorem wit_UnhandledTrapsAndEret :
    let t := sC.modMe fun sl => { sl with hm := true }
    (sC.me.tvec = 0 ∧ sC.me.stopping .c = false ∧ sC.me.task.isSome = true ∧ sC.me.t.stopping = none ∧ sC.me.cs.ended = false) ∧
    ((sV.slotAt 0 0).vs.ended = false ∧ (sV.slotAt 0 0).t.stopping = none) ∧
    (t.me.hm = true ∧ t.me.cause.toNat / 256 % 8 = 0 ∧ t.me.cs.loops = [] ∧ t.me.susp = [] ∧ t.cRuns ty) ∧ sC.me.hm = false := by
  repeat' apply And.intro
  all_goals decide +kernel
/-- A C stream that waits in the instruction w until time 10, which X1 holds and which has come. -/
def sW (w : Nat) (f : WaitFor) : State :=
  { (px (State.reset.withFetchWord 64 w) 1 10).modMe fun sl => { sl with cs := { sl.cs with waiting := some f } } with time := 7560 }
/-- The numbers 11 and 12; flags clear and set; a time just before, at and just after the target; a time and a settlement waited for. -/
theorem wit_SystemRegisterResults :
    let t : State := { px sC 1 10 with time := 7560 }
    (sC.cRuns ty ∧ sC.me.flags &&& sC.me.fen &&& 0x3F3F3F003F = 0) ∧
    (let u := sC.modMe fun sl => { sl with flags := 1, fen := 1 }
     u.me.flags &&& u.me.fen &&& 0x3F3F3F003F ≠ 0) ∧
    (sC.me.dbg.brken = false ∧ (sC.modMe fun sl => { sl with dbg := { sl.dbg with brken := true } }).me.dbg.brken = true) ∧
    (sV.vRuns ∧ sV.me.flags &&& sV.me.fen &&& 0x3F00 = 0) ∧
    (9 < t.now ∧ (t.me.xr 1).toNat = t.now ∧ t.now < 11) ∧ t.me.t.launched = true ∧
    (0 < fAlign.toNat ∧ fAlign.toNat ≤ 0x10 ∧ fAlign ≠ fDepunder ∧ fAlign ≠ fSkew ∧ 0x10 < (0x11 : Code).toNat ∧
      (let h := sC.modMe fun sl => { sl with tvec := 0x800 }
       (h.slotAt 0 0).t.launched = true ∧ (h.slotAt 0 0).tvec ≠ 0 ∧ (h.slotAt 0 0).hm = false)) ∧
    (let w := sW 0x47E1 (.time 10)
     w.cRuns ty ∧ (w.slotAt 0 0).cs.stopReq = none ∧ (w.core 0).frozen = false ∧ (w.slotAt 0 0).cs.waiting = some (.time 10) ∧ w.fetch 0 0 .c = .ok 0x47E1 ∧
       decodeC 0x47E1 = .ok (.wait ⟨ty, 3, 1, 0⟩, .k64) ∧ (10 : Word).toNat ≤ w.now ∧ w.me.xr 1 + BitVec.ofNat 64 0 = 10) ∧
    (let w := (sW 0x200004789 (.settle 0 10)).modPart 0 fun q => q.setSettle 0 { Settle.reset with defined := true }
     (w.slotAt 0 0).cs.stopReq = none ∧ (w.core 0).frozen = false ∧ w.fetch 0 0 .c = .ok 0x200004789 ∧ decodeC 0x200004789 = .ok (.setlw ⟨ty, 3, 1, 0⟩, .k64) ∧ 10 ≤ w.now ∧
       ((w.part 0).settleAt 0).latch = false ∧ (w.me.xr 1).toNat = 10) := by
  repeat' apply And.intro
  all_goals decide +kernel
/-- An object that nobody holds, that the slot holds and that another holds; the last arrival of one and of two, an earlier
arrival, and a barrier that expects another number. -/
theorem wit_SyncObjectAndBarrierResults :
    let o (x : SyncObj) : State := px (sC.modPart 0 fun q => q.setObj 65535 x) 1 65535
    let b (x : Barrier) (n : Word) : State := px (sC.modPart 0 fun q => q.setBar 3 x) 1 n
    let f (s : State) : SyncObj := (s.part s.me.t.part).obj (s.me.xr 1 + (0#16).setWidth 64).toNat
    ((f (o SyncObj.reset)).held = none ∧ (f (o SyncObj.reset)).waiters = []) ∧
    (f (o { SyncObj.reset with held := some ⟨0, 0⟩ })).held = some sC.myId ∧
    ((f (o { SyncObj.reset with held := some ⟨0, 1⟩ })).held = some ⟨0, 1⟩ ∧ (⟨0, 1⟩ : SlotId) ≠ sC.myId) ∧
    (((b Barrier.reset 1).me.xr 1).toNat = 1 ∧ sC.me.barWait = none ∧ ((b Barrier.reset 1).part 0 |>.bar 3).arrived + 1 = 1) ∧
    (((b { expect := 2, arrived := 1, phase := 0 } 2).part 0 |>.bar 3).expect = 2) ∧
    (((b Barrier.reset 65535).part 0 |>.bar 3).arrived + 1 ≠ 65535) ∧
    (((b Barrier.reset 0).me.xr 1).toNat = 0 ∧ 65535 < ((b Barrier.reset 65536).me.xr 1).toNat) ∧
    (sC.modMe fun sl => { sl with barWait := some (3, 0) }).me.barWait = some (3, 0) ∧
    (let a (s : State) : State := s.modMe fun sl => { sl with cs := { sl.cs with waiting := some (.object 65535 2 3) } }
     sC.me.cs.waiting = none ∧ (a (o { SyncObj.reset with held := some ⟨0, 0⟩ })).me.cs.waiting = some (.object 65535 2 3)) ∧
    (let w (r : Option StopCause) : State := (o { SyncObj.reset with held := some ⟨0, 0⟩, waiters := [⟨0, 1⟩] }).modSlot 0 1 fun sl =>
      { sl with cs := { sl.cs with waiting := some (.object 65535 2 3), stopReq := r } }
     ((f (w none)).waiters.find? fun k => ((w none).slotAt k.core k.slot).cs.stopReq.isNone) = some ⟨0, 1⟩ ∧ (⟨0, 1⟩ : SlotId) ≠ sC.myId ∧
       ((w none).slotAt 0 1).cs.waiting = some (.object 65535 2 3) ∧ ((w none).core 0).frozen = false ∧
       (((w none).modCore 0 fun co => { co with frozen := true }).core 0).frozen = true) := by
  repeat' apply And.intro
  all_goals decide +kernel
/-- An unsealed tile below the last vintage, a tile sealed in this run, one never published; a capability to seal tile 511. -/
theorem wit_PublishAndSealResults :
    let t : Tile := { home with shd := true, sfill := true, saddr := 16, vint := 65533 }
    let c : Nat := 1 + 2 ^ 4 + 4 * 2 ^ 8 + 511 * 2 ^ 36
    let s (t : Tile) : State := (tl (tl sC 5 t) 511 t).modMe fun sl => { sl with ch := [(1, BitVec.ofNat 128 c)] }
    ((s t).cRuns ty ∧ ((s t).tileAt 0 5).valid = true ∧ (∀ x ∈ ((s t).core 0).sealsIn, x.1 ≠ 5) ∧ (s t).shadowBusy 0 5 = false ∧
      65533 < 65534 ∧ ((s t).core 0).regsOn 5 = []) ∧
    (let u := s { t with sealed := true, sealAt := 1 }
     (u.tileAt 0 5).sealed = true ∧ u.shadowBusy 0 5 = false ∧ u.me.t.runStart ≤ (u.tileAt 0 5).sealAt) ∧
    ((s { t with sfill := false }).tileAt 0 5).vint ≠ 0 ∧ ((s home).tileAt 0 5).vint = 0 ∧
    (capGrants ((s t).me.cap 1) 4 4 = true ∧ capDev ((s t).me.cap 1) = (s t).mgmt.dev ∧ capObj ((s t).me.cap 1) = 511) ∧
    (∃ x ∈ (((s t).modCore 0 fun co => { co with sealsIn := [(511, 9)] }).core 0).sealsIn, x.1 = 511) := by
  repeat' apply And.intro
  all_goals decide +kernel
/-- The input sealed, of the vintage wanted, and not yet of it; a capability that grants and one that does not. -/
theorem wit_TasteResults :
    let c : Nat := 1 + 2 ^ 2 + 4 * 2 ^ 8 + 5 * 2 ^ 36
    let s (v : Nat) (x : Bool) : State := (px (tl sC 5 { home with vint := v, sealed := x }) 1 65534).modMe fun sl =>
      { sl.modTask fun t => { t with refire := 1 } with ch := [(1, BitVec.ofNat 128 c)] }
    let u := s 65534 false
    (u.cRuns ty ∧ (u.tileAt 0 5).valid = true ∧ (u.me.xr 1).toNat ≤ 65534 ∧ (127 : Word).toNat < 128 ∧ (u.core 0).regs.length < 256 ∧
      (u.core (u.me.te 7).core).regOf 0 0 7 = none ∧ (u.me.te 7).lcValid = false ∧ u.me.cs.waiting = none) ∧
    (let w := u.modMe fun sl => { sl.setTe 7 { sl.te 7 with core := 0, abs := 5 } with cs := { sl.cs with waiting := some (.time 0) } }
     w.cRuns ty ∧ w.me.cs.waiting.isSome = true ∧ (w.me.te 7).core = w.cur.core ∧ (w.me.te 7).abs = 5 ∧
       max (w.me.xr 1).toNat 1 ≤ (w.tileAt 0 5).vint ∧ (w.core 0).regs.length < 256) ∧
    (u.me.finalEff false = false ∧ max (u.me.xr 1).toNat 1 ≤ (u.tileAt 0 5).vint) ∧
    (¬ (((s 65533 false).tileAt 0 5).sealed = true ∨ max (u.me.xr 1).toNat 1 ≤ ((s 65533 false).tileAt 0 5).vint)) ∧
    ((s 1 true).tileAt 0 5).sealed = true ∧
    (capGrants (u.me.cap 1) 4 2 = true ∧ capDev (u.me.cap 1) = u.mgmt.dev ∧ capObj (u.me.cap 1) < 512) ∧ capGrants (u.me.cap 2) 4 2 = false := by
  repeat' apply And.intro
  all_goals decide +kernel
/-- A group of 0 and of 64 members; each state of a group; a cask being racked and fetched back. -/
theorem wit_SettleAndCaskResults :
    let s := (px (px (px sC 1 0x3FF00) 2 64) 3 10).modPart 0 fun q => { q with coreMask := 1 }
    let t : State := { s with time := 7560 }
    let g (x : Settle) : State := t.modPart 0 fun q => q.setSettle 2 x
    let k (x : CaskCopy) : State := sC.modCask 0 15 fun y => { y with copy := x }
    (0x3FF00 % 4 = 0 ∧ (s.me.xr 2).toNat % 2 ^ 7 = 64 ∧ 0x3FF00 + 4 * 64 ≤ 0x40000 ∧ s.homePoison 0x3FF00 256 = false ∧
      ∀ w ∈ (List.range 64).map (fun i => s.homeNat (0x3FF00 + 4 * i) 4), w < 2 ^ 17 ∧ (s.part s.me.t.part).coreMask.getLsbD (w / 2 ^ 9) = true) ∧
    (((s.part 0).settleAt 2).defined = false ∧ s.me.cs.waiting = none) ∧ (((g ⟨true, [], false, 0, true⟩).part 0).settleAt 2).latch = true ∧
    ((((g ⟨true, [], false, 0, false⟩).part 0).settleAt 2).latch = false ∧ (t.me.xr 3).toNat ≤ t.now ∧ s.now < (s.me.xr 3).toNat) ∧
    ((k .racking).core 0 |>.cask 15).copy = .racking ∧ ((k .fetching).core 0 |>.cask 15).copy = .fetching ∧
    ((k .none).core 0 |>.cask 15).copy ≠ .racking ∧ ((k .racking).core 0).frozen = false ∧
    (let x : Settle := ⟨true, [⟨0, 5⟩], false, 0, false⟩
     ((g x).part 0).settleAt 2 = x ∧ (g x).settled x = true) := by
  repeat' apply And.intro
  all_goals decide +kernel
/-- A record of count 2, 1 and 0; the last record, held or not, with an image that passes and one that does not; each field at its
greatest value. -/
theorem wit_DecrementResults :
    let r (st : RecState) (n : Nat) : State := sC.modPart 0 fun q => { q with recs := q.recs.put 4095 { Record.reset with st := st, count := n } }
    let s := (px sC 1 4095).modPart 0 fun q => { q with poolBase := 0x100000 }
    ((r .armed 2).lrec 0 4095).count = 2 ∧ ((r .armed 1).lrec 0 4095).count = 1 ∧ ((r .armed 0).lrec 0 4095).count = 0 ∧
    ((r .ready 0).lrec 0 4095).st = .ready ∧
    (s.cRuns ty ∧ (s.me.xr 1 + (0#16).setWidth 64).toNat = 4095 ∧ (s.lrec 0 4095).st = .idle ∧
      poisoned s.memPoison 64 (s.lrecAddr 0 4095) 64 = false ∧ armCheck (s.lrecImage 0 4095) = none) ∧
    (let s := { s with memPoison := [(s.lrecAddr 0 4095) / 64] }
     poisoned s.memPoison 64 (s.lrecAddr 0 4095) 64 = true ∧ (s.lrec 0 4095).st = .idle) ∧
    armCheck (2 ^ 64) = some fAlign ∧ 2 ^ 52 - 128 < 2 ^ 52 ∧ (2 ^ 52 - 128) % 128 = 0 := by
  repeat' apply And.intro
  all_goals decide +kernel
/-- Queue 7 of function 0 with one packet of each kind, the tail writes at the ring's size, and a settled group. -/
theorem wit_QueueEngineResults :
    let e : Word := 1 + 2 ^ 10 + 2 ^ 16 + 2 ^ 32 + 2 ^ 33
    let x : LQueue := { LQueue.reset with en := true, base := 0x100000, lsz := 4, tail := 1 }
    let s (v : Nat) : State := ((sC.modPart 0 fun q => { q with funcMask := 1, poolBase := 0x200000, acl := [(255, e)] }).modFn 0 fun fn =>
      { fn.putQ 7 x with ready := true }).pwrite none 0x100000 (natLe 64 v)
    let h (s : State) (v : Nat) : Prop := s.queueReady 0 7 = true ∧ s.queueTurn 0 7 = true ∧ s.packetAt 0 7 = .ok v ∧ packetCheck v = .ok () ∧ s.partOfFn 0 = some 0
    h (s (4095 * 2 ^ 8)) (4095 * 2 ^ 8) ∧ h (s 1) 1 ∧ h (s 2) 2 ∧ h (s 3) 3 ∧ patchCheck 0 0 = .ok (3, 2) ∧ h (s (4 + 2 ^ 25)) (4 + 2 ^ 25) ∧
    (((s 0).lrec 0 4095).gen.toNat = (2 ^ 25) / 2 ^ 128 % 2 ^ 32 ∧ ((s 0).lrec 0 0).gen.toNat ≠ (2 ^ 128) / 2 ^ 128 % 2 ^ 32) ∧
    (((s 0).fn 0).ready = true ∧ (((s 0).fn 0).q 7).fab = false ∧ ((s 0).fn 0).sw = .isIn ∧ (((s 0).fn 0).q 7).overrun = false ∧
      (((s 0).fn 0).q 6).en = false) ∧
    (12 ≤ (49 : Word).toNat / 4 % 16 ∧ (49 : Word).getLsbD 0 = true) ∧
    (let t := (s 0).modQ 0 7 fun q => { q with fab := true }
     (t.part 0).admits 0 0 0 7 0 = true ∧ ((t.fn 0).q 7).en = true ∧ (((t.fn 0).q 7).tail - ((t.fn 0).q 7).head).toNat < 2 ^ 4 ∧
       t.pieces none 0 0 .wr (0x100000 + 64 * 1) 64 = .ok [(0x100040, 64)]) ∧
    (let t := sC.modPart 0 fun q => { q with recs := q.recs.put 4095 { Record.reset with st := .ready } }
     (t.lrec 0 4095).st = .ready ∧ (t.lrec 0 4095).eligible = false ∧ (t.lrec 0 4095).held.toNat / 2 ^ 384 % 2 ^ 64 ≤ t.now) ∧
    (let x : Settle := ⟨true, [⟨0, 5⟩], true, 4095, false⟩
     let t := sC.modPart 0 fun q => q.setSettle 63 x
     ((t.part 0).settleAt 63).defined = true ∧ t.settled x = true ∧ ((t.part 0).settleAt 63).rel = true) := by
  repeat' apply And.intro
  all_goals decide +kernel
/-- Tile 5 in each state that takes a new summary, and one that holds a summary of each kind. -/
theorem wit_SummaryResults :
    let big : Tile := { home with size := 65 }
    let ok (t : Tile) : Bool := let s := tl sC 5 t
      decide (topCheck s.me 5 true = .ok ()) && decide (s.place 0 0 5 true = .tile 0 5) && (s.tileAt 0 5).valid && decide (recSize 1 ≤ (s.tileAt 0 5).bytes)
    let s (k : Nat) : State := (tl (tl sC 5 { big with st := .ready, addr := 64 }) 6 { big with st := .ready }).putRec 0 0 (newRec k 7)
    (ok big = true ∧ big.st = .empty ∧ ok { big with st := .ready } = true ∧ ok { big with shd := true } = true ∧
      ok { big with shd := true, sealed := true } = true ∧ ok { big with sealed := true } = true ∧
      ¬ ({ big with shd := true }.st = .draining)) ∧
    (let u := (s 3).putRec 0 4096 (newRec 3 7)
     (6 : Word).toNat < 2 ^ 12 ∧ topCheck u.me 6 false = .ok () ∧ u.place 0 0 6 false = .tile 0 6 ∧ u.storeWaits 0 6 = false ∧
       u.recAt 0 (u.tileAt 0 6).at (u.tileAt 0 6).bytes = .ok (newRec 3 7) ∧ u.recAt 0 (u.tileAt 0 5).at (u.tileAt 0 5).bytes = .ok (newRec 3 7) ∧
       mergeable (newRec 3 7) (newRec 3 7) = true) ∧
    ((s 1).recAt 0 0 4160 = .ok (newRec 1 7) ∧ (s 1).storeWaits 0 6 = false ∧ quantileArg (fdec 0 0 0x3FE0000000000000) ≠ none) ∧
    ((s 2).recAt 0 0 4160 = .ok (newRec 2 7) ∧ topEntry ⟨0, false, 7, List.replicate 64 ⟨0, 0, 0⟩⟩ 1 = none ∧
      topEntry ⟨1, false, 7, ⟨9, 0, 1⟩ :: List.replicate 63 ⟨0, 0, 0⟩⟩ 0 ≠ none) := by
  repeat' apply And.intro
  all_goals decide +kernel
/-- Amounts at the last number, of currencies with all and with none of it free; each selector's conditions. -/
theorem wit_TicketAndCurrencyResults :
    let s := sC.modMe fun sl => { sl with priv := 1 }
    let e : Currency := { parent := 0, valid := true, depth := 1, owner := 31, funding := 5, issued := 0, resv := 0 }
    let t := px (s.modCur 9 fun _ => e) 2 (31 * 2 ^ 8)
    (s.cRuns ty ∧ (s.me.regLit (.lit 0xFFFFFFFF)).toNat ≤ 0xFFFFFFFF ∧ (s.cur? 0).valid = true ∧ s.me.privileged = true) ∧
    (((s.withdraw s.me.hold).cur? 0).issued + 0 ≤ 0xFFFFFFFF ∧
      0xFFFFFFFF < (((s.modCur 0 fun c => { c with issued := 1 }).withdraw s.me.hold).cur? 0).issued + 0xFFFFFFFF) ∧
    ((63 : Nat) ≤ 63 ∧ ((tl s 63 home).tileAt 0 63).valid = true) ∧ mayRead s 0 = true ∧
    ((t.cur? 9).valid = true ∧ (t.me.xr 2).toNat % 2 ^ 8 = (t.cur? 9).parent ∧ (t.me.xr 2).toNat / 2 ^ 8 = (t.cur? 9).owner ∧ (t.cur? 9).issued = 0) ∧
    ((t.cur? 255).valid = false ∧ (t.cur? ((t.me.xr 2).toNat % 2 ^ 8)).valid = true ∧ (t.cur? 0).depth ≠ 4) ∧
    sC.me.privileged = false := by
  repeat' apply And.intro
  all_goals decide +kernel
/-- A packet to queue 7 of function 0; messages to the own inbox 3 with room and without, to a free slot and to a core of no partition. -/
theorem wit_MessageResults :
    let acl : Word := 1 + 2 ^ 10 + 2 ^ 16 + 2 ^ 32 + 2 ^ 33
    let x : LQueue := { LQueue.reset with en := true, fab := true, base := 0x100000, lsz := 4 }
    let cap (kind core slot obj : Nat) : BitVec 128 := BitVec.ofNat 128 (7 + kind * 2 ^ 8 + core * 2 ^ 25 + slot * 2 ^ 33 + obj * 2 ^ 36 + 2 ^ 64)
    let s := ((px (px sC 1 0x200000) 2 0x3FFC0).modPart 0 fun q => { q with funcMask := 1, acl := [(255, acl)], coreMask := 1 }).modFn 0 fun fn =>
      { fn.putQ 7 x with ready := true }
    let c (kind core slot obj : Nat) : State := s.modMe fun sl => { sl with ch := [(5, cap kind core slot obj)] }
    let m : Message := ⟨List.replicate 64 0, 0, 0, 0, 0, 0⟩
    let away (s : State) : State := s.modMgmt fun m => { m with dev := 1 }
    let ib (l : List Message) : State := (c 2 0 0 3).modMe fun sl => sl.setBox 3 l
    (let t := c 3 0 0 7
     let e := t.me.cap 5
     (e % 2 = 1 ∧ capValid e = true ∧ e.testBit 1 = true ∧ capKind e = 3 ∧ capAllow e ≠ 0 ∧ capObj e / 8 % 256 ≤ 128 ∧ (capObj e).testBit 11 = false) ∧
       t.me.cs.waiting = none ∧ t.dataPa (t.me.xr 1) 64 .rd = .ok 0x200000 ∧ poisoned t.memPoison 64 0x200000 64 = false ∧ capDev e = t.mgmt.dev ∧
       ((t.observe t.agent 0x200000 64).peerPacket ⟨t.mgmt.dev, t.me.t.part, capObj e / 8 % 256, capObj e % 8,
         BitVec.ofNat 512 (leNat (t.mem.read 0x200000 64))⟩).isSome = true ∧
       capDev e ≠ (away t).mgmt.dev ∧ (((away t).fn (away t).me.t.fn).port 0).length < 8) ∧
    (let t := (c 3 0 0 7).modMe fun sl => { sl with cs := { sl.cs with waiting := some (.sent 4 5 8 3 0) } }
     let x : PortPacket := ⟨.queue 0 0 7 0, 0, List.replicate 64 0, 4⟩
     t.me.cs.waiting = some (.sent 4 5 8 3 0) ∧ (t.fn 0).unsent 4 = false ∧ (((t.toPort 0 0 x).getD t).fn 0).unsent 4 = true) ∧
    (let t := ib []
     let e := t.me.cap 5
     (capGrants e 2 1 = true ∧ capGrants e 2 2 = true ∧ capObj e ≤ 3 ∧ capAllow e ≠ 0 ∧ (t.me.xr 2 + (0#16).setWidth 64).toNat % 64 = 0 ∧
       (t.me.xr 2).toNat + 64 ≤ 0x40000 ∧ t.homePoison 0x3FFC0 64 = false ∧ capDev e = t.mgmt.dev ∧ capCore e = 0 ∧ capSlot e = 0) ∧
       capDev e ≠ (away t).mgmt.dev ∧ (((away t).fn 0).port 0).length < 8 ∧
       t.admitsMsg t.mgmt.dev t.me.t.part 0 = true ∧ (t.slotAt 0 0).task.isSome = true ∧ t.me.cs.waiting = none ∧ t.me.box 3 = [] ∧ (t.slotAt 0 0).out = false) ∧
    ((c 2 0 1 3).slotAt 0 1).task = none ∧ (c 2 1 0 3).admitsMsg 0 0 1 = false ∧ 16 ≤ ((ib (List.replicate 16 m)).me.box 3).length ∧
    ((ib (List.replicate 15 m)).me.box 3).length < 16 ∧
    (let t : State := { ib [] with time := 7560 }
     (10 : Word).toNat ≤ t.now ∧ t.now < (11 : Word).toNat) ∧
    (let w := px ((sW 0x2051047A9 (.message 3 10)).modMe fun sl => { sl with ch := [(5, cap 2 0 0 3)] }) 2 10
     (w.slotAt 0 0).cs.stopReq = none ∧ (w.core 0).frozen = false ∧ w.fetch 0 0 .c = .ok 0x2051047A9 ∧ decodeC 0x2051047A9 = .ok (.chrcv ⟨ty, 3, 1, 2, 5, 0, 0⟩, .k64) ∧ 10 ≤ w.now ∧
       ((px w 1 0).me.xr 1 + (0#16).setWidth 64).toNat % 64 = 0 ∧ (w.me.xr 2).toNat = 10 ∧ w.me.box (capObj (w.me.cap 5)) = []) := by
  repeat' apply And.intro
  all_goals decide +kernel
/-- Capabilities of limited and unlimited uses; a doubleword of host memory and one of HBM. -/
theorem wit_CapabilityAndPubhResults :
    let s (n : Nat) : State := sC.modMe fun sl => { sl with ch := [(5, BitVec.ofNat 128 (7 + 2 * 2 ^ 8 + 3 * 2 ^ 36 + n * 2 ^ 64))] }
    let h := px { (sC.modPart 0 fun q => { q with hostR := [(0, 2 ^ 64)] }) with tlb := [⟨0, 0, 2 ^ 40, 16, 2 ^ 51 + 0xD⟩], atc := [(0, 0)] } 1 (2 ^ 40)
    (capValid ((s 4).me.cap 5) = true ∧ capObj ((s 4).me.cap 5) ≤ 3 ∧ capAllow ((s 4).me.cap 5) = 4 ∧ (4 : Word).toNat ≤ 4) ∧
    capAllow ((s 0xFFFFFFFF).me.cap 5) = 0xFFFFFFFF ∧
    (h.cRuns ty ∧ h.dataPa (h.me.xr 1 + (0#16).signExtend 64) 8 .rw = .ok (2 ^ 51) ∧ isHost (2 ^ 51) = true) ∧
    (sC.dataPa 0x100000 8 .rw = .ok 0x100000 ∧ isHost 0x100000 = false) := by
  repeat' apply And.intro
  all_goals decide +kernel
theorem wit_RegisterFilesStayCanonical : sC.filesWf = true ∧ Out.isNext (step sC) = true := by
  repeat' apply And.intro
  all_goals decide +kernel
theorem wit_VectorIntegerResults :
    let t := sV.modMe fun sl => { sl with vpoison := [4096 / 8 * 23] }
    sV.vRuns ∧ sV.me.readsPoison 23 sV.me.eb sV.me.n (sV.me.active ty) = false ∧
      t.me.readsPoison 23 t.me.eb t.me.n (t.me.active ty) ≠ false := by
  repeat' apply And.intro
  all_goals decide +kernel
/-- The widths 1 to 8; the last element and the one after it; shapes accepted and refused; a register that holds a shape. -/
theorem wit_VectorCompareMoveMaskResults :
    let n := s8.me.n
    let t := sV.modMe fun sl => sl.setV 3 0x08080010
    fmtWidth 1 = 8 * sV.me.eb ∧
    s8.me.readsPoison 2 s8.me.eb n (fun i => !s8.me.active ty i) = false ∧
    (s8.vRuns ∧ (7#16).toNat < n ∧ n ≤ (8#16).toNat ∧ s8.me.vpoisoned 1 (s8.me.eb * 7) s8.me.eb = false) ∧
    (vshapeOk 0x08080010 = true ∧ vshapeOk 0 = false) ∧
    (t.vRuns ∧ t.me.vpoisoned 3 0 4 = false ∧ (t.me.vr 3).setWidth 32 = 0x08080010#32) := by
  repeat' apply And.intro
  all_goals decide +kernel
theorem wit_VectorFpResults :
    sV.vRuns ∧ fmtWidth 1 = 8 * sV.me.eb ∧ fmtWidth 0 ≠ 8 * sV.me.eb ∧
      sV.me.readsPoison 23 sV.me.eb sV.me.n (sV.me.active ⟨7, true⟩) = false := by
  repeat' apply And.intro
  all_goals decide +kernel
/-- Both sides of the limit of a register. -/
theorem wit_VectorConversionResults :
    s8.me.n * max 8 4 ≤ 4096 ∧ sV.me.n * max 4 4 = 4096 ∧ 4096 < sV.me.n * max 8 4 ∧
      sV.me.readsPoison 23 8 sV.me.n (sV.me.active ty) = false := by
  repeat' apply And.intro
  all_goals decide +kernel
/-- Tile 5 for loads, with the last element at its last byte and beyond it; for stores in each of its states. -/
theorem wit_VectorMemoryResults :
    let t : Tile := { home with st := .ready, size := 1 }
    let s := tl s8 5 t
    let short := tl s8 5 { t with size := 0 }
    let q := s.modMe fun sl => { sl with oq := [(1, List.replicate 8 0)] }
    let e := tl s8 5 { t with st := .empty }
    let sh (x : Bool) : State := tl s8 5 { t with shd := true, saddr := 1, sealed := x }
    (s.vRuns ∧ topCheck s.me 5 false = .ok () ∧ s.place 0 0 5 false = .tile 0 5 ∧ (s.tileAt 0 5).valid = true ∧ (s.tileAt 0 5).racked = false ∧
      (s.tileAt 0 5).st = .ready ∧ s.storeWaits 0 5 = false ∧
      ∀ i, i < s.me.n → i / vCols s.me.vshape * (vCols s.me.vshape * s.me.eb) + i % vCols s.me.vshape * s.me.eb + s.me.eb ≤ (s.tileAt 0 5).bytes ∧
        s.spPoisoned 0 ((s.tileAt 0 5).at + i * s.me.eb) s.me.eb = false) ∧
    ((7 : Nat) < short.me.n ∧ short.me.active ty 7 = true ∧ (short.tileAt 0 5).bytes < 7 * 4 + short.me.eb ∧ short.me.eb = 4) ∧
    (s.me.vpoisoned 23 0 8 = false ∧ VWord.nat (s.me.vr 23) 4 4 % s.me.eb = 0) ∧
    (let p := q.modMe fun sl => { sl with oqPoison := [(1, [7])] }
     (∀ j ∈ Sparse.get [] q.me.oqPoison 1, 8 ≤ j) ∧ (∃ j ∈ Sparse.get [] p.me.oqPoison 1, j < 8)) ∧
    (((List.range q.me.n).filter (q.me.active ty)).length ≤ (Sparse.get [] q.me.oq 1).length ∧
      (Sparse.get [] s.me.oq 1).length < ((List.range s.me.n).filter (s.me.active ty)).length) ∧
    (topCheck e.me 5 true = .ok () ∧ e.place 0 0 5 true = .tile 0 5 ∧ (e.tileAt 0 5).st = .empty ∧ (e.core 0).regsOn 5 = []) ∧
    ((s.tileAt 0 5).readers = 0 ∧ (s.tileAt 0 5).sealed = false) ∧
    (((sh false).tileAt 0 5).sfillCmd = false ∧ ((sh false).tileAt 0 5).oldReaders = 0 ∧ ((sh true).tileAt 0 5).sealed = true) := by
  repeat' apply And.intro
  all_goals decide +kernel
/-- As many elements as a register holds; a view of the whole share, and an invalid one, one with too few rows and one with too few
columns; a distance of 0 and beyond the register; eight registers up to the last. -/
theorem wit_VectorAccumulatorAndPermutationResults :
    let o : VacOp := { pr := ty, r := 1, view := 7, afmt := 0, r0 := 127, cg := 31, fmt := 1, rm := 0, ovf := false }
    let s := s8.modMe fun sl => { sl with acc := [(7, 0x4F83F80)] }
    (s.vRuns ∧ vacCheck s.me o = .ok ⟨0, 128, 0, 32⟩ ∧ poisoned (s.core 0).acsPoison 8 0 4 = false) ∧
    (s8.me.readsPoison 23 s8.me.eb (s8.me.selected ty).length (fun _ => true) = false) ∧
    (slideDist s8.me (.imm 0) = (0, false) ∧ slideDist s8.me (.reg 23 9) = (9, false)) ∧
    (∀ r, r < 8 → s8.me.readsPoison (16 + r) 8 512 (fun _ => true) = false) ∧
    (8 * (List.replicate 512 0).length ≤ 4096 ∧ Sparse.wfFrom (0 : VWord) 0 (s8.modMe fun sl => sl.setV 3 5).me.v = true) ∧
    (viewOk (sV.me.view 7) = false ∧ viewOk (s.me.view 7) = true ∧ (viewOf (s.me.view 7)).mr < 127 + vRows sV.me.vshape ∧
      (viewOf (s.me.view 7)).nc 0 < 8 * 31 + vCols sV.me.vshape) := by
  repeat' apply And.intro
  all_goals decide +kernel
/-- A stream of 2,048 records of the shape asked for, and an empty one; summaries of each kind. -/
theorem wit_ConditionalStreamAndSummaryResults :
    let q (l : List (List Word)) : State := s8.modMe fun sl => sl.setCondQ 1 ⟨l, 1, 2⟩
    let s (k : Nat) : State := (tl s8 5 { home with st := .ready, size := 65 }).putRec 0 0 (newRec k 7)
    let k1 : Qsk := ⟨0, 0, false, 7, 0, 0, List.replicate 8 []⟩
    (((q (List.replicate 2040 [0])).me.condQ 1).recs.length + (s8.me.selected ty).length ≤ 2048 ∧
      ((q (List.replicate 2040 [0])).me.condQ 1).ew = vEw s8.me.vshape) ∧
    (((q []).me.condQ 1).recs = [] ∧ (q [[5]]).me.filesWf = true ∧ ((q [[5]]).me.condQ 1).fld = 1 ∧ (q [[5]]).me.eb * (q [[5]]).me.n ≤ 4096) ∧
    (topCheck (s 1).me 5 true = .ok () ∧ (s 1).place 0 0 5 true = .tile 0 5 ∧ ((s 1).tileAt 0 5).st = .ready ∧ ((s 1).tileAt 0 5).readers = 0 ∧
      (s 1).recOf 0 0 4160 1 = .ok (.qsk k1) ∧ fmtWidth 1 = 8 * (s 1).me.eb) ∧
    ((s 2).recOf 0 0 4160 2 = .ok (newRec 2 7) ∧ (s 2).me.eb ≠ 8) ∧ (s 3).recOf 0 0 4160 3 = .ok (newRec 3 7) ∧
    ((clipArgs (s 1).me 1 2).toOption.isSome = true ∧ (s 1).storeWaits 0 5 = false) := by
  repeat' apply And.intro
  all_goals decide +kernel
def unitOk : UnitRes → Bool
  | .ok _ => true
  | _ => false
/-- The units of a plan all complete, and what it does last. -/
def givesAll (s : State) (r : RingId) (p : Plan) : Bool :=
  match runUnits p.unit (fun _ => false) (p.n - (s.me.ring r).head.prog) (s.beginHead s.cur.core s.cur.slot r) (s.me.ring r).head.prog with
  | (k, .ok t) => k == p.n && unitOk (p.last t)
  | _ => false
theorem givesAll_sound {s : State} {r : RingId} {p : Plan} (h : givesAll s r p = true) : ∃ u, s.unitsGive r p u := by
  unfold givesAll at h
  split at h
  · rename_i k t e
    simp only [Bool.and_eq_true, beq_iff_eq] at h
    cases hl : p.last t with
    | ok u => exact ⟨u, t, by rw [e, h.1], hl⟩
    | _ => rw [hl] at h; simp [unitOk] at h
  · simp at h
/-- The engine of ring r stands at a head, which has taken tile 5, of one granule, as its operand and its destination. -/
def sH (st : Strm) (r : RingId) (w : BitVec 128) (ph : HeadPhase) : State :=
  let h : HeadSt := { HeadSt.reset with phase := ph, dst := some ⟨0, 5, 0⟩, ops := [some ⟨0, 5, 0, true⟩] }
  { withRing (tl sC 5 { home with st := .filling, size := 1 }) r { ring0 with wp := 1, entries := [(0, w)], head := h } with cur := ⟨0, 0, st⟩ }
theorem wit_RingCommandsComplete :
    ((sH .x .x 2 .ready).headWorks .x ∧
      ∃ u, (sH .x .x 2 .ready).unitsGive .x (xPlan .fil (xOf 2) (sH .x .x 2 .ready) (sH .x .x 2 .ready).me.xring.head) u) ∧
    ((sH .s .s 3 .active).headWorks .s ∧
      ∃ u, (sH .s .s 3 .active).unitsGive .s (sPlan 3 (sOf 3) (sH .s .s 3 .active) (sH .s .s 3 .active).me.sring.head) u) ∧
    xKind 2 = some .fil := by
  refine ⟨⟨?_, givesAll_sound ?_⟩, ⟨?_, givesAll_sound ?_⟩, ?_⟩
  all_goals first | decide +kernel | exact ⟨by decide +kernel, by decide +kernel⟩
/-- The engine of ring r at the last unit of its head, whose descriptor names one element of 64 bytes. -/
def sX (st : Strm) (r : RingId) (f : HeadSt → HeadSt) : State :=
  let d : BitVec 1024 := BitVec.ofNat 1024 (0x100000 + 6 * 2 ^ 128 + 2 ^ 132 + 2 ^ 256 + 2 ^ 320)
  (sH st r 1 .active).modMe (·.modRing r fun q => { q with head := f { q.head with desc := d } })
theorem wit_RingCommandsComplete_ends :
    let s := sX .x .x fun h => { h with hostC := some 0 }
    let h := s.me.xring.head
    let d := h.desc.toNat
    (s.headWorks .x ∧ (h.prog + 1 = dCount d * elemUnits (dElem d) ∧ dAddr d 0 = .ok 0x100000) ∧
      s.xPieces .rd 0x100000 64 0x100000 = .ok [(0x100000, 64)] ∧ s.xPieces .wr 0x100000 64 0x100000 = .ok [(0x100000, 64)] ∧
      shadowVa d false 0x100000 = 0x100000) ∧
    (h.prog + 1 = dBound d 0 * elemUnits (dElem d) ∧ idxAddr s h d 0 = .ok 0x100000) ∧
    (h.prog + 1 = dCount d ∧ (s.me.mqOf 3).length < 64 ∧ s.xPieces .rd 0x100000 2 0x100000 = .ok [(0x100000, 2)] ∧
      s.ppoison [(0x100000, 2)] = false ∧ popCount16 (leNat (s.preads [(0x100000, 2)])) ≤ 8) ∧
    (h.prog + 1 = 0x10000 / 2 ^ 16 ∧ s.spPoisoned (opAt h 0).1 ((opAt h 0).2 + 2 * h.prog) 2 = false ∧
      popCount16 (leNat (s.spRead (opAt h 0).1 ((opAt h 0).2 + 2 * h.prog) 2)) ≤ 8) ∧
    (let t : State := { (s.modMe (·.modRing .x fun q => { q with head := { q.head with hostC := none } })) with mem := s.mem.write 0 (List.replicate 8 0) }
     t.headWorks .x ∧ t.me.xring.head.hostC = none ∧ dSva d % 8 = 0 ∧ t.xPieces .rd (dSva d) 8 (dSva d) = .ok [(0, 8)] ∧
       t.ppoison [(0, 8)] = false ∧ leNat (t.preads [(0, 8)]) = 0 ∧
       (t.misses 0 0 .rd (dSva d) 8).xPieces .wr 0x100000 64 0x100000 = .ok [(0x100000, 64)]) ∧
    (((s.core 0).cask (caskOf 6 (s.tileAt 0 6))).copy = .none ∧ h.prog = 0 ∧ (s.tileAt 0 5).home = true ∧ (s.tileAt 0 6).home = false ∧ ((s.core 0).cask (caskOf 6 (s.tileAt 0 6))).racked = false ∧
      ((s.core 0).cask (caskOf 6 (s.tileAt 0 6))).pin = false ∧ (s.core 0).caskIdle (caskOf 6 (s.tileAt 0 6)) = true) ∧
    (h.prog + 1 = 1 * elemUnits (dElem d) ∧ h.hostC = some 0 ∧ ((dHptr d + 0) % 2 ^ 64 + 2 ^ 64 - 0) % 2 ^ 64 < dBound d 0 ∧
      elemAddr (dElem d) ((dBase d : Int) + ((dHptr d + 0) % 2 ^ 64 % dBound d 0 * dElem d : Nat)) = .ok 0x100000) := by
  repeat' apply And.intro
  all_goals decide +kernel
/-- A fill of two bursts in the engine of slot 0, at its first; a head at whose stop point a stop is requested; a source
without entries and one at its last. -/
theorem wit_RingCommandsComplete_parts :
    let s := (tl (sH .x .x 2 .ready) 5 { home with st := .filling, size := 64 }).modEng 0 .cpe fun x => { x with holder := some 0 }
    let h := (sH .x .x 2 .ready).modMe fun sl => { sl with estop := [(3, some .fault)] }
    let e := sH .s .s 3 .ready
    let t := e.modCore 0 fun co => { co with scratch := co.scratch.setNat 0 8 1 }
    let x : SrcTile := ⟨0, 0, 64⟩
    (xKind ((s.ringAt 0 0 .x).headBits .x) = some .fil ∧ (s.core 0).cpe.holder = some 0 ∧ (s.core 0).frozen = false ∧ s.headWorks .x ∧
      (s.ringAt 0 0 .x).head.prog + 1 < (xPlan .fil (xOf 2) s s.me.xring.head).n) ∧
    h.me.headHalts .x = true ∧
    (e.headWorks .s ∧ (e.opSize e.me.sring.head.ops 0).getD 0 = 64 ∧ srcTotal e x 3 (sOf 3) ≤ e.me.sring.head.prog ∧
      srcPos e x 3 (sOf 3) (srcTotal e x 3 (sOf 3)) = .ok none) ∧
    (t.me.sring.head.prog + 1 = srcTotal t x 3 (sOf 3) ∧ srcPos t x 3 (sOf 3) 0 = .ok (some 0) ∧ srcPos t x 3 (sOf 3) 1 = .ok none ∧
      (t.me.oqOf 0).length < 512 ∧ srcBase t x + 0 < 2 ^ 32) := by
  repeat' apply And.intro
  all_goals decide +kernel
theorem wit_FillAndIndexResults :
    let s := sH .x .x 2 .ready
    let t := (sH .s .s 3 .ready).modCore 0 fun co => { co with scratch := co.scratch.setNat 0 8 1 }
    let x : SrcTile := ⟨0, 0, 64⟩
    (s.headWorks .x ∧ s.me.xring.head.prog = 0 ∧ s.me.xring.head.dst = some ⟨0, 5, 0⟩ ∧ s.me.xring.head.dshd = false ∧
      s.opSize s.me.xring.head.ops 0 = some 64 ∧ 64 % 64 = 0 ∧ s.storesWf = true) ∧
    (t.headWorks .s ∧ (t.opSize t.me.sring.head.ops 0).getD 0 = 64 ∧ srcCount t x = 1 ∧ 8 + 1 * 2 ^ 3 ≤ x.bytes ∧ t.spPoisoned 0 0 8 = false ∧
      (∀ j, j < 1 → t.spPoisoned 0 (0 + (8 + j * 8)) 8 = false) ∧ srcBase t x + leNat (t.spRead 0 8 8) < 2 ^ 32 ∧ (t.me.oqOf 1).length + 1 ≤ 512) := by
  repeat' apply And.intro
  all_goals decide +kernel
/-- Views of the whole share; units that complete; an engine held; a note at the head; a group of two cores. -/
theorem wit_MatrixResults :
    let v : BitVec 32 := 0x4F83F80
    let s (w : BitVec 128) : State := (sH .m .m w .ready).modMe fun sl => { sl with acc := [(0, v)] }
    let b := (s 1).beginHead 0 0 .m
    let m := mmaRegs (s 1).me ((s 1).me.mring.headBits .m)
    ((s 3).headWorks .m ∧ (s 3).me.mring.head.prog = 0 ∧ viewOk (((s 3).beginHead 0 0 .m).me.view 0) = true ∧ viewOk v = true) ∧
    (unitOk (mexpRun { mxfOf 4 with pl := false } ((s 4).beginHead 0 0 .m)) = true) ∧
    ((s 1).me.coop = false ∧ copOf ((s 1).me.mring.headBits .m) = 1 ∧
      (runUnits (mmaUnit (s 1).myId (s 1).myId) (fun _ => false) (m.passes * passUnits m.rows) b 0).1 = m.passes * passUnits m.rows) ∧
    ((withRing sC .x { ring0 with wp := 1, entries := [(0, 11)], head := { HeadSt.reset with phase := .decided } }).me.xring.len ≠ 0) ∧
    (((s 1).core 0).frozen = false ∧ (s 1).me.mring.head.sealCut = false ∧ m.c.pv = 0 ∧ m.s2 = false) ∧
    ((s 4).headWorks .m ∧ (s 4).spPoisoned 0 (64 * 5) 4096 = false) := by
  repeat' apply And.intro
  all_goals decide +kernel
/-- A store without poison in every core that the state lists. -/
theorem unpoisoned_of {s : State} (h : (s.cores.all fun (_, co) => co.scratchPoison.isEmpty && co.acsPoison.isEmpty) = true) :
    s.unpoisoned := by
  intro c
  unfold State.core
  generalize s.cores = l at h
  induction l with
  | nil => exact ⟨rfl, rfl⟩
  | cons x t ih =>
    obtain ⟨k, v⟩ := x
    simp only [List.all_cons, Bool.and_eq_true, List.isEmpty_iff] at h
    simp only [Sparse.get]
    split
    · exact h.1
    · exact ih h.2
theorem wit_MatrixResults_unpoisoned : (sH .m .m 1 .ready).unpoisoned := unpoisoned_of (by decide +kernel)
/-- A refining command at its last unit, with a tile to publish. -/
theorem wit_MatrixResults_pass :
    let s := sH .m .m (1 + 32 * 2 ^ 43) .active
    let m := mmaRegs s.me (s.me.mring.headBits .m)
    let n := m.passes * passUnits m.rows
    let s := s.modMe (·.modRing .m fun q => { q with head := { q.head with prog := n - 1 } })
    let t := s.tileAt 0 5
    s.headWorks .m ∧ s.me.coop = false ∧ m.c.pv ≠ 0 ∧ s.me.mring.head.dst = some ⟨0, 5, 0⟩ ∧ s.me.mring.head.prog + 1 = n ∧
      s.me.mring.head.sealCut = false ∧ (s.core 0).sealsIn = [] ∧ t.sealed = false ∧ t.oldReaders = 0 ∧ t.vint < 65534 := by
  repeat' apply And.intro
  all_goals decide +kernel
/-- A fresh head whose guard is unresolved, and one whose guard drops it, with its semaphore reached and not; a finished head. -/
theorem wit_RingHeadResults :
    let s (w : BitVec 128) (ph : HeadPhase) : State :=
      withRing sC .x { ring0 with wp := 1, entries := [(0, w)], head := { HeadSt.reset with phase := ph } }
    let f (s : State) : BitVec 128 := (s.slotAt 0 0).xring.headBits .x
    (((s 10 .fresh).core 0).frozen = false ∧ ((s 10 .fresh).slotAt 0 0).headLive .x = true) ∧ checkCmd .x 10 = none ∧
    (((s (10 + 2 ^ 16) .fresh).slotAt 0 0).guard (cGds (f (s (10 + 2 ^ 16) .fresh))) = 0 ∧ checkCmd .x (10 + 2 ^ 16) = none) ∧
    (((s (10 + 2 ^ 22) .fresh).slotAt 0 0).guard (cGds (f (s (10 + 2 ^ 22) .fresh))) = 1 ∧ (f (s (10 + 2 ^ 22) .fresh)).getLsbD 22 = true ∧
      cAws (f (s (10 + 2 ^ 22) .fresh)) = 0 ∧ checkCmd .x (10 + 2 ^ 22) = none) ∧
    (let w : BitVec 128 := 10 + 2 ^ 4 + 2 ^ 64
     ¬ (cAws w = 0 ∨ cAwc .x w ≤ (((s w .awaitDrop).slotAt 0 0).sem (cAws w)).done.toNat)) ∧
    (let t := withRing sC .s { ring0 with wp := 1, head := { HeadSt.reset with phase := .finished } }
     (t.core 0).frozen = false ∧ (t.slotAt 0 0).sring.head.dshd = false ∧ (t.slotAt 0 0).sring.len ≠ 0 ∧ (t.slotAt 0 0).sring.head.phase = .finished ∧ (t.slotAt 0 0).sring.head.dst = none) := by
  repeat' apply And.intro
  all_goals decide +kernel
/-- An engine free with no candidate and with one; a holder at the end of its quantum, alone and with another slot ready. -/
theorem wit_EngineResults :
    let s := sH .x .x 2 .ready
    let t : State := { (s.modCore 0 fun co => co.putSlot 1 (co.slot 0)).modEng 0 .cpe fun x => { x with holder := some 0 } with cycle := quantum .cpe }
    ((sC.core 0).frozen = false ∧ (s.core 0).frozen = false ∧ (t.core 0).frozen = false ∧
      ((sC.modCore 0 fun co => { co with frozen := true }).core 0).frozen = true) ∧
    ((sC.core 0).cpe.holder = none ∧ sC.candidates 0 .cpe = [] ∧ s.candidates 0 .cpe ≠ []) ∧
    ((t.core 0).cpe.holder = some 0 ∧ (t.core 0).cpe.draining = false ∧ (t.core 0).cpe.quantumStart + quantum .cpe ≤ t.cycle ∧
      ∃ k ∈ t.candidates 0 .cpe, k ≠ 0) ∧
    (∀ k ∈ (s.modEng 0 .cpe fun x => { x with holder := some 0 }).candidates 0 .cpe, k = 0) ∧
    (let u := (sH .m .m 3 .ready).modCore 0 fun co => co.putSlot 1 (co.slot 0)
     let v := u.modEng 0 .mxe fun x => { x with holder := some 0 }
     (v.core 0).mxe.holder = some 0 ∧ (v.core 0).mxe.draining = false ∧ ∃ j ∈ v.candidates 0 .mxe, j ≠ 0) ∧
    (let u := sC.modMe fun sl => { sl with cs := { sl.cs with stopReq := some .fault } }
     (u.slotAt 0 0).cs.canStop = true ∧ (u.slotAt 0 0).dbg.st ≠ .halting ∧ (u.slotAt 0 0).cs.waiting = none) := by
  repeat' apply And.intro
  all_goals decide +kernel
/-- One step of two by two, in the middle of its command; a group of two cores. -/
theorem wit_MatrixResults_step :
    let s := (sH .m .m 1 .active).modMe fun sl =>
      let sl := { sl with acc := [(0, 0x4080080)], nest := [(0, 3)], g := [(0, 1 + 1 * 2 ^ 2)] }
      sl.modRing .m fun q => { q with head := { q.head with prog := 1, ops := [some ⟨0, 5, 0, true⟩, some ⟨0, 5, 0, true⟩] } }
    let u := s.modEng 0 .mxe fun x => { x with holder := some 0 }
    let m := mmaRegs u.me (u.me.mring.headBits .m)
    (u.headWorks .m ∧ u.me.coop = false ∧ (u.core 0).frozen = false ∧ (u.core 0).mxe.holder = some 0 ∧
      copOf (u.me.mring.headBits .m) = 1 ∧ u.me.mring.head.sealCut = false ∧ m.c.pv = 0 ∧ m.s2 = false ∧
      u.me.mring.head.prog < passUnits m.rows ∧ (u.cores.all fun (_, co) => co.scratchPoison.isEmpty && co.acsPoison.isEmpty) = true) ∧
    (1 + 1 < m.passes * passUnits m.rows ∧ 1 + 1 ≠ 1 ∧ (1 + 1) % passUnits m.rows ≠ 0 ∧ (1 + 1) % passUnits m.rows ≠ m.steps + 1 ∧
      unitOk (mmaUnit u.myId u.myId (u.beginHead 0 0 .m) 1) = true) := by
  repeat' apply And.intro
  all_goals decide +kernel
theorem wit_MatrixResults_group :
    let c := ((sH .m .m 1 .decided).modMe fun sl => { sl with nest := [(0, 2 + 2 ^ 32)] }).core 0
    let s : State := sC.modCore 0 fun _ => c
    let s := s.modCore 1 fun _ => c
    let m := mmaRegs (s.slotAt 0 0) ((s.slotAt 0 0).mring.headBits .m)
    m.coopN = 2 ∧ (groupCores 0 2).map (fun c => (groupSlot s c 0 2 m.c.ctag.toNat).map (SlotId.mk c)) = [some ⟨0, 0⟩, some ⟨1, 0⟩] ∧
    (∀ c ∈ groupCores 0 2, (s.core c).group = []) ∧ groupKey (s.slotAt 1 0) = groupKey (s.slotAt 0 0) := by
  repeat' apply And.intro
  all_goals decide +kernel
/-- A descriptor at the end of the home region, one off its alignment and one beyond it; a live collective. -/
def desc0 : Nat := 0x100000 * 2 ^ 64 + 512 * 2 ^ 192 + 2 * 2 ^ 238 + 7 * 2 ^ 264 + 0x16 * 2 ^ 512
def coll0 : Coll :=
  { cid := 7, core := 0, slot := 0, desc := BitVec.ofNat 1024 desc0, descOff := 0x3FF80, hops := 0, tok := false, flags := 0,
    skew := false, late := false, code := 0, sent := 0, queue := [], ended := false }
def withColl (c : Coll) : State := sC.modFn 0 fun fn => { fn with colls := [c] }
def sD' (d : Nat) : State :=
  ((px sC 1 0x3FF80).modCore 0 fun co => { co with scratch := co.scratch.write 0x3FF80 (natLe 128 d) }).modFn 0 fun fn =>
    { fn with ringTab := [(0, 1)] }
def sD : State := sD' desc0
theorem wit_CollectiveInstructionResults :
    (sD.cRuns ty ∧ collCheck sD (sD.me.xr 1 + (0#16).setWidth 64) = .ok desc0) ∧
    ((px sD 1 0x3FF81).me.xr 1).toNat % 128 ≠ 0 ∧ (0x40000 < ((px sD 1 0x40000).me.xr 1).toNat + 128 ∧ 0x40000 % 128 = 0) ∧
    (sD.collOf 0 7 = none ∧ (withColl coll0).collOf 0 7 = some coll0) ∧
    (let v := sD.homeNat 0x3FF80 128
     sD.homePoison 0x3FF80 128 = false ∧ (sD.modCore 0 fun co => { co with scratchPoison := [0x7FF0] }).homePoison 0x3FF80 128 = true ∧
       kFieldsOk v = true ∧ (Sparse.get 0 (sD.fn 0).ringTab (kRing v)).toNat.testBit 0 = true ∧
       (Sparse.get 0 (sC.fn 0).ringTab (kRing v)).toNat.testBit 0 = false ∧ kBytesOk v (collKind sD v) = true ∧ kSva v = 0) ∧
    (let v := (sD' (desc0 + 2 ^ 192)).homeNat 0x3FF80 128
     kFieldsOk v = true ∧ kBytesOk v (collKind (sD' (desc0 + 2 ^ 192)) v) = false) ∧
    (let s := sD' (desc0 + 2 ^ 128)
     let v := s.homeNat 0x3FF80 128
     kFieldsOk v = true ∧ kBytesOk v (collKind s v) = true ∧ kSva v ≠ 0 ∧ (s.shadowChk (kShadow v)).toOption = none) ∧
    ((sD.modFn 0 fun fn => { fn with colls := [coll0] }).collOf 0 (kCid (sD.homeNat 0x3FF80 128)) ≠ none) := by
  repeat' apply And.intro
  all_goals decide +kernel
/-- A packet of it that fits and one without a collective; a packet to send; the last hop made. -/
theorem wit_CollectivePacketResults :
    let h : Nat := 7 + 2 ^ 48 + 6 * 2 ^ 64 + 2 * 2 ^ 68
    let o : CollPacket := ⟨0, BitVec.ofNat 256 h, List.replicate 256 0⟩
    let x : PortPacket := ⟨.member, 1, [], 0⟩
    let c := { coll0 with queue := [x] }
    (sC.collOf 0 (h % 2 ^ 16) = none ∧ (withColl coll0).collOf 0 (h % 2 ^ 16) = some coll0 ∧ packetFits coll0.desc.toNat o = true) ∧
    (let p := sC.modFn 0 fun fn => { fn with past := [(7, 4)] }
     p.collOf 0 7 = none ∧ Sparse.get 0 (p.fn 0).past 7 = 3 + 1 ∧ ((p.modFn 0 (·.dropChunks 7)).toPort 0 (p.ringNext 0 3) (abortPacket 7)).isSome = true ∧
       Sparse.get 0 (sC.fn 0).past 7 = 0) ∧
    (kFmt coll0.desc.toNat ≤ 5 ∧ (((withColl coll0).collMisses coll0 false 256 256).collRead coll0 256 256).isOk = true ∧
      (((withColl coll0).collMisses coll0 true 256 256).collWrite 0 { coll0 with hops := 1 } 256 (List.replicate 256 0)).isOk = true ∧
      kFrom coll0.desc.toNat (pHop h + 1) (pSeg h) = (1, 0) ∧ (kChunk coll0.desc.toNat 1 0).1 = 256) ∧
    (coll0.queue = [] ∧ coll0.sent < kOwn coll0.desc.toNat ∧ (((withColl coll0).collMisses coll0 false 0 256).collRead coll0 0 256).isOk = true ∧
      kChunk coll0.desc.toNat 0 0 = (0, 256) ∧
      ((withColl coll0).toPort 0 ((withColl coll0).nextPort 0 coll0) ⟨.member, 0, List.replicate 256 0, 0⟩).isSome = true) ∧
    (kTw coll0.desc.toNat = 0 ∧ h / 2 ^ 64 % 2 ^ 3 = 6 ∧ routeNext (h / 2 ^ 64 % 2 ^ 192) ≠ 0) ∧
    ((withColl c).collOf 0 7 = some c ∧ (((withColl c).fn 0).colls.any fun c => c.cid == 7 && c.ended) = false ∧
      ((withColl c).toPort 0 ((withColl c).nextPort 0 c) x).isSome = true) ∧
    (let d := { coll0 with hops := 1, sent := 1 }
     kOwn d.desc.toNat ≤ d.sent ∧ d.queue = [] ∧ kArrivals d.desc.toNat ≤ d.hops ∧ kSva d.desc.toNat = 0 ∧ (withColl d).collOf 0 7 = some d ∧
       coll0.hops < kArrivals coll0.desc.toNat) ∧
    (let s := (sC.toPort 0 3 x).getD sC
     s.drrNext 3 = some 0 ∧ (s.fn 0).port 3 = [x] ∧ s.partOfFn 0 = none ∧ sC.drrNext 3 ≠ some 0 ∧
       Sparse.wfFrom [] 0 (s.fn 0).ports = true ∧ Sparse.wfFrom 0 0 (s.fn 0).deficit = true) := by
  repeat' apply And.intro
  all_goals decide +kernel
/-- A merge of two empty summaries of a collective of two, at member 1. -/
theorem wit_CollectivePacketResults_merge :
    let l := (newRec 2 7).bytes
    let d : Nat := desc0 + (1088 - 512) * 2 ^ 192 + 6 * 2 ^ 224 + 2 ^ 248
    let c := { coll0 with desc := BitVec.ofNat 1024 d }
    let s := withColl c
    let s := { s with mem := s.mem.write 0 l }
    let o : CollPacket := ⟨0, BitVec.ofNat 256 (7 + 4 * 2 ^ 64 + 2 * 2 ^ 68), l⟩
    kFmt d = 6 ∧ s.collOf 0 7 = some c ∧ packetFits c.desc.toNat o = true ∧ s.collRead c 0 1088 = .ok l ∧
      (collMergeBytes 0 l l).isOk = true := by
  repeat' apply And.intro
  all_goals decide +kernel
/-- A task before its launch, between runs, and with every stream at its end or stopped. -/
theorem wit_TaskLifeResults :
    let t (f : Task → Task) : State := sC.modMe (·.modTask f)
    let ended (s : State) : State := s.modMe fun sl => { sl with cs := { sl.cs with ended := true } }
    (sC.slotAt 0 0).task.isSome = true ∧ (sC.slotAt 0 0).t.mates = [⟨0, 0⟩] ∧
    (((t fun x => { x with launched := false }).slotAt 0 0).t.launched = false ∧ (sC.slotAt 0 0).out = false) ∧
    (((t fun x => { x with launched := false, entry := 4 }).slotAt 0 0).t.entry.toNat % 256 ≠ 0) ∧
    (((ended (t fun x => { x with refiring := true })).slotAt 0 0).allStopped = true ∧ (sC.fn 0).sw = .isIn ∧ (sC.slotAt 0 0).t.stopping = none) ∧
    (((ended sC).slotAt 0 0).anyRunning = false ∧ ((ended sC).slotAt 0 0).t.colls = []) ∧
    (((ended (t fun x => { x with stopping := some 1 })).slotAt 0 0).t.stopping ≠ none ∧
      ((ended (t fun x => { x with stopping := some 1 })).slotAt 0 0).allStopped = true ∧ (sC.slotAt 0 0).allStopped = false) := by
  repeat' apply And.intro
  all_goals decide +kernel
/-- A job of twelve records, of which ten are uncut, in a partition of core 0. -/
def job0 : Job :=
  { recIdx := 5, no := 0, gang := false, cards := [1], cardAddrs := [0x100000], pipes := 0, n := 12, uncut := [[(2, 10)]], cutAny := false,
    live := 0, stopCode := none, hasD := false }
def entry0 : TaskEntry := { recIdx := 5, first := 0, count := 2, passed := 0, hasD := false, gang := false }
def sJ (f : Part → Part) : State := State.reset.modPart 0 fun q => f { q with coreMask := 1, jobs := [job0] }
theorem wit_GateAndChunkResults :
    let r : Record := { Record.reset with st := .ready, eligible := true }
    let s := sJ fun q => { q with recs := [(5, r)], jobs := [] }
    let w (card : Nat) : State :=
      { sC.modPart 0 fun q => { q with coreMask := 1, recs := [(5, { r with held := BitVec.ofNat 512 (0x100000 * 2 ^ 64) })] } with
        mem := sC.mem.setNat 0x100000 128 card }
    let opens (s : State) : Except Code Deal :=
      let r := s.lrec 0 5
      (s.journal (s.lrecOwner 0 5) ⟨5, r.armPseq, 0, 0, 5, 0, r.gen.toNat⟩).openWork (s.lrecOwner 0 5) 0 r
    let card (n : Nat) : Nat := 8 * 2 ^ 128 + 2 ^ 160 + n * 2 ^ 512 + 2 ^ 544
    let records (e : Except Code Deal) : Option Nat := e.toOption.map fun d => (nth 0 d.cards 0).records
    (s.gate 0 = some 5 ∧ (s.lrec 0 5).h 64 64 = 0) ∧ sC.gate 0 = none ∧
    ((w 1).gate 0 = some 5 ∧ ((w 1).lrec 0 5).h 64 64 ≠ 0 ∧ records (opens (w 1)) = none ∧ records (opens (w (card 12))) = some 12 ∧
      records (opens (w (card 0))) = some 0) ∧
    4 ≤ (((sJ fun q => { q with jobs := List.replicate 4 job0 }).part 0).jobs.filter ((sJ id).part 0).undealt).length ∧
    64 ≤ (((sJ fun q => q.setQueue 0 (List.replicate 64 entry0)).part 0).queue 0).length ∧
    ((sJ fun q => { q with jobs := [] }).part 0).nextCut 0 = none ∧
    (((sJ fun q => q.setQueue 0 (List.replicate 63 entry0)).part 0).nextCut 0 = some job0 ∧ nth [] job0.uncut 0 = [(2, 10)]) := by
  repeat' apply And.intro
  all_goals decide +kernel
/-- An entry to seat and a queue without one; a gang held whose rings stand; two queues apart by the threshold and by one more. -/
theorem wit_SeatAndBalanceResults :
    let s := sJ fun q => q.setQueue 0 [entry0]
    let h : GangHold := { die := 0, entry := entry0, slots := [⟨0, 7⟩], rings := [], racking := [] }
    let b (n : Nat) : State := { (sJ fun q => { q with coreMask := 1 + 2 ^ 48 }.setQueue 0 (List.replicate n entry0)) with cycle := 4096 }
    ((s.bestSlot 0 0).isSome = true ∧ s.seatPick 0 0 = .one 0 ⟨0, 0⟩ ∧ ((s.part 0).queue 0)[0]? = some entry0 ∧ (s.part 0).job 5 = some job0) ∧
    (sJ id).seatPick 0 0 = .none ∧
    (let g := sJ fun q => { q with gangs := [h] }
     (g.part 0).gangs.find? (fun h => h.die == 0) = some h ∧ job0.pipes.pipes.length ≤ h.rings.length ∧ g.seats (g.lrecOwner 0 5) = true) ∧
    (let x := { job0 with gang := true, cards := [0x1000, 0x1000], cardAddrs := [0x100000, 0x100080], pipes := 2 }
     let g := sJ fun q => { q with jobs := [x] }.setQueue 0 [{ entry0 with gang := true }]
     (g.part 0).gangs.find? (fun h => h.die == 0) = none ∧ g.seatPick 0 0 = .gang 0 [⟨0, 0⟩, ⟨0, 1⟩] ∧
       ((g.part 0).queue 0)[0]? = some { entry0 with gang := true } ∧ (g.part 0).job 5 = some x ∧ x.pipes.pipes.length = 0 ∧
       g.seats (g.lrecOwner 0 5) = true) ∧
    (4095 % 4096 ≠ 0 ∧ (b 9).cycle % 4096 = 0 ∧ ((b 9).part 0).lastExchange ≠ (b 9).cycle ∧ ((b 9).part 0).qeBal.getLsbD 8 = true ∧
      ((b 9).part 0).dies.length = 2 ∧ ((b 9).part 0).qeBal.toNat % 256 = 8 ∧ (((b 9).part 0).queue 0).length = 9 ∧ (((b 8).part 0).queue 0).length = 8 ∧
      ∀ e ∈ ((b 9).part 0).queue 0, e.hasD = false) := by
  repeat' apply And.intro
  all_goals decide +kernel
theorem wit_SwitchResults :
    let s := sC.modFn 0 fun fn => { fn with ready := true }
    let o (x : SwState) : State := s.modFn 0 fun fn => { fn with sw := x, save := false }
    let ended := (o .goingOut).modMe fun sl => { sl with cs := { sl.cs with ended := true } }
    let g := State.reset.modFn 128 fun fn => { fn with ready := true }
    ((s.fn 0).sw = .isIn ∧ (s.fn 0).ready = true ∧ (sC.fn 0).ready = false) ∧
    (∃ m ∈ (o .goingOut).slotsOf 0, ((o .goingOut).slotAt m.core m.slot).t.launched = true ∧ ((o .goingOut).slotAt m.core m.slot).allStopped = false) ∧
    ((ended.fn 0).sw = .goingOut ∧ ∀ m ∈ ended.slotsOf 0, (ended.slotAt m.core m.slot).allStopped = true ∧ (ended.slotAt m.core m.slot).t.stopping = none) ∧
    (((o .out).fn 0).sw = .out ∧ (o .out).slotsOf 0 ≠ [] ∧ ((o .out).fn 0).saved = false) ∧ (g.slotsOf 128 = [] ∧ (g.fn 128).ready = true) ∧
    (let t := (sC.modMe (·.modTask fun x => { x with fn := 3 })).modFn 3 fun fn => { fn with ready := true }
     t.slotsOf 3 ≠ [] ∧ (t.fn 3).ready = true) ∧
    ((s.fn 0).tlbBusy = false ∧ ((s.modFn 0 fun fn => { fn with tlbBusy := true }).fn 0).tlbBusy = true ∧ (s.fn 0).tlbVa.toNat % 2 ^ 16 = 0) := by
  repeat' apply And.intro
  all_goals decide +kernel
/-- Function 0 ready, and a physical page of its window; sizes at and past the window's end. -/
theorem wit_HostAccessResults :
    let r (f : Func → Func) : State := State.reset.modFn 0 fun fn => f { fn with ready := true }
    let m := sC.modFn 0 fun fn => { fn with ready := true, wbase := 0x100000, wlog := 16 }
    let m := m.modPart 0 fun q => { q with funcMask := 1 }
    ((State.reset.fn 0).ready = false ∧ ((r id).fn 0).ready = true) ∧
    ((16 : Nat) ≤ 33 / 2 % 32 ∧ 8 ≤ 17 / 2 % 32 ∧ ¬ (8 ≤ 15 / 2 % 32 ∧ 15 / 2 % 32 ≤ 16) ∧ ¬ (8 ≤ 34 / 2 % 32 ∧ 34 / 2 % 32 ≤ 16)) ∧
    (((r id).part 19).recs = [] ∧ (r id).noneSeated ((r id).part 19) = true) ∧
    (let s := sC.modPart 0 fun q => { q with coreMask := 1 }
     s.noneSeated (s.part 0) = false) ∧
    ((r id).maskFree 19 { (r id).part 19 with coreMask := 1 } = true ∧
      (((r id).modPart 3 fun q => { q with funcMask := 2 ^ 128 }).part 3).funcMask.getLsbD 128 = true) ∧
    ((m.fn 0).wlog = 16 ∧ m.partOfFn 0 = some 0 ∧ 0xFFC0 + 64 ≤ 2 ^ (m.fn 0).wlog ∧ 2 ^ (m.fn 0).wlog < 0xFFC0 + 65 ∧
      m.pieces none 0 0 .rd ((m.fn 0).wbase.toNat + 0xFFC0) 64 = .ok [(0x10FFC0, 64)] ∧ m.ppoison [(0x10FFC0, 64)] = false ∧
      m.pieces none 0 0 .wr ((m.fn 0).wbase.toNat + 0xFFC0) 64 = .ok [(0x10FFC0, 64)]) := by
  repeat' apply And.intro
  all_goals decide +kernel
/-- The debug states; a step that ended; counter bank 7 of core 191 free, held and frozen; a trace that may be claimed. -/
theorem wit_DebugAndCounterResults :
    let s := sC.modFn 0 fun fn => { fn with ready := true }
    let d (st : DbgSt) : State := s.modMe fun sl => { sl with dbg := { sl.dbg with st := st }, cs := { sl.cs with ended := true } }
    let b (x : CounterBank) : State := (s.modFn 0 fun fn => { fn with cntSel := 191 + 7 * 2 ^ 8 }).modBank 191 7 fun _ => x
    let g := ((b { CounterBank.reset with holder := some 3 }).modFn 5 fun fn => { fn with ready := true, cntSel := 191 + 7 * 2 ^ 8 }).modPart 1 fun q =>
      { q with coreMask := 2 ^ 191, funcMask := 2 ^ 5 }
    (s.dbgActs 0 = true ∧ sC.dbgActs 0 = false ∧ ((s.slotAt 0 0).dbg.st = .running) ∧ ((d .halted).slotAt 0 0).dbg.st = .halted ∧
      (sC.slotAt 0 0).heldRefire = false ∧ (sC.slotAt 0 0).t.refiring = false ∧ s.dbgStrm 0 < 2) ∧
    (((d .halting).slotAt 0 0).dbg.st = .halting ∧ ((d .halting).slotAt 0 0).allStopped = true) ∧
    (let t := (d .stepping).modMe fun sl => { sl with dbg := { sl.dbg with stepStrm := 0, stepDone := true } }
     (t.slotAt 0 0).dbg.st = .stepping ∧ t.stepEnded ⟨0, 0⟩ = true ∧ (d .stepping).stepEnded ⟨0, 0⟩ = false) ∧
    (((b CounterBank.reset).cntSel 0).1 = 191 ∧ (b CounterBank.reset).cntMay 0 191 = true ∧ (2 ^ 32 : Word).getLsbD 32 = true) ∧
    ((((b { CounterBank.reset with holder := some 3 }).core 191).bank 7).holder = some 3) ∧
    (g.cntMay 5 191 = true ∧ ((g.core 191).bank 7).holder = some 3 ∧ ((g.core 191).bank 7).frozen = none) ∧
    ((((b { CounterBank.reset with holder := some 0, frozen := some (3, 0, [], 0, false) }).core 191).bank 7).holder = some 0) ∧
    (let z := (g.modBank 191 7 fun x => { x with holder := some 0, frozen := some (5, 0, [], 0, false) })
     ((z.core 191).bank 7).frozen = some (5, 0, [], 0, false) ∧ ((z.core 191).bank 7).holder = some 0) ∧
    (2 ≤ (s.modFn 0 fun fn => { fn with dbgCtl := 4 * 8 }).dbgStrm 0 ∧ (s.modFn 0 fun fn => { fn with dbgCtl := 4 * 8 }).dbgStrm 0 ≤ 4) ∧
    ((((b { CounterBank.reset with holder := some 0, pending := [(3, 0)] }).core 191).bank 7).pending = [(3, 0)] ∧
      CounterBank.reset.last ≠ some 3) ∧
    ((7 : Nat) < 8 ∧ 8 ≤ (17 : Word).toNat / 2 % 32 ∧ (41 : Word).toNat / 2 % 32 ≤ 20 ∧ (41 : Word).getLsbD 0 = true ∧ g.partOfFn 5 = some 1 ∧
      (g.fn 5).trcfg.getLsbD 0 = false ∧ (g.part 1).trFrozen = none) := by
  repeat' apply And.intro
  all_goals decide +kernel
/-- No function holds a trace in the state that `wit_DebugAndCounterResults` claims one in. -/
theorem wit_DebugAndCounterResults_trace : ∀ g, (State.reset.fn g).trClaim = false := fun _ => rfl
/-- The last word of each store; a freeze at its end; a bring-up with a good and a bad signature; the mailbox idle and busy; a tick and a
shutdown at their time. -/
theorem wit_ManagementResults :
    let m (f : Mgmt → Mgmt) : State := { State.reset with mgmt := f State.reset.mgmt }
    let z : State := { sC.modCore 191 fun co => { co with frozen := true, freezeUntil := 24 } with cycle := 24 }
    (∀ k ∈ List.range 4, storeWords k - 1 < storeWords k) ∧ (191 < 192 ∧ 192 ≤ 192) ∧ 2 ^ 33 - 1 < 2 ^ 33 ∧
    ((z.core 191).frozen = true ∧ (z.core 191).freezeUntil ≤ z.cycle ∧ ({ z with cycle := 23 } : State).cycle < (z.core 191).freezeUntil) ∧
    (State.reset.mgmt.broughtUp = false ∧ State.reset.mgmt.upFailed = false) ∧
    (State.reset.mgmt.verified = true ∧ (m fun x => { x with flash := some [] }).mgmt.verified = false) ∧
    (State.reset.mgmt.rmBusy = false ∧ (m fun x => { x with recov := true }).mgmt.recov = true) ∧
    ((m fun x => { x with erased := true, stagedNext := 1 }).mgmt.rmIdx < 1 ∧ (m fun x => { x with stagedNext := 1, rmIdx := 1 }).mgmt.stagedNext ≤ 1 ∧
      (m fun x => { x with erased := true, stagedNext := 1 }).mgmt.stagedNext ≠ 0 ∧ (List.replicate 4096 (0 : Byte)).length = 4096) ∧
    ((m fun x => { x with rmBusy := true, rmCommitOk := true }).mgmt.rmCommitOk = true) ∧
    (State.reset.mgmt.powerLimit ≤ 24000 ∧ min 24001 24000 = 24000 ∧ min 1 24000 ≠ State.reset.mgmt.powerLimit) ∧
    (let t : State := { m fun x => { x with broughtUp := true, hotSince := some 0 } with time := 756 * 1000000000 }
     t.mgmt.broughtUp = true ∧ t.mgmt.lastTick + 100000 ≤ t.now ∧ 0 + 1000000000 ≤ t.now ∧ t.mgmt.hotSince = some 0) ∧
    (1051 > 1050 ∧ 95 * 1050 ≤ 100 * 998) := by
  repeat' apply And.intro
  all_goals decide +kernel
theorem wit_FixedRegisters :
    let s (ph : HeadPhase) : State := withRing sC .s { ring0 with wp := 1, entries := [(0, 4)], head := { HeadSt.reset with phase := ph } }
    sC.cRuns ⟨7, true⟩ ∧ (px sC 1 0xFFFFFFFF).me.xr 1 = 0xFFFFFFFF ∧ (∀ ph ∈ [HeadPhase.awaitDrop, .awaitRun],
      ((s ph).slotAt 0 0).headLive .s = true ∧ ((s ph).core 0).frozen = false ∧ ((s ph).slotAt 0 0).sring.head.phase = ph ∧
        cAws (((s ph).slotAt 0 0).sring.headBits .s) = 0 ∧ cRss (((s ph).slotAt 0 0).sring.headBits .s) = 0) := by
  repeat' apply And.intro
  all_goals decide +kernel
/-- A C stream at a word that decodes, at one that does not and at a page that is not mapped; a V stream that holds its engine; an
event. -/
theorem wit_StepRunsDecoded :
    let u (s : State) (st : Strm) : State := { ({ s with agenda := [] } : State).tick 0 with cur := ⟨0, 0, st⟩ }
    let far := sC.modMe fun sl => { sl with cs := { sl.cs with pc := 0x40000000 } }
    let v := State.reset.withFetchWord 32 0x1F004740
    let runs (s : State) : Prop := s.cpCan 0 0 = true ∧ (s.core 0).issued = false ∧ (∀ j, j < 8 → (s.slotAt 0 j).cs.fetched = false) ∧
      (s.slotAt 0 0).dbg.st ≠ .stepping ∧ s.did = []
    (sC.agenda = [⟨0, .stream 0 0 .c⟩] ∧ runs (u sC .c) ∧ ((u sC .c).fetchMisses 0 0 .c).fetch 0 0 .c = .ok 0x1DC) ∧
    (decodeC 0x1FC = .error .illegal ∧ decodeC 0x1D8 = .ok (.halt ⟨0, false⟩, .k32) ∧
      ((u (State.reset.withFetchWord 32 0x1D8) .c).fetchMisses 0 0 .c).fetch 0 0 .c = .ok 0x1D8) ∧
    (runs (u far .c) ∧ ((u far .c).fetchMisses 0 0 .c).fetch 0 0 .c = .error (fPage, 0x40000000)) ∧ isEvent (.freezeEnd 3) = true ∧
    (v.agenda = [⟨0, .stream 0 0 .v⟩] ∧ (((u v .v).refillV 0 0).fetchMisses 0 0 .v).fetch 0 0 .v = .ok 0x1F004740 ∧ (u v .v).slotRuns 0 0 = true ∧ ((u v .v).slotAt 0 0).vs.ended = false ∧
      ((u v .v).slotAt 0 0).vs.heldAt = none ∧ ((u v .v).slotAt 0 0).vs.stopped = false ∧
      ((u v .v).slotAt 0 0).vs.canStop = false ∧ ((u v .v).core 0).vxe.holder = some 0 ∧ (u v .v).did = []) := by
  repeat' apply And.intro
  all_goals decide +kernel
theorem wit_StepRunsDecoded_cmd : decodeCmd .x 0x7000000000000142B = .ok (.xnote ⟨2, 5, 0, false, false, 7⟩) := by rfl
theorem wit_SkippedInstructions :
    fieldsC (.add ⟨⟨3, false⟩, 3, 1, 2⟩) ≠ none ∧ sC.cur.strm = .c ∧ (sC.me.pr 3 ^^ false) = false := by
  repeat' apply And.intro
  all_goals decide +kernel
/-- In the body and at its end; the last pass and one before it; a stop asked for, cut, and at the epilogue's end. -/
theorem wit_LoopPassResults :
    let s (l : HwLoop) (pc : Word) (r : Option StopCause) : State :=
      sC.modMe fun sl => { sl with cs := { sl.cs with pc := pc, loops := [l], stopReq := r } }
    ((s lp2 0x100 none).me.cs.pc + BitVec.ofNat 64 4 ≠ lp2.stop ∧ (s lp2 0x104 none).me.cs.pc + BitVec.ofNat 64 4 = lp2.stop) ∧
    (lp2.pass + 2 ≠ lp2.limit + lp2.stages ∧ (5 : Nat) + 2 = lp2.limit + lp2.stages ∧ lp2.cut = false) ∧
    ((s lp2 0x104 (some .yield)).me.cs.stopReq ≠ none ∧ lp2.np = false ∧ lp2.pass + 1 < lp2.limit ∧ 1 < lp2.stages ∧ { lp2 with stages := 1 }.stages = 1) ∧
    ({ lp2 with pass := 4 }.limit ≤ 4 + 1 ∧ 4 + 2 ≠ lp2.limit + lp2.stages ∧ { lp2 with pass := 5 }.limit ≤ 5 + 1) ∧
    ({ lp2 with stop := 0x200 }.stop ≠ 0x108 ∧ lp2.stop = 0x108 ∧ lp2.cut = false) ∧
    (let c := { lp2 with cut := true, limit := 1, remain := 4, pass := 1 }
     c.pass + 2 = c.limit + c.stages ∧ (s c 0x104 (some .yield)).me.cs.loops = [c] ∧ (2 : Nat) + 1 = c.limit + c.stages ∧ c.base + c.stages ≤ 8) := by
  repeat' apply And.intro
  all_goals decide +kernel
theorem wit_RegisterInstructionFrame : sC.cRuns ty ∧ sC.me.cs.loops = [] ∧ Instr.maxu ∈ [Instr.add, .maxu] :=
  ⟨⟨by decide, by decide +kernel⟩, by decide +kernel, by simp⟩
theorem wit_MemoryInstructionFrame :
    sC.mem.wf = true ∧ (sC.core 0).scratch.wf = true ∧ sC.dataPa (sC.me.xr 0 + immWord (.i32 0x100000)) 8 .wr = .ok 0x100000 ∧
      (sC.part sC.me.t.part).inPool 0x100000 8 = false ∧ (px sC 1 0x100000).dataPa ((px sC 1 0x100000).me.xr 1) 8 .rw = .ok 0x100000 ∧
      poisoned (sC.core sC.cur.core).scratchPoison 8 (0x40000 * sC.cur.slot + 0x3FFFF) 1 = false := by
  repeat' apply And.intro
  all_goals decide +kernel
theorem wit_ControlWordsRoundTrip :
    (Instr.add ⟨⟨3, true⟩, 31, 30, 29⟩).wf = true ∧ encode false (.add ⟨⟨3, true⟩, 31, 30, 29⟩) = some (0x0BEFBE04, .k32) ∧
      decodeC 0x0BEFBE04 = .ok (.add ⟨⟨3, true⟩, 31, 30, 29⟩, .k32) := by
  repeat' apply And.intro
  all_goals decide +kernel
theorem wit_StoresStayCanonical : sC.storesWf = true ∧ Out.isNext (step sC) = true := by
  repeat' apply And.intro
  all_goals decide +kernel
theorem wit_UnassignedOpcodesAreIllegal :
    (0x28 : BitVec 96).toNat / 4 % 128 = 0x0A ∧ (0x1FC : BitVec 96).toNat / 4 % 128 = 0x7F ∧
      ((State.reset.withFetchWord 32 0x1FC).fetchMisses 0 0 .v).fetch 0 0 .v = .ok 0x1FC := by
  repeat' apply And.intro
  all_goals decide +kernel
theorem wit_VectorWordsRoundTrip :
    (Instr.viadd ⟨⟨3, true⟩, 23, 22, 21⟩).wf = true ∧ encode true (.viadd ⟨⟨3, true⟩, 23, 22, 21⟩) = some (0x0BADAE04, .k32) ∧
      decodeV 0x0BADAE04 = .ok (.viadd ⟨⟨3, true⟩, 23, 22, 21⟩, .k32) := ⟨rfl, rfl, rfl⟩
theorem wit_CommandsRoundTrip :
    (Instr.xnote ⟨2, 5, 0, false, false, 7⟩).wf = true ∧ bitsCmd (.xnote ⟨2, 5, 0, false, false, 7⟩) = some 0x7000000000000142B := ⟨rfl, rfl⟩

end Sys2Proof.Tests
end

section
namespace Sys2Proof.Machine

/-! ### Canonical stores

Only a few functions write a store: `Core.swrite`, `Core.awrite`, `State.pwrite`, `State.restoreImage` and the resets. Each of
these leaves it in its canonical form, and every other function of the model hands the stores on. So there is one lemma for each
function of the model that answers a state, in the order of the model and named after the function, up to `step`: canonical
stores in, canonical stores out. A proof follows the branches of its function. -/

/-- The stores of a core are in their canonical form (log entry 1). -/
structure Core.Canonical (co : Core) : Prop where
  scratch : co.scratch.wf = true
  acs : co.acs.wf = true
/-- The stores of the module are: memory, and each core's. -/
structure State.Canonical (s : State) : Prop where
  mem : s.mem.wf = true
  cores : ∀ e ∈ s.cores, e.2.Canonical
/-- Every state in what an instruction did has canonical stores. -/
inductive Res.Canonical : Res → Prop
  | done {s : State} (h : s.Canonical) : (Res.done s).Canonical
  | jump {s : State} {pc : Word} (h : s.Canonical) : (Res.jump s pc).Canonical
  | wait {s : State} {w : WaitFor} (h : s.Canonical) : (Res.wait s w).Canonical
  | trap {code : Code} {eva : Word} : (Res.trap code eva).Canonical
  | stay {s : State} (h : s.Canonical) : (Res.stay s).Canonical
  | skip {s : State} {len : Nat} (h : s.Canonical) : (Res.skip s len).Canonical
/-- So has the next state, if there is one. -/
inductive Out.Canonical : Out → Prop
  | next {s : State} (h : s.Canonical) : Out.Canonical (.next s)
  | fault {e : Fault} : Out.Canonical (.fault e)
  | refused {r : Refusal} : Out.Canonical (.refused r)
/-- So has the state that a check answers, if it answers one. -/
inductive Chk.Canonical : Chk State → Prop
  | ok {s : State} (h : s.Canonical) : Chk.Canonical (.ok s)
  | error {e : Code × Word} : Chk.Canonical (.error e)
/-- So has the state to which a unit of a command comes. -/
inductive UnitRes.Canonical : UnitRes → Prop
  | ok {s : State} (h : s.Canonical) : (UnitRes.ok s).Canonical
  | fault {code : Code} {eva : Word} : (UnitRes.fault code eva).Canonical
  | failed {s : State} {code : Code} {eva : Word} (h : s.Canonical) : (UnitRes.failed s code eva).Canonical
  | stall {s : State} {w : WaitFor} (h : s.Canonical) : (UnitRes.stall s w).Canonical
  | busy {s : State} (h : s.Canonical) : (UnitRes.busy s).Canonical
/-- So has the state to which a publication comes. -/
inductive PubRes.Canonical : PubRes → Prop
  | published {s : State} (h : s.Canonical) : (PubRes.published s).Canonical
  | refused {s : State} (h : s.Canonical) : (PubRes.refused s).Canonical
  | fault : PubRes.fault.Canonical
/-- The meaning that a table of commands gives, if it gives one, keeps the stores canonical. -/
inductive Run.Canonical : Option (State → Out) → Prop
  | none : Run.Canonical none
  | some {run : State → Out} (h : ∀ s : State, s.Canonical → Out.Canonical (run s)) : Run.Canonical (some run)
/-- The units of a command, and what it does last, keep the stores canonical. -/
structure Plan.Canonical (p : Plan) : Prop where
  unit : ∀ s : State, s.Canonical → ∀ i, (p.unit s i).Canonical
  last : ∀ s : State, s.Canonical → (p.last s).Canonical
/-- A move keeps the stores canonical. -/
def Move.Canonical (m : Move) : Prop := ∀ s : State, s.Canonical → Out.Canonical (m.run s)

theorem State.canonical_iff_storesWf (s : State) : s.Canonical ↔ s.storesWf = true := by
  simp only [State.storesWf, Bool.and_eq_true, List.all_eq_true]
  exact ⟨fun h => ⟨h.mem, fun e he => ⟨(h.cores e he).scratch, (h.cores e he).acs⟩⟩,
    fun h => ⟨h.1, fun e he => ⟨(h.2 e he).1, (h.2 e he).2⟩⟩⟩

/-! ### A choice between two canonical values -/

theorem Core.Canonical.ite {c : Prop} [Decidable c] {x y : Core} (hx : x.Canonical) (hy : y.Canonical) :
    (if c then x else y).Canonical := by split <;> assumption
theorem State.Canonical.ite {c : Prop} [Decidable c] {s t : State} (hs : s.Canonical) (ht : t.Canonical) :
    (if c then s else t).Canonical := by split <;> assumption
theorem Res.Canonical.ite {c : Prop} [Decidable c] {x y : Res} (hx : x.Canonical) (hy : y.Canonical) :
    (if c then x else y).Canonical := by split <;> assumption
theorem Out.Canonical.ite {c : Prop} [Decidable c] {x y : Out} (hx : Out.Canonical x) (hy : Out.Canonical y) :
    Out.Canonical (if c then x else y) := by split <;> assumption
theorem Chk.Canonical.ite {c : Prop} [Decidable c] {x y : Chk State} (hx : Chk.Canonical x) (hy : Chk.Canonical y) :
    Chk.Canonical (if c then x else y) := by split <;> assumption
theorem UnitRes.Canonical.ite {c : Prop} [Decidable c] {x y : UnitRes} (hx : x.Canonical) (hy : y.Canonical) :
    (if c then x else y).Canonical := by split <;> assumption
theorem PubRes.Canonical.ite {c : Prop} [Decidable c] {x y : PubRes} (hx : x.Canonical) (hy : y.Canonical) :
    (if c then x else y).Canonical := by split <;> assumption
theorem Run.Canonical.ite {c : Prop} [Decidable c] {x y : Option (State → Out)} (hx : Run.Canonical x) (hy : Run.Canonical y) :
    Run.Canonical (if c then x else y) := by split <;> assumption

/-! ### The state within a result -/

theorem State.Canonical.of_fst {α : Type} {p : State × α} {s : State} {a : α} (h : p.1.Canonical) (e : p = (s, a)) :
    s.Canonical := by
  subst e; exact h
theorem State.Canonical.pair {α : Type} {s : State} {a : α} (h : s.Canonical) : (s, a).1.Canonical := h
theorem Out.Canonical.of_next {o : Out} {s : State} (h : Out.Canonical o) (e : o = .next s) : s.Canonical := by
  subst e; cases h; assumption
theorem Chk.Canonical.of_ok {c : Chk State} {s : State} (h : Chk.Canonical c) (e : c = .ok s) : s.Canonical := by
  subst e; cases h; assumption
theorem UnitRes.Canonical.of_ok {r : UnitRes} {s : State} (h : r.Canonical) (e : r = .ok s) : s.Canonical := by
  subst e; cases h; assumption
theorem UnitRes.Canonical.of_failed {r : UnitRes} {s : State} {code : Code} {eva : Word} (h : r.Canonical)
    (e : r = .failed s code eva) : s.Canonical := by
  subst e; cases h; assumption
theorem PubRes.Canonical.of_published {r : PubRes} {s : State} (h : r.Canonical) (e : r = .published s) : s.Canonical := by
  subst e; cases h; assumption
theorem PubRes.Canonical.of_refused {r : PubRes} {s : State} (h : r.Canonical) (e : r = .refused s) : s.Canonical := by
  subst e; cases h; assumption
theorem Run.Canonical.of_some {x : Option (State → Out)} {run : State → Out} {s : State} (hx : Run.Canonical x)
    (e : x = Option.some run) (h : s.Canonical) : Out.Canonical (run s) := by
  subst e; cases hx with | some hr => exact hr s h
theorem UnitRes.Canonical.of_stall {r : UnitRes} {s : State} {w : WaitFor} (h : r.Canonical) (e : r = .stall s w) : s.Canonical := by
  subst e; cases h; assumption
theorem UnitRes.Canonical.of_busy {r : UnitRes} {s : State} (h : r.Canonical) (e : r = .busy s) : s.Canonical := by
  subst e; cases h; assumption
theorem forall_mem_none {α : Type} {p : α → Prop} : ∀ a ∈ (none : Option α), p a := nofun
theorem forall_mem_some {α : Type} {p : α → Prop} {a : α} (h : p a) : ∀ b ∈ some a, p b := fun _ e => Option.mem_some.mp e ▸ h
theorem forall_error_eq_ok {ε α : Type} {p : α → Prop} {x : ε} : ∀ a, (.error x : Except ε α) = .ok a → p a := nofun
theorem forall_ok_eq_ok {ε α : Type} {p : α → Prop} {a : α} (h : p a) : ∀ b, (.ok a : Except ε α) = .ok b → p b :=
  fun _ e => Except.ok.inj e ▸ h
theorem Chk.Canonical.map_pair {α : Type} {c : Chk State} {a : α} (h : Chk.Canonical c) :
    ∀ t, (c.map fun s => (s, a)) = .ok t → t.1.Canonical := by
  cases h with
  | ok h => exact forall_ok_eq_ok h
  | error => exact forall_error_eq_ok
theorem State.Canonical.getD {o : Option State} {s : State} (ho : ∀ t ∈ o, t.Canonical) (h : s.Canonical) : (o.getD s).Canonical := by
  cases o with
  | none => exact h
  | some t => exact ho t rfl
theorem State.Canonical.getD_map {o : Option State} {f : State → State} {s : State} (ho : ∀ t ∈ o, t.Canonical)
    (hf : ∀ t : State, t.Canonical → (f t).Canonical) (h : s.Canonical) : ((o.map f).getD s).Canonical := by
  cases o with
  | none => exact h
  | some t => exact hf t (ho t rfl)
theorem Run.Canonical.getD {x : Option (State → Out)} {run : State → Out} {s : State} (hx : Run.Canonical x)
    (hr : ∀ t : State, t.Canonical → Out.Canonical (run t)) (h : s.Canonical) : Out.Canonical (x.getD run s) := by
  cases hx with
  | none => exact hr s h
  | some hx => exact hx s h
/-- A check before the rest of an instruction, or of a unit, writes nothing. -/
theorem Res.Canonical.chk {α : Type} {c : Chk α} {f : α → Res} (hf : ∀ a, c = .ok a → (f a).Canonical) : (Chk.then c f).Canonical := by
  unfold Chk.then
  split
  · exact hf _ rfl
  · exact .trap
theorem UnitRes.Canonical.chk {α : Type} {c : Chk α} {f : α → UnitRes} (hf : ∀ a, c = .ok a → (f a).Canonical) :
    (Chk.unit c f).Canonical := by
  unfold Chk.unit
  split
  · exact hf _ rfl
  · exact .fault

/-! ### Steps repeated over a list -/

theorem State.Canonical.foldl {α : Type} {s : State} {f : State → α → State} {l : List α} (h : s.Canonical)
    (hf : ∀ t : State, ∀ a, t.Canonical → (f t a).Canonical) : (l.foldl f s).Canonical := by
  induction l generalizing s with
  | nil => exact h
  | cons a t ih => exact ih (hf s a h)
theorem Core.Canonical.foldl {α : Type} {co : Core} {f : Core → α → Core} {l : List α} (h : co.Canonical)
    (hf : ∀ t : Core, ∀ a, t.Canonical → (f t a).Canonical) : (l.foldl f co).Canonical := by
  induction l generalizing co with
  | nil => exact h
  | cons a t ih => exact ih (hf co a h)
theorem State.Canonical.foldl_fst {α β : Type} {p : State × β} {f : State × β → α → State × β} {l : List α} (h : p.1.Canonical)
    (hf : ∀ q : State × β, ∀ a, q.1.Canonical → (f q a).1.Canonical) : (l.foldl f p).1.Canonical := by
  induction l generalizing p with
  | nil => exact h
  | cons a t ih => exact ih (hf p a h)

/-! ### Updates of a core and of the state -/

/-- No other field of a core is a store. -/
theorem Core.Canonical.update {co : Core} (h : co.Canonical) {slots : Sparse Slot} {scratchPoison acsPoison : List Nat}
    {ttb : Sparse Tile} {rings : Sparse RingRec} {casks : Sparse Cask} {regs : List Registration} {sealsIn : List (Nat × Nat)}
    {gens : Sparse (BitVec 32)} {seed : BitVec 32} {mxe vxe cpe sie : EngineSt} {group : List SlotId} {issued : Bool}
    {cpNext freezeUntil : Nat} {frozen : Bool} {eccLog : Word} {matrix : Sparse (BitVec 32)} {banks : Sparse CounterBank} :
    Core.Canonical { co with
      slots := slots, scratchPoison := scratchPoison, acsPoison := acsPoison, ttb := ttb, rings := rings, casks := casks,
      regs := regs, sealsIn := sealsIn, gens := gens, seed := seed, mxe := mxe, vxe := vxe, cpe := cpe, sie := sie, group := group,
      issued := issued, cpNext := cpNext, freezeUntil := freezeUntil, frozen := frozen, eccLog := eccLog, matrix := matrix,
      banks := banks } := ⟨h.scratch, h.acs⟩
/-- No other field of the state is a store. -/
theorem State.Canonical.update {s : State} (h : s.Canonical) {cur : StrmRef} {agenda : List Turn} {seq : Nat} {did : List Did}
    {traced : List Traced} {cycle time : Nat} {memPoison : List Nat} {hidden : Sparse Hidden} {places : List RelPlace}
    {early : List EarlyRead} {atc : Sparse Nat} {tlb : List TlbEntry} {parts : Sparse Part} {funcs : Sparse Func}
    {portLast : Sparse Nat} {curs : Sparse Currency} {mgmt : Mgmt} :
    State.Canonical { s with
      cur := cur, agenda := agenda, seq := seq, did := did, traced := traced, cycle := cycle, time := time, memPoison := memPoison,
      hidden := hidden, places := places, early := early, atc := atc, tlb := tlb, parts := parts, funcs := funcs,
      portLast := portLast, curs := curs, mgmt := mgmt } := ⟨h.mem, h.cores⟩
/-- An update of every core that keeps its stores canonical. -/
theorem State.Canonical.mapCores {s t : State} {f : Nat × Core → Nat × Core} (h : s.Canonical) (hm : t.mem = s.mem)
    (hc : t.cores = s.cores.map f) (hf : ∀ e : Nat × Core, e.2.Canonical → (f e).2.Canonical) : t.Canonical := by
  refine ⟨hm ▸ h.mem, fun e he => ?_⟩
  rw [hc] at he
  obtain ⟨x, hx, rfl⟩ := List.mem_map.mp he
  exact hf x (h.cores x hx)

/-! ### Finite maps and memories -/

theorem Sparse.forall_get {α : Type} {d : α} {m : Sparse α} {p : α → Prop} (hd : p d) (h : ∀ e ∈ m, p e.2) (n : Nat) :
    p (Sparse.get d m n) := by
  induction m with
  | nil => exact hd
  | cons e t ih =>
    simp only [Sparse.get]
    split
    · exact h e (by simp)
    · exact ih fun x hx => h x (by simp [hx])
theorem Sparse.forall_put {α : Type} {m : Sparse α} {p : α → Prop} {n : Nat} {v : α} (hv : p v) (h : ∀ e ∈ m, p e.2) :
    ∀ e ∈ m.put n v, p e.2 := by
  induction m with
  | nil => simpa [Sparse.put] using hv
  | cons x t ih =>
    have ⟨hx, ht⟩ := List.forall_mem_cons.mp h
    simp only [Sparse.put]
    split
    · exact List.forall_mem_cons.mpr ⟨hv, h⟩
    · split
      · exact List.forall_mem_cons.mpr ⟨hv, ht⟩
      · exact List.forall_mem_cons.mpr ⟨hx, ih ht⟩
/-- Entries left out of a canonical list leave it canonical. -/
theorem Sparse.wfFrom_filter {α : Type} [DecidableEq α] {d : α} {m : Sparse α} {lo : Nat} (q : Nat × α → Bool)
    (h : Sparse.wfFrom d lo m = true) : Sparse.wfFrom d lo (m.filter q) = true := by
  induction m generalizing lo with
  | nil => rfl
  | cons e t ih =>
    simp only [Sparse.wfFrom, Bool.and_eq_true, decide_eq_true_eq] at h
    obtain ⟨⟨hlo, hne⟩, ht⟩ := h
    rw [List.filter_cons]
    split
    · simp only [Sparse.wfFrom, Bool.and_eq_true, decide_eq_true_eq]
      exact ⟨⟨hlo, hne⟩, ih ht⟩
    · exact Sparse.wfFrom_mono d _ (e.1 + 1) lo (by omega) (ih ht)
/-- A canonical memory whose bytes take other values is canonical again without the zeros. -/
theorem Mem.wfFrom_map_filter {m : Mem} {lo : Nat} {f : Nat × Byte → Nat × Byte} (hf : ∀ e, (f e).1 = e.1)
    (h : Sparse.wfFrom (0 : Byte) lo m = true) : Sparse.wfFrom (0 : Byte) lo ((m.map f).filter fun (_, b) => b != 0) = true := by
  induction m generalizing lo with
  | nil => rfl
  | cons e t ih =>
    simp only [Sparse.wfFrom, Bool.and_eq_true, decide_eq_true_eq] at h
    obtain ⟨⟨hlo, -⟩, ht⟩ := h
    rw [List.map_cons, List.filter_cons]
    dsimp only
    split
    · next hne =>
      simp only [Sparse.wfFrom, Bool.and_eq_true, decide_eq_true_eq, hf]
      exact ⟨⟨hlo, by simpa using hne⟩, ih ht⟩
    · exact Sparse.wfFrom_mono _ _ (e.1 + 1) lo (by omega) (ih ht)

theorem Core.canonical_reset : Core.reset.Canonical := ⟨rfl, rfl⟩


section
variable {s : State}

/-! ### Machine/Ops -/

theorem State.Canonical.core {c : Nat} (h : s.Canonical) : (s.core c).Canonical := Sparse.forall_get Core.canonical_reset h.cores c
theorem State.Canonical.putCore {c : Nat} {v : Core} (h : s.Canonical) (hv : v.Canonical) : (s.putCore c v).Canonical :=
  ⟨h.mem, Sparse.forall_put hv h.cores⟩
theorem State.Canonical.modCore {c : Nat} {f : Core → Core} (h : s.Canonical) (hf : ∀ t : Core, t.Canonical → (f t).Canonical) :
    (s.modCore c f).Canonical :=
  h.putCore (hf _ h.core)
theorem Core.Canonical.putSlot {c : Core} {k : Nat} {v : Slot} (h : c.Canonical) : (c.putSlot k v).Canonical := h.update
theorem State.Canonical.putSlot {c k : Nat} {v : Slot} (h : s.Canonical) : (s.putSlot c k v).Canonical := h.putCore h.core.putSlot
theorem State.Canonical.modSlot {c k : Nat} {f : Slot → Slot} (h : s.Canonical) : (s.modSlot c k f).Canonical := h.putSlot
theorem State.Canonical.putPart {p : Nat} {v : Part} (h : s.Canonical) : (s.putPart p v).Canonical := h.update
theorem State.Canonical.modPart {p : Nat} {f : Part → Part} (h : s.Canonical) : (s.modPart p f).Canonical := h.putPart
theorem State.Canonical.putFn {f : Nat} {v : Func} (h : s.Canonical) : (s.putFn f v).Canonical := h.update
theorem State.Canonical.modFn {f : Nat} {g : Func → Func} (h : s.Canonical) : (s.modFn f g).Canonical := h.putFn
theorem Core.Canonical.putTile {c : Core} {abs : Nat} {t : Tile} (h : c.Canonical) : (c.putTile abs t).Canonical := h.update
theorem State.Canonical.putTile {c abs : Nat} {t : Tile} (h : s.Canonical) : (s.putTile c abs t).Canonical :=
  h.putCore h.core.putTile
theorem State.Canonical.modTile {c abs : Nat} {f : Tile → Tile} (h : s.Canonical) : (s.modTile c abs f).Canonical := h.putTile
theorem State.Canonical.putMe {v : Slot} (h : s.Canonical) : (s.putMe v).Canonical := h.putSlot
theorem State.Canonical.modMe {f : Slot → Slot} (h : s.Canonical) : (s.modMe f).Canonical := h.putMe
theorem State.Canonical.withCur {r : StrmRef} {f : State → State} (h : s.Canonical)
    (hf : ∀ t : State, t.Canonical → (f t).Canonical) : (s.withCur r f).Canonical :=
  .update (hf _ h.update)
theorem Core.Canonical.swrite {c : Core} {a : Nat} {l : List Byte} (h : c.Canonical) : (c.swrite a l).Canonical :=
  ⟨Mem.wf_write _ _ _ h.scratch, h.acs⟩
theorem Core.Canonical.awrite {c : Core} {a : Nat} {l : List Byte} (h : c.Canonical) : (c.awrite a l).Canonical :=
  ⟨h.scratch, Mem.wf_write _ _ _ h.acs⟩
theorem State.Canonical.count {c ev : Nat} {slot : Option Nat} {n : optParam Nat 1} (h : s.Canonical) :
    (s.count c ev slot n).Canonical :=
  h.modCore fun _ h => h.update
theorem State.Canonical.missAt {c k va : Nat} (h : s.Canonical) : (s.missAt c k va).Canonical :=
  .ite h (.ite h.count h.count.count.count)
theorem State.Canonical.missPages {c k : Nat} {a : Acc} {n va len : Nat} (h : s.Canonical) :
    (s.missPages c k a n va len).Canonical := by
  induction n generalizing s va len with
  | zero => exact h
  | succ n ih =>
    unfold State.missPages
    exact .ite h (by split; exacts [h.missAt, ih h.missAt.update])
theorem State.Canonical.misses {c k : Nat} {a : Acc} {va len : Nat} (h : s.Canonical) : (s.misses c k a va len).Canonical :=
  h.missPages
theorem State.Canonical.wake {pa n : Nat} (h : s.Canonical) : (s.wake pa n).Canonical := h.mapCores rfl rfl fun _ h => h.update
theorem State.Canonical.mapHidden {f : HidWrite → HidWrite} (h : s.Canonical) : (s.mapHidden f).Canonical := .ite h h.update
theorem State.Canonical.mapHiddenAt {pa n : Nat} {f : HidWrite → HidWrite} (h : s.Canonical) :
    (s.mapHiddenAt pa n f).Canonical :=
  h.update
theorem State.Canonical.dropEarly {w : Agent} (h : s.Canonical) : (s.dropEarly w).Canonical := by
  unfold State.dropEarly
  split
  exacts [.ite h h.update.mapHidden, h]
theorem State.Canonical.passIf {p : Agent → Bool} {v : Agent} (h : s.Canonical) : (s.passIf p v).Canonical :=
  .ite h.dropEarly h.dropEarly.mapHidden
theorem State.Canonical.pass {w v : Agent} (h : s.Canonical) : (s.pass w v).Canonical := h.passIf
theorem State.Canonical.forgetIf {p : Agent → Bool} (h : s.Canonical) : (s.forgetIf p).Canonical := h.mapHidden
theorem State.Canonical.forget {w : Agent} (h : s.Canonical) : (s.forget w).Canonical := h.forgetIf
theorem State.Canonical.pwrite {w : Option Agent} {pa : Nat} {l : List Byte} (h : s.Canonical) : (s.pwrite w pa l).Canonical :=
  ⟨Mem.wf_write _ _ _ h.mem, h.wake.cores⟩
theorem State.Canonical.madeAt {va pa n : Nat} (h : s.Canonical) : (s.madeAt va pa n).Canonical := .ite h h.update
theorem State.Canonical.observe {w : Agent} {pa n : Nat} (h : s.Canonical) : (s.observe w pa n).Canonical :=
  .ite h.update.dropEarly h.update.dropEarly.update
theorem State.Canonical.passRun {r : StrmRef} {rss d : Nat} (h : s.Canonical) : (s.passRun r rss d).Canonical :=
  .forget (.ite h h.pass)
theorem State.Canonical.learn {rss n : Nat} (h : s.Canonical) : (s.learn rss n).Canonical := .ite h h.passIf
theorem State.Canonical.freeWrites {k : SlotId} {p : HidWrite → Bool} (h : s.Canonical) : (s.freeWrites k p).Canonical :=
  h.mapHidden
theorem State.Canonical.forgetSlot {k : SlotId} (h : s.Canonical) : (s.forgetSlot k).Canonical := h.dropEarly.forgetIf
theorem State.Canonical.forgetRuns {k : SlotId} (h : s.Canonical) : (s.forgetRuns k).Canonical := h.forgetIf
theorem State.Canonical.releaseHost {w : Agent} (h : s.Canonical) : (s.releaseHost w).Canonical := .ite h h.update
theorem State.Canonical.pwrites {w : Option Agent} {ps : List (Nat × Nat)} {l : List Byte} (h : s.Canonical) :
    (s.pwrites w ps l).Canonical := by
  induction ps generalizing s l with
  | nil => exact h
  | cons p t ih => exact ih h.pwrite
theorem State.Canonical.cause {f v : Nat} (h : s.Canonical) : (s.cause f v).Canonical := h.modFn
theorem State.Canonical.event {f kind core : Nat} (h : s.Canonical) : (s.event f kind core).Canonical := h.modFn.cause
theorem State.Canonical.eventAll {kind : Nat} (h : s.Canonical) : (s.eventAll kind).Canonical := h.foldl fun _ _ h => h.event
theorem State.Canonical.ringWrite {f va : Nat} {l : List Byte} (h : s.Canonical) : (s.ringWrite f va l).Canonical := by
  unfold State.ringWrite
  split
  · exact h.event
  · split
    exacts [h.pwrites, h.event]
theorem State.Canonical.trace {c k kind : Nat} {st : Strm} {code data : Nat} (h : s.Canonical) :
    (s.trace c k kind st code data).Canonical := by
  unfold State.trace
  split
  exacts [h, .ite h h.update]
theorem State.Canonical.traceWrite {x : Traced} (h : s.Canonical) : (s.traceWrite x).Canonical := .ite h h.ringWrite.modFn
theorem State.Canonical.flushTrace (h : s.Canonical) : s.flushTrace.Canonical := h.update.foldl fun _ _ h => h.traceWrite
theorem State.Canonical.requestStop {c k : Nat} {st : Strm} {cause : StopCause} (h : s.Canonical) :
    (s.requestStop c k st cause).Canonical := by
  unfold State.requestStop
  dsimp only
  split
  exacts [.ite h (.modSlot (.ite h.trace h)), .ite h (.modSlot (.ite h.trace h)), .modSlot (.ite h.trace h)]
theorem State.Canonical.requestAll {c k : Nat} {cause : StopCause} (h : s.Canonical) : (s.requestAll c k cause).Canonical :=
  h.foldl fun _ _ h => h.requestStop
theorem State.Canonical.setStopc {p i : Nat} {code : Code} (h : s.Canonical) : (s.setStopc p i code).Canonical := h.modPart.pwrite
theorem State.Canonical.stopTask {c k : Nat} {code : Code} {st : Nat} {eva : Word} (h : s.Canonical) :
    (s.stopTask c k code st eva).Canonical :=
  .ite h h.modSlot.setStopc.requestAll
theorem State.Canonical.loopExit {c k : Nat} {st : Strm} {l : HwLoop} (h : s.Canonical) : (s.loopExit c k st l).Canonical := h.trace
theorem State.Canonical.loopExits {c k : Nat} {st : Strm} {ls : List HwLoop} (h : s.Canonical) :
    (s.loopExits c k st ls).Canonical :=
  h.foldl fun _ _ h => h.loopExit
theorem State.Canonical.advance {len : Nat} (h : s.Canonical) : (s.advance len).Canonical := h.modMe.loopExits
theorem State.Canonical.jumpTo {pc : Word} (h : s.Canonical) : (s.jumpTo pc).Canonical := h.modMe.loopExits
theorem State.Canonical.dropReads {l : List ReadRef} (h : s.Canonical) : (s.dropReads l).Canonical := h.foldl fun _ _ h => h.modTile
theorem State.Canonical.dropDst {shd : Bool} {d : Option ReadRef} (h : s.Canonical) : (s.dropDst shd d).Canonical := by
  unfold State.dropDst
  split
  exacts [h, h.modTile]
theorem State.Canonical.abandonHead {c k : Nat} {r : RingId} (h : s.Canonical) : (s.abandonHead c k r).Canonical := by
  unfold State.abandonHead
  exact h.dropReads.dropDst.modSlot
theorem Core.Canonical.putEng {co : Core} {e : Engine} {x : EngineSt} (h : co.Canonical) : (co.putEng e x).Canonical := by
  unfold Core.putEng
  split
  exacts [h.update, h.update, h.update, h.update]
theorem State.Canonical.modEng {c : Nat} {e : Engine} {f : EngineSt → EngineSt} (h : s.Canonical) : (s.modEng c e f).Canonical :=
  h.modCore fun _ h => h.putEng
theorem State.Canonical.endTenure {c k : Nat} {e : Engine} (h : s.Canonical) : (s.endTenure c k e).Canonical :=
  .ite h (.modEng (.modSlot (.ite h.count h)))
theorem State.Canonical.endTenureOf {c k : Nat} {st : Strm} (h : s.Canonical) : (s.endTenureOf c k st).Canonical := by
  unfold State.endTenureOf
  split
  exacts [h.endTenure, h]
theorem State.Canonical.vTenure {c k : Nat} (h : s.Canonical) : (s.vTenure c k).Canonical := .ite h.endTenure h
theorem State.Canonical.completed {k : SlotId} {f : State → State} (h : s.Canonical)
    (hf : ∀ t : State, t.Canonical → (f t).Canonical) : (s.completed k f).Canonical :=
  .ite (h.withCur fun _ h => hf _ h) (.modSlot (.count (h.withCur fun _ h => hf _ h)))
theorem State.Canonical.sentDone {k : SlotId} (h : s.Canonical) : (s.sentDone k).Canonical := by
  unfold State.sentDone
  dsimp only
  split
  exacts [.ite h (h.completed fun _ h => h.modMe.advance), h]
theorem State.Canonical.abandonWait {c k : Nat} {st : Strm} (h : s.Canonical) : (s.abandonWait c k st).Canonical := by
  unfold State.abandonWait
  refine .modSlot ?_
  split
  exacts [.modPart (.ite h.sentDone h), .modFn (.ite h.sentDone h), .ite h.sentDone h]
theorem State.Canonical.trapEntry {c k : Nat} {code : Code} {st : Strm} {epc eva : Word} (h : s.Canonical) :
    (s.trapEntry c k code st epc eva).Canonical :=
  .ite h.modSlot (.ite h.endTenureOf.modSlot.stopTask (.modSlot (.ite h.endTenureOf h.endTenureOf.abandonWait)))
theorem State.Canonical.settleRes {s0 : State} {len : Nat} {r : Res} (h : s0.Canonical) (hr : r.Canonical) :
    (s0.settleRes len r).Canonical := by
  cases hr with unfold State.settleRes
  | done h => exact h.advance
  | jump h => exact h.jumpTo
  | wait h => exact h.modMe
  | trap => exact h.trapEntry
  | stay h => exact h
  | skip h => exact h.advance
theorem State.Canonical.finish {s0 : State} {len : Nat} {r : Res} (h : s0.Canonical) (hr : r.Canonical) :
    (s0.finish len r).Canonical :=
  .ite (.vTenure (h.settleRes hr)) (h.settleRes hr)
theorem State.Canonical.instr {pr : Pred} {len : Nat} {body : State → Res} (h : s.Canonical)
    (hf : ∀ t : State, t.Canonical → (body t).Canonical) : Out.Canonical (instr pr len body s) :=
  .ite (.next h.advance) (.next (h.finish (hf _ h)))
theorem State.Canonical.instrAlways {len : Nat} {body : State → Res} (h : s.Canonical)
    (hf : ∀ t : State, t.Canonical → (body t).Canonical) : Out.Canonical (instrAlways len body s) :=
  .next (h.finish (hf _ h))
theorem State.Canonical.wrote (h : s.Canonical) : s.wrote.Canonical := h.modMe
theorem State.Canonical.earlyRead {c k : Nat} {va : Word} (h : s.Canonical) : (s.earlyRead c k va).Canonical := by
  unfold State.earlyRead
  dsimp only
  split
  exacts [h, h.misses.observe.update]
theorem State.Canonical.loaded {va pa n : Nat} (h : s.Canonical) : (s.loaded va pa n).Canonical := by
  unfold State.loaded
  split
  exacts [.dropEarly (h.mapHiddenAt.foldl fun _ _ h => h.pass), h.observe]
theorem State.Canonical.load {va : Word} {n : Nat} (h : s.Canonical) : ∀ r, s.load va n = .ok r → r.2.Canonical := by
  unfold State.load
  split
  · exact forall_error_eq_ok
  · split
    · exact forall_error_eq_ok
    · exact forall_ok_eq_ok h.loaded
theorem State.Canonical.overEarly {va pa n : Nat} (h : s.Canonical) : (s.overEarly va pa n).Canonical := .ite h h.update
theorem State.Canonical.store {va : Word} {n v : Nat} (h : s.Canonical) : Chk.Canonical (s.store va n v) := by
  unfold State.store
  split
  exacts [.error, .ite .error (.ok h.overEarly.pwrite.madeAt.wrote)]
theorem State.Canonical.homeWrite {o : Nat} {l : List Byte} (h : s.Canonical) : (s.homeWrite o l).Canonical :=
  .wrote (h.modCore fun _ h => h.swrite)
theorem State.Canonical.fetchMisses {c k : Nat} {st : Strm} (h : s.Canonical) : (s.fetchMisses c k st).Canonical := .ite h h.misses

/-! ### Machine/Operands -/

theorem State.Canonical.setX {d : Reg} {v : Word} (h : s.Canonical) : (s.setX d v).Canonical := h.modMe
theorem State.Canonical.setP {d : PReg} {b : Bool} (h : s.Canonical) : (s.setP d b).Canonical := h.modMe
theorem State.Canonical.orFlags {f : Fl} (h : s.Canonical) : (s.orFlags f).Canonical := h.modMe
theorem State.Canonical.rrr {f : Word → Word → Word} {o : RRR} (h : s.Canonical) : Out.Canonical (rrr f o s) :=
  h.instr fun _ h => .done h.setX
theorem State.Canonical.rri {f : Word → Word → Word} {o : RRI} (h : s.Canonical) : Out.Canonical (rri f o s) :=
  h.instr fun _ h => .done h.setX
theorem State.Canonical.rr {f : Word → Word} {o : RR} (h : s.Canonical) : Out.Canonical (rr f o s) :=
  h.instr fun _ h => .done h.setX
theorem State.Canonical.rrrFl {f : Word → Word → Word × Fl} {o : RRR} (h : s.Canonical) : Out.Canonical (rrrFl f o s) :=
  h.instr fun _ h => .done h.setX.orFlags
theorem State.Canonical.rriFl {f : Word → Word → Word × Fl} {o : RRI} (h : s.Canonical) : Out.Canonical (rriFl f o s) :=
  h.instr fun _ h => .done h.setX.orFlags
theorem Core.Canonical.putRing {co : Core} {n : Nat} {r : RingRec} (h : co.Canonical) : (co.putRing n r).Canonical := h.update

/-! ### Machine/Push -/

theorem State.Canonical.push {r : RingId} {w : BitVec 128} (h : s.Canonical) : (push r w s).Canonical :=
  .ite .trap (.chk fun _ _ => .ite (.wait h) (.done h.modMe))
theorem State.Canonical.execMgo {o : PushRR} (h : s.Canonical) : Out.Canonical (execMgo o s) := by
  refine h.instr fun _ h => ?_
  dsimp only
  split
  exacts [.chk fun _ _ => h.push, .chk fun _ _ => h.push, h.push, .chk fun _ _ => h.push, .chk fun _ _ => h.push, .trap]
theorem State.Canonical.execXpsh {o : PushRRL} (h : s.Canonical) : Out.Canonical (execXpsh o s) :=
  h.instr fun _ h => .ite h.push .trap
theorem State.Canonical.execSgo {o : JrOp} (h : s.Canonical) : Out.Canonical (execSgo o s) := h.instr fun _ h => .ite h.push .trap
theorem State.Canonical.execVgo {o : PushRRL} (h : s.Canonical) : Out.Canonical (execVgo o s) :=
  h.instr fun _ h => .ite .trap (.ite .trap h.push)
theorem State.Canonical.execMset {o : MsetOp} (h : s.Canonical) : Out.Canonical (execMset o s) :=
  h.instr fun _ h => .ite .trap (.ite .trap (.ite (.wait h) (.done h.modMe)))
theorem State.Canonical.execMsetG {o : MsetGOp} (h : s.Canonical) : Out.Canonical (execMsetG o s) :=
  h.instr fun _ h => .ite .trap (.ite (.wait h) (.done h.modMe))

/-! ### Machine/Sem -/

theorem State.Canonical.execSemr {o : SemrOp} (h : s.Canonical) : Out.Canonical (execSemr o s) :=
  h.instr fun _ h => .ite .trap (.done h.modMe)
theorem State.Canonical.semWait {n s' : Nat} {w : WaitFor} {f : State → Res} (h : s.Canonical)
    (hf : ∀ t : State, t.Canonical → (f t).Canonical) : (semWait n s' w s f).Canonical :=
  .ite .trap (.ite (hf _ h) (.ite .trap (.ite (.ite .trap (.wait h)) (hf _ h.learn))))
theorem State.Canonical.execSemw {o : SemwOp} (h : s.Canonical) : Out.Canonical (execSemw o s) :=
  h.instr fun _ h => h.semWait fun _ h => .done h.setX
theorem State.Canonical.gset {pr : Pred} {g : BitVec 6} {v : State → BitVec 2} (h : s.Canonical) :
    Out.Canonical (gset pr g v s) :=
  h.instr fun _ h => .ite .trap (.done h.modMe)
theorem State.Canonical.noteRing {r : RingId} {o : NoteOp} (h : s.Canonical) : Out.Canonical (noteRing r o s) :=
  h.instr fun _ h => .ite .trap (.ite .trap (.chk fun _ _ => .ite (.wait h) (.done h.modMe)))
theorem State.Canonical.execNoteC {o : NoteOp} (h : s.Canonical) : Out.Canonical (execNoteC o s) :=
  h.instr fun _ h => h.semWait fun _ h => .ite .trap (.ite .trap (.ite (.wait h) (.stay h.modMe)))
theorem State.Canonical.passKernel (h : s.Canonical) : s.passKernel.Canonical := by
  unfold State.passKernel
  split
  exacts [h.passRun, h]
theorem State.Canonical.execHaltV {x : Pred} (h : s.Canonical) : Out.Canonical (execHaltV x s) := by
  refine h.instrAlways fun _ h => ?_
  dsimp only
  split
  · exact .wait (.putMe (.passKernel (by split; exacts [h.trace, h])))
  · exact .stay (.putMe (.passKernel (by split; exacts [h.trace, h])))
  · exact .jump (.trace (.learn (.putMe (.passKernel (by split; exacts [h.trace, h])))))
theorem State.Canonical.execKernelStart {o : SlotId} (h : s.Canonical) : Out.Canonical (execKernelStart o s) := by
  unfold Machine.execKernelStart
  refine .ite ?_ (.next h)
  have hv : Out.Canonical (Machine.execHaltV ⟨0, false⟩ { s with cur := ⟨o.core, o.slot, .v⟩ }) :=
    State.Canonical.execHaltV h.update
  split
  · next e => exact .next (hv.of_next e).update
  · exact hv
theorem State.Canonical.execNoteV {x : Pred} (h : s.Canonical) : Out.Canonical (execNoteV x s) :=
  h.instrAlways fun _ h => .stay (.modMe (.passKernel (by split; exacts [h.trace, h])))

/-! ### Machine/Lottery -/

theorem State.Canonical.setCur {k : Nat} {c : Currency} (h : s.Canonical) : (s.setCur k c).Canonical := h.update
theorem State.Canonical.modCur {k : Nat} {f : Currency → Currency} (h : s.Canonical) : (s.modCur k f).Canonical := h.setCur
theorem Core.Canonical.setGen {c : Core} {e : Nat} {v : BitVec 32} (h : c.Canonical) : (c.setGen e v).Canonical := h.update
theorem State.Canonical.reportCycle {p : Nat} {l : List StrmRef} (h : s.Canonical) : (s.reportCycle p l).Canonical := by
  unfold State.reportCycle
  split
  exacts [h, h.modPart.event]
theorem State.Canonical.lendCycles {p : Nat} (h : s.Canonical) : (s.lendCycles p).Canonical := by
  unfold State.lendCycles
  exact .modPart (h.foldl fun _ _ h => h.reportCycle)

/-! ### Machine/Tiles -/

theorem Core.Canonical.release {c : Core} {r : Registration} (h : c.Canonical) : (c.release r).Canonical :=
  .ite h.update.putTile h.update
theorem State.Canonical.releaseTaste {c k e : Nat} (h : s.Canonical) : (s.releaseTaste c k e).Canonical := by
  unfold State.releaseTaste
  dsimp only
  split
  exacts [h.modCore fun _ h => h.release, h]
theorem State.Canonical.releaseTastes {c k : Nat} (h : s.Canonical) : (s.releaseTastes c k).Canonical := by
  unfold State.releaseTastes
  exact .modSlot (h.foldl fun _ _ h => h.releaseTaste)
theorem State.Canonical.requestRefire {c k : Nat} (h : s.Canonical) : (s.requestRefire c k).Canonical :=
  .ite h (.ite (h.foldl fun _ _ h => .ite h.modSlot h) (h.foldl fun _ _ h => .ite h h.modSlot.requestAll))
theorem State.Canonical.checkConsumers {c abs : Nat} (h : s.Canonical) : (s.checkConsumers c abs).Canonical :=
  h.foldl fun _ _ h => .ite (.requestRefire (.ite h.modSlot.modTile h.modSlot)) h
theorem State.Canonical.sealTile {c abs : Nat} (h : s.Canonical) : (s.sealTile c abs).Canonical :=
  .ite h (.ite h.putTile (.modSlot (h.putTile.foldl fun _ _ h => .ite h.trace h)))
theorem State.Canonical.landNow {c abs : Nat} (h : s.Canonical) : (s.landNow c abs).Canonical :=
  .ite (.sealTile (h.modCore fun _ h => h.update)) h
theorem State.Canonical.landSeal {c abs : Nat} (h : s.Canonical) : (s.landSeal c abs).Canonical := .ite h.landNow h
theorem State.Canonical.tileReady {c abs : Nat} (h : s.Canonical) : (s.tileReady c abs).Canonical := h.modTile.checkConsumers
theorem State.Canonical.swapTile {c abs : Nat} {keep : Bool} (h : s.Canonical) : (s.swapTile c abs keep).Canonical :=
  h.modTile.checkConsumers
theorem State.Canonical.publish {pub : SlotId} {c abs : Nat} {keep : Bool} (h : s.Canonical) :
    (s.publish pub c abs keep).Canonical :=
  .ite (.ite (.refused h.landSeal.putTile) .fault) (.ite .fault (.published h.landSeal.swapTile.count))
theorem State.Canonical.dropRegs {c abs : Nat} (h : s.Canonical) : (s.dropRegs c abs).Canonical :=
  h.mapCores rfl rfl fun _ h => h.update
theorem State.Canonical.freeTile {c abs : Nat} (h : s.Canonical) : (s.freeTile c abs).Canonical := by
  unfold State.freeTile
  dsimp only
  split
  exacts [h.landSeal.putTile.dropRegs, h.landSeal.putTile.dropRegs, h.landSeal]
theorem State.Canonical.takeRead {c abs : Nat} (h : s.Canonical) : (s.takeRead c abs).1.Canonical := .pair h.putTile
theorem State.Canonical.spWrite {c a : Nat} {l : List Byte} (h : s.Canonical) : (s.spWrite c a l).Canonical :=
  h.modCore fun _ h => h.swrite
theorem State.Canonical.spPoison {c a n : Nat} (h : s.Canonical) : (s.spPoison c a n).Canonical := h.modCore fun _ h => h.update
theorem State.Canonical.spCopy {c a c' a' n : Nat} (h : s.Canonical) : (s.spCopy c a c' a' n).Canonical :=
  h.spWrite.foldl fun _ _ h => h.spPoison

/-! ### Machine/Casks -/

theorem Core.Canonical.putCask {co : Core} {k : Nat} {x : Cask} (h : co.Canonical) : (co.putCask k x).Canonical := h.update
theorem State.Canonical.modCask {c k : Nat} {f : Cask → Cask} (h : s.Canonical) : (s.modCask c k f).Canonical :=
  h.modCore fun _ h => h.putCask
theorem State.Canonical.freeCask {c k : Nat} (h : s.Canonical) : (s.freeCask c k).Canonical := by
  unfold State.freeCask
  exact .modCask (h.foldl fun _ _ h => h.freeTile.modTile)
theorem State.Canonical.spToPhys {c a pa n : Nat} (h : s.Canonical) : (s.spToPhys c a pa n).Canonical := h.pwrite.update
theorem State.Canonical.physToSp {c pa a n : Nat} (h : s.Canonical) : (s.physToSp c pa a n).Canonical :=
  h.spWrite.foldl fun _ _ h => h.spPoison
theorem State.Canonical.startRack {c k : Nat} (h : s.Canonical) : (s.startRack c k).Canonical := by
  unfold State.startRack
  exact .modCask (h.foldl fun _ _ h => .ite h.spToPhys.putTile h.putTile)
theorem State.Canonical.endRack {c k : Nat} (h : s.Canonical) : (s.endRack c k).Canonical :=
  .ite h (.count (.modCask (h.foldl fun _ _ h => .ite h.putTile h)))
theorem State.Canonical.execRackComplete {o : CaskRef} (h : s.Canonical) : Out.Canonical (execRackComplete o s) := .next h.endRack
theorem State.Canonical.makeRoom {c self : Nat} {taken : List (Nat × Nat)} {n fuel : Nat} (h : s.Canonical) :
    (s.makeRoom c self taken n fuel).Canonical := by
  induction fuel generalizing s with
  | zero => exact h
  | succ fuel ih =>
    unfold State.makeRoom
    refine .ite h ?_
    split
    · exact ih h.freeCask
    · split
      · exact h
      · exact ih (.startRack (h.modCore fun _ h => h.setGen))
theorem State.Canonical.poolAlloc {c self : Nat} {taken : List (Nat × Nat)} {n : Nat} (h : s.Canonical) :
    (s.poolAlloc c self taken n).1.Canonical :=
  .pair h.makeRoom
theorem State.Canonical.allocTiles {c self : Nat} {l done : List (Nat × Tile)} (h : s.Canonical) :
    (s.allocTiles c self l done).1.Canonical := by
  induction l generalizing s done with
  | nil => exact h
  | cons a t ih =>
    unfold State.allocTiles
    split
    · next e => exact h.poolAlloc.of_fst e
    · next e => exact ih (h.poolAlloc.of_fst e)
theorem State.Canonical.fetchCask {c k : Nat} (h : s.Canonical) : (s.fetchCask c k).1.Canonical := by
  unfold State.fetchCask
  dsimp only
  split
  · exact h
  · split
    · exact h
    · split
      · next e => exact h.allocTiles.of_fst e
      · next e => exact .pair (.modCask (.foldl (h.allocTiles.of_fst e) fun _ _ h => h.putTile))
theorem State.Canonical.endFetch {c k : Nat} (h : s.Canonical) : (s.endFetch c k).Canonical :=
  .ite h (.count (.modCask (h.foldl fun _ _ h => .ite h.physToSp.putTile h.putTile)))
theorem State.Canonical.execFetchBackComplete {o : CaskRef} (h : s.Canonical) : Out.Canonical (execFetchBackComplete o s) :=
  .next h.endFetch
theorem State.Canonical.nameTile {c abs : Nat} (h : s.Canonical) : (s.nameTile c abs).1.Canonical := by
  unfold State.nameTile
  dsimp only
  split
  exacts [h.fetchCask, h]
theorem State.Canonical.tidyCask {c k : Nat} (h : s.Canonical) : (s.tidyCask c k).Canonical := .ite h.modCask h

/-! ### Machine/Control -/

theorem State.Canonical.addDepth {n : Nat} (h : s.Canonical) : (s.addDepth n).Canonical := h.modMe
theorem State.Canonical.execBp {o : BpOp} (h : s.Canonical) : Out.Canonical (execBp o s) := h.instr fun _ h => .jump h
theorem State.Canonical.execBV {o : Imm} (h : s.Canonical) : Out.Canonical (execBV o s) := h.instrAlways fun _ h => .jump h
theorem State.Canonical.execJr {o : JrOp} (h : s.Canonical) : Out.Canonical (execJr o s) :=
  h.instr fun _ h => .chk fun _ _ => .jump h
theorem State.Canonical.execCall {o : CallOp} (h : s.Canonical) : Out.Canonical (execCall o s) :=
  h.instr fun _ h => .chk fun _ _ => .jump h.setX.addDepth
theorem State.Canonical.execCallr {o : RR} (h : s.Canonical) : Out.Canonical (execCallr o s) :=
  h.instr fun _ h => .chk fun _ _ => .jump h.setX.addDepth
theorem State.Canonical.execRet {o : JrOp} (h : s.Canonical) : Out.Canonical (execRet o s) :=
  h.instr fun _ h => .chk fun _ _ => .jump h.addDepth
theorem State.Canonical.hloop {np : Bool} {o : HloopOp} {len n : Nat} (h : s.Canonical) : (hloop np o len n s).Canonical :=
  .ite .trap (.ite .trap (.ite .trap (.ite (.skip h.modMe) (.stay h.modMe))))
theorem State.Canonical.hloopC {np : Bool} {o : HloopOp} (h : s.Canonical) : Out.Canonical (hloopC np o s) :=
  h.instrAlways fun _ h => h.hloop
theorem State.Canonical.execHloopV {o : HloopVOp} (h : s.Canonical) : Out.Canonical (execHloopV o s) := by
  refine h.instrAlways fun _ h => ?_
  split
  exacts [h.hloop, .ite .trap h.hloop]

/-! ### Machine/TileInstr -/

theorem Res.Canonical.keep {r : Res} {key c a : Nat} (hr : r.Canonical) : (r.keep key c a).Canonical := by
  unfold Res.keep
  split
  · cases hr with | wait h => exact .wait h.modMe
  · exact hr
theorem State.Canonical.withPlace {top : BitVec 12} {wr : Bool} {f : Nat → Nat → Res} (h : s.Canonical)
    (hf : ∀ a0 a1, (f a0 a1).Canonical) : (withPlace s top wr f).Canonical := by
  unfold Machine.withPlace
  dsimp only
  split
  · exact .keep (.ite (hf _ _) .trap)
  · refine .chk fun _ _ => ?_
    split
    exacts [.wait h, .ite (.keep (.ite (hf _ _) .trap)) (.ite (hf _ _) .trap)]
theorem State.Canonical.withRead {c a : Nat} {w : WaitFor} {f : State → Res} (h : s.Canonical)
    (hf : ∀ t : State, t.Canonical → (f t).Canonical) : (withRead s c a w f).Canonical := by
  unfold Machine.withRead
  split
  · next e => exact .wait (h.nameTile.of_fst e)
  · next e => exact .ite (hf _ (h.nameTile.of_fst e)) (.wait (h.nameTile.of_fst e))
theorem State.Canonical.execTstat {o : TileDA} (h : s.Canonical) : Out.Canonical (execTstat o s) :=
  h.instr fun _ h => .chk fun _ _ => .done h.setX
theorem State.Canonical.execTfree {o : TileA} (h : s.Canonical) : Out.Canonical (execTfree o s) :=
  h.instr fun _ h => .chk fun _ _ => .ite .trap (.done h.freeTile)
theorem State.Canonical.withdraw {hd : Holding} (h : s.Canonical) : (s.withdraw hd).Canonical := .ite h h.modCur
theorem State.Canonical.undefTile {c abs : Nat} (h : s.Canonical) : (s.undefTile c abs).Canonical :=
  .ite h.withdraw.putTile h.withdraw.putTile.tidyCask
theorem State.Canonical.execTfreeU {o : TileA} (h : s.Canonical) : Out.Canonical (execTfreeU o s) :=
  h.instr fun _ h => .chk fun _ _ => .ite .trap (.done h.freeTile.undefTile)
theorem State.Canonical.execTbind {o : TbindOp} (h : s.Canonical) : Out.Canonical (execTbind o s) := by
  refine h.instr fun _ h => .ite .trap (.ite .trap ?_)
  refine .ite (.ite .trap (.done (.setX (.wrote (h.foldl fun _ _ h => h.pwrite))))) ?_
  split
  exacts [.trap, .ite .trap (.done h.pwrite.wrote.setX)]
theorem State.Canonical.execCbdef {o : CbdefOp} (h : s.Canonical) : Out.Canonical (execCbdef o s) :=
  h.instr fun _ h => .ite .trap (.ite .trap (.done (.modMe (h.modCore fun _ h => h.putRing))))
theorem State.Canonical.execCbdefT {o : CbdefTOp} (h : s.Canonical) : Out.Canonical (execCbdefT o s) := by
  refine h.instr fun _ h => .ite .trap (.ite .trap ?_)
  refine .ite .trap (.ite .trap ?_)
  refine .ite (.done (h.foldl fun _ _ h => h.putTile)) ?_
  split
  · exact .trap
  · refine .ite (.done (h.foldl fun _ _ h => h.putTile)) ?_
    split
    · next e => exact .wait (h.allocTiles.of_fst e)
    · next e => exact .done (.foldl (h.allocTiles.of_fst e) fun _ _ h => h.putTile)
theorem State.Canonical.cbadv {o : CbadvOp} {role : Nat} {f : State → CbHandle → RingRec → Nat → Res} (h : s.Canonical)
    (hf : ∀ t : State, t.Canonical → ∀ a0 a1 a2, (f t a0 a1 a2).Canonical) : Out.Canonical (cbadv o role f s) :=
  h.instr fun _ h => .ite .trap (.ite .trap (hf _ h _ _ _))
theorem State.Canonical.execCbadvP {o : CbadvOp} (h : s.Canonical) : Out.Canonical (execCbadvP o s) :=
  h.cbadv fun _ h _ _ _ => .ite .trap (.ite .trap (.ite .trap (.ite (.done (h.modCore fun _ h => h.putRing)) (.wait h))))
theorem State.Canonical.execCbadvC {o : CbadvOp} (h : s.Canonical) : Out.Canonical (execCbadvC o s) :=
  h.cbadv fun _ h _ _ _ => .ite .trap (.ite .trap (.done (.modCore (h.foldl fun _ _ h => h.freeTile) fun _ h => h.putRing)))
theorem State.Canonical.execCbqry {o : CbqryOp} (h : s.Canonical) : Out.Canonical (execCbqry o s) :=
  h.instr fun _ h => .ite .trap (.done h.setX)
theorem State.Canonical.setPin {c k : Nat} {b : Bool} (h : s.Canonical) : (s.setPin c k b).Canonical :=
  .modCask (h.foldl fun _ _ h => h.putTile)
theorem State.Canonical.execCkpin {o : TileA} (h : s.Canonical) : Out.Canonical (execCkpin o s) := by
  refine h.instr fun _ h => .chk fun _ _ => .ite (.done h) (.ite .trap ?_)
  split
  · next e => exact .wait (h.fetchCask.of_fst e)
  · next e => exact .done (.setPin (h.fetchCask.of_fst e))
theorem State.Canonical.execCkpinClr {o : TileA} (h : s.Canonical) : Out.Canonical (execCkpinClr o s) :=
  h.instr fun _ h => .chk fun _ _ => .ite (.done h) (.ite .trap (.done h.setPin))
theorem State.Canonical.execCktkt {o : TileDA} (h : s.Canonical) : Out.Canonical (execCktkt o s) :=
  h.instr fun _ h => .chk fun _ _ => .done h.setX

/-! ### Machine/Vintage -/

theorem State.Canonical.execPubv {o : DTile} (h : s.Canonical) : Out.Canonical (execPubv o s) :=
  h.instr fun _ h => .chk fun _ _ => .ite .trap (.ite (.wait h) (by
    split
    · exact .trap
    · next e => exact .done (h.publish.of_refused e).setX
    · next e => exact .done (h.publish.of_published e).setX))
theorem State.Canonical.execSeal {o : DTile} (h : s.Canonical) : Out.Canonical (execSeal o s) :=
  h.instr fun _ h => .chk fun _ _ => .ite .trap (.done h.landSeal.sealTile.setX)
theorem State.Canonical.execSealR {o : DCap} (h : s.Canonical) : Out.Canonical (execSealR o s) :=
  h.instr fun _ h => .chk fun _ _ => .ite .trap (.ite (.done h.setX) (.done (.setX (h.modCore fun _ h => h.update))))
theorem State.Canonical.execRemoteSealArrival {o : TileRef} (h : s.Canonical) : Out.Canonical (execRemoteSealArrival o s) :=
  .next h.landNow
theorem State.Canonical.peerSend {c a : Nat} {shd : Bool} {data : List Byte} (h : s.Canonical) :
    (s.peerSend c a shd data).Canonical := by
  unfold State.peerSend
  split
  · next e => exact h.nameTile.of_fst e
  · next e =>
      refine .ite (h.nameTile.of_fst e) ?_
      exact .ite (.swapTile (.spWrite (h.nameTile.of_fst e))) (.tileReady (.spWrite (h.nameTile.of_fst e)))
theorem State.Canonical.peerTile {x : PeerTile} (h : s.Canonical) : (s.peerTile x).Canonical := by
  unfold State.peerTile
  split
  · exact h.peerSend
  · split
    · next e => exact h.nameTile.of_fst e
    · next e => exact .ite (.modTile (.takeRead (h.nameTile.of_fst e))) (h.nameTile.of_fst e)
  · split
    exacts [h, h.modTile]
theorem State.Canonical.tasteAt {d : Reg} {e : Nat} {fin : Bool} {m lc : Word} {oc a : Nat} (h : s.Canonical) :
    (tasteAt s d e fin m lc oc a).Canonical := by
  refine .ite .trap (.ite .trap ?_)
  refine .ite .trap (.ite ?_ (.wait (.ite (.modMe (.ite h.releaseTaste.modTile h.releaseTaste)) h)))
  refine .done ?_
  exact .setX (.modMe (.modTile (.modCore (.ite (.modMe (.ite h.releaseTaste.modTile h.releaseTaste)) h) fun _ h => h.update)))
theorem State.Canonical.execTaste {o : TasteOp} (h : s.Canonical) : Out.Canonical (execTaste o s) :=
  h.instr fun _ h => .chk fun _ _ => h.tasteAt
theorem State.Canonical.execTasteR {o : TasteROp} (h : s.Canonical) : Out.Canonical (execTasteR o s) :=
  h.instr fun _ h => .chk fun _ _ => h.tasteAt
theorem State.Canonical.execVnq {o : DTile} (h : s.Canonical) : Out.Canonical (execVnq o s) :=
  h.instr fun _ h => .chk fun _ _ => .done h.setX
theorem State.Canonical.execVnqR {o : DCap} (h : s.Canonical) : Out.Canonical (execVnqR o s) :=
  h.instr fun _ h => .chk fun _ _ => .done h.setX
theorem State.Canonical.execVnqE {o : VnqEOp} (h : s.Canonical) : Out.Canonical (execVnqE o s) := h.instr fun _ h => .done h.setX
theorem State.Canonical.execSetdef {o : SetdefOp} (h : s.Canonical) : Out.Canonical (execSetdef o s) :=
  h.instr fun _ h => .ite .trap (.ite .trap (.ite .trap (.ite .trap (.ite .trap (.done h.modPart.setX)))))
theorem State.Canonical.execSetlw {o : SetlwOp} (h : s.Canonical) : Out.Canonical (execSetlw o s) :=
  h.instr fun _ h => .ite (.done h.setX) (.ite (.done h.setX) (.ite (.done h.setX) (.wait h)))

/-! ### Machine/System -/

theorem State.Canonical.raiseCmd {r : StrmRef} {rss : Nat} (h : s.Canonical) : (s.raiseCmd r rss).Canonical := h.modSlot.passRun
theorem State.Canonical.execTrap {o : TrapOp} (h : s.Canonical) : Out.Canonical (execTrap o s) :=
  h.instr fun _ h => .ite (.done h.stopTask) (.stay h.trapEntry)
theorem State.Canonical.execTrapEntry {o : TrapArgs} (h : s.Canonical) : Out.Canonical (execTrapEntry o s) :=
  .ite (.next h) (.ite (.next h.stopTask) (.next h.trapEntry))
theorem State.Canonical.discardHead {c k : Nat} {r : RingId} (h : s.Canonical) : (s.discardHead c k r).Canonical :=
  .ite h h.abandonHead.modSlot.raiseCmd
theorem State.Canonical.eret (h : s.Canonical) : s.eret.Canonical := by
  unfold State.eret
  exact h.loopExits.loopExits.modMe
theorem State.Canonical.execEret {pr : Pred} (h : s.Canonical) : Out.Canonical (execEret pr s) := by
  refine h.instr fun _ h => .ite .trap (.ite (.stay h.eret) ?_)
  exact .ite (.stay h.loopExits.modMe.eret) (.ite (.stay h.eret) (.ite (.stay h.discardHead.eret) (.stay h.stopTask)))
theorem State.Canonical.execSysrd {o : SysrdOp} (h : s.Canonical) : Out.Canonical (execSysrd o s) := by
  refine h.instr fun _ h => ?_
  split
  exacts [.done h.setX, .trap]
theorem State.Canonical.execSyswr {o : SyswrOp} (h : s.Canonical) : Out.Canonical (execSyswr o s) := by
  refine h.instr fun _ h => ?_
  split
  exacts [.done h.putMe, .trap]
theorem State.Canonical.tfence {mask : Word} (h : s.Canonical) : (tfence mask s).Canonical := .ite .trap (.done h)
theorem State.Canonical.execTfence {pr : Pred} (h : s.Canonical) : Out.Canonical (execTfence pr s) := h.instr fun _ h => h.tfence
theorem State.Canonical.execTfenceV {x : Pred} (h : s.Canonical) : Out.Canonical (execTfenceV x s) :=
  h.instrAlways fun _ h => h.tfence
theorem State.Canonical.execFlags {o : DOp} (h : s.Canonical) : Out.Canonical (execFlags o s) :=
  h.instr fun _ h => .done h.putMe.setX
theorem State.Canonical.execFlagsV {o : DOp} (h : s.Canonical) : Out.Canonical (execFlagsV o s) :=
  h.instrAlways fun _ h => .done h.putMe
theorem State.Canonical.haltSlot {c k reason : Nat} (h : s.Canonical) : (s.haltSlot c k reason).Canonical := h.modSlot.requestAll
theorem State.Canonical.execBrk {pr : Pred} (h : s.Canonical) : Out.Canonical (execBrk pr s) :=
  h.instr fun _ h => .done (.ite h.haltSlot h)
theorem State.Canonical.execHalt {pr : Pred} (h : s.Canonical) : Out.Canonical (execHalt pr s) :=
  h.instr fun _ h => .done h.stopTask
theorem State.Canonical.execNop {pr : Pred} (h : s.Canonical) : Out.Canonical (execNop pr s) := h.instr fun _ h => .done h
theorem State.Canonical.execWait {o : WaitOp} (h : s.Canonical) : Out.Canonical (execWait o s) :=
  h.instr fun _ h => .ite (.done h.setX) (.ite (.done h.setX) (.wait h))
theorem State.Canonical.reissue {o : SlotId} {f : Instr → Option (State → Out)} (h : s.Canonical)
    (hf : ∀ i, Run.Canonical (f i)) : Out.Canonical (s.reissue o f) := by
  unfold State.reissue
  refine .ite (.next h) ?_
  split
  · exact .next h
  · split
    · exact .next h
    · split
      · exact .next h
      · next e =>
        refine .next (h.completed fun t ht => ?_)
        split
        · next e' => exact ((hf _).of_some e ht).of_next e'
        · exact ht
theorem State.Canonical.execWaitTargetReached {o : SlotId} (h : s.Canonical) : Out.Canonical (execWaitTargetReached o s) := by
  unfold Machine.execWaitTargetReached
  split
  · exact .ite (h.reissue fun i => by split; exacts [.some fun _ h => h.execWait, .none]) (.next h)
  · exact .next h
theorem State.Canonical.execSetlwDeadline {o : SlotId} (h : s.Canonical) : Out.Canonical (execSetlwDeadline o s) := by
  unfold Machine.execSetlwDeadline
  split
  · exact .ite (h.reissue fun i => by split; exacts [.some fun _ h => h.execSetlw, .none]) (.next h)
  · exact .next h

/-! ### Machine/HeadOps -/

theorem State.Canonical.modHead {c k : Nat} {r : RingId} {f : HeadSt → HeadSt} (h : s.Canonical) :
    (s.modHead c k r f).Canonical :=
  h.modSlot
theorem State.Canonical.headFault {c k : Nat} {r : RingId} {code : Code} {eva : Word} (h : s.Canonical) :
    (s.headFault c k r code eva).Canonical :=
  .ite h.modHead (.trapEntry (.ite h.trace h))
theorem State.Canonical.beginHead {c k : Nat} {r : RingId} (h : s.Canonical) : (s.beginHead c k r).Canonical := by
  unfold State.beginHead
  exact .modSlot (.modHead (.ite h h.trace))
theorem State.Canonical.runUnits {unit : State → Nat → UnitRes} {stop : Nat → Bool} {n j : Nat} (h : s.Canonical)
    (hf : ∀ t : State, t.Canonical → ∀ i, (unit t i).Canonical) : (runUnits unit stop n s j).2.Canonical := by
  induction n generalizing s j with
  | zero => exact .ok h
  | succ n ih =>
    have hu := hf s h j
    unfold Machine.runUnits
    split <;> rename_i e <;> rw [e] at hu
    · cases hu with | ok h =>
      split
      · exact .ok h
      · exact ih h
    all_goals exact hu
theorem State.Canonical.runState {unit : State → Nat → UnitRes} {n j : Nat} (h : s.Canonical)
    (hf : ∀ t : State, t.Canonical → ∀ i, (unit t i).Canonical) : (runState unit n s j).Canonical := by
  induction n generalizing s j with
  | zero => exact h
  | succ n ih =>
    unfold Machine.runState
    split
    · next e => exact ih ((hf s h j).of_ok e)
    · next e => exact (hf s h j).of_failed e
    · exact h
theorem State.Canonical.looseUnits {p : Plan} {no j : Nat} (h : s.Canonical) (hp : p.Canonical) :
    (looseUnits p no j s).Canonical :=
  .ite h (h.foldl fun _ _ h => by
    split
    · next e => exact (hp.unit _ h _).of_ok e
    · exact h)
theorem State.Canonical.headWork {r : RingId} {whole : Bool} {plan : State → HeadSt → Plan} (h : s.Canonical)
    (hf : ∀ t hd, (plan t hd).Canonical) : (headWork r whole plan s).Canonical := by
  unfold Machine.headWork
  dsimp only
  refine .ite h ?_
  have hp := hf s (s.headAt s.cur.core s.cur.slot r)
  split
  · next e =>
    have h := (h.beginHead.runUnits hp.unit).of_ok e
    refine .ite h.modHead ?_
    split
    · next e => exact ((hp.last _ h).of_ok e).modHead.modHead
    · exact h.modHead.headFault
    · next e => exact ((hp.last _ h).of_failed e).modHead.headFault
    · next e => exact ((hp.last _ h).of_stall e).modHead.modHead.endTenureOf
    · next e => exact ((hp.last _ h).of_busy e).modHead
  · exact ((h.beginHead.runState hp.unit).looseUnits hp).modHead.headFault
  · exact ((h.beginHead.runState hp.unit).looseUnits hp).modHead.headFault
  · next e => exact ((h.beginHead.runUnits hp.unit).of_stall e).modHead.modHead.endTenureOf
  · next e => exact ((h.beginHead.runUnits hp.unit).of_busy e).modHead
theorem State.Canonical.takeOp {c k : Nat} {r : RingId} {shd : Bool} {i : Nat} {o : OpSpec} {x : OpRef} (h : s.Canonical) :
    (s.takeOp c k r shd i o x).1.Canonical := by
  unfold State.takeOp
  dsimp only
  split
  · split
    exacts [.pair h.modHead, h]
  · split
    · next e => exact h.nameTile.of_fst e
    · next e =>
        split
        · split
          exacts [.pair (.modHead (.modTile (h.nameTile.of_fst e))), h.nameTile.of_fst e]
        · split
          · split
            exacts [.pair (.modHead (.modTile (h.nameTile.of_fst e))), h.nameTile.of_fst e]
          · split
            exacts [.pair (.modHead (.takeRead (h.nameTile.of_fst e))), h.nameTile.of_fst e]
theorem State.Canonical.takeOps {c k : Nat} {r : RingId} {shd : Bool} {specs : List OpSpec} (h : s.Canonical) :
    (s.takeOps c k r shd specs).1.Canonical := by
  refine .foldl_fst h fun ⟨s, w⟩ i h => ?_
  dsimp only
  split
  · split
    · exact h
    · exact h.takeOp
  · exact h
  · exact h
theorem State.Canonical.dstWrite {hd : HeadSt} {f : State → Nat → Nat → State} (h : s.Canonical)
    (hf : ∀ t : State, t.Canonical → ∀ a0 a1, (f t a0 a1).Canonical) : (dstWrite hd s f).Canonical := by
  unfold Machine.dstWrite
  split
  exacts [h, .ite h (hf _ h _ _)]
theorem State.Canonical.zeroTail {hd : HeadSt} {n : Nat} (h : s.Canonical) : (zeroTail hd n s).Canonical := by
  refine h.dstWrite fun _ h _ _ => ?_
  split
  exacts [h, h.spWrite]
theorem State.Canonical.endDst {c k : Nat} {hold : Bool} {hd : HeadSt} (h : s.Canonical) :
    ∀ t ∈ s.endDst c k hold hd, t.1.Canonical := by
  unfold State.endDst
  split
  · exact forall_mem_some h
  · split
    · split
      · split
        · exact forall_mem_some h
        · exact forall_mem_some h
        · exact forall_mem_none
      · exact forall_mem_some h
    · split
      · exact forall_mem_some h.tileReady
      · split
        · exact forall_mem_some h
        · split
          · next e => exact forall_mem_some (h.publish.of_published e)
          · next e => exact forall_mem_some (h.publish.of_refused e)
          · exact forall_mem_none
theorem State.Canonical.retireHead {c k : Nat} {r : RingId} {code vint : Nat} (h : s.Canonical) :
    (s.retireHead c k r code vint).Canonical :=
  .endTenureOf (.raiseCmd (.modSlot (.dropReads (.trace (.ite h h.trace)))))

/-! ### Machine/Copy -/

theorem State.Canonical.madeAll {va : Nat} {l : List (Nat × Nat)} (h : s.Canonical) : (s.madeAll va l).Canonical := by
  induction l generalizing s va with
  | nil => exact h
  | cons e t ih => exact ih h.madeAt
theorem State.Canonical.xMem {a : Acc} {va len eva : Nat} {f : State → List (Nat × Nat) → UnitRes} (h : s.Canonical)
    (hf : ∀ t : State, t.Canonical → ∀ a0, (f t a0).Canonical) : (s.xMem a va len eva f).Canonical := by
  unfold State.xMem
  dsimp only
  split
  exacts [.failed h.misses, hf _ h.misses _]
theorem State.Canonical.physToTile {c : Nat} {l : List (Nat × Nat)} {a : Nat} (h : s.Canonical) :
    (s.physToTile c l a).Canonical := by
  induction l generalizing s a with
  | nil => exact h
  | cons e t ih => exact ih (h.spWrite.foldl fun _ _ h => h.spPoison)
theorem State.Canonical.tileToPhys {c : Nat} {l : List (Nat × Nat)} {a : Nat} (h : s.Canonical) :
    (s.tileToPhys c l a).Canonical := by
  induction l generalizing s a with
  | nil => exact h
  | cons e t ih => exact ih h.pwrite.update
theorem State.Canonical.exchange {w : Agent} {d : Nat} (h : s.Canonical) : Chk.Canonical (s.exchange w d) := by
  unfold State.exchange
  dsimp only
  split
  · exact .error
  · exact .ok (.update (h.foldl fun _ _ h => by split; exacts [h.wake.wake.update.update.pwrite.pwrite, h]))
theorem State.Canonical.xRead {hd : HeadSt} {e a i : Nat} (h : s.Canonical) : (xRead s hd e a i).Canonical := by
  unfold Machine.xRead
  exact h.xMem fun _ h _ => .ok (h.dstWrite fun _ h _ _ => h.physToTile)
theorem State.Canonical.xWrite {hd : HeadSt} {d : Nat} {shd : Bool} {e a i : Nat} (h : s.Canonical) :
    (xWrite s hd d shd e a i).Canonical := by
  unfold Machine.xWrite
  exact h.xMem fun _ h _ => .ok h.tileToPhys.madeAll
theorem State.Canonical.burstCopy {hd : HeadSt} {n : Nat} {j : Nat} (h : s.Canonical) : (burstCopy hd n s j).Canonical := by
  unfold Machine.burstCopy
  exact h.dstWrite fun _ h _ _ => .ite h.spWrite h.spCopy
theorem State.Canonical.metaPush {q x : Nat} (h : s.Canonical) : (metaPush s q x).Canonical :=
  .ite (.stall h) (.ite .fault (.ok h.modMe))
theorem State.Canonical.hostCount {d : Nat} {f : State → Nat → UnitRes} (h : s.Canonical)
    (hf : ∀ t : State, t.Canonical → ∀ a0, (f t a0).Canonical) : (hostCount s d f).Canonical :=
  .ite .fault (h.xMem fun _ h _ => .ite (.failed h) (hf _ h _))
theorem State.Canonical.hostUnit {d : Nat} {i : Nat} (h : s.Canonical) : (hostUnit d s i).Canonical := by
  unfold Machine.hostUnit
  dsimp only
  split
  · refine .ite ?_ (.ite (.stall h.modHead) (.chk fun _ _ => h.modHead.xWrite))
    exact h.hostCount fun _ h _ => .ite (.stall h.modHead) (.chk fun _ _ => h.modHead.xWrite)
  · refine h.hostCount fun _ h _ => .ite ?_ (.ite (.stall h.modHead) (.chk fun _ _ => h.modHead.xWrite))
    exact h.hostCount fun _ h _ => .ite (.stall h.modHead) (.chk fun _ _ => h.modHead.xWrite)
theorem State.Canonical.rackUnit {a : Nat} {j : Nat} (h : s.Canonical) : (rackUnit a s j).Canonical :=
  .ite (.ok h) (.ite (.ite (.busy h) (.ok h)) (.ite (.ok h) (.ite .fault (.ite (.stall h) (.ok h.startRack)))))
theorem State.Canonical.fetchUnit {a : Nat} {j : Nat} (h : s.Canonical) : (fetchUnit a s j).Canonical := by
  refine .ite (.ok h) (.ite (.ite (.busy h) (.ok h)) ?_)
  split
  exacts [.ok h, .busy h, .ite (.stall h.fetchCask) (.ok h.fetchCask)]
theorem Plan.Canonical.xPlan {q : XKind} {c : XCmd} {hd : HeadSt} : (xPlan q c s hd).Canonical := by
  unfold Machine.xPlan
  dsimp only
  split
  · exact ⟨fun _ h _ => .chk fun _ _ => h.xRead, fun _ h => .ok h.zeroTail⟩
  · exact ⟨fun _ h _ => .chk fun _ _ => h.xWrite, fun _ h => .ok h⟩
  · exact ⟨fun _ h _ => .ok h.burstCopy, fun _ h => .ok h.zeroTail⟩
  · exact ⟨fun _ h _ => .ok h.burstCopy, fun _ h => .ok h.zeroTail⟩
  · exact ⟨fun _ h _ => .ok (h.dstWrite fun _ h _ _ => h.spWrite), fun _ h => .ok h⟩
  · exact ⟨fun _ h _ => .chk fun _ _ => h.xMem fun _ h _ => .ok h.pwrites.madeAll, fun _ h => .ok h⟩
  · exact ⟨fun _ h _ => .chk fun _ _ => h.xRead, fun _ h => .ok h.zeroTail⟩
  · exact ⟨fun _ h _ => .chk fun _ _ => h.xWrite, fun _ h => .ok h⟩
  · exact ⟨fun _ h _ => .chk fun _ _ => .ite (.stall h) (h.xMem fun _ h _ => .ite .fault h.metaPush), fun _ h => .ok h⟩
  · exact ⟨fun _ h _ => .ite (.stall h) (.ite .fault h.metaPush), fun _ h => .ok h⟩
  · exact ⟨fun _ h _ => h.rackUnit, fun _ h => .ok h⟩
  · exact ⟨fun _ h _ => h.fetchUnit, fun _ h => .ok h⟩
  · exact ⟨fun _ h _ => .ok h, fun _ h => .ok h⟩
  · exact ⟨fun _ h _ => .ok h, fun _ h => .ok h⟩
  · exact ⟨fun _ h _ => .ok h.burstCopy, fun _ h => .ok h.zeroTail.modMe⟩
  · exact ⟨fun _ h _ => h.hostUnit, fun _ h => .ok h.homeWrite⟩
theorem State.Canonical.xRun {q : XKind} {c : XCmd} (h : s.Canonical) : Out.Canonical (xRun q c s) :=
  .next (h.headWork fun _ _ => .xPlan)
theorem State.Canonical.execCpeBurstComplete {o : SlotId} (h : s.Canonical) : Out.Canonical (execCpeBurstComplete o s) := by
  unfold Machine.execCpeBurstComplete
  dsimp only
  split
  exacts [.ite (.next (h.withCur fun _ h => h.headWork fun _ _ => .xPlan)) (.next h), .next h]

/-! ### Machine/Qe -/

theorem State.Canonical.journal {f : Nat} {e : JEntry} (h : s.Canonical) : (s.journal f e).Canonical :=
  .ite h (.ite h.ringWrite.modFn.cause h.ringWrite.modFn)
theorem State.Canonical.setLrec {p i : Nat} {r : Record} (h : s.Canonical) : (s.setLrec p i r).Canonical := by
  unfold State.setLrec
  exact h.modPart.pwrite.pwrite.pwrite
theorem State.Canonical.enterReady {p i : Nat} (h : s.Canonical) : (s.enterReady p i).Canonical := by
  unfold State.enterReady
  exact h.setLrec.modPart
theorem State.Canonical.arm {p i : Nat} {by' : Option (Nat × Nat × Nat × Nat)} (h : s.Canonical) : (s.arm p i by').1.Canonical := by
  unfold State.arm
  dsimp only
  split
  iterate 3 exact h
  · split
    exacts [.pair h.setLrec, .pair (.journal (.ite h.setLrec.enterReady h.setLrec))]
theorem State.Canonical.decrement {p i tag : Nat} {pseq : Option (Nat × Nat)} (h : s.Canonical) :
    (s.decrement p i tag pseq).Canonical :=
  .ite (.ite h.setLrec.enterReady h.setLrec) h.setLrec.journal
theorem State.Canonical.stopLrec {p i : Nat} {code : Code} (h : s.Canonical) : (s.stopLrec p i code).Canonical := h.setLrec.journal
theorem State.Canonical.completeLrec {p i : Nat} (h : s.Canonical) : (s.completeLrec p i).Canonical := by
  unfold State.completeLrec
  dsimp only
  split
  · exact h.setLrec.stopLrec
  · exact .journal (.foldl (.ite (.ite h.setLrec.enterReady h.setLrec) h.setLrec) fun _ _ h => .ite h.decrement h)
theorem State.Canonical.endJob {p i : Nat} {stop : Option Code} (h : s.Canonical) : (s.endJob p i stop).Canonical :=
  .ite h.modPart.setLrec (by split; exacts [h.modPart.stopLrec, h.modPart.completeLrec])
theorem State.Canonical.execLarm {o : LarmOp} (h : s.Canonical) : Out.Canonical (execLarm o s) := by
  refine h.instr fun _ h => .chk fun _ _ => ?_
  dsimp only
  exact .done (.wrote (.setX h.arm))
theorem State.Canonical.execLqry {o : LarmOp} (h : s.Canonical) : Out.Canonical (execLqry o s) :=
  h.instr fun _ h => .chk fun _ _ => .done h.setX
theorem State.Canonical.patch {p i lo n v : Nat} (h : s.Canonical) : (s.patch p i lo n v).Canonical := by
  unfold State.patch
  exact h.pwrite
theorem State.Canonical.execLpatch {o : LpatchOp} (h : s.Canonical) : Out.Canonical (execLpatch o s) :=
  h.instr fun _ h => .chk fun _ _ => .chk fun _ _ => .done h.patch.setX.wrote
theorem State.Canonical.modQ {f n : Nat} {g : LQueue → LQueue} (h : s.Canonical) : (s.modQ f n g).Canonical := h.modFn
theorem State.Canonical.execQtailWrite {o : QueueWrite} (h : s.Canonical) : Out.Canonical (execQtailWrite o s) :=
  .ite (.next h) (.ite (.next h.modQ) (.next h.modQ))
theorem State.Canonical.execQcfgWrite {o : QueueWrite} (h : s.Canonical) : Out.Canonical (execQcfgWrite o s) :=
  .ite (.next h) (.next h.modQ)
theorem State.Canonical.packetEffect {f q p v pseq : Nat} (h : s.Canonical) : (s.packetEffect f q p v pseq).Canonical := by
  unfold State.packetEffect
  dsimp only
  split
  · exact h.arm
  · exact h.decrement
  · split
    exacts [h.patch, h]
  · exact .arm (by split; exacts [h.patch, h])
  · exact h
theorem State.Canonical.takePacket {f q : Nat} (h : s.Canonical) : (s.takePacket f q).Canonical := by
  unfold State.takePacket
  dsimp only
  split
  · exact h.modFn.modPart.journal
  · split
    exacts [h.modFn.modPart.journal, .ite h.modFn.modPart.journal h.modFn.modPart.journal.packetEffect]
theorem State.Canonical.packet {kind : Nat} {o : QueueRef} (h : s.Canonical) : Out.Canonical (packet kind o s) :=
  .ite (.next h.takePacket) (.next h)
theorem State.Canonical.peerPacket {o : PeerPacket} (h : s.Canonical) : ∀ t ∈ s.peerPacket o, t.Canonical := by
  unfold State.peerPacket
  dsimp only
  split
  · exact forall_mem_some h.journal
  · split
    · exact forall_mem_some h.journal
    · split
      · exact forall_mem_none
      · refine forall_mem_some (p := State.Canonical) (.modQ ?_)
        split
        · exact h.pwrites
        · exact h
theorem State.Canonical.execPeerPacketArrival {o : PeerPacket} (h : s.Canonical) : Out.Canonical (execPeerPacketArrival o s) :=
  .next (.getD h.peerPacket h)
theorem State.Canonical.execTimeTrigger {o : PartRec} (h : s.Canonical) : Out.Canonical (execTimeTrigger o s) :=
  .ite (.next h.modPart) (.next h)
theorem State.Canonical.settle {p g : Nat} (h : s.Canonical) : (s.settle p g).Canonical :=
  .ite (.ite h.modPart.decrement h.modPart) h
theorem State.Canonical.execSettlement {o : PartGroup} (h : s.Canonical) : Out.Canonical (execSettlement o s) := .next h.settle

/-! ### Machine/Channels -/

theorem State.Canonical.toPort {f k : Nat} {x : PortPacket} (h : s.Canonical) : ∀ t ∈ s.toPort f k x, t.Canonical := by
  unfold State.toPort
  split
  · exact forall_mem_none
  · exact forall_mem_some h.modFn
theorem State.Canonical.toPeer {f : Nat} {d : PortDest} {l : List Byte} (h : s.Canonical) :
    ∀ t ∈ s.toPeer f d l, t.Canonical := h.toPort
theorem State.Canonical.sendPeer {x : PortDest} {l : List Byte} {c len : Nat} {d : Reg} {v : Word} (h : s.Canonical) :
    (s.sendPeer x l c len d v).Canonical := by
  unfold State.sendPeer
  split
  · exact .wait h
  · next e => exact .wait (h.toPeer _ e)
theorem State.Canonical.afterSend {begin : Res} (h : s.Canonical) (hr : begin.Canonical) : (s.afterSend begin).Canonical := by
  unfold State.afterSend
  split
  exacts [.ite (.wait h) (.done h.modMe), hr]
theorem State.Canonical.execLsend {o : LsendOp} (h : s.Canonical) : Out.Canonical (execLsend o s) := by
  refine h.instr fun _ h => h.afterSend (.ite .trap ?_)
  refine .chk fun _ _ => .ite .trap (.ite h.observe.sendPeer ?_)
  split
  · exact .wait h
  · next e => exact .done (.modMe (h.observe.peerPacket _ e))
theorem State.Canonical.peerMessage {m : PeerMessage} (h : s.Canonical) : (s.peerMessage m).Canonical := .ite h h.modSlot
theorem State.Canonical.chsndEnd {d : Reg} {code left : Nat} (h : s.Canonical) : (chsndEnd s d code left).Canonical := .done h.setX
theorem State.Canonical.chsndHere {o : ChsndOp} {e : Nat} {m : List Byte} (h : s.Canonical) : (chsndHere s o e m).Canonical :=
  .ite h.chsndEnd (.ite h.chsndEnd (.ite (.wait h) h.modMe.pass.modSlot.chsndEnd))
theorem State.Canonical.chsndPeer {o : ChsndOp} {e : Nat} {m : List Byte} (h : s.Canonical) : (chsndPeer s o e m).Canonical := by
  unfold Machine.chsndPeer
  dsimp only
  split
  exacts [h.chsndEnd, h.chsndEnd, .wait h, h.sendPeer]
theorem State.Canonical.execChsnd {o : ChsndOp} (h : s.Canonical) : Out.Canonical (execChsnd o s) :=
  h.instr fun _ h => h.afterSend (.ite .trap (.chk fun _ _ => .ite .trap (.ite h.chsndHere h.chsndPeer)))
theorem State.Canonical.execChrcv {o : ChrcvOp} (h : s.Canonical) : Out.Canonical (execChrcv o s) := by
  refine h.instr fun _ h => .ite .trap (.chk fun _ _ => ?_)
  dsimp only
  split
  exacts [.done h.modMe.homeWrite.passIf.setX, .ite (.done h.setX) (.wait h)]
theorem State.Canonical.execChrcvDeadline {o : SlotId} (h : s.Canonical) : Out.Canonical (execChrcvDeadline o s) := by
  unfold Machine.execChrcvDeadline
  split
  · exact .ite (h.reissue fun i => by split; exacts [.some fun _ h => h.execChrcv, .none]) (.next h)
  · exact .next h
theorem State.Canonical.execChcapRd {o : ChcapRdOp} (h : s.Canonical) : Out.Canonical (execChcapRd o s) :=
  h.instr fun _ h => .done h.setX
theorem State.Canonical.execChcapNar {o : RRRR} (h : s.Canonical) : Out.Canonical (execChcapNar o s) :=
  h.instr fun _ h => .ite .trap (.ite .trap (.done h.modMe))
theorem State.Canonical.execChcapClr {o : ChcapClrOp} (h : s.Canonical) : Out.Canonical (execChcapClr o s) :=
  h.instr fun _ h => .done h.modMe
theorem State.Canonical.execPubh {o : PubhOp} (h : s.Canonical) : Out.Canonical (execPubh o s) := by
  unfold Machine.execPubh
  refine h.instr fun _ h => .chk fun _ _ => ?_
  exact .ite .trap (.done (.ite h.dropEarly.releaseHost.pwrite.wrote.setX.cause h.dropEarly.releaseHost.pwrite.wrote.setX))

/-! ### Machine/Summary -/

/-- A store into a sealed shadow is undone: the scratchpad is the one before it. -/
theorem State.Canonical.withStore {c a : Nat} {fill : Bool} {f : State → Nat → Chk State} (h : s.Canonical)
    (hf : ∀ t : State, t.Canonical → ∀ a, Chk.Canonical (f t a)) : (withStore s c a fill f).Canonical := by
  unfold Machine.withStore
  dsimp only
  refine .ite .trap ?_
  split
  · next e => exact .wait (h.nameTile.of_fst e)
  · next s e =>
    replace h : s.Canonical := h.nameTile.of_fst e
    refine .ite (.ite ?_ (.ite (.wait h) ?_)) ?_
    · exact .chk fun _ hu => .done (((hf _ h _).of_ok hu).modCore fun _ hc => ⟨h.core.scratch, hc.acs⟩)
    · exact .chk fun _ hu => .done ((hf _ h _).of_ok hu).modTile.wrote
    · split
      · exact .ite .trap (.chk fun _ hu => .done ((hf _ h _).of_ok hu).tileReady.wrote)
      · exact .ite (.wait h) (.chk fun _ hu => .done ((hf _ h _).of_ok hu).wrote)
      · exact .wait h
theorem State.Canonical.putRec {c addr : Nat} {r : Rec} (h : s.Canonical) : (s.putRec c addr r).Canonical := h.spWrite
theorem State.Canonical.execSkinit {o : SkinitOp} (h : s.Canonical) : Out.Canonical (execSkinit o s) :=
  h.instr fun _ h => h.withPlace fun _ _ => .ite .trap (h.withStore fun _ h _ => .ok h.putRec)
theorem State.Canonical.skmrgFrom {c a : Nat} {src : State → Chk Rec} (h : s.Canonical) : (skmrgFrom s c a src).Canonical := by
  refine h.withStore fun _ h _ => ?_
  split
  exacts [.error, .error, .error, .ite .error (.ok (h.putRec.modCore fun _ h => h.setGen))]
theorem State.Canonical.skmrg {c a sc sa : Nat} {w : WaitFor} (h : s.Canonical) : (skmrg s c a sc sa w).Canonical :=
  h.withRead fun _ h => h.skmrgFrom
theorem State.Canonical.skmrgPeer {c a : Nat} (h : s.Canonical) : (skmrgPeer s c a).Canonical := by
  unfold Machine.skmrgPeer
  split
  exacts [.trap, .wait h, .wait h, .wait h, h.skmrgFrom]
theorem State.Canonical.execSkmrg {o : SkmrgOp} (h : s.Canonical) : Out.Canonical (execSkmrg o s) :=
  h.instr fun _ h => h.withPlace fun _ _ => .ite .trap (h.withPlace fun _ _ => .ite .trap h.skmrg)
theorem State.Canonical.execSkmrgR {o : SkmrgROp} (h : s.Canonical) : Out.Canonical (execSkmrgR o s) :=
  h.instr fun _ h => h.withPlace fun _ _ => .ite h.skmrgPeer (.chk fun _ _ => h.skmrg)
theorem State.Canonical.skquery {top : BitVec 12} {f : Rec → Chk Word} {d : Reg} (h : s.Canonical) :
    (skquery s top f d).Canonical := by
  refine h.withPlace fun _ _ => h.withRead fun _ h => ?_
  dsimp only
  split
  exacts [.trap, .chk fun _ _ => .done h.setX]
theorem State.Canonical.execSkqnt {o : SkqOp} (h : s.Canonical) : Out.Canonical (execSkqnt o s) := by
  refine h.instr fun _ h => ?_
  split
  exacts [.trap, h.skquery]
theorem State.Canonical.execSkest {o : SkestOp} (h : s.Canonical) : Out.Canonical (execSkest o s) := h.instr fun _ h => h.skquery
theorem State.Canonical.execSkestX {o : SkestOp} (h : s.Canonical) : Out.Canonical (execSkestX o s) := h.instr fun _ h => h.skquery
theorem State.Canonical.sktop {o : SkqOp} {f : HSlot → Nat} (h : s.Canonical) : Out.Canonical (sktop o f s) :=
  h.instr fun _ h => h.skquery

/-! ### Machine/Coll -/

theorem State.Canonical.putColl {f : Nat} {c : Coll} (h : s.Canonical) : (s.putColl f c).Canonical := h.modFn
theorem State.Canonical.collMisses {c : Coll} {wr : Bool} {off n : Nat} (h : s.Canonical) :
    (s.collMisses c wr off n).Canonical :=
  h.misses
theorem State.Canonical.wroteFor {c k : Nat} (h : s.Canonical) : (s.wroteFor c k).Canonical := h.modSlot
theorem State.Canonical.collWrite {f : Nat} {c : Coll} {off : Nat} {l : List Byte} (h : s.Canonical) :
    Chk.Canonical (s.collWrite f c off l) := by
  unfold State.collWrite
  dsimp only
  split
  exacts [.error, .ok h.pwrites.wroteFor]
theorem State.Canonical.collRaise {k : SlotId} {rss off v : Nat} (h : s.Canonical) : (s.collRaise k rss off v).Canonical :=
  .modSlot (.wroteFor (h.modCore fun _ h => h.swrite))
theorem State.Canonical.collPass {f : Nat} {c : Coll} {rss : Nat} (h : s.Canonical) : (s.collPass f c rss).Canonical :=
  h.pass.forget
theorem State.Canonical.endColl {f : Nat} {c : Coll} {aborted : Bool} (h : s.Canonical) : (s.endColl f c aborted).Canonical :=
  .ite h.putColl.modFn.modSlot.modSlot h.putColl.modFn.modSlot.collRaise.collPass
theorem State.Canonical.sendAbort {f cid : Nat} (h : s.Canonical) : (s.sendAbort f cid).Canonical := by
  unfold State.sendAbort
  split
  · exact h
  · split
    · exact h
    · next e => exact .modFn (h.toPort _ e)
theorem State.Canonical.abortColl {f : Nat} {c : Coll} (h : s.Canonical) : (s.abortColl f c).Canonical := h.endColl.sendAbort
theorem State.Canonical.failColl {f : Nat} {c : Coll} {code : Code} (h : s.Canonical) : (s.failColl f c code).Canonical :=
  h.abortColl
theorem State.Canonical.abortColls {k : SlotId} (h : s.Canonical) : (s.abortColls k).Canonical := h.foldl fun _ _ h => h.abortColl
theorem State.Canonical.execColl {o : CollOp} (h : s.Canonical) : Out.Canonical (execColl o s) :=
  h.instr fun _ h => .chk fun _ _ => .done h.modFn.pass.modMe.setX
theorem State.Canonical.execCollAbt {o : RR} (h : s.Canonical) : Out.Canonical (execCollAbt o s) := by
  refine h.instr fun _ h => ?_
  dsimp only
  split
  exacts [.done h.setX, .done h.abortColl.setX]
theorem State.Canonical.collMissesIf {p : Prop} [Decidable p] {c : Coll} {w : Bool} {off n : Nat} (h : s.Canonical) :
    (if p then s.collMisses c w off n else s).Canonical := .ite h.collMisses h
theorem State.Canonical.collWork {o : CollPacket} {c : Coll} (h : s.Canonical) : (s.collWork o c).Canonical := by
  unfold State.collWork
  dsimp only
  split
  · exact h.collMissesIf.failColl
  · split
    · exact h.collMissesIf.collMissesIf.failColl
    · next s e =>
      replace h : s.Canonical :=
        (Chk.Canonical.ite h.collMissesIf.collMissesIf.collWrite (.ok h.collMissesIf.collMissesIf)).of_ok e
      exact .ite h.putColl (.ite h.failColl h.putColl)
theorem State.Canonical.collArrive {ops : List Nat} {o : CollPacket} (h : s.Canonical) : Out.Canonical (collArrive ops o s) := by
  unfold Machine.collArrive
  split
  exacts [.next h, .ite (.next h.collWork) (.next h)]
theorem State.Canonical.execCollAbortPacket {o : CollPacket} (h : s.Canonical) : Out.Canonical (execCollAbortPacket o s) := by
  unfold Machine.execCollAbortPacket
  dsimp only
  split
  · exact .next h.abortColl
  · split
    · exact .next h
    · exact .next (.getD_map h.modFn.toPort (fun _ h => h.modFn) h.modFn)
theorem State.Canonical.collOriginate {f : Nat} {c : Coll} (h : s.Canonical) : (s.collOriginate f c).Canonical := by
  unfold State.collOriginate
  dsimp only
  split
  · exact h.collMisses.failColl
  · split
    · exact h.collMisses
    · next e => exact .putColl (h.collMisses.toPort _ e)
theorem State.Canonical.execCollSlotSend {o : CollRef} (h : s.Canonical) : Out.Canonical (execCollSlotSend o s) := by
  refine .ite (.next h.sendAbort) ?_
  split
  · exact .next h
  · split
    · refine .ite (.next h) ?_
      split
      · exact .next h
      · next e => exact .next (.putColl (h.toPort _ e))
    · exact .ite (.next h.collOriginate) (.next h)
theorem State.Canonical.execCollMemberDone {o : CollRef} (h : s.Canonical) : Out.Canonical (execCollMemberDone o s) := by
  unfold Machine.execCollMemberDone
  split
  · exact .next h
  · refine .ite (.next h) (.ite (.next h.endColl) ?_)
    split
    · exact .next h.failColl
    · next e => exact .next (.endColl (.update (h.update.exchange.of_ok e)))
theorem State.Canonical.sentAll {f : Nat} (h : s.Canonical) : (s.sentAll f).Canonical := h.foldl fun _ _ h => h.sentDone
theorem State.Canonical.execDrrVisit {o : PortFn} (h : s.Canonical) : Out.Canonical (execDrrVisit o s) :=
  .ite (.next h) (.next h.putFn.update.sentAll)

/-! ### Machine/SparseIdx -/

theorem State.Canonical.sieUnit {x : SrcTile} {cop : Nat} {c : SCmd} {j : Nat} (h : s.Canonical) :
    (sieUnit x cop c s j).Canonical := by
  refine .chk fun _ _ => ?_
  split
  exacts [.ok h, .ite (.stall h) (.chk fun _ _ => .ok h.modMe)]
theorem Plan.Canonical.sPlan {cop : Nat} {c : SCmd} {hd : HeadSt} : (sPlan cop c s hd).Canonical :=
  ⟨fun _ h _ => h.sieUnit, fun _ h => .chk fun _ _ => .ok h⟩
theorem State.Canonical.sRun {cop : Nat} {c : SCmd} (h : s.Canonical) : Out.Canonical (sRun cop c s) :=
  .next (h.headWork fun _ _ => .sPlan)
theorem State.Canonical.execSieGranule {o : SlotId} (h : s.Canonical) : Out.Canonical (execSieGranule o s) :=
  .ite (.next (h.withCur fun _ h => h.headWork fun _ _ => .sPlan)) (.next h)

/-! ### Machine/VecOps -/

theorem State.Canonical.vmap {pr : Pred} {len : Nat} {chk : Slot → Chk Unit} {srcs : List Reg} {d : Reg}
    {f : Slot → Nat → Nat → Nat × Fl} (h : s.Canonical) : Out.Canonical (vmap pr len chk srcs d f s) :=
  h.instr fun _ h => .chk fun _ _ => .ite .trap (.done h.putMe.orFlags)
theorem State.Canonical.vcmp {pr : Pred} {chk : Slot → Chk Unit} {a b : Reg} {d : PReg} {f : Nat → Nat → Nat → Bool × Fl}
    (h : s.Canonical) : Out.Canonical (vcmp pr chk a b d f s) :=
  h.instr fun _ h => .chk fun _ _ => .ite .trap (.done h.putMe.orFlags)
theorem State.Canonical.vscal {d : Reg} {v : Nat} (h : s.Canonical) : (vscal s d v).Canonical := h.modMe

/-! ### Machine/VecMem -/

theorem State.Canonical.vload {pr : Pred} {d : Reg} {adr : Nat → Nat} {align more : Bool} {c a : Nat} {f : State → State}
    (h : s.Canonical) (hf : ∀ t : State, t.Canonical → (f t).Canonical) : (vload pr d adr align more c a f s).Canonical :=
  h.withRead fun _ h => .ite .trap (.ite .trap (.ite .trap (.done (hf _ h.putMe))))
theorem Core.Canonical.clearWhole {co : Core} {eb : Nat} {l : List Nat} (h : co.Canonical) : (co.clearWhole eb l).Canonical :=
  h.update
theorem State.Canonical.vstore {pr : Pred} {b : Reg} {adr : Nat → Nat} {align more : Bool} {c a : Nat} (h : s.Canonical) :
    (vstore pr b adr align more c a s).Canonical := by
  refine .ite (.chk fun _ _ => .done h) (h.withStore fun _ h _ => ?_)
  split
  exacts [.error, .ok (.modCore (h.foldl fun _ _ h => .ite h.spWrite h) fun _ h => h.clearWhole)]
theorem State.Canonical.vldForm {pr : Pred} {d : Reg} {a : Option Reg} {top : BitVec 12} {off : Option (BitVec 32)}
    (h : s.Canonical) : Out.Canonical (vldForm pr d a top off s) :=
  h.instr fun _ h => h.withPlace fun _ _ => h.vload fun _ h => h
theorem State.Canonical.vstForm {pr : Pred} {b : Reg} {a : Option Reg} {top : BitVec 12} {off : Option (BitVec 32)}
    (h : s.Canonical) : Out.Canonical (vstForm pr b a top off s) :=
  h.instr fun _ h => h.withPlace fun _ _ => h.vstore
theorem State.Canonical.execVgath {o : VgathOp} (h : s.Canonical) : Out.Canonical (execVgath o s) :=
  h.instr fun _ h => h.withPlace fun _ _ => h.vload fun _ h => h
theorem State.Canonical.execVgathQ {o : VgathOp} (h : s.Canonical) : Out.Canonical (execVgathQ o s) :=
  h.instr fun _ h => h.withPlace fun _ _ => .ite (.wait h) (h.vload fun _ h => h.modMe)
theorem State.Canonical.execVscat {o : VscatOp} (h : s.Canonical) : Out.Canonical (execVscat o s) :=
  h.instr fun _ h => h.withPlace fun _ _ => h.vstore
theorem State.Canonical.execVacld {o : VacOp} (h : s.Canonical) : Out.Canonical (execVacld o s) :=
  h.instr fun _ h => .chk fun _ _ => .ite .trap (.done h.putMe.orFlags)
theorem State.Canonical.execVacst {o : VacOp} (h : s.Canonical) : Out.Canonical (execVacst o s) := by
  refine h.instr fun _ h => ?_
  exact .chk fun _ _ => .ite .trap (.done (.orFlags (.wrote (h.modCore fun _ h => .update (h.foldl fun _ _ h => h.awrite)))))

/-! ### Machine/Matrix -/

theorem State.Canonical.putViewRow {c k : Nat} {v : View} {afmt r : Nat} {xs : List Nat} (h : s.Canonical) :
    (putViewRow s c k v afmt r xs).Canonical :=
  h.modCore fun _ h => h.awrite
theorem State.Canonical.zeroView {c k : Nat} {v : View} (h : s.Canonical) : (zeroView s c k v).Canonical :=
  h.foldl fun _ _ h => h.putViewRow
theorem State.Canonical.exportView {c k : Nat} {v : View} {afmt : Nat} {raw pl : Bool} {fmt rdg rm : Nat} {ovf : Bool}
    {off tc ta size : Nat} (h : s.Canonical) : (exportView s c k v afmt raw pl fmt rdg rm ovf off tc ta size).1.Canonical :=
  .pair (.ite h.spWrite (h.spWrite.foldl fun _ _ h => h.foldl fun _ _ h => .ite h.spPoison h.spPoison))
theorem State.Canonical.mmaStep {me ser : SlotId} {p v : Nat} (h : s.Canonical) : (mmaStep s me ser p v).Canonical :=
  .ite (.stall h) (.ite .fault (.ok (.modSlot (h.foldl fun _ _ h => h.putViewRow))))
theorem State.Canonical.mmaPublish {me : SlotId} {v : Nat} (h : s.Canonical) : (mmaPublish s me v).Canonical := by
  unfold Machine.mmaPublish
  dsimp only
  split
  · exact .ok h
  · refine .ite (.ok h.landSeal.modHead) (.ite (.busy h.landSeal) ?_)
    split
    · next e => exact .ok ((State.Canonical.publish (.ite h.landSeal h.landSeal.exportView.modSlot)).of_published e)
    · next e => exact .ok ((State.Canonical.publish (.ite h.landSeal h.landSeal.exportView.modSlot)).of_refused e).modHead
    · exact .fault
theorem State.Canonical.mmaLand {me : SlotId} (h : s.Canonical) : (mmaLand s me).Canonical := by
  unfold Machine.mmaLand
  split
  exacts [h.landSeal, h]
theorem State.Canonical.mmaUnit {me ser : SlotId} {i : Nat} (h : s.Canonical) : (mmaUnit me ser s i).Canonical := by
  refine .ite (.ok (.ite h.mmaLand h)) (.ite (.ok (.modHead (.ite h.mmaLand h))) ?_)
  refine .ite (.ok (.ite (.zeroView (.ite h.mmaLand h)) (.ite h.mmaLand h))) ?_
  refine .ite (State.Canonical.mmaStep (.ite h.mmaLand h)) ?_
  exact .ite (.ok (.ite h.mmaLand h)) (State.Canonical.mmaPublish (.ite h.mmaLand h))
theorem State.Canonical.disband {me : SlotId} (h : s.Canonical) : (s.disband me).Canonical :=
  .foldl (h.foldl fun _ _ h => h.modCore fun _ h => h.update) fun _ _ h => h.endTenure
theorem State.Canonical.membersUnit {ser : SlotId} {i : Nat} {l : List SlotId} (h : s.Canonical) :
    (membersUnit ser i l s).2.Canonical := by
  induction l generalizing s with
  | nil => exact .ok h
  | cons m t ih =>
    unfold Machine.membersUnit
    split
    · next e => exact ih (h.mmaUnit.of_ok e)
    · exact h.mmaUnit
theorem State.Canonical.mmaWork {whole : Bool} (h : s.Canonical) : (mmaWork whole s).Canonical := by
  unfold Machine.mmaWork
  dsimp only
  refine .ite h ?_
  replace h : ((mmaMembers s).foldl (fun s x => s.beginHead x.core x.slot .m) s).Canonical := h.foldl fun _ _ h => h.beginHead
  have hu (ser : SlotId) (t : State) (ht : t.Canonical) (i : Nat) :
      (Machine.membersUnit ser i (mmaMembers s) t).2.Canonical := ht.membersUnit
  split
  · next e => exact ((h.runUnits (hu _)).of_ok e).foldl fun _ _ h => h.modHead
  · exact ((h.runState (hu _)).foldl fun _ _ h => h.modHead).disband.headFault
  · exact ((h.runState (hu _)).foldl fun _ _ h => h.modHead).disband.headFault
  · exact ((h.runState (hu _)).foldl fun _ _ h => h.modHead).disband.modHead.endTenure
  · exact (h.runState (hu _)).foldl fun _ _ h => h.modHead
theorem State.Canonical.execMma {x : MmaCmd} (h : s.Canonical) : Out.Canonical (execMma x s) := .next h.mmaWork
theorem State.Canonical.execMmas {x : MmaCmd} (h : s.Canonical) : Out.Canonical (execMmas x s) := .next h.mmaWork
theorem State.Canonical.execMmaStepEnd {o : SlotId} (h : s.Canonical) : Out.Canonical (execMmaStepEnd o s) :=
  .ite (.next (h.withCur fun _ h => h.mmaWork)) (.next h)
theorem State.Canonical.execCoOperativeGroupForm {o : GroupArgs} (h : s.Canonical) :
    Out.Canonical (execCoOperativeGroupForm o s) := by
  unfold Machine.execCoOperativeGroupForm
  split
  · exact .next h
  · refine .ite (.next h) ?_
    exact .ite (.next (h.foldl fun _ _ h => h.modCore fun _ h => h.update)) (.next (h.foldl fun _ _ h => h.headFault))
theorem Plan.Canonical.oneUnit {f : State → UnitRes} {x : HeadSt}
    (hf : ∀ t : State, t.Canonical → (f t).Canonical) : (oneUnit f s x).Canonical :=
  ⟨fun _ h _ => hf _ h, fun _ h => .ok h⟩
theorem State.Canonical.mzeroRun {set zero : Bool} {c : MzeroCmd} (h : s.Canonical) : (mzeroRun set zero c s).Canonical :=
  .ite .fault (.ok (.ite (.modMe (.ite h.zeroView h)) (.ite h.zeroView h)))
theorem State.Canonical.execMzero {c : MzeroCmd} (h : s.Canonical) : Out.Canonical (execMzero c s) :=
  .next (h.headWork fun _ _ => .oneUnit fun _ h => h.mzeroRun)
theorem State.Canonical.execMzeroSet {c : MzeroCmd} (h : s.Canonical) : Out.Canonical (execMzeroSet c s) :=
  .next (h.headWork fun _ _ => .oneUnit fun _ h => h.mzeroRun)
theorem State.Canonical.execMzeroSetz {c : MzeroCmd} (h : s.Canonical) : Out.Canonical (execMzeroSetz c s) :=
  .next (h.headWork fun _ _ => .oneUnit fun _ h => h.mzeroRun)
theorem State.Canonical.mexpRun {c : MxfCmd} (h : s.Canonical) : (mexpRun c s).Canonical := by
  unfold Machine.mexpRun
  dsimp only
  split
  exacts [.ok h, .ite (.ok h) (.ok h.exportView.modMe)]
theorem State.Canonical.execMexp {c : MxfCmd} (h : s.Canonical) : Out.Canonical (execMexp c s) :=
  .next (h.headWork fun _ _ => .oneUnit fun _ h => h.mexpRun)
theorem State.Canonical.mimpRun {c : MxfCmd} (h : s.Canonical) : (mimpRun c s).Canonical :=
  .ite .fault (.ok (.modMe (h.foldl fun _ _ h => h.putViewRow)))
theorem State.Canonical.execMimp {c : MxfCmd} (h : s.Canonical) : Out.Canonical (execMimp c s) :=
  .next (h.headWork fun _ _ => .oneUnit fun _ h => h.mimpRun)
theorem State.Canonical.noteEnd {r : RingId} (h : s.Canonical) : (noteEnd r s).Canonical := .ite h h.modSlot.raiseCmd
theorem State.Canonical.execMnote {x : CmdHead} (h : s.Canonical) : Out.Canonical (execMnote x s) := .next h.noteEnd
theorem State.Canonical.execXnote {x : CmdHead} (h : s.Canonical) : Out.Canonical (execXnote x s) := .next h.noteEnd
theorem State.Canonical.execSnote {x : CmdHead} (h : s.Canonical) : Out.Canonical (execSnote x s) := .next h.noteEnd

/-! ### Machine/VecFp -/

theorem State.Canonical.vfp2 {pr : Pred} {fmt : BitVec 5} {d a b : Reg} {f : Nat → Nat → Nat × Fl} (h : s.Canonical) :
    Out.Canonical (vfp2 pr fmt d a b f s) :=
  h.vmap
theorem State.Canonical.vfp1 {pr : Pred} {fmt : BitVec 5} {d a : Reg} {f : Nat → Nat × Fl} (h : s.Canonical) :
    Out.Canonical (vfp1 pr fmt d a f s) :=
  h.vmap
theorem State.Canonical.vfma {minus : Bool} {o : FpRRRR} (h : s.Canonical) : Out.Canonical (vfma minus o s) := h.vmap
theorem State.Canonical.vspec {fn : Nat} {o : VspecOp} (h : s.Canonical) : Out.Canonical (vspec fn o s) := h.vfp1
theorem State.Canonical.vcvt {o : VcvtOp} {sb db : Nat} {f : Nat → Nat × Fl} (h : s.Canonical) :
    Out.Canonical (vcvt o sb db f s) :=
  h.instr fun _ h => .ite .trap (.ite .trap (.done h.putMe.orFlags))
theorem State.Canonical.execVcvtFf {o : VcvtOp} (h : s.Canonical) : Out.Canonical (execVcvtFf o s) := by
  unfold Machine.execVcvtFf
  exact h.vcvt
theorem State.Canonical.execVcvtFpToElem {o : VcvtOp} (h : s.Canonical) : Out.Canonical (execVcvtFpToElem o s) := by
  unfold Machine.execVcvtFpToElem
  exact h.vcvt
theorem State.Canonical.execVcvtElemToFp {o : VcvtOp} (h : s.Canonical) : Out.Canonical (execVcvtElemToFp o s) := by
  unfold Machine.execVcvtElemToFp
  exact h.vcvt
theorem State.Canonical.execVcvtFpToIntfmt {o : VcvtOp} (h : s.Canonical) : Out.Canonical (execVcvtFpToIntfmt o s) := by
  unfold Machine.execVcvtFpToIntfmt
  exact h.vcvt
theorem State.Canonical.execVcvtIntfmtToFp {o : VcvtOp} (h : s.Canonical) : Out.Canonical (execVcvtIntfmtToFp o s) := by
  unfold Machine.execVcvtIntfmtToFp
  exact h.vcvt
theorem State.Canonical.execVcvtElemToElem {o : VcvtOp} (h : s.Canonical) : Out.Canonical (execVcvtElemToElem o s) := by
  unfold Machine.execVcvtElemToElem
  exact h.vcvt
theorem State.Canonical.vred {pr : Pred} {chk : Slot → Chk Unit} {row : Bool} {d a : Reg} {f : Nat → List Nat → Nat × Fl}
    (h : s.Canonical) : Out.Canonical (vred pr chk row d a f s) :=
  h.instr fun _ h => .chk fun _ _ => .ite .trap (.done h.putMe.orFlags)
theorem State.Canonical.execVredxArg {o : FpRRx} (h : s.Canonical) : Out.Canonical (execVredxArg o s) :=
  h.instr fun _ h => .chk fun _ _ => .ite .trap (.done h.vscal)

/-! ### Machine/VecInt -/

theorem State.Canonical.vint {f : Nat → Nat → Nat → ℤ} {o : RRR} (h : s.Canonical) : Out.Canonical (vint f o s) := h.vmap
theorem State.Canonical.vintImm {f : Nat → Nat → Nat → ℤ} {o : RRI} (h : s.Canonical) : Out.Canonical (vintImm f o s) := h.vmap
theorem State.Canonical.vcmpF {cc : Nat} {o : FcmpOp} (h : s.Canonical) : Out.Canonical (vcmpF cc o s) := h.vcmp
theorem State.Canonical.vcmpI {f : Nat → Nat → Nat → Bool} {o : CmpR} (h : s.Canonical) : Out.Canonical (vcmpI f o s) := h.vcmp
theorem State.Canonical.execVsel {o : RRR} (h : s.Canonical) : Out.Canonical (execVsel o s) :=
  h.instrAlways fun _ h => .ite .trap (.done h.putMe)
theorem State.Canonical.execVbcstE {o : VbcstEOp} (h : s.Canonical) : Out.Canonical (execVbcstE o s) :=
  h.instr fun _ h => .ite .trap (.ite .trap (.done h.putMe))
theorem State.Canonical.putShape {v : BitVec 32} (h : s.Canonical) : (putShape s v).Canonical := .ite (.done h.modMe) .trap
theorem State.Canonical.execVshp {a : Reg} (h : s.Canonical) : Out.Canonical (execVshp a s) :=
  h.instrAlways fun _ h => .ite .trap h.putShape
theorem State.Canonical.execVshpK96 {v : BitVec 32} (h : s.Canonical) : Out.Canonical (execVshpK96 v s) :=
  h.instrAlways fun _ h => h.putShape
theorem State.Canonical.mlog {f : MWord → MWord → MWord} {o : MLog} (h : s.Canonical) : Out.Canonical (mlog f o s) :=
  h.instrAlways fun _ h => .done h.modMe
theorem State.Canonical.execVmlogNot {o : MLogN} (h : s.Canonical) : Out.Canonical (execVmlogNot o s) :=
  h.instrAlways fun _ h => .done h.modMe
theorem State.Canonical.execVmlogCnt {o : MLogV} (h : s.Canonical) : Out.Canonical (execVmlogCnt o s) :=
  h.instrAlways fun _ h => .done h.vscal
theorem State.Canonical.execVmlogFst {o : MLogV} (h : s.Canonical) : Out.Canonical (execVmlogFst o s) :=
  h.instrAlways fun _ h => .done h.vscal

/-! ### Machine/VecMisc -/

theorem State.Canonical.execVcmpr {o : RR} (h : s.Canonical) : Out.Canonical (execVcmpr o s) :=
  h.instrAlways fun _ h => .ite .trap (.done h.putMe)
theorem State.Canonical.execVexpd {o : RR} (h : s.Canonical) : Out.Canonical (execVexpd o s) :=
  h.instrAlways fun _ h => .ite .trap (.done h.putMe)
theorem State.Canonical.slide {o : VslideOp} {src : Nat → Nat → Nat → Option Nat} (h : s.Canonical) :
    Out.Canonical (slide o src s) :=
  h.instr fun _ h => .ite .trap (.done h.putMe)
theorem State.Canonical.execVtrg {o : VtrgOp} (h : s.Canonical) : Out.Canonical (execVtrg o s) :=
  h.instrAlways fun _ h => .ite .trap (.done h.putMe)
theorem State.Canonical.execVqpsh {o : VqpshOp} (h : s.Canonical) : Out.Canonical (execVqpsh o s) :=
  h.instr fun _ h => .ite .trap (.ite .trap (.ite .trap (.done h.putMe)))
theorem State.Canonical.execVqpop {o : VqpopOp} (h : s.Canonical) : Out.Canonical (execVqpop o s) :=
  h.instrAlways fun _ h => .ite .trap (.done h.putMe)
theorem State.Canonical.vrbal {clr : Bool} {o : VrbalOp} (h : s.Canonical) : Out.Canonical (vrbal clr o s) :=
  h.instrAlways fun _ h => .done h.modMe
theorem State.Canonical.vsk {pr : Pred} {a : Reg} {top : BitVec 12} {chk : Slot → Chk Unit} {kind : Nat}
    {f : Nat → List Nat → Rec → BitVec 32 → Rec × BitVec 32} (h : s.Canonical) : Out.Canonical (vsk pr a top chk kind f s) := by
  refine h.instr fun _ h => .chk fun _ _ => h.withPlace fun _ _ => .ite .trap (h.withStore fun _ h _ => ?_)
  split
  exacts [.error, .ok (h.putRec.modCore fun _ h => h.setGen)]
theorem State.Canonical.execVclipq {o : VclipqOp} (h : s.Canonical) : Out.Canonical (execVclipq o s) := by
  refine h.instr fun _ h => .chk fun _ _ => ?_
  exact .chk fun _ _ => h.withPlace fun _ _ => h.withRead fun _ h => .ite .trap (.chk fun _ _ => .done h.putMe.orFlags)

/-! ### Machine/VDispatch -/

theorem Run.Canonical.runV01 {f : Fields} : Run.Canonical (runV01 f) := by
  unfold Machine.runV01
  split
  · exact .some fun _ h => h.vint
  · exact .some fun _ h => h.vintImm
  · exact .some fun _ h => h.vintImm
  · exact .some fun _ h => h.vint
  · exact .some fun _ h => h.vintImm
  · exact .some fun _ h => h.vintImm
  · exact .some fun _ h => h.vint
  · exact .some fun _ h => h.vintImm
  · exact .some fun _ h => h.vintImm
  · exact .some fun _ h => h.vint
  · exact .some fun _ h => h.vintImm
  · exact .some fun _ h => h.vintImm
  · exact .some fun _ h => h.vint
  · exact .some fun _ h => h.vintImm
  · exact .some fun _ h => h.vintImm
  · exact .some fun _ h => h.vint
  · exact .some fun _ h => h.vintImm
  · exact .some fun _ h => h.vintImm
  · exact .some fun _ h => h.vint
  · exact .some fun _ h => h.vintImm
  · exact .some fun _ h => h.vintImm
  · exact .some fun _ h => h.vint
  · exact .some fun _ h => h.vintImm
  · exact .some fun _ h => h.vintImm
  · exact .some fun _ h => h.vint
  · exact .some fun _ h => h.vintImm
  · exact .some fun _ h => h.vintImm
  · exact .none
theorem Run.Canonical.runV02 {f : Fields} : Run.Canonical (runV02 f) := by
  unfold Machine.runV02
  split
  exacts [.some fun _ h => h.vmap, .none]
theorem Run.Canonical.runV08 {f : Fields} : Run.Canonical (runV08 f) := by
  unfold Machine.runV08
  split
  iterate 5 exact .some fun _ h => h.vcmpF
  iterate 6 exact .some fun _ h => h.vcmpI
  · exact .none
theorem Run.Canonical.runV09 {f : Fields} : Run.Canonical (runV09 f) := by
  unfold Machine.runV09
  split
  exacts [.some fun _ h => h.execVsel, .none]
theorem Run.Canonical.runV0a {f : Fields} : Run.Canonical (runV0a f) := by
  unfold Machine.runV0a
  split
  · exact .some fun _ h => h.vmap
  · exact .some fun _ h => h.vmap
  · exact .ite (.some fun _ h => h.execVbcstE) (.some fun _ h => h.vmap)
  · exact .ite (.some fun _ h => h.vmap) .none
  · exact .some fun _ h => h.vmap
  · exact .some fun _ h => h.vmap
  · exact .none
theorem Run.Canonical.runV0b {f : Fields} : Run.Canonical (runV0b f) := by
  unfold Machine.runV0b
  split
  exacts [.some fun _ h => h.execVshp, .some fun _ h => h.execVshpK96, .none]
theorem Run.Canonical.runV0c {f : Fields} : Run.Canonical (runV0c f) := by
  unfold Machine.runV0c
  split
  iterate 4 exact .some fun _ h => h.mlog
  · exact .some fun _ h => h.execVmlogNot
  · exact .some fun _ h => h.execVmlogCnt
  · exact .some fun _ h => h.execVmlogFst
  · exact .none
theorem Run.Canonical.runV20 {f : Fields} : Run.Canonical (runV20 f) := by
  unfold Machine.runV20
  split
  iterate 6 exact .some fun _ h => h.vfp2
  iterate 3 exact .some fun _ h => h.vfp1
  · exact .none
theorem Run.Canonical.runV21 {f : Fields} : Run.Canonical (runV21 f) := by
  unfold Machine.runV21
  split
  exacts [.some fun _ h => h.vfma, .some fun _ h => h.vfma, .none]
theorem Run.Canonical.runV22 {f : Fields} : Run.Canonical (runV22 f) := by
  unfold Machine.runV22
  split
  iterate 8 exact .some fun _ h => h.vspec
  · exact .none
theorem Run.Canonical.runV23 {f : Fields} : Run.Canonical (runV23 f) := by
  unfold Machine.runV23
  split
  · exact .some fun _ h => h.execVcvtFf
  · exact .some fun _ h => h.execVcvtFpToElem
  · exact .some fun _ h => h.execVcvtElemToFp
  · exact .some fun _ h => h.execVcvtFpToIntfmt
  · exact .some fun _ h => h.execVcvtIntfmtToFp
  · exact .some fun _ h => h.execVcvtElemToElem
  · exact .none
theorem Run.Canonical.runV24 {f : Fields} : Run.Canonical (runV24 f) := by
  unfold Machine.runV24
  split
  iterate 9 exact .some fun _ h => h.vred
  · exact .some fun _ h => h.execVredxArg
  · exact .none
theorem Run.Canonical.runV30 {f : Fields} : Run.Canonical (runV30 f) := by
  unfold Machine.runV30
  split
  exacts [.some fun _ h => h.execBV, .some fun _ h => h.execBV, .none]
theorem Run.Canonical.runV35 {f : Fields} : Run.Canonical (runV35 f) := by
  unfold Machine.runV35
  split
  iterate 4 exact .some fun _ h => h.execHloopV
  · exact .none
theorem Run.Canonical.runV40 {f : Fields} : Run.Canonical (runV40 f) := by
  unfold Machine.runV40
  split
  · exact .ite (.some fun _ h => h.vldForm) (.some fun _ h => h.vldForm)
  · exact .ite (.some fun _ h => h.vldForm) (.some fun _ h => h.vldForm)
  · exact .ite (.some fun _ h => h.vstForm) (.some fun _ h => h.vstForm)
  · exact .ite (.some fun _ h => h.vstForm) (.some fun _ h => h.vstForm)
  · exact .none
theorem Run.Canonical.runV41 {f : Fields} : Run.Canonical (runV41 f) := by
  unfold Machine.runV41
  split
  exacts [.ite (.some fun _ h => h.execVgathQ) (.some fun _ h => h.execVgath), .some fun _ h => h.execVscat, .none]
theorem Run.Canonical.runV42 {f : Fields} : Run.Canonical (runV42 f) := by
  unfold Machine.runV42
  split
  exacts [.some fun _ h => h.execVacld, .some fun _ h => h.execVacst, .none]
theorem Run.Canonical.runV50 {f : Fields} : Run.Canonical (runV50 f) := by
  unfold Machine.runV50
  split
  exacts [.some fun _ h => h.execVcmpr, .some fun _ h => h.execVexpd, .none]
theorem Run.Canonical.runV51 {f : Fields} : Run.Canonical (runV51 f) := by
  unfold Machine.runV51
  split
  exacts [.some fun _ h => h.slide, .some fun _ h => h.slide, .none]
theorem Run.Canonical.runV52 {f : Fields} : Run.Canonical (runV52 f) := by
  unfold Machine.runV52
  split
  exacts [.some fun _ h => h.execVtrg, .some fun _ h => h.execVtrg, .some fun _ h => h.execVtrg, .none]
theorem Run.Canonical.runV53 {f : Fields} : Run.Canonical (runV53 f) := by
  unfold Machine.runV53
  split
  · exact .some fun _ h => h.execVqpsh
  · exact .some fun _ h => h.execVqpop
  · exact .ite (.some fun _ h => h.vrbal) (.some fun _ h => h.vrbal)
  · exact .none
theorem Run.Canonical.runV55 {f : Fields} : Run.Canonical (runV55 f) := by
  unfold Machine.runV55
  split
  exacts [.some fun _ h => h.execNoteV, .none]
theorem Run.Canonical.runV60 {f : Fields} : Run.Canonical (runV60 f) := by
  unfold Machine.runV60
  split
  exacts [.some fun _ h => h.vsk, .some fun _ h => h.vsk, .some fun _ h => h.vsk, .none]
theorem Run.Canonical.runV61 {f : Fields} : Run.Canonical (runV61 f) := by
  unfold Machine.runV61
  split
  exacts [.some fun _ h => h.execVclipq, .none]
theorem Run.Canonical.runV73 {f : Fields} : Run.Canonical (runV73 f) := by
  unfold Machine.runV73
  split
  exacts [.some fun _ h => h.execTfenceV, .none]
theorem Run.Canonical.runV74 {f : Fields} : Run.Canonical (runV74 f) := by
  unfold Machine.runV74
  split
  exacts [.some fun _ h => h.execFlagsV, .none]
theorem Run.Canonical.runV75 {f : Fields} : Run.Canonical (runV75 f) := by
  unfold Machine.runV75
  split
  exacts [.some fun _ h => h.execBrk, .none]
theorem Run.Canonical.runV76 {f : Fields} : Run.Canonical (runV76 f) := by
  unfold Machine.runV76
  split
  exacts [.some fun _ h => h.execHaltV, .none]
theorem Run.Canonical.runV77 {f : Fields} : Run.Canonical (runV77 f) := by
  unfold Machine.runV77
  split
  exacts [.some fun _ h => h.execNop, .none]
theorem Run.Canonical.runV {f : Fields} : Run.Canonical (runV f) := by
  unfold Machine.runV
  split
  · exact .runV01
  · exact .runV02
  · exact .runV08
  · exact .runV09
  · exact .runV0a
  · exact .runV0b
  · exact .runV0c
  · exact .runV20
  · exact .runV21
  · exact .runV22
  · exact .runV23
  · exact .runV24
  · exact .runV30
  · exact .runV35
  · exact .runV40
  · exact .runV41
  · exact .runV42
  · exact .runV50
  · exact .runV51
  · exact .runV52
  · exact .runV53
  · exact .runV55
  · exact .runV60
  · exact .runV61
  · exact .runV73
  · exact .runV74
  · exact .runV75
  · exact .runV76
  · exact .runV77
  · exact .none
theorem State.Canonical.vIssue (h : s.Canonical) : Out.Canonical s.vIssue := by
  unfold State.vIssue
  dsimp only
  split
  · exact .next h.fetchMisses.trapEntry
  · split
    · exact .next h.fetchMisses.trapEntry
    · split
      · exact .next h.fetchMisses.trapEntry
      · exact .next h.fetchMisses.trapEntry
      · split
        · next e => exact Run.Canonical.runV.of_some e h.fetchMisses
        · exact .next h.fetchMisses.trapEntry

/-! ### Machine/Heads -/

theorem State.Canonical.namePub {r : RingId} (h : s.Canonical) : (s.namePub r).1.Canonical := by
  unfold State.namePub
  dsimp only
  split
  exacts [h.nameTile, h]
theorem State.Canonical.headTake {r : RingId} (h : s.Canonical) : (s.headTake r).Canonical := by
  unfold State.headTake
  dsimp only
  split
  · exact h.headFault
  · refine .ite (.ite h.modHead.modHead h.modHead.headFault) (.ite h.modHead.modHead ?_)
    split
    · next e =>
      refine .modHead (.of_fst ?_ e)
      split
      · next e => exact (h.modHead.namePub.of_fst e).takeOps
      · next e => exact h.modHead.namePub.of_fst e
    · next t e =>
      have ht : t.Canonical := by
        refine .of_fst ?_ e
        split
        · next e => exact (h.modHead.namePub.of_fst e).takeOps
        · next e => exact h.modHead.namePub.of_fst e
      split
      · exact ht.headFault
      · exact ht.modHead
theorem State.Canonical.headAwait {r : RingId} {run : Bool} (h : s.Canonical) : (s.headAwait r run).Canonical :=
  .ite h (.ite h.learn.modSlot.raiseCmd (.ite h.learn.modHead.noteEnd h.learn.modHead.headTake))
theorem State.Canonical.headStep {r : RingId} (h : s.Canonical) : (s.headStep r).Canonical := by
  unfold State.headStep
  dsimp only
  split
  · split
    exacts [h.headFault, .ite h.headFault (.ite h.modHead h.modHead.headAwait)]
  · exact h.headAwait
  · exact h.headAwait
  · exact .ite h.noteEnd h.headTake
  · exact .ite h.modHead h
  · exact .ite h.modHead h
  · exact h
theorem State.Canonical.execHeadDecide {o : HeadRef} (h : s.Canonical) : Out.Canonical (execHeadDecide o s) := by
  unfold Machine.execHeadDecide
  split
  exacts [h.execKernelStart, .ite (.next (h.withCur fun _ h => h.headStep)) (.next h)]
theorem State.Canonical.headEnd {r : RingId} (h : s.Canonical) : ∀ t, s.headEnd r = .ok t → t.1.Canonical := by
  unfold State.headEnd
  dsimp only
  split
  · split
    · exact forall_ok_eq_ok h
    · split
      · next e => exact forall_ok_eq_ok (h.endDst _ e)
      · exact forall_error_eq_ok
  · split
    · split
      · next e => exact forall_ok_eq_ok (h.publish.of_published e)
      · next e => exact forall_ok_eq_ok (h.publish.of_refused e)
      · exact forall_error_eq_ok
    · exact h.exchange.map_pair
    · split
      · exact h.exchange.map_pair
      · split
        · next e => exact forall_ok_eq_ok (h.endDst _ e)
        · exact forall_error_eq_ok
    · split
      · exact h.exchange.map_pair
      · split
        · next e => exact forall_ok_eq_ok (h.endDst _ e)
        · exact forall_error_eq_ok
    · split
      · next e => exact forall_ok_eq_ok (h.endDst _ e)
      · exact forall_error_eq_ok
  · split
    · next e => exact forall_ok_eq_ok (h.endDst _ e)
    · exact forall_error_eq_ok
theorem State.Canonical.leaveGroup {c k : Nat} (h : s.Canonical) : (s.leaveGroup c k).Canonical :=
  .ite (h.modCore fun _ h => h.update) h.disband
theorem State.Canonical.execCommandComplete {o : HeadRef} (h : s.Canonical) : Out.Canonical (execCommandComplete o s) := by
  refine .ite (.next h) (.next ?_)
  refine h.withCur fun _ h => ?_
  split
  · exact h.headFault
  · next e => exact .retireHead (.ite (.leaveGroup (h.headEnd _ e)) (h.headEnd _ e))
theorem State.Canonical.refillV {c k : Nat} (h : s.Canonical) : (s.refillV c k).Canonical := by
  unfold State.refillV
  split
  exacts [.ite h.modSlot h, h]
theorem State.Canonical.noteReady (h : s.Canonical) : s.noteReady.Canonical :=
  h.foldl fun _ _ h => .ite h (h.foldl fun _ _ h => h.modEng)
theorem State.Canonical.drawAmong {c : Nat} {e : Engine} {cands : List Nat} (h : s.Canonical) :
    (s.drawAmong c e cands).1.Canonical := by
  refine .pair (.modEng (.modSlot (.count ?_)))
  split
  · dsimp only
    exact h.trace.count
  · exact .pair (h.modCore fun _ h => h.setGen)
theorem State.Canonical.drawFree {c : Nat} {e : Engine} {cands : List Nat} (h : s.Canonical) :
    (s.drawFree c e cands).Canonical :=
  .ite h h.drawAmong.modEng
theorem State.Canonical.execDraw {o : EngRef} (h : s.Canonical) : Out.Canonical (execDraw o s) :=
  .ite (.next h) (.ite (.next (.ite h h.modEng)) (.next h.drawFree))
theorem State.Canonical.execQuantumExpiry {o : EngRef} (h : s.Canonical) : Out.Canonical (execQuantumExpiry o s) := by
  unfold Machine.execQuantumExpiry
  dsimp only
  split
  exacts [.next h, .ite (.next h) (.ite (.next h.modEng) (.ite (.next h.drawAmong.modEng) (.next h.drawAmong.modEng.requestStop)))]
theorem State.Canonical.yieldAt {e : Engine} (h : s.Canonical) : (s.yieldAt e).Canonical := .ite h.modEng.requestStop h
theorem State.Canonical.execYield {o : YieldOp} (h : s.Canonical) : Out.Canonical (execYield o s) :=
  h.instr fun _ h => .done (h.foldl fun _ _ h => h.yieldAt)
theorem State.Canonical.leaveEngine {r : StrmRef} (h : s.Canonical) : (s.leaveEngine r).Canonical := by
  unfold State.leaveEngine
  dsimp only
  split
  exacts [.ite h.disband h, .endTenure (.ite h.disband h)]
theorem State.Canonical.execDrainEnd {o : StrmRef} (h : s.Canonical) : Out.Canonical (execDrainEnd o s) := by
  unfold Machine.execDrainEnd
  split
  · exact .next h
  · refine .ite (.next h) (.next ?_)
    exact .leaveEngine (.modSlot (by split; exacts [.ite h.abandonWait.dropEarly h, .ite h.abandonWait.dropEarly h, h]))

/-! ### Machine/Place -/

theorem State.Canonical.openGate {p i : Nat} (h : s.Canonical) : (s.openGate p i).Canonical := by
  refine .ite h.journal.modPart.setLrec.completeLrec ?_
  split
  exacts [h.journal.modPart.stopLrec, .ite h.journal.modPart.setLrec.completeLrec h.journal.modPart.setLrec.modPart]
theorem State.Canonical.execGateOpen {p : Nat} (h : s.Canonical) : Out.Canonical (execGateOpen p s) := by
  unfold Machine.execGateOpen
  split
  exacts [.next h.openGate, .next h]
theorem State.Canonical.execChunkCut {o : PartDie} (h : s.Canonical) : Out.Canonical (execChunkCut o s) := by
  unfold Machine.execChunkCut
  split
  exacts [.next h.putPart, .next h]
theorem State.Canonical.dequeue {p j n : Nat} (h : s.Canonical) : (s.dequeue p j n).Canonical := by
  unfold State.dequeue
  exact h.modPart
theorem State.Canonical.grant {f : Nat} (h : s.Canonical) : (s.grant f).1.Canonical := by
  unfold State.grant
  dsimp only
  split
  exacts [h, .pair h.modCur]
theorem State.Canonical.seatMember {p : Nat} {x : Job} {e : TaskEntry} {slots : List SlotId} {rings : List Nat} {m : Nat}
    (h : s.Canonical) : (s.seatMember p x e slots rings m).Canonical := by
  unfold State.seatMember
  exact h.grant.modSlot
theorem State.Canonical.seatEntry {p : Nat} {e : TaskEntry} {slots : List SlotId} {rings : List Nat} (h : s.Canonical) :
    (s.seatEntry p e slots rings).Canonical := by
  unfold State.seatEntry
  split
  exacts [h, .modPart (h.foldl fun _ _ h => h.seatMember)]
theorem State.Canonical.execSeatTask {o : PartDie} (h : s.Canonical) : Out.Canonical (execSeatTask o s) := by
  unfold Machine.execSeatTask
  split
  · split
    exacts [.next h.dequeue.seatEntry, .next h]
  · exact .next h
theorem State.Canonical.purgeTiles {c k : Nat} {keep : Nat → Bool} (h : s.Canonical) : (s.purgeTiles c k keep).Canonical :=
  .modCore (h.foldl fun _ _ h => h.withdraw.dropRegs.putTile) fun _ h => h.update
theorem State.Canonical.dropPipes {inst : List Nat} (h : s.Canonical) : (s.dropPipes inst).Canonical :=
  h.foldl fun _ _ h => h.foldl fun _ _ h => .modCore (h.foldl fun _ _ h => h.withdraw.dropRegs.putTile) fun _ h => h.update
theorem State.Canonical.placePipe {inst : List Nat} {ps : List Pipe} {slots : List SlotId} {n : Nat} (h : s.Canonical) :
    (s.placePipe inst ps slots n).1.Canonical := by
  unfold State.placePipe
  dsimp only
  split
  · exact h
  · split
    · next e => exact h.allocTiles.of_fst e
    · next e => exact .pair (.modCore (.modCask (.foldl (h.allocTiles.of_fst e) fun _ _ h => h.putTile)) fun _ h => h.putRing)
theorem State.Canonical.placePipes {inst : List Nat} {ps : List Pipe} {n : Nat} {hd : GangHold} (h : s.Canonical) :
    (s.placePipes inst ps n hd).1.Canonical := by
  induction n generalizing s hd with
  | zero => exact h
  | succ n ih =>
    unfold State.placePipes
    dsimp only
    split
    · exact h
    · split
      · exact ih h.placePipe
      · exact h.placePipe
theorem State.Canonical.tryGang {p : Nat} {hd : GangHold} (h : s.Canonical) : (s.tryGang p hd).Canonical := by
  unfold State.tryGang
  dsimp only
  exact .ite (.seatEntry (.modPart h.placePipes)) (.modPart h.placePipes)
theorem State.Canonical.execGangSeat {o : PartDie} (h : s.Canonical) : Out.Canonical (execGangSeat o s) := by
  unfold Machine.execGangSeat
  split
  · exact .next h.tryGang
  · split
    · split
      exacts [.next h, .next (.tryGang (h.dequeue.foldl fun _ _ h => h.purgeTiles))]
    · exact .next h
theorem State.Canonical.execBalanceExchange {p : Nat} (h : s.Canonical) : Out.Canonical (execBalanceExchange p s) :=
  .ite (.next h.modPart) (.next h)
theorem State.Canonical.execBalanceArrival {o : PartDie} (h : s.Canonical) : Out.Canonical (execBalanceArrival o s) :=
  .next h.modPart

/-! ### Machine/Sync -/

theorem State.Canonical.takeObj {p o : Nat} {w : SlotId} {sc : Nat} (h : s.Canonical) : (s.takeObj p o w sc).1.Canonical := by
  unfold State.takeObj
  exact .pair h.passIf.modPart
theorem State.Canonical.grantObj {p o : Nat} (h : s.Canonical) : (s.grantObj p o).Canonical := by
  unfold State.grantObj
  dsimp only
  split
  · split
    exacts [.ite h.takeObj.modPart (h.takeObj.completed fun _ h => h.setX.advance), h]
  · exact h
theorem State.Canonical.releaseObj {p o sc : Nat} (h : s.Canonical) : (s.releaseObj p o sc).Canonical :=
  .grantObj (.modPart (by split; exacts [h.forgetIf.pass, h]))
theorem State.Canonical.breakObjs {c k : Nat} (h : s.Canonical) : (s.breakObjs c k).Canonical :=
  h.foldl fun _ _ h => h.modPart.grantObj
theorem State.Canonical.releaseObjs {c k : Nat} (h : s.Canonical) : (s.releaseObjs c k).Canonical :=
  h.freeWrites.foldl fun _ _ h => h.releaseObj
theorem State.Canonical.acquire {tryOnly : Bool} {o : AcqOp} (h : s.Canonical) : Out.Canonical (acquire tryOnly o s) := by
  refine h.instr fun _ h => .chk fun _ _ => ?_
  dsimp only
  split
  · exact .ite (by split; exacts [.done h.modPart.setX, .done h.setX]) (.ite (.done h.setX) (.wait h.modPart))
  · exact .done h.takeObj.setX
theorem State.Canonical.execRel {o : AcqOp} (h : s.Canonical) : Out.Canonical (execRel o s) :=
  h.instr fun _ h => .chk fun _ _ => .ite (.done h.setX) (.done h.setX.freeWrites.releaseObj)
theorem State.Canonical.barEnd {b : Nat} {d : Reg} {sc : Scope} {ph : Nat} (h : s.Canonical) : (barEnd s b d sc ph).Canonical :=
  h.passIf.modMe.setX.trace
theorem State.Canonical.execBar {o : BarOp} (h : s.Canonical) : Out.Canonical (execBar o s) := by
  refine h.instr fun _ h => ?_
  dsimp only
  split
  · exact .ite (.done h.barEnd) (.wait h)
  · exact .ite .trap (.ite .trap (.ite (.done h.trace.pass.modPart.barEnd) (.wait h.trace.pass.modPart.modMe)))
theorem State.Canonical.withdrawBar {c k : Nat} (h : s.Canonical) : (s.withdrawBar c k).Canonical := by
  unfold State.withdrawBar
  dsimp only
  refine .modSlot ?_
  split
  · split
    exacts [h, h.modPart]
  · refine .modPart ?_
    split
    exacts [h, h.modPart]

/-! ### Machine/Tasks -/

theorem State.Canonical.failLaunch {c k : Nat} {code : Code} {st : Nat} {epc eva : Word} (h : s.Canonical) :
    (s.failLaunch c k code st epc eva).Canonical :=
  h.modSlot.stopTask
theorem State.Canonical.startImage {c k : Nat} (h : s.Canonical) : (s.startImage c k).Canonical := by
  unfold State.startImage
  dsimp only
  split
  · exact h.failLaunch
  · refine .ite h.failLaunch ?_
    split
    iterate 3 exact h.failLaunch
    · split
      exacts [h.putSlot, h.failLaunch]
theorem State.Canonical.traceStart {c k : Nat} (h : s.Canonical) : (s.traceStart c k).Canonical := h.trace
theorem State.Canonical.launchOne {c k : Nat} (h : s.Canonical) : (s.launchOne c k).Canonical := by
  unfold State.launchOne
  dsimp only
  split
  · exact .failLaunch (.traceStart (.modSlot (.modSlot (h.forgetSlot.purgeTiles.modCore fun _ h => h.update))))
  · exact .startImage (.modSlot (.traceStart (.modSlot (.modSlot (h.forgetSlot.purgeTiles.modCore fun _ h => h.update)))))
theorem State.Canonical.execTaskLaunch {o : SlotId} (h : s.Canonical) : Out.Canonical (execTaskLaunch o s) :=
  .ite (.next h) (.next (h.foldl fun _ _ h => h.launchOne))
theorem State.Canonical.abandonSlot {c k : Nat} (h : s.Canonical) : (s.abandonSlot c k).Canonical := by
  unfold State.abandonSlot
  exact .modSlot (.dropReads (.abandonWait (.abandonWait (h.foldl fun _ _ h => h.abandonHead))))
theorem State.Canonical.leaveEngines {c k : Nat} (h : s.Canonical) : (s.leaveEngines c k).Canonical :=
  h.foldl fun _ _ h => h.leaveEngine
theorem State.Canonical.dropFills {c k : Nat} (h : s.Canonical) : (s.dropFills c k).Canonical := h.modCore fun _ h => h.update
theorem State.Canonical.resetPipes {c k : Nat} (h : s.Canonical) : (s.resetPipes c k).Canonical :=
  h.foldl fun _ _ h => .modCore (h.foldl fun _ _ h => h.modTile.dropRegs) fun _ h => h.putRing
theorem State.Canonical.refireOne {c k : Nat} (h : s.Canonical) : (s.refireOne c k).Canonical := by
  unfold State.refireOne
  refine .ite (.requestAll ?_) ?_
  all_goals
    refine .startImage (.count (.traceStart (.modSlot (.modSlot ?_))))
    exact h.abortColls.abandonSlot.leaveEngines.dropFills.forgetRuns.withdrawBar.breakObjs.resetPipes
theorem State.Canonical.execRefireRestart {o : SlotId} (h : s.Canonical) : Out.Canonical (execRefireRestart o s) :=
  .ite (.next h) (.next (h.foldl fun _ _ h => h.refireOne))
theorem State.Canonical.endInst {t : Task} (h : s.Canonical) : (s.endInst t).Canonical := .ite h h.dropPipes
theorem State.Canonical.freeTaskSlot {c k : Nat} (h : s.Canonical) : (s.freeTaskSlot c k).Canonical :=
  .endInst (.modSlot (h.withdraw.foldl fun _ _ h => h.withdraw.modTile))
theorem State.Canonical.leaveJob {p i : Nat} {code : Option Code} (h : s.Canonical) : (s.leaveJob p i code).Canonical := by
  unfold State.leaveJob
  split
  exacts [h, .ite h.modPart.endJob h.modPart]
theorem State.Canonical.traceEnd {c k code : Nat} (h : s.Canonical) : (s.traceEnd c k code).Canonical := h.trace
theorem State.Canonical.landSeals (h : s.Canonical) : s.landSeals.Canonical := h.foldl fun _ _ h => h.foldl fun _ _ h => h.landNow
theorem State.Canonical.execTaskRetire {o : SlotId} (h : s.Canonical) : Out.Canonical (execTaskRetire o s) :=
  .ite (.next h) (.next h.landSeals.releaseObjs.releaseTastes.traceEnd.leaveEngines.freeTaskSlot.leaveJob)
theorem State.Canonical.reportStop {c k : Nat} {code : Code} (h : s.Canonical) : (s.reportStop c k code).Canonical :=
  .journal (.ite h.ringWrite h)
theorem State.Canonical.execTaskStop {o : SlotId} (h : s.Canonical) : Out.Canonical (execTaskStop o s) := by
  unfold Machine.execTaskStop
  dsimp only
  split
  · exact .next h
  · refine .ite (.next h) ?_
    exact .next h.reportStop.abortColls.abandonSlot.leaveEngines.traceEnd.withdrawBar.breakObjs.releaseTastes.freeTaskSlot.leaveJob

/-! ### Machine/Context -/

theorem State.Canonical.writeImage {f va c k : Nat} (h : s.Canonical) : (s.writeImage f va c k).Canonical := by
  refine .foldl (h.foldl fun _ p h => ?_) fun _ _ h => ?_
  · cases p
    dsimp only
    split
    exacts [h.pwrites, h]
  · split
    exacts [.ite h h.update, h]
/-- The image of a slot holds its home region and its accumulators. -/
theorem State.Canonical.restoreImage {f va c k : Nat} (h : s.Canonical) : (s.restoreImage f va c k).Canonical := by
  unfold State.restoreImage
  dsimp only
  split
  · exact h.stopTask
  · exact .ite h.stopTask (h.putSlot.modCore fun _ h => ⟨Mem.wf_write _ _ _ h.scratch, Mem.wf_write _ _ _ h.acs⟩)

/-! ### Machine/Switch -/

theorem State.Canonical.heldRefires {m : SlotId} (h : s.Canonical) : (s.heldRefires m).Canonical := .ite h.modSlot.requestRefire h
theorem State.Canonical.resumeSlot {m : SlotId} (h : s.Canonical) : (s.resumeSlot m).Canonical :=
  .ite h (by split; exacts [h.modSlot, h.modSlot, h.modSlot, h.modSlot])
theorem State.Canonical.switchOut {f : Nat} (h : s.Canonical) : (s.switchOut f).Canonical :=
  .ite h (h.modFn.foldl fun _ _ h => .ite h.requestAll h.modSlot)
theorem State.Canonical.execSwitchOut {f : Nat} (h : s.Canonical) : Out.Canonical (execSwitchOut f s) := .next h.switchOut
theorem State.Canonical.slotOut {f : Nat} {m : SlotId} (h : s.Canonical) : (s.slotOut f m).Canonical := by
  unfold State.slotOut
  exact .modSlot (.ite h.writeImage h)
theorem State.Canonical.execSwitchOutComplete {f : Nat} (h : s.Canonical) : Out.Canonical (execSwitchOutComplete f s) :=
  .ite (.next h) (.next (.modFn (h.foldl fun _ _ h => h.slotOut)))
theorem State.Canonical.slotIn {f : Nat} {m : SlotId} (h : s.Canonical) : (s.slotIn f m).Canonical := by
  unfold State.slotIn
  exact .modSlot (.ite h.restoreImage h)
theorem State.Canonical.slotRaises {m : SlotId} (h : s.Canonical) : (s.slotRaises m).Canonical :=
  h.modSlot.foldl fun _ _ h => h.collRaise
theorem State.Canonical.endSwitchIn {f : Nat} (h : s.Canonical) : (s.endSwitchIn f).Canonical :=
  .foldl (.foldl (.modFn (h.foldl fun _ _ h => h.slotRaises)) fun _ _ h => h.heldRefires) fun _ _ h => h.resumeSlot
theorem State.Canonical.switchIn {f : Nat} (h : s.Canonical) : (s.switchIn f).Canonical :=
  .ite h (.ite h.endSwitchIn (h.modFn.foldl fun _ _ h => h.slotIn))
theorem State.Canonical.execSwitchIn {f : Nat} (h : s.Canonical) : Out.Canonical (execSwitchIn f s) := .next h.switchIn
theorem State.Canonical.execTlbinvWrite {o : BarWrite} (h : s.Canonical) : Out.Canonical (execTlbinvWrite o s) :=
  .ite (.next h) (.next h.modFn)
theorem State.Canonical.execTlbInvalidationComplete {f : Nat} (h : s.Canonical) :
    Out.Canonical (execTlbInvalidationComplete f s) :=
  .ite (.next h) (.next h.update.modFn)

/-! ### Machine/Debug -/

theorem State.Canonical.sample {m : SlotId} {n : Nat} (h : s.Canonical) : (s.sample m n).Canonical := by
  unfold State.sample
  dsimp only
  split
  iterate 3 exact h.modSlot
  · split
    exacts [h.modSlot, h.modSlot]
theorem State.Canonical.execDbgHalt {f : Nat} (h : s.Canonical) : Out.Canonical (execDbgHalt f s) :=
  .ite (.next h) (.next h.haltSlot)
theorem State.Canonical.execDbgHalted {o : SlotId} (h : s.Canonical) : Out.Canonical (execDbgHalted o s) :=
  .ite (.next h) (.next h.sample.modSlot)
theorem State.Canonical.execDbgResume {f : Nat} (h : s.Canonical) : Out.Canonical (execDbgResume f s) :=
  .ite (.next h) (.ite (.next h.modSlot) (.next h.modSlot.heldRefires.resumeSlot))
theorem State.Canonical.execDbgStep {f : Nat} (h : s.Canonical) : Out.Canonical (execDbgStep f s) :=
  .ite (.next h) (.next h.modSlot)
theorem State.Canonical.execDbgStepEnd {o : SlotId} (h : s.Canonical) : Out.Canonical (execDbgStepEnd o s) :=
  .ite (.next h) (.next h.modSlot)
theorem State.Canonical.execDbgDump {f : Nat} (h : s.Canonical) : Out.Canonical (execDbgDump f s) :=
  .ite (.next h) (.next h.writeImage.modFn)
theorem State.Canonical.execDbgSample {f : Nat} (h : s.Canonical) : Out.Canonical (execDbgSample f s) :=
  .ite (.next h) (.next h.sample.modFn)
theorem State.Canonical.setTrClaim {f : Nat} {b : Bool} (h : s.Canonical) : (s.setTrClaim f b).Canonical := h.modFn
theorem State.Canonical.trRelease {p : Nat} (h : s.Canonical) : (s.trRelease p).Canonical := by
  unfold State.trRelease
  split
  · exact h.setTrClaim.modPart
  · split
    exacts [h.setTrClaim, h]
theorem State.Canonical.trLeave {f : Nat} (h : s.Canonical) : (s.trLeave f).Canonical := by
  unfold State.trLeave
  split
  exacts [h, .ite h.modFn.modPart.trRelease h.modFn.modPart]
theorem State.Canonical.trTake {f : Nat} (h : s.Canonical) : (s.trTake f).Canonical := by
  unfold State.trTake
  split
  · exact h
  · split
    exacts [h.setTrClaim, .ite h.setTrClaim.setTrClaim.modPart h]
theorem State.Canonical.execTraceClaim {o : BarWrite} (h : s.Canonical) : Out.Canonical (execTraceClaim o s) :=
  .ite (.next h) (.next (.ite (.modFn (.ite h h.trLeave)) (.trTake (.modFn (.ite h h.trLeave)))))
theorem Core.Canonical.putBank {co : Core} {b : Nat} {x : CounterBank} (h : co.Canonical) : (co.putBank b x).Canonical := h.update
theorem State.Canonical.modBank {c b : Nat} {g : CounterBank → CounterBank} (h : s.Canonical) : (s.modBank c b g).Canonical :=
  h.modCore fun _ h => h.putBank
theorem State.Canonical.execCntClaim {o : BarWrite} (h : s.Canonical) : Out.Canonical (execCntClaim o s) :=
  .ite (.next h) (.next h.modBank)
theorem State.Canonical.cntOff {f : Nat} {v : Word} (h : s.Canonical) : (s.cntOff f v).Canonical := .ite h h.modBank
theorem State.Canonical.execCntRelease {f : Nat} (h : s.Canonical) : Out.Canonical (execCntRelease f s) :=
  .ite (.next h) (.next h.cntOff)
theorem State.Canonical.execCntClear {f : Nat} (h : s.Canonical) : Out.Canonical (execCntClear f s) :=
  .ite (.next h) (.next h.modBank)
theorem State.Canonical.bankWait {c r b : Nat} (h : s.Canonical) : (s.bankWait c r b).Canonical :=
  .ite h (h.modCore fun _ h => h.update)
theorem State.Canonical.leaveUnits {f : Nat} (h : s.Canonical) : (s.leaveUnits f).Canonical :=
  h.trLeave.mapCores rfl rfl fun _ h => h.update
theorem State.Canonical.execFunctionReset {f : Nat} (h : s.Canonical) : Out.Canonical (execFunctionReset f s) :=
  .ite (.next h) (.ite (.next h.leaveUnits.modFn.eventAll) (.next (h.modFn.foldl fun _ _ h => h.modSlot.stopTask)))

/-! ### Machine/HostRegs -/

theorem State.Canonical.modMgmt {f : Mgmt → Mgmt} (h : s.Canonical) : (s.modMgmt f).Canonical := h.update
theorem State.Canonical.blockWrite {f off : Nat} {v : Word} (h : s.Canonical) : (s.blockWrite f off v).Canonical := by
  refine .ite (.ite h.modQ h) (.ite h.modFn ?_)
  split
  exacts [h.modFn, h.modFn, h.modFn, h.modFn, h.modFn, .ite h.modFn.modSlot h.modFn, h.modFn, h.modFn, h.modFn, .ite h h.cntOff, h]
theorem State.Canonical.latchShared (h : s.Canonical) : s.latchShared.Canonical := h.mapCores rfl rfl fun _ h => h.update
theorem State.Canonical.recordWrite {p f o : Nat} {v : Word} (h : s.Canonical) : (s.recordWrite p f o v).Canonical :=
  .ite (.ite h.modFn (by split; exacts [h.modFn.switchOut, h.modFn.switchIn, h.modFn])) h.modPart
theorem State.Canonical.remask {p : Nat} {m : BitVec 192} (h : s.Canonical) : (s.remask p m).Canonical := by
  refine h.foldl fun _ _ h => ?_
  split
  exacts [h.modFn, h.modPart.modFn, h]
theorem State.Canonical.pcfgWrite {p o : Nat} {v : Word} (h : s.Canonical) : (s.pcfgWrite p o v).Canonical := by
  refine .ite h.recordWrite (.ite h.modPart ?_)
  refine .ite h.modPart ?_
  split
  exacts [h.latchShared.modPart.latchShared, h.modPart, h.modPart, h.modPart, h.modPart, h]
theorem State.Canonical.execRegisterWrite {o : BarWrite} (h : s.Canonical) : Out.Canonical (execRegisterWrite o s) := by
  refine .ite (.next (.ite h.modMgmt h)) (.ite (.next h) ?_)
  exact .ite (.next h.blockWrite) (.ite (.next h.modFn) (.ite (.next h) (by split; exacts [.next h.pcfgWrite, .next h])))
theorem State.Canonical.execPcfgMaskWrite {o : BarWrite} (h : s.Canonical) : Out.Canonical (execPcfgMaskWrite o s) := by
  refine .ite (.next h) ?_
  split
  · exact .next h
  · split
    exacts [.next h, .ite (.next h.remask.modPart) (.next h.modPart)]
theorem State.Canonical.execPoolbaseWrite {o : BarWrite} (h : s.Canonical) : Out.Canonical (execPoolbaseWrite o s) :=
  .ite (.next h) (by split; exacts [.ite (.next h.modPart) (.next h.modPart.pwrite), .next h])
theorem State.Canonical.execInterruptCoalesceTimeout {o : QueueRef} (h : s.Canonical) :
    Out.Canonical (execInterruptCoalesceTimeout o s) :=
  .ite (.next h) (.next h.modFn)
theorem State.Canonical.execMsixUnmask {o : QueueRef} (h : s.Canonical) : Out.Canonical (execMsixUnmask o s) :=
  .ite (.next h) (.next h.modFn)
theorem State.Canonical.execHostWindowRead {o : WinRead} (h : s.Canonical) : Out.Canonical (execHostWindowRead o s) :=
  .ite (.next h.modFn) (by split; exacts [.next h.modFn, .ite (.next h.modFn) (.next h.modFn)])
theorem State.Canonical.execHostWindowWrite {o : WinWrite} (h : s.Canonical) : Out.Canonical (execHostWindowWrite o s) :=
  .ite (.next h) (by split; exacts [.next h.event, .next h.pwrites])
theorem State.Canonical.execAtsInvalidation {f : Nat} (h : s.Canonical) : Out.Canonical (execAtsInvalidation f s) := .next h.update

/-! ### Machine/MemInstr -/

theorem State.Canonical.readAt {aq : Bool} {sc : Scope} {pa n : Nat} (h : s.Canonical) : (s.readAt aq sc pa n).Canonical :=
  h.foldl fun _ _ h => .ite (.pass (.ite h.pass h)) (.ite h.pass h)
theorem State.Canonical.releaseAt {w : Agent} {sc pa n : Nat} (h : s.Canonical) : (s.releaseAt w sc pa n).Canonical :=
  .ite h h.update.pass
theorem State.Canonical.setApart {rl : Bool} (h : s.Canonical) : (s.setApart rl).Canonical := .ite h.pass h
theorem State.Canonical.writeAt {rl atomic : Bool} {sc : Scope} {pa n : Nat} (h : s.Canonical) :
    (s.writeAt rl atomic sc pa n).Canonical :=
  .foldl (.ite (.forget (.releaseAt (.ite h.update h))) (.ite h.update h)) fun _ _ h => h.releaseAt
theorem State.Canonical.ld {n : Nat} {unsigned : Bool} {o : LdOp} (h : s.Canonical) : Out.Canonical (ld n unsigned o s) := by
  refine h.instr fun s h => .chk fun r e => ?_
  have hr : r.2.Canonical := State.Canonical.load (.ite h.dropEarly h) r e
  exact .done (.setX (.ite hr hr.readAt))
theorem State.Canonical.st {n : Nat} {o : StOp} (h : s.Canonical) : Out.Canonical (st n o s) :=
  h.instr fun _ h => .chk fun _ hc => .done (.writeAt (h.setApart.store.of_ok hc))
theorem State.Canonical.ldx {n : Nat} {o : LdxOp} (h : s.Canonical) : Out.Canonical (ldx n o s) :=
  h.instr fun _ h => .chk fun _ _ => .ite .trap (.done h.setX)
theorem State.Canonical.stx {n : Nat} {o : StxOp} (h : s.Canonical) : Out.Canonical (stx n o s) :=
  h.instr fun _ h => .chk fun _ _ => .done h.homeWrite
theorem State.Canonical.atomic {d : Reg} {va : Word} {ord : BitVec 2} {sc : Scope} {dbl : Bool} {f : Nat → Option Nat}
    (h : s.Canonical) : (atomic d va ord sc dbl f s).Canonical := by
  refine .chk fun _ _ => .ite .trap (.ite .trap ?_)
  refine .ite .trap (.done ?_)
  refine .setX ?_
  split
  exacts [h.setApart.observe.readAt.pwrite.madeAt.wrote.writeAt, h.setApart.observe.readAt.forget]
theorem State.Canonical.amo {f : Nat → Nat → Nat → Nat} {o : AmoOp} (h : s.Canonical) : Out.Canonical (amo f o s) :=
  h.instr fun _ h => h.atomic
theorem State.Canonical.execCas {o : CasOp} (h : s.Canonical) : Out.Canonical (execCas o s) := h.instr fun _ h => h.atomic
theorem State.Canonical.fence {aq rl : Bool} {sc : Scope} (h : s.Canonical) : (s.fence aq rl sc).Canonical :=
  .ite (.pass (.ite h.passIf h)) (.ite h.passIf h)
theorem State.Canonical.execFenceAq {o : FenceOp} (h : s.Canonical) : Out.Canonical (execFenceAq o s) :=
  h.instr fun _ h => .done h.fence
theorem State.Canonical.execFenceRl {o : FenceOp} (h : s.Canonical) : Out.Canonical (execFenceRl o s) :=
  h.instr fun _ h => .done h.fence
theorem State.Canonical.execFenceAr {o : FenceOp} (h : s.Canonical) : Out.Canonical (execFenceAr o s) :=
  h.instr fun _ h => .done h.fence
theorem State.Canonical.execFenceSc {o : FenceOp} (h : s.Canonical) : Out.Canonical (execFenceSc o s) :=
  h.instr fun _ h => .done h.fence
theorem State.Canonical.execMon {o : MonOp} (h : s.Canonical) : Out.Canonical (execMon o s) :=
  h.instr fun _ h => .chk fun _ _ => .ite .trap (.done h.modMe)
theorem State.Canonical.mwaitEnd {d : Reg} {code : Nat} (h : s.Canonical) : (mwaitEnd s d code).Canonical := h.dropEarly.modMe
theorem State.Canonical.execMwait {o : RR} (h : s.Canonical) : Out.Canonical (execMwait o s) := by
  refine h.instr fun _ h => ?_
  split
  exacts [.done h.mwaitEnd, .wait h]
theorem State.Canonical.execMwaitWake {o : MwaitWakeArgs} (h : s.Canonical) : Out.Canonical (execMwaitWake o s) := by
  refine .ite (.next h) ?_
  split
  · dsimp only
    split
    exacts [.next (h.completed fun _ h => h.mwaitEnd.advance), .next h]
  · exact .next h

/-! ### Machine/Mgmt -/

theorem State.Canonical.eventParts {sel : Nat → Bool} {kind core : Nat} (h : s.Canonical) :
    (s.eventParts sel kind core).Canonical :=
  h.foldl fun _ _ h => h.foldl fun _ _ h => h.event
theorem Core.canonical_zeroed {co : Core} : co.zeroed.Canonical := ⟨rfl, rfl⟩
theorem State.Canonical.blocksReset (h : s.Canonical) : s.blocksReset.Canonical := h.mapCores rfl rfl fun _ h => h.update
theorem State.Canonical.zeroCores (h : s.Canonical) :
    State.Canonical { s with cores := s.cores.map fun (c, co) => (c, co.zeroed) } :=
  h.mapCores rfl rfl fun _ _ => Core.canonical_zeroed
/-- Device memory is dropped when it is scrubbed. -/
theorem State.Canonical.scrub (h : s.Canonical) :
    State.Canonical { s with mem := if s.mgmt.scrub then s.mem.filter (fun (a, _) => isHost a) else s.mem, memPoison := [] } := by
  refine ⟨?_, h.cores⟩
  dsimp only
  split
  · exact Sparse.wfFrom_filter _ h.mem
  · exact h.mem
theorem State.Canonical.upTo {n timeNs : Nat} (h : s.Canonical) : (s.upTo n timeNs).Canonical := by
  have hz := State.Canonical.ite (c := 3 < n) h.zeroCores h
  have hm := State.Canonical.ite (c := 4 < n) hz.scrub hz
  exact .ite hm.blocksReset.update hm
theorem State.Canonical.execBringUp {o : BringUpArgs} (h : s.Canonical) : Out.Canonical (execBringUp o s) := by
  refine .ite (.next h) ?_
  exact .ite (.next (.modMgmt (h.upTo.foldl fun _ _ h => h.modFn))) (.next (h.upTo.modMgmt.foldl fun _ _ h => h.modFn.event))
/-- Device memory takes whatever values a reset leaves there, without its zeros. -/
theorem State.Canonical.moduleReset (h : s.Canonical) : s.moduleReset.Canonical := by
  unfold State.moduleReset
  refine ⟨Mem.wfFrom_map_filter (fun e => ?_) h.mem, fun _ he => nomatch he⟩
  unfold State.afterReset
  split
  split <;> rfl
theorem Core.Canonical.freeze {co : Core} {now : Nat} (h : co.Canonical) : (co.freeze now).Canonical := h.update
theorem State.Canonical.execEccCorrectable {o : EccArgs} (h : s.Canonical) : Out.Canonical (execEccCorrectable o s) :=
  .ite (.next h) (.next (h.modCore fun _ h => h.freeze.update))
theorem State.Canonical.execFreezeEnd {c : Nat} (h : s.Canonical) : Out.Canonical (execFreezeEnd c s) :=
  .ite (.next (h.modCore fun _ h => h.update)) (.next h)
theorem State.Canonical.spoil {o : EccArgs} (h : s.Canonical) : (s.spoil o).Canonical := by
  unfold State.spoil
  split
  exacts [h.modCore fun _ h => h.update, h.modCore fun _ h => h.update, h.modSlot, h.foldl fun _ _ h => h.stopTask]
theorem State.Canonical.execEccUncorrectable {o : EccArgs} (h : s.Canonical) : Out.Canonical (execEccUncorrectable o s) := by
  refine .ite (.next h) (.ite (.ite (.next h) (.next h.update.eventParts)) ?_)
  exact .ite (.next h) (.next (.eventParts (h.spoil.modCore fun _ h => h.update)))
theorem State.Canonical.execRecoveryErase (h : s.Canonical) : Out.Canonical (execRecoveryErase s) :=
  .ite (.next h) (.next h.modMgmt)
theorem State.Canonical.execRecoveryWriteChunk {o : ChunkWrite} (h : s.Canonical) : Out.Canonical (execRecoveryWriteChunk o s) :=
  .ite (.next h) (.next h.modMgmt)
theorem State.Canonical.execRecoveryCommit {x : Bool} (h : s.Canonical) : Out.Canonical (execRecoveryCommit x s) :=
  .ite (.next h) (.next h.modMgmt)
theorem State.Canonical.execRecoveryCommandDone (h : s.Canonical) : Out.Canonical (execRecoveryCommandDone s) :=
  .ite (.next h) (.next h.modMgmt)
theorem State.Canonical.setThrottle {n : Nat} (h : s.Canonical) : (s.setThrottle n).Canonical := .ite h h.modMgmt.eventParts
theorem State.Canonical.execThrottleTick {o : Sensors} (h : s.Canonical) : Out.Canonical (execThrottleTick o s) :=
  .ite (.next h) (.next h.modMgmt.setThrottle)
theorem State.Canonical.execThrottleShutdown (h : s.Canonical) : Out.Canonical (execThrottleShutdown s) := by
  unfold Machine.execThrottleShutdown
  split
  exacts [.next h, .ite (.next h) (.next (h.modMgmt.foldl fun _ _ h => h.foldl fun _ _ h => h.stopTask))]
theorem State.Canonical.execMgcSetPowerLimit {n : Nat} (h : s.Canonical) : Out.Canonical (execMgcSetPowerLimit n s) :=
  .ite (.next h) (.next h.modMgmt.cause)
theorem State.Canonical.execMgcSetScrub {b : Bool} (h : s.Canonical) : Out.Canonical (execMgcSetScrub b s) := .next h.modMgmt
theorem State.Canonical.execMgcReadSensors (h : s.Canonical) : Out.Canonical (execMgcReadSensors s) := .next h.modMgmt
theorem State.Canonical.spdm {o : SpdmReq} {f : Mgmt → Mgmt} (h : s.Canonical) : Out.Canonical (spdm o f s) := .next h.modMgmt

/-! ### Machine/Scalar -/

theorem State.Canonical.fieldOp {f : Nat → Nat → Nat → Nat → Nat} {o : FieldOp} (h : s.Canonical) :
    Out.Canonical (fieldOp f o s) :=
  h.instr fun _ h => .done h.setX
theorem State.Canonical.execLi {o : Li16} (h : s.Canonical) : Out.Canonical (execLi o s) := h.instr fun _ h => .done h.setX
theorem State.Canonical.execLiK96 {o : Li32} (h : s.Canonical) : Out.Canonical (execLiK96 o s) := h.instr fun _ h => .done h.setX
theorem State.Canonical.execLiHi {o : Li32} (h : s.Canonical) : Out.Canonical (execLiHi o s) := h.instr fun _ h => .done h.setX
theorem State.Canonical.execSel {o : RRR} (h : s.Canonical) : Out.Canonical (execSel o s) := h.instrAlways fun _ h => .done h.setX
theorem State.Canonical.execLea {o : RRR} (h : s.Canonical) : Out.Canonical (execLea o s) := h.instr fun _ h => .done h.setX
theorem State.Canonical.execLeaImm {o : RRI} (h : s.Canonical) : Out.Canonical (execLeaImm o s) := h.instr fun _ h => .done h.setX
theorem State.Canonical.cmpR {f : Word → Word → Bool} {o : CmpR} (h : s.Canonical) : Out.Canonical (cmpR f o s) :=
  h.instr fun _ h => .done h.setP
theorem State.Canonical.cmpI {f : Word → Word → Bool} {o : CmpI} (h : s.Canonical) : Out.Canonical (cmpI f o s) :=
  h.instr fun _ h => .done h.setP
theorem State.Canonical.pred2 {f : Bool → Bool → Bool} {o : PRRR} (h : s.Canonical) : Out.Canonical (pred2 f o s) :=
  h.instr fun _ h => .done h.setP
theorem State.Canonical.execPnot {o : PRR} (h : s.Canonical) : Out.Canonical (execPnot o s) := h.instr fun _ h => .done h.setP

/-! ### Machine/ScalarFp -/

theorem State.Canonical.fp2 {pr : Pred} {d a b : Reg} {f : Nat → Nat → Nat × Fl} (h : s.Canonical) :
    Out.Canonical (fp2 pr d a b f s) :=
  h.instr fun _ h => .done h.setX.orFlags
theorem State.Canonical.fp1 {pr : Pred} {d a : Reg} {f : Nat → Nat × Fl} (h : s.Canonical) : Out.Canonical (fp1 pr d a f s) :=
  h.instr fun _ h => .done h.setX.orFlags
theorem State.Canonical.execFfma {o : FpRRRR} (h : s.Canonical) : Out.Canonical (execFfma o s) :=
  h.instr fun _ h => .done h.setX.orFlags
theorem State.Canonical.fcmp {cc : Nat} {o : FcmpOp} (h : s.Canonical) : Out.Canonical (fcmp cc o s) :=
  h.instr fun _ h => .done h.setP.orFlags

/-! ### Machine/Tickets -/

theorem State.Canonical.regrant {old : Holding} {k amt : Nat} (h : s.Canonical) : ∀ t ∈ regrant s old k amt, t.Canonical := by
  unfold Machine.regrant
  dsimp only
  split
  · exact forall_mem_none
  · exact forall_mem_some h.withdraw.modCur
theorem State.Canonical.execTkset {o : TksetOp} (h : s.Canonical) : Out.Canonical (execTkset o s) := by
  refine h.instr fun _ h => .ite .trap (.ite .trap ?_)
  split
  · exact .trap
  · next e => exact .done (.modMe (h.regrant _ e))
theorem State.Canonical.execTksetT {o : TksetTOp} (h : s.Canonical) : Out.Canonical (execTksetT o s) := by
  refine h.instr fun _ h => .ite .trap (.ite .trap ?_)
  refine .ite .trap (.ite .trap ?_)
  split
  · exact .trap
  · next e => exact .done (.modTile (h.regrant _ e))
theorem State.Canonical.execTkget {o : TkgetOp} (h : s.Canonical) : Out.Canonical (execTkget o s) := by
  refine h.instr fun _ h => ?_
  dsimp only
  split
  iterate 6 exact .done h.setX
  · exact .ite (.done h.setX) .trap
  · exact .ite (.done h.setX) .trap
  · exact .done h.setX
  · exact .trap
theorem Core.Canonical.seedAll {co : Core} {v : BitVec 32} (h : co.Canonical) : (co.seedAll v).Canonical :=
  h.update.foldl fun _ _ h => h.setGen
theorem State.Canonical.execDrseed {o : DrseedOp} (h : s.Canonical) : Out.Canonical (execDrseed o s) :=
  h.instr fun _ h => .done (h.modCore fun _ h => h.seedAll)
theorem State.Canonical.execDrnext {o : DrnextOp} (h : s.Canonical) : Out.Canonical (execDrnext o s) :=
  h.instr fun _ h => .done h.setX
theorem State.Canonical.adjust {top old new : Nat} (h : s.Canonical) : ∀ t ∈ adjust s top old new, t.Canonical := by
  unfold Machine.adjust
  dsimp only
  split
  · exact forall_mem_none
  · exact forall_mem_some h.modCur
theorem State.Canonical.execCurset {o : CursetOp} (h : s.Canonical) : Out.Canonical (execCurset o s) := by
  refine h.instr fun _ h => .chk fun _ _ => ?_
  refine .ite ?_ ?_
  · refine .ite .trap ?_
    split
    · exact .trap
    · next e => exact .done (.modCur (h.adjust _ e))
  · refine .ite .trap ?_
    split
    · exact .trap
    · next e => exact .done (.modCur (h.adjust _ e))
theorem State.Canonical.execCursetClr {o : CursetOp} (h : s.Canonical) : Out.Canonical (execCursetClr o s) :=
  h.instr fun _ h => .chk fun _ _ => .ite .trap (.done h.modCur.modCur)
theorem State.Canonical.execCuriss {o : CurissOp} (h : s.Canonical) : Out.Canonical (execCuriss o s) := by
  refine h.instr fun _ h => .ite .trap (.ite .trap ?_)
  split
  · exact .trap
  · next e => exact .done (.modCur (h.adjust _ e))

/-! ### Machine/Dispatch -/

/-- One by one, in the order of the cases of `exec`. -/
theorem State.Canonical.exec {i : Instr} (h : s.Canonical) : Out.Canonical (exec i s) := by
  unfold Machine.exec
  split
  exacts [
    h.rrr, h.rrr, h.rrr, h.rrr, h.rrr, h.rrr, h.rrr, h.rrr, h.rrr, h.rrr, h.rrr, h.rrr, h.rrr, h.rrr, h.rrr, h.rri, h.rri, h.rri,
    h.rri, h.rri, h.rri, h.rri, h.rri, h.rri, h.rri, h.rri, h.rri, h.rri, h.rri, h.rri, h.rrr, h.rrr, h.rrr, h.rrrFl, h.rrrFl,
    h.rrrFl, h.rrrFl, h.rri, h.rri, h.rri, h.rriFl, h.rriFl, h.rriFl, h.rriFl, h.rr, h.rr, h.rr, h.rr, h.rr, h.fieldOp, h.fieldOp,
    h.fieldOp, h.fieldOp, h.execLi, h.execLiK96, h.execLiHi, h.execSel, h.execLea, h.execLeaImm, h.cmpR, h.cmpR, h.cmpR, h.cmpR,
    h.cmpR, h.cmpR, h.cmpI, h.cmpI, h.cmpI, h.cmpI, h.cmpI, h.cmpI, h.pred2, h.pred2, h.pred2, h.execPnot, h.fp2, h.fp2, h.fp2,
    h.fp2, h.fp2, h.fp2, h.fp1, h.execFfma, h.fcmp, h.fcmp, h.fcmp, h.fcmp, h.fcmp, h.fp1, h.fp1, h.fp1, h.fp1, h.fp1, h.fp1, h.fp2,
    h.fp2, h.fp2, h.execBp, h.execJr, h.execCall, h.execCallr, h.execRet, h.hloopC, h.hloopC, h.ld, h.ld, h.ld, h.ld, h.ld, h.ld,
    h.ld, h.st, h.st, h.st, h.st, h.ldx, h.ldx, h.ldx, h.ldx, h.stx, h.stx, h.stx, h.stx, h.amo, h.amo, h.amo, h.amo, h.amo, h.amo,
    h.amo, h.amo, h.amo, h.execCas, h.execFenceAq, h.execFenceRl, h.execFenceAr, h.execFenceSc, h.acquire, h.execRel, h.acquire,
    h.execMon, h.execMwait, h.execMwaitWake, h.execBar, h.execMset, h.execMsetG, h.execMgo, h.execXpsh, h.execVgo, h.execSgo,
    h.execNoteC, h.noteRing, h.noteRing, h.noteRing, h.execSemr, h.execSemw, h.gset, h.gset, h.gset, h.gset, h.execTstat,
    h.execTfree, h.execTfreeU, h.execTbind, h.execCbdef, h.execCbdefT, h.execCbadvP, h.execCbadvC, h.execCbqry, h.execCkpin,
    h.execCkpinClr, h.execCktkt, h.execPubv, h.execSeal, h.execSealR, h.execRemoteSealArrival, h.execTaste, h.execTasteR, h.execVnq,
    h.execVnqR, h.execVnqE, h.execSetdef, h.execSetlw, h.execSettlement, h.execSkinit, h.execSkmrg, h.execSkmrgR, h.execSkqnt,
    h.execSkest, h.execSkestX, h.sktop, h.sktop, h.execTkset, h.execTksetT, h.execTkget, h.execYield, h.execDrseed, h.execDrnext,
    h.execCurset, h.execCursetClr, h.execCuriss, h.execLarm, h.execLpatch, h.execLsend, h.execLqry, h.execChsnd, h.execChrcv,
    h.execChcapRd, h.execChcapNar, h.execChcapClr, h.execPubh, h.execColl, h.execCollAbt, h.execTrap, h.execEret, h.execSysrd,
    h.execSyswr, h.execTfence, h.execFlags, h.execBrk, h.execHalt, h.execNop, h.execWait, h.vint, h.vint, h.vint, h.vint, h.vint,
    h.vint, h.vint, h.vint, h.vint, h.vintImm, h.vintImm, h.vintImm, h.vintImm, h.vintImm, h.vintImm, h.vintImm, h.vintImm,
    h.vintImm, h.vmap, h.vcmpF, h.vcmpF, h.vcmpF, h.vcmpF, h.vcmpF, h.vcmpI, h.vcmpI, h.vcmpI, h.vcmpI, h.vcmpI, h.vcmpI,
    h.execVsel, h.vmap, h.vmap, h.execVbcstE, h.vmap, h.execVshp, h.execVshpK96, h.mlog, h.mlog, h.mlog, h.mlog, h.execVmlogNot,
    h.execVmlogCnt, h.execVmlogFst, h.vfp2, h.vfp2, h.vfp2, h.vfp2, h.vfp2, h.vfp2, h.vfp1, h.vfp1, h.vfp1, h.vfma, h.vfma, h.vspec,
    h.vspec, h.vspec, h.vspec, h.vspec, h.vspec, h.vspec, h.vspec, h.execVcvtFf, h.execVcvtFpToElem, h.execVcvtElemToFp,
    h.execVcvtFpToIntfmt, h.execVcvtIntfmtToFp, h.execVcvtElemToElem, h.vred, h.vred, h.vred, h.vred, h.vred, h.vred, h.vred,
    h.vred, h.vred, h.execVredxArg, h.execBV, h.execHloopV, h.vldForm, h.vldForm, h.vstForm, h.vstForm, h.execVgath, h.execVgathQ,
    h.execVscat, h.execVacld, h.execVacst, h.execVcmpr, h.execVexpd, h.slide, h.slide, h.execVtrg, h.execVqpsh, h.execVqpop,
    h.vrbal, h.vrbal, h.vsk, h.vsk, h.vsk, h.execVclipq, h.execNoteV, h.execHaltV, h.execFlagsV, h.execTfenceV, h.execKernelStart,
    h.execMma, h.execMmas, h.execMmaStepEnd, h.execCoOperativeGroupForm, h.execMzero, h.execMzeroSet, h.execMzeroSetz, h.execMexp,
    h.execMimp, h.execMnote, h.xRun, h.xRun, h.xRun, h.xRun, h.xRun, h.xRun, h.xRun, h.xRun, h.xRun, h.xRun, h.xRun, h.xRun, h.xRun,
    h.xRun, h.xRun, h.xRun, h.execXnote, h.execCpeBurstComplete, h.sRun, h.sRun, h.sRun, h.execSnote, h.execHeadDecide,
    h.execCommandComplete, h.execDraw, h.execQuantumExpiry, h.execTrapEntry, h.execDrainEnd, h.execRefireRestart, h.execTaskStop,
    h.execTaskRetire, h.packet, h.packet, h.packet, h.packet, h.packet, h.execPeerPacketArrival, h.execQtailWrite, h.execQcfgWrite,
    h.execTimeTrigger, h.execGateOpen, h.execChunkCut, h.execSeatTask, h.execGangSeat, h.execTaskLaunch, h.execBalanceExchange,
    h.execBalanceArrival, h.execRackComplete, h.execFetchBackComplete, h.execEccCorrectable, h.execFreezeEnd,
    h.execEccUncorrectable, h.collArrive, h.collArrive, h.collArrive, h.collArrive, h.collArrive, h.collArrive,
    h.execCollAbortPacket, h.execCollSlotSend, h.execCollMemberDone, h.execDrrVisit, h.execSwitchOut, h.execSwitchOutComplete,
    h.execSwitchIn, h.execTlbinvWrite, h.execTlbInvalidationComplete, h.execDbgHalt, h.execDbgHalted, h.execDbgResume,
    h.execDbgStep, h.execDbgStepEnd, h.execDbgDump, h.execDbgSample, h.execCntClaim, h.execCntRelease, h.execCntClear,
    h.execTraceClaim, h.execPoolbaseWrite, h.execPcfgMaskWrite, h.execRegisterWrite, h.execRecoveryErase, h.execRecoveryWriteChunk,
    h.execRecoveryCommit, h.execRecoveryCommandDone, h.execInterruptCoalesceTimeout, h.execMsixUnmask, h.execBringUp,
    h.execFunctionReset, h.execThrottleTick, h.execThrottleShutdown, h.execMgcSetPowerLimit, h.execMgcSetScrub,
    h.execMgcReadSensors, h.spdm, h.spdm, h.spdm, h.spdm, h.spdm, h.spdm, h.spdm, h.execHostWindowRead, h.execHostWindowWrite,
    h.execAtsInvalidation, h.execWaitTargetReached, h.execSetlwDeadline, h.execChrcvDeadline]

/-! ### Machine/Turn -/

theorem Run.Canonical.runM {w : BitVec 128} : Run.Canonical (runM w) := by
  unfold Machine.runM
  split
  · exact .some fun _ h => h.execMma
  · exact .some fun _ h => h.execMmas
  · split
    exacts [.some fun _ h => h.execMzero, .some fun _ h => h.execMzeroSet, .some fun _ h => h.execMzeroSetz, .none]
  · exact .some fun _ h => h.execMexp
  · exact .some fun _ h => h.execMimp
  · exact .some fun _ h => h.execMnote
  · exact .none
theorem Run.Canonical.runX {w : BitVec 128} : Run.Canonical (runX w) := by
  unfold Machine.runX
  split
  iterate 16 exact .some fun _ h => h.xRun
  · exact .some fun _ h => h.execXnote
  · exact .none
theorem Run.Canonical.runS {w : BitVec 128} : Run.Canonical (runS w) := by
  unfold Machine.runS
  split
  exacts [.some fun _ h => h.sRun, .some fun _ h => h.sRun, .some fun _ h => h.sRun, .some fun _ h => h.execSnote, .none]
theorem Run.Canonical.runCmd {r : RingId} {w : BitVec 128} : Run.Canonical (runCmd r w) := by
  unfold Machine.runCmd
  split
  exacts [.runM, .runX, .runS, .none]
theorem Out.Canonical.map {o : Out} {f : State → State} (h : Out.Canonical o) (hf : ∀ t : State, t.Canonical → (f t).Canonical) :
    Out.Canonical (o.map f) := by
  cases h with
  | next h => exact .next (hf _ h)
  | fault => exact .fault
  | refused => exact .refused
theorem State.Canonical.noteIssue {c k : Nat} (h : s.Canonical) : (State.noteIssue c k s).Canonical := .ite h h.count
theorem State.Canonical.dataMisses {i : Instr} (h : s.Canonical) : (s.dataMisses i).Canonical := by
  unfold State.dataMisses
  split
  exacts [.ite h h.misses, h]
theorem State.Canonical.cIssue (h : s.Canonical) : Out.Canonical (s.cIssue) := by
  unfold State.cIssue
  dsimp only
  split
  · exact .next h.fetchMisses.trapEntry
  · split
    exacts [.next h.fetchMisses.trapEntry, .next h.fetchMisses.trapEntry, h.fetchMisses.dataMisses.exec.map fun _ h => h.noteIssue]
theorem State.Canonical.noteStep {c k : Nat} {st : Strm} (h : s.Canonical) : (State.noteStep c k st s).Canonical := .ite h h.modSlot
theorem State.Canonical.noteV {c k : Nat} {old : StreamSt} (h : s.Canonical) : (State.noteV c k old s).Canonical := .ite h.count h
theorem State.Canonical.cRun {c k : Nat} (h : s.Canonical) : Out.Canonical (s.cRun c k) :=
  h.update.cIssue.map fun _ h => .ite h.noteStep h
theorem State.Canonical.setFetched {c k : Nat} {b : Bool} (h : s.Canonical) : (s.setFetched c k b).Canonical := .ite h h.modSlot
theorem State.Canonical.issuedFor {c k : Nat} (h : s.Canonical) : (s.issuedFor c k).Canonical := h.modCore fun _ h => h.update
theorem State.Canonical.cpIssue {c : Nat} {x : Option Nat} {l : List Nat} (h : s.Canonical) :
    Out.Canonical (cpIssue c x l s) := by
  induction l generalizing s with
  | nil => exact .next h
  | cons j rest ih =>
    unfold Machine.cpIssue
    refine .ite (ih h) ?_
    split
    · next t e =>
      replace h : t.Canonical := h.cRun.of_next e
      refine .ite (ih h.setFetched) (.next (.issuedFor ?_))
      split
      · exact .ite h.setFetched h.setFetched.setFetched
      · exact h.setFetched
    · exact h.cRun
theorem State.Canonical.cTurn {c k : Nat} (h : s.Canonical) : Out.Canonical (cTurn c k s) :=
  .ite (.ite (.next h.update.setFetched) h.update.cpIssue) (.ite h.update.execDrainEnd (.next h.update))
theorem State.Canonical.vTurn {c k : Nat} (h : s.Canonical) : Out.Canonical (vTurn c k s) := by
  refine .ite (.next h.update) (.ite h.update.execDrainEnd ?_)
  refine .ite ?_ (.ite (.next h.update) (h.update.refillV.vIssue.map fun _ h => h.noteV))
  exact .ite (.next h.update) (h.update.refillV.vIssue.map fun _ h => h.noteV.noteStep)
theorem Run.Canonical.partRun {c k : Nat} {r : RingId} {w : BitVec 128} : Run.Canonical (partRun c k r w) := by
  unfold Machine.partRun
  split
  · exact .some fun _ h => h.execCpeBurstComplete
  · exact .some fun _ h => h.execSieGranule
  · exact .ite (.some fun _ h => h.execMmaStepEnd) .none
  · exact .none
theorem State.Canonical.ringTurn {c k : Nat} {r : RingId} {part : Bool} (h : s.Canonical) :
    Out.Canonical (ringTurn c k r part s) := by
  unfold Machine.ringTurn
  dsimp only
  have ht : State.Canonical { s with cur := ⟨c, k, strmOfRing r⟩ } := h.update
  refine .ite (.next ht) (.ite ht.execCommandComplete (.ite ht.execDrainEnd (.ite ?_ ht.execHeadDecide)))
  split
  · next e =>
    have hr (t : State) (h : t.Canonical) := Run.Canonical.runCmd.of_some e h
    refine .ite ?_ (.next ht)
    split
    · exact Run.Canonical.partRun.getD hr ht
    · exact hr _ ht
  · exact .next ht
theorem State.Canonical.streamTurn {c k : Nat} {st : Strm} (h : s.Canonical) : Out.Canonical (streamTurn c k st s) := by
  unfold Machine.streamTurn
  split
  exacts [h.cTurn, h.vTurn, h.ringTurn]
theorem State.Canonical.tlbFill {c k f : Nat} {va : Word} (h : s.Canonical) : (s.tlbFill c k f va).Canonical :=
  .ite h (by dsimp only; split; exacts [h.update, h])
theorem State.Canonical.readEarly {c k : Nat} {va : Word} (h : s.Canonical) : (s.readEarly c k va).Canonical := .ite h.earlyRead h
theorem State.Canonical.act {x : Act} (h : s.Canonical) : Out.Canonical (s.act x) := by
  unfold State.act
  split
  · exact h.streamTurn
  · exact .ite h.exec (.next h)
  · exact .next h.peerTile
  · exact .next h.peerMessage
  · exact .next h.tlbFill
  · exact .next h.readEarly
  · exact .next h.bankWait
  · exact .next h.moduleReset
  · exact .next h

/-! ### Machine/Cycle -/

theorem Out.Canonical.getD {o : Out} (ho : Out.Canonical o) (h : s.Canonical) : (o.getD s).Canonical := by
  cases ho with
  | next ho => exact ho
  | fault => exact h
  | refused => exact h
theorem State.Canonical.also {f : State → Out} (h : s.Canonical) (hf : ∀ t : State, t.Canonical → Out.Canonical (f t)) :
    (s.also f).Canonical :=
  .update (Out.Canonical.getD (hf _ h) h)
theorem Core.Canonical.pass {co : Core} {now : Nat} (h : co.Canonical) : (co.pass now).Canonical := .update (.ite h.update h)
theorem State.Canonical.countCycle {c : Nat} (h : s.Canonical) : (s.countCycle c).Canonical :=
  .foldl (h.count.foldl fun _ _ h => by split; exacts [h.count, h]) fun _ _ h => h.count
theorem State.Canonical.clock (h : s.Canonical) : s.clock.Canonical :=
  (h.foldl fun _ _ h => h.countCycle).mapCores rfl rfl fun _ h => h.pass
theorem State.Canonical.arrivals (h : s.Canonical) : s.arrivals.Canonical :=
  .foldl (h.foldl fun _ _ h => h.foldl fun _ _ h => .ite h.modPart h) fun _ _ h => h.foldl fun _ _ h => .ite h.landNow h
theorem State.Canonical.drawAll (h : s.Canonical) : s.drawAll.Canonical := by
  refine .foldl (.noteReady (h.foldl fun _ _ h => h.foldl fun _ _ h => h.execQuantumExpiry.getD h)) fun _ _ h => ?_
  exact h.foldl fun _ _ h => h.execDraw.getD h
theorem State.Canonical.launchAll (h : s.Canonical) : s.launchAll.Canonical :=
  h.foldl fun _ _ h => h.foldl fun _ _ h => .ite (h.also fun _ h => h.execTaskLaunch) h
theorem Move.Canonical.move {a : Act} : (Act.move a).Canonical := fun _ h => h.act
theorem State.Canonical.after (h : s.Canonical) : s.after.Canonical := h.update
theorem State.Canonical.note {l : List Did} (h : s.Canonical) : (s.note l).Canonical := h.update
theorem Move.Canonical.now {m : Move} (hm : m.Canonical) (h : s.Canonical) : ∀ o ∈ m.now s, Out.Canonical o := by
  unfold Move.now
  split
  · next e =>
    dsimp only
    split
    · exact forall_mem_none
    · exact forall_mem_some (.next ((hm s h).of_next e).note.after)
  · exact forall_mem_some (hm s h)
theorem Move.Canonical.issueMove {c : Nat} : (issueMove c).Canonical := fun _ h => h.cpIssue
theorem State.Canonical.issueFetched {l : List Nat} (h : s.Canonical) : (s.issueFetched l).1.Canonical := by
  induction l generalizing s with
  | nil => exact h
  | cons c t ih =>
    unfold State.issueFetched
    split
    · exact ih h
    · next o e => exact ih ((Move.Canonical.issueMove.now h o e).getD h)
theorem State.Canonical.nextCycle (h : s.Canonical) : s.nextCycle.Canonical := by
  unfold State.nextCycle
  refine .issueFetched (.drawAll (.launchAll (.foldl (.arrivals (.foldl ?_ fun _ _ h => h.endSwitchIn)) fun _ _ h => ?_)))
  · exact .clock (.flushTrace (h.issueFetched.foldl fun _ _ h => h.lendCycles))
  · exact h.execBalanceExchange.getD h
theorem State.Canonical.tick {n : Nat} (h : s.Canonical) : (s.tick n).Canonical := by
  induction n generalizing s with
  | zero => exact h
  | succ n ih => exact ih h.nextCycle
theorem Move.Canonical.within {m : Move} {n : Nat} (hm : m.Canonical) (h : s.Canonical) : Out.Canonical (m.within n s) := by
  induction n generalizing s with
  | zero => exact (hm s h).map fun _ h => h.after
  | succ n ih =>
    unfold Move.within
    split
    · next o e => exact hm.now h o e
    · exact ih h.tick
theorem Move.Canonical.make {m : Move} (h : m.Canonical) (ht : s.Canonical) : Out.Canonical (Move.make m s) := h.within ht
theorem Move.Canonical.stepMove {f : State → Out} (hf : ∀ t : State, t.Canonical → Out.Canonical (f t)) :
    (stepMove f).Canonical :=
  fun _ h => hf _ h
theorem State.Canonical.groupMove {c k : Nat} (h : s.Canonical) : Out.Canonical (groupMove c k s) :=
  .ite (.next h) h.execCoOperativeGroupForm
theorem State.Canonical.makeAll {l : List Move} (h : s.Canonical) (hl : ∀ m ∈ l, m.Canonical) : Out.Canonical (makeAll l s) := by
  induction l generalizing s with
  | nil => exact .next h
  | cons m rest ih =>
    obtain ⟨hm, hl⟩ := List.forall_mem_cons.mp hl
    unfold Machine.makeAll
    split
    · exact ih h hl
    · next e => exact ih ((hm.now h _ e).of_next rfl) hl
    · next e => exact hm.now h _ e
theorem canonical_of_mem_endMoves {c k : Nat} : ∀ m ∈ endMoves c k, m.Canonical := by
  simp only [endMoves, List.forall_mem_append, List.forall_mem_map, List.forall_mem_cons, List.not_mem_nil, false_imp_iff,
    implies_true, and_true]
  exact ⟨⟨.stepMove fun _ h => h.execDrainEnd, .stepMove fun _ h => h.execDrainEnd, .stepMove fun _ h => h.execDrainEnd,
    .stepMove fun _ h => h.execDrainEnd, .stepMove fun _ h => h.execDrainEnd⟩, .stepMove fun _ h => h.execRefireRestart,
    .stepMove fun _ h => h.execTaskStop, .stepMove fun _ h => h.execTaskRetire, .stepMove fun _ h => h.execDbgHalted,
    .stepMove fun _ h => h.execDbgStepEnd⟩
theorem canonical_of_mem_slotMoves {c k : Nat} : ∀ m ∈ slotMoves c k, m.Canonical := by
  simp only [slotMoves, List.forall_mem_append, List.forall_mem_map, List.forall_mem_cons, List.not_mem_nil, false_imp_iff,
    implies_true, and_true]
  exact ⟨⟨⟨fun _ h => h.cTurn, .stepMove fun _ h => h.execHeadDecide, fun _ h => h.vTurn⟩,
    fun _ h => h.ringTurn, fun _ h => h.ringTurn, fun _ h => h.ringTurn⟩, .stepMove fun _ h => h.groupMove⟩
theorem canonical_of_mem_coreMoves {c : Nat} {co : Core} : ∀ m ∈ coreMoves c co, m.Canonical := by
  simp only [coreMoves, List.forall_mem_append, List.forall_mem_map, List.forall_mem_cons, List.forall_mem_flatMap,
    List.not_mem_nil, false_imp_iff, implies_true, and_true]
  exact ⟨⟨fun _ _ => canonical_of_mem_slotMoves,
    fun _ _ => ⟨.stepMove fun _ h => h.execRackComplete, .stepMove fun _ h => h.execFetchBackComplete⟩⟩,
    fun _ _ => .stepMove fun _ h => h.execRemoteSealArrival⟩
theorem canonical_of_mem_partMoves {p : Nat} {q : Part} : ∀ m ∈ partMoves p q, m.Canonical := by
  simp only [partMoves, List.forall_mem_append, List.forall_mem_map, List.forall_mem_cons, List.forall_mem_flatMap,
    List.not_mem_nil, false_imp_iff, implies_true, and_true]
  exact ⟨⟨fun _ _ => .stepMove fun _ h => h.execTimeTrigger, .stepMove fun _ h => h.execGateOpen⟩,
    fun _ _ => ⟨.stepMove fun _ h => h.execChunkCut, .stepMove fun _ h => h.execBalanceArrival,
      .stepMove fun _ h => h.execGangSeat, .stepMove fun _ h => h.execSeatTask⟩⟩
theorem canonical_of_mem_queueMoves {f q : Nat} : ∀ m ∈ queueMoves f q, m.Canonical := by
  simp only [queueMoves, List.forall_mem_map, List.forall_mem_cons, List.not_mem_nil, false_imp_iff, implies_true, and_true]
  exact ⟨fun _ h => h.packet, fun _ h => h.packet, fun _ h => h.packet, fun _ h => h.packet, fun _ h => h.packet⟩
theorem canonical_of_mem_funcMoves {f : Nat} {fn : Func} : ∀ m ∈ funcMoves f fn, m.Canonical := by
  simp only [funcMoves, List.forall_mem_append, List.forall_mem_map, List.forall_mem_cons, List.forall_mem_flatMap,
    List.not_mem_nil, false_imp_iff, implies_true, and_true]
  refine ⟨⟨⟨?_, .stepMove fun _ h => h.execSwitchOutComplete, .stepMove fun _ h => h.execTlbInvalidationComplete⟩,
    fun _ _ => ⟨.stepMove fun _ h => h.execCollSlotSend, .stepMove fun _ h => h.execCollMemberDone⟩⟩,
    fun _ _ => .stepMove fun _ h => h.execDrrVisit⟩
  split
  · exact List.forall_mem_singleton.mpr (.stepMove fun _ h => h.execFunctionReset)
  · exact List.forall_mem_nil _
theorem State.canonical_of_mem_moves : ∀ m ∈ s.moves, m.Canonical := by
  simp only [State.moves, List.forall_mem_append, List.forall_mem_map, List.forall_mem_cons, List.forall_mem_flatMap,
    List.not_mem_nil, false_imp_iff, implies_true, and_true]
  exact ⟨⟨⟨⟨⟨⟨⟨.stepMove fun _ h => h.execBringUp, fun _ _ _ _ => canonical_of_mem_endMoves⟩,
    fun _ _ _ _ => .stepMove fun _ h => h.execSettlement⟩, fun _ _ => canonical_of_mem_coreMoves⟩,
    fun _ _ _ _ => canonical_of_mem_queueMoves⟩, fun _ _ => canonical_of_mem_partMoves⟩,
    fun _ _ => canonical_of_mem_funcMoves⟩,
    .stepMove fun _ h => h.execRecoveryCommandDone, .stepMove fun _ h => h.execThrottleShutdown⟩
theorem State.Canonical.wholeCycle (h : s.Canonical) : Out.Canonical s.wholeCycle :=
  (h.makeAll State.canonical_of_mem_moves).map fun _ h => h.update

/-! ### Machine/Step -/

theorem State.Canonical.step (h : s.Canonical) : Out.Canonical (step s) := by
  unfold Machine.step
  split
  exacts [Move.Canonical.move.make h.update.tick, h.tick.wholeCycle]
end

/-- Settles O58: every step is made of moves, and each of these of writes that keep the stores canonical. -/
theorem storesStayCanonical : Obligations.StoresStayCanonical := by
  unfold Obligations.StoresStayCanonical
  intro s t h e
  exact t.canonical_iff_storesWf.mp ((s.canonical_iff_storesWf.mpr h).step.of_next e)
end Sys2Proof.Machine
end

section
namespace Sys2Proof.Machine

/-! ### Loads and stores of the C stream (R189, R190) -/

theorem ldExt_signed {n : Nat} (h : 0 < n) (v : Nat) :
    ldExt n false v = BitVec.ofInt 64 (BitVec.ofNat (8 * n) v).toInt := by
  simp only [ldExt, Bool.false_eq_true, if_false]
  rw [ofNat_wrapN, sextN_eq _ _ (by omega)]
theorem ldExt_unsigned (n v : Nat) : ldExt n true v = BitVec.ofNat 64 v := rfl
/-- A doubleword fills the register: its extension is no matter. -/
theorem ldExt_doubleword (v : Nat) : ldExt 8 false v = BitVec.ofNat 64 v := by
  rw [ldExt_signed (by decide)]
  exact BitVec.ofInt_toInt

theorem OnlyEarly.mem {s t : State} (h : OnlyEarly s t) : t.mem = s.mem := by obtain ⟨_, _, _, rfl⟩ := h; rfl
theorem OnlyEarly.xlate {s t : State} (h : OnlyEarly s t) (c : Option Nat) (f p va : Nat) (a : Acc) :
    t.xlate c f p va a = s.xlate c f p va a := by
  obtain ⟨x, e, _, rfl⟩ := h
  simp only [State.xlate, walk_known s x s.places e]
  rfl
theorem State.mapHidden_early (s : State) (f : HidWrite → HidWrite) : (s.mapHidden f).early = s.early := by
  unfold State.mapHidden; split <;> rfl
theorem State.mapHidden_cur (s : State) (f : HidWrite → HidWrite) : (s.mapHidden f).cur = s.cur := by
  unfold State.mapHidden; split <;> rfl
/-- A C stream that gives its early reads up returns from none. -/
theorem State.earlyAt_dropEarly (s : State) (va n : Nat) : (s.dropEarly s.agent).earlyAt va n = none := by
  unfold State.dropEarly State.agent
  dsimp only
  split
  · next h => simp [State.earlyAt, List.isEmpty_iff.mp h]
  · rw [State.earlyAt, State.mapHidden_early, State.mapHidden_cur, List.find?_eq_none]
    intro e he
    have hout := (List.mem_filter.mp he).2
    simp only [Bool.not_eq_true', Bool.and_eq_false_iff] at hout
    simp only [Bool.and_eq_true, not_and, Bool.not_eq_true]
    grind

theorem loadNat_memory {s : State} {va n : Nat} (pa : Nat) (h : s.earlyAt va n = none) : s.loadNat va pa n = s.mem.nat pa n := by
  simp only [State.loadNat, h]
theorem loadNat_early {s : State} {va n : Nat} {e : EarlyRead} (pa : Nat) (h : s.earlyAt va n = some e) :
    s.loadNat va pa n = e.val / 2 ^ (8 * (va - e.va)) % 2 ^ (8 * n) := by
  simp only [State.loadNat, h]

/-- The value that a load returns: memory's, or what was read early. -/
theorem ld_gives {s : State} {o : LdOp} {n pa : Nat} {u : Bool} {f : Nat → Word} (hc : s.cRuns o.pr)
    (hf : ∀ v, ldExt n u v = f v) (h : s.dataPa (s.me.xr o.a + immWord o.off) n .rd = .ok pa)
    (hp : isHost pa = true ∨ poisoned s.memPoison 64 pa n = false) :
    ((o.ord.getLsbD 0 = true ∨ s.earlyAt (s.me.xr o.a + immWord o.off).toNat n = none) →
      ∃ t, OnlyKnown s t ∧ ld n u o s = .next ((t.setX o.d (f (s.mem.nat pa n))).advance (immLen o.off))) ∧
    (∀ e, o.ord.getLsbD 0 = false → s.earlyAt (s.me.xr o.a + immWord o.off).toNat n = some e →
      ∃ t, OnlyKnown s t ∧ ld n u o s =
        .next ((t.setX o.d (f (e.val / 2 ^ (8 * ((s.me.xr o.a + immWord o.off).toNat - e.va)) % 2 ^ (8 * n)))).advance
          (immLen o.off))) := by
  obtain ⟨t, ht, he⟩ := ld_c (u := u) hc h hp
  rw [hf] at he
  constructor
  · intro hm
    refine ⟨t, ht, ?_⟩
    cases haq : o.ord.getLsbD 0 with
    | true => rw [he, if_pos haq, loadNat_memory pa (s.earlyAt_dropEarly _ n), (onlyEarly_dropEarly s s.agent).mem]
    | false => rw [he, if_neg (by rw [haq]; decide), loadNat_memory pa (hm.resolve_left (by rw [haq]; decide))]
  · intro e haq hm
    exact ⟨t, ht, by rw [he, if_neg (by rw [haq]; decide), loadNat_early pa hm]⟩

/-! Accesses of the home region. -/

theorem homeChk_ok {a : Word} {n : Nat} (h : a.toNat < 0x40000) (ha : a.toNat % n = 0) : homeChk a n = .ok () := by
  simp [homeChk, ha, Nat.not_le.mpr h]
theorem ldx_c {s : State} {o : LdxOp} {n : Nat} (hc : s.cRuns o.pr) (hb : (s.me.xr o.a + o.imm.signExtend 64).toNat < 0x40000)
    (ha : (s.me.xr o.a + o.imm.signExtend 64).toNat % n = 0)
    (hp : s.homePoison (s.me.xr o.a + o.imm.signExtend 64).toNat n = false) :
    ldx n o s = .next ((s.setX o.d (BitVec.ofNat 64 (s.homeNat (s.me.xr o.a + o.imm.signExtend 64).toNat n))).advance 8) :=
  instr_c_done hc (by simp only [homeChk_ok hb ha, chk_then_ok, hp, Bool.false_eq_true, if_false])
theorem stx_c {s : State} {o : StxOp} {n : Nat} (hc : s.cRuns o.pr) (hb : (s.me.xr o.a + o.imm.signExtend 64).toNat < 0x40000)
    (ha : (s.me.xr o.a + o.imm.signExtend 64).toNat % n = 0) :
    stx n o s = .next ((s.homeWrite (s.me.xr o.a + o.imm.signExtend 64).toNat (natLe n (s.me.xr o.b).toNat)).advance 8) :=
  instr_c_done hc (by simp only [homeChk_ok hb ha, chk_then_ok])

/-- Settles O6: what the loads and stores give when no check refuses them. -/
theorem loadAndStoreResults : Obligations.LoadAndStoreResults := by
  unfold Obligations.LoadAndStoreResults
  refine ⟨fun s o pa hc => ?_, fun s o pa hc => ⟨st_c hc, st_c hc, st_c hc, st_c hc⟩,
    fun s o hc => ⟨ldx_c hc, ldx_c hc, ldx_c hc, ldx_c hc⟩, fun s o hc => ⟨stx_c hc, stx_c hc, stx_c hc, stx_c hc⟩⟩
  have sx {n : Nat} (hn : 0 < n) := ld_gives (u := false) (pa := pa) (f := fun v => BitVec.ofInt 64 (BitVec.ofNat (8 * n) v).toInt)
    hc (ldExt_signed hn)
  have zx (n : Nat) := ld_gives (u := true) (pa := pa) (f := BitVec.ofNat 64) hc (ldExt_unsigned n)
  exact ⟨sx (by decide), sx (by decide), sx (by decide), ld_gives (f := BitVec.ofNat 64) hc ldExt_doubleword, zx 1, zx 2, zx 4⟩

/-! ### Accesses that trap (R26, R189, R190, R229) -/

theorem dataPa_misaligned {s : State} {va : Word} {n : Nat} (a : Acc) (h : va.toNat % n ≠ 0) :
    s.dataPa va n a = .error (fAlign, va) := by
  simp only [State.dataPa, ne_eq, h, not_false_eq_true, if_true]
theorem dataPa_untranslated {s : State} {va : Word} {n : Nat} {a : Acc} {c : Code} (h : va.toNat % n = 0)
    (hx : s.xlate (some s.cur.core) s.me.t.fn s.me.t.part va.toNat a = .error c) : s.dataPa va n a = .error (c, va) := by
  simp only [State.dataPa, h, hx, ne_eq, not_true_eq_false, if_false]

/-- What the translation refuses, a load refuses, whatever its stream has read early. -/
theorem ld_untranslated {s : State} {o : LdOp} {n : Nat} {u : Bool} {c : Code} (hc : s.cRuns o.pr)
    (h : s.dataPa (s.me.xr o.a + immWord o.off) n .rd = .error (c, s.me.xr o.a + immWord o.off)) :
    ld n u o s = .next (s.trapEntry s.cur.core s.cur.slot c .c s.me.cs.pc (s.me.xr o.a + immWord o.off)) := by
  refine (instr_c_trap hc ?_).trans (by rw [State.pc, hc.1]; rfl)
  have hb := onlyEarly_dropEarly s s.agent
  cases o.ord.getLsbD 0 <;> simp only [State.load, Bool.false_eq_true, if_true, if_false, hb.dataPa, h, chk_then_error]
theorem ld_poisoned {s : State} {o : LdOp} {n pa : Nat} {u : Bool} (hc : s.cRuns o.pr)
    (h : s.dataPa (s.me.xr o.a + immWord o.off) n .rd = .ok pa) (hh : isHost pa = false)
    (hp : poisoned s.memPoison 64 pa n = true) :
    ld n u o s = .next (s.trapEntry s.cur.core s.cur.slot fPoison .c s.me.cs.pc (s.me.xr o.a + immWord o.off)) := by
  refine (instr_c_trap hc ?_).trans (by rw [State.pc, hc.1]; rfl)
  have hb := onlyEarly_dropEarly s s.agent
  cases o.ord.getLsbD 0 <;>
    simp only [State.load, Bool.false_eq_true, if_true, if_false, hb.dataPa, hb.known.memPoison, h, hh, hp, Bool.not_false,
      Bool.and_self, chk_then_error]
theorem st_untranslated {s : State} {o : StOp} {n : Nat} {c : Code} (hc : s.cRuns o.pr)
    (h : s.dataPa (s.me.xr o.a + immWord o.off) n .wr = .error (c, s.me.xr o.a + immWord o.off)) :
    st n o s = .next (s.trapEntry s.cur.core s.cur.slot c .c s.me.cs.pc (s.me.xr o.a + immWord o.off)) := by
  refine (instr_c_trap hc ?_).trans (by rw [State.pc, hc.1]; rfl)
  simp only [State.store, (onlyEarly_setApart s _).dataPa, h, chk_then_error]
theorem st_inPool {s : State} {o : StOp} {n pa : Nat} (hc : s.cRuns o.pr)
    (h : s.dataPa (s.me.xr o.a + immWord o.off) n .wr = .ok pa) (hh : isHost pa = false)
    (hp : (s.part s.me.t.part).inPool pa n = true) :
    st n o s = .next (s.trapEntry s.cur.core s.cur.slot fPerm .c s.me.cs.pc (s.me.xr o.a + immWord o.off)) := by
  refine (instr_c_trap hc ?_).trans (by rw [State.pc, hc.1]; rfl)
  have hb := onlyEarly_setApart s (o.ord.getLsbD 1)
  simp only [State.store, hb.dataPa, hb.known.me, hb.known.part, h, hh, hp, Bool.not_false, Bool.and_self, if_true,
    chk_then_error]

/-- What raises a fault at a device access `r` of n bytes at `va`: the order of the checks of R229, then R26 and R226. -/
def DeviceTraps (s : State) (va : Word) (n : Nat) (a : Acc) (r : Out) : Prop :=
  let traps (c : Code) : Out := .next (s.trapEntry s.cur.core s.cur.slot c .c s.me.cs.pc va)
  (va.toNat % n ≠ 0 → r = traps fAlign) ∧
  (∀ c, va.toNat % n = 0 → s.xlate (some s.cur.core) s.me.t.fn s.me.t.part va.toNat a = .error c → r = traps c) ∧
  (∀ pa, s.dataPa va n a = .ok pa → isHost pa = false →
    (a = .rd → poisoned s.memPoison 64 pa n = true → r = traps fPoison) ∧
    (a = .wr → (s.part s.me.t.part).inPool pa n = true → r = traps fPerm))
theorem ld_traps {s : State} {o : LdOp} (hc : s.cRuns o.pr) (n : Nat) (u : Bool) :
    DeviceTraps s (s.me.xr o.a + immWord o.off) n .rd (ld n u o s) :=
  ⟨fun h => ld_untranslated hc (dataPa_misaligned .rd h), fun _ h hx => ld_untranslated hc (dataPa_untranslated h hx),
    fun _ h hh => ⟨fun _ hp => ld_poisoned hc h hh hp, nofun⟩⟩
theorem st_traps {s : State} {o : StOp} (hc : s.cRuns o.pr) (n : Nat) :
    DeviceTraps s (s.me.xr o.a + immWord o.off) n .wr (st n o s) :=
  ⟨fun h => st_untranslated hc (dataPa_misaligned .wr h), fun _ h hx => st_untranslated hc (dataPa_untranslated h hx),
    fun _ h hh => ⟨nofun, fun _ hp => st_inPool hc h hh hp⟩⟩

theorem homeChk_outside {a : Word} (n : Nat) (h : 0x40000 ≤ a.toNat) : homeChk a n = .error (fBound, a) := by
  simp only [homeChk, ge_iff_le, h, if_true]
theorem homeChk_misaligned {a : Word} {n : Nat} (h : a.toNat < 0x40000) (ha : a.toNat % n ≠ 0) :
    homeChk a n = .error (fAlign, a) := by
  simp only [homeChk, ge_iff_le, Nat.not_le.mpr h, ha, ne_eq, not_false_eq_true, if_true, if_false]
/-- What raises a fault at a home access `r` of n bytes at offset `a` (R190). -/
def HomeTraps (s : State) (a : Word) (n : Nat) (rd : Bool) (r : Out) : Prop :=
  let traps (c : Code) : Out := .next (s.trapEntry s.cur.core s.cur.slot c .c s.me.cs.pc a)
  (0x40000 ≤ a.toNat → r = traps fBound) ∧
  (a.toNat < 0x40000 → a.toNat % n ≠ 0 → r = traps fAlign) ∧
  (a.toNat < 0x40000 → a.toNat % n = 0 → rd = true →
    (s.core s.cur.core).spoisoned (0x40000 * s.cur.slot + a.toNat) n = true → r = traps fPoison)
/-- A home access whose check refuses it. -/
theorem home_refused {s : State} {pr : Pred} {a : Word} {n : Nat} {c : Code} {body : State → Res} {f : Unit → Res}
    (hc : s.cRuns pr) (hb : body s = (homeChk a n).then f) (h : homeChk a n = .error (c, a)) :
    instr pr 8 body s = .next (s.trapEntry s.cur.core s.cur.slot c .c s.me.cs.pc a) :=
  (instr_c_trap hc (by rw [hb, h]; rfl)).trans (by rw [State.pc, hc.1]; rfl)
theorem ldx_traps {s : State} {o : LdxOp} (hc : s.cRuns o.pr) (n : Nat) :
    HomeTraps s (s.me.xr o.a + o.imm.signExtend 64) n true (ldx n o s) := by
  refine ⟨fun h => home_refused hc rfl (homeChk_outside n h), fun h ha => home_refused hc rfl (homeChk_misaligned h ha),
    fun h ha _ hp => (instr_c_trap hc ?_).trans (by rw [State.pc, hc.1]; rfl)⟩
  simp only [homeChk_ok h ha, chk_then_ok, State.homePoison, homeBase, hp, if_true]
theorem stx_traps {s : State} {o : StxOp} (hc : s.cRuns o.pr) (n : Nat) :
    HomeTraps s (s.me.xr o.a + o.imm.signExtend 64) n false (stx n o s) :=
  ⟨fun h => home_refused hc rfl (homeChk_outside n h), fun h ha => home_refused hc rfl (homeChk_misaligned h ha),
    fun _ _ h => nomatch h⟩

/-- Settles O7: each width of each access raises what its checks name. -/
theorem accessFaults : Obligations.AccessFaults := by
  unfold Obligations.AccessFaults
  exact ⟨fun s o hc => ⟨ld_traps hc 1 false, ld_traps hc 2 false, ld_traps hc 4 false, ld_traps hc 8 false, ld_traps hc 1 true,
      ld_traps hc 2 true, ld_traps hc 4 true⟩,
    fun s o hc => ⟨st_traps hc 1, st_traps hc 2, st_traps hc 4, st_traps hc 8⟩,
    fun s o hc => ⟨ldx_traps hc 1, ldx_traps hc 2, ldx_traps hc 4, ldx_traps hc 8⟩,
    fun s o hc => ⟨stx_traps hc 1, stx_traps hc 2, stx_traps hc 4, stx_traps hc 8⟩⟩
end Sys2Proof.Machine
end

section
namespace Sys2Proof.Machine

/-! ### Partitions and records after writes of memory, of the journal and of a record -/

@[simp] theorem State.part_pwrite (s : State) (w : Option Agent) (pa : Nat) (l : List Byte) (p : Nat) :
    (s.pwrite w pa l).part p = s.part p := rfl
@[simp] theorem State.part_pwrites (s : State) (w : Option Agent) (ps : List (Nat × Nat)) (l : List Byte) (p : Nat) :
    (s.pwrites w ps l).part p = s.part p := by
  induction ps generalizing s l with
  | nil => rfl
  | cons x t ih => rw [State.pwrites, ih, State.part_pwrite]
@[simp] theorem State.part_cause (s : State) (f v p : Nat) : (s.cause f v).part p = s.part p := rfl
@[simp] theorem State.part_ringWrite (s : State) (f va : Nat) (l : List Byte) (p : Nat) :
    (s.ringWrite f va l).part p = s.part p := by
  unfold State.ringWrite
  split
  · rfl
  · split
    · exact State.part_pwrites ..
    · rfl
@[simp] theorem State.part_journal (s : State) (f : Nat) (e : JEntry) (p : Nat) : (s.journal f e).part p = s.part p := by
  unfold State.journal
  dsimp only
  split
  · rfl
  · split <;> simp
@[simp] theorem State.lrec_journal (s : State) (f : Nat) (e : JEntry) (p i : Nat) : (s.journal f e).lrec p i = s.lrec p i := by
  simp only [State.lrec, State.part_journal]
@[simp] theorem State.part_setLrec (s : State) (p i : Nat) (r : Record) (p' : Nat) :
    (s.setLrec p i r).part p' = if p' = p then { s.part p with recs := (s.part p).recs.put i r } else s.part p' := by
  simp only [State.setLrec, State.part_pwrite, State.part_modPart]
@[simp] theorem State.lrec_setLrec (s : State) (p i : Nat) (r : Record) : (s.setLrec p i r).lrec p i = r := by
  simp only [State.lrec, State.part_setLrec, if_true, Part.lrec, Sparse.get_put]
/-- An update of a partition that leaves its records leaves each record. -/
theorem State.lrec_modPart {s : State} {p i : Nat} {f : Part → Part} (h : (f (s.part p)).recs = (s.part p).recs) :
    (s.modPart p f).lrec p i = s.lrec p i := by
  simp only [State.lrec, State.part_modPart, if_true, Part.lrec, h]

/-! ### Decrements (R31, R33) -/

/-- A record that enters READY takes the stamp that is next. -/
theorem State.lrec_enterReady (s : State) (p i : Nat) : (s.enterReady p i).lrec p i =
    { s.lrec p i with st := .ready, stamp := (s.part p).nextStamp, eligible := decide ((s.lrec p i).h 384 64 ≤ s.now),
                      late := decide ((s.lrec p i).h 384 64 ≠ 0 ∧ (s.lrec p i).h 384 64 < s.now) } := by
  unfold State.enterReady
  dsimp only
  rw [State.lrec_modPart rfl, State.lrec_setLrec]
theorem State.nextStamp_enterReady (s : State) (p i : Nat) :
    ((s.enterReady p i).part p).nextStamp = (s.part p).nextStamp + 1 := by
  simp only [State.enterReady, State.part_modPart, State.part_setLrec, if_true]

theorem decrement_counts {s : State} {p i : Nat} (tag : Nat) (q : Option (Nat × Nat)) (h : (s.lrec p i).st = .armed)
    (hn : 2 ≤ (s.lrec p i).count) :
    s.decrement p i tag q = s.setLrec p i { s.lrec p i with count := (s.lrec p i).count - 1 } := by
  unfold State.decrement
  dsimp only
  rw [if_pos ⟨h, by omega⟩, if_neg (by omega)]
theorem decrement_last {s : State} {p i : Nat} (tag : Nat) (q : Option (Nat × Nat)) (h : (s.lrec p i).st = .armed)
    (hn : (s.lrec p i).count = 1) :
    s.decrement p i tag q = (s.setLrec p i { s.lrec p i with count := 0 }).enterReady p i := by
  unfold State.decrement
  dsimp only
  rw [if_pos ⟨h, by omega⟩, if_pos hn, hn]
theorem lrec_decrement_under {s : State} {p i : Nat} (tag : Nat) (q : Option (Nat × Nat))
    (h : (s.lrec p i).st ≠ .armed ∨ (s.lrec p i).count = 0) :
    (s.decrement p i tag q).lrec p i = { s.lrec p i with
      stopc := fDepunder, st := if (s.lrec p i).st = .ready then .stopped else (s.lrec p i).st,
      depunder := (s.lrec p i).depunder || (s.lrec p i).st == .running } := by
  unfold State.decrement
  dsimp only
  rw [if_neg (by tauto), State.lrec_journal, State.lrec_setLrec]

/-! ### Arms, and the instructions on records (R29, R106 to R109) -/

/-- The states in which the queue engine holds a record. -/
def RecState.held (st : RecState) : Prop := st = .armed ∨ st = .ready ∨ st = .running

theorem arm_held {s : State} {p i : Nat} (w : Option (Nat × Nat × Nat × Nat)) (h : (s.lrec p i).st.held) :
    s.arm p i w = (s, 0) := by
  unfold State.arm
  rcases h with h | h | h <;> simp only [h]
theorem arm_poisoned {s : State} {p i : Nat} (w : Option (Nat × Nat × Nat × Nat)) (h : ¬ (s.lrec p i).st.held)
    (hp : poisoned s.memPoison 64 (s.lrecAddr p i) 64 = true) :
    s.arm p i w = (s.setLrec p i { s.lrec p i with stopc := fPoison }, fPoison) := by
  unfold State.arm
  cases hst : (s.lrec p i).st <;> simp [RecState.held, hst] at h <;> simp only [hst, hp, if_true]
theorem arm_refused {s : State} {p i : Nat} {c : Code} (w : Option (Nat × Nat × Nat × Nat)) (h : ¬ (s.lrec p i).st.held)
    (hp : poisoned s.memPoison 64 (s.lrecAddr p i) 64 = false) (hc : armCheck (s.lrecImage p i) = some c) :
    s.arm p i w = (s.setLrec p i { s.lrec p i with stopc := c }, c) := by
  unfold State.arm
  cases hst : (s.lrec p i).st <;> simp [RecState.held, hst] at h <;>
    simp only [hst, hp, hc, Bool.false_eq_true, if_false]
/-- An arm by device code that its image passes: the record is armed from the image, and READY at once where INIT is 0. -/
theorem arm_accepted {s : State} {p i : Nat} (h : ¬ (s.lrec p i).st.held)
    (hp : poisoned s.memPoison 64 (s.lrecAddr p i) 64 = false) (hc : armCheck (s.lrecImage p i) = none) :
    (s.arm p i none).2 = 0 ∧
    ((s.arm p i none).1.lrec p i).st = (if bitsN (s.lrecImage p i) 32 16 = 0 then .ready else .armed) ∧
    ((s.arm p i none).1.lrec p i).held = BitVec.ofNat 512 (s.lrecImage p i) ∧
    ((s.arm p i none).1.lrec p i).count = bitsN (s.lrecImage p i) 32 16 ∧
    ((s.arm p i none).1.lrec p i).gen = (s.lrec p i).gen := by
  unfold State.arm
  cases hst : (s.lrec p i).st <;> simp [RecState.held, hst] at h <;>
    simp only [hst, hp, hc, Bool.false_eq_true, if_false, State.lrec_journal] <;> split <;>
    simp only [State.lrec_enterReady, State.lrec_setLrec, and_self]

theorem recIdx_ok {s : State} {a : Reg} {imm : BitVec 16} (h : (s.me.xr a + imm.setWidth 64).toNat ≤ 4095) :
    recIdx s a imm = .ok (s.me.xr a + imm.setWidth 64).toNat := by
  simp only [recIdx, zext16, gt_iff_lt, Nat.not_lt.mpr h, if_false]
theorem larm_c {s u : State} {o : LarmOp} {c : Code} (hc : s.cRuns o.pr)
    (h : (s.me.xr o.a + o.imm.setWidth 64).toNat ≤ 4095)
    (ha : s.arm s.me.t.part (s.me.xr o.a + o.imm.setWidth 64).toNat none = (u, c)) :
    exec (.larm o) s = .next (((u.setX o.d
      (recStatus u s.me.t.part (s.me.xr o.a + o.imm.setWidth 64).toNat c.toNat)).wrote).advance (wideLen o.wide)) :=
  (exec_larm o s).trans (instr_c_done hc (by simp only [recIdx_ok h, chk_then_ok, ha]))
theorem lqry_c {s : State} {o : LarmOp} (hc : s.cRuns o.pr) (h : (s.me.xr o.a + o.imm.setWidth 64).toNat ≤ 4095) :
    exec (.lqry o) s =
      let p := s.me.t.part
      let i := (s.me.xr o.a + o.imm.setWidth 64).toNat
      .next ((s.setX o.d (recStatus s p i (s.lrec p i).stopc.toNat)).advance (wideLen o.wide)) :=
  (exec_lqry o s).trans (instr_c_done hc (by simp only [recIdx_ok h, chk_then_ok]))
/-- A patch that its check lets pass. -/
theorem lpatch_c {s : State} {o : LpatchOp} {lo n : Nat} (hc : s.cRuns o.pr)
    (h : (s.me.xr o.a + o.imm.setWidth 64).toNat ≤ 4095) (hk : patchCheck o.sel.toNat (s.me.regLit o.val).toNat = .ok (lo, n)) :
    exec (.lpatch o) s =
      let p := s.me.t.part
      let i := (s.me.xr o.a + o.imm.setWidth 64).toNat
      let u := s.patch p i lo n (s.me.regLit o.val).toNat
      .next (((u.setX o.d (recStatus u p i 0)).wrote).advance (regLitLen o.val)) :=
  (exec_lpatch o s).trans (instr_c_done hc (by simp only [recIdx_ok h, hk, chk_then_ok]))

/-- A decrement changes neither what a record holds nor whose it is. -/
theorem decrement_keeps (s : State) (p i tag : Nat) (q : Option (Nat × Nat)) :
    ((s.decrement p i tag q).lrec p i).gen = (s.lrec p i).gen ∧ ((s.decrement p i tag q).lrec p i).held = (s.lrec p i).held ∧
    ((s.decrement p i tag q).lrec p i).owner = (s.lrec p i).owner := by
  by_cases hst : (s.lrec p i).st = .armed
  · obtain hn | hn | hn : (s.lrec p i).count = 0 ∨ (s.lrec p i).count = 1 ∨ 2 ≤ (s.lrec p i).count := by omega
    · simp only [lrec_decrement_under tag q (.inr hn), and_self]
    · simp only [decrement_last tag q hst hn, State.lrec_enterReady, State.lrec_setLrec, and_self]
    · simp only [decrement_counts tag q hst hn, State.lrec_setLrec, and_self]
  · simp only [lrec_decrement_under tag q (.inl hst), and_self]

/-- Settles O20: a decrement by the state and count that it finds, an arm by what refuses it, a patch by its field. -/
theorem decrementResults : Obligations.DecrementResults := by
  unfold Obligations.DecrementResults
  refine ⟨fun s p i tag from' => ⟨fun h hn => ?_, fun h hn => ?_, fun h => ?_, decrement_keeps s p i tag from'⟩,
    fun s o hc => ?_, fun s o hc => ?_⟩
  · rw [decrement_counts tag from' h hn, State.lrec_setLrec]
    exact ⟨h, rfl⟩
  · simp only [decrement_last tag from' h hn, State.lrec_enterReady, State.nextStamp_enterReady, State.lrec_setLrec,
      State.part_setLrec, if_true, and_self]
  · rw [lrec_decrement_under tag from' h]
    exact ⟨rfl, rfl, rfl, fun hr => by simp [hr]⟩
  · intro i p r len v held gives hi
    have arms (u : State) (c : Code) (h : s.arm p i none = (u, c)) : gives u c := larm_c hc hi h
    refine ⟨lqry_c hc hi, fun h => arms _ _ (arm_held none h), fun h hp => arms _ _ (arm_poisoned none h hp),
      fun h hp c hk => arms _ _ (arm_refused none h hp hk), fun h hp hk => ?_⟩
    obtain ⟨h0, hst, hheld, hcount, hgen⟩ := arm_accepted h hp hk
    exact ⟨(s.arm p i none).1, arms _ _ (Prod.ext rfl h0), hst, hheld, hcount, hgen⟩
  · intro i p v gives hi
    have patches (lo n : Nat) (h : patchCheck o.sel.toNat v = .ok (lo, n)) : gives lo n := lpatch_c hc hi h
    refine ⟨fun hs hv => patches 3 2 ?_, fun hs hv => patches 32 16 ?_, fun hs hv => patches 48 16 ?_,
      fun hs hv => patches 256 32 ?_, fun hs => patches 384 64 ?_, fun hs hv ha => patches 320 64 ?_,
      fun hs hv ha => patches 192 64 ?_, fun hs hv ha => patches 64 64 ?_⟩
    all_goals
      rw [hs]
      simp_all [patchCheck]
end Sys2Proof.Machine
end

section
namespace Sys2Proof.Machine

/-! ### Register writes by the host (R465, R473) -/

/-- Bits [51:lo] of an address, as a mask. -/
theorem addrBits_eq (lo : Nat) (v : Word) : addrBits lo v = v &&& BitVec.ofNat 64 ((2 ^ (52 - lo) - 1) * 2 ^ lo) := by
  have hmask : bitsN v.toNat lo (52 - lo) * 2 ^ lo = v.toNat &&& (2 ^ (52 - lo) - 1) * 2 ^ lo := by
    apply Nat.eq_of_testBit_eq
    intro i
    by_cases h : lo ≤ i
    · obtain ⟨j, rfl⟩ := Nat.exists_eq_add_of_le h
      rw [Nat.add_comm lo j]
      simp [bitsN, Nat.testBit_mul_two_pow, Nat.testBit_mod_two_pow, Nat.testBit_div_two_pow, Nat.testBit_two_pow_sub_one,
        Bool.and_comm]
    · simp [Nat.testBit_mul_two_pow, h]
  apply BitVec.eq_of_toNat_eq
  rw [addrBits, hmask, BitVec.toNat_ofNat, BitVec.toNat_and, BitVec.toNat_ofNat]
  apply Nat.eq_of_testBit_eq
  intro i
  simp only [Nat.testBit_mod_two_pow, Nat.testBit_and]
  cases decide (i < 64) <;> simp

theorem registerWrite_notReady {s : State} {f o : Nat} (v : Word) (h : f ≠ 0 ∨ o ≠ 0x8008) (hr : (s.fn f).ready = false) :
    exec (.registerWrite ⟨f, o, v⟩) s = .next s := by
  simp only [exec_registerWrite, execRegisterWrite, hr, show ¬ (f = 0 ∧ o = 0x8008) by tauto, if_false, Bool.not_false,
    Bool.true_or, if_true]
theorem registerWrite_block {s : State} {f off : Nat} (v : Word) (hr : (s.fn f).ready = true) (hf : f ≤ 128) (h8 : off % 8 = 0)
    (hb : off < 0x1000) : exec (.registerWrite ⟨f, off, v⟩) s = .next (s.blockWrite f off v) := by
  simp only [exec_registerWrite, execRegisterWrite, hr, show ¬ (f = 0 ∧ off = 0x8008) by omega, if_false, h8, hb, if_true,
    show ¬ f > 128 by omega, Bool.not_true, ne_eq, not_true_eq_false, decide_false, Bool.or_self, Bool.false_eq_true]
theorem pcfgAt_block {p x : Nat} (hp : p < 20) (hx : x < 0x10000) : pcfgAt (0x100000 + 0x10000 * p + x) = some (p, x) := by
  unfold pcfgAt
  rw [if_pos (by omega), show (0x100000 + 0x10000 * p + x - 0x100000) / 0x10000 = p by omega,
    show (0x100000 + 0x10000 * p + x) % 0x10000 = x by omega]
theorem registerWrite_pcfg {s : State} {p x : Nat} (v : Word) (hr : (s.fn 0).ready = true) (hp : p < 20) (hx : x < 0x10000)
    (h8 : x % 8 = 0) : exec (.registerWrite ⟨0, 0x100000 + 0x10000 * p + x, v⟩) s = .next (s.pcfgWrite p x v) := by
  have h8' : (0x100000 + 0x10000 * p + x) % 8 = 0 := by omega
  simp only [exec_registerWrite, execRegisterWrite, hr, pcfgAt_block hp hx, h8', ne_eq, not_true_eq_false, decide_false,
    Bool.not_true, Bool.or_self, Bool.false_eq_true, if_false, show ¬ (0x100000 + 0x10000 * p + x = 0x8008) by omega, and_false,
    show ¬ (0 > 128) by omega, show ¬ (0x100000 + 0x10000 * p + x < 0x1000) by omega,
    show ¬ ((0x1040 ≤ 0x100000 + 0x10000 * p + x ∧ 0x100000 + 0x10000 * p + x < 0x1060) ∨
      (0x2000 ≤ 0x100000 + 0x10000 * p + x ∧ 0x100000 + 0x10000 * p + x < 0x2040)) by omega]

theorem mailOpen_iff (s : State) :
    s.mailOpen = true ↔ s.mgmt.rmBusy = false ∧ ((s.fn 0).ready = true ∨ s.mgmt.recov = true) := by
  simp only [State.mailOpen, Bool.and_eq_true, Bool.or_eq_true, Bool.not_eq_true', and_comm]
/-- RMIDX takes a write when the mailbox is idle, in recovery too. -/
theorem registerWrite_rmIdx (s : State) (v : Word) : exec (.registerWrite ⟨0, 0x8008, v⟩) s =
    .next (if s.mgmt.rmBusy = false ∧ ((s.fn 0).ready = true ∨ s.mgmt.recov = true)
      then { s with mgmt := { s.mgmt with rmIdx := v.toNat } } else s) := by
  simp only [exec_registerWrite, execRegisterWrite, and_self, if_true, mailOpen_iff]
  rfl

/-! Registers of a function. -/

theorem blockWrite_jbase (s : State) (f : Nat) (v : Word) :
    s.blockWrite f 0x200 v = s.modFn f fun fn => { fn with jbase := v &&& 0xFFFFFFFFFF000 } := by
  rw [show (0xFFFFFFFFFF000 : Word) = BitVec.ofNat 64 ((2 ^ (52 - 12) - 1) * 2 ^ 12) by decide, ← addrBits_eq]
  rfl
theorem blockWrite_frbase (s : State) (f : Nat) (v : Word) :
    s.blockWrite f 0x600 v = s.modFn f fun fn => { fn with frbase := v &&& 0xFFFFFFFFFF000 } := by
  rw [show (0xFFFFFFFFFF000 : Word) = BitVec.ofNat 64 ((2 ^ (52 - 12) - 1) * 2 ^ 12) by decide, ← addrBits_eq]
  rfl
theorem blockWrite_jcfg (s : State) (f : Nat) (v : Word) : s.blockWrite f 0x208 v =
    s.modFn f fun fn => { fn with jen := (ringCfg 8 16 v (fn.jen, fn.jlsz)).1, jlsz := (ringCfg 8 16 v (fn.jen, fn.jlsz)).2 } := rfl
theorem ringCfg_valid {lo hi : Nat} {v : Word} (old : Bool × Nat) (h : lo ≤ v.toNat / 2 % 32 ∧ v.toNat / 2 % 32 ≤ hi) :
    ringCfg lo hi v old = (v.getLsbD 0, v.toNat / 2 % 32) := by
  show (if v.toNat / 2 % 32 < lo ∨ hi < v.toNat / 2 % 32 then old else (v.getLsbD 0, v.toNat / 2 % 32)) = _
  rw [if_neg (by omega)]
theorem ringCfg_invalid {lo hi : Nat} {v : Word} (old : Bool × Nat) (h : ¬ (lo ≤ v.toNat / 2 % 32 ∧ v.toNat / 2 % 32 ≤ hi)) :
    ringCfg lo hi v old = old := by
  show (if v.toNat / 2 % 32 < lo ∨ hi < v.toNat / 2 % 32 then old else (v.getLsbD 0, v.toNat / 2 % 32)) = _
  rw [if_pos (by omega)]

/-! Partition configuration: masks and the pool base change while no task is seated. -/

/-- The same function mask loads and leaves no function record. -/
theorem State.remask_same (s : State) (p : Nat) : s.remask p (s.part p).funcMask = s := by
  refine List.foldl_fixed' (fun f => ?_) _
  cases (s.part p).funcMask.getLsbD f <;> rfl
theorem pcfgMaskWrite_coreMask {s : State} {p : Nat} (v : Word) (hr : (s.fn 0).ready = true) (hp : p < 20) {q : Part}
    (hq : q = { s.part p with coreMask := BitVec.ofNat 192 (setBitsN (s.part p).coreMask.toNat 0 64 v.toNat) }) :
    exec (.pcfgMaskWrite ⟨0, 0x100000 + 0x10000 * p, v⟩) s =
      .next (if s.noneSeated (s.part p) && s.noneSeated q && s.maskFree p q then s.putPart p q
        else s.modPart p fun q => { q with pcfgErr := true }) := by
  have hat : pcfgAt (0x100000 + 0x10000 * p) = some (p, 0) := pcfgAt_block hp (x := 0) (by decide)
  have hw : (s.part p).maskWrite 0 v = some q := by rw [hq]; rfl
  have hm : s.remask p q.funcMask = s := by rw [hq]; exact s.remask_same p
  rw [exec_pcfgMaskWrite]
  simp only [execPcfgMaskWrite, hr, hat, hw, hm, show (0x100000 + 0x10000 * p) % 8 = 0 by omega, Bool.not_true, bne_self_eq_false,
    Bool.or_self, ne_eq, not_true_eq_false, decide_false, Bool.false_eq_true, if_false, apply_ite Host.Outcome.next]
  rw [hq]
  rfl
/-- Records that are held, or a seated task, keep the pool base. -/
theorem poolbaseWrite_refused {s : State} {p : Nat} (v : Word) (hr : (s.fn 0).ready = true) (hp : p < 20)
    (h : (∃ x ∈ (s.part p).recs, x.2.st = .armed ∨ x.2.st = .ready ∨ x.2.st = .running) ∨ s.noneSeated (s.part p) = false) :
    exec (.poolbaseWrite ⟨0, 0x100000 + 0x10000 * p + 0x138, v⟩) s =
      .next (s.modPart p fun q => { q with pcfgErr := true }) := by
  have hbusy : ((s.part p).recs.any (fun (_, r) => r.st == .armed || r.st == .ready || r.st == .running) ||
      !s.noneSeated (s.part p)) = true := by
    rw [Bool.or_eq_true, List.any_eq_true, Bool.not_eq_true']
    exact h.imp_left fun ⟨x, hx, hst⟩ => ⟨x, hx, by rcases hst with h | h | h <;> simp [h]⟩
  rw [exec_poolbaseWrite]
  simp only [execPoolbaseWrite, hr, pcfgAt_block hp (x := 0x138) (by decide), Bool.not_true, bne_self_eq_false, Bool.or_self,
    Bool.false_eq_true, if_false]
  rw [if_pos hbusy]
theorem poolbaseWrite_taken {s : State} {p : Nat} (v : Word) (hr : (s.fn 0).ready = true) (hp : p < 20)
    (h : ∀ x ∈ (s.part p).recs, x.2.st ≠ .armed ∧ x.2.st ≠ .ready ∧ x.2.st ≠ .running) (hn : s.noneSeated (s.part p) = true) :
    exec (.poolbaseWrite ⟨0, 0x100000 + 0x10000 * p + 0x138, v⟩) s = .next ((s.modPart p fun q =>
      { q with poolBase := v &&& 0xFFFFFFFFF0000, recs := [] }).pwrite none (v &&& 0xFFFFFFFFF0000).toNat
        (List.replicate 0x40000 0)) := by
  have hfree : ((s.part p).recs.any (fun (_, r) => r.st == .armed || r.st == .ready || r.st == .running) ||
      !s.noneSeated (s.part p)) = false := by
    rw [hn, Bool.not_true, Bool.or_false, List.any_eq_false]
    exact fun x hx => by simp [h x hx]
  have hb : addrBits 16 v = v &&& 0xFFFFFFFFF0000 := addrBits_eq 16 v
  rw [exec_poolbaseWrite]
  simp only [execPoolbaseWrite, hr, pcfgAt_block hp (x := 0x138) (by decide), Bool.not_true, bne_self_eq_false, Bool.or_self,
    Bool.false_eq_true, if_false, hb]
  rw [if_neg (by rw [hfree]; decide)]

/-- A REQ that is written to FN_SWCTL of a function of the partition is acted on. -/
theorem recordWrite_swctl {s : State} {p f : Nat} (v : Word) (hf : (s.part p).funcMask.getLsbD f = true) :
    s.recordWrite p f 0x18 v = if v.toNat % 4 = 1 then (s.modFn f fun fn => { fn with save := v.getLsbD 2 }).switchOut f
      else if v.toNat % 4 = 2 then (s.modFn f fun fn => { fn with save := v.getLsbD 2 }).switchIn f
      else s.modFn f fun fn => { fn with save := v.getLsbD 2 } := by
  have hreq : bitsN v.toNat 0 2 = v.toNat % 4 := by simp [bitsN]
  simp only [State.recordWrite, hf, if_true, hreq, ne_eq, not_true_eq_false, if_false, Func.recordWrite]
  split
  · next h => rw [if_pos h]
  · next h => rw [if_neg (by omega), if_pos h]
  · next h1 h2 => rw [if_neg h1, if_neg h2]
theorem pcfgWrite_swctl {s : State} {p f : Nat} (v : Word) (hf : f < 129) :
    s.pcfgWrite p (0x818 + 64 * f) v = s.recordWrite p f 0x18 v := by
  unfold State.pcfgWrite
  rw [if_pos (by omega), show (0x818 + 64 * f - 0x800) / 64 = f by omega, show (0x818 + 64 * f) % 64 = 0x18 by omega]

/-! The host's windows (R381, R467). -/

theorem winPieces_none {s : State} {f off n : Nat} (a : Acc) (h : 2 ^ (s.fn f).wlog < off + n) : s.winPieces f off n a = none := by
  simp only [State.winPieces, State.winVa, Nat.not_le.mpr h, and_false, if_false]
theorem winPieces_some {s : State} {f off n p : Nat} {a : Acc} {ps : List (Nat × Nat)} (hw : 16 ≤ (s.fn f).wlog)
    (h : off + n ≤ 2 ^ (s.fn f).wlog) (hp : s.partOfFn f = some p)
    (hx : s.pieces none f p a ((s.fn f).wbase.toNat + off) n = .ok ps) : s.winPieces f off n a = some ps := by
  simp only [State.winPieces, State.winVa, hw, h, and_self, if_true, hp, hx]
  rfl

/-- Settles O45: a write by the register that its offset names, a window access by what its window is. -/
theorem hostAccessResults : Obligations.HostAccessResults := by
  unfold Obligations.HostAccessResults
  refine ⟨fun s f v => ?_, fun s p v hr hp => ?_, fun s f q hq => ?_, fun s f off n l => ?_⟩
  · refine ⟨fun o h hr => registerWrite_notReady v h hr, registerWrite_rmIdx s v, fun h => ?_, fun h => ?_, fun h hl => ?_,
      fun h hl => ?_, fun h => registerWrite_block v h.1 h.2 rfl (by decide), fun h => registerWrite_block v h.1 h.2 rfl (by decide)⟩
    · rw [registerWrite_block v h.1 h.2 rfl (by decide), blockWrite_jbase]
    · rw [registerWrite_block v h.1 h.2 rfl (by decide), blockWrite_frbase]
    · rw [registerWrite_block v h.1 h.2 rfl (by decide), blockWrite_jcfg]
      simp only [ringCfg_valid _ hl]
    · refine ⟨_, registerWrite_block v h.1 h.2 rfl (by decide), fun g => ?_⟩
      simp only [blockWrite_jcfg, ringCfg_invalid _ hl, State.fn_modFn]
      split
      · next h => rw [h]
      · rfl
  · refine ⟨registerWrite_pcfg v hr hp (by decide) rfl, ?_, fun f hf hm => ?_, fun q hq => pcfgMaskWrite_coreMask v hr hp hq,
      poolbaseWrite_refused v hr hp, poolbaseWrite_taken v hr hp⟩
    · refine (registerWrite_pcfg v hr hp (by decide) rfl).trans ?_
      rw [show (0xFFFFFFFC00000 : Word) = BitVec.ofNat 64 ((2 ^ (52 - 22) - 1) * 2 ^ 22) by decide, ← addrBits_eq]
      rfl
    · dsimp only
      rw [show 0x100000 + 0x10000 * p + 0x800 + 64 * f + 0x18 = 0x100000 + 0x10000 * p + (0x818 + 64 * f) by omega,
        registerWrite_pcfg v hr hp (by omega) (by omega), pcfgWrite_swctl v hf, recordWrite_swctl v hm]
  · refine ⟨?_, fun hr => ?_⟩
    · rw [exec_interruptCoalesceTimeout, execInterruptCoalesceTimeout, if_neg (Nat.not_lt.mpr hq)]
      rfl
    · rw [exec_msixUnmask, execMsixUnmask, if_neg (by simpa [hr] using hq)]
      rfl
  · rw [exec_hostWindowRead, exec_hostWindowWrite]
    refine ⟨fun hr => ?_, fun hr h => ?_, fun hr h => ?_, fun p ps hr hw hp => ⟨fun h hx hps => ?_, fun h hx => ?_⟩, rfl⟩
    · simp only [execHostWindowRead, execHostWindowWrite, hr, Bool.not_false, if_true, and_self]
    · simp only [execHostWindowRead, hr, winPieces_none .rd h, Bool.not_true, Bool.false_eq_true, if_false]
    · simp only [execHostWindowWrite, hr, winPieces_none .wr h, Bool.not_true, Bool.false_eq_true, if_false]
    · simp only [execHostWindowRead, hr, winPieces_some hw h hp hx, hps, Bool.not_true, Bool.false_eq_true, if_false]
    · simp only [execHostWindowWrite, hr, winPieces_some hw h hp hx, Bool.not_true, Bool.false_eq_true, if_false]
end Sys2Proof.Machine
end

section
namespace Sys2Proof.Machine

/-! ### The best of a list, found in one pass -/

/-- `best` stands for one of the elements of `l` that satisfy `p`, and for one that is at least as good as each of these. -/
structure BestOf {α β : Type} (p : α → Prop) (g : α → β) (le : β → β → Prop) (l : List α) (best : Option β) : Prop where
  mem : ∀ b, best = some b → ∃ a ∈ l, p a ∧ g a = b
  le : ∀ a ∈ l, p a → ∃ b, best = some b ∧ le b (g a)

theorem bestOf_foldl {α β : Type} {p : α → Prop} {g : α → β} {le : β → β → Prop} {f : Option β → α → Option β}
    (hrefl : ∀ b, le b b) (htrans : ∀ a b c, le a b → le b c → le a c) (hskip : ∀ b a, ¬ p a → f b a = b)
    (hfirst : ∀ a, p a → f none a = some (g a))
    (hnext : ∀ b a, p a → f (some b) a = some b ∧ le b (g a) ∨ f (some b) a = some (g a) ∧ le (g a) b) (l : List α) :
    BestOf p g le l (l.foldl f none) := by
  induction l using List.reverseRecOn with
  | nil => exact ⟨nofun, nofun⟩
  | append_singleton t a ih =>
    rw [List.foldl_append, List.foldl_cons, List.foldl_nil]
    generalize t.foldl f none = best at ih
    have kept (h : ∀ x, best = some x → p a → le x (g a)) (hn : best = none → ¬ p a) : BestOf p g le (t ++ [a]) best := by
      refine ⟨fun b hb => ?_, fun y hy hp => ?_⟩
      · obtain ⟨x, hx, hpx⟩ := ih.mem b hb
        exact ⟨x, by simp [hx], hpx⟩
      · rcases List.mem_append.mp hy with hy | hy
        · exact ih.le y hy hp
        · obtain rfl := List.mem_singleton.mp hy
          cases best with
          | none => exact absurd hp (hn rfl)
          | some x => exact ⟨x, rfl, h x rfl hp⟩
    have taken (hp : p a) (h : ∀ x, best = some x → le (g a) x) : BestOf p g le (t ++ [a]) (some (g a)) := by
      refine ⟨fun b hb => ⟨a, by simp, hp, Option.some.inj hb⟩, fun y hy hpy => ⟨_, rfl, ?_⟩⟩
      rcases List.mem_append.mp hy with hy | hy
      · obtain ⟨x, hx, hle⟩ := ih.le y hy hpy
        exact htrans _ _ _ (h x hx) hle
      · obtain rfl := List.mem_singleton.mp hy
        exact hrefl _
    by_cases hp : p a
    · cases best with
      | none => rw [hfirst a hp]; exact taken hp nofun
      | some b =>
        rcases hnext b a hp with ⟨he, hle⟩ | ⟨he, hle⟩
        · rw [he]; exact kept (fun x hx _ => Option.some.inj hx ▸ hle) nofun
        · rw [he]; exact taken hp fun x hx => Option.some.inj hx ▸ hle
    · rw [hskip best a hp]
      exact kept (fun _ _ h => absurd h hp) fun _ => hp

/-! ### Gates (R30, R102, R103) -/

/-- One record in the search for the gate that is next: it takes the place of the best before it when it is more urgent, or as
urgent and ready longer. -/
def Part.nextOf (q : Part) (best : Option (Nat × Record)) (x : Nat × Record) : Option (Nat × Record) :=
  if x.2.st = .ready ∧ x.2.eligible then
    match best with
    | none => some x
    | some b =>
      if x.2.h 3 2 < b.2.h 3 2 ∨
        (x.2.h 3 2 = b.2.h 3 2 ∧ (q.nextStamp - b.2.stamp).toNat < (q.nextStamp - x.2.stamp).toNat) then some x else some b
  else best
theorem Part.nextReady_eq (q : Part) : q.nextReady = (q.recs.foldl q.nextOf none).map (·.1) := by
  show Option.map _ (List.foldl _ none q.recs) = _
  congr 2
  funext best x
  cases best <;> rfl
theorem Part.bestOf_nextOf (q : Part) : BestOf (fun x : Nat × Record => x.2.st = .ready ∧ x.2.eligible = true) id
    (fun x y => x.2.h 3 2 ≤ y.2.h 3 2) q.recs (q.recs.foldl q.nextOf none) := by
  refine bestOf_foldl (f := q.nextOf) (g := id) (le := fun x y => x.2.h 3 2 ≤ y.2.h 3 2) (fun _ => Nat.le_refl _)
    (fun _ _ _ => Nat.le_trans) (fun _ _ hp => if_neg hp) (fun _ hp => if_pos hp) (fun b x hp => ?_) q.recs
  simp only [Part.nextOf, if_pos hp, id]
  split
  · exact .inr ⟨rfl, by omega⟩
  · exact .inl ⟨rfl, by omega⟩
/-- The record whose gate is next is ready and eligible, and none such is more urgent. -/
theorem Part.nextReady_spec {q : Part} {i : Nat} (h : q.nextReady = some i) :
    ∃ r, (i, r) ∈ q.recs ∧ r.st = .ready ∧ r.eligible = true ∧
      ∀ x ∈ q.recs, x.2.st = .ready → x.2.eligible = true → r.h 3 2 ≤ x.2.h 3 2 := by
  rw [q.nextReady_eq] at h
  obtain ⟨⟨j, r⟩, hb, rfl⟩ := Option.map_eq_some_iff.mp h
  obtain ⟨_, ha, ⟨hst, hel⟩, rfl⟩ := q.bestOf_nextOf.mem _ hb
  refine ⟨r, ha, hst, hel, fun x hx h1 h2 => ?_⟩
  obtain ⟨b, hb', hle⟩ := q.bestOf_nextOf.le x hx ⟨h1, h2⟩
  obtain rfl := Option.some.inj (hb.symm.trans hb')
  exact hle

/-- The state once the gate of record i has opened: the DISPATCH entry is written, and the partition has opened one gate more. -/
def State.dispatched (s : State) (p i : Nat) : State :=
  (s.journal (s.lrecOwner p i) ⟨5, (s.lrec p i).armPseq, 0, 0, i, 0, (s.lrec p i).gen.toNat⟩).modPart p
    fun q => { q with gates := q.gates + 1 }
/-- The gate of a record with work opens its job. -/
def State.startJob (s : State) (p i : Nat) (r : Record) (d : Deal) : State :=
  (s.setLrec p i { r with st := .running }).modPart p fun q =>
    { q with
      jobs := q.jobs ++ [{
        recIdx := i, no := q.gates, gang := d.gang, cards := d.cards, cardAddrs := d.addrs, pipes := d.desc,
        n := (nth 0 d.cards 0).records, uncut := dealRuns (nth 0 d.cards 0).spatial (nth 0 d.cards 0).records q.dies.length,
        cutAny := false, live := 0, stopCode := none, hasD := (nth 0 d.cards 0).spatial.any fun (k, _) => k == 2 }] }
theorem gateOpen_none {s : State} {p : Nat} (h : s.gate p = none) : exec (.gateOpen p) s = .next s := by
  rw [exec_gateOpen, execGateOpen, h]
theorem gateOpen_some {s : State} {p i : Nat} (h : s.gate p = some i) : exec (.gateOpen p) s = .next (s.openGate p i) := by
  rw [exec_gateOpen, execGateOpen, h]
theorem gate_dealing {s : State} {p : Nat} (h : 4 ≤ ((s.part p).jobs.filter (s.part p).undealt).length) : s.gate p = none := by
  simp only [State.gate, h, decide_true, Bool.or_true, if_true]
theorem nextReady_of_gate {s : State} {p i : Nat} (h : s.gate p = some i) : (s.part p).nextReady = some i := by
  simp only [State.gate] at h
  split at h
  · cases h
  · exact h
theorem openGate_empty {s : State} {p i : Nat} (h : (s.lrec p i).h 64 64 = 0) :
    s.openGate p i = ((s.dispatched p i).setLrec p i { s.lrec p i with st := .running }).completeLrec p i := if_pos h
theorem openGate_refused {s : State} {p i : Nat} {e : Code} (h : (s.lrec p i).h 64 64 ≠ 0)
    (hw : (s.dispatched p i).openWork (s.lrecOwner p i) p (s.lrec p i) = .error e) :
    s.openGate p i = (s.dispatched p i).stopLrec p i e := by
  simp only [State.dispatched] at hw
  simp only [State.openGate, h, if_false, hw, State.dispatched]
theorem openGate_work {s : State} {p i : Nat} {d : Deal} (h : (s.lrec p i).h 64 64 ≠ 0)
    (hw : (s.dispatched p i).openWork (s.lrecOwner p i) p (s.lrec p i) = .ok d) :
    s.openGate p i = if (nth 0 d.cards 0).records = 0 then
        ((s.dispatched p i).setLrec p i { s.lrec p i with st := .running }).completeLrec p i
      else (s.dispatched p i).startJob p i (s.lrec p i) d := by
  simp only [State.dispatched] at hw
  simp only [State.openGate, h, if_false, hw, State.dispatched, State.startJob]
@[simp] theorem gates_dispatched (s : State) (p i : Nat) : ((s.dispatched p i).part p).gates = (s.part p).gates + 1 := by
  simp only [State.dispatched, State.part_modPart, if_true, State.part_journal]

/-! ### Chunks (R122) -/

theorem cut_full {q : Part} {j : Nat} (h : 64 ≤ (q.queue j).length + q.inTransit j) : q.cut j = none := if_pos h
theorem cut_none {q : Part} {j : Nat} (h : q.nextCut j = none) : q.cut j = none := by
  simp only [Part.cut, h, ite_self]
/-- A chunk of a job joins the tail of its die's queue. -/
theorem queue_cut {q : Part} {j a n : Nat} {x : Job} {rest : List (Nat × Nat)} (hroom : (q.queue j).length + q.inTransit j < 64)
    (hx : q.nextCut j = some x) (hu : nth [] x.uncut j = (a, n) :: rest) :
    ∃ q', q.cut j = some q' ∧ q'.queue j = q.queue j ++
      [⟨x.recIdx, a, x.chunk ((a, n) :: rest) (q.dieCores j).length, 0, x.hasD, x.gang⟩] := by
  simp only [Part.cut, ge_iff_le, Nat.not_le.mpr hroom, if_false, hx, hu]
  exact ⟨_, rfl, by simp only [Part.queue, Part.setQueue, Sparse.get_put, if_true]; rfl⟩
theorem sumN_cons (n : Nat) (l : List Nat) : sumN (n :: l) = n + sumN l := by
  simp only [sumN, ← List.sum_eq_foldl, List.sum_cons]
theorem chunk_single {x : Job} (h : x.gang = false) (a n : Nat) (rest : List (Nat × Nat)) (cd : Nat) :
    x.chunk ((a, n) :: rest) cd = min (max (ceilDiv (n + sumN (rest.map (·.2))) (2 * (8 * cd)))
      (max 1 ((nth 0 x.cards 0).f 144 16))) (min (n + sumN (rest.map (·.2))) n) := by
  simp only [Job.chunk, Job.slots, h, Bool.false_eq_true, if_false, List.map_cons, sumN_cons]
  rfl

/-- Settles O42: the search for the gate that is next, the branches of its opening, and the cut of a chunk. -/
theorem gateAndChunkResults : Obligations.GateAndChunkResults := by
  unfold Obligations.GateAndChunkResults
  refine ⟨fun s p => ⟨gateOpen_none, fun h => gateOpen_none (gate_dealing h),
    fun i h => Part.nextReady_spec (nextReady_of_gate h), fun i h h0 => ?_, fun i h h0 => ⟨fun e hw => ?_, fun d hw => ?_⟩⟩,
    fun s p j => ?_⟩
  · exact (gateOpen_some h).trans (congrArg _ (openGate_empty h0))
  · exact (gateOpen_some h).trans (congrArg _ (openGate_refused h0 hw))
  · have hg := gateOpen_some h
    rw [openGate_work h0 hw] at hg
    refine ⟨fun hn => ?_, fun hn => ?_⟩
    · rwa [if_pos hn] at hg
    · rw [if_neg hn] at hg
      refine ⟨_, hg, ?_, ?_, ?_⟩
      · rw [State.startJob, State.lrec_modPart rfl, State.lrec_setLrec]
      · simp only [State.startJob, State.part_modPart, State.part_setLrec, if_true, gates_dispatched]
      · simp only [State.startJob, State.part_modPart, State.part_setLrec, if_true]
        exact ⟨_, List.mem_append_right _ (List.mem_singleton.mpr rfl), rfl, rfl, rfl, rfl, rfl⟩
  · rw [exec_chunkCut, execChunkCut]
    refine ⟨fun h => by rw [cut_full h], fun h => by rw [cut_none h], fun x a n rest hroom hx hu hgang => ?_⟩
    obtain ⟨q', hcut, hq⟩ := queue_cut hroom hx hu
    refine ⟨s.putPart p q', by rw [hcut], ?_⟩
    rw [State.part_putPart, if_pos rfl, hq, chunk_single hgang, hgang]
end Sys2Proof.Machine
end

section
namespace Sys2Proof.Machine

/-! ### The slot taken (R124) -/

/-- One core in the search for the one with most free slots. -/
def State.roomier (s : State) (p : Nat) (best : Option (Nat × Nat)) (c : Nat) : Option (Nat × Nat) :=
  match best with
  | none => if (s.freeSlots p c).length = 0 then none else some (c, (s.freeSlots p c).length)
  | some b => if b.2 < (s.freeSlots p c).length then some (c, (s.freeSlots p c).length) else some b
theorem State.bestSlot_eq (s : State) (p j : Nat) : s.bestSlot p j =
    (((s.part p).dieCores j).foldl (s.roomier p) none).map fun x => ⟨x.1, nth 0 (s.freeSlots p x.1) 0⟩ := by
  show Option.map _ (List.foldl _ none _) = _
  congr 2
  funext best c
  cases best <;> rfl
theorem State.bestOf_roomier (s : State) (p : Nat) (l : List Nat) : BestOf (fun c => (s.freeSlots p c).length ≠ 0)
    (fun c => (c, (s.freeSlots p c).length)) (fun x y : Nat × Nat => y.2 ≤ x.2) l (l.foldl (s.roomier p) none) := by
  refine bestOf_foldl (f := s.roomier p) (p := fun c => (s.freeSlots p c).length ≠ 0)
    (g := fun c => (c, (s.freeSlots p c).length)) (le := fun x y : Nat × Nat => y.2 ≤ x.2) (fun _ => Nat.le_refl _)
    (fun _ _ _ h g => Nat.le_trans g h) (fun best c hc => ?_)
    (fun c hc => if_neg hc) (fun b c hc => ?_) l
  · rw [not_not] at hc
    cases best with
    | none => exact if_pos hc
    | some b => exact if_neg (by omega)
  · by_cases h : b.2 < (s.freeSlots p c).length
    · exact .inr ⟨if_pos h, Nat.le_of_lt h⟩
    · exact .inl ⟨if_neg h, Nat.not_lt.mp h⟩
theorem nth_zero_mem {l : List Nat} (h : l.length ≠ 0) : nth 0 l 0 ∈ l := by
  cases l with
  | nil => exact absurd rfl h
  | cons a t => exact List.mem_cons_self
/-- The slot taken is free, on a core of the die with most free slots. -/
theorem bestSlot_spec {s : State} {p j : Nat} {k : SlotId} (h : s.bestSlot p j = some k) :
    k.core ∈ (s.part p).dieCores j ∧ k.slot ∈ s.freeSlots p k.core ∧
    ∀ c ∈ (s.part p).dieCores j, (s.freeSlots p c).length ≤ (s.freeSlots p k.core).length := by
  rw [s.bestSlot_eq] at h
  obtain ⟨b, hb, rfl⟩ := Option.map_eq_some_iff.mp h
  have hbest := s.bestOf_roomier p ((s.part p).dieCores j)
  obtain ⟨c, hc, hne, rfl⟩ := hbest.mem b hb
  refine ⟨hc, nth_zero_mem hne, fun c' hc' => ?_⟩
  by_cases h0 : (s.freeSlots p c').length = 0
  · omega
  · obtain ⟨x, hx, hle⟩ := hbest.le c' hc' h0
    rw [hb] at hx
    obtain rfl := Option.some.inj hx
    exact hle

/-! ### Seating (R16, R124, R127) -/

@[simp] theorem State.slotAt_grant (s : State) (f c k : Nat) : (s.grant f).1.slotAt c k = s.slotAt c k := by
  unfold State.grant
  dsimp only
  split <;> rfl
/-- The task that member m of an entry is seated with. -/
def State.seatedTask (s : State) (p : Nat) (x : Job) (e : TaskEntry) (slots : List SlotId) (rings : List Nat) (m : Nat) : Task :=
  let gen := (s.lrec p x.recIdx).gen
  let c0 := nth 0 x.cards 0
  let c := nth 0 x.cards m
  { noTask with
    part := p, recIdx := x.recIdx, gen := gen, fn := s.lrecOwner p x.recIdx, card := nth 0 x.cardAddrs m
    entry := BitVec.ofNat 64 (c.f 0 64), x1 := BitVec.ofNat 64 (c0.f 64 64 + e.first * c0.f 128 16)
    x2 := BitVec.ofNat 64 e.count, x3 := BitVec.ofNat 64 e.first, x5 := BitVec.ofNat 64 (x.recIdx + gen.toNat * 2 ^ 32)
    refire := c.f 168 4, caps := c.f 240 8, captab := BitVec.ofNat 64 (c.f 320 64), mates := slots, member := m
    binds := pipeBinds x.pipes.pipes rings slots m }
theorem task_seatMember (s : State) (p : Nat) (x : Job) (e : TaskEntry) (slots : List SlotId) (rings : List Nat) (m c k : Nat) :
    ((s.seatMember p x e slots rings m).slotAt c k).task =
      if nth ⟨0, 0⟩ slots m = ⟨c, k⟩ then some (s.seatedTask p x e slots rings m) else (s.slotAt c k).task := by
  unfold State.seatMember
  simp only [State.slotAt_modSlot, State.slotAt_grant]
  by_cases h : nth ⟨0, 0⟩ slots m = ⟨c, k⟩
  · rw [if_pos h, h, if_pos ⟨rfl, rfl⟩]
    rfl
  · rw [if_neg h, if_neg (fun hck => h (by rw [hck.1, hck.2]))]

/-- Slot k holds a task of the gang on `slots`. -/
def State.seatedWith (s : State) (slots : List SlotId) (k : SlotId) : Prop :=
  (s.slotAt k.core k.slot).task.isSome = true ∧ (s.slotAt k.core k.slot).t.mates = slots
theorem seatedWith_seatMember {s : State} {p m : Nat} {x : Job} {e : TaskEntry} {slots : List SlotId} {rings : List Nat}
    {k : SlotId} (h : nth ⟨0, 0⟩ slots m = k ∨ s.seatedWith slots k) : (s.seatMember p x e slots rings m).seatedWith slots k := by
  unfold State.seatedWith Slot.t at *
  rw [task_seatMember]
  by_cases hk : nth ⟨0, 0⟩ slots m = ⟨k.core, k.slot⟩
  · rw [if_pos hk]
    exact ⟨rfl, rfl⟩
  · rw [if_neg hk]
    exact h.resolve_left hk
/-- All members of an entry are seated together. -/
theorem seatedWith_foldl (s : State) (p : Nat) (x : Job) (e : TaskEntry) (slots : List SlotId) (rings : List Nat) (n : Nat) :
    ∀ m < n, ((List.range n).foldl (fun s m => s.seatMember p x e slots rings m) s).seatedWith slots (nth ⟨0, 0⟩ slots m) := by
  induction n with
  | zero => exact nofun
  | succ n ih =>
    intro m hm
    rw [List.range_succ, List.foldl_append]
    apply seatedWith_seatMember
    rcases Nat.lt_succ_iff_lt_or_eq.mp hm with h | rfl
    · exact .inr (ih m h)
    · exact .inl rfl
theorem seatEntry_eq {s : State} {p : Nat} {e : TaskEntry} {slots : List SlotId} {rings : List Nat} {x : Job}
    (h : (s.part p).job e.recIdx = some x) : s.seatEntry p e slots rings =
      ((List.range slots.length).foldl (fun s m => s.seatMember p x e slots rings m) s).modPart p
        fun q => q.setJob { x with live := x.live + slots.length } := by
  unfold State.seatEntry
  rw [h]
theorem seatedWith_seatEntry {s : State} {p : Nat} {e : TaskEntry} {slots : List SlotId} {rings : List Nat} {x : Job}
    (h : (s.part p).job e.recIdx = some x) : ∀ k ∈ slots, (s.seatEntry p e slots rings).seatedWith slots k := by
  intro k hk
  obtain ⟨m, hm, rfl⟩ := List.mem_iff_getElem.mp hk
  rw [seatEntry_eq h]
  have := seatedWith_foldl s p x e slots rings slots.length m hm
  rwa [show nth ⟨0, 0⟩ slots m = slots[m] by simp [nth, hm]] at this

/-- An entry that leaves the queue leaves the jobs and the owners of records. -/
theorem job_dequeue (s : State) (p j n i : Nat) : ((s.dequeue p j n).part p).job i = (s.part p).job i := by
  simp only [State.dequeue, State.part_modPart, if_true]
  rfl
theorem lrecOwner_dequeue (s : State) (p j n i : Nat) : (s.dequeue p j n).lrecOwner p i = s.lrecOwner p i := by
  simp only [State.lrecOwner, State.lrec, State.dequeue, State.part_modPart, if_true]
  rfl
theorem seatTask_none {s : State} {p j : Nat} (h : s.seatPick p j = .none) : exec (.seatTask ⟨p, j⟩) s = .next s := by
  simp only [exec_seatTask, execSeatTask, h]
theorem seatTask_one {s : State} {p j n : Nat} {k : SlotId} {e : TaskEntry} (h : s.seatPick p j = .one n k)
    (he : ((s.part p).queue j)[n]? = some e) :
    exec (.seatTask ⟨p, j⟩) s = .next ((s.dequeue p j n).seatEntry p e [k] []) := by
  simp only [exec_seatTask, execSeatTask, h, List.head?_drop, he]
theorem task_seatEntry_single {s : State} {p : Nat} {e : TaskEntry} {k : SlotId} {x : Job} (h : (s.part p).job e.recIdx = some x) :
    ((s.seatEntry p e [k] []).slotAt k.core k.slot).task = some (s.seatedTask p x e [k] [] 0) := by
  rw [seatEntry_eq h]
  exact (task_seatMember s p x e [k] [] 0 _ _).trans (if_pos rfl)

/-! ### Gangs (R127) -/

/-- What every step of a fold keeps, the fold keeps. -/
theorem foldl_keeps {α β γ : Type} {f : α → β → α} (g : α → γ) (h : ∀ s b, g (f s b) = g s) (l : List β) (s : α) :
    g (l.foldl f s) = g s := by
  induction l generalizing s with
  | nil => rfl
  | cons b l ih => exact (ih (f s b)).trans (h s b)
/-- The partitions and functions of a state. -/
def State.owners (s : State) : Sparse Part × Sparse Func := (s.parts, s.funcs)
theorem owners_withdraw (s : State) (h : Holding) : (s.withdraw h).owners = s.owners := by
  unfold State.withdraw
  split <;> rfl
theorem owners_purgeTiles (s : State) (c k : Nat) (keep : Nat → Bool) : (s.purgeTiles c k keep).owners = s.owners := by
  unfold State.purgeTiles
  exact foldl_keeps State.owners (f := fun s a => ((s.withdraw (s.tileAt c a).hold).dropRegs c a).putTile c a Tile.reset)
    (fun s a => owners_withdraw s _) _ s
theorem job_of_owners {s t : State} (h : t.owners = s.owners) (p i : Nat) : (t.part p).job i = (s.part p).job i := by
  simp only [State.part, show t.parts = s.parts from congrArg Prod.fst h]
theorem lrecOwner_of_owners {s t : State} (h : t.owners = s.owners) (p i : Nat) : t.lrecOwner p i = s.lrecOwner p i := by
  simp only [State.lrecOwner, State.lrec, State.part, show t.parts = s.parts from congrArg Prod.fst h]
theorem seats_of_owners {s t : State} (h : t.owners = s.owners) (f : Nat) : t.seats f = s.seats f := by
  simp only [State.seats, State.fn, show t.funcs = s.funcs from congrArg Prod.snd h]
theorem placePipes_of_placed {s : State} {inst : List Nat} {ps : List Pipe} {n : Nat} {h : GangHold}
    (hl : ps.length ≤ h.rings.length) : s.placePipes inst ps n h = (s, h) := by
  cases n with
  | zero => rfl
  | succ n => exact if_pos hl
/-- A gang whose rings all stand, with no racking to wait for, is seated whole. -/
theorem seatedWith_tryGang {s : State} {p : Nat} {h : GangHold} {x : Job} (hx : (s.part p).job h.entry.recIdx = some x)
    (hl : x.pipes.pipes.length ≤ h.rings.length) (hr : h.racking = []) (hs : s.seats (s.lrecOwner p h.entry.recIdx) = true) :
    ∀ k ∈ h.slots, (s.tryGang p h).seatedWith h.slots k := by
  have heq : s.tryGang p h = (s.modPart p fun q => { q with gangs := (s.part p).gangs.filter fun g => g.slots != h.slots }).seatEntry
      p h.entry h.slots h.rings := by
    unfold State.tryGang
    simp only [hx, placePipes_of_placed hl, hr, hs, List.all_nil]
    exact if_pos ⟨hl, trivial, trivial⟩
  rw [heq]
  refine seatedWith_seatEntry (x := x) ?_
  simp only [State.part_modPart, if_true]
  exact hx
theorem gangSeat_none {s : State} {p j : Nat} (hg : (s.part p).gangs.find? (fun h => h.die == j) = none)
    (hn : ∀ n l, s.seatPick p j ≠ .gang n l) : exec (.gangSeat ⟨p, j⟩) s = .next s := by
  rw [exec_gangSeat]
  unfold execGangSeat
  simp only [hg]
theorem gangSeat_held {s : State} {p j : Nat} {h : GangHold} (hg : (s.part p).gangs.find? (fun h => h.die == j) = some h) :
    exec (.gangSeat ⟨p, j⟩) s = .next (s.tryGang p h) := by
  simp only [exec_gangSeat, execGangSeat, hg]
/-- The state in which a gang entry that has its slots is held: off its queue, with no tiles left on its slots. -/
def State.gangHeld (s : State) (p j n : Nat) (l : List SlotId) : State :=
  l.foldl (fun s k => s.purgeTiles k.core k.slot (s.pipeTile k.core)) (s.dequeue p j n)
theorem gangSeat_picked {s : State} {p j n : Nat} {l : List SlotId} {e : TaskEntry}
    (hg : (s.part p).gangs.find? (fun h => h.die == j) = none) (hp : s.seatPick p j = .gang n l)
    (he : ((s.part p).queue j)[n]? = some e) : exec (.gangSeat ⟨p, j⟩) s =
      .next ((s.gangHeld p j n l).tryGang p { die := j, entry := e, slots := l, rings := [], racking := [] }) := by
  simp only [exec_gangSeat, execGangSeat, hg, hp, List.head?_drop, he]
  rfl
theorem owners_gangHeld (s : State) (p j n : Nat) (l : List SlotId) : (s.gangHeld p j n l).owners = (s.dequeue p j n).owners :=
  foldl_keeps State.owners (f := fun (s : State) (k : SlotId) => s.purgeTiles k.core k.slot (s.pipeTile k.core))
    (fun s k => owners_purgeTiles s k.core k.slot _) l _
theorem seats_dequeue (s : State) (p j n f : Nat) : (s.dequeue p j n).seats f = s.seats f := rfl
/-- A gang without pipes is seated whole as soon as its slots are free. -/
theorem seatedWith_gangHeld {s : State} {p j n : Nat} {l : List SlotId} {e : TaskEntry} {x : Job}
    (hx : (s.part p).job e.recIdx = some x) (hp : x.pipes.pipes = []) (hs : s.seats (s.lrecOwner p e.recIdx) = true) :
    ∀ k ∈ l, ((s.gangHeld p j n l).tryGang p { die := j, entry := e, slots := l, rings := [], racking := [] }).seatedWith l k := by
  have ho := owners_gangHeld s p j n l
  refine seatedWith_tryGang (h := { die := j, entry := e, slots := l, rings := [], racking := [] }) (x := x) ?_ ?_ rfl ?_
  · rw [job_of_owners ho, job_dequeue, hx]
  · exact Nat.le_of_eq (congrArg List.length hp)
  · rw [seats_of_owners ho, lrecOwner_of_owners ho, lrecOwner_dequeue, seats_dequeue, hs]

/-! ### Balancing (R128) -/

theorem bitN_eq_getLsbD {w : Nat} (v : BitVec w) (i : Nat) : bitN v.toNat i = v.getLsbD i := rfl
theorem exchange_idle {q : Part} {now : Nat} (h : q.qeBal.getLsbD 8 = false ∨ q.dies.length < 2) :
    q.exchange now = { q with lastExchange := now } := by
  unfold Part.exchange
  refine if_pos ?_
  rw [bitN_eq_getLsbD]
  rcases h with h | h
  · exact .inr (by rw [h]; rfl)
  · exact .inl h
/-- The pushes between two dies. -/
theorem pushes_pair (x y thr : Nat) : pushes [x, y] thr =
    if x > y + thr then [(0, 1, (x - y) / 2)] else if y > x + thr then [(1, 0, (y - x) / 2)] else [] := by
  by_cases h : x > y + thr
  · simp [pushes, nth, List.range_succ, h]
  · by_cases h' : y > x + thr <;> simp [pushes, nth, List.range_succ, h, h']
/-- An exchange between two dies is the push of the deeper. -/
theorem exchange_pair {q : Part} {now : Nat} (hb : q.qeBal.getLsbD 8 = true) (hd : q.dies.length = 2) : q.exchange now =
    (pushes [(q.queue 0).length, (q.queue 1).length] (q.qeBal.toNat % 256)).foldl
      (fun p (a, b, n) => p.push [(q.queue 0).length, (q.queue 1).length] now a b n) { q with lastExchange := now } := by
  have hdepth : ((List.range q.dies.length).map fun j => (q.queue j).length) = [(q.queue 0).length, (q.queue 1).length] := by
    rw [hd]
    rfl
  have hthr : bitsN q.qeBal.toNat 0 8 = q.qeBal.toNat % 256 := by simp [bitsN]
  unfold Part.exchange
  simp only [hdepth, hthr, bitN_eq_getLsbD, hb]
  exact if_neg (show ¬(q.dies.length < 2 ∨ (!true) = true) by simp [hd])
/-- Where every entry may move, the youngest move. -/
theorem takeTail_eq {n : Nat} {l : List TaskEntry} (h : ∀ e ∈ l, e.hasD = false) : takeTail n l = (l.take n, l.drop n) := by
  induction l generalizing n with
  | nil => cases n <;> simp [takeTail]
  | cons e l ih =>
    obtain ⟨he, hl⟩ := List.forall_mem_cons.mp h
    cases n with
    | zero => rfl
    | succ n => simp [takeTail, he, ih hl]
theorem push_eq {q : Part} {depth : List Nat} {now a b n : Nat} (h : ∀ e ∈ q.queue a, e.hasD = false) :
    let m := (q.queue a).length - min n (64 - nth 0 depth b - q.inTransit b)
    q.push depth now a b n = { q.setQueue a ((q.queue a).take m) with
      transit := q.transit ++ ((q.queue a).drop m).reverse.map fun e => { die := b, entry := e, since := now } } := by
  unfold Part.push
  simp only [takeTail_eq (l := (q.queue a).reverse) (fun e he => h e (List.mem_reverse.mp he)), List.take_reverse,
    List.drop_reverse, List.reverse_reverse]
theorem balanceExchange_next {s : State} {p : Nat} (hc : s.cycle % 4096 = 0) (hl : (s.part p).lastExchange ≠ s.cycle) :
    exec (.balanceExchange p) s = .next (s.putPart p ((s.part p).exchange s.cycle)) := by
  rw [exec_balanceExchange]
  exact if_pos ⟨hc, hl⟩
theorem balanceExchange_wait {s : State} {p : Nat} (hc : s.cycle % 4096 ≠ 0) : exec (.balanceExchange p) s = .next s := by
  rw [exec_balanceExchange]
  exact if_neg fun h => hc h.1
theorem queue_arrive (q : Part) (j : Nat) : (q.arrive j).queue j =
    q.queue j ++ ((q.transit.find? fun t => t.die == j).toList.map fun t => t.entry) := by
  unfold Part.arrive
  cases q.transit.find? fun t => t.die == j with
  | none => exact (List.append_nil _).symm
  | some t =>
    show Sparse.get [] (q.taskQ.put j (q.queue j ++ [t.entry])) j = _
    rw [Sparse.get_put, if_pos rfl]
    rfl

/-- Settles O43: the search for a slot keeps the best so far (R124), `seatMember` seats each member with the arguments of the
chunk, `tryGang` seats whole (R127), and an exchange between two dies is one push (R128). -/
theorem seatAndBalanceResults : Obligations.SeatAndBalanceResults := by
  refine ⟨fun s p j k => bestSlot_spec, fun s p j => ⟨seatTask_none, ?_⟩, fun s p j => ⟨gangSeat_none, ?_, ?_⟩,
    fun s p => ⟨balanceExchange_wait, ?_⟩, ?_⟩
  · intro n k e x hpick he hx
    refine ⟨_, seatTask_one hpick he, ?_⟩
    have ht := task_seatEntry_single (s := s.dequeue p j n) (p := p) (e := e) (k := k) (x := x) (by rw [job_dequeue, hx])
    dsimp only [Slot.t]
    rw [ht]
    exact ⟨rfl, rfl, rfl, rfl, rfl, rfl, rfl, rfl⟩
  · intro h x hg hx hl hr hs
    exact ⟨_, gangSeat_held hg, seatedWith_tryGang hx hl hr hs⟩
  · intro n l e x hg hp he hx hpipes hs
    exact ⟨_, gangSeat_picked hg hp he, seatedWith_gangHeld hx hpipes hs⟩
  · intro hc hl
    refine ⟨fun h => by rw [balanceExchange_next hc hl, exchange_idle h], ?_⟩
    rintro hb hd _ _ rfl rfl
    rw [balanceExchange_next hc hl, exchange_pair hb hd, pushes_pair]
    refine ⟨fun h1 h2 => ?_, fun h1 h2 => ?_⟩
    · rw [if_neg (Nat.not_lt.mpr h1), if_neg (Nat.not_lt.mpr h2)]
      rfl
    · rw [if_pos h1]
      exact congrArg (fun q => (.next (s.putPart p q) : Out)) (push_eq (q := { s.part p with lastExchange := s.cycle }) h2)
  · intro s p j
    refine ⟨_, exec_balanceArrival ⟨p, j⟩ s, ?_⟩
    simp only [State.part_modPart, if_true]
    exact queue_arrive (s.part p) j
end Sys2Proof.Machine
end

section
namespace Sys2Proof.Machine

/-! ### What stays of a slot while it is cleared: its task, its holding and its monitor

Clearing a slot for a re-fire or for its end runs through much of the machine. None of it changes what seating set, what a
launch counted, a holding, or a monitor that is not armed: `State.seatOf` reads these. -/

/-- A task, but for what a run of it marks: that it wrote, and its collectives under way. -/
def Task.seat (t : Task) : Task := { t with wrote := false, colls := [] }
/-- Task, holding and unarmed monitor of a slot. -/
def Slot.seat (sl : Slot) : Option Task × Holding × Option Monitor :=
  (sl.task.map Task.seat, sl.hold, if sl.mon.armed then none else some sl.mon)
def State.seatOf (s : State) (c k : Nat) : Option Task × Holding × Option Monitor := (s.slotAt c k).seat
theorem Slot.seat_congr {a b : Slot} (ht : b.task = a.task) (hh : b.hold = a.hold) (hm : b.mon = a.mon) : b.seat = a.seat := by
  simp only [Slot.seat, ht, hh, hm]

section
variable {s t : State} {c k : Nat}

theorem slotAt_of_cores (h : t.cores = s.cores) : t.slotAt c k = s.slotAt c k := by
  simp only [State.slotAt, State.core, h]
theorem seatOf_of_cores (h : t.cores = s.cores) : t.seatOf c k = s.seatOf c k := congrArg Slot.seat (slotAt_of_cores h)
theorem seatOf_ite {p : Prop} [Decidable p] {a b : State} (ha : a.seatOf c k = s.seatOf c k) (hb : b.seatOf c k = s.seatOf c k) :
    (if p then a else b).seatOf c k = s.seatOf c k := by
  split
  · exact ha
  · exact hb
theorem seatOf_foldl {β : Type} {f : State → β → State} (h : ∀ s b, (f s b).seatOf c k = s.seatOf c k) (l : List β) (s : State) :
    (l.foldl f s).seatOf c k = s.seatOf c k := foldl_keeps (fun s => s.seatOf c k) h l s
theorem seatOf_modCore {c' : Nat} {f : Core → Core} (h : ∀ co, (f co).slots = co.slots) :
    (s.modCore c' f).seatOf c k = s.seatOf c k := congrArg Slot.seat (slotAt_modCore h c k)
theorem seatOf_modSlot {c' k' : Nat} {f : Slot → Slot} (h : ∀ sl, (f sl).seat = sl.seat) :
    (s.modSlot c' k' f).seatOf c k = s.seatOf c k := by
  unfold State.seatOf
  rw [State.slotAt_modSlot]
  split
  case isTrue hck => rw [h, hck.1, hck.2]
  case isFalse => rfl
/-- An update of every core that maps its slots. -/
theorem slotAt_map {F : Nat → Core → Core} {G : Slot → Slot} (h : t.cores = s.cores.map fun (i, co) => (i, F i co))
    (hF : F c Core.reset = Core.reset) (hs : (F c (s.core c)).slots = (s.core c).slots.map fun (k, sl) => (k, G sl))
    (hG : G Slot.reset = Slot.reset) : t.slotAt c k = G (s.slotAt c k) := by
  have hc : t.core c = F c (s.core c) := by
    unfold State.core
    rw [h]
    exact Sparse.get_map Core.reset s.cores F c hF
  unfold State.slotAt Core.slot
  rw [hc, hs]
  exact Sparse.get_map Slot.reset _ (fun _ => G) k hG
theorem seatOf_modMe {f : Slot → Slot} (h : ∀ sl, (f sl).seat = sl.seat) : (s.modMe f).seatOf c k = s.seatOf c k :=
  seatOf_modSlot h
end

section
variable (s : State) (c k : Nat)

/-! #### Memory, trace, records of memory visibility -/

@[simp] theorem seatOf_modPart (p : Nat) (f : Part → Part) : (s.modPart p f).seatOf c k = s.seatOf c k := rfl
/-- A slot after a write of n bytes at pa. -/
def Slot.woken (pa n : Nat) (sl : Slot) : Slot :=
  if sl.mon.armed && decide (sl.mon.pa * 64 < pa + n ∧ pa < (sl.mon.pa + 1) * 64)
  then { sl with mon := { sl.mon with written := true } } else sl
theorem slotAt_wake (pa n : Nat) : (s.wake pa n).slotAt c k = (s.slotAt c k).woken pa n :=
  slotAt_map (F := fun _ co => { co with slots := co.slots.map fun (k, sl) => (k, sl.woken pa n) }) rfl rfl rfl rfl
theorem Slot.seat_woken (sl : Slot) (pa n : Nat) : (sl.woken pa n).seat = sl.seat := by
  unfold Slot.woken
  split
  case isTrue h => simp only [Slot.seat, (Bool.and_eq_true_iff.mp h).1, if_true]
  case isFalse => rfl
@[simp] theorem seatOf_wake (pa n : Nat) : (s.wake pa n).seatOf c k = s.seatOf c k := by
  unfold State.seatOf
  rw [slotAt_wake, Slot.seat_woken]
@[simp] theorem seatOf_pwrite (w : Option Agent) (pa : Nat) (l : List Byte) : (s.pwrite w pa l).seatOf c k = s.seatOf c k :=
  (seatOf_of_cores rfl).trans (seatOf_wake s c k pa l.length)
@[simp] theorem seatOf_pwrites (w : Option Agent) (ps : List (Nat × Nat)) (l : List Byte) :
    (s.pwrites w ps l).seatOf c k = s.seatOf c k := by
  induction ps generalizing s l with
  | nil => rfl
  | cons x t ih => rw [State.pwrites, ih, seatOf_pwrite]
@[simp] theorem seatOf_ringWrite (f va : Nat) (l : List Byte) : (s.ringWrite f va l).seatOf c k = s.seatOf c k := by
  unfold State.ringWrite
  split
  · rfl
  · split
    · exact seatOf_pwrites ..
    · rfl
@[simp] theorem seatOf_journal (f : Nat) (e : JEntry) : (s.journal f e).seatOf c k = s.seatOf c k := by
  unfold State.journal
  dsimp only
  split
  · rfl
  · split
    · exact seatOf_ringWrite ..
    · exact seatOf_ringWrite ..
@[simp] theorem slotAt_trace (c' k' kind : Nat) (st : Strm) (code data : Nat) :
    (s.trace c' k' kind st code data).slotAt c k = s.slotAt c k := by
  unfold State.trace
  split
  · rfl
  · dsimp only
    split <;> rfl
@[simp] theorem slotAt_loopExits (c' k' : Nat) (st : Strm) (ls : List HwLoop) :
    (s.loopExits c' k' st ls).slotAt c k = s.slotAt c k :=
  foldl_keeps (fun s : State => s.slotAt c k) (fun s _ => slotAt_trace s c k c' k' 9 st 0 _) ls s
@[simp] theorem cores_mapHidden (f : HidWrite → HidWrite) : (s.mapHidden f).cores = s.cores := by
  unfold State.mapHidden
  split <;> rfl
@[simp] theorem cores_dropEarly (w : Agent) : (s.dropEarly w).cores = s.cores := by
  unfold State.dropEarly
  split
  · split
    · rfl
    · exact cores_mapHidden ..
  · rfl
@[simp] theorem cores_passIf (p : Agent → Bool) (v : Agent) : (s.passIf p v).cores = s.cores := by
  unfold State.passIf
  dsimp only
  split
  · exact cores_dropEarly ..
  · exact (cores_mapHidden ..).trans (cores_dropEarly ..)
theorem cores_forgetIf (p : Agent → Bool) : (s.forgetIf p).cores = s.cores := cores_mapHidden ..
theorem cores_forgetSlot (w : SlotId) : (s.forgetSlot w).cores = s.cores := (cores_forgetIf ..).trans (cores_dropEarly ..)
theorem cores_forgetRuns (w : SlotId) : (s.forgetRuns w).cores = s.cores := cores_forgetIf ..

/-! #### Tiles, engines and what a slot holds -/

@[simp] theorem seatOf_withdraw (h : Holding) : (s.withdraw h).seatOf c k = s.seatOf c k := by
  unfold State.withdraw
  split <;> rfl
@[simp] theorem seatOf_putTile (c' a : Nat) (t : Tile) : (s.putTile c' a t).seatOf c k = s.seatOf c k :=
  seatOf_modCore (f := fun co => co.putTile a t) fun _ => rfl
@[simp] theorem seatOf_modTile (c' a : Nat) (f : Tile → Tile) : (s.modTile c' a f).seatOf c k = s.seatOf c k :=
  seatOf_putTile ..
/-- A slot whose taste entries of a tile are gone. -/
def Slot.unregistered (c a : Nat) (sl : Slot) : Slot :=
  { sl with taste := sl.taste.filter fun (_, te) => !(te.core == c && te.abs == a && te.st != .free) }
@[simp] theorem seatOf_dropRegs (c' a : Nat) : (s.dropRegs c' a).seatOf c k = s.seatOf c k := by
  have h := slotAt_map (s := s) (t := s.dropRegs c' a) (c := c) (k := k)
    (F := fun i co => { co with
      regs := if i = c' then co.regs.filter (·.abs != a) else co.regs
      slots := co.slots.map fun (k, sl) => (k, sl.unregistered c' a) })
    (G := fun sl => sl.unregistered c' a) rfl (by dsimp only; split <;> rfl) rfl rfl
  unfold State.seatOf
  rw [h]
  rfl
theorem seatOf_dropReads (l : List ReadRef) : (s.dropReads l).seatOf c k = s.seatOf c k :=
  seatOf_foldl (fun s r => by exact seatOf_modTile ..) l s
theorem seatOf_dropDst (shd : Bool) (d : Option ReadRef) : (s.dropDst shd d).seatOf c k = s.seatOf c k := by
  cases d with
  | none => rfl
  | some r => exact seatOf_modTile ..
theorem Slot.seat_modRing (sl : Slot) (r : RingId) (f : Ring → Ring) : (sl.modRing r f).seat = sl.seat := by
  cases r <;> rfl
theorem Slot.seat_modSs (sl : Slot) (st : Strm) (f : StreamSt → StreamSt) : (sl.modSs st f).seat = sl.seat := by
  cases st <;> rfl
theorem seatOf_abandonHead (c' k' : Nat) (r : RingId) : (s.abandonHead c' k' r).seatOf c k = s.seatOf c k :=
  (seatOf_modSlot fun sl => by exact sl.seat_modRing r _).trans ((seatOf_dropDst ..).trans (seatOf_dropReads ..))
theorem seatOf_endTenure (c' k' : Nat) (e : Engine) : (s.endTenure c' k' e).seatOf c k = s.seatOf c k := by
  unfold State.seatOf
  rw [State.endTenure_slot]
  exact Slot.seat_congr rfl rfl rfl
theorem seatOf_disband (w : SlotId) : (s.disband w).seatOf c k = s.seatOf c k := by
  unfold State.disband
  exact (seatOf_foldl (fun s x => by exact seatOf_endTenure s c k x.core x.slot .mxe) _ _).trans
    (seatOf_foldl (fun s x => seatOf_modCore fun _ => by rfl) _ _)
theorem seatOf_leaveEngine (r : StrmRef) : (s.leaveEngine r).seatOf c k = s.seatOf c k := by
  unfold State.leaveEngine
  dsimp only
  have hd : (if r.strm = .m ∧ (s.core r.core).group.contains ⟨r.core, r.slot⟩ then s.disband ⟨r.core, r.slot⟩ else s).seatOf c k =
      s.seatOf c k := by
    split
    · exact seatOf_disband ..
    · rfl
  cases engineOf r.strm with
  | none => exact hd
  | some e => exact (seatOf_endTenure ..).trans hd
theorem seatOf_leaveEngines (c' k' : Nat) : (s.leaveEngines c' k').seatOf c k = s.seatOf c k :=
  seatOf_foldl (fun s e => by exact seatOf_leaveEngine s c k _) allEngines s

/-! #### Instructions that wait -/

theorem Slot.seat_modTask (sl : Slot) {f : Task → Task} (h : ∀ t, (f t).seat = t.seat) : (sl.modTask f).seat = sl.seat := by
  have : (sl.task.map f).map Task.seat = sl.task.map Task.seat := by
    rw [Option.map_map]
    exact congrArg (fun g => sl.task.map g) (funext h)
  exact congrArg (fun x => (x, sl.hold, if sl.mon.armed then none else some sl.mon)) this
theorem Slot.seat_setStage (sl : Slot) (st : Strm) (i : Nat) (b : Bool) : (sl.setStage st i b).seat = sl.seat := by
  unfold Slot.setStage
  split
  · exact Slot.seat_congr (Slot.setP_task ..) (Slot.setP_hold ..) (Slot.setP_mon ..)
  · exact Slot.seat_congr (Slot.setM_task ..) (Slot.setM_hold ..) (Slot.setM_mon ..)
theorem Slot.seat_startPass (sl : Slot) (st : Strm) (l : HwLoop) : (sl.startPass st l).seat = sl.seat := by
  unfold Slot.startPass
  split
  · rfl
  · exact foldl_keeps Slot.seat (fun sl _ => sl.seat_setStage ..) _ sl
theorem Slot.seat_setX (sl : Slot) (d : Reg) (v : Word) : (sl.setX d v).seat = sl.seat :=
  Slot.seat_congr (Slot.setX_task ..) (Slot.setX_hold ..) (Slot.setX_mon ..)
theorem Slot.seat_sentEnd (sl : Slot) (n : Nat) (d : Reg) (v : Word) : (sl.sentEnd n d v).seat = sl.seat := by
  refine (Slot.seat_setX ..).trans ?_
  unfold Slot.useAllow
  dsimp only
  split <;> rfl
theorem seatOf_advance (len : Nat) : (s.advance len).seatOf c k = s.seatOf c k := by
  unfold State.advance
  dsimp only
  refine (congrArg Slot.seat (slotAt_loopExits ..)).trans (seatOf_modMe fun sl => ?_)
  split
  · exact (Slot.seat_startPass ..).trans (Slot.seat_modSs ..)
  · exact Slot.seat_modSs ..
/-- The end of an instruction that waited keeps what the instruction keeps. -/
theorem seatOf_completed (w : SlotId) {f : State → State} (h : ∀ u, (f u).seatOf c k = u.seatOf c k) :
    (s.completed w f).seatOf c k = s.seatOf c k := by
  have hw : (s.withCur ⟨w.core, w.slot, .c⟩ f).seatOf c k = s.seatOf c k := h _
  unfold State.completed
  dsimp only
  split
  · exact hw
  · refine ((seatOf_modSlot fun sl => ?_).trans (congrArg Slot.seat (State.slotAt_count ..))).trans hw
    split <;> rfl
theorem seatOf_sentDone (w : SlotId) : (s.sentDone w).seatOf c k = s.seatOf c k := by
  unfold State.sentDone
  dsimp only
  split
  · split
    · rfl
    · exact seatOf_completed _ _ _ w fun u => (seatOf_advance ..).trans (seatOf_modMe fun sl => by exact sl.seat_sentEnd ..)
  · rfl
theorem seatOf_abandonWait (c' k' : Nat) (st : Strm) : (s.abandonWait c' k' st).seatOf c k = s.seatOf c k := by
  unfold State.abandonWait
  dsimp only
  refine (seatOf_modSlot fun sl => by exact Slot.seat_modSs ..).trans ?_
  have hs : (if st = .c then s.sentDone ⟨c', k'⟩ else s).seatOf c k = s.seatOf c k := by
    split
    · exact seatOf_sentDone ..
    · rfl
  split <;> exact hs
theorem seatOf_abandonSlot (c' k' : Nat) : (s.abandonSlot c' k').seatOf c k = s.seatOf c k := by
  unfold State.abandonSlot
  dsimp only
  refine (seatOf_modSlot fun _ => by exact Slot.seat_congr rfl rfl rfl).trans ((seatOf_dropReads ..).trans ?_)
  exact (seatOf_abandonWait ..).trans ((seatOf_abandonWait ..).trans
    (seatOf_foldl (fun s r => by exact seatOf_abandonHead s c k c' k' r) _ _))

/-! #### Collectives, barriers and sync objects -/

theorem seatOf_collRaise (w : SlotId) (rss off v : Nat) : (s.collRaise w rss off v).seatOf c k = s.seatOf c k := by
  unfold State.collRaise State.wroteFor
  refine (seatOf_modSlot fun sl => ?_).trans ((seatOf_modSlot fun sl => ?_).trans (seatOf_modCore fun _ => by rfl))
  · exact Slot.seat_congr (Slot.setSem_task ..) (Slot.setSem_hold ..) (Slot.setSem_mon ..)
  · exact sl.seat_modTask fun _ => rfl
theorem seatOf_collPass (f : Nat) (x : Coll) (rss : Nat) : (s.collPass f x rss).seatOf c k = s.seatOf c k :=
  seatOf_of_cores ((cores_forgetIf ..).trans (cores_passIf ..))
theorem seatOf_endColl (f : Nat) (x : Coll) (b : Bool) : (s.endColl f x b).seatOf c k = s.seatOf c k := by
  unfold State.endColl
  dsimp only
  refine seatOf_ite ?_ ?_
  · refine (seatOf_modSlot fun _ => by exact Slot.seat_congr rfl rfl rfl).trans ((seatOf_modSlot fun sl => ?_).trans ?_)
    · exact sl.seat_modTask fun _ => rfl
    · rfl
  · refine (seatOf_collPass ..).trans ((seatOf_collRaise ..).trans ((seatOf_modSlot fun sl => ?_).trans ?_))
    · exact sl.seat_modTask fun _ => rfl
    · rfl
theorem seatOf_sendAbort (f cid : Nat) : (s.sendAbort f cid).seatOf c k = s.seatOf c k := by
  unfold State.sendAbort State.toPort
  split
  · rfl
  · split
    · rfl
    case h_2 u hu =>
      split at hu
      · cases hu
      · cases hu
        rfl
theorem seatOf_abortColls (w : SlotId) : (s.abortColls w).seatOf c k = s.seatOf c k := by
  unfold State.abortColls
  exact seatOf_foldl (fun s x => by exact (seatOf_sendAbort ..).trans (seatOf_endColl ..)) _ s
theorem seatOf_dropFills (c' k' : Nat) : (s.dropFills c' k').seatOf c k = s.seatOf c k := seatOf_modCore fun _ => rfl
theorem seatOf_withdrawBar (c' k' : Nat) : (s.withdrawBar c' k').seatOf c k = s.seatOf c k := by
  unfold State.withdrawBar
  dsimp only
  refine (seatOf_modSlot fun _ => by exact Slot.seat_congr rfl rfl rfl).trans ?_
  split <;> split <;> rfl
theorem seatOf_takeObj (p o : Nat) (w : SlotId) (sc : Nat) : (s.takeObj p o w sc).1.seatOf c k = s.seatOf c k :=
  seatOf_of_cores (cores_passIf s _ _)
theorem seatOf_grantObj (p o : Nat) : (s.grantObj p o).seatOf c k = s.seatOf c k := by
  unfold State.grantObj
  dsimp only
  split
  · split
    · split
      · exact (seatOf_modPart ..).trans (seatOf_takeObj ..)
      · exact (seatOf_completed _ _ _ _ fun u => (seatOf_advance ..).trans (seatOf_modMe fun sl => by exact sl.seat_setX ..)).trans
          (seatOf_takeObj ..)
    · rfl
  · rfl
theorem seatOf_breakObjs (c' k' : Nat) : (s.breakObjs c' k').seatOf c k = s.seatOf c k := by
  unfold State.breakObjs
  exact seatOf_foldl (fun s x => by exact (seatOf_grantObj ..).trans (seatOf_modPart ..)) _ s

/-! #### Rings of pipes -/

theorem seatOf_purgeTiles (c' k' : Nat) (keep : Nat → Bool) : (s.purgeTiles c' k' keep).seatOf c k = s.seatOf c k := by
  unfold State.purgeTiles
  dsimp only
  exact (seatOf_modCore fun _ => by rfl).trans
    (seatOf_foldl (fun s a => by exact (seatOf_putTile ..).trans ((seatOf_dropRegs ..).trans (seatOf_withdraw ..))) _ s)
theorem seatOf_resetPipes (c' k' : Nat) : (s.resetPipes c' k').seatOf c k = s.seatOf c k := by
  unfold State.resetPipes
  refine seatOf_foldl (fun s x => ?_) _ s
  refine (seatOf_modCore fun _ => by rfl).trans (seatOf_foldl (fun s a => ?_) _ s)
  exact (seatOf_dropRegs ..).trans (seatOf_modTile ..)
theorem seatOf_dropPipes (inst : List Nat) : (s.dropPipes inst).seatOf c k = s.seatOf c k := by
  unfold State.dropPipes
  refine seatOf_foldl (fun s x => seatOf_foldl (fun s r => ?_) _ s) _ s
  refine (seatOf_modCore fun _ => by rfl).trans (seatOf_foldl (fun s a => ?_) _ s)
  exact (seatOf_putTile ..).trans ((seatOf_dropRegs ..).trans (seatOf_withdraw ..))
theorem seatOf_endInst (t : Task) : (s.endInst t).seatOf c k = s.seatOf c k := by
  unfold State.endInst
  split
  · rfl
  · exact seatOf_dropPipes ..

/-! #### Records -/

@[simp] theorem seatOf_setLrec (p i : Nat) (r : Record) : (s.setLrec p i r).seatOf c k = s.seatOf c k := by
  simp only [State.setLrec, seatOf_pwrite, seatOf_modPart]
@[simp] theorem seatOf_stopLrec (p i : Nat) (code : Code) : (s.stopLrec p i code).seatOf c k = s.seatOf c k := by
  simp only [State.stopLrec, seatOf_journal, seatOf_setLrec]
@[simp] theorem seatOf_enterReady (p i : Nat) : (s.enterReady p i).seatOf c k = s.seatOf c k := by
  simp only [State.enterReady, seatOf_modPart, seatOf_setLrec]
@[simp] theorem seatOf_decrement (p i tag : Nat) (q : Option (Nat × Nat)) : (s.decrement p i tag q).seatOf c k = s.seatOf c k := by
  unfold State.decrement
  dsimp only
  split
  · split <;> simp only [seatOf_enterReady, seatOf_setLrec]
  · simp only [seatOf_journal, seatOf_setLrec]
theorem seatOf_completeLrec (p i : Nat) : (s.completeLrec p i).seatOf c k = s.seatOf c k := by
  unfold State.completeLrec
  dsimp only
  split
  · simp only [seatOf_stopLrec, seatOf_setLrec]
  · rw [seatOf_journal, seatOf_foldl (c := c) (k := k) fun s j => ?_]
    · split
      · split <;> simp only [seatOf_enterReady, seatOf_setLrec]
      · exact seatOf_setLrec ..
    · split
      · exact seatOf_decrement ..
      · rfl
theorem seatOf_endJob (p i : Nat) (stop : Option Code) : (s.endJob p i stop).seatOf c k = s.seatOf c k := by
  unfold State.endJob
  dsimp only
  split
  · exact seatOf_setLrec ..
  · split
    · exact seatOf_stopLrec ..
    · exact seatOf_completeLrec ..
theorem seatOf_leaveJob (p i : Nat) (code : Option Code) : (s.leaveJob p i code).seatOf c k = s.seatOf c k := by
  unfold State.leaveJob
  split
  · rfl
  · dsimp only
    split
    · exact seatOf_endJob ..
    · rfl
end
end Sys2Proof.Machine
end

section
namespace Sys2Proof.Machine

/-! ### Tasks, and what reads of them go over with a seat -/

theorem Slot.t_seat {a b : Slot} (h : b.seat = a.seat) : b.t.seat = a.t.seat := by
  have ht : b.task.map Task.seat = a.task.map Task.seat := congrArg Prod.fst h
  have := congrArg (fun o => o.getD noTask.seat) ht
  rwa [Option.getD_map, Option.getD_map] at this
theorem Task.entry_of_seat {a b : Task} (h : b.seat = a.seat) : b.entry = a.entry := (congrArg Task.entry h :)
theorem Task.stopping_of_seat {a b : Task} (h : b.seat = a.seat) : b.stopping = a.stopping := (congrArg Task.stopping h :)
theorem Task.launched_of_seat {a b : Task} (h : b.seat = a.seat) : b.launched = a.launched := (congrArg Task.launched h :)
theorem Task.refcnt_of_seat {a b : Task} (h : b.seat = a.seat) : b.refcnt = a.refcnt := (congrArg Task.refcnt h :)
theorem Slot.isSome_seat {a b : Slot} (h : b.seat = a.seat) : b.task.isSome = a.task.isSome := by
  have ht : b.task.map Task.seat = a.task.map Task.seat := congrArg Prod.fst h
  simpa only [Option.isSome_map] using congrArg Option.isSome ht
theorem Slot.t_modTask {sl : Slot} (f : Task → Task) (h : sl.task.isSome = true) : (sl.modTask f).t = f sl.t := by
  obtain ⟨t, ht⟩ := Option.isSome_iff_exists.mp h
  simp only [Slot.modTask, Slot.t, ht, Option.map_some, Option.getD_some]
theorem Slot.isSome_modTask (sl : Slot) (f : Task → Task) : (sl.modTask f).task.isSome = sl.task.isSome := Option.isSome_map

/-! ### A slot that begins a run (R46, R84) -/

/-- A launched task with X1 to X5 as seating set them, and the other scalar registers zero. -/
def Slot.launchedAs (t : Task) (sl : Slot) : Prop :=
  sl.t.launched = true ∧ sl.xr 1 = t.x1 ∧ sl.xr 2 = t.x2 ∧ sl.xr 3 = t.x3 ∧ sl.xr 4 = t.card ∧ sl.xr 5 = t.x5 ∧
    ∀ r : Reg, 5 < r.toNat → sl.xr r = 0
/-- What a run begins with, and what its image or a stop request leaves: scalar registers and what launches counted. -/
def Slot.begun (sl : Slot) : Sparse Word × Bool × Nat × Bool := (sl.x, sl.t.launched, sl.t.refcnt, sl.t.refiring)
theorem Slot.launched_of_begun {a b : Slot} (h : b.begun = a.begun) : b.t.launched = a.t.launched := congrArg (·.2.1) h
theorem Slot.refcnt_of_begun {a b : Slot} (h : b.begun = a.begun) : b.t.refcnt = a.t.refcnt := congrArg (·.2.2.1) h
theorem Slot.refiring_of_begun {a b : Slot} (h : b.begun = a.begun) : b.t.refiring = a.t.refiring := congrArg (·.2.2.2) h
theorem Slot.launchedAs_of_begun {t : Task} {a b : Slot} (h : b.begun = a.begun) (ha : a.launchedAs t) : b.launchedAs t := by
  have hx : b.x = a.x := congrArg Prod.fst h
  unfold Slot.launchedAs Slot.xr at *
  rwa [hx, Slot.launched_of_begun h]
theorem Slot.wf_setX {sl : Slot} (d : Reg) (v : Word) (h : Sparse.wfFrom (0 : Word) 0 sl.x = true) :
    Sparse.wfFrom (0 : Word) 0 (sl.setX d v).x = true := by
  unfold Slot.setX
  split
  · exact h
  · exact Sparse.wfFrom_set _ _ _ _ _ (Nat.zero_le _) h
theorem task_launchSlot (dev c k : Nat) (sl : Slot) : (launchSlot dev c k sl).task = sl.task := by
  simp only [launchSlot, Slot.setX_task]
theorem xr_setX_five {sl : Slot} (h : sl.x = []) (v1 v2 v3 v4 v5 : Word) (r : Reg) :
    (((((sl.setX 5 v5).setX 4 v4).setX 3 v3).setX 2 v2).setX 1 v1).xr r =
      if r = 1 then v1 else if r = 2 then v2 else if r = 3 then v3 else if r = 4 then v4 else if r = 5 then v5 else 0 := by
  have h0 : Sparse.wfFrom (0 : Word) 0 sl.x = true := by rw [h]; rfl
  have h5 := Slot.wf_setX 5 v5 h0
  have h4 := Slot.wf_setX 4 v4 h5
  have h3 := Slot.wf_setX 3 v3 h4
  have h2 := Slot.wf_setX 2 v2 h3
  rw [Slot.xr_setX _ _ _ _ h2 (by decide), Slot.xr_setX _ _ _ _ h3 (by decide), Slot.xr_setX _ _ _ _ h4 (by decide),
    Slot.xr_setX _ _ _ _ h5 (by decide), Slot.xr_setX _ _ _ _ h0 (by decide), Slot.xr, h]
  simp [Sparse.get]
theorem xr_launchSlot (dev c k : Nat) (sl : Slot) (r : Reg) : (launchSlot dev c k sl).xr r =
    if r = 1 then sl.t.x1 else if r = 2 then sl.t.x2 else if r = 3 then sl.t.x3 else if r = 4 then sl.t.card else
      if r = 5 then sl.t.x5 else 0 := xr_setX_five rfl ..
/-- A slot whose registers a launch or a restart has set. -/
theorem launchedAs_launchSlot {dev c k : Nat} {sl : Slot} {t : Task} (f : Task → Task) (hi : sl.task.isSome = true)
    (hs : sl.t.seat = t.seat) (hf : (f sl.t).launched = true) : ((launchSlot dev c k sl).modTask f).launchedAs t := by
  have hx (r : Reg) : ((launchSlot dev c k sl).modTask f).xr r = (launchSlot dev c k sl).xr r := rfl
  have ht : ((launchSlot dev c k sl).modTask f).t = f sl.t := by
    rw [Slot.t_modTask f (by rw [task_launchSlot, hi]), Slot.t, task_launchSlot]
    rfl
  refine ⟨by rw [ht, hf], ?_⟩
  simp only [hx, xr_launchSlot]
  refine ⟨(congrArg Task.x1 hs :), (congrArg Task.x2 hs :), (congrArg Task.x3 hs :), (congrArg Task.card hs :),
    (congrArg Task.x5 hs :), fun r hr => ?_⟩
  have hne (n : Reg) (hn : n.toNat ≤ 5) : r ≠ n := fun h => by subst h; omega
  rw [if_neg (hne 1 (by decide)), if_neg (hne 2 (by decide)), if_neg (hne 3 (by decide)), if_neg (hne 4 (by decide)),
    if_neg (hne 5 (by decide))]

/-! ### Stop requests and the image leave what a run begins with -/

theorem Slot.begun_congr {a b : Slot} (hx : b.x = a.x) (ht : b.task = a.task) : b.begun = a.begun := by
  simp only [Slot.begun, Slot.t, hx, ht]
theorem Slot.begun_modTask (sl : Slot) {f : Task → Task}
    (h : ∀ t, ((f t).launched, (f t).refcnt, (f t).refiring) = (t.launched, t.refcnt, t.refiring)) : (sl.modTask f).begun = sl.begun := by
  unfold Slot.begun Slot.modTask Slot.t
  cases sl.task with
  | none => rfl
  | some t => exact congrArg (Prod.mk sl.x) (h t)
/-- Scalar registers and task of a slot. -/
def State.runOf (s : State) (c k : Nat) : Sparse Word × Option Task := ((s.slotAt c k).x, (s.slotAt c k).task)
section
variable {s t : State} {c k c' k' : Nat}
theorem runOf_modSlot {f : Slot → Slot} (hx : ∀ sl, (f sl).x = sl.x) (ht : ∀ sl, (f sl).task = sl.task) :
    (s.modSlot c' k' f).runOf c k = s.runOf c k := by
  unfold State.runOf
  rw [State.slotAt_modSlot]
  split
  case isTrue hck => rw [hx, ht, hck.1, hck.2]
  case isFalse => rfl
theorem runOf_trace (kind : Nat) (st : Strm) (code data : Nat) : (s.trace c' k' kind st code data).runOf c k = s.runOf c k := by
  unfold State.runOf
  rw [slotAt_trace]
theorem Slot.x_modSs (sl : Slot) (st : Strm) (f : StreamSt → StreamSt) : (sl.modSs st f).x = sl.x := by cases st <;> rfl
theorem Slot.task_modSs (sl : Slot) (st : Strm) (f : StreamSt → StreamSt) : (sl.modSs st f).task = sl.task := by cases st <;> rfl
theorem runOf_requestStop (st : Strm) (cause : StopCause) : (s.requestStop c' k' st cause).runOf c k = s.runOf c k := by
  have traced (b : Bool) : (if b then s.trace c' k' 11 st 0 cause.no else s).runOf c k = s.runOf c k := by
    cases b
    · rfl
    · exact runOf_trace ..
  have stream : (st = .c ∨ st = .v) → (s.requestStop c' k' st cause).runOf c k = s.runOf c k := by
    intro h
    rcases h with rfl | rfl
    all_goals
      unfold State.requestStop
      dsimp only
      split
      · rfl
      · exact (runOf_modSlot (fun sl => by exact sl.x_modSs ..) fun sl => by exact sl.task_modSs ..).trans (traced _)
  cases st with
  | c => exact stream (.inl rfl)
  | v => exact stream (.inr rfl)
  | _ => exact (runOf_modSlot (fun _ => by rfl) fun _ => by rfl).trans (traced _)
theorem runOf_requestAll (cause : StopCause) : (s.requestAll c' k' cause).runOf c k = s.runOf c k :=
  foldl_keeps (fun s : State => s.runOf c k) (fun _ _ => runOf_requestStop ..) allStrms s
theorem runOf_setStopc (p i : Nat) (code : Code) : (s.setStopc p i code).runOf c k = s.runOf c k := by
  unfold State.setStopc State.runOf
  rw [(sameSlots_pwrite ..).slot c k]
  rfl
theorem begun_of_runOf (h : t.runOf c k = s.runOf c k) : (t.slotAt c k).begun = (s.slotAt c k).begun :=
  Slot.begun_congr (congrArg Prod.fst h) (congrArg Prod.snd h)
/-- A task that is not stopping stops with the code. -/
theorem runOf_stopTask {code : Code} {st : Nat} {eva : Word} (hi : (s.slotAt c k).task.isSome = true)
    (hs : (s.slotAt c k).t.stopping = none) : (s.stopTask c k code st eva).runOf c k =
      ((s.slotAt c k).x, (s.slotAt c k).task.map fun t => { t with stopping := some code, stopStrm := st, stopEva := eva }) := by
  unfold State.stopTask
  dsimp only
  obtain ⟨t, ht⟩ := Option.isSome_iff_exists.mp hi
  rw [if_neg (by simp [ht, hs]), runOf_requestAll, runOf_setStopc]
  unfold State.runOf
  rw [State.slotAt_modSlot, if_pos ⟨rfl, rfl⟩]
  rfl
theorem stopTask_idle {code : Code} {st : Nat} {eva : Word} (h : (s.slotAt c k).task = none ∨ (s.slotAt c k).t.stopping ≠ none) :
    s.stopTask c k code st eva = s := by
  unfold State.stopTask
  dsimp only
  refine if_pos ?_
  rcases h with h | h
  · simp [h]
  · simp [Option.isSome_iff_ne_none, h]
end

section
variable {s : State} {c k : Nat}
/-- A slot whose launch failed, before its task stops. -/
def Slot.launchFault (code : Code) (st : Nat) (epc eva : Word) (sl : Slot) : Slot :=
  { sl with
    cause := BitVec.ofNat 64 (code.toNat + 256 * st)
    epc := epc
    eva := eva
    cs := { sl.cs with pc := sl.t.entry } }
theorem failLaunch_eq (code : Code) (st : Nat) (epc eva : Word) : s.failLaunch c k code st epc eva =
    (s.modSlot c k (·.launchFault code st epc eva)).stopTask c k code st eva := rfl
theorem slotAt_launchFault (code : Code) (st : Nat) (epc eva : Word) :
    (s.modSlot c k (·.launchFault code st epc eva)).slotAt c k = (s.slotAt c k).launchFault code st epc eva := by
  rw [State.slotAt_modSlot, if_pos ⟨rfl, rfl⟩]
theorem begun_stopTask (code : Code) (st : Nat) (eva : Word) :
    ((s.stopTask c k code st eva).slotAt c k).begun = (s.slotAt c k).begun := by
  by_cases h : (s.slotAt c k).task.isSome = true ∧ (s.slotAt c k).t.stopping = none
  · have hr := runOf_stopTask (code := code) (st := st) (eva := eva) h.1 h.2
    exact (Slot.begun_congr (a := (s.slotAt c k).modTask fun t => { t with stopping := some code, stopStrm := st, stopEva := eva })
      (congrArg Prod.fst hr) (congrArg Prod.snd hr)).trans ((s.slotAt c k).begun_modTask fun _ => rfl)
  · rw [stopTask_idle]
    rw [not_and_or, Bool.not_eq_true, Option.isSome_eq_false_iff, Option.isNone_iff_eq_none] at h
    exact h
theorem begun_failLaunch (code : Code) (st : Nat) (epc eva : Word) :
    ((s.failLaunch c k code st epc eva).slotAt c k).begun = (s.slotAt c k).begun := by
  rw [failLaunch_eq, begun_stopTask, slotAt_launchFault]
  rfl
/-- A launch that fails stops the task. -/
theorem stopping_failLaunch {code : Code} {st : Nat} {epc eva : Word} (hi : (s.slotAt c k).task.isSome = true)
    (hs : (s.slotAt c k).t.stopping = none) : ((s.failLaunch c k code st epc eva).slotAt c k).t.stopping ≠ none := by
  rw [failLaunch_eq]
  have hf := slotAt_launchFault (s := s) (c := c) (k := k) code st epc eva
  have hr := runOf_stopTask (s := s.modSlot c k (·.launchFault code st epc eva)) (code := code) (st := st) (eva := eva)
    (by rw [hf]; exact hi) (by rw [hf]; exact hs)
  obtain ⟨t, ht⟩ := Option.isSome_iff_exists.mp hi
  have : (((s.modSlot c k (·.launchFault code st epc eva)).stopTask c k code st eva).slotAt c k).task =
      some { t with stopping := some code, stopStrm := st, stopEva := eva } := by
    refine (congrArg Prod.snd hr).trans ?_
    rw [hf]
    exact congrArg (Option.map _) ht
  rw [Slot.t, this]
  exact Option.some_ne_none code
end

/-! ### The image (R84) -/

theorem Slot.begun_pushCmd (sl : Slot) (r : RingId) (w : BitVec 128) : (sl.pushCmd r w).begun = sl.begun := by
  have h (sl : Slot) (n : Nat) : (sl.pushSem n).begun = sl.begun := Slot.begun_congr (Slot.setSem_x ..) (Slot.setSem_task ..)
  refine (h _ _).trans ?_
  cases r <;> rfl
/-- The commands that a ring loads change neither scalar registers nor the task. -/
theorem begun_loadRing {r : RingId} {l : List (BitVec 128)} {sl sl' : Slot} (h : loadRing r l sl = .ok sl') : sl'.begun = sl.begun := by
  induction l generalizing sl with
  | nil => exact congrArg Slot.begun (Except.ok.inj h).symm
  | cons w t ih =>
    unfold loadRing at h
    split at h
    · cases h
    · refine (ih h).trans (Eq.trans ?_ (sl.begun_pushCmd r w))
      cases r <;> rfl
theorem begun_loadSection {r : RingId} {l : List (BitVec 128)} {sl sl' : Slot} {ε : Type} {f : Nat × Code → ε}
    (h : (loadRing r l sl).mapError f = .ok sl') : sl'.begun = sl.begun := by
  cases hl : loadRing r l sl with
  | error e =>
    rw [hl] at h
    cases h
  | ok u =>
    rw [hl] at h
    cases h
    exact begun_loadRing hl
/-- An image is loaded into its slot, or its launch fails. -/
theorem startImage_cases (s : State) (c k : Nat) :
    (∃ code st epc eva, s.startImage c k = s.failLaunch c k code st epc eva) ∨
    ∃ sl, s.startImage c k = s.putSlot c k sl ∧ sl.begun = (s.slotAt c k).begun := by
  unfold State.startImage
  dsimp only
  split
  · exact .inl ⟨_, _, _, _, rfl⟩
  · split
    · exact .inl ⟨_, _, _, _, rfl⟩
    · split
      · exact .inl ⟨_, _, _, _, rfl⟩
      · exact .inl ⟨_, _, _, _, rfl⟩
      · exact .inl ⟨_, _, _, _, rfl⟩
      · split
        case h_1 sl hl =>
          refine .inr ⟨sl, rfl, ?_⟩
          split at hl
          · cases hl
          case h_2 xs hx =>
            split at hx
            · cases hx
            case h_2 ms hm =>
              exact (begun_loadSection hl).trans ((begun_loadSection hx).trans ((begun_loadSection hm).trans rfl))
        · exact .inl ⟨_, _, _, _, rfl⟩
theorem begun_startImage (s : State) (c k : Nat) : ((s.startImage c k).slotAt c k).begun = (s.slotAt c k).begun := by
  rcases startImage_cases s c k with ⟨code, st, epc, eva, h⟩ | ⟨sl, h, hb⟩
  · rw [h, begun_failLaunch]
  · rw [h, State.slotAt_putSlot, if_pos ⟨rfl, rfl⟩, hb]
theorem startImage_misaligned {s : State} {c k : Nat} (h : (s.slotAt c k).t.entry.toNat % 256 ≠ 0) :
    ∃ code st epc eva, s.startImage c k = s.failLaunch c k code st epc eva := by
  unfold State.startImage
  dsimp only
  split
  · exact ⟨_, _, _, _, rfl⟩
  · have hk (n : Nat) : headerOk (s.slotAt c k).t.entry.toNat n = false := by
      unfold headerOk
      rw [beq_false_of_ne h]
      simp only [Bool.false_and]
    rw [hk]
    exact ⟨_, _, _, _, rfl⟩

/-! ### Launch -/

theorem liveMates_alone {s : State} {c k : Nat} (h : (s.slotAt c k).task.isSome = true) (hm : (s.slotAt c k).t.mates = [⟨c, k⟩]) :
    s.liveMates c k = [⟨c, k⟩] := by
  simp [State.liveMates, h, hm]
/-- The slot of a launch, cleared of what stood there before. -/
def State.launchCleared (s : State) (c k : Nat) : State :=
  ((s.forgetSlot ⟨c, k⟩).purgeTiles c k (s.pipeTile c)).modCore c fun co =>
    { co with rings := co.rings.filter fun (n, r) => n / 16 != k || r.pipe }
theorem seatOf_launchCleared (s : State) (c k c' k' : Nat) : (s.launchCleared c k).seatOf c' k' = s.seatOf c' k' :=
  (seatOf_modCore fun _ => by rfl).trans ((seatOf_purgeTiles ..).trans (seatOf_of_cores (cores_forgetSlot ..)))
/-- The registers of a launch, before capabilities and image are read. -/
def State.launchRegs (s : State) (c k : Nat) : State :=
  let s := s.modSlot c k fun sl => launchSlot s.mgmt.dev c k { sl with ch := [], taste := [] }
  let s := s.modSlot c k fun sl => sl.modTask fun t => { t with launched := true, runStart := s.seq }
  s.traceStart c k
/-- Capabilities and image of a launch. -/
def State.launchImage (s : State) (c k : Nat) (entry : Word) : State :=
  match s.loadCaps c k with
  | .error (code, eva) => s.failLaunch c k code 0 entry eva
  | .ok ch => (s.modSlot c k fun sl => { sl with ch := ch }).startImage c k
theorem launchOne_eq (s : State) (c k : Nat) :
    s.launchOne c k = ((s.launchCleared c k).launchRegs c k).launchImage c k (s.slotAt c k).t.entry := by
  unfold State.launchOne
  extract_lets _ purged cleared regs begun traced
  rw [show s.launchCleared c k = cleared from rfl, show cleared.launchRegs c k = traced from rfl]
  clear_value traced
  rfl
theorem slotAt_launchRegs (s : State) (c k : Nat) : (s.launchRegs c k).slotAt c k =
    (launchSlot s.mgmt.dev c k { s.slotAt c k with ch := [], taste := [] }).modTask
      fun t => { t with launched := true, runStart := s.seq } := by
  unfold State.launchRegs State.traceStart
  dsimp only
  rw [slotAt_trace, State.slotAt_modSlot, if_pos ⟨rfl, rfl⟩, State.slotAt_modSlot, if_pos ⟨rfl, rfl⟩]
  rfl
section
variable {s : State} {c k : Nat}
theorem launchRegs_launchedAs {t : Task} (h : (s.slotAt c k).task.isSome = true) (ht : (s.slotAt c k).t.seat = t.seat) :
    ((s.launchRegs c k).slotAt c k).launchedAs t := by
  rw [slotAt_launchRegs]
  exact launchedAs_launchSlot _ h ht rfl
theorem launchRegs_isSome (h : (s.slotAt c k).task.isSome = true) : ((s.launchRegs c k).slotAt c k).task.isSome = true := by
  rw [slotAt_launchRegs, Slot.isSome_modTask, task_launchSlot]
  exact h
/-- A task that begins its first run has the header address and the stop of its seating. -/
theorem t_launchRegs (h : (s.slotAt c k).task.isSome = true) : ∃ n, ((s.launchRegs c k).slotAt c k).t =
    { (s.slotAt c k).t with launched := true, runStart := n } := by
  rw [slotAt_launchRegs, Slot.t_modTask _ (by rw [task_launchSlot]; exact h), Slot.t, task_launchSlot]
  exact ⟨s.seq, rfl⟩
theorem begun_launchImage (entry : Word) : ((s.launchImage c k entry).slotAt c k).begun = (s.slotAt c k).begun := by
  unfold State.launchImage
  split
  · exact begun_failLaunch ..
  · rw [begun_startImage, State.slotAt_modSlot, if_pos ⟨rfl, rfl⟩]
    rfl
/-- A header off its alignment stops the task (R84). -/
theorem launchImage_misaligned (entry : Word) (h : (s.slotAt c k).task.isSome = true)
    (he : (s.slotAt c k).t.entry.toNat % 256 ≠ 0) (hs : (s.slotAt c k).t.stopping = none) :
    ((s.launchImage c k entry).slotAt c k).t.stopping ≠ none := by
  unfold State.launchImage
  split
  · exact stopping_failLaunch h hs
  case h_2 ch _ =>
    have hsl : (s.modSlot c k fun sl => { sl with ch := ch }).slotAt c k = { s.slotAt c k with ch := ch } := by
      rw [State.slotAt_modSlot, if_pos ⟨rfl, rfl⟩]
    obtain ⟨code, st, epc, eva, hf⟩ := startImage_misaligned (s := s.modSlot c k fun sl => { sl with ch := ch })
      (c := c) (k := k) (by rw [hsl]; exact he)
    rw [hf]
    exact stopping_failLaunch (by rw [hsl]; exact h) (by rw [hsl]; exact hs)
theorem launchOne_launchedAs (h : (s.slotAt c k).task.isSome = true) :
    ((s.launchOne c k).slotAt c k).launchedAs (s.slotAt c k).t := by
  have hs := seatOf_launchCleared s c k c k
  rw [launchOne_eq]
  exact Slot.launchedAs_of_begun (begun_launchImage _) (launchRegs_launchedAs ((Slot.isSome_seat hs).trans h) (Slot.t_seat hs))
theorem launchOne_misaligned (h : (s.slotAt c k).task.isSome = true) (he : (s.slotAt c k).t.entry.toNat % 256 ≠ 0)
    (hs : (s.slotAt c k).t.stopping = none) : ((s.launchOne c k).slotAt c k).t.stopping ≠ none := by
  have hseat := seatOf_launchCleared s c k c k
  have ht := Slot.t_seat hseat
  have hi : ((s.launchCleared c k).slotAt c k).task.isSome = true := (Slot.isSome_seat hseat).trans h
  obtain ⟨n, hn⟩ := t_launchRegs hi
  rw [launchOne_eq]
  refine launchImage_misaligned _ (launchRegs_isSome hi) ?_ ?_
  · rw [hn]
    exact (congrArg (·.toNat % 256) (Task.entry_of_seat ht)).trans_ne he
  · rw [hn]
    exact (Task.stopping_of_seat ht).trans hs
end
theorem taskLaunch_waits {s : State} {c k : Nat}
    (h : (s.slotAt c k).task = none ∨ (s.slotAt c k).t.launched = true ∨ (s.slotAt c k).out = true) :
    exec (.taskLaunch ⟨c, k⟩) s = .next s := by
  rw [exec_taskLaunch]
  refine if_pos ?_
  rcases h with h | h | h <;> simp [h]
theorem taskLaunch_alone {s : State} {c k : Nat} (h : (s.slotAt c k).task.isSome = true) (hm : (s.slotAt c k).t.mates = [⟨c, k⟩])
    (hl : (s.slotAt c k).t.launched = false) (ho : (s.slotAt c k).out = false) :
    exec (.taskLaunch ⟨c, k⟩) s = .next (s.launchOne c k) := by
  rw [exec_taskLaunch]
  unfold execTaskLaunch
  simp only [liveMates_alone h hm, List.foldl_cons, List.foldl_nil, hl, ho, Option.isNone_eq_false_iff.mpr h]
  exact if_neg (by decide)

/-! ### Restart of a re-fire (R397, R459) -/

/-- The slot of a restart, cleared of what its last run held. -/
def State.refireCleared (s : State) (c k : Nat) : State :=
  let s := ((((s.abortColls ⟨c, k⟩).abandonSlot c k).leaveEngines c k).dropFills c k).forgetRuns ⟨c, k⟩
  ((s.withdrawBar c k).breakObjs c k).resetPipes c k
theorem seatOf_refireCleared (s : State) (c k : Nat) : (s.refireCleared c k).seatOf c k = s.seatOf c k := by
  unfold State.refireCleared
  dsimp only
  rw [seatOf_resetPipes, seatOf_breakObjs, seatOf_withdrawBar, seatOf_of_cores (cores_forgetRuns ..), seatOf_dropFills,
    seatOf_leaveEngines, seatOf_abandonSlot, seatOf_abortColls]
/-- The registers and counts of a restart, before the image is read. -/
def State.restarted (s : State) (c k : Nat) : State :=
  let s := s.modSlot c k fun sl =>
    launchSlot s.mgmt.dev c k
      { sl with taste := sl.taste.map fun (e, te) => (e, if te.st = .tasted then { te with st := .pending } else te) }
  let s := s.modSlot c k fun sl => { sl.modTask fun t =>
    { t with refcnt := t.refcnt + 1, runStart := s.seq, refiring := false, depth := 0 } with heldRefire := false }
  (s.traceStart c k).count c 0x15 (some k)
/-- A halt that stands is asked again. -/
def State.haltAgain (s : State) (c k : Nat) : State :=
  if (s.slotAt c k).dbg.st = .halting then s.requestAll c k .halt else s
theorem refireOne_eq (s : State) (c k : Nat) :
    s.refireOne c k = (((s.refireCleared c k).restarted c k).startImage c k).haltAgain c k := by
  unfold State.refireOne State.haltAgain
  extract_lets _ cleared _ begun
  rw [show s.refireCleared c k = cleared from rfl,
    show cleared.restarted c k = (begun.traceStart c k).count c 0x15 (some k) from rfl]
theorem begun_haltAgain (s : State) (c k : Nat) : ((s.haltAgain c k).slotAt c k).begun = (s.slotAt c k).begun := by
  unfold State.haltAgain
  split
  · exact begun_of_runOf (runOf_requestAll ..)
  · rfl
theorem begun_restarted (s : State) (c k : Nat) : ∃ (dev n : Nat) (sl : Slot), sl.seat = (s.slotAt c k).seat ∧
    ((s.restarted c k).slotAt c k).begun = ((launchSlot dev c k sl).modTask fun t =>
      { t with refcnt := t.refcnt + 1, runStart := n, refiring := false, depth := 0 }).begun := by
  refine ⟨s.mgmt.dev, s.seq, { s.slotAt c k with
    taste := (s.slotAt c k).taste.map fun (e, te) => (e, if te.st = .tasted then { te with st := .pending } else te) }, rfl, ?_⟩
  unfold State.restarted State.traceStart
  dsimp only
  rw [State.slotAt_count, slotAt_trace, State.slotAt_modSlot, if_pos ⟨rfl, rfl⟩, State.slotAt_modSlot, if_pos ⟨rfl, rfl⟩]
  exact Slot.begun_congr rfl rfl
/-- A restart gives the registers of the launch and counts one re-fire more. -/
theorem refireOne_spec {s : State} {c k : Nat} (h : (s.slotAt c k).task.isSome = true) (hl : (s.slotAt c k).t.launched = true) :
    ((s.refireOne c k).slotAt c k).launchedAs (s.slotAt c k).t ∧
    ((s.refireOne c k).slotAt c k).t.refcnt = (s.slotAt c k).t.refcnt + 1 ∧
    ((s.refireOne c k).slotAt c k).t.refiring = false := by
  obtain ⟨dev, n, sl, hs, hb⟩ := begun_restarted (s.refireCleared c k) c k
  have hs : sl.seat = (s.slotAt c k).seat := hs.trans (seatOf_refireCleared s c k)
  have hi : sl.task.isSome = true := (Slot.isSome_seat hs).trans h
  have ht : sl.t.seat = (s.slotAt c k).t.seat := Slot.t_seat hs
  have hbegun : ((s.refireOne c k).slotAt c k).begun = ((launchSlot dev c k sl).modTask fun t =>
      { t with refcnt := t.refcnt + 1, runStart := n, refiring := false, depth := 0 }).begun := by
    rw [refireOne_eq, begun_haltAgain, begun_startImage, hb]
  refine ⟨Slot.launchedAs_of_begun hbegun (launchedAs_launchSlot _ hi ht ((Task.launched_of_seat ht).trans hl)), ?_, ?_⟩
  · rw [Slot.refcnt_of_begun hbegun, Slot.t_modTask _ (by rw [task_launchSlot, hi]), Slot.t, task_launchSlot]
    exact congrArg (· + 1) (Task.refcnt_of_seat ht)
  · rw [Slot.refiring_of_begun hbegun, Slot.t_modTask _ (by rw [task_launchSlot, hi])]
/-- What keeps a task from restarting. -/
theorem refireRestart_waits {s : State} {c k : Nat} (h : (s.slotAt c k).task.isSome = true) (hm : (s.slotAt c k).t.mates = [⟨c, k⟩])
    (hw : (s.slotAt c k).t.launched = false ∨ (s.slotAt c k).t.refiring = false ∨ (s.slotAt c k).t.stopping ≠ none ∨
      (s.slotAt c k).allStopped = false ∨ (s.slotAt c k).out = true) : exec (.refireRestart ⟨c, k⟩) s = .next s := by
  rw [exec_refireRestart]
  unfold execRefireRestart
  simp only [liveMates_alone h hm]
  refine if_pos ?_
  rcases hw with hw | hw | hw | hw | hw <;> simp [hw, Option.isSome_iff_ne_none]
theorem refireRestart_alone {s : State} {c k : Nat} (h : (s.slotAt c k).task.isSome = true) (hm : (s.slotAt c k).t.mates = [⟨c, k⟩])
    (hl : (s.slotAt c k).t.launched = true) (hr : (s.slotAt c k).t.refiring = true) (hs : (s.slotAt c k).t.stopping = none)
    (ha : (s.slotAt c k).allStopped = true) (ho : (s.slotAt c k).out = false) (hf : (s.fn (s.slotAt c k).t.fn).sw = .isIn) :
    exec (.refireRestart ⟨c, k⟩) s = .next (s.refireOne c k) := by
  rw [exec_refireRestart]
  unfold execRefireRestart
  simp only [liveMates_alone h hm, List.isEmpty_cons, List.all_cons, List.all_nil, List.foldl_cons, List.foldl_nil, hl, hr, hs, ha, ho, hf]
  exact if_neg (by decide)

/-! ### The end of a task (R429, R444 to R447) -/

/-- A slot is free: no task, no holding, no monitor. -/
def Slot.free (sl : Slot) : Prop := sl.task = none ∧ sl.hold = Holding.reset ∧ sl.mon = Monitor.reset
theorem Slot.free_of_seat {a b : Slot} (h : b.seat = a.seat) (ha : a.free) : b.free := by
  obtain ⟨ht, hh, hm⟩ := ha
  have hseat : b.seat = (none, Holding.reset, some Monitor.reset) := by
    rw [h, Slot.seat, ht, hh, hm]
    rfl
  have hmon : (if b.mon.armed then none else some b.mon) = some Monitor.reset := congrArg (·.2.2) hseat
  refine ⟨Option.map_eq_none_iff.mp (congrArg Prod.fst hseat), congrArg (·.2.1) hseat, ?_⟩
  split at hmon
  · cases hmon
  · exact Option.some.inj hmon
theorem free_freeTaskSlot (s : State) (c k : Nat) : ((s.freeTaskSlot c k).slotAt c k).free := by
  unfold State.freeTaskSlot
  dsimp only
  refine Slot.free_of_seat (seatOf_endInst ..) ?_
  rw [State.slotAt_modSlot, if_pos ⟨rfl, rfl⟩]
  exact ⟨rfl, rfl, rfl⟩
/-- A task that leaves frees its slot. -/
theorem free_leave (s : State) (c k p i : Nat) (code : Option Code) : (((s.freeTaskSlot c k).leaveJob p i code).slotAt c k).free :=
  Slot.free_of_seat (seatOf_leaveJob ..) (free_freeTaskSlot s c k)
theorem taskRetire_waits {s : State} {c k : Nat} (h : (s.slotAt c k).t.launched = false ∨ (s.slotAt c k).t.stopping ≠ none ∨
    (s.slotAt c k).t.refiring = true ∨ (s.slotAt c k).anyRunning = true ∨ (s.slotAt c k).t.colls ≠ [] ∨ (s.slotAt c k).out = true) :
    exec (.taskRetire ⟨c, k⟩) s = .next s := by
  rw [exec_taskRetire]
  refine if_pos ?_
  rcases h with h | h | h | h | h | h <;> simp [h, Option.isSome_iff_ne_none]
theorem taskRetire_frees {s : State} {c k : Nat} (hl : (s.slotAt c k).t.launched = true) (hs : (s.slotAt c k).t.stopping = none)
    (hr : (s.slotAt c k).t.refiring = false) (ha : (s.slotAt c k).anyRunning = false) (hc : (s.slotAt c k).t.colls = [])
    (ho : (s.slotAt c k).out = false) : ∃ u, exec (.taskRetire ⟨c, k⟩) s = .next u ∧ (u.slotAt c k).free := by
  rw [exec_taskRetire]
  unfold execTaskRetire
  dsimp only
  rw [if_neg (by simp [hl, hs, hr, ha, hc, ho])]
  exact ⟨_, rfl, free_leave ..⟩
theorem taskStop_waits {s : State} {c k : Nat} (h : (s.slotAt c k).task = none ∨ (s.slotAt c k).t.stopping = none ∨
    (s.slotAt c k).allStopped = false ∨ (s.slotAt c k).out = true) : exec (.taskStop ⟨c, k⟩) s = .next s := by
  rw [exec_taskStop]
  unfold execTaskStop
  dsimp only
  split
  · rfl
  case h_2 code hc =>
    refine if_pos ?_
    rcases h with h | h | h | h
    · simp [h]
    · rw [h] at hc
      cases hc
    · simp [h]
    · simp [h]
theorem taskStop_frees {s : State} {c k : Nat} (ht : (s.slotAt c k).task ≠ none) (hs : (s.slotAt c k).t.stopping ≠ none)
    (ha : (s.slotAt c k).allStopped = true) (ho : (s.slotAt c k).out = false) :
    ∃ u, exec (.taskStop ⟨c, k⟩) s = .next u ∧ (u.slotAt c k).free := by
  rw [exec_taskStop]
  unfold execTaskStop
  dsimp only
  split
  case h_1 hc => exact absurd hc hs
  case h_2 =>
    rw [if_neg (by simp [ht, ha, ho])]
    exact ⟨_, rfl, free_leave ..⟩

/-- Settles O41: a launch and a restart set the registers by `launchSlot` and no step after it writes them; clearing a slot keeps
its seat (`seatOf`), and nothing after `freeTaskSlot` seats it again. -/
theorem taskLifeResults : Obligations.TaskLifeResults := by
  refine ⟨fun s c k => ⟨taskLaunch_waits, ?_⟩, fun s c k => ?_, fun s c k => ⟨taskRetire_waits, taskRetire_frees⟩,
    fun s c k => ⟨taskStop_waits, taskStop_frees⟩⟩
  · rintro ⟨h, hm⟩ hl ho
    exact ⟨_, taskLaunch_alone h hm hl ho, launchOne_launchedAs h, launchOne_misaligned h⟩
  · rintro ⟨h, hm⟩
    refine ⟨refireRestart_waits h hm, fun hl hr hs ha ho hf => ⟨_, refireRestart_alone h hm hl hr hs ha ho hf, ?_⟩⟩
    exact refireOne_spec h hl
end Sys2Proof.Machine
end

section
namespace Sys2Proof.Machine

/-! ### Reset (R464): nothing is listed, so each place reads as its reset value -/

@[simp] theorem State.core_reset (c : Nat) : State.reset.core c = Core.reset := rfl
@[simp] theorem State.slotAt_reset (c k : Nat) : State.reset.slotAt c k = Slot.reset := rfl
@[simp] theorem State.fn_reset (f : Nat) : State.reset.fn f = Func.reset := rfl
@[simp] theorem State.part_reset (p : Nat) : State.reset.part p = Part.reset := rfl
@[simp] theorem Core.gen_reset (e : Nat) : Core.reset.gen e = BitVec.ofNat 32 e := rfl
@[simp] theorem Core.bank_reset (b : Nat) : Core.reset.bank b = CounterBank.reset := rfl
@[simp] theorem Func.q_reset (n : Nat) : Func.reset.q n = LQueue.reset := rfl
@[simp] theorem vecOf_reset (v : Nat) : vecOf Func.reset v = Vector.reset := rfl
/-- Only the root is a listed currency (R150). -/
theorem State.cur?_reset (k : Nat) : State.reset.cur? k = if k = 0 then Currency.root else Currency.reset := by
  simp only [State.cur?, State.reset, Sparse.get, eq_comm (a := k)]

/-- Settles O49: each place reads as the reset value of its structure, whose fields are the constants of the rules. -/
theorem resetState : Obligations.ResetState := by
  unfold Obligations.ResetState
  simp only [State.core_reset, State.slotAt_reset, State.fn_reset, State.part_reset, Core.gen_reset, Core.bank_reset,
    Func.q_reset, vecOf_reset, State.cur?_reset]
  refine ⟨rfl, rfl, rfl, rfl, fun _ _ => ⟨rfl, rfl, rfl⟩, fun _ _ _ => trivial, fun _ _ => rfl, fun _ => ?_, fun _ => ?_, rfl,
    fun k hk => ?_⟩
  · exact ⟨rfl, rfl, rfl, rfl, rfl, rfl, rfl, rfl, rfl, rfl, rfl, fun _ => ⟨rfl, rfl⟩, fun _ => rfl⟩
  · exact ⟨rfl, rfl, rfl, rfl, rfl, rfl, rfl⟩
  · rw [if_neg hk]
    rfl
end Sys2Proof.Machine
end

section
namespace Sys2Proof.Machine

/-! ### Launch packets (R93, R97) -/

theorem bitsN_zero (v n : Nat) : bitsN v 0 n = v % 2 ^ n := by rw [bitsN, Nat.pow_zero, Nat.div_one]

/-- A packet that passes its check has one of the five kinds. -/
theorem kind_of_packetCheck {v : Nat} (h : packetCheck v = .ok ()) : v % 16 ≤ 4 := by
  by_contra hk
  unfold packetCheck at h
  rw [if_pos (.inl (by rw [bitsN_zero]; omega))] at h
  cases h

/-- The QE has moved HEAD on, given the next PSEQ, and noted whom it served. -/
def State.served (s : State) (f q p : Nat) : State :=
  (s.modFn f fun fn => { fn.putQ q { fn.q q with head := (fn.q q).head + 1 } with pseq := fn.pseq + 1 }).modPart p
    fun x => { x with lastQ := 8 * f + q + 1 }
theorem State.lrec_served (s : State) (f q p i : Nat) : (s.served f q p).lrec p i = s.lrec p i := by
  unfold State.served
  rw [State.lrec_modPart rfl]
  rfl

/-- The queue serves v, and its journal names v in an entry of this kind. -/
def State.servedAs (s : State) (kind f q p v : Nat) : State :=
  (s.served f q p).journal f ⟨kind, (s.fn f).pseq, 0, q, bitsN v 8 12, bitsN v 32 32, (s.lrec p (bitsN v 8 12)).gen.toNat⟩

section
variable {s : State} {f q p v : Nat} (hv : s.packetAt f q = .ok v) (hc : packetCheck v = .ok ())
include hv hc

/-- The event of the packet's kind takes it. -/
theorem packet_takes (hr : s.queueReady f q = true) (ht : s.queueTurn f q = true) :
    packet (v % 16) ⟨f, q⟩ s = .next (s.takePacket f q) := by
  have hk : s.packetKind f q = v % 16 := by
    unfold State.packetKind
    rw [hv]
    dsimp only
    rw [bitsN_zero]
    exact if_pos (kind_of_packetCheck hc)
  exact if_pos (by simp [hr, hk, ht])

variable (hp : s.partOfFn f = some p)
include hp

theorem takePacket_eq : s.takePacket f q =
    if v.testBit 25 = true ∧ (s.lrec p (bitsN v 8 12)).gen.toNat ≠ bitsN v 128 32 then s.servedAs 3 f q p v
    else (s.servedAs 1 f q p v).packetEffect f q p v (s.fn f).pseq := by
  unfold State.takePacket
  simp only [hv, hp, hc, Option.getD_some]
  rw [← State.served, State.lrec_served]
  rfl
end

section
variable {f q p v pseq : Nat} (s : State)
theorem packetEffect_nop (h : v % 16 = 0) : s.packetEffect f q p v pseq = s := by
  simp [State.packetEffect, bitsN_zero, h]
theorem packetEffect_arm (h : v % 16 = 1) :
    s.packetEffect f q p v pseq = (s.arm p (bitsN v 8 12) (some (f, pseq, q, bitsN v 32 32))).1 := by
  simp [State.packetEffect, bitsN_zero, h]
theorem packetEffect_dec (h : v % 16 = 2) :
    s.packetEffect f q p v pseq = s.decrement p (bitsN v 8 12) (bitsN v 32 32) (some (pseq, q)) := by
  simp [State.packetEffect, bitsN_zero, h]
variable {lo n : Nat} (hl : patchCheck (bitsN v 20 5) (bitsN v 64 64) = .ok (lo, n))
include hl
theorem packetEffect_patch (h : v % 16 = 3) :
    s.packetEffect f q p v pseq = s.patch p (bitsN v 8 12) lo n (bitsN v 64 64) := by
  simp [State.packetEffect, bitsN_zero, h, hl]
theorem packetEffect_patcharm (h : v % 16 = 4) : s.packetEffect f q p v pseq =
    ((s.patch p (bitsN v 8 12) lo n (bitsN v 64 64)).arm p (bitsN v 8 12) (some (f, pseq, q, bitsN v 32 32))).1 := by
  simp [State.packetEffect, bitsN_zero, h, hl]
end

/-- The events for a packet, by kind. -/
theorem exec_packetEvent {kind : Nat} (h : kind < 5) (o : QueueRef) (s : State) :
    exec ([Instr.packetNop o, .packetArm o, .packetDec o, .packetPatch o, .packetPatcharm o].getD kind (.packetNop o)) s =
      packet kind o s := by
  match kind, h with
  | 0, _ | 1, _ | 2, _ | 3, _ | 4, _ => rfl

/-! ### Queue registers, peer packets, time triggers and settlement -/

theorem State.modQ_congr {s : State} {f n : Nat} {g h : LQueue → LQueue} (e : g ((s.fn f).q n) = h ((s.fn f).q n)) :
    s.modQ f n g = s.modQ f n h := by
  simp only [State.modQ, State.modFn, e]
theorem qtailWrite_takes {s : State} {f n : Nat} {v : Word} (hr : (s.fn f).ready = true) (hn : n < 8)
    (hf : ((s.fn f).q n).fab = false) (hs : (s.fn f).sw = .isIn) :
    exec (.qtailWrite ⟨f, n, v⟩) s = .next (s.modQ f n (·.setTail (v.setWidth 32))) := by
  rw [exec_qtailWrite]
  unfold execQtailWrite
  dsimp only
  rw [if_neg (by simp [hr, hf, hn]), if_neg (by simp [hs])]
theorem LQueue.setTail_eq {q : LQueue} (v : BitVec 32) (h : q.overrun = false) :
    q.setTail v = if 2 ^ q.lsz < (v - q.head).toNat then { q with overrun := true } else { q with tail := v } := by
  rw [LQueue.setTail, if_neg (by simp [h])]
theorem qcfgWrite_takes {s : State} {f n : Nat} {v : Word} (hr : (s.fn f).ready = true) (hn : n < 8) :
    exec (.qcfgWrite ⟨f, n, v⟩) s = .next (s.modQ f n (·.setCfg v.toNat)) := by
  rw [exec_qcfgWrite]
  unfold execQcfgWrite
  rw [if_neg (by simp [hr, hn])]
/-- A write that sets EN of a queue empties it (R91). -/
theorem LQueue.setCfg_enables {q : LQueue} {v : Word} (he : q.en = false) (hlo : 4 ≤ v.toNat / 4 % 16) (hhi : v.toNat / 4 % 16 ≤ 12)
    (hv : v.getLsbD 0 = true) : q.setCfg v.toNat =
      { q with fab := v.getLsbD 1, lsz := v.toNat / 4 % 16, en := true, head := 0, tail := 0, overrun := false, heldTail := none } := by
  have hsz : bitsN v.toNat 2 4 = v.toNat / 4 % 16 := rfl
  unfold LQueue.setCfg
  simp only [bitN_eq_getLsbD, hv, he, hsz, if_true]
  rw [if_neg (by simp), if_neg (by omega)]
/-- An admitted packet of a peer that finds room is stored at TAIL. -/
theorem peerPacket_stored {s : State} {o : PeerPacket} {p : Nat} {ps : List (Nat × Nat)} (hp : s.partOfFn o.fn = some p)
    (ha : (s.part p).admits o.sdev o.spart o.fn o.q (o.pkt.toNat % 16) = true) (he : ((s.fn o.fn).q o.q).en = true)
    (hf : ((s.fn o.fn).q o.q).fab = true) (hq : o.q < 8)
    (hr : (((s.fn o.fn).q o.q).tail - ((s.fn o.fn).q o.q).head).toNat < 2 ^ ((s.fn o.fn).q o.q).lsz) (hs : (s.fn o.fn).sw = .isIn)
    (hw : s.pieces none o.fn p .wr
      (((s.fn o.fn).q o.q).base.toNat + 64 * (((s.fn o.fn).q o.q).tail.toNat % 2 ^ ((s.fn o.fn).q o.q).lsz)) 64 = .ok ps) :
    s.peerPacket o = some ((s.pwrites none ps (natLe 64 o.pkt.toNat)).modQ o.fn o.q fun q => { q with tail := q.tail + 1 }) := by
  unfold State.peerPacket
  simp only [hp, bitsN_zero, hw]
  rw [if_neg (by simp [ha, he, hf, hq]), if_neg (by rintro (h | h); exacts [absurd hr (Nat.not_lt.mpr h), h hs])]
theorem timeTrigger_fires {s : State} {p i : Nat} (h : (s.lrec p i).st = .ready) (he : (s.lrec p i).eligible = false)
    (ht : (s.lrec p i).h 384 64 ≤ s.now) : exec (.timeTrigger ⟨p, i⟩) s =
      .next (s.modPart p fun q => { q with recs := q.recs.put i { s.lrec p i with eligible := true } }) := by
  rw [exec_timeTrigger]
  exact if_pos ⟨h, by simp [he], ht⟩
/-- A settled group is latched (R400, R401). -/
theorem settlement_latches {s : State} {p g : Nat} (hd : ((s.part p).settleAt g).defined = true)
    (hl : ((s.part p).settleAt g).latch = false) (hs : s.settled ((s.part p).settleAt g) = true) :
    let x := (s.part p).settleAt g
    let u := s.modPart p fun q => q.setSettle g { x with latch := true }
    exec (.settlement ⟨p, g⟩) s = .next (if x.rel then u.decrement p x.ridx (0x80000000 + g) none else u) := by
  rw [exec_settlement]
  exact congrArg _ (if_pos (by simp [hd, hl, hs]))

/-- Settles O21: the event of a packet's kind takes it, and its effect is by kind; the other acts of the queue engine one by one. -/
theorem queueEngineResults : Obligations.QueueEngineResults := by
  unfold Obligations.QueueEngineResults
  refine ⟨fun s f q p v hr ht hv hc hp => ?_, fun s f n v hr hn => ⟨fun hf hs ho => ?_, fun he hlo hhi hv => ?_⟩,
    fun s o p ps hp ha he hf hq hr hs hw => ?_, fun s p i hst he ht => ?_, fun s p g hd hl hs => ?_⟩
  · intro i tag pseq s1 t op ev
    refine ⟨fun hg => ?_, fun hb hg hk => ?_⟩
    · have hfresh : ¬ (v.testBit 25 = true ∧ (s.lrec p i).gen.toNat ≠ v / 2 ^ 128 % 2 ^ 32) := fun ⟨hb, hne⟩ =>
        hg.elim (fun h => by simp [h] at hb) hne
      have takes {k : Nat} (hk : v % 16 = k) : packet k ⟨f, q⟩ s = .next (t.packetEffect f q p v pseq) := by
        rw [← hk, packet_takes hv hc hr ht, takePacket_eq hv hc hp]
        exact congrArg _ (if_neg hfresh)
      exact ⟨fun hk => (takes hk).trans (congrArg _ (packetEffect_nop t hk)),
        fun hk => (takes hk).trans (congrArg _ (packetEffect_arm t hk)),
        fun hk => (takes hk).trans (congrArg _ (packetEffect_dec t hk)),
        fun lo n hl => ⟨fun hk => (takes hk).trans (congrArg _ (packetEffect_patch t hl hk)),
          fun hk => (takes hk).trans (congrArg _ (packetEffect_patcharm t hl hk))⟩⟩
    · calc exec ev s = packet (v % 16) ⟨f, q⟩ s := exec_packetEvent hk ⟨f, q⟩ s
        _ = .next (s.takePacket f q) := packet_takes hv hc hr ht
        _ = .next (s.servedAs 3 f q p v) := congrArg _ ((takePacket_eq hv hc hp).trans (if_pos ⟨hb, hg⟩))
  · exact (qtailWrite_takes hr hn hf hs).trans (congrArg _ (State.modQ_congr (LQueue.setTail_eq _ ho)))
  · exact (qcfgWrite_takes hr hn).trans (congrArg _ (State.modQ_congr (LQueue.setCfg_enables he hlo hhi hv)))
  · rw [exec_peerPacketArrival, execPeerPacketArrival, peerPacket_stored hp ha he hf hq hr hs hw, Option.getD_some]
  · refine ⟨_, timeTrigger_fires hst he ht, ?_, rfl⟩
    simp only [State.lrec, State.part_modPart, if_true, Part.lrec, Sparse.get_put]
  · have latches := settlement_latches hd hl hs
    exact ⟨fun hr => latches.trans (congrArg _ (if_neg (by simp [hr]))), fun hr => latches.trans (congrArg _ (if_pos hr))⟩
end Sys2Proof.Machine
end

section
namespace Sys2Proof.Machine

/-! ### Instructions that wait, trap or send (R108, R412) -/

/-- An instruction of the C stream that traps, at its own address. -/
theorem instr_c_trapsAt {pr : Pred} {len : Nat} {body : State → Res} {s : State} {code : Code} {eva : Word} (h : s.cRuns pr)
    (hb : body s = .trap code eva) :
    instr pr len body s = .next (s.trapEntry s.cur.core s.cur.slot code .c s.me.cs.pc eva) :=
  (instr_c_trap h hb).trans (by rw [State.pc, h.1]; rfl)
/-- The current slot's C stream waits. -/
def State.cWaits (s : State) (w : WaitFor) : State := s.modMe fun sl => { sl with cs := { sl.cs with waiting := some w } }
theorem settleRes_cWaits {s t : State} (h : t.cur.strm = .c) (len : Nat) (w : WaitFor) :
    s.settleRes len (.wait t w) = t.cWaits w := by
  rw [settleRes_wait, h]
  rfl

/-- The C stream's instruction has no packet at its port. -/
def State.idle (s : State) : Prop := ∀ no c n d v, s.me.cs.waiting ≠ some (.sent no c n d v)
theorem afterSend_idle {s : State} (h : s.idle) (r : Res) : s.afterSend r = r := by
  unfold State.afterSend
  split
  · next hw => exact absurd hw (h _ _ _ _ _)
  · rfl
theorem afterSend_sent {s : State} {no c n : Nat} {d : Reg} {v : Word} (h : s.me.cs.waiting = some (.sent no c n d v)) (r : Res) :
    s.afterSend r = if (s.fn s.me.t.fn).unsent no then .wait s (.sent no c n d v) else .done (s.modMe (·.sentEnd c d v)) := by
  unfold State.afterSend
  rw [h]
/-- An instruction whose packet stands at its port waits for it, and completes when it has left. -/
theorem instr_c_sent {pr : Pred} {len : Nat} {body : State → Res} {s : State} {r : Res} {no c n : Nat} {d : Reg} {v : Word}
    (hc : s.cRuns pr) (hb : body s = s.afterSend r) (h : s.me.cs.waiting = some (.sent no c n d v)) :
    ((s.fn s.me.t.fn).unsent no = true → instr pr len body s = .next (s.cWaits (.sent no c n d v))) ∧
    ((s.fn s.me.t.fn).unsent no = false →
      instr pr len body s = .next ((s.modMe fun sl => (sl.useAllow c).setX d v).advance len)) := by
  rw [instr_c hc, hb, afterSend_sent h]
  exact ⟨fun hu => by rw [if_pos hu, settleRes_cWaits hc.1], fun hu => by rw [if_neg (by simp [hu])]; rfl⟩
/-- A packet has joined a function's queue at port 0. -/
def State.atPort (s : State) (f : Nat) (x : PortPacket) : State :=
  s.modFn f fun fn => { fn with ports := Sparse.set [] fn.ports 0 (fn.port 0 ++ [x]) }
theorem OnlyKnown.cur {s t : State} (h : OnlyKnown s t) : t.cur = s.cur := by obtain ⟨_, _, _, _, _, rfl⟩ := h; rfl
/-- A packet for another device whose port has room leaves its instruction waiting. -/
theorem sendPeer_room {s t : State} {x : PortDest} {l : List Byte} {c n : Nat} {d : Reg} {v : Word} (ht : OnlyKnown s t)
    (hr : ((s.fn s.me.t.fn).port 0).length < 8) :
    t.sendPeer x l c n d v = .wait (t.atPort s.me.t.fn ⟨x, 0, l, s.seq⟩) (.sent s.seq c n d v) := by
  have hq : t.toPeer s.me.t.fn x l = some (t.atPort s.me.t.fn ⟨x, 0, l, s.seq⟩) := by
    obtain ⟨_, _, _, _, _, rfl⟩ := ht
    exact if_neg (Nat.not_le.mpr hr)
  unfold State.sendPeer
  rw [ht.me, hq]
  obtain ⟨_, _, _, _, _, rfl⟩ := ht
  rfl

/-! ### `LSEND` (R108) -/

/-- The function and the queue of an object number (R108). -/
theorem bitsN_lsendFn (obj : Nat) : bitsN obj 3 8 = obj / 8 % 256 := by norm_num [bitsN]
theorem bitsN_lsendQueue (obj : Nat) : bitsN obj 0 3 = obj % 8 := bitsN_zero obj 3

/-- Bit 0 of a capability is its valid bit. -/
theorem capValid_odd {e : Nat} (h : capValid e = true) : e % 2 = 1 := by
  simp only [capValid, bitN, Bool.and_eq_true, Nat.testBit_zero, decide_eq_true_eq] at h
  obtain ⟨⟨⟨⟨⟨⟨hvalid, -⟩, -⟩, -⟩, -⟩, -⟩, -⟩ := h
  exact hvalid
theorem lsendCap_iff (e : Nat) : lsendCap e = true ↔ e % 2 = 1 ∧ capValid e = true ∧ e.testBit 1 = true ∧ capKind e = 3 ∧
    capAllow e ≠ 0 ∧ capObj e / 8 % 256 ≤ 128 ∧ (capObj e).testBit 11 = false := by
  have hodd := capValid_odd (e := e)
  simp only [lsendCap, capGrants, bitN, bitsN_lsendFn, Bool.and_eq_true, bne_iff_ne, beq_iff_eq, decide_eq_true_eq,
    Bool.not_eq_true']
  tauto

theorem lsend_sent {s : State} {o : LsendOp} {no c n : Nat} {d : Reg} {v : Word} (hc : s.cRuns o.pr)
    (h : s.me.cs.waiting = some (.sent no c n d v)) :
    ((s.fn s.me.t.fn).unsent no = true → exec (.lsend o) s = .next (s.cWaits (.sent no c n d v))) ∧
    ((s.fn s.me.t.fn).unsent no = false →
      exec (.lsend o) s = .next ((s.modMe fun sl => (sl.useAllow c).setX d v).advance (wideLen o.wide))) := by
  rw [exec_lsend]
  exact instr_c_sent hc rfl h

/-- A read that meets no poison: of the host, or of bytes without any. -/
theorem readsClean {s : State} {pa n : Nat} (h : isHost pa = true ∨ poisoned s.memPoison 64 pa n = false) :
    (!isHost pa && poisoned s.memPoison 64 pa n) = false := by
  rcases h with h | h <;> simp [h]

section
variable {s : State} {o : LsendOp} (hc : s.cRuns o.pr) (hi : s.idle)
include hc hi

theorem lsend_uncapped (hk : lsendCap (s.me.cap o.c.toNat) = false) :
    exec (.lsend o) s = .next (s.trapEntry s.cur.core s.cur.slot fCap .c s.me.cs.pc 0) := by
  refine (exec_lsend o s).trans (instr_c_trapsAt hc ((afterSend_idle hi _).trans ?_))
  rw [hk]
  rfl
variable {pa : Nat} (hk : lsendCap (s.me.cap o.c.toNat) = true) (hpa : s.dataPa (s.me.xr o.a) 64 .rd = .ok pa)
  (hp : isHost pa = true ∨ poisoned s.memPoison 64 pa 64 = false)
include hk hpa hp

theorem lsend_here {t : State} (hd : capDev (s.me.cap o.c.toNat) = s.mgmt.dev)
    (ht : (s.observe s.agent pa 64).peerPacket ⟨s.mgmt.dev, s.me.t.part, capObj (s.me.cap o.c.toNat) / 8 % 256,
      capObj (s.me.cap o.c.toNat) % 8, BitVec.ofNat 512 (leNat (s.mem.read pa 64))⟩ = some t) :
    exec (.lsend o) s = .next ((t.modMe (·.sentEnd o.c.toNat o.d 0)).advance (wideLen o.wide)) := by
  refine (exec_lsend o s).trans (instr_c_done hc ((afterSend_idle hi _).trans ?_))
  simp only [hk, hpa, readsClean hp, hd, bitsN_lsendFn, bitsN_lsendQueue, ht, chk_then_ok, ne_eq, not_true_eq_false,
    Bool.not_true, Bool.false_eq_true, if_false]
theorem lsend_away (hd : capDev (s.me.cap o.c.toNat) ≠ s.mgmt.dev) (hr : ((s.fn s.me.t.fn).port 0).length < 8) :
    let e := s.me.cap o.c.toNat
    let t := s.observe s.agent pa 64
    let x : PortPacket := ⟨.queue (capDev e) (capObj e / 8 % 256) (capObj e % 8) s.me.t.part, 0, s.mem.read pa 64, s.seq⟩
    exec (.lsend o) s = .next ((t.atPort s.me.t.fn x).cWaits (.sent s.seq o.c.toNat (wideLen o.wide) o.d 0)) := by
  rw [exec_lsend, execLsend, instr_c hc, afterSend_idle hi]
  simp only [hk, hpa, readsClean hp, hd, chk_then_ok, ne_eq, not_false_eq_true, Bool.not_true, Bool.false_eq_true, if_false,
    if_true]
  have ht := onlyKnown_observe s s.agent pa 64
  have hstrm : (s.observe s.agent pa 64).cur.strm = .c := ht.cur ▸ hc.1
  rw [bitsN_lsendFn, bitsN_lsendQueue, sendPeer_room ht hr, settleRes_cWaits (t := (s.observe s.agent pa 64).atPort _ _) hstrm]
end

/-! ### `CHSND` (R409, R410, R412) -/

theorem chStatus_code (code : Nat) : chStatus code 0 0 0 0 = BitVec.ofNat 64 code := by simp [chStatus]
theorem chStatus_ok (sdev score sslot left : Nat) : chStatus 0 sdev score sslot left =
    BitVec.ofNat 64 (sdev * 2 ^ 8 + score * 2 ^ 17 + sslot * 2 ^ 25 + left * 2 ^ 28) := by rw [chStatus, Nat.zero_add]
theorem chStatus_left (n : Nat) : chStatus 0 0 0 0 n = BitVec.ofNat 64 (n * 2 ^ 28) := by simp [chStatus]
theorem chOffset_ok {s : State} {a : Reg} {imm : BitVec 16} (ha : (s.me.xr a + imm.setWidth 64).toNat % 64 = 0)
    (hb : (s.me.xr a + imm.setWidth 64).toNat + 64 ≤ 0x40000) :
    chOffset s a imm = .ok (s.me.xr a + imm.setWidth 64).toNat := by
  unfold chOffset zext16
  dsimp only
  rw [if_neg (not_not.mpr ha), if_neg (Nat.not_lt.mpr hb)]
theorem settleRes_chsndEnd {s t : State} (d : Reg) (code left : Nat) :
    s.settleRes 8 (chsndEnd t d code left) = (t.setX d (chStatus code 0 0 0 left)).advance 8 := rfl

theorem chsnd_sent {s : State} {o : ChsndOp} {no c n : Nat} {d : Reg} {v : Word} (hc : s.cRuns o.pr)
    (h : s.me.cs.waiting = some (.sent no c n d v)) :
    ((s.fn s.me.t.fn).unsent no = true → exec (.chsnd o) s = .next (s.cWaits (.sent no c n d v))) ∧
    ((s.fn s.me.t.fn).unsent no = false →
      exec (.chsnd o) s = .next ((s.modMe fun sl => (sl.useAllow c).setX d v).advance 8)) := by
  rw [exec_chsnd]
  exact instr_c_sent hc rfl h

/-- A `CHSND` passes its checks: it has a capability with uses left, and its message is an aligned part of the home region
without poison. -/
structure State.ChSends (s : State) (o : ChsndOp) : Prop where
  runs : s.cRuns o.pr
  idle : s.idle
  grants : capGrants (s.me.cap o.c.toNat) 2 1 = true
  inbox : capObj (s.me.cap o.c.toNat) ≤ 3
  allow : capAllow (s.me.cap o.c.toNat) ≠ 0
  aligned : (s.me.xr o.a + o.imm.setWidth 64).toNat % 64 = 0
  inHome : (s.me.xr o.a + o.imm.setWidth 64).toNat + 64 ≤ 0x40000
  clean : s.homePoison (s.me.xr o.a + o.imm.setWidth 64).toNat 64 = false
/-- The message of a `CHSND`. -/
def State.chMessage (s : State) (o : ChsndOp) : List Byte :=
  (s.core s.cur.core).scratch.read (homeBase s.cur.slot + (s.me.xr o.a + o.imm.setWidth 64).toNat) 64

theorem chsnd_sends {s : State} {o : ChsndOp} (h : s.ChSends o) :
    exec (.chsnd o) s = .next (s.settleRes 8 (if capDev (s.me.cap o.c.toNat) = s.mgmt.dev then
      chsndHere s o (s.me.cap o.c.toNat) (s.chMessage o) else chsndPeer s o (s.me.cap o.c.toNat) (s.chMessage o))) := by
  have hcap : (chCap (s.me.cap o.c.toNat) 1 && capAllow (s.me.cap o.c.toNat) != 0) = true := by
    simp [chCap, h.grants, h.inbox, h.allow]
  rw [exec_chsnd, execChsnd, instr_c h.runs, afterSend_idle h.idle]
  simp only [hcap, chOffset_ok h.aligned h.inHome, h.clean, chk_then_ok, Bool.not_true, Bool.false_eq_true, if_false]
  rfl

/-! A message to a slot of this module. -/

section
variable {s : State} {o : ChsndOp} {e : Nat} {m : List Byte}

theorem chsndHere_refused (ha : s.admitsMsg s.mgmt.dev s.me.t.part (capCore e) = false) :
    chsndHere s o e m = chsndEnd s o.d fPerm.toNat 0 :=
  if_pos (by simp [ha])

variable (ha : s.admitsMsg s.mgmt.dev s.me.t.part (capCore e) = true)
include ha

theorem chsndHere_noTask (hn : (s.slotAt (capCore e) (capSlot e)).task = none) : chsndHere s o e m = chsndEnd s o.d 1 0 := by
  rw [chsndHere]
  simp only [ha, hn, Bool.not_true, Bool.false_eq_true, if_false, Option.isNone_none, if_true]

variable (ht : (s.slotAt (capCore e) (capSlot e)).task.isSome = true)
include ht

theorem chsndHere_full (hf : 16 ≤ ((s.slotAt (capCore e) (capSlot e)).box (capObj e)).length) :
    chsndHere s o e m = .wait s (.inbox (capCore e) (capSlot e) (capObj e) (e.testBit 3)) := by
  have hroom : (s.slotAt (capCore e) (capSlot e)).boxRoom (capObj e) = false := by
    simp [Slot.boxRoom, inboxRoom, Nat.not_lt.mpr hf]
  rw [chsndHere]
  simp only [ha, hroom, Option.isNone_eq_false_iff.mpr ht, Bool.not_true, Bool.not_false, Bool.false_eq_true, if_false, if_true]
  rfl
theorem chsndHere_delivers (hl : ((s.slotAt (capCore e) (capSlot e)).box (capObj e)).length < 16)
    (ho : (s.slotAt (capCore e) (capSlot e)).out = false) :
    ∃ t, OnlyKnown s t ∧ chsndHere s o e m = chsndEnd ((t.modMe fun sl => sl.useAllow o.c.toNat).modSlot (capCore e) (capSlot e)
      fun sl => sl.setBox (capObj e) (sl.box (capObj e) ++ [⟨m, s.mgmt.dev, s.cur.core, s.cur.slot, s.seq, o.scope.toNat⟩]))
        o.d 0 (((s.slotAt (capCore e) (capSlot e)).box (capObj e)).length + 1) := by
  have hroom : (s.slotAt (capCore e) (capSlot e)).boxRoom (capObj e) = true := by simp [Slot.boxRoom, inboxRoom, hl, ho]
  obtain ⟨h, p, a, y, hy, hu⟩ := onlyKnown_pass (s.modMe fun sl => sl.useAllow o.c.toNat) s.agent
    (.msg s.seq s.myId o.scope.toNat)
  refine ⟨{ s with hidden := h, places := p, atc := a, early := y }, ⟨h, p, a, y, hy, rfl⟩, ?_⟩
  rw [chsndHere]
  simp only [ha, hroom, Option.isNone_eq_false_iff.mpr ht, Bool.not_true, Bool.false_eq_true, if_false]
  rw [hu]
  rfl
end

/-- A message to another device: one of four answers. -/
theorem chsnd_away {s : State} {o : ChsndOp} (h : s.ChSends o) (hd : capDev (s.me.cap o.c.toNat) ≠ s.mgmt.dev)
    (hr : ((s.fn s.me.t.fn).port 0).length < 8) :
    let e := s.me.cap o.c.toNat
    let x := Config.peerAnswer s.seq
    exec (.chsnd o) s = .next (
      if x % 4 = 0 then (s.setX o.d (BitVec.ofNat 64 fPerm.toNat)).advance 8
      else if x % 4 = 1 then (s.setX o.d 1).advance 8
      else if x % 4 = 2 then s.cWaits (.inbox (farCore (capDev e) (capCore e)) (capSlot e) (capObj e) (e.testBit 3))
      else (s.atPort s.me.t.fn ⟨.inbox (capDev e) (capCore e) (capSlot e) (capObj e) s.me.t.part s.cur.core s.cur.slot, 0,
          s.chMessage o, s.seq⟩).cWaits (.sent s.seq o.c.toNat 8 o.d (BitVec.ofNat 64 (x / 4 % 17 * 2 ^ 28)))) := by
  dsimp only
  rw [chsnd_sends h, if_neg hd, chsndPeer]
  have hx : Config.peerAnswer s.seq % 4 < 4 := Nat.mod_lt _ (by decide)
  match hm : Config.peerAnswer s.seq % 4, hx with
  | 0, _ => exact congrArg (fun v => Host.Outcome.next ((s.setX o.d v).advance 8)) (chStatus_code _)
  | 1, _ => exact congrArg (fun v => Host.Outcome.next ((s.setX o.d v).advance 8)) (chStatus_code 1)
  | 2, _ => exact congrArg _ (settleRes_cWaits h.runs.1 _ _)
  | 3, _ =>
    rw [sendPeer_room (.refl s) hr, chStatus_left]
    exact congrArg _ (settleRes_cWaits (t := s.atPort _ _) h.runs.1 _ _)

/-! ### `CHRCV` (R411, R412) -/

/-- A `CHRCV` passes its checks: its capability is for an inbox of the own slot, and its place is in the home region. -/
structure State.ChReceives (s : State) (o : ChrcvOp) : Prop where
  runs : s.cRuns o.pr
  grants : capGrants (s.me.cap o.c.toNat) 2 2 = true
  inbox : capObj (s.me.cap o.c.toNat) ≤ 3
  device : capDev (s.me.cap o.c.toNat) = s.mgmt.dev
  core : capCore (s.me.cap o.c.toNat) = s.cur.core
  slot : capSlot (s.me.cap o.c.toNat) = s.cur.slot
  aligned : (s.me.xr o.a + o.imm.setWidth 64).toNat % 64 = 0
  inHome : (s.me.xr o.a + o.imm.setWidth 64).toNat + 64 ≤ 0x40000

/-- What is known passes on alike before and after a message is taken from its inbox. -/
theorem passIf_received (s : State) (f : Slot → Slot) (off : Nat) (l : List Byte) (p : Agent → Bool) (v : Agent) :
    ∃ t, OnlyKnown s t ∧ ((s.modMe f).homeWrite off l).passIf p v = (t.modMe f).homeWrite off l := by
  obtain ⟨h, q, a, e, he, hu⟩ := onlyKnown_passIf ((s.modMe f).homeWrite off l) p v
  exact ⟨{ s with hidden := h, places := q, atc := a, early := e }, ⟨h, q, a, e, he, rfl⟩, hu⟩

section
variable {s : State} {o : ChrcvOp} (h : s.ChReceives o)
include h

theorem State.ChReceives.cap_own : (chCap (s.me.cap o.c.toNat) 2 && capDev (s.me.cap o.c.toNat) == s.mgmt.dev &&
    capCore (s.me.cap o.c.toNat) == s.cur.core && capSlot (s.me.cap o.c.toNat) == s.cur.slot) = true := by
  simp [chCap, h.grants, h.inbox, h.device, h.core, h.slot]
/-- The oldest message is written to the home region and its sender's knowledge passed on. -/
theorem chrcv_takes {m : Message} {rest : List Message} (hb : s.me.box (capObj (s.me.cap o.c.toNat)) = m :: rest) :
    ∃ t, OnlyKnown s t ∧ exec (.chrcv o) s = .next (((t.modMe fun sl => sl.setBox (capObj (s.me.cap o.c.toNat)) rest).homeWrite
      (s.me.xr o.a + o.imm.setWidth 64).toNat m.data).setX o.d (BitVec.ofNat 64 (m.sdev * 2 ^ 8 + m.score * 2 ^ 17
        + m.sslot * 2 ^ 25 + rest.length * 2 ^ 28)) |>.advance 8) := by
  have hpass : ∃ p v, exec (.chrcv o) s = .next ((((s.modMe fun sl => sl.setBox (capObj (s.me.cap o.c.toNat)) rest).homeWrite
      (s.me.xr o.a + o.imm.setWidth 64).toNat m.data).passIf p v).setX o.d (chStatus 0 m.sdev m.score m.sslot rest.length)
      |>.advance 8) := by
    rw [exec_chrcv, execChrcv, instr_c h.runs]
    simp only [h.cap_own, chOffset_ok h.aligned h.inHome, hb, chk_then_ok, Bool.not_true, Bool.false_eq_true, if_false]
    exact ⟨_, _, rfl⟩
  obtain ⟨p, v, he⟩ := hpass
  obtain ⟨t, ht, hu⟩ := passIf_received s _ _ _ p v
  exact ⟨t, ht, he.trans (by rw [hu, chStatus_ok])⟩

variable (hb : s.me.box (capObj (s.me.cap o.c.toNat)) = [])
include hb

theorem chrcv_expires (hd : (s.me.xr o.b).toNat ≠ 0) (hn : (s.me.xr o.b).toNat ≤ s.now) :
    exec (.chrcv o) s = .next ((s.setX o.d 2).advance 8) := by
  refine (exec_chrcv o s).trans (instr_c_done h.runs ?_)
  simp only [h.cap_own, chOffset_ok h.aligned h.inHome, hb, chk_then_ok, Bool.not_true, Bool.false_eq_true, if_false]
  rw [if_pos ⟨hd, hn⟩, chStatus_code]
  rfl
theorem chrcv_waits (hn : (s.me.xr o.b).toNat = 0 ∨ s.now < (s.me.xr o.b).toNat) :
    exec (.chrcv o) s = .next (s.cWaits (.message (capObj (s.me.cap o.c.toNat)) (s.me.xr o.b).toNat)) := by
  rw [exec_chrcv, execChrcv, instr_c h.runs]
  simp only [h.cap_own, chOffset_ok h.aligned h.inHome, hb, chk_then_ok, Bool.not_true, Bool.false_eq_true, if_false]
  rw [if_neg (by omega), settleRes_cWaits h.runs.1]
end

/-! ### The deadline of a `CHRCV` -/

theorem State.completed_congr {s : State} {k : SlotId} {f g : State → State}
    (h : f { s with cur := ⟨k.core, k.slot, .c⟩ } = g { s with cur := ⟨k.core, k.slot, .c⟩ }) :
    s.completed k f = s.completed k g := by
  simp only [State.completed, State.withCur, h]
/-- A waiting instruction that executes again, of a stream that may go on. -/
theorem State.reissue_completes {s : State} {k : SlotId} {f : Instr → Option (State → Out)} {g : State → Out} {e : State → State}
    {w : BitVec 96} {i : Instr} {l : Len} (hs : (s.slotAt k.core k.slot).cs.stopReq = none) (hf : (s.core k.core).frozen = false)
    (hw : s.fetch k.core k.slot .c = .ok w) (hi : decodeC w = .ok (i, l)) (hg : f i = some g)
    (he : g { s with cur := ⟨k.core, k.slot, .c⟩ } = .next (e { s with cur := ⟨k.core, k.slot, .c⟩ })) :
    s.reissue k f = .next (s.completed k e) := by
  unfold State.reissue
  rw [if_neg (by simp [hs, hf])]
  simp only [hw, hi, hg]
  exact congrArg _ (State.completed_congr (by simp only [he]))
theorem chrcvDeadline_completes {s : State} {k : SlotId} {ib dl : Nat} {w : BitVec 96} {o : ChrcvOp} {l : Len} (hd : dl ≠ 0)
    (hn : dl ≤ s.now) (hq : (s.slotAt k.core k.slot).cs.waiting = some (.message ib dl))
    (hs : (s.slotAt k.core k.slot).cs.stopReq = none) (hf : (s.core k.core).frozen = false)
    (hw : s.fetch k.core k.slot .c = .ok w) (hi : decodeC w = .ok (.chrcv o, l))
    (he : exec (.chrcv o) { s with cur := ⟨k.core, k.slot, .c⟩ } =
      .next ((State.setX { s with cur := ⟨k.core, k.slot, .c⟩ } o.d 2).advance 8)) :
    exec (.chrcvDeadline k) s = .next (s.completed k fun s => (s.setX o.d 2).advance 8) := by
  rw [exec_chrcvDeadline, execChrcvDeadline, hq]
  dsimp only
  rw [if_pos ⟨hd, hn⟩]
  exact State.reissue_completes hs hf hw hi rfl he

/-- Settles O24: each instruction by the check that decides it, and the deadline as the `CHRCV` executed once more. -/
theorem messageResults : Obligations.MessageResults := by
  unfold Obligations.MessageResults
  refine ⟨fun s o hc => ?_, fun s o hc => ?_, fun s o hc => ?_, fun s o hc no c n d v hq => ?_, fun s o hc => ?_,
    fun s c k ib dl w op l hd hn hq hs hf hw hi => ?_⟩
  · intro e va len idle ok
    have hcap : ok ↔ lsendCap e = true := (lsendCap_iff e).symm
    refine ⟨fun hi hk pa t hpa hp hd ht => lsend_here hc hi (hcap.mp hk) hpa hp hd ht,
      fun hi hk => lsend_uncapped hc hi (Bool.eq_false_iff.mpr (mt hcap.mpr hk)),
      fun hi hk pa hpa hp hd hr => ⟨_, onlyKnown_observe s s.agent pa 64, lsend_away hc hi (hcap.mp hk) hpa hp hd hr⟩,
      fun no c n d v hq => lsend_sent hc hq⟩
  · intro e off c k ib rx m hi hg hib ha hal hin hp hd
    have h : s.ChSends o := ⟨hc, hi, hg, hib, ha, hal, hin, hp⟩
    have hhere := (chsnd_sends h).trans (congrArg (fun r => Host.Outcome.next (s.settleRes 8 r)) (if_pos hd))
    refine ⟨fun ha ht hl ho => ?_, fun ha hn => ?_, fun ha => ?_, fun ha ht hf => ?_⟩
    · obtain ⟨t, hknown, he⟩ := chsndHere_delivers ha ht hl ho
      refine ⟨t, hknown, ?_⟩
      rw [hhere, he, settleRes_chsndEnd, chStatus_left]
      rfl
    · rw [hhere, chsndHere_noTask ha hn, settleRes_chsndEnd, chStatus_code]
      rfl
    · rw [hhere, chsndHere_refused ha, settleRes_chsndEnd, chStatus_code]
    · rw [hhere, chsndHere_full ha ht hf, settleRes_cWaits hc.1]
      rfl
  · intro e off ib m x p hg hib ha hal hin hp hi hd hr
    exact chsnd_away ⟨hc, hi, hg, hib, ha, hal, hin, hp⟩ hd hr
  · exact chsnd_sent hc hq
  · intro e off ib dl hg hib hd hco hsl hal hin
    have h : s.ChReceives o := ⟨hc, hg, hib, hd, hco, hsl, hal, hin⟩
    exact ⟨fun m rest hb => chrcv_takes h hb, chrcv_expires h, chrcv_waits h⟩
  · intro u e off hc hg hib hdev hco hsl hal hin hdl hb
    have h : u.ChReceives op := ⟨hc, hg, hib, hdev, hco, hsl, hal, hin⟩
    exact chrcvDeadline_completes hd hn hq hs hf hw hi (chrcv_expires h hb (hdl ▸ hd) (hdl ▸ hn))
end Sys2Proof.Machine
end

section
namespace Sys2Proof.Machine

/-! ### Ring heads, and what is done for another stream -/

theorem Slot.ring_setRing (sl : Slot) (r : RingId) (q : Ring) : (sl.setRing r q).ring r = q := by
  cases r <;> rfl

theorem Slot.ring_modRing (sl : Slot) (r : RingId) (f : Ring → Ring) : (sl.modRing r f).ring r = f (sl.ring r) :=
  sl.ring_setRing r _

theorem Slot.sem_modRing (sl : Slot) (r : RingId) (f : Ring → Ring) (n : Nat) : (sl.modRing r f).sem n = sl.sem n := by
  cases r <;> rfl

theorem State.slotAt_modHead (s : State) (c k : Nat) (r : RingId) (f : HeadSt → HeadSt) :
    (s.modHead c k r f).slotAt c k = (s.slotAt c k).modRing r fun q => { q with head := f q.head } := by
  simp [State.modHead]

theorem Ring.headBits_of_moved {q : Ring} {h : HeadSt} (hm : h.moved = q.head.moved) (id : RingId) :
    Ring.headBits { q with head := h } id = q.headBits id := by
  simp only [Ring.headBits, Ring.at, hm]

theorem execHeadDecide_live {s t : State} {c k : Nat} {r : RingId} (hr : r ≠ .k)
    (hl : (s.slotAt c k).headLive r = true) (hf : (s.core c).frozen = false)
    (ht : State.headStep { s with cur := ⟨c, k, strmOfRing r⟩ } r = t) :
    exec (.headDecide ⟨c, k, r⟩) s = .next { t with cur := s.cur } := by
  subst ht
  cases r with
  | k => exact absurd rfl hr
  | m => simp [execHeadDecide, hl, hf, State.withCur]
  | x => simp [execHeadDecide, hl, hf, State.withCur]
  | s => simp [execHeadDecide, hl, hf, State.withCur]

/-- The head's semaphore has not reached the count that the head awaits. -/
def Slot.headBlocked (sl : Slot) (r : RingId) : Prop :=
  let w := (sl.ring r).headBits r
  cAws w ≠ 0 ∧ (sl.sem (cAws w)).done.toNat < cAwc r w

theorem Slot.headBlocked_modHead (sl : Slot) (r : RingId) (f : HeadSt → HeadSt)
    (hf : (f (sl.ring r).head).moved = (sl.ring r).head.moved) :
    (sl.modRing r fun q => { q with head := f q.head }).headBlocked r ↔ sl.headBlocked r := by
  simp only [Slot.headBlocked, Slot.ring_modRing, Ring.headBits_of_moved hf, Slot.sem_modRing]

/-- A dropped head raises and leaves. -/
def State.dropHead (s : State) (r : RingId) : State :=
  let w := (s.me.ring r).headBits r
  ((s.learn (cAws w) (cAwc r w)).modSlot s.cur.core s.cur.slot fun sl => sl.modRing r (·.pop)).raiseCmd
    ⟨s.cur.core, s.cur.slot, strmOfRing r⟩ (cRss w)

theorem State.headAwait_blocked {s : State} {r : RingId} (h : s.me.headBlocked r) (run : Bool) : s.headAwait r run = s :=
  if_pos h

theorem State.headAwait_drop {s : State} {r : RingId} (h : ¬ s.me.headBlocked r) : s.headAwait r false = s.dropHead r :=
  if_neg h

theorem State.headStep_awaitRun {s : State} {r : RingId} (hp : (s.me.ring r).head.phase = .awaitRun) :
    s.headStep r = s.headAwait r true := by simp only [State.headStep, hp]

theorem State.headStep_awaitDrop {s : State} {r : RingId} (hp : (s.me.ring r).head.phase = .awaitDrop) :
    s.headStep r = s.headAwait r false := by simp only [State.headStep, hp]

/-- A fresh head that passes its checks waits for its guard, or is decided by it. -/
theorem State.headStep_fresh {s : State} {r : RingId} {w : BitVec 128} (hw : (s.me.ring r).headBits r = w)
    (hp : (s.me.ring r).head.phase = .fresh) (hc : checkCmd r w = none) (hm : r = .m → copOf w ≠ 1 ∧ copOf w ≠ 2) :
    s.headStep r =
      if s.me.guard (cGds w) = 0 then s.modHead s.cur.core s.cur.slot r fun h => { h with waitFor := some .guard }
      else
        let run := decide (s.me.guard (cGds w) = 1) == !w.getLsbD 22
        (s.modHead s.cur.core s.cur.slot r fun h =>
          { h with phase := if run then .awaitRun else .awaitDrop, waitFor := none }).headAwait r run := by
  have hi : ¬ (r = .m ∧ (copOf w = 1 ∨ copOf w = 2) ∧ (s.me.ring r).doneCnt < (s.me.ring r).img) :=
    fun ⟨h, h', _⟩ => h'.elim (hm h).1 (hm h).2
  simp only [State.headStep, hp, hw, hc, if_neg hi]

/-- The guard of a fresh head says that it is dropped. -/
theorem State.headStep_fresh_drop {s : State} {r : RingId} {w : BitVec 128} (hw : (s.me.ring r).headBits r = w)
    (hp : (s.me.ring r).head.phase = .fresh) (hc : checkCmd r w = none) (hm : r = .m → copOf w ≠ 1 ∧ copOf w ≠ 2)
    (hg : s.me.guard (cGds w) ≠ 0) (hd : s.me.guard (cGds w) = 1 ↔ w.getLsbD 22 = true) :
    s.headStep r = (s.modHead s.cur.core s.cur.slot r fun h =>
      { h with phase := .awaitDrop, waitFor := none }).headAwait r false := by
  have hrun : (decide (s.me.guard (cGds w) = 1) == !w.getLsbD 22) = false := by
    have he : decide (s.me.guard (cGds w) = 1) = w.getLsbD 22 := by
      rw [Bool.eq_iff_iff, decide_eq_true_iff]
      exact hd
    rw [he]
    cases w.getLsbD 22 <;> rfl
  rw [State.headStep_fresh hw hp hc hm, if_neg hg]
  simp only [hrun]
  rfl

/-! ### The end of commands -/

theorem execCommandComplete_not {s : State} {o : HeadRef}
    (h : (s.headAt o.core o.slot o.ring).phase ≠ .finished ∨ (s.core o.core).frozen = true) :
    exec (.commandComplete o) s = .next s := by
  simp only [exec_commandComplete, execCommandComplete]
  rw [if_pos]
  tauto

/-- A finished command of the SIE without a destination only leaves its ring. -/
theorem State.headEnd_sie_noDst {s : State} (hs : (s.headAt s.cur.core s.cur.slot .s).sealCut = false)
    (hd : (s.headAt s.cur.core s.cur.slot .s).dst = none) (hh : (s.headAt s.cur.core s.cur.slot .s).dshd = false) :
    s.headEnd .s = .ok (s, 0, 0) := by
  simp [State.headEnd, State.endDst, hs, hd, hh]

theorem execCommandComplete_sie_noDst {s : State} {c k : Nat} (hp : (s.headAt c k .s).phase = .finished)
    (hh : (s.headAt c k .s).held = none) (hl : (s.ringAt c k .s).len ≠ 0) (ho : (s.slotAt c k).out = false)
    (hd : (s.headAt c k .s).dst = none) (hs : (s.headAt c k .s).sealCut = false) (hw : (s.headAt c k .s).dshd = false)
    (hf : (s.core c).frozen = false) :
    exec (.commandComplete ⟨c, k, .s⟩) s =
      .next { State.retireHead { s with cur := ⟨c, k, .s⟩ } c k .s 0 0 with cur := s.cur } := by
  have he : State.headEnd { s with cur := ⟨c, k, .s⟩ } .s = .ok ({ s with cur := ⟨c, k, .s⟩ }, 0, 0) :=
    State.headEnd_sie_noDst hs hd hw
  simp only [exec_commandComplete, execCommandComplete]
  rw [if_neg (by simp [hp, hh, hl, ho, hf])]
  simp [State.withCur, strmOfRing, he]

/-- Settles O37: the head's step is evaluated phase by phase; the guard's decision changes neither the bits of the head nor
its semaphore. -/
theorem ringHeadResults : Obligations.RingHeadResults := by
  refine ⟨?_, ?_, fun s o h => execCommandComplete_not h⟩
  case refine_2 =>
    intro s c k q s' hp hh hl ho hd hs hw hf
    exact execCommandComplete_sie_noDst hp hh hl ho hd hs hw hf
  intro s c k r hr hl hfr s' sl q w reached raised
  have hblk : s'.me.headBlocked r ↔ ¬ reached := by
    simp only [Slot.headBlocked, reached, not_or, not_le]; rfl
  have hex {t : State} (ht : s'.headStep r = t) := execHeadDecide_live (s := s) hr hl hfr ht
  refine ⟨fun hp hc hm => ⟨fun hg => hex ?_, fun hg hd u hu => ?_⟩, fun hp hre => hex ?_, fun hp hre => hex (t := s') ?_⟩
  · exact (State.headStep_fresh (s := s') rfl hp hc hm).trans (if_pos hg)
  · have hst : s'.headStep r = u.headAwait r false :=
      hu ▸ State.headStep_fresh_drop (s := s') rfl hp hc hm hg hd
    have hsl : u.me = s'.me.modRing r fun q => { q with head := { q.head with phase := .awaitDrop, waitFor := none } } :=
      hu ▸ State.slotAt_modHead s' c k r _
    have hub : u.me.headBlocked r ↔ ¬ reached := by
      rw [hsl, Slot.headBlocked_modHead s'.me r (fun h => { h with phase := .awaitDrop, waitFor := none }) rfl, hblk]
    have hw : (u.me.ring r).headBits r = w := by
      rw [hsl, Slot.ring_modRing]
      exact Ring.headBits_of_moved (q := s'.me.ring r) rfl r
    refine ⟨fun hre => hex (hst.trans ?_), fun hre => hex (hst.trans (State.headAwait_blocked (hub.2 hre) false))⟩
    have hcur : u.cur = s'.cur := by rw [hu]; rfl
    rw [State.headAwait_drop (mt hub.1 (not_not.2 hre)), State.dropHead, hw, hcur]
  · rw [State.headStep_awaitDrop (s := s') hp, State.headAwait_drop (mt hblk.1 (not_not.2 hre))]
    rfl
  · rcases hp with hp | hp
    · rw [State.headStep_awaitRun (s := s') hp, State.headAwait_blocked (hblk.2 hre)]
    · rw [State.headStep_awaitDrop (s := s') hp, State.headAwait_blocked (hblk.2 hre)]

end Sys2Proof.Machine
end

section
namespace Sys2Proof.Machine

/-! ### The engines of a core after updates -/

@[simp] theorem Core.eng_putEng (co : Core) (e : Engine) (x : EngineSt) : (co.putEng e x).eng e = x := by cases e <;> rfl

theorem State.eng_modEng (s : State) (c : Nat) (e : Engine) (f : EngineSt → EngineSt) :
    ((s.modEng c e f).core c).eng e = f ((s.core c).eng e) := by
  simp [State.modEng]

theorem State.eng_modCore {s : State} {f : Core → Core} (h : ∀ co, (f co).eng = co.eng) (c c' : Nat) :
    ((s.modCore c f).core c').eng = (s.core c').eng := by
  rw [State.core_modCore]
  split
  · next hc => rw [h, hc]
  · rfl

theorem State.eng_modSlot (s : State) (c k c' : Nat) (f : Slot → Slot) :
    ((s.modSlot c k f).core c').eng = (s.core c').eng :=
  State.eng_modCore (s := s) (f := fun co => co.putSlot k (f (s.slotAt c k))) (fun _ => rfl) c c'

theorem State.eng_count (s : State) (c ev : Nat) (slot : Option Nat) (n c' : Nat) :
    ((s.count c ev slot n).core c').eng = (s.core c').eng := by
  unfold State.count
  refine State.eng_modCore ?_ c c'
  intro co
  rfl

theorem State.cores_trace (s : State) (c k kind : Nat) (st : Strm) (code data : Nat) :
    (s.trace c k kind st code data).cores = s.cores := by
  unfold State.trace
  split
  · rfl
  · dsimp only
    split <;> rfl

theorem State.eng_trace (s : State) (c k kind : Nat) (st : Strm) (code data c' : Nat) :
    ((s.trace c k kind st code data).core c').eng = (s.core c').eng := by
  simp only [State.core, State.cores_trace]

theorem State.eng_requestStop (s : State) (c k : Nat) (st : Strm) (cause : StopCause) (c' : Nat) :
    ((s.requestStop c k st cause).core c').eng = (s.core c').eng := by
  cases st
  all_goals
    simp only [State.requestStop, apply_ite (fun t : State => (t.core c').eng), State.eng_modSlot, State.eng_trace, ite_self]

/-! ### The winner of a draw -/

theorem sumN_eq_sum (l : List Nat) : sumN l = l.sum := by
  rw [sumN, List.sum_eq_foldl_nat]

/-- A ticket below the sum finds its owner. -/
theorem prefixPick_lt {l : List Nat} {w i : Nat} (h : w < l.sum) : prefixPick w l i < i + l.length := by
  induction l generalizing w i with
  | nil => simp at h
  | cons x t ih =>
    rw [prefixPick]
    split
    · simp
    · next hx =>
      have := ih (w := w - x) (i := i + 1) (by rw [List.sum_cons] at h; omega)
      rw [List.length_cons]
      omega

theorem draw_scale_lt {y : BitVec 32} {n : Nat} (hn : 0 < n) : y.toNat / 2 ^ 8 * n / 2 ^ 24 < n := by
  rw [Nat.div_lt_iff_lt_mul (by decide), Nat.mul_comm n]
  exact Nat.mul_lt_mul_of_pos_right (Nat.div_lt_of_lt_mul y.isLt) hn

theorem drawPick_lt {x : BitVec 32} {v : List Nat} (h : v ≠ []) : (drawPick x v).1 < v.length := by
  have hl := List.length_pos_iff.mpr h
  rw [drawPick]
  split
  · exact hl
  · dsimp only
    split
    · simpa using draw_scale_lt hl
    · next ht =>
      rw [sumN_eq_sum] at ht ⊢
      simpa using prefixPick_lt (i := 0) (draw_scale_lt (y := step32 x) (Nat.pos_of_ne_zero ht))

theorem nth_mem {l : List Nat} {i : Nat} (h : i < l.length) : nth 0 l i ∈ l := by
  simp [nth, h]

/-- A fold that keeps its value or takes an element returns its start or an element. -/
theorem foldl_choose_mem {α : Type} {p : α → α → Bool} (l : List α) (a : α) :
    l.foldl (fun b k => if p b k then k else b) a ∈ a :: l := by
  induction l generalizing a with
  | nil => exact List.mem_cons_self
  | cons b l ih =>
    rw [List.foldl_cons]
    split
    · exact List.mem_cons_of_mem _ (ih b)
    · have := ih a
      simp only [List.mem_cons] at this ⊢
      tauto

/-- The winner of a draw, before the draw is counted and the winner's compensation and wait end. -/
def State.drawWinner (s : State) (c : Nat) (e : Engine) (cands : List Nat) : State × Nat :=
  let x := (s.core c).eng e
  let waited (k : Nat) : Nat := s.cycle - Sparse.get s.cycle x.readySince k
  match cands.filter fun k => decide (2 ^ 20 ≤ waited k) with
  | a :: t =>
    let k := t.foldl (fun best k => if waited best < waited k then k else best) a
    ((s.trace c k 10 (strmOfEngine e) 0 (engNo e)).count c 0x0A (some k), k)
  | [] =>
    let r := drawPick ((s.core c).gen (engNo e)) (cands.map fun k => s.effective c k e)
    (s.modCore c fun co => co.setGen (engNo e) r.2, nth 0 cands r.1)

theorem State.drawAmong_eq (s : State) (c : Nat) (e : Engine) (cands : List Nat) :
    s.drawAmong c e cands =
      let w := s.drawWinner c e cands
      ((((w.1.count c 0x09 (some w.2)).modSlot c w.2 fun sl => { sl with comp := Sparse.set 0 sl.comp (engNo e) 0 }).modEng c e
        fun x => { x with readySince := x.readySince.filter fun (i, _) => i != w.2 }), w.2) := rfl

theorem State.drawWinner_mem {s : State} {c : Nat} {e : Engine} {cands : List Nat} (h : cands ≠ []) :
    (s.drawWinner c e cands).2 ∈ cands := by
  unfold State.drawWinner
  dsimp only
  split
  · next a t hf =>
    refine List.mem_of_mem_filter
      (p := fun k => decide (2 ^ 20 ≤ s.cycle - Sparse.get s.cycle ((s.core c).eng e).readySince k)) ?_
    rw [hf]
    simpa only [decide_eq_true_eq] using foldl_choose_mem (p := fun best k => decide (
      s.cycle - Sparse.get s.cycle ((s.core c).eng e).readySince best <
        s.cycle - Sparse.get s.cycle ((s.core c).eng e).readySince k)) t a
  · refine nth_mem ?_
    simpa using drawPick_lt (x := (s.core c).gen (engNo e)) (v := cands.map fun k => s.effective c k e) (by simpa using h)

theorem State.drawAmong_mem {s : State} {c : Nat} {e : Engine} {cands : List Nat} (h : cands ≠ []) :
    (s.drawAmong c e cands).2 ∈ cands := State.drawWinner_mem h

theorem State.eng_drawWinner (s : State) (c : Nat) (e : Engine) (cands : List Nat) :
    ((s.drawWinner c e cands).1.core c).eng = (s.core c).eng := by
  unfold State.drawWinner
  dsimp only
  split
  · rw [State.eng_count, State.eng_trace]
  · exact State.eng_modCore (f := fun co => co.setGen _ _) (fun _ => rfl) c c

/-- A draw changes nothing of its engine but since when its candidates have been ready. -/
theorem State.eng_drawAmong (s : State) (c : Nat) (e : Engine) (cands : List Nat) :
    ∃ l, ((s.drawAmong c e cands).1.core c).eng e = { (s.core c).eng e with readySince := l } := by
  rw [State.drawAmong_eq, State.eng_modEng, State.eng_modSlot, State.eng_count, State.eng_drawWinner]
  exact ⟨_, rfl⟩

theorem State.drawFree_eq {s : State} {c : Nat} {e : Engine} {cands : List Nat} (h : cands ≠ []) :
    s.drawFree c e cands =
      (s.drawAmong c e cands).1.modEng c e fun x => x.start (s.drawAmong c e cands).2 (s.drawAmong c e cands).1.cycle := by
  rw [State.drawFree, if_neg (by simpa using h)]

theorem State.drawFree_holder {s : State} {c : Nat} {e : Engine} {cands : List Nat} (h : cands ≠ []) :
    (((s.drawFree c e cands).core c).eng e).holder = some (s.drawAmong c e cands).2 := by
  rw [State.drawFree_eq h, State.eng_modEng]
  rfl

/-! ### Draws and quanta -/

theorem execDraw_not {s : State} {c : Nat} {e : Engine} (h : ((s.core c).eng e).holder ≠ none ∨ (s.core c).frozen = true) :
    exec (.draw ⟨c, e⟩) s = .next s := by
  simp only [exec_draw, execDraw]
  rw [if_pos]
  rcases h with h | h
  · simp [Option.isSome_iff_ne_none.mpr h]
  · simp [h]

theorem execDraw_none {s : State} {c : Nat} {e : Engine} (hh : ((s.core c).eng e).holder = none) (hf : (s.core c).frozen = false)
    (hc : s.candidates c e = []) :
    exec (.draw ⟨c, e⟩) s =
      .next (if ((s.core c).eng e).exclude = none then s else s.modEng c e fun x => { x with exclude := none }) := by
  simp [execDraw, hh, hf, hc]

/-- The candidates that an exclusion leaves; all of them where it leaves none. -/
def drawnFrom (x : EngineSt) (all : List Nat) : List Nat :=
  let others := all.filter fun k => x.exclude != some k
  if others.isEmpty then all else others

theorem drawnFrom_ne_nil {x : EngineSt} {all : List Nat} (h : all ≠ []) : drawnFrom x all ≠ [] := by
  rw [drawnFrom]
  split
  · exact h
  · next ho => simpa using ho

theorem mem_of_mem_drawnFrom {x : EngineSt} {all : List Nat} {k : Nat} (h : k ∈ drawnFrom x all) : k ∈ all := by
  rw [drawnFrom] at h
  split at h
  · exact h
  · exact List.mem_of_mem_filter h

/-- An excluded slot is drawn from only where it stands alone. -/
theorem eq_of_excluded_mem_drawnFrom {x : EngineSt} {all : List Nat} {k : Nat} (h : k ∈ drawnFrom x all)
    (hx : x.exclude = some k) : ∀ i ∈ all, i = k := by
  rw [drawnFrom] at h
  split at h
  · next ho =>
    rw [List.isEmpty_iff, List.filter_eq_nil_iff] at ho
    intro i hi
    have he : k = i := by simpa [hx] using ho i hi
    exact he.symm
  · simp [hx] at h

theorem execDraw_some {s : State} {c : Nat} {e : Engine} (hh : ((s.core c).eng e).holder = none) (hf : (s.core c).frozen = false)
    (hc : s.candidates c e ≠ []) :
    exec (.draw ⟨c, e⟩) s = .next (s.drawFree c e (drawnFrom ((s.core c).eng e) (s.candidates c e))) := by
  simp only [exec_draw, execDraw]
  rw [if_neg (by simp [hh, hf]), if_neg (by simpa using hc)]
  rfl

theorem execQuantumExpiry_frozen {s : State} {c : Nat} {e : Engine} (h : (s.core c).frozen = true) :
    exec (.quantumExpiry ⟨c, e⟩) s = .next s := by
  simp only [exec_quantumExpiry, execQuantumExpiry]
  split
  · rfl
  · exact if_pos (by simp [h])

/-- The slots other than the holder that are ready at an engine. -/
def State.rivals (s : State) (c : Nat) (e : Engine) (h : Nat) : List Nat := (s.candidates c e).filter (· != h)

theorem State.rivals_eq_nil {s : State} {c : Nat} {e : Engine} {h : Nat} :
    s.rivals c e h = [] ↔ ∀ k ∈ s.candidates c e, k = h := by
  simp [State.rivals, List.filter_eq_nil_iff]

/-- The slots among which the end of a quantum draws: the holder and its rivals. -/
def State.quantumDraw (s : State) (c : Nat) (e : Engine) (h : Nat) : List Nat :=
  (List.range 8).filter fun k => k == h || (s.rivals c e h).contains k

theorem State.mem_candidates {s : State} {c : Nat} {e : Engine} {k : Nat} :
    k ∈ s.candidates c e ↔ k < 8 ∧ s.isReady c k e = true := by
  simp [State.candidates]

theorem State.quantumDraw_ne_nil {s : State} {c : Nat} {e : Engine} {h : Nat} (hr : s.rivals c e h ≠ []) :
    s.quantumDraw c e h ≠ [] := by
  obtain ⟨k, hk⟩ := List.exists_mem_of_ne_nil _ hr
  refine List.ne_nil_of_mem (a := k) (List.mem_filter.mpr ⟨?_, by simp [hk]⟩)
  exact List.mem_range.mpr (State.mem_candidates.mp (List.mem_of_mem_filter hk)).1

theorem State.mem_quantumDraw {s : State} {c : Nat} {e : Engine} {h k : Nat} (hk : k ∈ s.quantumDraw c e h) (hne : k ≠ h) :
    k ∈ s.candidates c e := by
  have hr : k ∈ s.rivals c e h := by simpa [hne] using (List.mem_filter.mp hk).2
  exact List.mem_of_mem_filter hr

/-- The end of a quantum, case by case. -/
theorem execQuantumExpiry_held {s : State} {c h : Nat} {e : Engine} (hh : ((s.core c).eng e).holder = some h) :
    exec (.quantumExpiry ⟨c, e⟩) s =
      let x := (s.core c).eng e
      let d := s.drawAmong c e (s.quantumDraw c e h)
      if x.draining || (s.core c).frozen || decide (s.cycle < x.quantumStart + quantum e) then .next s
      else if (s.rivals c e h).isEmpty then .next (s.modEng c e fun x => { x with quantumStart := x.quantumStart + quantum e })
      else if d.2 = h then .next (d.1.modEng c e fun x => { x with quantumStart := x.quantumStart + quantum e })
      else .next ((d.1.modEng c e fun x => { x with draining := true, next := some d.2 }).requestStop c h (strmOfEngine e) .preempt) := by
  simp only [exec_quantumExpiry, execQuantumExpiry, hh]
  rfl

theorem execQuantumExpiry_draws {s : State} {c h : Nat} {e : Engine} (hh : ((s.core c).eng e).holder = some h)
    (hf : (s.core c).frozen = false) (hd : ((s.core c).eng e).draining = false)
    (hq : ((s.core c).eng e).quantumStart + quantum e ≤ s.cycle) (hr : s.rivals c e h ≠ []) :
    ∃ t : State, exec (.quantumExpiry ⟨c, e⟩) s = .next t ∧ ((t.core c).eng e).holder = some h ∧
      ((((t.core c).eng e).draining = false ∧ ((t.core c).eng e).quantumStart = ((s.core c).eng e).quantumStart + quantum e) ∨
        (((t.core c).eng e).draining = true ∧ ∃ k ∈ s.candidates c e, k ≠ h ∧ ((t.core c).eng e).next = some k)) := by
  have hex := execQuantumExpiry_held hh
  dsimp only at hex
  rw [if_neg (by simp [hd, hf, hq]), if_neg (by simpa using hr)] at hex
  obtain ⟨l, hl⟩ := s.eng_drawAmong c e (s.quantumDraw c e h)
  have hm := State.drawAmong_mem (s := s) (c := c) (e := e) (State.quantumDraw_ne_nil hr)
  by_cases hk : (s.drawAmong c e (s.quantumDraw c e h)).2 = h
  · rw [if_pos hk] at hex
    refine ⟨_, hex, ?_, .inl ⟨?_, ?_⟩⟩ <;> simp [State.eng_modEng, hl, hh, hd]
  · rw [if_neg hk] at hex
    refine ⟨_, hex, ?_, .inr ⟨?_, _, State.mem_quantumDraw hm hk, hk, ?_⟩⟩ <;>
      simp [State.eng_requestStop, State.eng_modEng, hl, hh]

/-! ### YIELD -/

theorem State.yieldAt_alone {s : State} {e : Engine}
    (h : ((s.core s.cur.core).eng e).holder ≠ some s.cur.slot ∨ ∀ j ∈ s.candidates s.cur.core e, j = s.cur.slot) :
    s.yieldAt e = s := by
  rw [State.yieldAt]
  refine if_neg fun ⟨hh, _, hr⟩ => ?_
  obtain ⟨j, hj, hne⟩ := List.any_eq_true.mp hr
  rcases h with h | h
  · exact h hh
  · simp [h j hj] at hne

theorem State.yieldAt_drains {s : State} {e : Engine} (hh : ((s.core s.cur.core).eng e).holder = some s.cur.slot)
    (hd : ((s.core s.cur.core).eng e).draining = false) (hr : ∃ j ∈ s.candidates s.cur.core e, j ≠ s.cur.slot) :
    s.yieldAt e = (s.modEng s.cur.core e fun x => { x with draining := true, next := none, exclude := some s.cur.slot }).requestStop
      s.cur.core s.cur.slot (strmOfEngine e) .yield := by
  rw [State.yieldAt]
  refine if_pos ⟨hh, by simp [hd], List.any_eq_true.mpr ?_⟩
  obtain ⟨j, hj, hne⟩ := hr
  exact ⟨j, hj, by simpa using hne⟩

/-- The engines that a `YIELD` names. -/
def yielded (m : BitVec 4) : List Engine := allEngines.filter fun e => m.getLsbD (engNo e)

theorem execYield_c {s : State} {o : YieldOp} (h : s.cRuns o.pr) :
    exec (.yield o) s = .next (((yielded o.mask).foldl (fun s e => s.yieldAt e) s).advance (wideLen o.wide)) := by
  rw [exec_yield, execYield]
  exact instr_c_done h rfl

theorem foldl_yieldAt_id {s : State} {l : List Engine} (h : ∀ e ∈ l, s.yieldAt e = s) :
    l.foldl (fun s e => s.yieldAt e) s = s := by
  induction l with
  | nil => rfl
  | cons e l ih =>
    rw [List.foldl_cons, h e List.mem_cons_self]
    exact ih fun e he => h e (List.mem_cons_of_mem _ he)

/-! ### The end of a C stream's drain -/

theorem Slot.refill_uncut {sl : Slot} {st : Strm} (h : ∀ l rest, (sl.ss st).loops = l :: rest → l.cut = false) :
    sl.refill st = sl := by
  unfold Slot.refill
  split
  · next l rest hl => rw [if_neg]; simp [h l rest hl]
  · rfl

/-- A waiting instruction whose packet is still in its queue has nothing to complete. -/
theorem State.sentDone_unsent {s : State} {k : SlotId}
    (h : ∀ no n d m v, (s.slotAt k.core k.slot).cs.waiting = some (.sent no n d m v) →
      (s.fn (s.slotAt k.core k.slot).t.fn).unsent no = true) : s.sentDone k = s := by
  unfold State.sentDone
  dsimp only
  split
  · next hw => exact if_pos (h _ _ _ _ _ hw)
  · rfl

/-- The instruction at which a stopped stream stood is abandoned; nothing else of its slot changes. -/
theorem State.slotAt_abandonWait_c {s : State} {c k : Nat} (h : s.sentDone ⟨c, k⟩ = s) :
    (s.abandonWait c k .c).slotAt c k =
      { s.slotAt c k with cs := { (s.slotAt c k).cs with waiting := none, resolved := [] } } := by
  simp only [State.abandonWait, h, if_true, Slot.ss, State.slotAt_modSlot, and_self]
  split <;> rfl

theorem State.mem_abandonWait_c {s : State} {c k : Nat} (h : s.sentDone ⟨c, k⟩ = s) : (s.abandonWait c k .c).mem = s.mem := by
  simp only [State.abandonWait, h, if_true, State.modSlot_mem]
  split <;> rfl

theorem State.mem_mapHidden (s : State) (f : HidWrite → HidWrite) : (s.mapHidden f).mem = s.mem := by
  unfold State.mapHidden
  split <;> rfl

theorem State.mem_dropEarly (s : State) (w : Agent) : (s.dropEarly w).mem = s.mem := by
  unfold State.dropEarly
  split
  · split
    · rfl
    · exact State.mem_mapHidden ..
  · rfl

theorem State.slotAt_dropEarly (s : State) (w : Agent) (c k : Nat) : (s.dropEarly w).slotAt c k = s.slotAt c k :=
  slotAt_of_cores (cores_dropEarly s w)

theorem Slot.startPass_c_x (sl : Slot) (l : HwLoop) : (sl.startPass .c l).x = sl.x := by
  unfold Slot.startPass
  split
  · rfl
  · exact foldl_keeps (fun sl : Slot => sl.x) (fun sl _ => sl.setP_x _ _) _ _

theorem Slot.refill_c_x (sl : Slot) : (sl.refill .c).x = sl.x := by
  unfold Slot.refill
  split
  · split
    · exact Slot.startPass_c_x ..
    · rfl
  · rfl

theorem Slot.refill_c_vs (sl : Slot) : (sl.refill .c).vs = sl.vs := by
  unfold Slot.refill
  split
  · split
    · exact Slot.startPass_vs ..
    · rfl
  · rfl

/-- The drain of a C stream that the debugger does not halt ends with its request served. -/
theorem execDrainEnd_c {s : State} {c k : Nat} {cause : StopCause} (hr : (s.slotAt c k).cs.stopReq = some cause)
    (hd : (s.slotAt c k).cs.canStop = true) :
    exec (.drainEnd ⟨c, k, .c⟩) s =
      let goesOn := cause == .preempt || cause == .yield
      let t := if goesOn then s else (s.abandonWait c k .c).dropEarly (.strm ⟨c, k, .c⟩)
      .next (t.modSlot c k fun sl =>
        let sl := sl.endStop .c goesOn
        if sl.dbg.st = .halting then { sl with dbg := { sl.dbg with stepStrm := strmNo .c } } else sl) := by
  simp only [exec_drainEnd, execDrainEnd, State.stopCauseOf, State.drained, hr, hd]
  cases cause <;> rfl

/-- The stream goes on where no cut loop has to start again. -/
theorem Slot.endStop_c_goesOn {sl : Slot} (h : ∀ l rest, sl.cs.loops = l :: rest → l.cut = false) :
    sl.endStop .c true = { sl with cs := { sl.cs with stopReq := none, stopped := false, atStop := false } } := by
  have hr : sl.refill .c = sl := Slot.refill_uncut h
  simp [Slot.endStop, hr, Slot.modSs, Slot.setSs, Slot.ss]

theorem Slot.endStop_c_stops (sl : Slot) : sl.endStop .c false = { sl with cs := { sl.cs with stopped := true } } := by
  simp [Slot.endStop, Slot.modSs, Slot.setSs, Slot.ss]

theorem Slot.endStop_c_x (sl : Slot) (goesOn : Bool) : (sl.endStop .c goesOn).x = sl.x := by
  cases goesOn
  · rfl
  · exact sl.refill_c_x

theorem Slot.endStop_c_vs (sl : Slot) (goesOn : Bool) : (sl.endStop .c goesOn).vs = sl.vs := by
  cases goesOn
  · rfl
  · exact sl.refill_c_vs

/-- What the end of a C stream's drain makes of its slot. -/
def Slot.drainEndC (sl : Slot) (goesOn : Bool) : Slot :=
  let sl := sl.endStop .c goesOn
  if sl.dbg.st = .halting then { sl with dbg := { sl.dbg with stepStrm := strmNo .c } } else sl

theorem Slot.drainEndC_keeps {γ : Type} (g : Slot → γ) (hg : ∀ (sl : Slot) d, g { sl with dbg := d } = g sl) (sl : Slot)
    (goesOn : Bool) :
    g (sl.drainEndC goesOn) = g (sl.endStop .c goesOn) := by
  unfold Slot.drainEndC
  dsimp only
  split
  · exact hg ..
  · rfl

/-- Settles O38: the winner of a draw is one of its candidates, and a draw changes neither the holder, the drain nor the
quantum of its engine. -/
theorem engineResults : Obligations.EngineResults := by
  refine ⟨fun s c e hf => ⟨execDraw_not (.inr hf), execQuantumExpiry_frozen hf⟩,
    fun s c e hh hf => ⟨execDraw_none hh hf, fun hc => ?_⟩,
    ?_, ?_, ?_⟩
  · have hne := drawnFrom_ne_nil (x := (s.core c).eng e) hc
    have hm := State.drawAmong_mem (s := s) (c := c) (e := e) hne
    exact ⟨_, _, execDraw_some hh hf hc, mem_of_mem_drawnFrom hm, State.drawFree_holder hne, eq_of_excluded_mem_drawnFrom hm⟩
  · intro s c h e x hh hf
    have hex := execQuantumExpiry_held hh
    refine ⟨execDraw_not (.inl (by simp [hh, x])), fun hd => ?_, fun hd hq hr => ?_, fun hd hq hr => ?_⟩
    · exact hex.trans (if_pos (by simpa [hf] using hd))
    · dsimp only at hex
      rw [if_neg (by simp [hd, hf, hq, x]), if_pos (by simpa using State.rivals_eq_nil.mpr hr)] at hex
      exact hex
    · exact execQuantumExpiry_draws hh hf hd hq (mt State.rivals_eq_nil.mp (by simpa using hr))
  · intro s o hc len c k x
    have hlen : wideLen o.wide = len := rfl
    refine ⟨fun ha => ?_, fun hm hh hd hr => ?_⟩
    · rw [execYield_c hc, foldl_yieldAt_id fun e he => ?_, hlen]
      exact State.yieldAt_alone (ha e (by simpa using (List.mem_filter.mp he).2))
    · have hy : yielded o.mask = [.mxe] := by rw [hm]; rfl
      rw [execYield_c hc, hy, List.foldl_cons, List.foldl_nil, State.yieldAt_drains (s := s) (e := .mxe) hh hd hr, hlen]
      rfl
  · intro s c k cause sl hr hs hdbg hw
    have hsd : s.sentDone ⟨c, k⟩ = s := State.sentDone_unsent hw
    have hx (sl : Slot) (g : Bool) : (sl.drainEndC g).x = sl.x :=
      (Slot.drainEndC_keeps (·.x) (fun _ _ => rfl) sl g).trans (sl.endStop_c_x g)
    have hv (sl : Slot) (g : Bool) : (sl.drainEndC g).vs = sl.vs :=
      (Slot.drainEndC_keeps (·.vs) (fun _ _ => rfl) sl g).trans (sl.endStop_c_vs g)
    have hcs (sl : Slot) (g : Bool) : (sl.drainEndC g).cs = (sl.endStop .c g).cs :=
      Slot.drainEndC_keeps (·.cs) (fun _ _ => rfl) sl g
    by_cases hg : cause = .preempt ∨ cause = .yield
    · have hex : exec (.drainEnd ⟨c, k, .c⟩) s = .next (s.modSlot c k (·.drainEndC true)) := by
        have hgo : (cause == .preempt || cause == .yield) = true := by simpa using hg
        rw [execDrainEnd_c hr hs]
        simp only [hgo]
        rfl
      have hat : (s.modSlot c k (·.drainEndC true)).slotAt c k = sl.drainEndC true := by simp [sl]
      refine ⟨_, hex, fun _ hl => ?_, fun h1 h2 => (hg.elim h1 h2).elim, ?_, ?_, rfl⟩
      · rw [hat, hcs, Slot.endStop_c_goesOn hl]
      · rw [hat, hx]
      · rw [hat, hv]
    · have hex : exec (.drainEnd ⟨c, k, .c⟩) s =
          .next (((s.abandonWait c k .c).dropEarly (.strm ⟨c, k, .c⟩)).modSlot c k (·.drainEndC false)) := by
        have hgo : (cause == .preempt || cause == .yield) = false := by simpa using hg
        rw [execDrainEnd_c hr hs]
        simp only [hgo]
        rfl
      have hat : (((s.abandonWait c k .c).dropEarly (.strm ⟨c, k, .c⟩)).modSlot c k (·.drainEndC false)).slotAt c k =
          Slot.drainEndC { sl with cs := { sl.cs with waiting := none, resolved := [] } } false := by
        simp [State.slotAt_dropEarly, State.slotAt_abandonWait_c hsd, sl]
      refine ⟨_, hex, fun h => absurd h hg, fun _ _ => ?_, ?_, ?_, ?_⟩
      · rw [hat, hcs, Slot.endStop_c_stops]
      · rw [hat, hx]
      · rw [hat, hv]
      · rw [State.modSlot_mem, State.mem_dropEarly, State.mem_abandonWait_c hsd]

end Sys2Proof.Machine
end

section
namespace Sys2Proof.Machine

/-! ### Pushes: what one comes to (R136, R192) -/

theorem Slot.pushCheck_ok {sl : Slot} {r : RingId} {w : BitVec 128}
    (ha : cAws w = 0 ∨ cAwc r w ≤ (sl.sem (cAws w)).pushed.toNat) (hr : cRss w = 0 ∨ (sl.sem (cRss w)).pushed ≠ 0xFFFFFFFF) :
    sl.pushCheck r w = .ok () := by
  rw [Slot.pushCheck, if_neg (by rintro ⟨h, h'⟩; exact ha.elim h (Nat.not_le.mpr h')),
    if_neg fun ⟨h, h'⟩ => hr.elim h fun hne => hne h']

theorem Slot.pushCheck_forwardWait {sl : Slot} {r : RingId} {w : BitVec 128} (ha : cAws w ≠ 0)
    (hc : (sl.sem (cAws w)).pushed.toNat < cAwc r w) : sl.pushCheck r w = .error (fFwait, 0) :=
  if_pos ⟨ha, hc⟩

theorem push_pushable {s : State} {r : RingId} {w : BitVec 128} (h : Pushable s r w) :
    push r w s = .done (s.modMe (·.pushCmd r w)) := by
  obtain ⟨hp, hc, ha, hr, hroom⟩ := h
  simp [push, hp, hc, Slot.pushCheck_ok ha hr, hroom]

theorem push_forwardWait {s : State} {r : RingId} {w : BitVec 128} (h : ForwardWait s r w) : push r w s = .trap fFwait 0 := by
  obtain ⟨hp, hc, ha, hw⟩ := h
  simp [push, hp, hc, Slot.pushCheck_forwardWait ha hw]

theorem settleRes_pushable {s : State} {r : RingId} {w : BitVec 128} {len : Nat} (h : Pushable s r w) :
    s.settleRes len (push r w s) = (s.modMe (·.pushCmd r w)).advance len := by
  rw [push_pushable h]
  rfl

/-- The trap of a forward wait of the C stream. -/
def State.fwaits (s : State) : State := s.trapEntry s.cur.core s.cur.slot fFwait .c s.me.cs.pc 0

theorem settleRes_trap_fwait {s : State} {len : Nat} (hs : s.cur.strm = .c) : s.settleRes len (.trap fFwait 0) = s.fwaits := by
  simp only [State.settleRes, State.pc, hs]
  rfl

theorem settleRes_forwardWait {s : State} {r : RingId} {w : BitVec 128} {len : Nat} (hs : s.cur.strm = .c)
    (h : ForwardWait s r w) : s.settleRes len (push r w s) = s.fwaits := by
  rw [push_forwardWait h, settleRes_trap_fwait hs]

/-! ### The pushing instructions: an accepted command is pushed -/

theorem execMgo_push {s : State} {o : PushRR} (h : s.cRuns o.pr)
    (hw : let w := s.me.xr o.b ++ s.me.xr o.a
      (copOf w = 1 ∧ mgoCheck s.me (mmaOf w) false = .ok ()) ∨ (copOf w = 2 ∧ mgoCheck s.me (mmaOf w) true = .ok ()) ∨
        copOf w = 3 ∨ ((copOf w = 4 ∨ copOf w = 5) ∧ mxfCheck (mxfOf w) = .ok ())) :
    exec (.mgo o) s = .next (s.settleRes 8 (push .m (s.me.xr o.b ++ s.me.xr o.a) s)) := by
  rw [exec_mgo, execMgo, instr_c h]
  rcases hw with ⟨hc, hk⟩ | ⟨hc, hk⟩ | hc | ⟨hc | hc, hk⟩ <;> simp [pair, *]

/-- The command of `XPSH` and the entry of `VGO`: in K96 the literal replaces the word at bit `lo`. -/
def State.pushWord (s : State) (o : PushRRL) (lo : Nat) : BitVec 128 :=
  let w := s.me.xr o.b ++ s.me.xr o.a
  match o.lit with
  | none => w
  | some v => BitVec.ofNat 128 (setBitsN w.toNat lo 32 v.toNat)

theorem execXpsh_push {s : State} {o : PushRRL} (h : s.cRuns o.pr) (h1 : 1 ≤ copOf (s.pushWord o 64))
    (h2 : copOf (s.pushWord o 64) ≤ 10) :
    exec (.xpsh o) s = .next (s.settleRes (optLen o.lit) (push .x (s.pushWord o 64) s)) := by
  rw [exec_xpsh, execXpsh, instr_c h]
  exact congrArg (fun r => Host.Outcome.next (s.settleRes (optLen o.lit) r)) (if_pos ⟨h1, h2⟩)

theorem execVgo_push {s : State} {o : PushRRL} (h : s.cRuns o.pr) (hp : s.me.kring.present = true) (hc : s.me.kring.closed = false)
    (h1 : copOf (s.pushWord o 32) = 1) (h2 : ext (s.pushWord o 32) 23 9 = 0) (h3 : ext (s.pushWord o 32) 96 32 = 0)
    (h4 : (ext (s.pushWord o 32) 32 32).toNat % 4 = 0) (h5 : s.me.t.vbase ≤ (ext (s.pushWord o 32) 32 32).toNat)
    (h6 : (ext (s.pushWord o 32) 32 32).toNat < s.me.t.vbase + s.me.t.vsize) :
    exec (.vgo o) s = .next (s.settleRes (optLen o.lit) (push .k (s.pushWord o 32) s)) := by
  rw [exec_vgo, execVgo, instr_c h]
  refine congrArg (fun r => Host.Outcome.next (s.settleRes (optLen o.lit) r)) ((if_neg ?_).trans (if_neg ?_))
  · rintro (h | h | h | h | h)
    · simp [hp] at h
    · simp [hc] at h
    · exact h h1
    · exact h h2
    · exact h h3
  · rintro (h | h | h)
    · exact h h4
    · exact absurd h (Nat.not_lt.mpr h5)
    · exact absurd h6 (Nat.not_lt.mpr h)

theorem setWidth_eq_zero_append (x : Word) : x.setWidth 128 = (0 : Word) ++ x := by
  apply BitVec.eq_of_toNat_eq
  rw [BitVec.toNat_append, BitVec.toNat_setWidth_of_le (by decide)]
  simp

theorem execSgo_push {s : State} {o : JrOp} (h : s.cRuns o.pr) (h1 : 1 ≤ copOf ((0 : Word) ++ s.me.xr o.a))
    (h2 : copOf ((0 : Word) ++ s.me.xr o.a) ≤ 3) :
    exec (.sgo o) s = .next (s.settleRes 8 (push .s ((0 : Word) ++ s.me.xr o.a) s)) := by
  rw [exec_sgo, execSgo, instr_c h]
  simp only [setWidth_eq_zero_append]
  rw [if_pos ⟨h1, h2⟩]

/-! ### The notes of the rings -/

/-- The greatest count that a note of a ring may await. -/
def noteMax (r : RingId) : Nat := if r = .s then 0xFFFF else 0xFFFFFFFF

theorem noteRing_pushable {s : State} {r : RingId} {o : NoteOp} (h : s.cRuns o.pr) (hn : (s.me.xr o.a).toNat ≤ noteMax r)
    (hp : Pushable s r (noteBits r o.w.toNat (s.me.xr o.a).toNat o.r.toNat)) :
    noteRing r o s = .next ((s.modMe (·.pushNote r o.w.toNat (s.me.xr o.a).toNat o.r.toNat)).advance 8) := by
  obtain ⟨hpr, hc, ha, hr, hroom⟩ := hp
  refine instr_c_done h ((if_neg (Nat.not_lt.mpr hn)).trans ?_)
  simp [hpr, hc, Slot.pushCheck_ok ha hr, hroom]

theorem noteRing_forwardWait {s : State} {r : RingId} {o : NoteOp} (h : s.cRuns o.pr) (hn : (s.me.xr o.a).toNat ≤ noteMax r)
    (hw : ForwardWait s r (noteBits r o.w.toNat (s.me.xr o.a).toNat o.r.toNat)) : noteRing r o s = .next s.fwaits := by
  obtain ⟨hpr, hc, ha, hlt⟩ := hw
  refine instr_c_trapsAt h ((if_neg (Nat.not_lt.mpr hn)).trans ?_)
  simp [hpr, hc, Slot.pushCheck_forwardWait ha hlt]

/-! ### MSET and MSET.G -/

theorem execMset_done {s : State} {o : MsetOp} (h : s.cRuns o.pr) (hr : o.row.toNat < 6) (hv : (s.me.regLit o.val).toNat < 2 ^ 35)
    (hp : ∀ c ∈ s.me.pendingMma, c.nset ≠ o.set) :
    exec (.mset o) s = .next ((s.modMe fun sl =>
      { sl with nest := Sparse.set 0 sl.nest (8 * o.set.toNat + o.row.toNat) (s.me.regLit o.val) }).advance (regLitLen o.val)) := by
  rw [exec_mset, execMset]
  refine instr_c_done h ((if_neg (Nat.not_le.mpr hr)).trans ((if_neg (Nat.not_le.mpr hv)).trans (if_neg ?_)))
  simpa using hp

theorem execMsetG_done {s : State} {o : MsetGOp} (h : s.cRuns o.pr) (hv : s.me.regLit o.val &&& gResv o.w.toNat = 0)
    (hp : ∀ c ∈ s.me.pendingMma, c.gs ≠ o.g ∧ c.gb ≠ o.g) :
    exec (.msetG o) s = .next ((s.modMe fun sl =>
      { sl with g := Sparse.set 0 sl.g o.g.toNat (gSetWord (sl.greg o.g.toNat) o.w.toNat (s.me.regLit o.val)) }).advance
        (regLitLen o.val)) := by
  rw [exec_msetG, execMsetG]
  refine instr_c_done h ((if_neg (not_not.mpr hv)).trans (if_neg ?_))
  simpa [not_or] using hp

/-- Settles O9: each pushing instruction that accepts its command does what `push` does with it. -/
theorem pushResults : Obligations.PushResults := by
  refine ⟨⟨?_, ?_, ?_, ?_, ?_⟩, ⟨?_, ?_, ?_, ?_⟩, ?_, ?_⟩
  · intro s o h w hp hw
    rw [execMgo_push h hw, settleRes_pushable hp]
  · rintro s ⟨pr, a, b, _⟩ h rfl w
    refine ⟨fun hp h1 h2 => ?_, fun hp h1 h2 h3 h4 h5 h6 => ?_⟩
    · exact (execXpsh_push h h1 h2).trans (congrArg _ (settleRes_pushable hp))
    · exact (execVgo_push h hp.1 hp.2.1 h1 h2 h3 h4 h5 h6).trans (congrArg _ (settleRes_pushable hp))
  · rintro s ⟨pr, a, b, _⟩ v h rfl w
    refine ⟨fun hp h1 h2 => ?_, fun hp h1 h2 h3 h4 h5 h6 => ?_⟩
    · exact (execXpsh_push h h1 h2).trans (congrArg _ (settleRes_pushable hp))
    · exact (execVgo_push h hp.1 hp.2.1 h1 h2 h3 h4 h5 h6).trans (congrArg _ (settleRes_pushable hp))
  · intro s o h w hp h1 h2
    rw [execSgo_push h h1 h2, settleRes_pushable hp]
  · intro s o h n gives
    exact ⟨noteRing_pushable (r := .m) h, noteRing_pushable (r := .x) h, noteRing_pushable (r := .s) h⟩
  · intro s o h w hf hw
    exact (execMgo_push h hw).trans (congrArg _ (settleRes_forwardWait h.1 hf))
  · intro s o h w
    refine ⟨fun hf h1 h2 => ?_, fun hf h1 h2 h3 h4 h5 h6 => ?_⟩
    · exact (execXpsh_push h h1 h2).trans (congrArg _ (settleRes_forwardWait h.1 hf))
    · exact (execVgo_push h hf.1 hf.2.1 h1 h2 h3 h4 h5 h6).trans (congrArg _ (settleRes_forwardWait h.1 hf))
  · intro s o h w hf h1 h2
    exact (execSgo_push h h1 h2).trans (congrArg _ (settleRes_forwardWait h.1 hf))
  · intro s o h n gives
    exact ⟨noteRing_forwardWait (r := .m) h, noteRing_forwardWait (r := .x) h, noteRing_forwardWait (r := .s) h⟩
  · intro s o h v hr hv hp
    exact execMset_done h hr hv hp
  · intro s o h v hv hp
    exact execMsetG_done h hv hp

end Sys2Proof.Machine
end

section
namespace Sys2Proof.Machine

/-! ### Semaphores and guards of the C stream -/

theorem State.trace_me (s : State) (c k kind : Nat) (st : Strm) (code data : Nat) : (s.trace c k kind st code data).me = s.me := by
  simp only [State.me, slotAt_trace, State.trace_cur]

theorem execSemr_done {s : State} {o : SemrOp} (h : s.cRuns o.pr) (hp : o.s = 0 ∨ (s.me.sem o.s.toNat).pushed ≠ 0xFFFFFFFF) :
    exec (.semr o) s = .next ((s.modMe fun sl => (sl.pushSem o.s.toNat).raiseSem o.s.toNat).advance 8) := by
  rw [exec_semr, execSemr]
  refine instr_c_done h (if_neg ?_)
  rintro ⟨hn, hf⟩
  exact hp.elim (fun hz => hn (by rw [hz]; rfl)) fun hne => hne hf

/-- A wait whose count is reached goes on with what is known. -/
theorem semWait_reached {s : State} {n m : Nat} {w : WaitFor} {f : State → Res} (hn : n ≤ 0xFFFFFFFF)
    (hr : m = 0 ∨ (n ≤ (s.me.sem m).pushed.toNat ∧ n ≤ (s.me.sem m).done.toNat)) :
    ∃ t, OnlyKnown s t ∧ semWait n m w s f = f t := by
  simp only [semWait, if_neg (Nat.not_lt.mpr hn)]
  by_cases hm : m = 0
  · exact ⟨s, .refl s, if_pos hm⟩
  · obtain ⟨hp, hd⟩ := hr.resolve_left hm
    exact ⟨_, onlyKnown_learn s m n,
      (if_neg hm).trans ((if_neg (Nat.not_lt.mpr hp)).trans (if_neg (Nat.not_lt.mpr hd)))⟩

theorem execSemw_done {s : State} {o : SemwOp} (h : s.cRuns o.pr) (hn : (s.me.xr o.a).toNat ≤ 0xFFFFFFFF)
    (hr : o.s = 0 ∨ ((s.me.xr o.a).toNat ≤ (s.me.sem o.s.toNat).pushed.toNat ∧
      (s.me.xr o.a).toNat ≤ (s.me.sem o.s.toNat).done.toNat)) :
    ∃ t, OnlyKnown s t ∧ exec (.semw o) s =
      .next ((t.setX o.d ((s.me.sem o.s.toNat).pushed ++ (s.me.sem o.s.toNat).done)).advance 8) := by
  obtain ⟨t, ht, he⟩ := semWait_reached (s := s) (m := o.s.toNat) (w := .sem o.s.toNat (s.me.xr o.a).toNat)
    (f := fun s => .done (s.setX o.d ((s.me.sem o.s.toNat).pushed ++ (s.me.sem o.s.toNat).done))) hn
    (hr.imp_left fun hz => by rw [hz]; rfl)
  refine ⟨t, ht, ?_⟩
  rw [exec_semw, execSemw]
  refine instr_c_done h (he.trans ?_)
  rw [ht.me]

theorem gset_done {s : State} {pr : Pred} {g : BitVec 6} {v : State → BitVec 2} (h : s.cRuns pr)
    (hok : s.me.guard g.toNat = v s ∨ s.me.guard g.toNat = 0 ∨ g.toNat ∉ s.me.undecidedGuards) :
    gset pr g v s = .next ((s.modMe (·.setGuard g.toNat (v s))).advance 8) := by
  refine instr_c_done h (if_neg ?_)
  rintro ⟨h1, h2, h3⟩
  exact hok.elim h1 fun h => h.elim h2 fun h => h (by simpa using h3)

theorem guardOf_not (b : Bool) : guardOf (!b) = if b = true then 2 else 1 := by cases b <;> rfl
theorem guardOf_ne_zero (x : Word) : guardOf (x != 0) = if x = 0 then 2 else 1 := by
  by_cases h : x = 0 <;> simp [guardOf, h]

/-! ### NOTE.C -/

theorem Slot.ring_setRing_ne {r r' : RingId} (h : r' ≠ r) (sl : Slot) (q : Ring) : (sl.setRing r q).ring r' = sl.ring r' := by
  revert h
  cases r <;> cases r' <;> simp [Slot.setRing, Slot.ring]

/-- A note that awaits and raises nothing is written and closes its ring; no semaphore changes. -/
theorem Slot.pushNote_silent (sl : Slot) (q : RingId) :
    sl.pushNote q 0 0 0 =
      { sl.modRing q fun ring => { ring.push q (noteBits q 0 0 0) sl.pushNo with closed := true } with
        pushNo := sl.pushNo + 1 } := by
  cases q <;> rfl

theorem Slot.ring_pushNote_silent (sl : Slot) (q : RingId) :
    (sl.pushNote q 0 0 0).ring q = { (sl.ring q).push q (noteBits q 0 0 0) sl.pushNo with closed := true } := by
  cases q <;> rfl

theorem Slot.ring_pushNote_silent_ne {q r : RingId} (h : r ≠ q) (sl : Slot) : (sl.pushNote q 0 0 0).ring r = sl.ring r := by
  rw [Slot.pushNote_silent]
  exact Slot.ring_setRing_ne h sl _

/-- The rings of a list each receive a silent note. -/
def Slot.noteAll (sl : Slot) (l : List RingId) : Slot := l.foldl (fun sl q => sl.pushNote q 0 0 0) sl

theorem Slot.ring_noteAll_of_not_mem {l : List RingId} {r : RingId} (h : r ∉ l) (sl : Slot) :
    (sl.noteAll l).ring r = sl.ring r := by
  induction l generalizing sl with
  | nil => rfl
  | cons q l ih =>
    obtain ⟨hq, hl⟩ := not_or.mp (mt List.mem_cons.mpr h)
    exact (ih hl _).trans (sl.ring_pushNote_silent_ne hq)

theorem Slot.ring_noteAll_of_mem {l : List RingId} {r : RingId} (hn : l.Nodup) (h : r ∈ l) (sl : Slot) :
    ∃ no, (sl.noteAll l).ring r = { (sl.ring r).push r (noteBits r 0 0 0) no with closed := true } := by
  induction l generalizing sl with
  | nil => exact absurd h List.not_mem_nil
  | cons q l ih =>
    obtain ⟨hq, hl⟩ := List.nodup_cons.mp hn
    by_cases hr : r = q
    · subst hr
      exact ⟨sl.pushNo, (Slot.ring_noteAll_of_not_mem hq _).trans (sl.ring_pushNote_silent r)⟩
    · obtain ⟨no, hno⟩ := ih hl ((List.mem_cons.mp h).resolve_left hr) (sl.pushNote q 0 0 0)
      refine ⟨no, hno.trans ?_⟩
      rw [sl.ring_pushNote_silent_ne hr]

/-- A silent note changes nothing of its slot but the ring and the number of the next push. -/
theorem Slot.noteAll_keeps {γ : Type} (g : Slot → γ)
    (hg : ∀ (sl : Slot) q no r, g { sl.setRing r q with pushNo := no } = g sl)
    (sl : Slot) (l : List RingId) : g (sl.noteAll l) = g sl :=
  foldl_keeps g (fun sl q => by rw [Slot.pushNote_silent]; exact hg ..) l sl

theorem Slot.sems_setSem_congr {a b : Slot} (h : a.sems = b.sems) (n : Nat) (v : Sem) :
    (a.setSem n v).sems = (b.setSem n v).sems := by
  unfold Slot.setSem
  split
  · exact h
  · simp only [h]

theorem Slot.sem_congr {a b : Slot} (h : a.sems = b.sems) (n : Nat) : a.sem n = b.sem n := by simp only [Slot.sem, h]

theorem Slot.sems_pushSem_raiseSem_congr {a b : Slot} (h : a.sems = b.sems) (n : Nat) :
    ((a.pushSem n).raiseSem n).sems = ((b.pushSem n).raiseSem n).sems := by
  have hp : (a.pushSem n).sems = (b.pushSem n).sems := by
    rw [Slot.pushSem, Slot.pushSem, Slot.sem_congr h]
    exact Slot.sems_setSem_congr h ..
  rw [Slot.raiseSem, Slot.raiseSem, Slot.sem_congr hp]
  exact Slot.sems_setSem_congr hp ..

/-- The present open rings of a slot. -/
def Slot.openRings (sl : Slot) : List RingId := [RingId.m, .x, .s].filter fun r => (sl.ring r).present && !(sl.ring r).closed

theorem Slot.openRings_nodup (sl : Slot) : sl.openRings.Nodup := List.Nodup.filter _ (by decide)

/-- What `NOTE.C` makes of its slot. -/
def Slot.noteC (sl : Slot) (r : Nat) : Slot :=
  let sl := ((sl.noteAll sl.openRings).pushSem r).raiseSem r
  let sl := { sl with kring := { sl.kring with closed := true } }
  sl.modSs .c fun ss => { ss with ended := true, waiting := none, loops := [] }

theorem execNoteC_ends {s : State} {o : NoteOp} (h : s.cRuns o.pr) (hw : o.w = 0) (hn : (s.me.xr o.a).toNat ≤ 0xFFFFFFFF)
    (hu : s.me.unresolvedPending = false) (hr : o.r = 0 ∨ (s.me.sem o.r.toNat).pushed ≠ 0xFFFFFFFF)
    (hroom : ∀ r ∈ [RingId.m, .x, .s], (s.me.ring r).room r = true) :
    exec (.noteC o) s = .next (s.modMe (·.noteC o.r.toNat)) := by
  rw [exec_noteC, execNoteC]
  refine instr_c_stay h ?_
  rw [semWait, if_neg (Nat.not_lt.mpr hn), if_pos (by rw [hw]; rfl)]
  refine (if_neg (by simp [hu])).trans ((if_neg ?_).trans ((if_neg ?_).trans rfl))
  · rintro ⟨hz, hf⟩
    exact hr.elim (fun h0 => hz (by rw [h0]; rfl)) fun hne => hne hf
  · rw [Bool.not_eq_true, List.any_eq_false]
    intro q hq
    simp [hroom q (List.mem_of_mem_filter hq)]

theorem Slot.ring_noteC {r : RingId} (hr : r ≠ .k) (sl : Slot) (n : Nat) :
    (sl.noteC n).ring r = (sl.noteAll sl.openRings).ring r := by
  cases r with
  | k => exact absurd rfl hr
  | m | x | s => simp [Slot.noteC, Slot.ring, Slot.modSs, Slot.setSs, Slot.pushSem, Slot.raiseSem]

theorem Slot.noteC_x (sl : Slot) (n : Nat) : (sl.noteC n).x = sl.x := by
  simpa [Slot.noteC, Slot.modSs, Slot.setSs, Slot.pushSem, Slot.raiseSem] using
    Slot.noteAll_keeps (·.x) (fun _ _ _ r => by cases r <;> rfl) sl sl.openRings
theorem Slot.noteC_p (sl : Slot) (n : Nat) : (sl.noteC n).p = sl.p := by
  simpa [Slot.noteC, Slot.modSs, Slot.setSs, Slot.pushSem, Slot.raiseSem] using
    Slot.noteAll_keeps (·.p) (fun _ _ _ r => by cases r <;> rfl) sl sl.openRings
theorem Slot.noteC_sems (sl : Slot) (n : Nat) : (sl.noteC n).sems = ((sl.pushSem n).raiseSem n).sems :=
  Slot.sems_pushSem_raiseSem_congr (Slot.noteAll_keeps (·.sems) (fun _ _ _ r => by cases r <;> rfl) sl sl.openRings) n

theorem noteC_results {s : State} {o : NoteOp} (h : s.cRuns o.pr) (hw : o.w = 0) (hn : (s.me.xr o.a).toNat ≤ 0xFFFFFFFF)
    (hu : s.me.unresolvedPending = false) (hr : o.r = 0 ∨ (s.me.sem o.r.toNat).pushed ≠ 0xFFFFFFFF)
    (hroom : ∀ r ∈ [RingId.m, .x, .s], (s.me.ring r).room r = true) :
    ∃ t, exec (.noteC o) s = .next t ∧ t.me.cs.ended = true ∧ t.me.cs.waiting = none ∧ t.me.kring.closed = true ∧
      (∀ r ∈ [RingId.m, .x, .s], (s.me.ring r).present = true → (t.me.ring r).closed = true) ∧
      (∀ r ∈ [RingId.m, .x, .s], (s.me.ring r).present = true → (s.me.ring r).closed = false →
        ∃ no, t.me.ring r = { (s.me.ring r).push r (noteBits r 0 0 0) no with closed := true }) ∧
      t.me.sems = ((s.me.pushSem o.r.toNat).raiseSem o.r.toNat).sems ∧
      t.me.x = s.me.x ∧ t.me.p = s.me.p ∧ t.mem = s.mem := by
  have hne {r : RingId} (hm : r ∈ [RingId.m, .x, .s]) : r ≠ .k := by rintro rfl; simp at hm
  have hopen {r : RingId} (hm : r ∈ [RingId.m, .x, .s]) (hp : (s.me.ring r).present = true) (hc : (s.me.ring r).closed = false) :
      ∃ no, (s.me.noteC o.r.toNat).ring r = { (s.me.ring r).push r (noteBits r 0 0 0) no with closed := true } := by
    rw [Slot.ring_noteC (hne hm)]
    exact Slot.ring_noteAll_of_mem s.me.openRings_nodup (List.mem_filter.mpr ⟨hm, by simp [hp, hc]⟩) s.me
  refine ⟨_, execNoteC_ends h hw hn hu hr hroom, ?_⟩
  rw [State.me_modMe]
  refine ⟨rfl, rfl, rfl, fun r hm hp => ?_, fun r => hopen, ?_, ?_, ?_, rfl⟩
  · cases hc : (s.me.ring r).closed with
    | false =>
      obtain ⟨no, hno⟩ := hopen hm hp hc
      rw [hno]
    | true => rw [Slot.ring_noteC (hne hm), Slot.ring_noteAll_of_not_mem (by simp [Slot.openRings, hc]), hc]
  · exact Slot.noteC_sems ..
  · exact Slot.noteC_x ..
  · exact Slot.noteC_p ..

/-! ### The kernels of the V stream -/

/-- The slot after the raise for the kernel that runs, if one does. -/
def Slot.kernelRaised (sl : Slot) : Slot :=
  match sl.kernel with
  | some u => sl.raiseSem (cRss u)
  | none => sl

/-- The end of a kernel changes its slot's semaphores and its kernel alone. -/
theorem Slot.endKernel_keeps {γ : Type} (g : Slot → γ) (hs : ∀ (sl : Slot) n v, g (sl.setSem n v) = g sl)
    (hk : ∀ (sl : Slot) k, g { sl with kernel := k } = g sl) (sl : Slot) : g sl.endKernel = g sl := by
  unfold Slot.endKernel
  split
  · exact (hk _ _).trans (hs _ _ _)
  · rfl

theorem Slot.endKernel_kring (sl : Slot) : sl.endKernel.kring = sl.kring :=
  Slot.endKernel_keeps (·.kring) Slot.setSem_kring (fun _ _ => rfl) sl
theorem Slot.endKernel_vs (sl : Slot) : sl.endKernel.vs = sl.vs :=
  Slot.endKernel_keeps (·.vs) Slot.setSem_vs (fun _ _ => rfl) sl
theorem Slot.endKernel_gd (sl : Slot) : sl.endKernel.gd = sl.gd :=
  Slot.endKernel_keeps (·.gd) Slot.setSem_gd (fun _ _ => rfl) sl
theorem Slot.endKernel_task (sl : Slot) : sl.endKernel.task = sl.task :=
  Slot.endKernel_keeps (·.task) Slot.setSem_task (fun _ _ => rfl) sl
theorem Slot.endKernel_sems (sl : Slot) : sl.endKernel.sems = sl.kernelRaised.sems := by
  unfold Slot.endKernel Slot.kernelRaised
  cases sl.kernel <;> rfl
theorem Slot.endKernel_kernel (sl : Slot) : sl.endKernel.kernel = none := by
  unfold Slot.endKernel
  cases h : sl.kernel
  · exact h
  · rfl

theorem Slot.guard_congr {a b : Slot} (h : a.gd = b.gd) (g : Nat) : a.guard g = b.guard g := by simp only [Slot.guard, h]

/-- The slot whose kernel queue's head starts. -/
def Slot.startKernel (sl : Slot) (w : BitVec 128) : Slot :=
  { sl with kring := sl.kring.pop, kernel := some w, kernelPtr := sl.kring.rp.toNat,
            kernelNo := Sparse.get 0 sl.kring.order (sl.kring.rp.toNat % 16) }

/-- An entry whose guard lets it run and whose semaphore is reached starts. -/
theorem kernelNext_run {sl : Slot} {w : BitVec 128} (hw : sl.kring.headBits .k = w) (hl : sl.kring.len ≠ 0)
    (hp : sl.kring.head.phase = .fresh) (hg : sl.guard (cGds w) = 1) (hb : w.getLsbD 22 = false)
    (ha : cAws w = 0 ∨ cAwc .k w ≤ (sl.sem (cAws w)).done.toNat) (n : Nat) :
    kernelNext (n + 1) sl = .run (sl.startKernel w) w := by
  have hsem (q : Ring) : ¬ (cAws w ≠ 0 ∧ (Slot.sem { sl with kring := q } (cAws w)).done.toNat < cAwc .k w) :=
    fun ⟨h, h'⟩ => ha.elim h fun hle => absurd h' (Nat.not_lt.mpr hle)
  simp only [kernelNext, hw, hp, hg, hb, if_neg hl, if_neg (hsem _)]
  rfl

theorem kernelNext_empty {sl : Slot} (hl : sl.kring.len = 0) (hc : sl.kring.closed = false) (n : Nat) :
    kernelNext (n + 1) sl = .wait sl := by
  simp [kernelNext, hl, hc]

/-- The running kernel's end is traced, and what it published is known. -/
def State.kernelDone (s : State) : State :=
  (match s.me.kernel with
    | some w => s.trace s.cur.core s.cur.slot 6 .v 0 (kernData s.me w)
    | none => s).passKernel

theorem onlyKnown_passKernel (s : State) : OnlyKnown s s.passKernel := by
  unfold State.passKernel
  split
  · exact onlyKnown_passRun ..
  · exact .refl s

theorem State.kernelDone_cur (s : State) : s.kernelDone.cur = s.cur := by
  unfold State.kernelDone
  rw [(onlyKnown_passKernel _).cur]
  split <;> simp

theorem State.kernelDone_me (s : State) : s.kernelDone.me = s.me := by
  unfold State.kernelDone
  rw [(onlyKnown_passKernel _).me]
  split
  · exact State.trace_me ..
  · rfl

theorem State.putMe_me (s : State) (sl : Slot) : (s.putMe sl).me = sl := by simp [State.putMe, State.me]

/-- What the kernel queue's head makes of a `HALT` whose running kernel is done. -/
def State.haltRes (s : State) : KernelNext → Res
  | .wait sl => .wait (s.putMe sl) .kernel
  | .stop sl => .stay (s.putMe sl.endV)
  | .run sl w =>
    let s := ((s.putMe sl).learn (cAws w) (cAwc .k w)).trace s.cur.core s.cur.slot 5 .v 0 (kernData sl w)
    .jump s (s.me.t.entry + (ext w 32 32).setWidth 64)

theorem execHaltV_eq (pr : Pred) (s : State) :
    execHaltV pr s = .next (s.finish 4 (s.kernelDone.haltRes (kernelNext 17 s.me.endKernel))) := by
  rw [← s.kernelDone_me]
  unfold execHaltV instrAlways State.haltRes State.kernelDone
  rfl

/-- `HALT` with an entry that runs: the stream goes on at the entry's place in the image, with the slot that the queue gives. -/
theorem execHaltV_run {s : State} {pr : Pred} {sl : Slot} {w : BitVec 128} (hv : s.vRuns)
    (hk : kernelNext 17 s.me.endKernel = .run sl w) (hvs : sl.vs = s.me.vs) :
    ∃ u : State, u.me = sl ∧ u.cur = s.cur ∧
      execHaltV pr s = .next (u.jumpTo (sl.t.entry + (ext w 32 32).setWidth 64)) := by
  have hl := onlyKnown_learn (s.kernelDone.putMe sl) (cAws w) (cAwc .k w)
  let u := ((s.kernelDone.putMe sl).learn (cAws w) (cAwc .k w)).trace s.kernelDone.cur.core s.kernelDone.cur.slot 5 .v 0
    (kernData sl w)
  have hcur : u.cur = s.cur := (State.trace_cur ..).trans (hl.cur.trans s.kernelDone_cur)
  have hme : u.me = sl := (State.trace_me ..).trans (hl.me.trans (State.putMe_me ..))
  refine ⟨u, hme, hcur, ?_⟩
  have hres : s.kernelDone.haltRes (.run sl w) = .jump u (u.me.t.entry + (ext w 32 32).setWidth 64) := rfl
  rw [execHaltV_eq, hk, hres, hme, finish_v_jump hv hcur (by rw [hme, hvs]) (by rw [hme, hvs]) (by rw [hme, hvs])]

/-- A V stream whose instruction waits keeps its slot but for the wait, and the compensation of the tenure that ends. -/
theorem me_finish_v_wait {s t : State} {len : Nat} {w : WaitFor} (hs : s.cur.strm = .v) (hc : t.cur = s.cur) :
    ∃ c, (s.finish len (.wait t w)).me = { t.me with vs := { t.me.vs with waiting := some w }, comp := c } := by
  refine ⟨(s.finish len (.wait t w)).me.comp, ?_⟩
  simp only [State.finish, hs, if_true, State.settleRes]
  rw [State.me_vTenure, State.me_modMe, hc, hs]
  rfl

theorem me_finish_v_stay {s t : State} {len : Nat} (hs : s.cur.strm = .v) :
    ∃ c, (s.finish len (.stay t)).me = { t.me with comp := c } := by
  refine ⟨(s.finish len (.stay t)).me.comp, ?_⟩
  simp only [State.finish, hs, if_true, State.settleRes]
  exact State.me_vTenure ..

theorem execHaltV_parks {s : State} {pr : Pred} (hv : s.vRuns) (hl : s.me.kring.len = 0) (hc : s.me.kring.closed = false) :
    ∃ t, exec (.haltV pr) s = .next t ∧ t.me.vs.waiting = some .kernel ∧ t.me.vs.pc = s.me.vs.pc ∧ t.me.kernel = none ∧
      t.me.sems = s.me.kernelRaised.sems := by
  have hk : kernelNext 17 s.me.endKernel = .wait s.me.endKernel :=
    kernelNext_empty (by rw [Slot.endKernel_kring, hl]) (by rw [Slot.endKernel_kring, hc]) 16
  refine ⟨_, (execHaltV_eq pr s).trans (by rw [hk, State.haltRes]), ?_⟩
  obtain ⟨c, hme⟩ := me_finish_v_wait (s := s) (t := s.kernelDone.putMe s.me.endKernel) (len := 4) (w := .kernel)
    hv.1 s.kernelDone_cur
  rw [hme, State.putMe_me]
  refine ⟨rfl, ?_, s.me.endKernel_kernel, s.me.endKernel_sems⟩
  simp [s.me.endKernel_vs]

/-- The slot that `NOTE.V` leaves: the kernel and every queued entry raise, the queue is empty and closed, the stream ended. -/
def Slot.noteV (sl : Slot) : Slot :=
  let sl := sl.endKernel
  let sl := (sl.kring.pending .k).foldl (fun sl w => sl.raiseSem (cRss w)) sl
  let q := sl.kring
  { sl with kring := { q with rp := q.wp, closed := true, head := HeadSt.reset } }.endV

theorem execNoteV_eq (pr : Pred) (s : State) : execNoteV pr s = .next (s.finish 8 (.stay (s.kernelDone.modMe (·.noteV)))) := by
  unfold execNoteV instrAlways State.kernelDone Slot.noteV
  rfl

theorem Slot.raiseAll_kernel (sl : Slot) (l : List (BitVec 128)) :
    (l.foldl (fun sl w => sl.raiseSem (cRss w)) sl).kernel = sl.kernel :=
  foldl_keeps (fun sl : Slot => sl.kernel) (fun sl _ => sl.setSem_kernel ..) l sl

theorem Slot.noteV_kernel (sl : Slot) : sl.noteV.kernel = none := by
  simp only [Slot.noteV, Slot.endV, Slot.modSs, Slot.setSs, Slot.raiseAll_kernel, Slot.endKernel_kernel]

theorem execNoteV_ends {s : State} {pr : Pred} (hv : s.vRuns) :
    ∃ t, exec (.noteV pr) s = .next t ∧ t.me.vs.ended = true ∧ t.me.kernel = none ∧ t.me.kring.len = 0 ∧
      t.me.kring.closed = true := by
  refine ⟨_, execNoteV_eq pr s, ?_⟩
  obtain ⟨c, hme⟩ := me_finish_v_stay (s := s) (t := s.kernelDone.modMe (·.noteV)) (len := 8) hv.1
  rw [hme, State.me_modMe]
  refine ⟨rfl, s.kernelDone.me.noteV_kernel, ?_, rfl⟩
  simp [Slot.noteV, Slot.endV, Slot.modSs, Slot.setSs, Ring.len]

/-- The entry at the head of the kernel queue starts. -/
theorem execHaltV_starts {s : State} {pr : Pred} {w : BitVec 128} (hv : s.vRuns) (hw : s.me.kring.headBits .k = w)
    (hl : s.me.kring.len ≠ 0) (hp : s.me.kring.head.phase = .fresh) (hg : s.me.guard (cGds w) = 1) (hb : w.getLsbD 22 = false)
    (ha : cAws w = 0 ∨ cAwc .k w ≤ (s.me.kernelRaised.sem (cAws w)).done.toNat) :
    ∃ t, execHaltV pr s = .next t ∧ t.cur = s.cur ∧ t.me.kernel = some w ∧ t.me.kring = s.me.kring.pop ∧
      t.me.vs.waiting = none ∧ t.me.sems = s.me.kernelRaised.sems ∧
      t.me.vs.pc = s.me.t.entry + BitVec.ofNat 64 (ext w 32 32).toNat := by
  have hq := s.me.endKernel_kring
  have hk : kernelNext 17 s.me.endKernel = .run (s.me.endKernel.startKernel w) w :=
    kernelNext_run (by rw [hq, hw]) (by rwa [hq]) (by rwa [hq]) (by rw [Slot.guard_congr s.me.endKernel_gd, hg]) hb
      (by rwa [Slot.sem_congr s.me.endKernel_sems]) 16
  obtain ⟨u, hu, hcur, hex⟩ := execHaltV_run (pr := pr) hv hk s.me.endKernel_vs
  have ht : (s.me.endKernel.startKernel w).t = s.me.t := by simp only [Slot.t, Slot.startKernel, s.me.endKernel_task]
  refine ⟨_, hex, (State.jumpTo_cur ..).trans hcur, ?_⟩
  rw [State.me_jumpTo, hu, hcur, hv.1, ht]
  refine ⟨rfl, congrArg Ring.pop hq, rfl, s.me.endKernel_sems, ?_⟩
  simp [Slot.modSs, Slot.setSs, ← BitVec.ofNat_toNat]

/-- A parked V stream takes what its `HALT` would. -/
theorem execKernelStart_parked {s : State} (hv : s.vRuns) (hw : s.me.vs.waiting = some .kernel) (hr : s.me.vs.stopReq = none)
    (hf : (s.core s.cur.core).frozen = false) {t : State} (ht : execHaltV ⟨0, false⟩ s = .next t) (hc : t.cur = s.cur) :
    exec (.kernelStart s.myId) s = .next t := by
  obtain ⟨hst, _, hstop, hheld⟩ := hv
  have hcur : ({ s with cur := ⟨s.cur.core, s.cur.slot, .v⟩ } : State) = s := by rw [← hst]
  rw [exec_kernelStart, execKernelStart]
  refine (if_pos ⟨hw, hr, by simp [State.myId, State.me] at *; simp [hstop], hheld, by simp [State.myId, hf]⟩).trans ?_
  simp only [State.myId, hcur, ht]
  rw [← hc]

/-- Settles O10: the C stream's instructions by their bodies, `NOTE.C` by the fold over its open rings, the V stream's kernels by
the queue's next entry. -/
theorem semaphoreGuardKernelResults : Obligations.SemaphoreGuardKernelResults := by
  refine ⟨⟨fun s o h hp => execSemr_done h hp, ?_, ?_⟩, fun s o h hw hn hu hr hroom =>
    noteC_results h hw hn hu hr hroom, ?_, ?_,
    fun s pr hv => execNoteV_ends hv⟩
  · intro s o h n x hn hr
    exact execSemw_done h hn hr
  · intro s pr g h ok gives
    refine ⟨fun b hb => ?_, fun b hb => ?_, fun a ha => ?_, fun h0 => gset_done (v := fun _ => 0) h h0⟩
    · exact gset_done (v := fun s => guardOf (s.me.pr b)) h hb
    · rw [← guardOf_not] at hb ⊢
      exact gset_done (v := fun s => guardOf (!s.me.pr b)) h hb
    · rw [← guardOf_ne_zero] at ha ⊢
      exact gset_done (v := fun s => guardOf (s.me.xr a != 0)) h ha
  · intro s pr hv q w raised hl hp hg hb ha
    refine ⟨?_, fun hw hr hf => ?_⟩
    · obtain ⟨t, ht, _, h⟩ := execHaltV_starts (pr := pr) hv rfl hl hp hg hb ha
      exact ⟨t, ht, h⟩
    · obtain ⟨t, ht, hc, hk, _, hwait, _, hpc⟩ := execHaltV_starts (pr := ⟨0, false⟩) hv rfl hl hp hg hb ha
      exact ⟨t, execKernelStart_parked hv hw hr hf ht hc, hk, hwait, hpc⟩
  · intro s pr hv hl hc
    exact execHaltV_parks hv hl hc

end Sys2Proof.Machine
end

section
namespace Sys2Proof.Machine

/-! ### Holdings (R155, R158) -/

theorem mayGrant_of {s : State} {k : Nat} (hk : k ≤ 255) (hv : (s.cur? k).valid = true)
    (hp : s.me.privileged = true ∨ s.below (s.fn s.me.t.fn).cur 5 k = true) : mayGrant s k = true := by
  simpa [mayGrant, hk, hv] using hp

theorem regrant_within {s : State} {old : Holding} {k h : Nat} (hi : ((s.withdraw old).cur? k).issued + h ≤ 0xFFFFFFFF) :
    regrant s old k h = some ((s.withdraw old).modCur k fun c => { c with issued := c.issued + h }) :=
  if_neg (Nat.not_lt.mpr hi)

theorem regrant_past {s : State} {old : Holding} {k h : Nat} (hi : 0xFFFFFFFF < ((s.withdraw old).cur? k).issued + h) :
    regrant s old k h = none :=
  if_pos hi

theorem execTkset_done {s : State} {o : TksetOp} (hc : s.cRuns o.pr) (hh : (s.me.regLit o.amt).toNat ≤ 0xFFFFFFFF)
    (hg : mayGrant s (s.me.xr o.b).toNat = true)
    (hi : ((s.withdraw s.me.hold).cur? (s.me.xr o.b).toNat).issued + (s.me.regLit o.amt).toNat ≤ 0xFFFFFFFF) :
    exec (.tkset o) s = .next ((((s.withdraw s.me.hold).modCur (s.me.xr o.b).toNat fun c =>
      { c with issued := c.issued + (s.me.regLit o.amt).toNat }).modMe fun sl =>
        { sl with hold := ⟨(s.me.xr o.b).toNat, (s.me.regLit o.amt).toNat⟩ }).advance (regLitLen o.amt)) := by
  rw [exec_tkset, execTkset]
  refine instr_c_done hc ((if_neg (Nat.not_lt.mpr hh)).trans ((if_neg (by simp [hg])).trans ?_))
  rw [regrant_within hi]

theorem execTkset_past {s : State} {o : TksetOp} (hc : s.cRuns o.pr) (hh : (s.me.regLit o.amt).toNat ≤ 0xFFFFFFFF)
    (hg : mayGrant s (s.me.xr o.b).toNat = true)
    (hi : 0xFFFFFFFF < ((s.withdraw s.me.hold).cur? (s.me.xr o.b).toNat).issued + (s.me.regLit o.amt).toNat) :
    exec (.tkset o) s = .next (s.trapEntry s.cur.core s.cur.slot fCurrency .c s.me.cs.pc 0) := by
  rw [exec_tkset, execTkset]
  refine instr_c_trapsAt hc ((if_neg (Nat.not_lt.mpr hh)).trans ((if_neg (by simp [hg])).trans ?_))
  rw [regrant_past hi]

theorem execTksetT_done {s : State} {o : TksetTOp} (hc : s.cRuns o.pr) (hh : (s.me.regLit o.amt).toNat ≤ 0xFFFFFFFF)
    (hg : mayGrant s (s.me.xr o.b).toNat = true) (ht : o.t.toNat ≤ 63)
    (hv : (s.tileAt s.cur.core (64 * s.cur.slot + o.t.toNat)).valid = true)
    (hi : ((s.withdraw (s.tileAt s.cur.core (64 * s.cur.slot + o.t.toNat)).hold).cur? (s.me.xr o.b).toNat).issued +
      (s.me.regLit o.amt).toNat ≤ 0xFFFFFFFF) :
    exec (.tksetT o) s = .next ((((s.withdraw (s.tileAt s.cur.core (64 * s.cur.slot + o.t.toNat)).hold).modCur (s.me.xr o.b).toNat
      fun c => { c with issued := c.issued + (s.me.regLit o.amt).toNat }).modTile s.cur.core (64 * s.cur.slot + o.t.toNat) fun t =>
        { t with hold := ⟨(s.me.xr o.b).toNat, (s.me.regLit o.amt).toNat⟩ }).advance (regLitLen o.amt)) := by
  rw [exec_tksetT, execTksetT]
  refine instr_c_done hc ((if_neg (Nat.not_lt.mpr hh)).trans ((if_neg (by simp [hg])).trans
    ((if_neg (Nat.not_lt.mpr ht)).trans ((if_neg (by simp [hv])).trans ?_))))
  rw [regrant_within hi]

/-! ### The generator (R160, R161) -/

theorem Core.gen_setGen (co : Core) (e e' : Nat) (v : BitVec 32) :
    (co.setGen e v).gen e' = if e' = e then v else co.gen e' := by
  simp only [Core.gen, Core.setGen, Sparse.get_put]

theorem Core.gen_setAll {f : Nat → BitVec 32} (l : List Nat) (co : Core) (e : Nat) :
    (l.foldl (fun co e => co.setGen e (f e)) co).gen e = if e ∈ l then f e else co.gen e := by
  induction l generalizing co with
  | nil => simp
  | cons a l ih =>
    rw [List.foldl_cons, ih, Core.gen_setGen]
    by_cases he : e = a <;> simp [he]

theorem Core.gen_seedAll (co : Core) (v : BitVec 32) {e : Nat} (he : e < 6) : (co.seedAll v).gen e = v + BitVec.ofNat 32 e := by
  rw [Core.seedAll, Core.gen_setAll, if_pos (List.mem_range.mpr he)]

theorem Core.seed_seedAll (co : Core) (v : BitVec 32) : (co.seedAll v).seed = v :=
  foldl_keeps (f := fun co e => Core.setGen co e (v + BitVec.ofNat 32 e)) (fun co : Core => co.seed) (fun _ _ => rfl) _ _

/-- The value that `DRSEED` writes. -/
def Slot.seedOf (sl : Slot) (src : SeedSrc) : BitVec 32 :=
  match src with
  | .sum a imm => (sl.xr a + imm.setWidth 64).setWidth 32
  | .lit v => v
def seedLen (src : SeedSrc) : Nat :=
  match src with
  | .sum _ _ => 8
  | .lit _ => 12

theorem execDrseed_done {s : State} {o : DrseedOp} (hc : s.cRuns o.pr) :
    exec (.drseed o) s = .next ((s.modCore s.cur.core (·.seedAll (s.me.seedOf o.src))).advance (seedLen o.src)) := by
  rw [exec_drseed, execDrseed]
  exact instr_c_done hc rfl

/-! ### Currencies (R159, R162) -/

theorem adjust_within {s : State} {top old new : Nat} (h : (s.cur? top).issued - old + new ≤ 0xFFFFFFFF) :
    adjust s top old new = some (s.modCur top fun c => { c with issued := (s.cur? top).issued - old + new }) :=
  if_neg (Nat.not_lt.mpr h)

/-- The owner field holds the owner where nothing stands above it. -/
theorem bitsN_owner {x : Nat} (h : x / 2 ^ 8 ≤ 19 ∨ x / 2 ^ 8 = 31) : bitsN x 8 5 = x / 2 ^ 8 := by
  rw [bitsN, Nat.mod_eq_of_lt]
  omega

/-- `CURSET`'s operand names a parent, an owner and a currency below the root. -/
def State.cursetOk (s : State) (o : CursetOp) : Prop :=
  let x := (s.me.xr o.b).toNat
  (s.me.regLit o.amt).toNat ≤ 0xFFFFFFFF ∧ o.k.toNat ≠ 0 ∧ (x / 2 ^ 8 ≤ 19 ∨ x / 2 ^ 8 = 31)

theorem cursetChk_ok {s : State} {o : CursetOp} (hp : s.me.privileged = true) (h : s.cursetOk o) :
    cursetChk s o (s.me.regLit o.amt).toNat = .ok () := by
  obtain ⟨hf, hk, hw⟩ := h
  have hx : (s.me.xr o.b).toNat / 2 ^ 13 = 0 := by omega
  have hk0 : o.k ≠ 0 := fun h => hk (by rw [h]; rfl)
  have hnot : ¬ ((s.me.xr o.b).toNat / 2 ^ 13 ≠ 0 ∨ (s.me.regLit o.amt).toNat > 0xFFFFFFFF ∨ o.k = 0) := by
    rintro (h | h | h)
    · exact h hx
    · omega
    · exact hk0 h
  have how : (decide ((s.me.xr o.b).toNat / 2 ^ 8 ≤ 19) || (s.me.xr o.b).toNat / 2 ^ 8 == 31) = true := by simpa using hw
  simp only [cursetChk, hp, bitsN_owner hw, decide_eq_false hnot, how]
  rfl

theorem cursetChk_unprivileged {s : State} {o : CursetOp} (hp : s.me.privileged = false) (f : Nat) :
    cursetChk s o f = .error (fPriv, 0) := by
  simp [cursetChk, hp, bad]

theorem execCurset_refunds {s : State} {o : CursetOp} (hc : s.cRuns o.pr) (hp : s.me.privileged = true) (h : s.cursetOk o)
    (he : (s.cur? o.k.toNat).valid = true) (hpar : (s.me.xr o.b).toNat % 2 ^ 8 = (s.cur? o.k.toNat).parent)
    (how : (s.me.xr o.b).toNat / 2 ^ 8 = (s.cur? o.k.toNat).owner)
    (hv : (s.cur? ((s.me.xr o.b).toNat % 2 ^ 8)).issued - (s.cur? o.k.toNat).funding + (s.me.regLit o.amt).toNat ≤ 0xFFFFFFFF) :
    exec (.curset o) s = .next (((s.modCur ((s.me.xr o.b).toNat % 2 ^ 8) fun c =>
      { c with issued := (s.cur? ((s.me.xr o.b).toNat % 2 ^ 8)).issued - (s.cur? o.k.toNat).funding + (s.me.regLit o.amt).toNat }).modCur
        o.k.toNat fun c => { c with funding := (s.me.regLit o.amt).toNat }).advance (regLitLen o.amt)) := by
  rw [exec_curset, execCurset]
  refine instr_c_done hc ?_
  simp only [cursetChk_ok hp h, chk_then_ok, he, if_true, bitsN_owner h.2.2, bitsN_zero, ← hpar, ← how, adjust_within hv]
  simp

theorem execCurset_makes {s : State} {o : CursetOp} (hc : s.cRuns o.pr) (hp : s.me.privileged = true) (h : s.cursetOk o)
    (he : (s.cur? o.k.toNat).valid = false) (hpv : (s.cur? ((s.me.xr o.b).toNat % 2 ^ 8)).valid = true)
    (hd : (s.cur? ((s.me.xr o.b).toNat % 2 ^ 8)).depth ≠ 4)
    (hv : (s.cur? ((s.me.xr o.b).toNat % 2 ^ 8)).issued - 0 + (s.me.regLit o.amt).toNat ≤ 0xFFFFFFFF) :
    exec (.curset o) s = .next (((s.modCur ((s.me.xr o.b).toNat % 2 ^ 8) fun c =>
      { c with issued := (s.cur? ((s.me.xr o.b).toNat % 2 ^ 8)).issued - 0 + (s.me.regLit o.amt).toNat }).modCur
        o.k.toNat fun c => { c with parent := (s.me.xr o.b).toNat % 2 ^ 8, owner := (s.me.xr o.b).toNat / 2 ^ 8,
                                    funding := (s.me.regLit o.amt).toNat, resv := 0,
                                    depth := (s.cur? ((s.me.xr o.b).toNat % 2 ^ 8)).depth + 1, valid := true }).advance
          (regLitLen o.amt)) := by
  rw [exec_curset, execCurset]
  refine instr_c_done hc ?_
  have hd4 : ((s.cur? ((s.me.xr o.b).toNat % 2 ^ 8)).depth == 4) = false := by simpa using hd
  simp only [cursetChk_ok hp h, chk_then_ok, he, bitsN_owner h.2.2, bitsN_zero, adjust_within hv, hpv, hd4]
  rfl

theorem execCursetClr_done {s : State} {o : CursetOp} (hc : s.cRuns o.pr) (hp : s.me.privileged = true) (h : s.cursetOk o)
    (he : (s.cur? o.k.toNat).valid = true) (hi : (s.cur? o.k.toNat).issued = 0) :
    exec (.cursetClr o) s = .next (((s.modCur (s.cur? o.k.toNat).parent fun c =>
      { c with issued := c.issued - (s.cur? o.k.toNat).funding }).modCur o.k.toNat fun c => { c with valid := false }).advance
        (regLitLen o.amt)) := by
  rw [exec_cursetClr, execCursetClr]
  refine instr_c_done hc ?_
  simp [cursetChk_ok hp h, he, hi]

theorem execCursetClr_refuses {s : State} {o : CursetOp} (hc : s.cRuns o.pr) (hp : s.me.privileged = true) (h : s.cursetOk o)
    (he : (s.cur? o.k.toNat).valid = false ∨ (s.cur? o.k.toNat).issued ≠ 0) :
    exec (.cursetClr o) s = .next (s.trapEntry s.cur.core s.cur.slot fCurrency .c s.me.cs.pc 0) := by
  rw [exec_cursetClr, execCursetClr]
  refine instr_c_trapsAt hc ?_
  simp only [cursetChk_ok hp h, chk_then_ok]
  exact if_pos (by simpa using he)

theorem execCuriss_done {s : State} {o : CurissOp} (hc : s.cRuns o.pr) (hp : s.me.privileged = true)
    (hr : (s.me.regLit o.amt).toNat ≤ 0xFFFFFFFF) (he : (s.cur? o.k.toNat).valid = true)
    (hv : (s.cur? o.k.toNat).issued - (s.cur? o.k.toNat).resv + (s.me.regLit o.amt).toNat ≤ 0xFFFFFFFF) :
    exec (.curiss o) s = .next (((s.modCur o.k.toNat fun c =>
      { c with issued := (s.cur? o.k.toNat).issued - (s.cur? o.k.toNat).resv + (s.me.regLit o.amt).toNat }).modCur o.k.toNat fun c =>
        { c with resv := (s.me.regLit o.amt).toNat }).advance (regLitLen o.amt)) := by
  rw [exec_curiss, execCuriss]
  refine instr_c_done hc ((if_neg (by simp [hp])).trans ((if_neg (by simp [he, hr])).trans ?_))
  rw [adjust_within hv]

/-- Settles O23: each instruction's checks pass, or its first failing one names the fault. -/
theorem ticketAndCurrencyResults : Obligations.TicketAndCurrencyResults := by
  refine ⟨⟨?_, ?_, ?_, ?_, ?_⟩, ?_, ?_, ?_⟩
  · intro s o hc h k u hh hk hv hp
    have hg := mayGrant_of hk hv hp
    exact ⟨execTkset_done hc hh hg, execTkset_past hc hh hg⟩
  · intro s o hc h k a u hh hk hv hp ht hval hi
    exact execTksetT_done hc hh (mayGrant_of hk hv hp) ht hval hi
  · rintro s ⟨pr, d, a, sel, wide⟩ hc k gives
    refine ⟨?_, ?_, ?_, ?_, ?_, ?_, ?_, ?_, ?_⟩
    case refine_7 | refine_8 =>
      rintro rfl hm
      simp only [gives, exec_tkget, execTkget]
      exact instr_c_done hc (if_pos hm)
    all_goals
      rintro rfl
      simp only [gives, exec_tkget, execTkget]
      exact instr_c_done hc rfl
  · intro s o hc v
    refine ⟨_, execDrseed_done hc, ?_, fun e he => ?_, fun c hne => ?_, rfl⟩
    · rw [State.core_modCore, if_pos rfl, Core.seed_seedAll]
      rfl
    · rw [State.core_modCore, if_pos rfl, Core.gen_seedAll _ _ he]
      rfl
    · rw [State.core_modCore, if_neg hne]
  · intro s o hc x
    rw [exec_drnext, execDrnext]
    exact instr_c_done hc rfl
  · intro s o hc hp f x p ow k e v hf hk how
    have hok : s.cursetOk o := ⟨hf, hk, how⟩
    refine ⟨fun he hpar ho hv => ?_, fun he hpv hd hv => ?_, fun he hi => execCursetClr_done hc hp hok he hi,
      fun he => execCursetClr_refuses hc hp hok he⟩
    · have hve : v = (s.cur? p).issued - e.funding + f := by simp only [v, he, if_true]
      rw [hve] at hv ⊢
      exact execCurset_refunds hc hp hok he hpar ho hv
    · have hve : v = (s.cur? p).issued - 0 + f := by simp [v, he]
      rw [hve] at hv ⊢
      exact execCurset_makes hc hp hok he hpv hd hv
  · intro s o hc hp r k v hr he hv
    exact execCuriss_done hc hp hr he hv
  · intro s o q hp
    refine ⟨fun hc => ⟨?_, ?_⟩, fun hc => ?_⟩
    · rw [exec_curset, execCurset]
      exact instr_c_trapsAt hc (by simp only [cursetChk_unprivileged hp, chk_then_error])
    · rw [exec_cursetClr, execCursetClr]
      exact instr_c_trapsAt hc (by simp only [cursetChk_unprivileged hp, chk_then_error])
    · rw [exec_curiss, execCuriss]
      exact instr_c_trapsAt hc (if_pos (by simp [hp]))

end Sys2Proof.Machine
end

section
namespace Sys2Proof.Machine

/-! ### The head of a ring at work (R138, R240) -/

theorem State.headAt_modHead (s : State) (c k : Nat) (r : RingId) (f : HeadSt → HeadSt) :
    (s.modHead c k r f).headAt c k r = f (s.headAt c k r) := by
  rw [State.headAt, State.ringAt, State.slotAt_modHead, Slot.ring_modRing]
  rfl

theorem State.headAt_headFinished (s : State) (c k : Nat) (r : RingId) (n : Nat) :
    ((s.headFinished c k r n).headAt c k r).phase = .finished := by
  rw [State.headFinished, State.headAt_modHead]

/-- The units of the current slot's head, from where it stands, under a plan. -/
def State.headRun (s : State) (r : RingId) (p : Plan) (stop : Nat → Bool) : Nat × UnitRes :=
  runUnits p.unit stop (p.n - (s.me.ring r).head.prog) (s.beginHead s.cur.core s.cur.slot r) (s.me.ring r).head.prog

/-- What the end of a head's units comes to. -/
def State.headEnds (s : State) (r : RingId) (p : Plan) (j : Nat) (e : UnitRes) : State :=
  let c := s.cur.core
  let k := s.cur.slot
  let at' (s : State) : State := s.modHead c k r fun h => { h with prog := j }
  let fault (s : State) (code : Code) (eva : Word) : State := (at' s).headFault c k r code eva
  let stall (s : State) (w : WaitFor) : State :=
    ((at' s).modHead c k r fun h => { h with stalled := true, waitFor := some w }).endTenureOf c k (strmOfRing r)
  let b := s.beginHead c k r
  match e with
  | .ok s' =>
    if j < p.n then at' s'
    else
      (match p.last s' with
      | .ok s => (at' s).modHead c k r fun h => { h with phase := .finished }
      | .fault code eva => fault s' code eva
      | .failed s code eva => fault s code eva
      | .stall s w => stall s w
      | .busy s => at' s)
  | .fault code eva | .failed _ code eva =>
    fault (looseUnits p b.seq j (runState p.unit (j - (s.me.ring r).head.prog) b (s.me.ring r).head.prog)) code eva
  | .stall s w => stall s w
  | .busy s => at' s

/-- A head that works does its units up to a stop point, or to the end where it works whole. -/
theorem headWork_eq {s : State} {r : RingId} (h : s.headWorks r) (whole : Bool) (plan : State → HeadSt → Plan) :
    headWork r whole plan s =
      let p := plan s (s.me.ring r).head
      let x := s.headRun r p fun i => !whole && p.stop i
      s.headEnds r p x.1 x.2 := by
  obtain ⟨hruns, hlen, hstop⟩ := h
  have hgo : ¬ ((!(s.slotAt s.cur.core s.cur.slot).headRuns r || (s.ringAt s.cur.core s.cur.slot r).len == 0 ||
      (s.slotAt s.cur.core s.cur.slot).headHalts r) = true) := by
    have hh : s.me.headHalts r = false := by simp [Slot.headHalts, hstop]
    rw [show (s.slotAt s.cur.core s.cur.slot).headRuns r = true from hruns,
      show (s.slotAt s.cur.core s.cur.slot).headHalts r = false from hh]
    have hl : (s.ringAt s.cur.core s.cur.slot r).len ≠ 0 := hlen
    simpa using hl
  have hw : (whole && !(s.slotAt s.cur.core s.cur.slot).stopping (strmOfRing r)) = whole := by
    rw [show (s.slotAt s.cur.core s.cur.slot).stopping (strmOfRing r) = false from hstop]
    simp
  unfold headWork State.headEnds State.headRun
  simp only [if_neg hgo, hw]
  rfl

/-- A head whose units and last effect complete is finished. -/
theorem headWork_finished {s t u : State} {r : RingId} {whole : Bool} {plan : State → HeadSt → Plan} {p : Plan} {j : Nat}
    (h : s.headWorks r) (hp : plan s (s.me.ring r).head = p)
    (hx : s.headRun r p (fun i => !whole && p.stop i) = (j, .ok t)) (hj : p.n ≤ j) (hl : p.last t = .ok u) :
    headWork r whole plan s = u.headFinished s.cur.core s.cur.slot r j := by
  rw [headWork_eq h, hp]
  simp only [hx, State.headEnds, if_neg (Nat.not_lt.mpr hj), hl]
  rfl

/-- A head that stops between units has its progress. -/
theorem headWork_stops {s t : State} {r : RingId} {whole : Bool} {plan : State → HeadSt → Plan} {p : Plan} {j : Nat}
    (h : s.headWorks r) (hp : plan s (s.me.ring r).head = p)
    (hx : s.headRun r p (fun i => !whole && p.stop i) = (j, .ok t)) (hj : j < p.n) :
    headWork r whole plan s = t.modHead s.cur.core s.cur.slot r fun h => { h with prog := j } := by
  rw [headWork_eq h, hp]
  simp only [hx, State.headEnds, if_pos hj]

/-- A head that awaits work under way elsewhere has its progress. -/
theorem headWork_busy {s t : State} {r : RingId} {whole : Bool} {plan : State → HeadSt → Plan} {p : Plan} {j : Nat}
    (h : s.headWorks r) (hp : plan s (s.me.ring r).head = p)
    (hx : s.headRun r p (fun i => !whole && p.stop i) = (j, .busy t)) :
    headWork r whole plan s = t.modHead s.cur.core s.cur.slot r fun h => { h with prog := j } := by
  rw [headWork_eq h, hp]
  simp only [hx, State.headEnds]

theorem looseUnits_of_not_loose {p : Plan} (h : p.loose = false) (no j : Nat) (s : State) : looseUnits p no j s = s := by
  simp [looseUnits, h]

/-- The first unit that a head does faults, with none of it done. -/
theorem headWork_faults {s : State} {r : RingId} {whole : Bool} {plan : State → HeadSt → Plan} {p : Plan} {code : Code} {eva : Word}
    (h : s.headWorks r) (hp : plan s (s.me.ring r).head = p) (hloose : p.loose = false)
    (hx : s.headRun r p (fun i => !whole && p.stop i) = ((s.me.ring r).head.prog, .fault code eva)) :
    headWork r whole plan s = (((s.beginHead s.cur.core s.cur.slot r).modHead s.cur.core s.cur.slot r fun h =>
      { h with prog := (s.me.ring r).head.prog }).headFault s.cur.core s.cur.slot r code eva) := by
  rw [headWork_eq h, hp]
  simp only [hx, State.headEnds, looseUnits_of_not_loose hloose, Nat.sub_self, runState]

/-- A head at a stop point of which a stop is requested does nothing. -/
theorem headWork_halts {s : State} {r : RingId} (h : s.me.headHalts r = true) (whole : Bool) (plan : State → HeadSt → Plan) :
    headWork r whole plan s = s :=
  if_pos (by rw [show (s.slotAt s.cur.core s.cur.slot).headHalts r = true from h, Bool.or_true])

/-! ### Runs of units -/

theorem runUnits_one {unit : State → Nat → UnitRes} {stop : Nat → Bool} {s t : State} {j : Nat} (h : unit s j = .ok t) :
    runUnits unit stop 1 s j = (j + 1, .ok t) := by
  simp only [runUnits, h]
  split <;> rfl

theorem runUnits_stop {unit : State → Nat → UnitRes} {stop : Nat → Bool} {s t : State} {n j : Nat} (h : unit s j = .ok t)
    (hs : stop (j + 1) = true) : runUnits unit stop (n + 1) s j = (j + 1, .ok t) := by
  simp only [runUnits, h, hs, if_true]

/-- Units that complete from every state all do. -/
theorem runUnits_all {unit : State → Nat → UnitRes} (h : ∀ s j, ∃ t, unit s j = .ok t) (n : Nat) (s : State) (j : Nat) :
    ∃ t, runUnits unit (fun _ => false) n s j = (j + n, .ok t) := by
  induction n generalizing s j with
  | zero => exact ⟨s, rfl⟩
  | succ n ih =>
    obtain ⟨t, ht⟩ := h s j
    obtain ⟨u, hu⟩ := ih t (j + 1)
    refine ⟨u, ?_⟩
    simp only [runUnits, ht, Bool.false_eq_true, if_false, hu]
    rw [Nat.add_right_comm, Nat.add_assoc]

/-! ### Commands that end -/

theorem ends_of_finished {s : State} {r : RingId} {i : Instr} {u : State} {j : Nat}
    (hi : exec i s = .next (u.headFinished s.cur.core s.cur.slot r j)) : s.ends r i :=
  ⟨_, hi, State.headAt_headFinished ..⟩

/-- A command whose units, from where it stands, and last effect complete ends. -/
theorem ends_of_run {s t u : State} {r : RingId} {i : Instr} {plan : State → HeadSt → Plan} {p : Plan} {j : Nat} (h : s.headWorks r)
    (hi : exec i s = .next (headWork r true plan s)) (hp : plan s (s.me.ring r).head = p)
    (hx : s.headRun r p (fun _ => false) = (j, .ok t)) (hj : p.n ≤ j) (hl : p.last t = .ok u) : s.ends r i :=
  ends_of_finished (hi.trans (congrArg _ (headWork_finished h hp hx hj hl)))

/-- A command whose units and last effect complete from every state ends. -/
theorem ends_of_all {s : State} {r : RingId} {i : Instr} {plan : State → HeadSt → Plan} {p : Plan} (h : s.headWorks r)
    (hi : exec i s = .next (headWork r true plan s)) (hp : plan s (s.me.ring r).head = p)
    (hu : ∀ s j, ∃ t, p.unit s j = .ok t) (hl : ∀ s, ∃ u, p.last s = .ok u) : s.ends r i := by
  obtain ⟨t, ht⟩ := runUnits_all hu (p.n - (s.me.ring r).head.prog) (s.beginHead s.cur.core s.cur.slot r) (s.me.ring r).head.prog
  obtain ⟨u, hu⟩ := hl t
  exact ends_of_run h hi hp ht (by omega) hu

/-- A command whose last unit stands next ends when that unit and its last effect complete. -/
theorem ends_of_lastUnit {s t u : State} {r : RingId} {i : Instr} {plan : State → HeadSt → Plan} {p : Plan} (h : s.headWorks r)
    (hi : exec i s = .next (headWork r true plan s)) (hp : plan s (s.me.ring r).head = p) (hn : (s.me.ring r).head.prog + 1 = p.n)
    (hu : p.unit (s.beginHead s.cur.core s.cur.slot r) (s.me.ring r).head.prog = .ok t) (hl : p.last t = .ok u) : s.ends r i := by
  have hx : s.headRun r p (fun _ => false) = ((s.me.ring r).head.prog + 1, .ok t) := by
    rw [State.headRun, ← hn, Nat.add_sub_cancel_left]
    exact runUnits_one hu
  exact ends_of_run h hi hp hx hn.ge hl

end Sys2Proof.Machine
end

section
namespace Sys2Proof.Machine

/-! ### States in which accesses are made alike -/

theorem preads_congr {s t : State} (h : t.mem = s.mem) (l : List (Nat × Nat)) : t.preads l = s.preads l := by
  induction l with
  | nil => rfl
  | cons x l ih => simp only [State.preads, h, ih]

/-- Accesses of t are made as in s: for the same slot and tasks, by the same memory, tables and caches. -/
structure SameAccess (s t : State) : Prop where
  cur : t.cur = s.cur
  seq : t.seq = s.seq
  mem : t.mem = s.mem
  memPoison : t.memPoison = s.memPoison
  atc : t.atc = s.atc
  tlb : t.tlb = s.tlb
  parts : t.parts = s.parts
  funcs : t.funcs = s.funcs
  ctx : ∀ c k, t.ctx c k = s.ctx c k

namespace SameAccess
variable {s t u : State}

theorem refl (s : State) : SameAccess s s := ⟨rfl, rfl, rfl, rfl, rfl, rfl, rfl, rfl, fun _ _ => rfl⟩
theorem symm (h : SameAccess s t) : SameAccess t s :=
  ⟨h.cur.symm, h.seq.symm, h.mem.symm, h.memPoison.symm, h.atc.symm, h.tlb.symm, h.parts.symm, h.funcs.symm,
    fun c k => (h.ctx c k).symm⟩
theorem trans (h : SameAccess s t) (g : SameAccess t u) : SameAccess s u :=
  ⟨g.cur.trans h.cur, g.seq.trans h.seq, g.mem.trans h.mem, g.memPoison.trans h.memPoison, g.atc.trans h.atc, g.tlb.trans h.tlb,
    g.parts.trans h.parts, g.funcs.trans h.funcs, fun c k => (g.ctx c k).trans (h.ctx c k)⟩

theorem part (h : SameAccess s t) (p : Nat) : t.part p = s.part p := by simp only [State.part, h.parts]
theorem fn (h : SameAccess s t) (f : Nat) : t.fn f = s.fn f := by simp only [State.fn, h.funcs]
theorem placeOf (h : SameAccess s t) (f pa : Nat) : t.placeOf f pa = s.placeOf f pa := by
  simp only [State.placeOf, h.atc, h.seq]

theorem walk (h : SameAccess s t) (f p va : Nat) :
    ∀ (l : List (Nat × Nat × Bool × Nat)) (bad : Bool) (base : Nat), t.walk f p va bad l base = s.walk f p va bad l base
  | [], _, _ => rfl
  | _ :: l, _, _ => by simp only [State.walk, h.placeOf, h.memPoison, h.mem, h.part, walk h f p va l]

theorem xlate (h : SameAccess s t) (c : Option Nat) (f p va : Nat) (a : Acc) : t.xlate c f p va a = s.xlate c f p va a := by
  simp only [State.xlate, State.tlbFind, h.tlb, h.walk, h.fn, h.part, h.placeOf]

theorem xlatePieces (h : SameAccess s t) (c : Option Nat) (f p : Nat) (a : Acc) (n va len : Nat) :
    t.xlatePieces c f p a n va len = s.xlatePieces c f p a n va len := by
  induction n generalizing va len with
  | zero => rfl
  | succ n ih => simp only [State.xlatePieces, h.xlate, ih]

theorem xPieces (h : SameAccess s t) (a : Acc) (va len eva : Nat) : t.xPieces a va len eva = s.xPieces a va len eva := by
  simp only [State.xPieces, State.pieces, h.cur, h.ctx, h.xlatePieces, h.part]

theorem ppoison (h : SameAccess s t) (l : List (Nat × Nat)) : t.ppoison l = s.ppoison l := by
  simp only [State.ppoison, h.memPoison]
theorem preads (h : SameAccess s t) (l : List (Nat × Nat)) : t.preads l = s.preads l := preads_congr h.mem l

theorem modSlot (h : SameAccess s t) {c k : Nat} {f : Slot → Slot}
    (hf : ∀ sl, (f sl).t.fn = sl.t.fn ∧ (f sl).t.part = sl.t.part) : SameAccess s (t.modSlot c k f) := by
  refine ⟨h.cur, h.seq, h.mem, h.memPoison, h.atc, h.tlb, h.parts, h.funcs, fun c' k' => ?_⟩
  rw [← h.ctx, State.ctx, State.slotAt_modSlot]
  split
  · next he => rw [(hf _).1, (hf _).2, he.1, he.2]; rfl
  · rfl

theorem modHead (h : SameAccess s t) {c k : Nat} {r : RingId} {f : HeadSt → HeadSt} : SameAccess s (t.modHead c k r f) :=
  h.modSlot fun sl => by cases r <;> exact ⟨rfl, rfl⟩

theorem trace (h : SameAccess s t) {c k kind : Nat} {st : Strm} {code data : Nat} :
    SameAccess s (t.trace c k kind st code data) := by
  unfold State.trace
  split
  · exact h
  · dsimp only
    split
    · exact h
    · exact ⟨h.cur, h.seq, h.mem, h.memPoison, h.atc, h.tlb, h.parts, h.funcs, h.ctx⟩

theorem count (h : SameAccess s t) {c ev : Nat} {slot : Option Nat} {n : Nat} : SameAccess s (t.count c ev slot n) := by
  refine ⟨h.cur, h.seq, h.mem, h.memPoison, h.atc, h.tlb, h.parts, h.funcs, fun c' k' => ?_⟩
  rw [← h.ctx, State.ctx, State.slotAt_count]
  rfl

theorem missAt (h : SameAccess s t) {c k va : Nat} : SameAccess s (t.missAt c k va) := by
  unfold State.missAt
  dsimp only
  split
  · exact h
  · split
    · exact h.count
    · exact h.count.count.count

theorem atcFill (h : SameAccess s t) (pa n : Nat) :
    SameAccess { s with atc := Machine.atcFill s.atc pa n } { t with atc := Machine.atcFill t.atc pa n } :=
  ⟨h.cur, h.seq, h.mem, h.memPoison, by rw [h.atc], h.tlb, h.parts, h.funcs, h.ctx⟩

/-- The translations that an access leaves cached are the same. -/
theorem missPages (h : SameAccess s t) (c k : Nat) (a : Acc) (n va len : Nat) :
    SameAccess (s.missPages c k a n va len) (t.missPages c k a n va len) := by
  induction n generalizing s t va len with
  | zero => exact h
  | succ n ih =>
    have hf : (t.slotAt c k).t.fn = (s.slotAt c k).t.fn := congrArg Prod.fst (h.ctx c k)
    have hp : (t.slotAt c k).t.part = (s.slotAt c k).t.part := congrArg Prod.snd (h.ctx c k)
    have hm : SameAccess (s.missAt c k va) (t.missAt c k va) := ((refl s).missAt.symm.trans h).missAt
    simp only [State.missPages, h.xlate, hf, hp]
    split
    · exact h
    · split
      · exact hm
      · exact ih (hm.atcFill _ 1) _ _

theorem misses (h : SameAccess s t) (c k : Nat) (a : Acc) (va len : Nat) :
    SameAccess (s.misses c k a va len) (t.misses c k a va len) := h.missPages ..

theorem beginHead (h : SameAccess s t) {c k : Nat} {r : RingId} : SameAccess s (t.beginHead c k r) := by
  unfold State.beginHead
  refine modSlot (modHead ?_) fun sl => ?_
  · split
    · exact h
    · exact h.trace
  · cases ht : sl.task <;> simp [Slot.t, Slot.modTask, ht]

end SameAccess

/-! ### What a core holds beside its slots and counters -/

/-- A core but for its slots and counters. -/
def Core.stores (co : Core) : Core := { co with slots := [], banks := [] }
/-- The cores of t are those of s but for their slots and counters. -/
def SameStores (s t : State) : Prop := ∀ c, (t.core c).stores = (s.core c).stores

/-- A map over the entries that keeps a projection of each keeps that of what is read. -/
theorem Sparse.get_map_keeps {α γ : Type} {d : α} {g : Nat → α → α} (f : α → γ) (hf : ∀ k v, f (g k v) = f v) (m : Sparse α)
    (n : Nat) : f (Sparse.get d (m.map fun (k, v) => (k, g k v)) n) = f (Sparse.get d m n) := by
  induction m with
  | nil => rfl
  | cons e t ih =>
    obtain ⟨k, v⟩ := e
    simp only [List.map_cons, Sparse.get]
    split
    · exact hf k v
    · exact ih

namespace SameStores
variable {s t u : State}

theorem refl (s : State) : SameStores s s := fun _ => rfl
theorem trans (h : SameStores s t) (g : SameStores t u) : SameStores s u := fun c => (g c).trans (h c)
theorem of_eq {γ : Type} (h : SameStores s t) (g : Core → γ) (hg : ∀ co, g co.stores = g co) (c : Nat) : g (t.core c) = g (s.core c) := by
  rw [← hg, h, hg]

theorem spRead (h : SameStores s t) (c a n : Nat) : t.spRead c a n = s.spRead c a n := h.of_eq (·.scratch.read a n) (fun _ => rfl) c
theorem spPoisoned (h : SameStores s t) (c a n : Nat) : t.spPoisoned c a n = s.spPoisoned c a n :=
  h.of_eq (·.spoisoned a n) (fun _ => rfl) c
theorem tileAt (h : SameStores s t) (c a : Nat) : t.tileAt c a = s.tileAt c a := h.of_eq (·.tile a) (fun _ => rfl) c
theorem cask (h : SameStores s t) (c k : Nat) : (t.core c).cask k = (s.core c).cask k := h.of_eq (·.cask k) (fun _ => rfl) c
theorem caskIdle (h : SameStores s t) (c k : Nat) : (t.core c).caskIdle k = (s.core c).caskIdle k :=
  h.of_eq (·.caskIdle k) (fun _ => rfl) c

theorem modCore (h : SameStores s t) {c : Nat} {f : Core → Core} (hf : ∀ co, (f co).stores = co.stores) : SameStores s (t.modCore c f) := by
  intro c'
  rw [State.core_modCore]
  split
  · next hc => rw [hf, h, hc]
  · exact h c'
theorem modSlot (h : SameStores s t) {c k : Nat} {f : Slot → Slot} : SameStores s (t.modSlot c k f) :=
  h.modCore (f := fun co => co.putSlot k (f (t.slotAt c k))) fun _ => rfl
theorem count (h : SameStores s t) {c ev : Nat} {slot : Option Nat} {n : Nat} : SameStores s (t.count c ev slot n) := by
  unfold State.count
  refine h.modCore ?_
  intro co
  rfl
theorem wake (s : State) (pa n : Nat) : SameStores s (s.wake pa n) := fun c =>
  Sparse.get_map_keeps (d := Core.reset)
    (g := fun _ co => { co with slots := co.slots.map fun (k, sl) => (k, sl.woken pa n) }) Core.stores (fun _ _ => rfl) s.cores c
theorem pwrite (h : SameStores s t) (w : Option Agent) (pa : Nat) (l : List Byte) : SameStores s (t.pwrite w pa l) :=
  h.trans (SameStores.wake t pa l.length)
theorem of_cores (h : t.cores = s.cores) : SameStores s t := fun c => by simp only [State.core, h]
theorem beginHead (h : SameStores s t) {c k : Nat} {r : RingId} : SameStores s (t.beginHead c k r) := by
  unfold State.beginHead
  refine modSlot (modSlot ?_)
  split
  · exact h
  · exact h.trans (of_cores (State.cores_trace ..))

end SameStores

/-! ### What a unit's misses leave -/

/-- The misses of an access change the counters and what the address translation cache keeps, and nothing else. -/
theorem misses_keeps {γ : Type} (g : State → γ) (hc : ∀ (s : State) c ev slot n, g (s.count c ev slot n) = g s)
    (ha : ∀ (s : State) a, g { s with atc := a } = g s) (s : State) (c k : Nat) (a : Acc) (va len : Nat) :
    g (s.misses c k a va len) = g s := by
  unfold State.misses
  generalize len / 0x10000 + 2 = n
  induction n generalizing s va len with
  | zero => rfl
  | succ n ih =>
    have hm : g (s.missAt c k va) = g s := by
      unfold State.missAt
      dsimp only
      split
      · rfl
      · split
        · exact hc ..
        · rw [hc, hc, hc]
    unfold State.missPages
    split
    · rfl
    · dsimp only
      split
      · exact hm
      · rw [ih, ha, hm]

theorem misses_me (s : State) (c k : Nat) (a : Acc) (va len : Nat) : (s.misses c k a va len).me = s.me :=
  misses_keeps (·.me) (fun _ _ _ _ _ => State.slotAt_count ..) (fun _ _ => rfl) s c k a va len
theorem misses_mem (s : State) (c k : Nat) (a : Acc) (va len : Nat) : (s.misses c k a va len).mem = s.mem :=
  misses_keeps (·.mem) (fun _ _ _ _ _ => rfl) (fun _ _ => rfl) s c k a va len
theorem misses_memPoison (s : State) (c k : Nat) (a : Acc) (va len : Nat) : (s.misses c k a va len).memPoison = s.memPoison :=
  misses_keeps (·.memPoison) (fun _ _ _ _ _ => rfl) (fun _ _ => rfl) s c k a va len

/-! ### The head that begins -/

/-- The head of a ring begins, or goes on; its slot's task may have written. -/
def Slot.beginHead (sl : Slot) (r : RingId) : Slot :=
  (sl.modRing r fun q => { q with head := { q.head with phase := .active, begun := true } }).modTask fun t =>
    { t with wrote := t.wrote || r != .s }

theorem State.slotAt_beginHead (s : State) (c k : Nat) (r : RingId) :
    (s.beginHead c k r).slotAt c k = (s.slotAt c k).beginHead r := by
  unfold State.beginHead
  simp only [State.slotAt_modSlot, State.slotAt_modHead, and_self, if_true]
  split
  · rfl
  · rw [slotAt_trace]
    rfl

theorem State.beginHead_cur (s : State) (c k : Nat) (r : RingId) : (s.beginHead c k r).cur = s.cur :=
  (SameAccess.refl s).beginHead.cur

/-- The current slot when its head has begun. -/
theorem State.me_beginHead (s : State) (r : RingId) : (s.beginHead s.cur.core s.cur.slot r).me = s.me.beginHead r := by
  rw [State.me, State.beginHead_cur, State.slotAt_beginHead]
  rfl

theorem Slot.beginHead_mq (sl : Slot) (r : RingId) : (sl.beginHead r).mq = sl.mq := by cases r <;> rfl
theorem Slot.beginHead_oq (sl : Slot) (r : RingId) : (sl.beginHead r).oq = sl.oq := by cases r <;> rfl
theorem Slot.ring_beginHead (sl : Slot) (r : RingId) :
    (sl.beginHead r).ring r = { sl.ring r with head := { (sl.ring r).head with phase := .active, begun := true } } := by
  cases r <;> rfl

end Sys2Proof.Machine
end

section
namespace Sys2Proof.Machine

/-! ### The X head's unit that stands next (R240) -/

/-- The descriptor of the current slot's X head, as a number, and the units of one of its elements. -/
def State.xDesc (s : State) : Nat := s.me.xring.head.desc.toNat
def State.xUnits (s : State) : Nat := elemUnits (dElem s.xDesc)
/-- The unit that stands next, and the element in which it lies. -/
def State.xNext (s : State) : Nat := s.me.xring.head.prog
def State.xElem (s : State) : Nat := s.xNext / s.xUnits
/-- The run at address `va` of the next unit's element that the unit moves. -/
def State.xRun' (s : State) (va : Nat) : Nat := va + s.xNext % s.xUnits * min (dElem s.xDesc) 2048
/-- The next unit, of an element at a, can read or write it. -/
def State.xReads (s : State) (a : Nat) : Prop := ∃ ps, s.xPieces .rd (s.xRun' a) (min (dElem s.xDesc) 2048) a = .ok ps
def State.xWrites (s : State) (shd : Bool) (a : Nat) : Prop :=
  ∃ ps, s.xPieces .wr (s.xRun' (shadowVa s.xDesc shd a)) (min (dElem s.xDesc) 2048) a = .ok ps
/-- The X head has begun. -/
def State.xBegun (s : State) : State := s.beginHead s.cur.core s.cur.slot .x

theorem sameAccess_xBegun (s : State) : SameAccess s s.xBegun := (SameAccess.refl s).beginHead
theorem sameStores_xBegun (s : State) : SameStores s s.xBegun := (SameStores.refl s).beginHead

theorem mqOf_xBegun (s : State) (q : Nat) : s.xBegun.me.mqOf q = s.me.mqOf q := by
  rw [State.xBegun, State.me_beginHead, Slot.mqOf, Slot.beginHead_mq]
  rfl

theorem unit_completes {α : Type} {x : Chk α} {a : α} {f : α → UnitRes} (h : x = .ok a) (hf : ∃ u, f a = .ok u) :
    ∃ u, x.unit f = .ok u := by
  rwa [h, Chk.unit]

/-- An access that translates goes on where its unit does. -/
theorem xMem_completes {s : State} {a : Acc} {va len eva : Nat} {ps : List (Nat × Nat)} {f : State → List (Nat × Nat) → UnitRes}
    (h : s.xPieces a va len eva = .ok ps) (hf : ∃ u, f (s.misses s.cur.core s.cur.slot a va len) ps = .ok u) :
    ∃ u, s.xMem a va len eva f = .ok u := by
  simpa only [State.xMem, h] using hf

theorem xRead_ok {s t : State} (h : SameAccess s t) {hd : HeadSt} {a : Nat} (hr : s.xReads a) :
    ∃ u, xRead t hd (dElem s.xDesc) a s.xNext = .ok u := by
  obtain ⟨ps, hps⟩ := hr
  unfold xRead
  refine xMem_completes ((h.xPieces ..).trans hps) ?_
  exact ⟨_, rfl⟩

theorem xWrite_completes {s : State} {hd : HeadSt} {d e a i : Nat} {shd : Bool} {ps : List (Nat × Nat)}
    (h : s.xPieces .wr (shadowVa d shd a + i % elemUnits e * min e 2048) (min e 2048) a = .ok ps) :
    ∃ u, xWrite s hd d shd e a i = .ok u := by
  unfold xWrite
  refine xMem_completes h ?_
  exact ⟨_, rfl⟩

theorem xWrite_ok {s t : State} (h : SameAccess s t) {hd : HeadSt} {a : Nat} {shd : Bool} (hw : s.xWrites shd a) :
    ∃ u, xWrite t hd s.xDesc shd (dElem s.xDesc) a s.xNext = .ok u := by
  obtain ⟨ps, hps⟩ := hw
  exact xWrite_completes ((h.xPieces ..).trans hps)

theorem idxAddr_eq {s t : State} (h : SameStores s t) (hd : HeadSt) (d j : Nat) : idxAddr t hd d j = idxAddr s hd d j := by
  simp only [idxAddr, h.spRead, h.spPoisoned]

theorem metaPush_ok {s : State} {q x : Nat} (hq : (s.me.mqOf q).length < 64) (hx : popCount16 x ≤ 8) :
    ∃ t, metaPush s q x = .ok t := by
  simp only [metaPush, if_neg (Nat.not_le.mpr hq), if_neg (Nat.not_lt.mpr hx)]
  exact ⟨_, rfl⟩

/-! ### Commands of the copy engine that end -/

section
variable {s : State} {c : XCmd} (h : s.headWorks .x)
include h

theorem xEnds_all {i : Instr} {q : XKind} (hi : exec i s = xRun q c s)
    (hu : ∀ t j, ∃ u, (xPlan q c s s.me.xring.head).unit t j = .ok u) (hl : ∀ t, ∃ u, (xPlan q c s s.me.xring.head).last t = .ok u) :
    s.ends .x i :=
  ends_of_all h hi rfl hu hl

theorem xEnds_last {i : Instr} {q : XKind} (hi : exec i s = xRun q c s) (hn : s.xNext + 1 = (xPlan q c s s.me.xring.head).n)
    (hu : ∃ t, (xPlan q c s s.me.xring.head).unit s.xBegun s.xNext = .ok t)
    (hl : ∀ t, ∃ u, (xPlan q c s s.me.xring.head).last t = .ok u) : s.ends .x i := by
  obtain ⟨t, ht⟩ := hu
  obtain ⟨u, hu⟩ := hl t
  exact ends_of_lastUnit h hi rfl hn ht hu

theorem xTileCommands_end : s.ends .x (.xcpyT c) ∧ s.ends .x (.xcpyR c) ∧ s.ends .x (.xfil c) ∧ s.ends .x (.xsend c) ∧
    s.ends .x (.xpub c) ∧ s.ends .x (.xpubM c) :=
  ⟨xEnds_all h (exec_xcpyT c s) (fun _ _ => ⟨_, rfl⟩) fun _ => ⟨_, rfl⟩,
    xEnds_all h (exec_xcpyR c s) (fun _ _ => ⟨_, rfl⟩) fun _ => ⟨_, rfl⟩,
    xEnds_all h (exec_xfil c s) (fun _ _ => ⟨_, rfl⟩) fun _ => ⟨_, rfl⟩,
    xEnds_all h (exec_xsend c s) (fun _ _ => ⟨_, rfl⟩) fun _ => ⟨_, rfl⟩,
    xEnds_all h (exec_xpub c s) (fun _ _ => ⟨_, rfl⟩) fun _ => ⟨_, rfl⟩,
    xEnds_all h (exec_xpubM c s) (fun _ _ => ⟨_, rfl⟩) fun _ => ⟨_, rfl⟩⟩

theorem xcpyL_ends {a : Nat} (hn : s.xNext + 1 = dCount s.xDesc * s.xUnits) (ha : dAddr s.xDesc s.xElem = .ok a) (hr : s.xReads a) :
    s.ends .x (.xcpyL c) :=
  xEnds_last h (exec_xcpyL c s) hn (unit_completes ha (xRead_ok (sameAccess_xBegun s) hr)) fun _ => ⟨_, rfl⟩

theorem xcpyS_ends {a : Nat} (hn : s.xNext + 1 = dCount s.xDesc * s.xUnits) (ha : dAddr s.xDesc s.xElem = .ok a)
    (hw : s.xWrites c.h.shd a) : s.ends .x (.xcpyS c) :=
  xEnds_last h (exec_xcpyS c s) hn (unit_completes ha (xWrite_ok (sameAccess_xBegun s) hw)) fun _ => ⟨_, rfl⟩

theorem xfilM_ends {a : Nat} (hn : s.xNext + 1 = dCount s.xDesc * s.xUnits) (ha : dAddr s.xDesc s.xElem = .ok a)
    (hw : s.xWrites c.h.shd a) : s.ends .x (.xfilM c) := by
  obtain ⟨ps, hps⟩ := hw
  refine xEnds_last h (exec_xfilM c s) hn (unit_completes ha ?_) fun _ => ⟨_, rfl⟩
  exact xMem_completes (((sameAccess_xBegun s).xPieces ..).trans hps) ⟨_, rfl⟩

theorem xgth_ends {a : Nat} (hn : s.xNext + 1 = dBound s.xDesc 0 * s.xUnits)
    (ha : idxAddr s s.me.xring.head s.xDesc s.xElem = .ok a) (hr : s.xReads a) : s.ends .x (.xgth c) :=
  xEnds_last h (exec_xgth c s) hn (unit_completes ((idxAddr_eq (sameStores_xBegun s) ..).trans ha)
    (xRead_ok (sameAccess_xBegun s) hr)) fun _ => ⟨_, rfl⟩

theorem xsct_ends {a : Nat} (hn : s.xNext + 1 = dBound s.xDesc 0 * s.xUnits)
    (ha : idxAddr s s.me.xring.head s.xDesc s.xElem = .ok a) (hw : s.xWrites false a) : s.ends .x (.xsct c) :=
  xEnds_last h (exec_xsct c s) hn (unit_completes ((idxAddr_eq (sameStores_xBegun s) ..).trans ha)
    (xWrite_ok (sameAccess_xBegun s) hw)) fun _ => ⟨_, rfl⟩

theorem xmeta_ends {a : Nat} {ps : List (Nat × Nat)} (hn : s.xNext + 1 = dCount s.xDesc) (ha : dAddr s.xDesc s.xNext = .ok a)
    (hq : (s.me.mqOf (c.opnd.toNat % 4)).length < 64) (hps : s.xPieces .rd a 2 a = .ok ps) (hp : s.ppoison ps = false)
    (hx : popCount16 (leNat (s.preads ps)) ≤ 8) : s.ends .x (.xmeta c) := by
  have hb := sameAccess_xBegun s
  have hmem : (s.xBegun.misses s.xBegun.cur.core s.xBegun.cur.slot .rd a 2).mem = s.mem := (misses_mem ..).trans hb.mem
  have hpoison : (s.xBegun.misses s.xBegun.cur.core s.xBegun.cur.slot .rd a 2).ppoison ps = s.ppoison ps := by
    simp only [State.ppoison, misses_memPoison, hb.memPoison]
  refine xEnds_last h (exec_xmeta c s) hn (unit_completes ha ?_) fun _ => ⟨_, rfl⟩
  rw [if_neg (by rw [mqOf_xBegun]; exact Nat.not_le.mpr hq)]
  refine xMem_completes ((hb.xPieces ..).trans hps) ?_
  rw [hpoison, hp, if_neg Bool.false_ne_true]
  exact metaPush_ok (by rwa [misses_me, mqOf_xBegun]) (by rwa [preads_congr hmem])

theorem xmetaT_ends (hn : s.xNext + 1 = xMetaCount c) (hq : (s.me.mqOf (c.opnd.toNat % 4)).length < 64)
    (hp : s.spPoisoned (opAt s.me.xring.head 0).1 ((opAt s.me.xring.head 0).2 + 2 * s.xNext) 2 = false)
    (hx : popCount16 (leNat (s.spRead (opAt s.me.xring.head 0).1 ((opAt s.me.xring.head 0).2 + 2 * s.xNext) 2)) ≤ 8) :
    s.ends .x (.xmetaT c) := by
  have hb := sameStores_xBegun s
  refine xEnds_last h (exec_xmetaT c s) hn ?_ fun _ => ⟨_, rfl⟩
  simp only [xPlan]
  rw [if_neg (by rw [mqOf_xBegun]; exact Nat.not_le.mpr hq), hb.spPoisoned, hp, if_neg Bool.false_ne_true, hb.spRead]
  exact metaPush_ok (by rwa [mqOf_xBegun]) hx

end

end Sys2Proof.Machine
end

section
namespace Sys2Proof.Machine

/-! ### XRACK and XFETCH (R247) -/

/-- The tile that `XRACK` and `XFETCH` name, and its cask. -/
def State.ownTile (s : State) (c : XCmd) : Tile := s.tileAt s.cur.core (xOwn s.cur.slot c)
def State.ownCask (s : State) (c : XCmd) : Nat := caskOf (xOwn s.cur.slot c) (s.ownTile c)
def State.ownCaskSt (s : State) (c : XCmd) : Cask := (s.core s.cur.core).cask (s.ownCask c)

theorem ownTile_xBegun (s : State) (c : XCmd) : s.xBegun.ownTile c = s.ownTile c := by
  rw [State.ownTile, (sameAccess_xBegun s).cur, (sameStores_xBegun s).tileAt]
  rfl
theorem ownCask_xBegun (s : State) (c : XCmd) : s.xBegun.ownCask c = s.ownCask c := by
  rw [State.ownCask, ownTile_xBegun, (sameAccess_xBegun s).cur]
  rfl
theorem ownCaskSt_xBegun (s : State) (c : XCmd) : s.xBegun.ownCaskSt c = s.ownCaskSt c := by
  rw [State.ownCaskSt, ownCask_xBegun, (sameAccess_xBegun s).cur, (sameStores_xBegun s).cask]
  rfl

/-- A home tile, and one of a racked cask, need no racking. -/
theorem rackUnit_rests {s : State} {c : XCmd}
    (h : (s.ownTile c).home = true ∨ ((s.ownCaskSt c).racked = true ∧ (s.ownCaskSt c).copy = .none)) (j : Nat) :
    rackUnit (xOwn s.cur.slot c) s j = .ok s := by
  simp only [State.ownCaskSt, State.ownCask, State.ownTile] at h
  simp only [rackUnit]
  rcases h with h | ⟨hr, hc⟩
  · simp [h]
  · simp [hr, hc]

theorem fetchUnit_rests {s : State} {c : XCmd} (h : (s.ownTile c).home = true ∨ (s.ownCaskSt c).racked = false) (j : Nat) :
    fetchUnit (xOwn s.cur.slot c) s j = .ok s := by
  simp only [State.ownCaskSt, State.ownCask, State.ownTile] at h
  simp only [fetchUnit]
  exact if_pos (by simpa using h)

theorem rackUnit_starts {s : State} {c : XCmd} (hh : (s.ownTile c).home = false) (hc : (s.ownCaskSt c).copy = .none)
    (hr : (s.ownCaskSt c).racked = false) (hp : (s.ownCaskSt c).pin = false)
    (hi : (s.core s.cur.core).caskIdle (s.ownCask c) = true) :
    rackUnit (xOwn s.cur.slot c) s 0 = .ok (s.startRack s.cur.core (s.ownCask c)) := by
  simp only [State.ownCaskSt, State.ownCask, State.ownTile] at *
  simp [rackUnit, hh, hc, hr, hp, hi]

theorem rackUnit_awaits {s : State} {c : XCmd} (hh : (s.ownTile c).home = false) (hc : (s.ownCaskSt c).copy = .racking) :
    rackUnit (xOwn s.cur.slot c) s 1 = .busy s := by
  simp only [State.ownCaskSt, State.ownCask, State.ownTile] at *
  simp [rackUnit, hh, hc]

theorem State.tileAt_putTile (s : State) (c a a' : Nat) (t : Tile) :
    (s.putTile c a t).tileAt c a' = if a' = a then t else s.tileAt c a' := by
  simp [State.tileAt, State.putTile]

theorem sameStores_spToPhys (s : State) (c a pa n : Nat) : SameStores s (s.spToPhys c a pa n) :=
  (SameStores.refl s).pwrite none pa _

/-- A tile of a cask outside the home region. -/
def OfCask (cask : Nat) (t : Tile) : Prop := t.home = false ∧ t.cask = cask

/-- Racking a cask leaves its tiles tiles of it. -/
theorem ofCask_startRack {s : State} {c a : Nat} (hh : (s.tileAt c a).home = false) :
    OfCask (s.tileAt c a).cask ((s.startRack c (caskOf a (s.tileAt c a))).tileAt c a) := by
  have hmod (t : State) (k : Nat) (f : Cask → Cask) : (t.modCask c k f).tileAt c a = t.tileAt c a := by
    simp [State.modCask, State.tileAt, Core.tile, Core.putCask]
  rw [State.startRack, hmod]
  refine List.foldlRecOn _ _ (motive := fun u : State => OfCask (s.tileAt c a).cask (u.tileAt c a)) ⟨hh, rfl⟩ ?_
  rintro u hu ⟨b, t⟩ hb
  obtain ⟨hk, _, ht, hc⟩ : b / 64 = caskOf a (s.tileAt c a) / 16 ∧ t.valid = true ∧ t.home = false ∧
      t.cask = caskOf a (s.tileAt c a) % 16 := by
    simpa [and_assoc] using (List.mem_filter.mp hb).2
  have hput {v : State} {t' : Tile} (hv : v.tileAt c a = u.tileAt c a) (ht' : t'.home = t.home ∧ t'.cask = t.cask) :
      OfCask (s.tileAt c a).cask ((v.putTile c b t').tileAt c a) := by
    rw [State.tileAt_putTile]
    split
    · next hab =>
      refine ⟨ht'.1.trans ht, ht'.2.trans (hc.trans ?_)⟩
      subst hab
      unfold caskOf at hk ⊢
      omega
    · rwa [hv]
  dsimp only
  split
  · exact hput ((sameStores_spToPhys _ _ _ _ _).tileAt c a) ⟨rfl, rfl⟩
  · exact hput rfl ⟨rfl, rfl⟩

theorem copy_startRack (s : State) (c k : Nat) : (((s.startRack c k).core c).cask k).copy = .racking := by
  simp [State.startRack, State.modCask, Core.cask, Core.putCask]

theorem startRack_cur (s : State) (c k : Nat) : (s.startRack c k).cur = s.cur := by
  rw [State.startRack]
  refine (foldl_keeps (fun t : State => t.cur) ?_ _ _)
  rintro t ⟨a, x⟩
  dsimp only
  split <;> rfl

/-- While its cask is being racked, the tile is no home tile and its cask awaits the end of the copy. -/
theorem ownTile_startRack {s : State} {c : XCmd} (hh : (s.ownTile c).home = false) :
    ((s.xBegun.startRack s.cur.core (s.ownCask c)).ownTile c).home = false ∧
      ((s.xBegun.startRack s.cur.core (s.ownCask c)).ownCaskSt c).copy = .racking := by
  have hcur : (s.xBegun.startRack s.cur.core (s.ownCask c)).cur = s.cur := (startRack_cur ..).trans (sameAccess_xBegun s).cur
  have htile : s.xBegun.tileAt s.cur.core (xOwn s.cur.slot c) = s.ownTile c := (sameStores_xBegun s).tileAt ..
  obtain ⟨hhome, hcask⟩ := ofCask_startRack (s := s.xBegun) (c := s.cur.core) (a := xOwn s.cur.slot c) (by rwa [htile])
  rw [htile] at hhome hcask
  refine ⟨by rw [State.ownTile, hcur]; exact hhome, ?_⟩
  have hk : (s.xBegun.startRack s.cur.core (s.ownCask c)).ownCask c = s.ownCask c := by
    rw [State.ownCask, State.ownTile, hcur]
    exact congrArg (16 * (xOwn s.cur.slot c / 64) + ·) hcask
  rw [State.ownCaskSt, hk, hcur, copy_startRack]

/-- Units that leave their state as it is all complete. -/
theorem runUnits_rests {unit : State → Nat → UnitRes} {s : State} (h : ∀ j, unit s j = .ok s) (n j : Nat) :
    runUnits unit (fun _ => false) n s j = (j + n, .ok s) := by
  induction n generalizing j with
  | zero => rfl
  | succ n ih =>
    simp only [runUnits, h, Bool.false_eq_true, if_false, ih]
    rw [Nat.add_right_comm, Nat.add_assoc]

section
variable {s : State} {c : XCmd} (h : s.headWorks .x)
include h

theorem xrack_ends (hj : s.xNext = 0)
    (hr : (s.ownTile c).home = true ∨ ((s.ownCaskSt c).racked = true ∧ (s.ownCaskSt c).copy = .none)) : s.ends .x (.xrack c) := by
  rw [← ownTile_xBegun, ← ownCaskSt_xBegun] at hr
  have hx : s.headRun .x (xPlan .rack c s s.me.xring.head) (fun _ => false) = (s.xNext + (2 - s.xNext), .ok s.xBegun) :=
    runUnits_rests (unit := fun t j => rackUnit (xOwn t.cur.slot c) t j) (rackUnit_rests hr) _ _
  exact ends_of_run h (exec_xrack c s) rfl hx (by rw [hj]; exact Nat.le_refl 2) rfl

theorem xfetch_ends (hj : s.xNext = 0) (hr : (s.ownTile c).home = true ∨ (s.ownCaskSt c).racked = false) : s.ends .x (.xfetch c) := by
  rw [← ownTile_xBegun, ← ownCaskSt_xBegun] at hr
  have hx : s.headRun .x (xPlan .fetch c s s.me.xring.head) (fun _ => false) = (s.xNext + (2 - s.xNext), .ok s.xBegun) :=
    runUnits_rests (unit := fun t j => fetchUnit (xOwn t.cur.slot c) t j) (fetchUnit_rests hr) _ _
  exact ends_of_run h (exec_xfetch c s) rfl hx (by rw [hj]; exact Nat.le_refl 2) rfl

theorem xrack_starts (hj : s.xNext = 0) (hh : (s.ownTile c).home = false) (hc : (s.ownCaskSt c).copy = .none)
    (hr : (s.ownCaskSt c).racked = false) (hp : (s.ownCaskSt c).pin = false)
    (hi : (s.core s.cur.core).caskIdle (s.ownCask c) = true) :
    exec (.xrack c) s = .next ((s.xBegun.startRack s.cur.core (s.ownCask c)).modHead s.cur.core s.cur.slot .x fun h =>
      { h with prog := 1 }) := by
  have hb := sameAccess_xBegun s
  have h0 : rackUnit (xOwn s.xBegun.cur.slot c) s.xBegun 0 = .ok (s.xBegun.startRack s.cur.core (s.ownCask c)) := by
    rw [← ownCask_xBegun, ← hb.cur]
    refine rackUnit_starts ?_ ?_ ?_ ?_ ?_
    · rwa [ownTile_xBegun]
    · rwa [ownCaskSt_xBegun]
    · rwa [ownCaskSt_xBegun]
    · rwa [ownCaskSt_xBegun]
    · rwa [ownCask_xBegun, (sameStores_xBegun s).caskIdle, hb.cur]
  have h1 := rackUnit_awaits (ownTile_startRack hh).1 (ownTile_startRack hh).2
  have hx : s.headRun .x (xPlan .rack c s s.me.xring.head) (fun _ => false) =
      (1, .busy (s.xBegun.startRack s.cur.core (s.ownCask c))) := by
    have hprog : (s.me.ring .x).head.prog = 0 := hj
    rw [State.headRun, hprog]
    simp only [xPlan, runUnits]
    rw [show s.beginHead s.cur.core s.cur.slot .x = s.xBegun from rfl, h0]
    simp only [h1]
    rfl
  exact (exec_xrack c s).trans (congrArg _ (headWork_busy h rfl hx))

end

/-! ### XHOST (R249) -/

/-- The consumer's count that `XHOST` keeps for its next record. -/
def State.hostKeep (s : State) (cnt : Nat) : State :=
  s.modHead s.cur.core s.cur.slot .x fun h => { h with hostC := some cnt }
/-- The producer's count at unit i. -/
def hostHp (d i : Nat) : Nat := (dHptr d + i / elemUnits (dElem d)) % 2 ^ 64
/-- The ring of the host has room for the record, and the record's address is a. -/
def HostRoom (d i cnt a : Nat) : Prop :=
  (hostHp d i + 2 ^ 64 - cnt) % 2 ^ 64 < dBound d 0 ∧
    elemAddr (dElem d) ((dBase d : Int) + (hostHp d i % dBound d 0 * dElem d : Nat)) = .ok a

/-- A record for which a count is kept goes where the count leaves room. -/
theorem hostUnit_kept {s : State} {d i cnt a : Nat} (hc : (s.headAt s.cur.core s.cur.slot .x).hostC = some cnt)
    (hr : HostRoom d i cnt a) :
    hostUnit d s i = xWrite (s.hostKeep cnt) (s.headAt s.cur.core s.cur.slot .x) d false (dElem d) a i := by
  obtain ⟨hroom, ha⟩ := hr
  have hfull : ¬ dBound d 0 ≤ (hostHp d i + 2 ^ 64 - cnt) % 2 ^ 64 := Nat.not_le.mpr hroom
  rw [hostHp] at hfull ha
  simp only [hostUnit, hc, decide_eq_false hfull, Bool.false_eq_true, if_false]
  rw [ha]
  rfl

/-- A record without a kept count goes where the count that is read leaves room. -/
theorem hostUnit_reads {s : State} {d i cnt a : Nat} {ps : List (Nat × Nat)}
    (hc : (s.headAt s.cur.core s.cur.slot .x).hostC = none) (hal : dSva d % 8 = 0)
    (hps : s.xPieces .rd (dSva d) 8 (dSva d) = .ok ps) (hp : s.ppoison ps = false) (hcnt : leNat (s.preads ps) = cnt)
    (hr : HostRoom d i cnt a) :
    hostUnit d s i = xWrite ((s.misses s.cur.core s.cur.slot .rd (dSva d) 8).hostKeep cnt) (s.headAt s.cur.core s.cur.slot .x) d
      false (dElem d) a i := by
  obtain ⟨hroom, ha⟩ := hr
  have hfull : ¬ dBound d 0 ≤ (hostHp d i + 2 ^ 64 - cnt) % 2 ^ 64 := Nat.not_le.mpr hroom
  rw [hostHp] at hfull ha
  have hpm : (s.misses s.cur.core s.cur.slot .rd (dSva d) 8).ppoison ps = false := by
    rw [← hp]
    simp only [State.ppoison, misses_memPoison]
  have hrm : leNat ((s.misses s.cur.core s.cur.slot .rd (dSva d) 8).preads ps) = cnt := by
    rw [preads_congr (misses_mem ..), hcnt]
  simp only [hostUnit, hc, hostCount, hal, State.xMem, hps, hpm, hrm, decide_eq_false hfull, Bool.false_eq_true, if_false,
    ne_eq, not_true_eq_false]
  rw [ha]
  rfl

theorem hostC_xBegun (s : State) : (s.xBegun.headAt s.xBegun.cur.core s.xBegun.cur.slot .x).hostC = s.me.xring.head.hostC := by
  have h : s.xBegun.me = s.me.beginHead .x := s.me_beginHead .x
  rw [State.headAt, State.ringAt, show s.xBegun.slotAt s.xBegun.cur.core s.xBegun.cur.slot = s.xBegun.me from rfl, h,
    Slot.ring_beginHead]
  rfl

section
variable {s : State} {c : XCmd} (h : s.headWorks .x)
include h

theorem xhost_ends_kept {cnt a : Nat} (hn : s.xNext + 1 = xHostCount c * s.xUnits) (hr : HostRoom s.xDesc s.xNext cnt a)
    (hc : s.me.xring.head.hostC = some cnt) (hw : s.xWrites false a) : s.ends .x (.xhost c) := by
  obtain ⟨ps, hps⟩ := hw
  refine xEnds_last h (exec_xhost c s) hn ?_ fun _ => ⟨_, rfl⟩
  have hu := hostUnit_kept (s := s.xBegun) ((hostC_xBegun s).trans hc) hr
  have hk : SameAccess s (s.xBegun.hostKeep cnt) := (sameAccess_xBegun s).modHead
  obtain ⟨t, ht⟩ := xWrite_completes (hd := s.xBegun.headAt s.xBegun.cur.core s.xBegun.cur.slot .x) ((hk.xPieces ..).trans hps)
  exact ⟨t, hu.trans ht⟩

theorem xhost_ends_read {cnt a : Nat} {ps qs : List (Nat × Nat)} (hn : s.xNext + 1 = xHostCount c * s.xUnits)
    (hr : HostRoom s.xDesc s.xNext cnt a) (hc : s.me.xring.head.hostC = none) (hal : dSva s.xDesc % 8 = 0)
    (hps : s.xPieces .rd (dSva s.xDesc) 8 (dSva s.xDesc) = .ok ps) (hp : s.ppoison ps = false) (hcnt : leNat (s.preads ps) = cnt)
    (hqs : (s.misses s.cur.core s.cur.slot .rd (dSva s.xDesc) 8).xPieces .wr (s.xRun' (shadowVa s.xDesc false a))
      (min (dElem s.xDesc) 2048) a = .ok qs) : s.ends .x (.xhost c) := by
  have hb := sameAccess_xBegun s
  refine xEnds_last h (exec_xhost c s) hn ?_ fun _ => ⟨_, rfl⟩
  have hu := hostUnit_reads (s := s.xBegun) ((hostC_xBegun s).trans hc) hal ((hb.xPieces ..).trans hps)
    ((hb.ppoison ps).trans hp) ((congrArg leNat (hb.preads ps)).trans hcnt) hr
  have hk : SameAccess (s.misses s.cur.core s.cur.slot .rd (dSva s.xDesc) 8)
      ((s.xBegun.misses s.xBegun.cur.core s.xBegun.cur.slot .rd (dSva s.xDesc) 8).hostKeep cnt) := by
    rw [hb.cur]
    exact ((SameAccess.refl _).trans (hb.misses ..)).modHead
  obtain ⟨t, ht⟩ := xWrite_completes (hd := s.xBegun.headAt s.xBegun.cur.core s.xBegun.cur.slot .x) ((hk.xPieces ..).trans hqs)
  exact ⟨t, hu.trans ht⟩

end

/-! ### The sparse-index engine (R255, R256) -/

namespace SameStores
variable {s t : State}

theorem modMe (h : SameStores s t) {f : Slot → Slot} : SameStores s (t.modMe f) := h.modSlot
theorem srcNat (h : SameStores s t) (x : SrcTile) (o n : Nat) : Machine.srcNat t x o n = Machine.srcNat s x o n := by
  simp only [Machine.srcNat, h.spRead, h.spPoisoned]
theorem srcBase (h : SameStores s t) (x : SrcTile) : Machine.srcBase t x = Machine.srcBase s x := by
  simp only [Machine.srcBase, h.spRead]
theorem sbmpFind (h : SameStores s t) (x : SrcTile) (n i j : Nat) : Machine.sbmpFind t x n i j = Machine.sbmpFind s x n i j := by
  induction n generalizing i j with
  | zero => rfl
  | succ n ih => simp only [Machine.sbmpFind, h.srcNat, ih]
theorem srleFind (h : SameStores s t) (x : SrcTile) (w n i j p : Nat) :
    Machine.srleFind t x w n i j p = Machine.srleFind s x w n i j p := by
  induction n generalizing i j p with
  | zero => rfl
  | succ n ih => simp only [Machine.srleFind, h.srcNat, ih]
theorem srcPos (h : SameStores s t) (x : SrcTile) (cop : Nat) (c : SCmd) (j : Nat) :
    Machine.srcPos t x cop c j = Machine.srcPos s x cop c j := by
  simp only [Machine.srcPos, Machine.srcChk, Machine.srcCount, h.spRead, h.spPoisoned, h.sbmpFind, h.srleFind, h.srcNat]
  rfl

end SameStores

/-- The source tile of the current slot's S head. -/
def State.sSrc (s : State) : SrcTile :=
  ⟨(opAt s.me.sring.head 0).1, (opAt s.me.sring.head 0).2, (s.opSize s.me.sring.head.ops 0).getD 0⟩

theorem sieUnit_appends {s : State} {x : SrcTile} {cop : Nat} {c : SCmd} {j p : Nat} (hp : srcPos s x cop c j = .ok (some p))
    (hq : (s.me.oqOf c.oq.toNat).length < 512) (ho : srcBase s x + p < 2 ^ 32) :
    sieUnit x cop c s j = .ok (s.modMe fun sl =>
      { sl with oq := Sparse.set [] sl.oq c.oq.toNat (sl.oqOf c.oq.toNat ++ [BitVec.ofNat 32 (srcBase s x + p)]) }) := by
  simp only [sieUnit, hp, Chk.unit, if_neg (Nat.not_le.mpr hq), offsetOf, if_neg (Nat.not_le.mpr ho)]

/-- The rest of an S command's body is read where its source is as it was. -/
theorem sPlan_last {s t : State} {cop : Nat} {c : SCmd} {q : Option Nat} (ht : SameStores s t)
    (hq : srcPos s s.sSrc cop c (srcTotal s s.sSrc cop c) = .ok q) : (sPlan cop c s s.me.sring.head).last t = .ok t := by
  rw [← ht.srcPos] at hq
  exact congrArg (fun x => Chk.unit x fun _ => UnitRes.ok t) hq

section
variable {s : State} {c : SCmd} {cop : Nat} {i : Instr} (h : s.headWorks .s) (hi : exec i s = sRun cop c s)
include h hi

/-- An S command that has appended all offsets, and can read the rest of its body, ends. -/
theorem sEnds_done {q : Option Nat} (hq : srcPos s s.sSrc cop c (srcTotal s s.sSrc cop c) = .ok q)
    (hn : srcTotal s s.sSrc cop c ≤ s.me.sring.head.prog) : s.ends .s i := by
  have hb : SameStores s (s.beginHead s.cur.core s.cur.slot .s) := (SameStores.refl s).beginHead
  have hx : s.headRun .s (sPlan cop c s s.me.sring.head) (fun _ => false) =
      (s.me.sring.head.prog, .ok (s.beginHead s.cur.core s.cur.slot .s)) := by
    have hnone : (sPlan cop c s s.me.sring.head).n - (s.me.ring .s).head.prog = 0 := Nat.sub_eq_zero_of_le hn
    rw [State.headRun, hnone]
    rfl
  exact ends_of_run h hi rfl hx hn (sPlan_last hb hq)

/-- An S command whose last offset stands next ends when it has room and stays within 32 bits. -/
theorem sEnds_last {q : Option Nat} {p : Nat} (hq : srcPos s s.sSrc cop c (srcTotal s s.sSrc cop c) = .ok q)
    (hn : s.me.sring.head.prog + 1 = srcTotal s s.sSrc cop c)
    (hp : srcPos s s.sSrc cop c s.me.sring.head.prog = .ok (some p)) (hroom : (s.me.oqOf c.oq.toNat).length < 512)
    (ho : srcBase s s.sSrc + p < 2 ^ 32) : s.ends .s i := by
  have hb : SameStores s (s.beginHead s.cur.core s.cur.slot .s) := (SameStores.refl s).beginHead
  have hoq : (s.beginHead s.cur.core s.cur.slot .s).me.oqOf c.oq.toNat = s.me.oqOf c.oq.toNat := by
    rw [State.me_beginHead, Slot.oqOf, Slot.beginHead_oq]
    rfl
  have hu := sieUnit_appends ((hb.srcPos ..).trans hp) (by rwa [hoq]) (by rwa [hb.srcBase])
  exact ends_of_lastUnit h hi rfl hn hu (sPlan_last hb.modMe hq)

end

end Sys2Proof.Machine
end

section
namespace Sys2Proof.Machine

/-! ### Whole commands of the X and S rings (R138, R240, R256) -/

/-- Units that all complete leave a finished head. -/
theorem headWork_gives {s u : State} {r : RingId} {plan : State → HeadSt → Plan} (h : s.headWorks r)
    (hu : s.unitsGive r (plan s (s.me.ring r).head) u) :
    headWork r true plan s = u.headFinished s.cur.core s.cur.slot r (plan s (s.me.ring r).head).n := by
  obtain ⟨t, hrun, hlast⟩ := hu
  exact headWork_finished (whole := true) h rfl hrun (Nat.le_refl _) hlast

theorem xRun_gives {s u : State} {c : XCmd} {q : XKind} (h : s.headWorks .x) (hu : s.unitsGive .x (xPlan q c s s.me.xring.head) u) :
    xRun q c s = .next (u.headFinished s.cur.core s.cur.slot .x (xPlan q c s s.me.xring.head).n) :=
  congrArg _ (headWork_gives (plan := xPlan q c) h hu)

theorem sRun_gives {s u : State} {c : SCmd} {cop : Nat} (h : s.headWorks .s)
    (hu : s.unitsGive .s (sPlan cop c s s.me.sring.head) u) :
    sRun cop c s = .next (u.headFinished s.cur.core s.cur.slot .s (sPlan cop c s s.me.sring.head).n) :=
  congrArg _ (headWork_gives (plan := sPlan cop c) h hu)

theorem runUnits_fault {unit : State → Nat → UnitRes} {stop : Nat → Bool} {s : State} {n j : Nat} {code : Code} {eva : Word}
    (hn : 0 < n) (h : unit s j = .fault code eva) : runUnits unit stop n s j = (j, .fault code eva) := by
  obtain ⟨m, rfl⟩ := Nat.exists_eq_add_one.mpr hn
  simp only [runUnits, h]

theorem sRun_faults {s : State} {c : SCmd} {cop : Nat} {code : Code} {eva : Word} (h : s.headWorks .s)
    (hn : s.me.sring.head.prog < (sPlan cop c s s.me.sring.head).n)
    (hu : (sPlan cop c s s.me.sring.head).unit (s.beginHead s.cur.core s.cur.slot .s) s.me.sring.head.prog = .fault code eva) :
    sRun cop c s = .next (((s.beginHead s.cur.core s.cur.slot .s).modHead s.cur.core s.cur.slot .s fun h =>
      { h with prog := s.me.sring.head.prog }).headFault s.cur.core s.cur.slot .s code eva) :=
  congrArg _ (headWork_faults h rfl rfl (runUnits_fault (Nat.sub_pos_of_lt hn) hu))

/-- The state as the ring of a slot sees it. -/
def State.ofRing (s : State) (o : SlotId) (r : RingId) : State := { s with cur := ⟨o.core, o.slot, strmOfRing r⟩ }

theorem execCpeBurstComplete_holder {s : State} {o : SlotId} {q : XKind}
    (hq : xKind ((s.ringAt o.core o.slot .x).headBits .x) = some q)
    (hh : (s.core o.core).cpe.holder = some o.slot) (hf : (s.core o.core).frozen = false) :
    execCpeBurstComplete o s = .next (s.withCur ⟨o.core, o.slot, .x⟩ fun s' =>
      headWork .x false (xPlan q (xOf ((s.ringAt o.core o.slot .x).headBits .x))) s') := by
  simp only [execCpeBurstComplete, hq, hf]
  exact if_pos ⟨hh, rfl⟩

section
variable {s t : State} {o : SlotId} {q : XKind}
  (hq : xKind ((s.ringAt o.core o.slot .x).headBits .x) = some q) (hh : (s.core o.core).cpe.holder = some o.slot)
  (hf : (s.core o.core).frozen = false) (hw : (s.ofRing o .x).headWorks .x)
  (hn : (s.ringAt o.core o.slot .x).head.prog + 1 <
    (xPlan q (xOf ((s.ringAt o.core o.slot .x).headBits .x)) (s.ofRing o .x) (s.ringAt o.core o.slot .x).head).n)
include hq hh hf hw hn

/-- A burst that completes at a stop point is counted. -/
theorem exec_cpeBurstComplete_stops
    (hs : (xPlan q (xOf ((s.ringAt o.core o.slot .x).headBits .x)) (s.ofRing o .x) (s.ringAt o.core o.slot .x).head).stop
      ((s.ringAt o.core o.slot .x).head.prog + 1) = true)
    (hu : (xPlan q (xOf ((s.ringAt o.core o.slot .x).headBits .x)) (s.ofRing o .x) (s.ringAt o.core o.slot .x).head).unit
      ((s.ofRing o .x).beginHead o.core o.slot .x) (s.ringAt o.core o.slot .x).head.prog = .ok t) :
    exec (.cpeBurstComplete o) s = .next { (t.modHead o.core o.slot .x fun h =>
      { h with prog := (s.ringAt o.core o.slot .x).head.prog + 1 }) with cur := s.cur } := by
  have hx : (s.ofRing o .x).headRun .x
      (xPlan q (xOf ((s.ringAt o.core o.slot .x).headBits .x)) (s.ofRing o .x) (s.ringAt o.core o.slot .x).head)
      (fun i => !false && (xPlan q (xOf ((s.ringAt o.core o.slot .x).headBits .x)) (s.ofRing o .x)
        (s.ringAt o.core o.slot .x).head).stop i) = ((s.ringAt o.core o.slot .x).head.prog + 1, .ok t) := by
    obtain ⟨m, hm⟩ := Nat.exists_eq_add_one.mpr (Nat.sub_pos_of_lt (Nat.lt_of_succ_lt hn))
    rw [State.headRun]
    exact (congrArg (fun n => runUnits _ _ n _ _) hm).trans (runUnits_stop hu hs)
  have hwork := headWork_stops (whole := false) (plan := xPlan q (xOf ((s.ringAt o.core o.slot .x).headBits .x))) hw rfl hx hn
  rw [exec_cpeBurstComplete, execCpeBurstComplete_holder hq hh hf]
  exact congrArg (fun x : State => (.next { x with cur := s.cur } : Out)) hwork

/-- A burst of a command of tiles alone completes. -/
theorem exec_cpeBurstComplete_counts (hk : q = .fil ∨ q = .cpyT ∨ q = .cpyR ∨ q = .send) :
    ∃ u, exec (.cpeBurstComplete o) s = .next u ∧
      (u.headAt o.core o.slot .x).prog = (s.ringAt o.core o.slot .x).head.prog + 1 := by
  have counts (w : State) : (({ (w.modHead o.core o.slot .x fun h =>
      { h with prog := (s.ringAt o.core o.slot .x).head.prog + 1 }) with cur := s.cur } : State).headAt o.core o.slot .x).prog =
      (s.ringAt o.core o.slot .x).head.prog + 1 :=
    congrArg HeadSt.prog (w.headAt_modHead o.core o.slot .x fun h =>
      { h with prog := (s.ringAt o.core o.slot .x).head.prog + 1 })
  obtain rfl | rfl | rfl | rfl := hk
  all_goals exact ⟨_, exec_cpeBurstComplete_stops hq hh hf hw hn rfl rfl, counts _⟩

end

/-- A head that stands at a stop point, with a stop requested, does nothing. -/
theorem ringHalts (s : State) (c : XCmd) (d : SCmd) :
    (s.me.headHalts .x = true → exec (.xfil c) s = .next s ∧ exec (.xcpyL c) s = .next s) ∧
      (s.me.headHalts .s = true → exec (.sbmp d) s = .next s ∧ exec (.sidx d) s = .next s) := by
  refine ⟨fun h => ⟨?_, ?_⟩, fun h => ⟨?_, ?_⟩⟩
  · exact (exec_xfil c s).trans (congrArg _ (headWork_halts h true _))
  · exact (exec_xcpyL c s).trans (congrArg _ (headWork_halts h true _))
  · exact (exec_sbmp d s).trans (congrArg _ (headWork_halts h true _))
  · exact (exec_sidx d s).trans (congrArg _ (headWork_halts h true _))

/-- Settles O34: the rules of a working head, used at the units of each command's plan. -/
theorem ringCommandsComplete : Obligations.RingCommandsComplete := by
  refine ⟨?xGives, ?sGives, ?sFaults, ?stops, ?counts, ?xEnds, ?sEnds, ringHalts⟩
  case xGives =>
    intro s u c h gives
    have run {i : Instr} {q : XKind} (hi : exec i s = xRun q c s) : gives i q := fun hu => hi.trans (xRun_gives h hu)
    exact ⟨run (exec_xcpyL c s), run (exec_xcpyS c s), run (exec_xcpyT c s), run (exec_xcpyR c s), run (exec_xfil c s),
      run (exec_xfilM c s), run (exec_xgth c s), run (exec_xsct c s), run (exec_xmeta c s), run (exec_xmetaT c s),
      run (exec_xrack c s), run (exec_xfetch c s), run (exec_xpub c s), run (exec_xpubM c s), run (exec_xsend c s),
      run (exec_xhost c s)⟩
  case sGives =>
    intro s u c h
    exact ⟨fun hu => (exec_sbmp c s).trans (sRun_gives h hu), fun hu => (exec_srle c s).trans (sRun_gives h hu),
      fun hu => (exec_sidx c s).trans (sRun_gives h hu)⟩
  case sFaults =>
    intro s c code eva h p b j hn hu
    exact (exec_sidx c s).trans (sRun_faults h hn hu)
  case stops =>
    intro s t o q r s' p hq hh hf hw hn hs hu
    exact exec_cpeBurstComplete_stops hq hh hf hw hn hs hu
  case counts =>
    intro s o q r s' hq hk hh hf hw hn
    exact exec_cpeBurstComplete_counts hq hh hf hw hn hk
  case xEnds =>
    intro s c h hd d e m n j shd ends reads writes mqRoom own k cask b
    refine ⟨xTileCommands_end h, ?_, ?_, ?_, ?_, ?_, ?_⟩
    · intro a hn ha
      exact ⟨fun hr => xcpyL_ends h hn ha hr, fun hw => ⟨xcpyS_ends h hn ha hw, xfilM_ends h hn ha hw⟩⟩
    · intro a hn ha
      exact ⟨fun hr => xgth_ends h hn ha hr, fun hw => xsct_ends h hn ha hw⟩
    · intro a ps hn ha hq hps hp hx
      exact xmeta_ends h hn ha hq hps hp hx
    · intro hn hq hp hx
      exact xmetaT_ends h hn hq hp hx
    · intro hj
      exact ⟨fun hr => xrack_ends h hj hr, fun hh hc hr hp hi => xrack_starts h hj hh hc hr hp hi, 
        fun hr => xfetch_ends h hj hr⟩
    · intro cnt a hn hp hroom ha
      exact ⟨fun hc hw => xhost_ends_kept h hn ⟨hroom, ha⟩ hc hw,
        fun ps qs hc hal hps hpo hcnt hqs => xhost_ends_read h hn ⟨hroom, ha⟩ hc hal hps hpo hcnt hqs⟩
  case sEnds =>
    intro s c h hd x gives
    have run {i : Instr} {cop : Nat} (hi : exec i s = sRun cop c s) : gives i cop := by
      rintro ⟨q, hq⟩
      exact ⟨fun hn => sEnds_done h hi hq hn, fun p hn hp hroom ho => sEnds_last h hi hq hn hp hroom ho⟩
    exact ⟨run (exec_sbmp c s), run (exec_srle c s), run (exec_sidx c s)⟩

end Sys2Proof.Machine
end

section
namespace Sys2Proof.Machine

/-! ### Matrix commands of one unit (R299 to R301) -/

theorem Slot.view_beginHead (sl : Slot) (r : RingId) (n : Nat) : (sl.beginHead r).view n = sl.view n := by cases r <;> rfl
theorem Slot.head_beginHead (sl : Slot) (r : RingId) :
    ((sl.beginHead r).ring r).head = { (sl.ring r).head with phase := .active, begun := true } :=
  congrArg Ring.head (sl.ring_beginHead r)

/-- The current slot's M head has begun. -/
def State.mBegun (s : State) : State := s.beginHead s.cur.core s.cur.slot .m

theorem me_mBegun (s : State) : s.mBegun.me = s.me.beginHead .m := s.me_beginHead .m
theorem sameStores_mBegun (s : State) : SameStores s s.mBegun := (SameStores.refl s).beginHead
theorem headAt_mBegun (s : State) :
    s.mBegun.headAt s.mBegun.cur.core s.mBegun.cur.slot .m = { s.me.mring.head with phase := .active, begun := true } :=
  (congrArg (fun sl : Slot => (sl.ring .m).head) (me_mBegun s)).trans (s.me.head_beginHead .m)

section
variable {s : State} (h : s.headWorks .m)
include h

/-- A command of one unit that stands before it is finished with the state that the unit gives. -/
theorem oneUnit_finished {f : State → UnitRes} {u : State} (hj : s.me.mring.head.prog = 0) (hu : f s.mBegun = .ok u) :
    headWork .m true (oneUnit f) s = u.headFinished s.cur.core s.cur.slot .m 1 := by
  have hprog : (s.me.ring .m).head.prog = 0 := hj
  refine headWork_finished (whole := true) h rfl ?_ (Nat.le_refl 1) rfl
  rw [State.headRun, hprog]
  exact runUnits_one hu

/-- A command whose one unit completes ends, done or yet to do. -/
theorem oneUnit_ends {f : State → UnitRes} {i : Instr} (hi : exec i s = .next (headWork .m true (oneUnit f) s))
    (hu : ∃ u, f s.mBegun = .ok u) : s.ends .m i := by
  obtain ⟨u, hu⟩ := hu
  rcases Nat.eq_zero_or_pos s.me.mring.head.prog with hj | hj
  · exact ends_of_finished (hi.trans (congrArg _ (oneUnit_finished h hj hu)))
  · have hx : s.headRun .m (oneUnit f s s.me.mring.head) (fun _ => false) = (s.me.mring.head.prog, .ok s.mBegun) := by
      have hnone : (oneUnit f s s.me.mring.head).n - (s.me.ring .m).head.prog = 0 := Nat.sub_eq_zero_of_le hj
      rw [State.headRun, hnone]
      rfl
    exact ends_of_run h hi rfl hx hj rfl

end

theorem mzeroRun_zero {s : State} {c : MzeroCmd} (hv : viewOk (s.me.view c.accv.toNat) = true) :
    mzeroRun false true c s = .ok (zeroView s s.cur.core s.cur.slot (viewOf (s.me.view c.accv.toNat))) := by
  simp [mzeroRun, hv]
theorem mzeroRun_set (s : State) (c : MzeroCmd) :
    mzeroRun true false c s = .ok (s.modMe fun sl => { sl with acc := Sparse.set 0 sl.acc c.accv.toNat c.view }) := rfl
theorem mzeroRun_setz {s : State} {c : MzeroCmd} (hv : viewOk c.view = true) :
    mzeroRun true true c s = .ok ((zeroView s s.cur.core s.cur.slot (viewOf c.view)).modMe fun sl =>
      { sl with acc := Sparse.set 0 sl.acc c.accv.toNat c.view }) := by
  simp [mzeroRun, hv]

/-- `MEXP` always completes: it reads poison and writes it with the rest (R226, R301). -/
theorem mexpRun_completes (c : MxfCmd) (s : State) : ∃ u, mexpRun c s = .ok u := by
  dsimp only [mexpRun]
  split
  · exact ⟨_, rfl⟩
  · split <;> exact ⟨_, rfl⟩

/-- The source of an import, and how many bytes it reads there. -/
def mimpAt (c : MxfCmd) (h : HeadSt) : Nat := (opAt h 0).2 + c.off.toNat
def mimpBytes (c : MxfCmd) (sl : Slot) : Nat :=
  mxfBytes c.raw c.pl c.fmt.toNat c.afmt.toNat 1 ((viewOf (sl.view c.accv.toNat)).nc c.afmt.toNat) *
    (viewOf (sl.view c.accv.toNat)).mr

/-- An import from a clean source completes. -/
theorem mimpRun_completes {c : MxfCmd} {s : State} {h : HeadSt} (hh : s.headAt s.cur.core s.cur.slot .m = h)
    (hp : s.spPoisoned (opAt h 0).1 (mimpAt c h) (mimpBytes c s.me) = false) : ∃ u, mimpRun c s = .ok u := by
  simp only [mimpAt, mimpBytes] at hp
  simp only [mimpRun, hh, hp, Bool.false_eq_true, if_false]
  exact ⟨_, rfl⟩

theorem mimp_ends {s : State} {c : MxfCmd} (h : s.headWorks .m)
    (hp : s.spPoisoned (opAt s.me.mring.head 0).1 (mimpAt c s.me.mring.head) (mimpBytes c s.me) = false) : s.ends .m (.mimp c) := by
  refine oneUnit_ends h (exec_mimp c s) (mimpRun_completes (headAt_mBegun s) ?_)
  rw [(sameStores_mBegun s).spPoisoned, me_mBegun, mimpBytes, Slot.view_beginHead]
  exact hp

/-! ### Notes (R142, R302) -/

theorem noteEnd_decided {s : State} {r : RingId} (hl : (s.me.ring r).len ≠ 0) (hp : (s.me.ring r).head.phase = .decided) :
    noteEnd r s = ((s.modMe fun sl => sl.modRing r fun q => { q.pop with ended := true }).raiseCmd
      ⟨s.cur.core, s.cur.slot, strmOfRing r⟩ (cRss ((s.me.ring r).headBits r))) :=
  if_neg (not_or.mpr ⟨hl, not_not.mpr hp⟩)

/-! ### Forming a group (R296) -/

/-- The registers of the head command of a slot's M ring. -/
def Slot.mmaRegs (sl : Slot) : MmaRegs := Machine.mmaRegs sl (sl.mring.headBits .m)

theorem coOperativeGroupForm_forms {s : State} {x : SlotId} {ms : List SlotId} {sl : Slot} (hs : s.slotAt x.core x.slot = sl)
    (hn : 1 < sl.mmaRegs.coopN)
    (hm : (groupCores x.core sl.mmaRegs.coopN).map (fun c =>
      (groupSlot s c sl.t.part sl.mmaRegs.coopN sl.mmaRegs.c.ctag.toNat).map (SlotId.mk c)) = (x :: ms).map some)
    (hfree : ∀ c ∈ groupCores x.core sl.mmaRegs.coopN, (s.core c).group = [])
    (hkey : ∀ y ∈ x :: ms, groupKey (s.slotAt y.core y.slot) = groupKey sl) :
    exec (.coOperativeGroupForm ⟨x :: ms⟩) s =
      .next ((x :: ms).foldl (fun s y => s.modCore y.core fun co => { co with group := x :: ms }) s) := by
  subst hs
  rw [exec_coOperativeGroupForm]
  dsimp only [execCoOperativeGroupForm]
  rw [if_neg, if_pos]
  · simpa using hkey
  · simp only [Slot.mmaRegs] at hn hm hfree
    rw [← hm]
    simp only [Bool.or_eq_true, decide_eq_true_eq, bne_self_eq_false, Bool.false_eq_true, or_false, List.any_eq_true, not_or,
      not_exists, not_and]
    exact ⟨Nat.not_le.mpr hn, fun c hc => by simp [hfree c hc]⟩

end Sys2Proof.Machine
end

section
namespace Sys2Proof.Machine

/-! ### Accumulators without poison (R226) -/

namespace State.unpoisoned
variable {s t : State}

theorem spPoisoned (h : s.unpoisoned) (c a n : Nat) : s.spPoisoned c a n = false := by
  simp [State.spPoisoned, Core.spoisoned, (h c).1, poisoned]
theorem viewPoisoned (h : s.unpoisoned) (c k : Nat) (v : View) (afmt r col : Nat) :
    Machine.viewPoisoned s c k v afmt r col = false := by
  simp [Machine.viewPoisoned, (h c).2, poisoned]
theorem of_sameStores (h : s.unpoisoned) (hst : SameStores s t) : t.unpoisoned := fun c =>
  ⟨(hst.of_eq (·.scratchPoison) (fun _ => rfl) c).trans (h c).1, (hst.of_eq (·.acsPoison) (fun _ => rfl) c).trans (h c).2⟩

theorem putViewRow (h : s.unpoisoned) (c k : Nat) (v : View) (afmt r : Nat) (xs : List Nat) :
    (Machine.putViewRow s c k v afmt r xs).unpoisoned := by
  intro c'
  rw [Machine.putViewRow, State.core_modCore]
  split
  · simp only [Core.awrite, (h c).1, (h c).2, clearPoison, List.filter_nil, and_self]
  · exact h c'

theorem putViewRows (h : s.unpoisoned) (c k : Nat) (v : View) (afmt : Nat) (f : Nat → List Nat) (l : List Nat) :
    (l.foldl (fun s r => Machine.putViewRow s c k v afmt r (f r)) s).unpoisoned :=
  List.foldlRecOn _ _ (motive := State.unpoisoned) h fun _ hu r _ => hu.putViewRow c k v afmt r (f r)

/-- Nothing that a line reads is poisoned. -/
theorem scaleOf (h : s.unpoisoned) (g : GReg) (t : Nat × Nat) (l b : Nat) : (Machine.scaleOf s g t l b).2 = false := by
  simp only [Machine.scaleOf, h.spPoisoned, Bool.or_self]
  split <;> rfl
theorem readLine (h : s.unpoisoned) (g : GReg) (t st : Nat × Nat) (book planes : Nat) (rows : List Word) (j p ks f l : Nat)
    (at' : List (Option Nat)) : (Machine.readLine s g t st book planes rows j p ks f l at').poison = false := by
  simp only [Machine.readLine, linePoison, h.spPoisoned, Bool.or_eq_false_iff, List.any_eq_false]
  simp [h.scaleOf]

end State.unpoisoned

theorem slotAt_putViewRows (s : State) (c k c' k' : Nat) (v : View) (afmt : Nat) (f : Nat → List Nat) (l : List Nat) :
    (l.foldl (fun s r => putViewRow s c k v afmt r (f r)) s).slotAt c' k' = s.slotAt c' k' := by
  refine foldl_keeps (fun t : State => t.slotAt c' k') (fun t r => ?_) l s
  simp only [putViewRow, State.slotAt, State.core_modCore]
  split
  · next hc => rw [hc]; rfl
  · rfl

/-- An entry that is stored is read again, and the empty one is no longer than what is read. -/
theorem Sparse.length_le_get_set {α : Type} [DecidableEq α] (m : Sparse (List α)) (n : Nat) (v : List α) :
    v.length ≤ (Sparse.get [] (Sparse.set [] m n v) n).length := by
  by_cases hv : v = []
  · rw [hv]
    exact Nat.zero_le _
  · refine le_of_eq (congrArg List.length ?_)
    induction m with
    | nil => simp [Sparse.set, Sparse.get, hv]
    | cons e t ih =>
      obtain ⟨k, w⟩ := e
      simp only [Sparse.set, hv, if_false]
      split
      · simp [Sparse.get]
      · split
        · simp [Sparse.get]
        · next hne => simpa [Sparse.get, Ne.symm hne] using ih

/-! ### What the steps of a command leave of its slot (R292) -/

/-- A slot but for its metadata queues and flags. -/
def Slot.orders (sl : Slot) : Slot := { sl with mq := [], flags := 0 }

/-- Between the units of the member's command: no poison anywhere, and the slot as `sl` but for its flags and the metadata that
the steps have taken. -/
structure MmaUnder (me : SlotId) (sl : Slot) (t : State) : Prop where
  clean : t.unpoisoned
  orders : (t.slotAt me.core me.slot).orders = sl.orders

/-- Stored metadata entries at hand. -/
def State.metaAtHand (t : State) (me : SlotId) (m : MmaRegs) : Nat := ((t.slotAt me.core me.slot).mqOf m.c.mq.toNat).length

namespace MmaUnder
variable {me : SlotId} {sl : Slot} {t : State}

theorem mring (h : MmaUnder me sl t) : (t.slotAt me.core me.slot).mring = sl.mring := by
  have he : (t.slotAt me.core me.slot).orders.mring = sl.orders.mring := by rw [h.orders]
  exact he
theorem regs (h : MmaUnder me sl t) : (t.slotAt me.core me.slot).mmaRegs = sl.mmaRegs := by
  have he : (t.slotAt me.core me.slot).orders.mmaRegs = sl.orders.mmaRegs := by rw [h.orders]
  exact he
theorem head (h : MmaUnder me sl t) : t.headAt me.core me.slot .m = sl.mring.head := congrArg Ring.head h.mring

/-- A step of a command whose metadata is at hand completes, and takes that of one step. -/
theorem step (h : MmaUnder me sl t) {p v : Nat} (hq : sl.mmaRegs.s2 = true → sl.mmaRegs.ks / 16 ≤ t.metaAtHand me sl.mmaRegs) :
    ∃ u, mmaStep t me me p v = .ok u ∧ MmaUnder me sl u ∧
      t.metaAtHand me sl.mmaRegs ≤ u.metaAtHand me sl.mmaRegs + sl.mmaRegs.ks / 16 := by
  have hregs : Machine.mmaRegs (t.slotAt me.core me.slot) ((t.slotAt me.core me.slot).mring.headBits .m) = sl.mmaRegs := h.regs
  have hstall : (sl.mmaRegs.s2 && decide (((t.slotAt me.core me.slot).mqOf sl.mmaRegs.c.mq.toNat).length < sl.mmaRegs.ks / 16)) =
      false := by
    cases hs : sl.mmaRegs.s2 with
    | false => rfl
    | true => simpa [State.metaAtHand] using hq hs
  have hlines (l : List Nat) (g : Nat → Line) (hg : ∀ i, (g i).poison = false) : (l.map g).any (·.poison) = false := by
    simp [hg]
  unfold mmaStep
  dsimp only
  rw [hregs, hstall, if_neg Bool.false_ne_true, if_neg]
  · refine ⟨_, rfl, ⟨?_, ?_⟩, ?_⟩
    · refine State.unpoisoned.of_sameStores ?_ (SameStores.refl _).modSlot
      exact h.clean.putViewRows _ _ _ _ _ _
    · rw [State.slotAt_modSlot, if_pos ⟨rfl, rfl⟩, slotAt_putViewRows]
      refine Eq.trans ?_ h.orders
      split <;> rfl
    · rw [State.metaAtHand, State.metaAtHand, State.slotAt_modSlot, if_pos ⟨rfl, rfl⟩, slotAt_putViewRows]
      split
      · refine Nat.sub_le_iff_le_add.mp ?_
        rw [← List.length_drop]
        exact Sparse.length_le_get_set ..
      · exact Nat.le_add_right ..
  · rw [hlines _ _ fun _ => h.clean.readLine .., hlines _ _ fun _ => h.clean.readLine ..]
    simp [h.clean.viewPoisoned]

end MmaUnder

end Sys2Proof.Machine
end

section
namespace Sys2Proof.Machine

/-! ### The units of a command without passes (R292) -/

/-- The head of the M ring is at work, not cut by a seal, on a command that publishes no vintages. -/
structure Slot.Plain (sl : Slot) : Prop where
  active : sl.mring.head.phase = .active
  uncut : sl.mring.head.sealCut = false
  passless : sl.mmaRegs.c.pv = 0

theorem unpoisoned_zeroView {s : State} (h : s.unpoisoned) (c k : Nat) (v : View) : (zeroView s c k v).unpoisoned :=
  h.putViewRows _ _ _ _ (fun _ => List.replicate (v.nc 0) 0) _
theorem slotAt_zeroView (s : State) (c k c' k' : Nat) (v : View) : (zeroView s c k v).slotAt c' k' = s.slotAt c' k' :=
  slotAt_putViewRows s c k c' k' v 0 (fun _ => List.replicate (v.nc 0) 0) _

namespace MmaUnder
variable {me : SlotId} {sl : Slot} {t : State}

theorem zeroed (h : MmaUnder me sl t) (c k : Nat) (v : View) : MmaUnder me sl (zeroView t c k v) :=
  ⟨unpoisoned_zeroView h.clean _ _ _, (congrArg Slot.orders (slotAt_zeroView ..)).trans h.orders⟩

section
variable (h : MmaUnder me sl t) (hp : sl.Plain)
include h hp

/-- A unit of a plain command: the zeroing, a step, or the end, which does nothing. -/
theorem unit_eq (i : Nat) : mmaUnit me me t i =
    if i % passUnits sl.mmaRegs.rows = 0 then
      .ok (if sl.mmaRegs.c.za then zeroView t me.core me.slot (viewOf sl.mmaRegs.view) else t)
    else if i % passUnits sl.mmaRegs.rows ≤ sl.mmaRegs.steps then
      mmaStep t me me (i % passUnits sl.mmaRegs.rows - 1) (i / passUnits sl.mmaRegs.rows + 1)
    else .ok t := by
  have hregs : Machine.mmaRegs (t.slotAt me.core me.slot) ((t.ringAt me.core me.slot .m).headBits .m) = sl.mmaRegs := h.regs
  unfold mmaUnit
  simp only [hregs, hp.passless, ne_eq, not_true_eq_false, and_false, if_false, if_true, h.head, hp.active, hp.uncut,
    Bool.false_and, Bool.false_eq_true]
  rfl

theorem unit_zeroes {i : Nat} (hi : i % passUnits sl.mmaRegs.rows = 0) :
    ∃ u, mmaUnit me me t i = .ok u ∧ MmaUnder me sl u ∧ u.metaAtHand me sl.mmaRegs = t.metaAtHand me sl.mmaRegs := by
  refine ⟨_, (h.unit_eq hp i).trans (if_pos hi), ?_⟩
  split
  · exact ⟨h.zeroed .., by rw [State.metaAtHand, slotAt_zeroView]; rfl⟩
  · exact ⟨h, rfl⟩

theorem unit_steps {i : Nat} (hi : i % passUnits sl.mmaRegs.rows ≠ 0) (hs : i % passUnits sl.mmaRegs.rows ≤ sl.mmaRegs.steps)
    (hq : sl.mmaRegs.s2 = true → sl.mmaRegs.ks / 16 ≤ t.metaAtHand me sl.mmaRegs) :
    ∃ u, mmaUnit me me t i = .ok u ∧ MmaUnder me sl u ∧
      t.metaAtHand me sl.mmaRegs ≤ u.metaAtHand me sl.mmaRegs + sl.mmaRegs.ks / 16 := by
  rw [h.unit_eq hp, if_neg hi, if_pos hs]
  exact h.step hq

theorem unit_ends {i : Nat} (hi : i % passUnits sl.mmaRegs.rows = sl.mmaRegs.steps + 1) : mmaUnit me me t i = .ok t := by
  rw [h.unit_eq hp, if_neg (hi ▸ Nat.succ_ne_zero _), if_neg (hi ▸ Nat.not_succ_le_self _)]

/-- A plain command whose remaining steps have their metadata does all its units. -/
theorem units_complete {n i : Nat} (hn : i + n ≤ passUnits sl.mmaRegs.rows)
    (hq : sl.mmaRegs.s2 = true →
      min sl.mmaRegs.steps (sl.mmaRegs.steps + 1 - i) * (sl.mmaRegs.ks / 16) ≤ t.metaAtHand me sl.mmaRegs) :
    ∃ u, runUnits (mmaUnit me me) (fun _ => false) n t i = (i + n, .ok u) := by
  induction n generalizing t i with
  | zero => exact ⟨t, rfl⟩
  | succ n ih =>
    have hpu : passUnits sl.mmaRegs.rows = sl.mmaRegs.steps + 2 := rfl
    have hmod : i % passUnits sl.mmaRegs.rows = i := Nat.mod_eq_of_lt (by omega)
    have next {u : State} (hu : mmaUnit me me t i = .ok u) (hun : MmaUnder me sl u)
        (hq' : sl.mmaRegs.s2 = true →
          min sl.mmaRegs.steps (sl.mmaRegs.steps + 1 - (i + 1)) * (sl.mmaRegs.ks / 16) ≤ u.metaAtHand me sl.mmaRegs) :
        ∃ w, runUnits (mmaUnit me me) (fun _ => false) (n + 1) t i = (i + (n + 1), .ok w) := by
      obtain ⟨w, hw⟩ := ih hun (by omega) hq'
      exact ⟨w, by simp only [runUnits, hu, Bool.false_eq_true, if_false, hw, Nat.add_right_comm i 1 n, Nat.add_assoc]⟩
    rcases Nat.eq_zero_or_pos i with rfl | hi
    · obtain ⟨u, hu, hun, hmeta⟩ := h.unit_zeroes hp (i := 0) (Nat.zero_mod _)
      refine next hu hun fun hs => ?_
      rw [hmeta]
      simpa using hq hs
    · by_cases hs : i ≤ sl.mmaRegs.steps
      · have hmin : min sl.mmaRegs.steps (sl.mmaRegs.steps + 1 - i) =
            min sl.mmaRegs.steps (sl.mmaRegs.steps + 1 - (i + 1)) + 1 := by omega
        rw [hmin, Nat.succ_mul] at hq
        obtain ⟨u, hu, hun, hmeta⟩ := h.unit_steps hp (i := i) (by omega) (by omega)
          fun h2 => (Nat.le_add_left _ _).trans (hq h2)
        refine next hu hun fun h2 => ?_
        have := hq h2
        omega
      · refine next (h.unit_ends hp (by omega)) h fun _ => ?_
        rw [show sl.mmaRegs.steps + 1 - (i + 1) = 0 by omega, Nat.min_zero, Nat.zero_mul]
        exact Nat.zero_le _

end
end MmaUnder

/-! ### To the end of the next step -/

/-- Where `MMA_STEP_END` stops: after a step. -/
def stepEnd (rows : List Word) (i : Nat) : Bool :=
  let u := i % passUnits rows
  i != 1 && u != 0 && u != nestSteps rows + 1

theorem runUnits_on {unit : State → Nat → UnitRes} {stop : Nat → Bool} {s t : State} {n j : Nat} (h : unit s j = .ok t)
    (hs : stop (j + 1) = false) : runUnits unit stop (n + 1) s j = runUnits unit stop n t (j + 1) := by
  simp only [runUnits, h, hs, Bool.false_eq_true, if_false]

/-- The units from i on that `MMA_STEP_END` runs complete, one at least, and leave the command's slot as it is but for flags
and metadata. -/
def StepRuns (me : SlotId) (sl : Slot) (t : State) (i : Nat) : Prop :=
  ∃ j u, runUnits (mmaUnit me me) (stepEnd sl.mmaRegs.rows) (passUnits sl.mmaRegs.rows - i) t i = (j, .ok u) ∧ i < j ∧
    MmaUnder me sl u

namespace MmaUnder
variable {me : SlotId} {sl : Slot} {t : State} (h : MmaUnder me sl t) (hp : sl.Plain)
include h hp

theorem stepRuns_end : StepRuns me sl t (sl.mmaRegs.steps + 1) := by
  refine ⟨sl.mmaRegs.steps + 2, t, ?_, Nat.lt_succ_self _, h⟩
  rw [show passUnits sl.mmaRegs.rows - (sl.mmaRegs.steps + 1) = 1 from
    Nat.add_sub_cancel_left (sl.mmaRegs.steps + 1) 1]
  exact runUnits_one (h.unit_ends hp (Nat.mod_eq_of_lt (Nat.lt_succ_self _)))

theorem stepRuns_step {i : Nat} (hi : 0 < i) (hs : i ≤ sl.mmaRegs.steps)
    (hq : sl.mmaRegs.s2 = true → sl.mmaRegs.ks / 16 ≤ t.metaAtHand me sl.mmaRegs) : StepRuns me sl t i := by
  have hpu : passUnits sl.mmaRegs.rows = sl.mmaRegs.steps + 2 := rfl
  have hmod : i % passUnits sl.mmaRegs.rows = i := Nat.mod_eq_of_lt (by omega)
  have hmod' : (i + 1) % passUnits sl.mmaRegs.rows = i + 1 := Nat.mod_eq_of_lt (by omega)
  obtain ⟨u, hu, hun, -⟩ := h.unit_steps hp (i := i) (by omega) (by omega) hq
  have hsub : passUnits sl.mmaRegs.rows - i = passUnits sl.mmaRegs.rows - (i + 1) + 1 := by omega
  have hstop : stepEnd sl.mmaRegs.rows (i + 1) = (i != sl.mmaRegs.steps) := by
    have hne : (i == 0) = false := beq_eq_false_iff_ne.mpr (by omega)
    simp [stepEnd, hmod', hne, MmaRegs.steps, bne]
  rcases eq_or_ne i sl.mmaRegs.steps with he | hne
  · obtain ⟨j, w, hw, hj, hwn⟩ := hun.stepRuns_end hp
    refine ⟨j, w, ?_, by omega, hwn⟩
    rw [hsub, runUnits_on hu (by rw [hstop, he]; simp), he]
    exact hw
  · exact ⟨i + 1, u, by rw [hsub, runUnits_stop hu (by simpa [hstop] using hne)], Nat.lt_succ_self _, hun⟩

theorem stepRuns_start (hq : sl.mmaRegs.s2 = true → sl.mmaRegs.ks / 16 ≤ t.metaAtHand me sl.mmaRegs) : StepRuns me sl t 0 := by
  obtain ⟨u, hu, hun, hmeta⟩ := h.unit_zeroes hp (i := 0) (Nat.zero_mod _)
  have hfrom : StepRuns me sl u 1 := by
    rcases Nat.eq_zero_or_pos sl.mmaRegs.steps with hz | hpos
    · have := hun.stepRuns_end hp
      rwa [hz] at this
    · exact hun.stepRuns_step hp Nat.one_pos hpos (by rwa [hmeta])
  obtain ⟨j, w, hw, hj, hwn⟩ := hfrom
  refine ⟨j, w, ?_, by omega, hwn⟩
  rw [show passUnits sl.mmaRegs.rows - 0 = passUnits sl.mmaRegs.rows - 1 + 1 from rfl, runUnits_on hu rfl]
  exact hw

/-- From wherever a plain command stands, its next step is done. -/
theorem stepRuns {i : Nat} (hi : i < passUnits sl.mmaRegs.rows)
    (hq : sl.mmaRegs.s2 = true → sl.mmaRegs.ks / 16 ≤ t.metaAtHand me sl.mmaRegs) : StepRuns me sl t i := by
  have hpu : passUnits sl.mmaRegs.rows = sl.mmaRegs.steps + 2 := rfl
  rcases Nat.eq_zero_or_pos i with rfl | hpos
  · exact h.stepRuns_start hp hq
  · by_cases hs : i ≤ sl.mmaRegs.steps
    · exact h.stepRuns_step hp hpos hs hq
    · obtain rfl : i = sl.mmaRegs.steps + 1 := by omega
      exact h.stepRuns_end hp

end MmaUnder

end Sys2Proof.Machine
end

section
namespace Sys2Proof.Machine

/-! ### The command of a slot that works alone (R292, R294) -/

/-- The head's progress once j units of n are done. -/
def HeadSt.progressed (n j : Nat) (h : HeadSt) : HeadSt :=
  if h.phase = .finished then h else { h with prog := j, phase := if j ≥ n then .finished else h.phase }

/-- Units of the current slot's matrix command. -/
def State.mUnits (s : State) : Nat := s.me.mmaRegs.passes * passUnits s.me.mmaRegs.rows
/-- The current slot's matrix command has done its units up to j. -/
def State.mProgressed (s t : State) (j : Nat) : State :=
  t.modHead s.cur.core s.cur.slot .m (HeadSt.progressed s.mUnits j)

/-- The slot works without a group, in a core that is not frozen. -/
structure State.MmaAlone (s : State) : Prop where
  works : s.headWorks .m
  single : s.me.coop = false
  thawed : (s.core s.cur.core).frozen = false

/-- A command that works alone works to its end, or to the end of its next step. -/
theorem mmaWork_alone {s t : State} {whole : Bool} {j : Nat} (h : s.MmaAlone)
    (hx : runUnits (mmaUnit s.myId s.myId) (fun i => !whole && stepEnd s.me.mmaRegs.rows i) (s.mUnits - s.me.mring.head.prog)
      s.mBegun s.me.mring.head.prog = (j, .ok t)) : mmaWork whole s = s.mProgressed t j := by
  obtain ⟨⟨hruns, hlen, hstop⟩, hcoop, hfrozen⟩ := h
  have hms : mmaMembers s = [s.myId] := by simp [mmaMembers, hcoop]
  have hpend : (s.slotAt s.myId.core s.myId.slot).stopping .m = false := hstop
  have hr : (s.slotAt s.myId.core s.myId.slot).headRuns .m = true := hruns
  have hl : ((s.ringAt s.myId.core s.myId.slot .m).len != 0) = true := bne_iff_ne.mpr hlen
  have hf : (s.core s.myId.core).frozen = false := hfrozen
  have hone : (fun (s' : State) (i : Nat) => (membersUnit s.myId i [s.myId] s').2) = mmaUnit s.myId s.myId := by
    funext s' i
    rw [membersUnit]
    cases mmaUnit s.myId s.myId s' i <;> rfl
  have hprog : ∀ j, (fun h : HeadSt => if (h.phase == .finished) = true then h else
      { h with prog := j, phase := if j ≥ s.mUnits then .finished else h.phase }) = HeadSt.progressed s.mUnits j := by
    intro j
    funext h
    simp [HeadSt.progressed]
  have hh : s.headAt s.myId.core s.myId.slot .m = s.me.mring.head := rfl
  have hb : s.beginHead s.myId.core s.myId.slot .m = s.mBegun := rfl
  simp only [State.mUnits, Slot.mmaRegs, stepEnd] at hx
  unfold mmaWork
  simp only [hms, hpend, hr, hl, hf, hh, hb, List.isEmpty_cons, List.contains_cons, beq_self_eq_true, List.all_cons, List.all_nil,
    List.any_cons, List.any_nil, List.length_cons, List.length_nil, Bool.true_or, Bool.and_self, Bool.not_true, Bool.or_self,
    Bool.false_and, List.headD_cons, List.foldl_cons, List.foldl_nil, Bool.false_or, hone, MmaRegs.steps, hx]
  rw [if_neg (by simp)]
  exact congrArg (t.modHead s.cur.core s.cur.slot .m) (hprog j)

theorem mmaWork_whole {s t : State} {j : Nat} (h : s.MmaAlone)
    (hx : runUnits (mmaUnit s.myId s.myId) (fun _ => false) (s.mUnits - s.me.mring.head.prog) s.mBegun s.me.mring.head.prog =
      (j, .ok t)) : mmaWork true s = s.mProgressed t j :=
  mmaWork_alone h (by simpa only [Bool.not_true, Bool.false_and] using hx)
theorem mmaWork_step {s t : State} {j : Nat} (h : s.MmaAlone)
    (hx : runUnits (mmaUnit s.myId s.myId) (stepEnd s.me.mmaRegs.rows) (s.mUnits - s.me.mring.head.prog) s.mBegun
      s.me.mring.head.prog = (j, .ok t)) : mmaWork false s = s.mProgressed t j :=
  mmaWork_alone h (by simpa only [Bool.not_false, Bool.true_and] using hx)

theorem mProgressed_finished {s t : State} {j : Nat} (hj : s.mUnits ≤ j) :
    ((s.mProgressed t j).headAt s.cur.core s.cur.slot .m).phase = .finished := by
  rw [State.mProgressed, State.headAt_modHead, HeadSt.progressed, if_pos hj]
  split
  · assumption
  · rfl

theorem mProgressed_prog {s t : State} {j : Nat} (ht : (t.headAt s.cur.core s.cur.slot .m).phase ≠ .finished) :
    ((s.mProgressed t j).headAt s.cur.core s.cur.slot .m).prog = j := by
  rw [State.mProgressed, State.headAt_modHead, HeadSt.progressed, if_neg ht]

section
variable {s t : State} {j : Nat} (h : s.MmaAlone)
include h

/-- The units of a whole command, from where it stands. -/
theorem execMma_runs (c : MmaCmd) (hx : runUnits (mmaUnit s.myId s.myId) (fun _ => false) (s.mUnits - s.me.mring.head.prog)
    s.mBegun s.me.mring.head.prog = (j, .ok t)) :
    exec (.mma c) s = .next (s.mProgressed t j) ∧ exec (.mmas c) s = .next (s.mProgressed t j) := by
  have hw := mmaWork_whole h hx
  exact ⟨(exec_mma c s).trans (congrArg _ hw), (exec_mmas c s).trans (congrArg _ hw)⟩

theorem mma_ends (c : MmaCmd) (hj : s.mUnits ≤ j) (hx : runUnits (mmaUnit s.myId s.myId) (fun _ => false)
    (s.mUnits - s.me.mring.head.prog) s.mBegun s.me.mring.head.prog = (j, .ok t)) : s.ends .m (.mma c) ∧ s.ends .m (.mmas c) := by
  obtain ⟨hm, hs⟩ := execMma_runs h c hx
  exact ⟨⟨_, hm, mProgressed_finished hj⟩, ⟨_, hs, mProgressed_finished hj⟩⟩

end

/-! ### Plain commands end (R292) -/

theorem mmaRegs_beginHead (sl : Slot) : (sl.beginHead .m).mmaRegs = sl.mmaRegs := rfl

/-- When its command begins, an unpoisoned member is ready for the units. -/
theorem mmaUnder_mBegun {s : State} (h : s.unpoisoned) : MmaUnder s.myId (s.me.beginHead .m) s.mBegun :=
  ⟨h.of_sameStores (sameStores_mBegun s), congrArg Slot.orders (s.slotAt_beginHead ..)⟩

theorem plain_beginHead {sl : Slot} (hc : sl.mring.head.sealCut = false) (hpv : sl.mmaRegs.c.pv = 0) : (sl.beginHead .m).Plain :=
  ⟨rfl, hc, hpv⟩

theorem metaAtHand_mBegun (s : State) (m : MmaRegs) : s.mBegun.metaAtHand s.myId m = (s.me.mqOf m.c.mq.toNat).length := by
  have hsl : s.mBegun.slotAt s.myId.core s.myId.slot = s.me.beginHead .m := s.slotAt_beginHead ..
  rw [State.metaAtHand, hsl]
  rfl

theorem mUnits_passless {s : State} (hpv : s.me.mmaRegs.c.pv = 0) : s.mUnits = passUnits s.me.mmaRegs.rows := by
  rw [State.mUnits, MmaRegs.passes, if_pos hpv, Nat.one_mul]

/-- An unpoisoned command without passes that has all its metadata ends. -/
theorem mma_ends_passless {s : State} (h : s.MmaAlone) (c : MmaCmd) (hc : s.me.mring.head.sealCut = false)
    (hpv : s.me.mmaRegs.c.pv = 0) (hp : s.unpoisoned)
    (hq : s.me.mmaRegs.s2 = true →
      s.me.mmaRegs.steps * (s.me.mmaRegs.ks / 16) ≤ (s.me.mqOf s.me.mmaRegs.c.mq.toNat).length) :
    s.ends .m (.mma c) ∧ s.ends .m (.mmas c) := by
  rcases Nat.le_total s.mUnits s.me.mring.head.prog with hj | hj
  · refine mma_ends h c hj (t := s.mBegun) ?_
    rw [Nat.sub_eq_zero_of_le hj]
    rfl
  · have hpu : s.mUnits = passUnits (s.me.beginHead .m).mmaRegs.rows := mUnits_passless hpv
    obtain ⟨u, hu⟩ := (mmaUnder_mBegun hp).units_complete (plain_beginHead hc hpv) (n := s.mUnits - s.me.mring.head.prog)
      (i := s.me.mring.head.prog) (by rw [← hpu]; omega) fun h2 => by
        rw [metaAtHand_mBegun]
        exact (Nat.mul_le_mul_right _ (Nat.min_le_left ..)).trans (hq h2)
    exact mma_ends h c (by omega) hu

/-! ### `MMA_STEP_END` -/

theorem mmaStepEnd_works {s : State} {o : SlotId} (hh : (s.core o.core).mxe.holder = some o.slot)
    (hc : copOf ((s.slotAt o.core o.slot).mring.headBits .m) = 1 ∨ copOf ((s.slotAt o.core o.slot).mring.headBits .m) = 2) :
    exec (.mmaStepEnd o) s = .next { mmaWork false (s.ofRing o .m) with cur := s.cur } := by
  rw [exec_mmaStepEnd]
  exact if_pos ⟨hh, hc⟩

/-- The work to the end of the next step of a plain command makes progress. -/
theorem mmaWork_progresses {s : State} (h : s.MmaAlone) (hcut : s.me.mring.head.sealCut = false) (hpv : s.me.mmaRegs.c.pv = 0)
    (hp : s.unpoisoned)
    (hq : s.me.mmaRegs.s2 = true → s.me.mmaRegs.ks / 16 ≤ (s.me.mqOf s.me.mmaRegs.c.mq.toNat).length)
    (hj : s.me.mring.head.prog < passUnits s.me.mmaRegs.rows) :
    s.me.mring.head.prog < ((mmaWork false s).headAt s.cur.core s.cur.slot .m).prog := by
  have hruns := (mmaUnder_mBegun hp).stepRuns (plain_beginHead hcut hpv) (i := s.me.mring.head.prog) hj fun h2 =>
    (hq h2).trans_eq (metaAtHand_mBegun s _).symm
  rw [StepRuns, mmaRegs_beginHead, ← mUnits_passless hpv] at hruns
  obtain ⟨j, u, hu, hij, hus⟩ := hruns
  have hphase : (u.headAt s.cur.core s.cur.slot .m).phase ≠ .finished := by
    rw [show u.headAt s.cur.core s.cur.slot .m = (s.me.beginHead .m).mring.head from hus.head]
    exact nofun
  rwa [mmaWork_step h hu, mProgressed_prog hphase]

/-- `MMA_STEP_END` stops after the unit that stands next where that is a step. -/
theorem mmaStepEnd_one {s t : State} (h : s.MmaAlone) (hst : s.cur.strm = .m)
    (hh : (s.core s.cur.core).mxe.holder = some s.cur.slot)
    (hc : copOf (s.me.mring.headBits .m) = 1 ∨ copOf (s.me.mring.headBits .m) = 2)
    (hj : s.me.mring.head.prog + 1 < s.mUnits) (hs : stepEnd s.me.mmaRegs.rows (s.me.mring.head.prog + 1) = true)
    (hu : mmaUnit s.myId s.myId s.mBegun s.me.mring.head.prog = .ok t) :
    exec (.mmaStepEnd s.myId) s = .next { s.mProgressed t (s.me.mring.head.prog + 1) with cur := s.cur } := by
  have hown : s.ofRing s.myId .m = s := by
    rw [State.ofRing]
    exact congrArg (fun r => { s with cur := r }) (congrArg (StrmRef.mk s.cur.core s.cur.slot) hst.symm)
  obtain ⟨n, hn⟩ := Nat.exists_eq_add_one.mpr (Nat.sub_pos_of_lt (Nat.lt_of_succ_lt hj))
  have hwork : mmaWork false s = s.mProgressed t (s.me.mring.head.prog + 1) :=
    mmaWork_step h (hn ▸ runUnits_stop hu hs)
  have hexec := mmaStepEnd_works (s := s) (o := s.myId) hh hc
  rwa [hown, hwork] at hexec

end Sys2Proof.Machine
end

section
namespace Sys2Proof.Machine

/-! ### The consumers of a tile that advances (R395 to R399) -/

theorem sameStores_requestStop (s : State) (c k : Nat) (st : Strm) (cause : StopCause) :
    SameStores s (s.requestStop c k st cause) := by
  have traced (b : Bool) : SameStores s (if b then s.trace c k 11 st 0 cause.no else s) := by
    split
    · exact .of_cores (State.cores_trace ..)
    · exact .refl s
  unfold State.requestStop
  dsimp only
  split
  · split
    · exact .refl s
    · exact (traced _).modSlot
  · split
    · exact .refl s
    · exact (traced _).modSlot
  · exact (traced _).modSlot

theorem SameStores.foldl {α : Type} {f : State → α → State} (h : ∀ s a, SameStores s (f s a)) (l : List α) (s : State) :
    SameStores s (l.foldl f s) :=
  List.foldlRecOn _ _ (motive := SameStores s) (.refl s) fun _ hu a _ => hu.trans (h _ a)

theorem sameStores_requestAll (s : State) (c k : Nat) (cause : StopCause) : SameStores s (s.requestAll c k cause) :=
  .foldl (fun s st => sameStores_requestStop s c k st cause) _ s

theorem sameStores_requestRefire (s : State) (c k : Nat) : SameStores s (s.requestRefire c k) := by
  unfold State.requestRefire
  dsimp only
  split
  · exact .refl s
  · split
    · refine .foldl (fun t m => ?_) _ s
      split
      · exact (SameStores.refl t).modSlot
      · exact .refl t
    · refine .foldl (fun t m => ?_) _ s
      split
      · exact .refl t
      · exact (SameStores.refl t).modSlot.trans (sameStores_requestAll _ _ _ _)

theorem tileAt_modTile (s : State) (c a c' a' : Nat) (f : Tile → Tile) :
    (s.modTile c a f).tileAt c' a' = if c' = c ∧ a' = a then f (s.tileAt c a) else s.tileAt c' a' := by
  rw [State.modTile, State.tileAt, State.putTile, State.core_putCore]
  split
  · next hc => simp [hc, State.tileAt]
  · next hc => simp [hc, State.tileAt]

/-- What marks and publications tell of a tile: its vintage and its state. -/
def Tile.vintage (t : Tile) : Nat × TileState := (t.vint, t.st)

theorem vintage_modTile {f : Tile → Tile} (hf : ∀ t, (f t).vintage = t.vintage) (s : State) (c a c' a' : Nat) :
    ((s.modTile c a f).tileAt c' a').vintage = (s.tileAt c' a').vintage := by
  rw [tileAt_modTile]
  split
  · next hat => rw [hf, hat.1, hat.2]
  · rfl

theorem vintage_of_sameStores {s t : State} (h : SameStores s t) (c a : Nat) : (t.tileAt c a).vintage = (s.tileAt c a).vintage :=
  congrArg Tile.vintage (h.tileAt c a)

/-- Checking the consumers of a tile keeps the vintage and the state of every tile. -/
theorem vintage_checkConsumers (s : State) (c abs c' a' : Nat) :
    ((s.checkConsumers c abs).tileAt c' a').vintage = (s.tileAt c' a').vintage := by
  refine foldl_keeps (fun t : State => (t.tileAt c' a').vintage) (fun t r => ?_) _ s
  have slot (f : Slot → Slot) : ((t.modSlot r.ccore r.cslot f).tileAt c' a').vintage = (t.tileAt c' a').vintage :=
    vintage_of_sameStores (SameStores.refl t).modSlot c' a'
  dsimp only
  split
  · rw [vintage_of_sameStores (sameStores_requestRefire _ _ _)]
    split
    · exact (vintage_modTile (f := fun t => { t with super := true }) (fun _ => rfl) ..).trans (slot _)
    · exact slot _
  · rfl

theorem vintage_swapTile (s : State) (c abs : Nat) (keep : Bool) :
    ((s.swapTile c abs keep).tileAt c abs).vintage = ((s.tileAt c abs).vint + 1, .ready) := by
  rw [State.swapTile, vintage_checkConsumers, tileAt_modTile, if_pos ⟨rfl, rfl⟩]
  rfl

/-! ### The last pass (R297, R298) -/

/-- No seal under way for the tile. -/
def State.unsealing (s : State) (c abs : Nat) : Prop := ∀ x ∈ (s.core c).sealsIn, x.1 ≠ abs

theorem landSeal_unsealing {s : State} {c abs : Nat} (h : s.unsealing c abs) : s.landSeal c abs = s := by
  refine if_neg ?_
  simp only [List.any_eq_true, Bool.and_eq_true, beq_iff_eq, not_exists, not_and]
  exact fun x hx he => absurd he (h x hx)

/-- A publication of a tile that is not sealed advances its vintage. -/
theorem publish_advances {s : State} {pub : SlotId} {c abs : Nat} {keep : Bool} (hu : s.unsealing c abs)
    (hs : (s.tileAt c abs).sealed = false) (hv : (s.tileAt c abs).vint < 65534) :
    s.publish pub c abs keep = .published ((s.swapTile c abs keep).count pub.core 0x16 (some pub.slot)) := by
  simp only [State.publish, landSeal_unsealing hu, hs, Bool.false_eq_true, if_false, if_neg (Nat.ne_of_lt hv)]

/-- Writing a view into a tile changes bytes and poison of scratchpads, and nothing else. -/
theorem exportView_keeps {γ : Type} (g : Core → γ) (hg : ∀ co m p, g { co with scratch := m, scratchPoison := p } = g co)
    (s : State) (c k : Nat) (v : View) (afmt : Nat) (raw pl : Bool) (fmt rdg rm : Nat) (ovf : Bool) (off tc ta size c' : Nat) :
    g ((exportView s c k v afmt raw pl fmt rdg rm ovf off tc ta size).1.core c') = g (s.core c') := by
  have poison (t : State) (a n : Nat) : g ((t.spPoison tc a n).core c') = g (t.core c') := by
    rw [State.spPoison, State.core_modCore]
    split
    · next hc => rw [hc]; exact hg _ (t.core tc).scratch _
    · rfl
  have write (l : List Byte) : g ((s.spWrite tc ta l).core c') = g (s.core c') := by
    rw [State.spWrite, State.core_modCore]
    split
    · next hc => rw [hc]; exact hg ..
    · rfl
  unfold exportView
  dsimp only
  split
  · exact write _
  · refine (foldl_keeps (fun t : State => g (t.core c')) (fun t r => ?_) _ _).trans (write _)
    refine foldl_keeps (fun t : State => g (t.core c')) (fun t col => ?_) _ _
    split <;> exact poison ..

/-- The view of a member's command, exported to the shadow of its destination at the end of a pass. -/
def State.passExport (s : State) (me : SlotId) (d : ReadRef) : State :=
  let m := (s.slotAt me.core me.slot).mmaRegs
  let t := s.tileAt d.core d.abs
  let x := exportView s me.core me.slot (viewOf m.view) m.c.afmt.toNat false false m.c.vfmt.toNat m.c.vrdg.toNat m.c.vrm.toNat
    m.c.vovf 0 d.core t.shadowAt t.bytes
  x.1.modSlot me.core me.slot (·.orFlags .m x.2)

theorem passExport_keeps {γ : Type} (g : Core → γ) (hst : ∀ co : Core, g co.stores = g co)
    (hg : ∀ co m p, g { co with scratch := m, scratchPoison := p } = g co) (s : State) (me : SlotId) (d : ReadRef) (c : Nat) :
    g ((s.passExport me d).core c) = g (s.core c) :=
  ((SameStores.refl _).modSlot.of_eq g hst c).trans (exportView_keeps g hg ..)

/-- A tile that a publication of slot `me` may advance: not sealed, with no seal under way, no reader of its shadow and room
for another vintage. -/
structure State.Advances (s : State) (d : ReadRef) : Prop where
  unsealing : s.unsealing d.core d.abs
  unsealed : (s.tileAt d.core d.abs).sealed = false
  unread : (s.tileAt d.core d.abs).oldReaders = 0
  below : (s.tileAt d.core d.abs).vint < 65534

/-- The end of a pass exports the view and publishes it. -/
theorem mmaPublish_advances {s : State} {me : SlotId} {d : ReadRef} (hd : (s.headAt me.core me.slot .m).dst = some d)
    (hcut : (s.headAt me.core me.slot .m).sealCut = false) (h : s.Advances d) (v : Nat) :
    ∃ u, mmaPublish s me v = .ok u ∧ (u.tileAt d.core d.abs).vintage = ((s.tileAt d.core d.abs).vint + 1, .ready) := by
  obtain ⟨hus, hs, ho, hv⟩ := h
  have hdst : (s.slotAt me.core me.slot).mring.head.dst = some d := hd
  have ht : (s.passExport me d).tileAt d.core d.abs = s.tileAt d.core d.abs :=
    passExport_keeps (·.tile d.abs) (fun _ => rfl) (fun _ _ _ => rfl) s me d d.core
  have hin : (s.passExport me d).unsealing d.core d.abs := by
    rw [State.unsealing, passExport_keeps (·.sealsIn) (fun _ => rfl) (fun _ _ _ => rfl)]
    exact hus
  have hpub (keep : Bool) := publish_advances (pub := me) (keep := keep) hin (by rwa [ht]) (by rwa [ht])
  refine ⟨((s.passExport me d).swapTile d.core d.abs (decide (v < (s.slotAt me.core me.slot).mmaRegs.passes))).count me.core 0x16
    (some me.slot), ?_, ?_⟩
  · unfold mmaPublish
    simp only [hdst, landSeal_unsealing hus, hcut, Bool.false_eq_true, if_false, ho, ne_eq, not_true_eq_false, and_false, hs]
    exact congrArg (fun r : PubRes => match r with
      | .published s => UnitRes.ok s
      | .refused s => .ok (s.modHead me.core me.slot .m fun h => { h with sealCut := true })
      | .fault => .fault fVintage 0) (hpub _)
  · rw [vintage_of_sameStores (SameStores.refl _).count, vintage_swapTile, ht]

/-- The last unit of a command is the end of its last pass. -/
theorem lastUnit_ends_pass {n p u : Nat} (hn : n + 1 = p * (u + 1)) : n % (u + 1) = u := by
  obtain ⟨q, rfl⟩ : ∃ q, p = q + 1 := by
    refine Nat.exists_eq_add_one.mpr (Nat.pos_of_ne_zero ?_)
    rintro rfl
    omega
  obtain rfl : n = u + (u + 1) * q := by
    rw [Nat.succ_mul, Nat.mul_comm] at hn
    omega
  rw [Nat.add_mul_mod_self_left, Nat.mod_eq_of_lt u.lt_succ_self]

/-- Where a refining command ends a pass, its unit publishes. -/
theorem mmaUnit_publishes {s : State} {me : SlotId} {i : Nat} (hact : (s.headAt me.core me.slot .m).phase = .active)
    (hcut : (s.headAt me.core me.slot .m).sealCut = false) (hpv : (s.slotAt me.core me.slot).mmaRegs.c.pv ≠ 0)
    (hi : i % passUnits (s.slotAt me.core me.slot).mmaRegs.rows = (s.slotAt me.core me.slot).mmaRegs.steps + 1) :
    mmaUnit me me s i = mmaPublish s me (i / passUnits (s.slotAt me.core me.slot).mmaRegs.rows + 1) := by
  have hregs : Machine.mmaRegs (s.slotAt me.core me.slot) ((s.ringAt me.core me.slot .m).headBits .m) =
      (s.slotAt me.core me.slot).mmaRegs := rfl
  have hne : (s.slotAt me.core me.slot).mmaRegs.steps + 1 ≠ (s.slotAt me.core me.slot).mmaRegs.steps := Nat.succ_ne_self _
  have hgt : ¬ (s.slotAt me.core me.slot).mmaRegs.steps + 1 ≤ (s.slotAt me.core me.slot).mmaRegs.steps := Nat.not_succ_le_self _
  unfold mmaUnit
  simp only [hregs, hi, hne, false_and, if_false, hact, hcut, Bool.false_and, Bool.false_eq_true, Nat.succ_ne_zero, hgt, hpv]
  rfl

/-- The last pass of a refining command publishes its vintage, and the command ends. -/
theorem mma_publishes {s : State} (h : s.MmaAlone) (c : MmaCmd) {d : ReadRef} (hcut : s.me.mring.head.sealCut = false)
    (hpv : s.me.mmaRegs.c.pv ≠ 0) (hd : s.me.mring.head.dst = some d) (hlast : s.me.mring.head.prog + 1 = s.mUnits)
    (ha : s.Advances d) : ∃ u, (exec (.mma c) s = .next u ∧ exec (.mmas c) s = .next u) ∧
      (u.headAt s.cur.core s.cur.slot .m).phase = .finished ∧
      (u.tileAt d.core d.abs).vintage = ((s.tileAt d.core d.abs).vint + 1, .ready) := by
  have hb := sameStores_mBegun s
  have hsl : s.mBegun.slotAt s.myId.core s.myId.slot = s.me.beginHead .m := s.slotAt_beginHead ..
  have hregs : (s.mBegun.slotAt s.myId.core s.myId.slot).mmaRegs = s.me.mmaRegs := by rw [hsl, mmaRegs_beginHead]
  have hhead : s.mBegun.headAt s.myId.core s.myId.slot .m = { s.me.mring.head with phase := .active, begun := true } :=
    congrArg (fun sl : Slot => (sl.ring .m).head) hsl
  have hb' : s.mBegun.Advances d := by
    obtain ⟨hus, hs, ho, hv⟩ := ha
    refine ⟨?_, ?_, ?_, ?_⟩
    · rw [State.unsealing, hb.of_eq (·.sealsIn) fun _ => rfl]
      exact hus
    all_goals rwa [hb.tileAt]
  have hmod := lastUnit_ends_pass hlast
  obtain ⟨u, hu, hvint⟩ := mmaPublish_advances (by rw [hhead]; exact hd) (by rw [hhead]; exact hcut) hb'
    (s.me.mring.head.prog / passUnits s.me.mmaRegs.rows + 1)
  have hunit : mmaUnit s.myId s.myId s.mBegun s.me.mring.head.prog = .ok u := by
    rw [mmaUnit_publishes (by rw [hhead]) (by rw [hhead]; exact hcut) (by rwa [hregs]) (by rw [hregs]; exact hmod), hregs, hu]
  have hrun : runUnits (mmaUnit s.myId s.myId) (fun _ => false) (s.mUnits - s.me.mring.head.prog) s.mBegun
      s.me.mring.head.prog = (s.me.mring.head.prog + 1, .ok u) := by
    rw [← hlast, Nat.add_sub_cancel_left]
    exact runUnits_one hunit
  refine ⟨_, execMma_runs h c hrun, mProgressed_finished hlast.ge, ?_⟩
  have hm : SameStores u (s.mProgressed u (s.me.mring.head.prog + 1)) := (SameStores.refl u).modSlot
  rw [vintage_of_sameStores hm, hvint, hb.tileAt]

end Sys2Proof.Machine
end

section
namespace Sys2Proof.Machine

/-! ### The obligation on the matrix commands -/

/-- Settles O36: the one-unit commands by their unit, `MMA` and `MMAS` by an invariant of their units. -/
theorem matrixResults : Obligations.MatrixResults := by
  refine ⟨?zero, ?units, ?oneUnits, ?mma, ?stepEnd, ?runs, ?notes, ?group⟩
  case zero =>
    intro s c h hj b n fin set
    refine ⟨fun hv => ?_, ?_, fun hv => ?_⟩
    · exact (exec_mzero c s).trans (congrArg _ (oneUnit_finished h hj (mzeroRun_zero hv)))
    · exact (exec_mzeroSet c s).trans (congrArg _ (oneUnit_finished h hj (mzeroRun_set ..)))
    · exact (exec_mzeroSetz c s).trans (congrArg _ (oneUnit_finished h hj (mzeroRun_setz hv)))
  case units =>
    intro s u c h hj b
    exact ⟨fun hu => (exec_mexp c s).trans (congrArg _ (oneUnit_finished h hj hu)),
      fun hu => (exec_mimp c s).trans (congrArg _ (oneUnit_finished h hj hu))⟩
  case oneUnits =>
    intro s c h src v a
    exact ⟨oneUnit_ends h (exec_mexp c s) (mexpRun_completes c _), fun hp => mimp_ends h hp⟩
  case mma =>
    intro s c hw hcoop hf h m n hcut
    have halone : s.MmaAlone := ⟨hw, hcoop, hf⟩
    refine ⟨fun hpv hp hq => mma_ends_passless halone c hcut hpv hp hq, ?_⟩
    intro d hpv hd hlast hus t hs ho hv i hi
    obtain ⟨u, ⟨hm, hms⟩, hfin, hvint⟩ := mma_publishes halone c hcut hpv hd hlast ⟨hus, hs, ho, hv⟩
    refine ⟨u, ?_, hfin, congrArg Prod.fst hvint, congrArg Prod.snd hvint⟩
    rcases hi with rfl | rfl
    · exact hm
    · exact hms
  case stepEnd =>
    intro s o s' sl w m hw hcoop hf hh hc hcut hpv hp hq hj
    exact ⟨_, mmaStepEnd_works hh hc,
      mmaWork_progresses (s := s.ofRing o .m) ⟨hw, hcoop, hf⟩ hcut hpv hp hq hj⟩
  case runs =>
    intro s t c hw hcoop hf m n j unit b at'
    have halone : s.MmaAlone := ⟨hw, hcoop, hf⟩
    refine ⟨fun hx => execMma_runs halone c hx, ?_⟩
    intro hc hst hh hn h1 h0 hend hu
    refine mmaStepEnd_one halone hst hh hc hn ?_ hu
    simp only [stepEnd, Bool.and_eq_true, bne_iff_ne]
    exact ⟨⟨h1, h0⟩, hend⟩
  case notes =>
    rintro s h r i (⟨rfl, rfl⟩ | ⟨rfl, rfl⟩ | ⟨rfl, rfl⟩) hl hp
    · exact (exec_mnote h s).trans (congrArg _ (noteEnd_decided hl hp))
    · exact (exec_xnote h s).trans (congrArg _ (noteEnd_decided hl hp))
    · exact (exec_snote h s).trans (congrArg _ (noteEnd_decided hl hp))
  case group =>
    intro s x ms sl m cores hn hm hfree hkey
    exact coOperativeGroupForm_forms rfl hn hm hfree hkey

end Sys2Proof.Machine
end
